-- ==== Sys2Proof/Word.lean ====
section
/-! DEFINITION. The word types of the block and their plainest arithmetic (R10: bit 0 is the least significant bit,
multi-byte values are little-endian). -/
namespace Sys2Proof

/-- One byte of memory. -/
abbrev Byte := BitVec 8

/-- A 32-bit word: a register word, an FP32 pattern or an immediate. -/
abbrev W32 := BitVec 32

/-- A 64-bit word: an operand, a fence, an address or a tick. -/
abbrev W64 := BitVec 64

/-- The value of the bits `lo` to `lo + width − 1` of `v` (R10). -/
def bits (v lo width : Nat) : Nat := v / 2 ^ lo % 2 ^ width

/-- The single bit `i` of `v`. -/
def bit (v i : Nat) : Bool := bits v i 1 == 1

/-- The number 1 for true and 0 for false, the value a one-bit field takes. -/
def flag (b : Bool) : Nat := if b then 1 else 0

/-- A 64-bit value out of its two 32-bit words (R10). -/
def join64 (lo hi : Nat) : Nat := lo % 2 ^ 32 + hi % 2 ^ 32 * 2 ^ 32

/-- The two's complement reading of the low `width` bits of `v` (R11). -/
def signed (width v : Nat) : Int :=
  if v % 2 ^ width < 2 ^ (width - 1) then (v % 2 ^ width : Nat) else (v % 2 ^ width : Nat) - (2 ^ width : Nat)

/-- The low `width` bits of the two's complement pattern of `x` (R11). -/
def unsigned (width : Nat) (x : Int) : Nat := (x % (2 ^ width : Nat)).toNat

end Sys2Proof
end

