-- ==== Sys2Proof/Syntax.lean ====
section
/-! DEFINITION. The commands of the block: one constructor of `Instr` for each row of spec/opcode_table.json, with the
operands the sender gives. Instances are `Fin` values, so none can be named that the module does not have (R17, R42). -/
namespace Sys2Proof

/-- Partition P0–P7. -/
abbrev PartId := Fin 8
/-- Physical cluster C00–C25 of a partition. -/
abbrev ClusterId := Fin 26
/-- Logical cluster 0–23 of a partition (R151). -/
abbrev LogicalCluster := Fin 24
/-- Physical wing W0–W8 of a stack. -/
abbrev WingId := Fin 9
/-- Bank 0–31 of a wing. -/
abbrev BankId := Fin 32
/-- Physical scale 0–527 of a bank. -/
abbrev ScaleId := Fin 528
/-- Hardware thread 0–95 of a cluster. -/
abbrev ThreadId := Fin 96
/-- Strand port 0–7 in the order of R293. -/
abbrev PortId := Fin 8
/-- HBM4 channel 0–31 of a stack. -/
abbrev ChannelId := Fin 32
/-- A module coordinate in the 18-bit layout of R292. -/
abbrev Coord := BitVec 18

/-- A sequencer command beside its opcode: the common 32 bytes and the four operands (R265). -/
structure Cmd where
  waitEn    : Bool
  waitFence : Fin 64
  sigEn     : Bool
  sigFence  : Fin 64
  sigPart   : PartId
  deferred  : Bool
  waitStep  : BitVec 16
  waitValue : W64
  strideLin : W32
  stridePar : W32
  a : W64
  b : W64
  c : W64
  d : W64
  deriving DecidableEq, Repr

/-- A thread instruction beside its op (R278). -/
structure TInstr where
  ra    : Fin 16
  rb    : Fin 16
  f     : BitVec 16
  imm32 : W32
  imm64 : W64
  deriving DecidableEq, Repr

/-- What a segment carries: A4 codes, or one of the two digits of an L2 tile (R101). -/
inductive SegKind where
  | a4 | high | low
  deriving DecidableEq, Repr

/-- An activation segment (R50): 1024 A4 codes and the FP16 block scales of its four quarters, with the product, token and
1024-row block of K that it belongs to. -/
structure Segment where
  product  : Nat
  token    : Nat
  rowBlock : Nat
  kind     : SegKind
  codes    : List (BitVec 4)
  scales   : List (BitVec 16)
  deriving DecidableEq, Repr

/-- A segment as it travels up a vertical link (R50): the product, token and block it belongs to, and its 17 granules of 32 bytes. -/
structure WireSegment where
  product  : Nat
  token    : Nat
  rowBlock : Nat
  kind     : SegKind
  bytes    : List Byte
  deriving DecidableEq, Repr

/-- A symbol error that physics puts into a block product's element as the engine forms it (R167). -/
structure Flip where
  i : Fin 128
  j : Fin 128
  x : W32
  deriving DecidableEq, Repr

/-- Work for the rotation unit (R85, R211): a 256-element block of an open product's token, or a transpose of 256 FP32
values from `src` to `dst` under a layer's signs. -/
inductive RotJob where
  | forward (product token block : Nat)
  | transpose (layer : Nat) (src dst : W64)
  deriving DecidableEq, Repr

/-- One cell of a row as a restore finds it (R70, R74): the scale, the physical column, the level it snaps to, and whether
it had drifted more than 0.35 level. -/
structure CellFound where
  scale  : ScaleId
  column : Fin 264
  code   : BitVec 4
  weak   : Bool
  deriving DecidableEq, Repr

/-- An abort token (R313). -/
structure Token where
  job    : BitVec 16
  step   : W64
  origin : Coord
  hops   : BitVec 8
  deriving DecidableEq, Repr

/-- Which round a round message belongs to (R312, R341). -/
inductive RoundKind where
  | flagRound | commitRound
  deriving DecidableEq, Repr

/-- The control message of a frame header (R296). -/
inductive CtrlMsg where
  | idle
  | abort (t : Token)
  | timing (depth : BitVec 8) (tick : W64) (phase : BitVec 16)
  | round (kind : RoundKind) (axis : Fin 4) (step : W64) (value : Bool)
  | lane (transmit : Bool) (lane : Fin 26) (first : W64)
  | keyEpoch (epoch : W32) (first : W64)
  deriving DecidableEq, Repr

/-- How a remote write ends (R303, R519): acknowledged, refused by its target, or ended on a broken route. -/
inductive RemoteResult where
  | accepted | refused | broken
  deriving DecidableEq, Repr

/-- What a granule on a strand link belongs to: a collective's message (R305), a remote write (R302), the answer to one (R303), or
one-hop management (R301). The spec lays out no message header (DESIGN CHOICE, log entry 47): the model carries this beside the granule's 32
bytes. `index` numbers the granules of a write of `len` bytes, `last` marks the end of a collective's message. -/
inductive Cargo where
  | coll (job : BitVec 16) (step : W64) (part : PartId) (tag : BitVec 16) (to_ : Coord) (last : Bool)
  | write (job : BitVec 16) (from_ to_ : Coord) (id : Nat) (addr : BitVec 41) (len index : Nat)
  | reply (to_ : Coord) (id : Nat) (result : RemoteResult)
  | mgmt
  deriving DecidableEq, Repr

/-- One granule on its way over strand links: its virtual channel, its 32 data bytes, its poison mark and what it belongs to (R295, R296,
R301). -/
structure Slot where
  vc     : Fin 4
  data   : List Byte
  poison : Bool
  cargo  : Cargo
  deriving DecidableEq, Repr

/-- How a frame arrives (R297, R318): the bytes that arrive in error, and the time from the tick edge to its first bit in 16 ps units. -/
structure Arrival where
  errors : List (Fin 2688)
  phase  : BitVec 16
  deriving DecidableEq, Repr

/-- Why a lane moves to a spare (R300): its corrected symbols, a position common to two bad frames, or the loss of its signal. -/
inductive LaneCause where
  | corrected | common | signal
  deriving DecidableEq, Repr

/-- A die sensor (R421, R403). -/
inductive Sensor where
  | thorax (t : Fin 4)
  | stack (p : PartId)
  | wingDie (p : PartId) (w : WingId)
  | hbm (p : PartId)
  | channel (p : PartId) (ch : ChannelId)
  | spinneret
  deriving DecidableEq, Repr

/-- A trip of R422 with the part it names. -/
inductive TripCause where
  | thorax (t : Fin 4)
  | wingStack (p : PartId)
  | hbm (p : PartId)
  | spinneret
  | overcurrent | undervoltage | overvoltage
  | sharedDomain (n : Fin 4)   -- domain 92 + n
  deriving DecidableEq, Repr

/-- A block that hang detection watches and an engine reset clears (R329, R332). -/
inductive Block where
  | cluster (p : PartId) (c : ClusterId)
  | update (p : PartId)
  | rotation (p : PartId)
  | wing (p : PartId) (w : WingId)
  | sequencer (p : PartId)
  | tileMover (p : PartId) (c : ClusterId)
  | channel (p : PartId) (ch : ChannelId)
  | port (i : PortId)
  | hostDma
  deriving DecidableEq, Repr

/-- A unit that a pattern sweep runs (R375). -/
inductive SweepUnit where
  | cluster (c : ClusterId)
  | rotation
  | update
  deriving DecidableEq, Repr

/-- A point at which poison is consumed (R369), numbered as THX_POISON_STATUS.point. -/
inductive PoisonPoint where
  | command | gradient | updateEngine | reseat | encryption | decryption | fence
  deriving DecidableEq, Repr

/-- A management action on a block's operating state (R27). -/
inductive MgmtAction where
  | grant (w : WingId) (g : BitVec 16)
  | gain (w : WingId) (b : BankId) (s : ScaleId) (g : Fin 4)
  | wingPower (w : WingId) (on : Bool)
  deriving DecidableEq, Repr

/-- What a pair of measurement runs measured (R390, R393). -/
inductive MeasTarget where
  | wingReference
  | ladder (b : BankId) (s : ScaleId)
  | pulse (b : BankId) (s : ScaleId)
  | converter (b : BankId) (s : ScaleId) (column : Fin 264)
  deriving DecidableEq, Repr

/-- The figures of the two runs (R393), in 2^-10 code: the offset and the gain difference (measured minus 896) of each,
the larger nonlinearity, and σ_n in FP16. For a ladder, a pulse or the wing reference the gain figures hold the error as its effect at
full scale. -/
structure MeasRuns where
  offset1 : Int
  offset2 : Int
  gain1   : Int
  gain2   : Int
  inl     : Nat
  sigma   : BitVec 16
  deriving DecidableEq, Repr

/-- Oscillators and PLLs (R412, R430). -/
inductive Pll where
  | reference | management | measurement | pcie
  | thorax (t : Fin 4)
  | wing (s : PartId)
  | hbm (p : PartId)
  | serdes (i : PortId)
  deriving DecidableEq, Repr

/-- Sources of the module reference (R410), in the order of CLK_REF_STATUS.source. -/
inductive RefSource where
  | crystal | refclk | port (i : PortId) | holdover
  deriving DecidableEq, Repr

/-- Requesters of urgent measurements (R405). -/
inductive UrgentRequester where
  | thermal
  | calibration (p : PartId)
  deriving DecidableEq, Repr

/-- A symbol error in a stored codeword (R364): the byte of the 36-byte codeword and its difference. -/
structure Upset where
  byte : Fin 36
  x    : Byte
  deriving DecidableEq, Repr

/-- Where an engine's operand lies (R187, R190). -/
inductive Space where
  | device | tile | wide
  deriving DecidableEq, Repr

/-- A granule that an engine of a cluster reads and finds with symbol errors (R365): of device memory, of the cluster's tile buffers or of its
wide buffer, by number of the granule in its space. -/
structure ReadError where
  space   : Space
  granule : Nat
  upsets  : List Upset
  deriving DecidableEq, Repr

/-- Why a partition's or the module's stage stalls (PWR_INSTAR.cause, R432). -/
inductive StallCause where
  | firmware | pll | bound | jobPort | tick
  deriving DecidableEq, Repr

/-- What a member of a collective contributes or sends (R304): its bytes, and the 32-byte granules of them that are poisoned. -/
structure Member where
  data   : List Byte
  poison : List Nat
  deriving DecidableEq, Repr

/-- The commands, one constructor for each row of spec/opcode_table.json, in the table's order. -/
inductive Instr where
  -- sequencer commands (R266); `c` is the command's 64 bytes beside the opcode
  | nop (p : PartId) (c : Cmd)
  | stepMark (p : PartId) (c : Cmd)
  | stepBoundary (p : PartId)
  | kernel (p : PartId) (c : Cmd)
  | analogue (p : PartId) (c : Cmd)
  | reseat (p : PartId) (c : Cmd)
  | update (p : PartId) (c : Cmd)
  | move (p : PartId) (c : Cmd)
  -- collectives (R304); `peers` are the source buffers of the members in member order; the own one is ignored;
  -- `raised` says that the stream has raised the local non-finite flag (R237)
  | reduceScatter (p : PartId) (c : Cmd) (peers : List Member)
  | allGather (p : PartId) (c : Cmd) (peers : List Member)
  | allReduce (p : PartId) (c : Cmd) (peers : List Member)
  | flagRound (p : PartId) (c : Cmd) (raised : Bool)
  | shiftUp (p : PartId) (c : Cmd) (received : Member)
  | shiftDown (p : PartId) (c : Cmd) (received : Member)
  | hitchOpen (p : PartId) (c : Cmd)
  | hitchCommit (p : PartId) (c : Cmd)
  | hitchPush (p : PartId) (c : Cmd)
  | hitchResume (p : PartId) (c : Cmd)
  | hitchCheckpoint (p : PartId) (c : Cmd)
  | hitchRestore (p : PartId) (c : Cmd)
  | ringIn (p : PartId) (c : Cmd)
  | ringOut (p : PartId) (c : Cmd)
  | commandComplete (p : PartId) (id : Nat)
  | launchComplete (p : PartId)
  | ringPoll (p : PartId) (r : Fin 4)
  | launchEntry (p : PartId)
  | skipEntry (p : PartId)
  -- thread instructions and cluster engines (R278, R154); `errs` are the granules read with symbol errors
  | tileMoverRequest (p : PartId) (c : LogicalCluster) (t : ThreadId) (i : TInstr)
  | tileMoverComplete (p : PartId) (c : LogicalCluster) (id : Nat) (errs : List ReadError)
  | mma (p : PartId) (c : LogicalCluster) (t : ThreadId) (i : TInstr)
  | vec (p : PartId) (c : LogicalCluster) (t : ThreadId) (i : TInstr)
  | sync (p : PartId) (c : LogicalCluster) (t : ThreadId) (i : TInstr)
  | addi (p : PartId) (c : LogicalCluster) (t : ThreadId) (i : TInstr)
  | setc (p : PartId) (c : LogicalCluster) (t : ThreadId) (i : TInstr)
  | loop (p : PartId) (c : LogicalCluster) (t : ThreadId) (i : TInstr)
  | exit (p : PartId) (c : LogicalCluster) (t : ThreadId) (i : TInstr)
  | blockProductEnd (p : PartId) (c : LogicalCluster) (flips : List Flip) (errs : List ReadError)
  | blockRecompute (p : PartId) (flips : List Flip)
  | clusterTakeover (p : PartId) (errs : List ReadError)
  | auditRecompute (p : PartId) (flips2 flips3 : List Flip)
  -- vector descriptors (R182)
  | add (p : PartId) (c : LogicalCluster) (errs : List ReadError)
  | mul (p : PartId) (c : LogicalCluster) (errs : List ReadError)
  | fma (p : PartId) (c : LogicalCluster) (errs : List ReadError)
  | cmp (p : PartId) (c : LogicalCluster) (errs : List ReadError)
  | select (p : PartId) (c : LogicalCluster) (errs : List ReadError)
  | min (p : PartId) (c : LogicalCluster) (errs : List ReadError)
  | max (p : PartId) (c : LogicalCluster) (errs : List ReadError)
  | vecDescriptorComplete (p : PartId) (c : LogicalCluster)
  -- analogue path (R50–R105)
  | activationSegment (p : PartId) (w : Fin 8) (direct : Option WireSegment)
  | rotateBlock (p : PartId) (job : RotJob)
  | scaleOperation (p : PartId) (w : Fin 8)
  | scaleOperationEnd (p : PartId) (w : Fin 8) (id : Nat)
  | l3Tile (p : PartId) (w : Fin 8) (tile : Nat)
  | productOutput (p : PartId) (product token group : Nat)
  | monitorWindowEvaluation (p : PartId) (w : WingId) (b : BankId) (s : ScaleId)
  | ladderStormRaised (p : PartId)
  | ladderStormCleared (p : PartId)
  | rowRestore (p : PartId) (w : WingId) (b : BankId) (lateNs : Nat) (found : List CellFound)
  | linkStall (p : PartId) (w : WingId)
  | debugRowReadRequest (p : PartId) (w : WingId) (row : BitVec 10)
  | debugRowRead (p : PartId) (w : WingId)
  -- re-seat (R133–R145)
  | seatTile (p : PartId) (seat : Nat)
  | reseatRowWrite (p : PartId) (seat : Nat) (verify : List (List (Fin 264)))
  | seatComplete (p : PartId) (seat : Nat)
  | spareLoadComplete (p : PartId) (seat : Nat)
  | wearCopy
  -- update (R234–R239)
  | updatePass (p : PartId)
  | updateChunk (p : PartId)
  | updatePassEnd (p : PartId)
  -- strand fabric (R295–R322)
  | strandFrameSend (i : PortId) (errs : List (Fin 75 × List Upset))
  | strandFrameReceive (i : PortId) (wire : List Byte) (cargo : List (Option Cargo)) (a : Arrival)
  | linkDown (i : PortId) (byReplay : Bool)
  | laneSpare (i : PortId) (transmit : Bool) (lane : Fin 26) (cause : LaneCause)
  | laneManagementMessage (i : PortId) (transmit : Bool) (lane : Fin 26) (first : W64)
  | remoteWrite (from_ : Coord) (id : Nat) (job : BitVec 16) (addr : BitVec 41) (data : List Byte) (poison : List Nat)
  | remoteWriteTimeout (id : Nat)
  | flagRoundMessage (i : PortId) (kind : RoundKind) (axis : Fin 4) (step : W64) (value : Bool)
  | abortToken (i : PortId) (t : Token)
  | abortAct
  | abortGo
  | timingMessageSend (i : PortId) (phase : BitVec 16)
  | timingMessage (i : PortId) (depth : BitVec 8) (tick : W64) (phase arrival : BitVec 16)
  | timingParentSelect
  | holdoverExpired
  | realign
  | tickAligned
  | portEnable (i : PortId)
  | portRetrain (i : PortId)
  | portTrained (i : PortId) (neighbour : Coord) (rtt : BitVec 16) (entropy : List Byte)
  | keyEpochMessage (i : PortId) (epoch : W32) (first : W64)
  | linkKeyRollover (i : PortId)
  -- failure recovery (R330–R335, R354)
  | hangTimeout (b : Block)
  | engineResetTimeout (b : Block)
  | partitionResetRequest (p : PartId)
  | partitionResetDone (p : PartId)
  | partitionResetTimeout (p : PartId)
  | moduleResetRequest
  | watchdogReset
  | hbmChannelFailure (p : PartId) (ch : ChannelId)
  | managementAction (p : PartId) (a : MgmtAction)
  -- safety (R366–R377)
  | poisonConsumed (p : PartId) (point : PoisonPoint)
  | mirrorRebuild (p : PartId) (granule : W64)
  | scrub (p : PartId) (ch : ChannelId) (found : List (W64 × List Upset))
  | patternSweep (p : PartId) (u : SweepUnit) (passed : Bool)
  | cocoonRecordWrite (p : PartId)
  | errcntClear (off : BitVec 28)
  -- calibration and measurement (R388–R405)
  | calibrationCommand (p : PartId) (wings : BitVec 9)
  | driftEvaluation (p : PartId) (w : WingId) (b : BankId) (s : ScaleId)
  | calibrationStart (p : PartId) (w : WingId)
  | measurementRunEnd (p : PartId) (w : WingId) (what : MeasTarget) (runs : MeasRuns)
  | columnTakeover (p : PartId) (w : WingId) (b : BankId) (s : ScaleId)
  | takeoverEnd (p : PartId) (w : WingId) (b : BankId) (s : ScaleId)
  | calibrationComplete (p : PartId) (w : WingId)
  | trimApplication (p : PartId)
  | urgentRequest (m : Fin 4) (ch : Fin 32) (from_ : UrgentRequester)
  | measurementConversion (m : Fin 4) (value : Int)
  -- power, clocks and start (R411–R428)
  | thermalReading (readings : List (Sensor × BitVec 16))
  | trip (c : TripCause)
  | partitionTripRestart (p : PartId)
  | moduleTripRestart
  | controlInterval (watts : BitVec 16) (volts : BitVec 16)
  | domainPowerFault (n : Fin 96)
  | fabricPairOff (pairs : BitVec 4)
  | kill
  | powerGood (sris : Bool) (smbAddr : Fin 8)
  | instarReached (k : Fin 4) (retries : List (PartId × ChannelId))
  | instarStall (c : StallCause)
  | wingClear (p : PartId) (w : WingId)
  | pllStable (x : Pll)
  | pllUnlock (x : Pll)
  | referenceSourceChange (src : RefSource) (lost : Bool) (refclkValid : Bool)
  | sscApply
  -- sequencer registers with a row of their own (R279, R284, R289, R290)
  | featureEnable (value : W64)
  | contextBind (p : PartId) (valid : Bool) (ctx : Fin 8)
  | sequencerRun (p : PartId) (run : Bool)
  | fenceClear (p : PartId)
  | ringEnable (p : PartId) (r : Fin 4) (cfg : W32)
  | rateWindow (p : PartId)
  -- security (R436–R459)
  | reportRequest
  | keyRelease
  | sealedLoad (slot : BitVec 8)
  | slotClear (slot : BitVec 8)
  | commitSvn
  | hostDma (write : Bool) (addr : BitVec 41) (data : List Byte) (poisoned : Bool)
  | selfTest (pairsOk : BitVec 4) (portsOk : BitVec 8)
  -- performance monitor (R466–R474); `added` is what the source's clock added since the last event
  | slotConfigure (n : Fin 64) (cfg : W32)
  | counterWrap (n : Fin 64) (added : BitVec 48)
  | liveRead (req : Nat) (n : Fin 64) (added : BitVec 48)
  | snapshot
  | userSnapshot
  | snapshotLatch (added : List (Fin 64 × BitVec 48))
  | clearAll
  | tagDrain
  -- register space (R479–R489, R507)
  | lowerWordRead (req : Nat) (off : BitVec 28)
  | registerWrite (req : Nat) (off : BitVec 28) (data : List Byte)
  | intRearm (vectors : BitVec 16)
  | smbusRegisterRead (off : BitVec 28)
  | smbusRegisterWrite (off : BitVec 28) (value : W32)
  | smbusReportRead (piece : BitVec 16)
  | smbusChallenge (challenge : List Byte)
  -- host interface pins and link (R416, R502, R503)
  | perstAssert
  | perstRelease
  | pcieLinkUp (speed : Fin 7) (width : Fin 17) (retrain : Bool)
  | pcieLinkDown
  | powerLoss
  | engineResetComplete (b : Block)
  | pcieCompletionTimeout
  | ideKmMessage (body : List Byte)
  | functionLevelReset
  deriving DecidableEq, Repr

end Sys2Proof
end

