-- ==== Sys2Proof/Machine/Code.lean ====
section
/-! DEFINITION. The G36 code of a granule (R364–R367): arithmetic of GF(2⁸), check bytes, syndromes and the decoder's classes. -/
namespace Sys2Proof.Machine

/-- Multiply by x in GF(2⁸) modulo x⁸ + x⁴ + x³ + x² + 1 (R364). -/
def gfDouble (a : Nat) : Nat := if a < 128 then 2 * a else (2 * a) ^^^ 0x11D

/-- Multiply in GF(2⁸); `n` bits of `b` are used. -/
def gfMulN (a : Nat) : Nat → Nat → Nat
  | 0, _ => 0
  | n + 1, b => (if b % 2 = 1 then a else 0) ^^^ gfMulN (gfDouble a) n (b / 2)

/-- The product in GF(2⁸). -/
def gfMul (a b : Nat) : Nat := gfMulN a 8 b

/-- A power of α = 0x02. -/
def alphaPow : Nat → Nat
  | 0 => 1
  | n + 1 => gfDouble (alphaPow n)

/-- A codeword's value at a point; the coefficients run from x⁰ up (R364). -/
def gfEval (x : Nat) : List Nat → Nat
  | [] => 0
  | c :: cs => c ^^^ gfMul x (gfEval x cs)

/-- The coefficients of a codeword from x⁰ up: check bytes p₀–p₃, then data bytes 0–31 (R364). -/
def codeword (data checks : List Nat) : List Nat := checks ++ data

/-- The four syndromes of a word (R364). -/
def syndromes (w : List Nat) : List Nat := (List.range 4).map (fun k => gfEval (alphaPow k) w)

/-- The remainder of a polynomial, coefficients from the highest down, by the monic divisor x⁴ + g₃x³ + g₂x² + g₁x + g₀; `r` holds the
remainder so far from x³ down. -/
def gfRem (g : List Nat) (r : List Nat) : List Nat → List Nat
  | [] => r
  | d :: ds =>
    let top := r.headD 0
    gfRem g (List.zipWith (fun a b => a ^^^ gfMul top b) (r.drop 1 ++ [d]) g) ds

/-- g(x) = (x − 1)(x − α)(x − α²)(x − α³) without its leading 1, from x³ down. -/
def genPoly : List Nat :=
  let mul := fun (p : List Nat) (a : Nat) => List.zipWith (fun u v => u ^^^ v) (p ++ [0]) (0 :: p.map (gfMul a))
  ((List.range 4).foldl (fun p k => mul p (alphaPow k)) [1]).drop 1

/-- The check bytes p₀–p₃ of 32 data bytes (R364). -/
def checkBytes (data : List Nat) : List Nat := (gfRem genPoly [0, 0, 0, 0] (data.reverse ++ [0, 0, 0, 0])).reverse

/-- The poison pattern as an error of a codeword (R367). -/
def poisonPattern : List Nat := [0x3B, 0xD2, 0x81, 0x6E] ++ List.replicate 32 0

/-- The sum of two words. -/
def addWords (a b : List Nat) : List Nat := List.zipWith (fun u v => u ^^^ v) a b

/-- The single symbol error that has the syndromes, if one does: its place from x⁰ and its value. -/
def singleError (s : List Nat) : Option (Nat × Nat) :=
  let v := s.headD 0
  if v = 0 then none
  else ((List.range 36).find? (fun i => (List.range 4).map (fun k => gfMul v (alphaPow (k * i))) == s)).map (fun i => (i, v))

/-- What the decoder makes of a read (R365): delivered clean, corrected at a place, delivered poisoned with at most one symbol
corrected, or uncorrectable. -/
inductive Decoded where
  | clean
  | corrected (place value : Nat)
  | poisoned (fix : Option (Nat × Nat))
  | uncorrectable
  deriving DecidableEq, Repr

/-- Classify a word's difference from the code (R365). -/
def decodeGranule (w : List Nat) : Decoded :=
  let s := syndromes w
  if s = [0, 0, 0, 0] then .clean
  else match singleError s with
    | some e => .corrected e.1 e.2
    | none =>
      let q := syndromes (addWords w poisonPattern)
      if q = [0, 0, 0, 0] then .poisoned none
      else match singleError q with
        | some e => .poisoned (some e)
        | none => .uncorrectable

/-- The place of a codeword byte as an upset names it: data bytes 0–31, then p₀–p₃ (R364). -/
def upsetPlace (b : Fin 36) : Nat := if b.val < 32 then b.val + 4 else b.val - 32

/-- The error that upsets put into a stored codeword. -/
def upsetError (us : List Upset) : List Nat :=
  us.foldl (fun w u => w.modify (upsetPlace u.byte) (fun v => v ^^^ u.x.toNat)) (List.replicate 36 0)

end Sys2Proof.Machine
end

