-- ==== Sys2Proof/Config.lean ====
section
/-! DEFINITION. What an implementation fixes (fuse, flash and strap contents of the nominal part: DESIGN CHOICE, log
entries 2 and 3), and the free values: constants without a body, which no proof can evaluate (log entries 7 and 9). -/
namespace Sys2Proof.Config

/-- Device serial in the fuses (R490). DESIGN CHOICE, log entry 2. -/
def serial : Nat := 1
/-- Silicon stepping in the fuses (R490). DESIGN CHOICE, log entry 2. -/
def stepping : Nat := 0
/-- Fused SVN, the number of SVN fuses blown (R440). DESIGN CHOICE, log entry 2. -/
def fusedSvn : Nat := 0
/-- SVN of the firmware image that runs (R439). DESIGN CHOICE, log entry 3. -/
def imageSvn : Nat := 1
/-- Version of the firmware image that runs (R439). DESIGN CHOICE, log entry 3. -/
def fwVersion : Nat := 1

/-- Free value: the analogue deviation that one conversion adds to its exact charge, in 2^-16 code steps (R54, R63); its
argument is the number of the draw. -/
opaque analogueDeviation : Nat → Int

/-- Free value: the number of levels by which a written or sensed cell may have drifted is an operand of its command;
this one is the noise figure that a measurement run returns, in FP16 (R393, R395). -/
opaque measuredNoise : Nat → BitVec 16

/-- Free value: 32 bytes of the entropy source (R441, R457), by number of the draw. -/
opaque entropy : Nat → List Byte

/-- How many reference cycles lie between a stamp and the one before it in its tick, by draw (R471, log entry 7). -/
opaque cyclesOn : Nat → Nat

/-- Free value: the 8 check symbols over a frame header's first 130 bytes; the spec names no field polynomial or generator (R296). -/
opaque headerCheck : List Byte → List Byte

/-- Free value: the 2 check symbols of the lane code over a slot's 32 data bytes; the spec does not give the code (R295). -/
opaque slotCheck : List Byte → List Byte

/-- Free value: the link key of a port that no job link slot keys, by number of the port: the spec states none (R321, R457). -/
opaque portKey : Nat → List Byte

/-- AES-256-GCM encryption of R451 (the standard's function, not stated by the spec): key, nonce, associated data,
plaintext; answers ciphertext and 16-byte tag. -/
opaque gcmSeal : List Byte → List Byte → List Byte → List Byte → List Byte × List Byte

/-- AES-256-GCM decryption: key, nonce, associated data, ciphertext, tag; none where authentication fails. -/
opaque gcmOpen : List Byte → List Byte → List Byte → List Byte → List Byte → Option (List Byte)

/-- SHAKE256 with an output length in bytes. -/
opaque shake256 : List Byte → Nat → List Byte

/-- An XMSS signature (R438): the key's number, the leaf index, the message. -/
opaque xmssSign : Nat → Nat → List Byte → List Byte

/-- The XMSS public key of a key number (R438). -/
opaque xmssPublic : Nat → List Byte

/-- The identity certificate of the flash (R438). -/
opaque identityCertificate : List Byte

/-- The 32-byte firmware measurement of the image that runs (R440). -/
opaque firmwareMeasurement : List Byte

/-- Free value: whether the link runs in flit mode at a speed below 64 GT/s, by number of the draw (R493, R502). -/
opaque flitMode : Nat → Bool

/-- Free value: the device address at which the state of a chunk of a partition lies, by partition, header index and tensor; HITCH
restore writes there, and the spec does not say where it takes it from (R337, R356; log entry 64). -/
opaque chunkPlace : Nat → Nat → Nat → Nat

/-- The ML-KEM-1024 encapsulation key of a per-boot key pair's number (R441). -/
opaque mlkemPublic : Nat → List Byte

/-- ML-KEM-1024 decapsulation with a per-boot key pair's number (R449). -/
opaque mlkemDecaps : Nat → List Byte → List Byte

end Sys2Proof.Config
end

