-- ==== Sys2Proof/Machine/RegMap.lean ====
section
/-! DEFINITION. The register map: every field of every register table of the spec (R12, R13, R477, R486), as data taken
from those tables. A field is named REGISTER_field; a repeated register takes its index. -/
namespace Sys2Proof.Machine

/-- Access types of R13. `cnt` is an ERRCNT-format counter (R377), `pcie` a word that follows PCIe's rules (R494). -/
inductive Access where
  | ro | rw | w1c | w1s | cnt | pcie
  deriving DecidableEq, Repr

/-- A register field: byte offset of its register in the page, lowest bit, width, access and reset value (R12). -/
structure Field where
  off   : Nat
  lo    : Nat
  width : Nat
  acc   : Access
  reset : Nat
  deriving DecidableEq, Repr

/-- A register page of R477, with its instance. -/
inductive Page where
  | mgt | clk | pwr | sec | msr | pmc | hif | pmcUser
  | port (i : Nat) | fabG
  | part (p : Nat) | lad (p : Nat) | thx (p : Nat) | upd (p : Nat) | hch (p : Nat) | saf (p : Nat) | cal (p : Nat)
  | cluster (p c : Nat) | chan (p ch : Nat)
  | wing (p w : Nat) | bank (p w b : Nat) | scl (p w : Nat)
  deriving DecidableEq, Repr

/-! MGT page (R490) -/

/-- MGT_SERIAL.serial, R490: Device serial, as in the attestation report -/
def MGT_SERIAL_serial : Field := ⟨0x100, 0, 48, .ro, 0x0⟩
/-- MGT_DEVICE.device, R490: Module code of ULB-H4-768 -/
def MGT_DEVICE_device : Field := ⟨0x108, 16, 16, .ro, 0x4804⟩
/-- MGT_DEVICE.stepping, R490: Silicon stepping -/
def MGT_DEVICE_stepping : Field := ⟨0x108, 0, 8, .ro, 0x0⟩
/-- MGT_TICK.tick, R490: Current tether tick count, read under R480 -/
def MGT_TICK_tick : Field := ⟨0x110, 0, 64, .ro, 0x0⟩
/-- MGT_RESET_REQ.module, R490: Starts a module reset (R331, R335). Does not clear, since the page resets with the module. -/
def MGT_RESET_REQ_module : Field := ⟨0x118, 0, 1, .w1s, 0x0⟩
/-- MGT_ERR_MAP.pages, R490: Bit m: the page with map index 32k + m has moved under R378 -/
def MGT_ERR_MAP_pages (i : Nat) : Field := ⟨0x800 + 4 * i, 0, 32, .w1c, 0x0⟩
/-- MGT_INT_MAP.pages, R490: Bit m: the page with map index 32k + m has a pending interrupt (R489) -/
def MGT_INT_MAP_pages (i : Nat) : Field := ⟨0xC00 + 4 * i, 0, 32, .ro, 0x0⟩
/-- MGT_SIZE_0 … MGT_SIZE_15, the table of R286. -/
def MGT_SIZE (i : Nat) : Field := ⟨0x140 + 4 * i, 0, 32, .ro, 0⟩

/-! Clock page (R430) -/

/-- CLK_REF_CTL.use_refclk, R430: 1: the timing root uses REFCLK_IN when it is valid (R410) -/
def CLK_REF_CTL_use_refclk : Field := ⟨0x100, 0, 1, .rw, 0x0⟩
/-- CLK_REF_STATUS.source, R430: 00 crystal free-running, 01 REFCLK_IN, 10 recovered from a port, 11 holdover -/
def CLK_REF_STATUS_source : Field := ⟨0x104, 30, 2, .ro, 0x0⟩
/-- CLK_REF_STATUS.refclk_valid, R430: REFCLK_IN is valid under R410 -/
def CLK_REF_STATUS_refclk_valid : Field := ⟨0x104, 29, 1, .ro, 0x0⟩
/-- CLK_REF_STATUS.ref_stable, R430: The module reference is stable (R412) -/
def CLK_REF_STATUS_ref_stable : Field := ⟨0x104, 28, 1, .ro, 0x0⟩
/-- CLK_REF_STATUS.port, R430: Port index 0–7 when source is 10. 0xF otherwise. -/
def CLK_REF_STATUS_port : Field := ⟨0x104, 0, 4, .ro, 0xF⟩
/-- CLK_PLL_STABLE.measurement, R430: Measurement clock stable -/
def CLK_PLL_STABLE_measurement : Field := ⟨0x108, 30, 1, .ro, 0x0⟩
/-- CLK_PLL_STABLE.management, R430: Management PLL stable -/
def CLK_PLL_STABLE_management : Field := ⟨0x108, 29, 1, .ro, 0x0⟩
/-- CLK_PLL_STABLE.pcie, R430: PCIe PLL stable -/
def CLK_PLL_STABLE_pcie : Field := ⟨0x108, 28, 1, .ro, 0x0⟩
/-- CLK_PLL_STABLE.serdes, R430: Bit i: port i's PLL stable -/
def CLK_PLL_STABLE_serdes : Field := ⟨0x108, 20, 8, .ro, 0x0⟩
/-- CLK_PLL_STABLE.hbm, R430: Bit p: HBM4 PLL of Hp stable -/
def CLK_PLL_STABLE_hbm : Field := ⟨0x108, 12, 8, .ro, 0x0⟩
/-- CLK_PLL_STABLE.wing, R430: Bit s: wing timebase of Ss stable -/
def CLK_PLL_STABLE_wing : Field := ⟨0x108, 4, 8, .ro, 0x0⟩
/-- CLK_PLL_STABLE.thorax, R430: Bit n: Thorax PLL of Tn stable -/
def CLK_PLL_STABLE_thorax : Field := ⟨0x108, 0, 4, .ro, 0x0⟩
/-- CLK_SSC.out_rate, R430: CLKOUT rate, 25 + value kHz. Values above 10 act as 10. -/
def CLK_SSC_out_rate : Field := ⟨0x10C, 24, 4, .rw, 0x5⟩
/-- CLK_SSC.out_depth, R430: CLKOUT depth, value × 0.0625 %. 0 off. Values above 8 act as 8. -/
def CLK_SSC_out_depth : Field := ⟨0x10C, 16, 4, .rw, 0x0⟩
/-- CLK_SSC.thx_rate, R430: Thorax rate, 25 + value kHz. Values above 10 act as 10. -/
def CLK_SSC_thx_rate : Field := ⟨0x10C, 8, 4, .rw, 0x5⟩
/-- CLK_SSC.thx_depth, R430: Thorax depth, value × 0.0625 %. 0 off. Values above 8 act as 8. -/
def CLK_SSC_thx_depth : Field := ⟨0x10C, 0, 4, .rw, 0x0⟩
/-- CLK_OUT_CTL.out1, R430: CLKOUT1: 00 off, 01 100 MHz, 10 25 MHz, 11 acts as 00 -/
def CLK_OUT_CTL_out1 : Field := ⟨0x110, 4, 2, .rw, 0x0⟩
/-- CLK_OUT_CTL.out0, R430: CLKOUT0, encoded as out1 -/
def CLK_OUT_CTL_out0 : Field := ⟨0x110, 0, 2, .rw, 0x0⟩
/-- CLK_THX_FREQ.t3, R430: Clock of T3 in units of 8 MHz, before spread. 0xC8 is 1.6 GHz. 0x00 while stopped. -/
def CLK_THX_FREQ_t3 : Field := ⟨0x114, 24, 8, .ro, 0x0⟩
/-- CLK_THX_FREQ.t2, R430: The same for T2 -/
def CLK_THX_FREQ_t2 : Field := ⟨0x114, 16, 8, .ro, 0x0⟩
/-- CLK_THX_FREQ.t1, R430: The same for T1 -/
def CLK_THX_FREQ_t1 : Field := ⟨0x114, 8, 8, .ro, 0x0⟩
/-- CLK_THX_FREQ.t0, R430: The same for T0 -/
def CLK_THX_FREQ_t0 : Field := ⟨0x114, 0, 8, .ro, 0x0⟩

/-! Power page (R432) -/

/-- PWR_INSTAR.cause, R432: When stalled: 0x1 firmware not verified, 0x2 PLL not stable, 0x3 bound of a stage exceeded, 0x4 job port not up,
0x5 tick not aligned -/
def PWR_INSTAR_cause : Field := ⟨0x100, 4, 4, .ro, 0x0⟩
/-- PWR_INSTAR.stalled, R432: R428 -/
def PWR_INSTAR_stalled : Field := ⟨0x100, 2, 1, .ro, 0x0⟩
/-- PWR_INSTAR.instar, R432: Last stage reached, 0–3 -/
def PWR_INSTAR_instar : Field := ⟨0x100, 0, 2, .ro, 0x0⟩
/-- PWR_INSTAR_TICK.tick, R432: Tick at which Instar k was reached, for register k -/
def PWR_INSTAR_TICK_tick (i : Nat) : Field := ⟨0x108 + 8 * i, 0, 64, .ro, 0x0⟩
/-- PWR_BUDGET.watts, R432: Input budget in W (4,200). Values above 4,200 act as 4,200, and values below 1,500 act as 1,500. -/
def PWR_BUDGET_watts : Field := ⟨0x130, 0, 13, .rw, 0x1068⟩
/-- PWR_GRANT.grant, R432: Grant per analogue wing under R419. 0 acts as 1, and values above 16,384 act as 16,384. -/
def PWR_GRANT_grant : Field := ⟨0x134, 0, 15, .rw, 0x400⟩
/-- PWR_STORM_GRANT.grant, R432: Grant per analogue wing under R419. 0 acts as 1, and values above 16,384 act as 16,384. -/
def PWR_STORM_GRANT_grant : Field := ⟨0x138, 0, 15, .rw, 0x80⟩
/-- PWR_INPUT.watts, R432: Average input power of the last control interval, in W -/
def PWR_INPUT_watts : Field := ⟨0x13C, 16, 16, .ro, 0x0⟩
/-- PWR_INPUT.volts, R432: Input voltage in units of 10 mV -/
def PWR_INPUT_volts : Field := ⟨0x13C, 0, 16, .ro, 0x0⟩
/-- PWR_STATUS.limiting, R432: A step of R420 is in effect -/
def PWR_STATUS_limiting : Field := ⟨0x140, 31, 1, .ro, 0x0⟩
/-- PWR_STATUS.fab_on, R432: Bit x: fabric pair x is powered -/
def PWR_STATUS_fab_on : Field := ⟨0x140, 0, 4, .ro, 0x0⟩
/-- PWR_DOM_STATE.domains, R432: STATE: the domain is powered. FAULT: the domain is in power fault under R417. -/
def PWR_DOM_STATE_domains (i : Nat) : Field := ⟨0x150 + 4 * i, 0, 32, .ro, 0x0⟩
/-- PWR_DOM_FAULT.domains, R432: STATE: the domain is powered. FAULT: the domain is in power fault under R417. -/
def PWR_DOM_FAULT_domains (i : Nat) : Field := ⟨0x160 + 4 * i, 0, 32, .ro, 0x0⟩
/-- PWR_FAB_OFF.off, R432: Bit x: switch off fabric pair x under R418 -/
def PWR_FAB_OFF_off : Field := ⟨0x170, 0, 4, .rw, 0x0⟩
/-- PWR_OC_LIM.limit, R432: Overcurrent limit in units of 0.1 A (112.0 A). Values above 1,200 act as 1,200. -/
def PWR_OC_LIM_limit : Field := ⟨0x174, 0, 11, .rw, 0x460⟩
/-- PWR_THROT_T.temp, R432: Throttle threshold in 1/16 °C (100.0 °C). Values above 104.0 °C act as 104.0 °C. -/
def PWR_THROT_T_temp : Field := ⟨0x178, 0, 12, .rw, 0x640⟩
/-- PWR_P_STATE.state, R432: 00 off, 01 starting, held or restarting, 10 on, 11 failed -/
def PWR_P_STATE_state (i : Nat) : Field := ⟨0x180 + 4 * i, 30, 2, .ro, 0x0⟩
/-- PWR_P_STATE.storm, R432: PWR_STORM_GRANT applies -/
def PWR_P_STATE_storm (i : Nat) : Field := ⟨0x180 + 4 * i, 29, 1, .ro, 0x0⟩
/-- PWR_P_STATE.throttled, R432: R421 -/
def PWR_P_STATE_throttled (i : Nat) : Field := ⟨0x180 + 4 * i, 28, 1, .ro, 0x0⟩
/-- PWR_P_STATE.grant, R432: Effective grant of the partition's analogue wings -/
def PWR_P_STATE_grant (i : Nat) : Field := ⟨0x180 + 4 * i, 0, 15, .ro, 0x0⟩
/-- PWR_TRIP_CAUSE.kind, R432: 0x0 none, 0x1 Thorax overtemperature, 0x2 Wing stack overtemperature, 0x3 HBM4 overtemperature, 0x4 Spinneret
overtemperature, 0x5 overcurrent, 0x6 undervoltage, 0x7 overvoltage, 0x8 shared-domain power fault -/
def PWR_TRIP_CAUSE_kind : Field := ⟨0x1A0, 28, 4, .ro, 0x0⟩
/-- PWR_TRIP_CAUSE.instance, R432: Die, stack or domain number of the last trip -/
def PWR_TRIP_CAUSE_instance : Field := ⟨0x1A0, 0, 8, .ro, 0x0⟩
/-- PWR_TRIP_TICK.tick, R432: Tick of the last trip -/
def PWR_TRIP_TICK_tick : Field := ⟨0x1A8, 0, 64, .ro, 0x0⟩

/-! Security page (R461) -/

/-- SEC_MODE.engines_ok, R461: Bit k: engine pair k passed its tests -/
def SEC_MODE_engines_ok : Field := ⟨0x100, 4, 4, .ro, 0x0⟩
/-- SEC_MODE.exhausted, R461: R443 -/
def SEC_MODE_exhausted : Field := ⟨0x100, 3, 1, .ro, 0x0⟩
/-- SEC_MODE.ide, R461: Link IDE active -/
def SEC_MODE_ide : Field := ⟨0x100, 2, 1, .ro, 0x0⟩
/-- SEC_MODE.debug_locked, R461: R447 -/
def SEC_MODE_debug_locked : Field := ⟨0x100, 1, 1, .ro, 0x0⟩
/-- SEC_MODE.confidential, R461: R446 -/
def SEC_MODE_confidential : Field := ⟨0x100, 0, 1, .ro, 0x0⟩
/-- SEC_FW.commit_svn, R461: Raises the fused SVN to the image SVN (R440). Clears when done. -/
def SEC_FW_commit_svn : Field := ⟨0x104, 31, 1, .w1s, 0x0⟩
/-- SEC_FW.image_svn, R461: Image SVN of the running firmware -/
def SEC_FW_image_svn : Field := ⟨0x104, 8, 8, .ro, 0x0⟩
/-- SEC_FW.fused_svn, R461: Fused SVN -/
def SEC_FW_fused_svn : Field := ⟨0x104, 0, 8, .ro, 0x0⟩
/-- SEC_ID_INDEX.next, R461: Next identity index to be used -/
def SEC_ID_INDEX_next : Field := ⟨0x108, 0, 21, .ro, 0x0⟩
/-- SEC_RPT_CTL.go, R461: R445. Clears when the report is written. -/
def SEC_RPT_CTL_go : Field := ⟨0x10C, 31, 1, .w1s, 0x0⟩
/-- SEC_RPT_CTL.done, R461: The last report is written -/
def SEC_RPT_CTL_done : Field := ⟨0x10C, 30, 1, .ro, 0x0⟩
/-- SEC_RPT_CTL.att_left, R461: Signatures left on the attestation key -/
def SEC_RPT_CTL_att_left : Field := ⟨0x10C, 0, 11, .ro, 0x400⟩
/-- SEC_NONCE_CTR.value, R461: Next nonce counter value, or the address named by the register. Addresses are 64-byte aligned, and bits [5:0]
read 0. -/
def SEC_NONCE_CTR_value : Field := ⟨0x110, 0, 64, .ro, 0x0⟩
/-- SEC_RPT_ADDR.value, R461: Next nonce counter value, or the address named by the register. Addresses are 64-byte aligned, and bits [5:0]
read 0. -/
def SEC_RPT_ADDR_value : Field := ⟨0x118, 0, 64, .rw, 0x0⟩
/-- SEC_KR_ADDR.value, R461: Next nonce counter value, or the address named by the register. Addresses are 64-byte aligned, and bits [5:0]
read 0. -/
def SEC_KR_ADDR_value : Field := ⟨0x140, 0, 64, .rw, 0x0⟩
/-- SEC_LOAD_SRC.value, R461: Next nonce counter value, or the address named by the register. Addresses are 64-byte aligned, and bits [5:0]
read 0. -/
def SEC_LOAD_SRC_value : Field := ⟨0x148, 0, 64, .rw, 0x0⟩
/-- SEC_CHAL.chal, R461: Challenge bytes 4k to 4k + 3 for register k -/
def SEC_CHAL_chal (i : Nat) : Field := ⟨0x120 + 4 * i, 0, 32, .rw, 0x0⟩
/-- SEC_KR_CTL.go, R461: Starts a release (R449) or a load (R454). Clears when done. -/
def SEC_KR_CTL_go : Field := ⟨0x150, 31, 1, .w1s, 0x0⟩
/-- SEC_KR_CTL.done, R461: The last command has ended -/
def SEC_KR_CTL_done : Field := ⟨0x150, 30, 1, .ro, 0x0⟩
/-- SEC_KR_CTL.result, R461: 0x0 accepted, otherwise the result of R449 or R454. 0x1 for a release: releases are not offered, because
FEATURES bit 3 reads 0 (R449). -/
def SEC_KR_CTL_result : Field := ⟨0x150, 26, 4, .ro, 0x0⟩
/-- SEC_KR_CTL.slot, R461: Load slot used, or slot installed -/
def SEC_KR_CTL_slot : Field := ⟨0x150, 0, 8, .ro, 0x0⟩
/-- SEC_LOAD_CTL.go, R461: Starts a release (R449) or a load (R454). Clears when done. -/
def SEC_LOAD_CTL_go : Field := ⟨0x154, 31, 1, .w1s, 0x0⟩
/-- SEC_LOAD_CTL.done, R461: The last command has ended -/
def SEC_LOAD_CTL_done : Field := ⟨0x154, 30, 1, .ro, 0x0⟩
/-- SEC_LOAD_CTL.result, R461: 0x0 accepted, otherwise the result of R449 or R454. 0x1 for a release: releases are not offered, because
FEATURES bit 3 reads 0 (R449). -/
def SEC_LOAD_CTL_result : Field := ⟨0x154, 26, 4, .ro, 0x0⟩
/-- SEC_LOAD_CTL.slot, R461: Load slot used, or slot installed -/
def SEC_LOAD_CTL_slot : Field := ⟨0x154, 0, 8, .rw, 0x0⟩
/-- SEC_SLOT_SEL.go, R461: Clears the named slot (R450). Clears when done. -/
def SEC_SLOT_SEL_go : Field := ⟨0x160, 31, 1, .ro, 0x0⟩
/-- SEC_SLOT_SEL.slot, R461: Slot named -/
def SEC_SLOT_SEL_slot : Field := ⟨0x160, 0, 8, .rw, 0x0⟩
/-- SEC_SLOT_CLR.go, R461: Clears the named slot (R450). Clears when done. -/
def SEC_SLOT_CLR_go : Field := ⟨0x168, 31, 1, .w1s, 0x0⟩
/-- SEC_SLOT_CLR.slot, R461: Slot named -/
def SEC_SLOT_CLR_slot : Field := ⟨0x168, 0, 8, .rw, 0x0⟩
/-- SEC_SLOT_INFO.valid, R461: The selected slot holds a key -/
def SEC_SLOT_INFO_valid : Field := ⟨0x164, 31, 1, .ro, 0x0⟩
/-- SEC_SLOT_INFO.usage, R461: Usage of R448 -/
def SEC_SLOT_INFO_usage : Field := ⟨0x164, 29, 2, .ro, 0x0⟩
/-- SEC_SLOT_INFO.ctx, R461: Context bound -/
def SEC_SLOT_INFO_ctx : Field := ⟨0x164, 26, 3, .ro, 0x0⟩
/-- SEC_SLOT_INFO.epoch, R461: Installs into the slot since module reset -/
def SEC_SLOT_INFO_epoch : Field := ⟨0x164, 0, 24, .ro, 0x0⟩
/-- SEC_GRANT.valid, R461: Context c has a grant -/
def SEC_GRANT_valid (i : Nat) : Field := ⟨0x180 + 4 * i, 31, 1, .ro, 0x0⟩
/-- SEC_GRANT.mask, R461: Partitions context c may bind -/
def SEC_GRANT_mask (i : Nat) : Field := ⟨0x180 + 4 * i, 0, 8, .ro, 0x0⟩

/-! Measurement page (R406, R407) -/

/-- MSR_M_CFG.tint_sel, R406: 00 20 ms, 01 16.667 ms, 10 programmed, 11 acts as 00 -/
def MSR_M_CFG_tint_sel (i : Nat) : Field := ⟨0x100 + 16 * i, 30, 2, .rw, 0x0⟩
/-- MSR_M_CFG.cont, R406: 1 continuous scan, 0 single scan -/
def MSR_M_CFG_cont (i : Nat) : Field := ⟨0x100 + 16 * i, 29, 1, .rw, 0x1⟩
/-- MSR_M_CFG.en, R406: Scans run. Urgent requests are served whatever its value. -/
def MSR_M_CFG_en (i : Nat) : Field := ⟨0x100 + 16 * i, 28, 1, .rw, 0x1⟩
/-- MSR_M_CFG.tint_prog, R406: Programmed T_int in µs (20,000). Values below 1,000 act as 1,000. -/
def MSR_M_CFG_tint_prog (i : Nat) : Field := ⟨0x100 + 16 * i, 0, 20, .rw, 0x4E20⟩
/-- MSR_M_SCAN.mask, R406: Bit c: channel c is scanned. Reserved channels are never converted. -/
def MSR_M_SCAN_mask (i : Nat) : Field := ⟨0x104 + 16 * i, 0, 32, .rw, 0x0⟩
/-- MSR_M_STATUS.busy, R406: A conversion runs -/
def MSR_M_STATUS_busy (i : Nat) : Field := ⟨0x108 + 16 * i, 31, 1, .ro, 0x0⟩
/-- MSR_M_STATUS.urgent, R406: The running conversion is urgent -/
def MSR_M_STATUS_urgent (i : Nat) : Field := ⟨0x108 + 16 * i, 30, 1, .ro, 0x0⟩
/-- MSR_M_STATUS.queued, R406: Urgent requests waiting, 0–8 -/
def MSR_M_STATUS_queued (i : Nat) : Field := ⟨0x108 + 16 * i, 26, 4, .ro, 0x0⟩
/-- MSR_M_STATUS.channel, R406: Channel being converted -/
def MSR_M_STATUS_channel (i : Nat) : Field := ⟨0x108 + 16 * i, 0, 5, .ro, 0x0⟩
/-- MSR_DATA.valid, R407: The channel has been converted since reset -/
def MSR_DATA_valid (i : Nat) : Field := ⟨0x400 + 4 * i, 31, 1, .ro, 0x0⟩
/-- MSR_DATA.urgent, R407: The result came from an urgent request -/
def MSR_DATA_urgent (i : Nat) : Field := ⟨0x400 + 4 * i, 30, 1, .ro, 0x0⟩
/-- MSR_DATA.code, R407: Result, two's complement, scaled as in R403 -/
def MSR_DATA_code (i : Nat) : Field := ⟨0x400 + 4 * i, 0, 24, .ro, 0x0⟩
/-- MSR_TICK.tick, R407: Tick at which the result was written -/
def MSR_TICK_tick (i : Nat) : Field := ⟨0x800 + 8 * i, 0, 64, .ro, 0x0⟩

/-! Monitor page (R474, R475) -/

/-- PMC_CTL.clear_all, R474: Acts as a CFG write with en unchanged on every slot. Clears when done. -/
def PMC_CTL_clear_all : Field := ⟨0x100, 2, 1, .w1s, 0x0⟩
/-- PMC_CTL.user_en, R474: R472 -/
def PMC_CTL_user_en : Field := ⟨0x100, 1, 1, .rw, 0x0⟩
/-- PMC_CTL.en, R474: Slots count -/
def PMC_CTL_en : Field := ⟨0x100, 0, 1, .rw, 0x1⟩
/-- PMC_SNAP.go, R474: R469. Clears when the snapshot is complete. -/
def PMC_SNAP_go : Field := ⟨0x104, 31, 1, .w1s, 0x0⟩
/-- PMC_SNAP.done, R474: The last snapshot is complete -/
def PMC_SNAP_done : Field := ⟨0x104, 30, 1, .ro, 0x0⟩
/-- PMC_SNAP_TICK.tick, R474: Tick edge of the last snapshot -/
def PMC_SNAP_TICK_tick : Field := ⟨0x108, 0, 64, .ro, 0x0⟩
/-- PMC_TAG_CTL.drain, R474: Empties the record buffer -/
def PMC_TAG_CTL_drain : Field := ⟨0x120, 31, 1, .w1s, 0x0⟩
/-- PMC_TAG_CTL.log2, R474: Selection exponent of R470. Values below 4 act as 4, and values above 24 act as 24. -/
def PMC_TAG_CTL_log2 : Field := ⟨0x120, 8, 5, .rw, 0xA⟩
/-- PMC_TAG_CTL.part, R474: Bit p: tag commands of partition p -/
def PMC_TAG_CTL_part : Field := ⟨0x120, 0, 8, .rw, 0x0⟩
/-- PMC_TAG_STATUS.full, R474: The buffer holds 256 records -/
def PMC_TAG_STATUS_full : Field := ⟨0x128, 31, 1, .ro, 0x0⟩
/-- PMC_TAG_STATUS.count, R474: Records held, 0–256 -/
def PMC_TAG_STATUS_count : Field := ⟨0x128, 0, 9, .ro, 0x0⟩
/-- PMC_SLOT_CFG.type, R475: Source type of R464 -/
def PMC_SLOT_CFG_type (i : Nat) : Field := ⟨0x400 + 32 * i, 28, 4, .rw, 0x0⟩
/-- PMC_SLOT_CFG.partition, R475: Partition of the source -/
def PMC_SLOT_CFG_partition (i : Nat) : Field := ⟨0x400 + 32 * i, 25, 3, .rw, 0x0⟩
/-- PMC_SLOT_CFG.instance, R475: Instance number -/
def PMC_SLOT_CFG_instance (i : Nat) : Field := ⟨0x400 + 32 * i, 16, 9, .rw, 0x0⟩
/-- PMC_SLOT_CFG.event, R475: Event code -/
def PMC_SLOT_CFG_event (i : Nat) : Field := ⟨0x400 + 32 * i, 8, 8, .rw, 0x0⟩
/-- PMC_SLOT_CFG.mode, R475: R465 -/
def PMC_SLOT_CFG_mode (i : Nat) : Field := ⟨0x400 + 32 * i, 6, 2, .rw, 0x0⟩
/-- PMC_SLOT_CFG.user, R475: R472 -/
def PMC_SLOT_CFG_user (i : Nat) : Field := ⟨0x400 + 32 * i, 5, 1, .rw, 0x0⟩
/-- PMC_SLOT_CFG.en, R475: R466 -/
def PMC_SLOT_CFG_en (i : Nat) : Field := ⟨0x400 + 32 * i, 0, 1, .rw, 0x0⟩
/-- PMC_SLOT_STATUS.wrapped, R475: R467 -/
def PMC_SLOT_STATUS_wrapped (i : Nat) : Field := ⟨0x408 + 32 * i, 31, 1, .w1c, 0x0⟩
/-- PMC_SLOT_STATUS.interrupted, R475: R466 -/
def PMC_SLOT_STATUS_interrupted (i : Nat) : Field := ⟨0x408 + 32 * i, 30, 1, .w1c, 0x0⟩
/-- PMC_SLOT_STATUS.state, R475: 00 stopped, 01 counting, 10 refused, 11 reserved -/
def PMC_SLOT_STATUS_state (i : Nat) : Field := ⟨0x408 + 32 * i, 28, 2, .ro, 0x0⟩
/-- PMC_SLOT_STATUS.wraps_snap, R475: Wrap count at the last snapshot -/
def PMC_SLOT_STATUS_wraps_snap (i : Nat) : Field := ⟨0x408 + 32 * i, 8, 8, .ro, 0x0⟩
/-- PMC_SLOT_STATUS.wraps, R475: Wrap count, saturating at 255 -/
def PMC_SLOT_STATUS_wraps (i : Nat) : Field := ⟨0x408 + 32 * i, 0, 8, .ro, 0x0⟩
/-- PMC_SLOT_VAL.value, R475: Live count under R468, or the snapshot under R469 -/
def PMC_SLOT_VAL_value (i : Nat) : Field := ⟨0x410 + 32 * i, 0, 48, .ro, 0x0⟩
/-- PMC_SLOT_SNAP.value, R475: Live count under R468, or the snapshot under R469 -/
def PMC_SLOT_SNAP_value (i : Nat) : Field := ⟨0x418 + 32 * i, 0, 48, .ro, 0x0⟩
/-- PMC_TAG_SEED, R474. -/
def PMC_TAG_SEED : Field := ⟨0x124, 0, 32, .rw, 0⟩
/-- PMC_TAG_SEL, R474: the record shown; index 0 is the oldest. -/
def PMC_TAG_SEL : Field := ⟨0x130, 0, 8, .rw, 0⟩
/-- PMC_TAG_REC0 … 15, R474: the selected record's words, a view of the record buffer. -/
def PMC_TAG_REC (i : Nat) : Field := ⟨0x200 + 4 * i, 0, 32, .ro, 0⟩
/-- PMC_SLOT_THR.n, R475: the threshold N. -/
def PMC_SLOT_THR_n (i : Nat) : Field := ⟨0x404 + 0x20 * i, 0, 17, .rw, 0⟩

/-! HIF page (R493) -/

/-- HIF_STATE.state, R493: 00 starting, 01 ready (Instar 1 reached), 10 stalled (PWR_INSTAR.stalled), 11 tripped, held by a module trip -/
def HIF_STATE_state : Field := ⟨0x100, 0, 2, .ro, 0x0⟩
/-- HIF_LINK.ide, R493: A link IDE stream is active (R458) -/
def HIF_LINK_ide : Field := ⟨0x104, 11, 1, .ro, 0x0⟩
/-- HIF_LINK.sris, R493: 1: SRIS clocking. 0: common clock. -/
def HIF_LINK_sris : Field := ⟨0x104, 10, 1, .ro, 0x0⟩
/-- HIF_LINK.flit, R493: Flit mode in use -/
def HIF_LINK_flit : Field := ⟨0x104, 9, 1, .ro, 0x0⟩
/-- HIF_LINK.width, R493: Negotiated link width: 1, 2, 4, 8 or 16 -/
def HIF_LINK_width : Field := ⟨0x104, 4, 5, .ro, 0x0⟩
/-- HIF_LINK.speed, R493: Negotiated generation, 1–6, as PCIe encodes link speeds -/
def HIF_LINK_speed : Field := ⟨0x104, 0, 4, .ro, 0x0⟩
/-- HIF_INT_REARM.vector, R493: Bit v rearms vector v under R489. Clears once taken. -/
def HIF_INT_REARM_vector : Field := ⟨0x108, 0, 16, .w1s, 0x0⟩
/-- MSI-X table word `i`, four words a vector, in PCIe's layout (R494). The vector control word's mask bit resets to 1. -/
def HIF_MSIX (i : Nat) : Field := ⟨0x800 + 4 * i, 0, 32, .pcie, if i % 4 = 3 then 1 else 0⟩
/-- MSI-X pending bit of vector `i` (R494). -/
def HIF_PBA (i : Nat) : Field := ⟨0x900, i, 1, .ro, 0⟩

/-! Port page (R324) -/

/-- FAB_PORT_CTL.retrain, R324: Forces link-down and retraining. Clears when training starts. -/
def FAB_PORT_CTL_retrain : Field := ⟨0x100, 2, 1, .w1s, 0x0⟩
/-- FAB_PORT_CTL.job_member, R324: The neighbour belongs to this module's job (R313, R314) -/
def FAB_PORT_CTL_job_member : Field := ⟨0x100, 1, 1, .rw, 0x0⟩
/-- FAB_PORT_CTL.enable, R324: 1 trains and runs the port (R322) -/
def FAB_PORT_CTL_enable : Field := ⟨0x100, 0, 1, .rw, 0x0⟩
/-- FAB_PORT_STATE.link, R324: 00 down, 01 training, 10 up, 11 failed under R300 -/
def FAB_PORT_STATE_link : Field := ⟨0x104, 30, 2, .ro, 0x0⟩
/-- FAB_PORT_STATE.encrypted, R324: R321 in effect -/
def FAB_PORT_STATE_encrypted : Field := ⟨0x104, 29, 1, .ro, 0x0⟩
/-- FAB_PORT_STATE.parent, R324: This port is the timing parent -/
def FAB_PORT_STATE_parent : Field := ⟨0x104, 28, 1, .ro, 0x0⟩
/-- FAB_PORT_STATE.lanes_up, R324: Working physical lanes, transmit and receive both, 0–26 -/
def FAB_PORT_STATE_lanes_up : Field := ⟨0x104, 16, 5, .ro, 0x0⟩
/-- FAB_PORT_STATE.spares_left, R324: Spare lanes left in the poorer direction, 0–2 -/
def FAB_PORT_STATE_spares_left : Field := ⟨0x104, 8, 2, .ro, 0x0⟩
/-- FAB_PORT_STATE.nbr_depth, R324: Depth the neighbour advertises -/
def FAB_PORT_STATE_nbr_depth : Field := ⟨0x104, 0, 8, .ro, 0xFF⟩
/-- FAB_PORT_NBR.valid, R324: The neighbour's coordinate has been received -/
def FAB_PORT_NBR_valid : Field := ⟨0x108, 31, 1, .ro, 0x0⟩
/-- FAB_PORT_NBR.coord, R324: Neighbour coordinate, laid out as in R292 -/
def FAB_PORT_NBR_coord : Field := ⟨0x108, 0, 18, .ro, 0x0⟩
/-- FAB_PORT_TX_RETIRED.lanes, R324: Bit n set: physical lane n of that direction is retired -/
def FAB_PORT_TX_RETIRED_lanes : Field := ⟨0x10C, 0, 26, .ro, 0x0⟩
/-- FAB_PORT_RX_RETIRED.lanes, R324: Bit n set: physical lane n of that direction is retired -/
def FAB_PORT_RX_RETIRED_lanes : Field := ⟨0x110, 0, 26, .ro, 0x0⟩
/-- FAB_PORT_RTT.rtt, R324: Measured round trip in ns (R298) -/
def FAB_PORT_RTT_rtt : Field := ⟨0x114, 0, 16, .ro, 0x0⟩
/-- FAB_PORT_RETRY.limit, R324: Replay limit of R299. 0 acts as 1. -/
def FAB_PORT_RETRY_limit : Field := ⟨0x118, 0, 8, .rw, 0x8⟩
/-- FAB_PORT_CREDIT.vc3, R324: Credits held for VC3, in units of 1 KiB, saturating at 255 -/
def FAB_PORT_CREDIT_vc3 : Field := ⟨0x11C, 24, 8, .ro, 0x0⟩
/-- FAB_PORT_CREDIT.vc2, R324: The same for VC2 -/
def FAB_PORT_CREDIT_vc2 : Field := ⟨0x11C, 16, 8, .ro, 0x0⟩
/-- FAB_PORT_CREDIT.vc1, R324: The same for VC1 -/
def FAB_PORT_CREDIT_vc1 : Field := ⟨0x11C, 8, 8, .ro, 0x0⟩
/-- FAB_PORT_CREDIT.vc0, R324: The same for VC0 -/
def FAB_PORT_CREDIT_vc0 : Field := ⟨0x11C, 0, 8, .ro, 0x0⟩
/-- FAB_PORT_DOWN_TICK.tick, R324: Tick of the last link-down -/
def FAB_PORT_DOWN_TICK_tick : Field := ⟨0x120, 0, 64, .ro, 0x0⟩
/-- FAB_PORT_KEY.epoch, R324: Key epoch in use for transmission (R321) -/
def FAB_PORT_KEY_epoch : Field := ⟨0x128, 0, 32, .ro, 0x0⟩

/-! Fabric global page (R326) -/

/-- FAB_G_SYS.d, R326: Size on D, 1–32 -/
def FAB_G_SYS_d : Field := ⟨0x100, 24, 8, .rw, 0x1⟩
/-- FAB_G_SYS.c, R326: Size on C, 1–32 -/
def FAB_G_SYS_c : Field := ⟨0x100, 16, 8, .rw, 0x1⟩
/-- FAB_G_SYS.b, R326: Size on B, 1–16 -/
def FAB_G_SYS_b : Field := ⟨0x100, 8, 8, .rw, 0x1⟩
/-- FAB_G_SYS.a, R326: Size on A, 1–16. Out-of-range values in any field discard the write. -/
def FAB_G_SYS_a : Field := ⟨0x100, 0, 8, .rw, 0x1⟩
/-- FAB_G_JOB_DIM.d, R326: Size on D, 1–32 -/
def FAB_G_JOB_DIM_d : Field := ⟨0x10C, 24, 8, .rw, 0x1⟩
/-- FAB_G_JOB_DIM.c, R326: Size on C, 1–32 -/
def FAB_G_JOB_DIM_c : Field := ⟨0x10C, 16, 8, .rw, 0x1⟩
/-- FAB_G_JOB_DIM.b, R326: Size on B, 1–16 -/
def FAB_G_JOB_DIM_b : Field := ⟨0x10C, 8, 8, .rw, 0x1⟩
/-- FAB_G_JOB_DIM.a, R326: Size on A, 1–16. Out-of-range values in any field discard the write. -/
def FAB_G_JOB_DIM_a : Field := ⟨0x10C, 0, 8, .rw, 0x1⟩
/-- FAB_G_COORD.coord, R326: Coordinate, laid out as in R292 -/
def FAB_G_COORD_coord : Field := ⟨0x104, 0, 18, .rw, 0x0⟩
/-- FAB_G_JOB_ORIGIN.coord, R326: Coordinate, laid out as in R292 -/
def FAB_G_JOB_ORIGIN_coord : Field := ⟨0x108, 0, 18, .rw, 0x0⟩
/-- FAB_G_JOB.valid, R326: The module belongs to a job -/
def FAB_G_JOB_valid : Field := ⟨0x110, 31, 1, .rw, 0x0⟩
/-- FAB_G_JOB.id, R326: Job id -/
def FAB_G_JOB_id : Field := ⟨0x110, 0, 16, .rw, 0x0⟩
/-- FAB_G_CUT.data, R326: Axis of the data cut: 0 A, 1 B, 2 C, 3 D -/
def FAB_G_CUT_data : Field := ⟨0x114, 6, 2, .rw, 0x3⟩
/-- FAB_G_CUT.pipeline, R326: Axis of the pipeline cut -/
def FAB_G_CUT_pipeline : Field := ⟨0x114, 4, 2, .rw, 0x2⟩
/-- FAB_G_CUT.sequence, R326: Axis of the sequence cut -/
def FAB_G_CUT_sequence : Field := ⟨0x114, 2, 2, .rw, 0x1⟩
/-- FAB_G_CUT.tensor, R326: Axis of the tensor cut -/
def FAB_G_CUT_tensor : Field := ⟨0x114, 0, 2, .rw, 0x0⟩
/-- FAB_G_ABORT.go, R326: Emits a token for the current step (R313). Clears when sent. -/
def FAB_G_ABORT_go : Field := ⟨0x118, 0, 1, .w1s, 0x0⟩
/-- FAB_G_STATUS.busy, R326: A collective of the job is in flight -/
def FAB_G_STATUS_busy : Field := ⟨0x11C, 31, 1, .ro, 0x0⟩
/-- FAB_G_STATUS.in_flight, R326: Collectives in flight over all partitions, 0–32 -/
def FAB_G_STATUS_in_flight : Field := ⟨0x11C, 0, 6, .ro, 0x0⟩
/-- FAB_G_ABORT_STEP.value, R326: Step, or tick, of the last abort acted on (R315) -/
def FAB_G_ABORT_STEP_value : Field := ⟨0x120, 0, 64, .ro, 0x0⟩
/-- FAB_G_ABORT_TICK.value, R326: Step, or tick, of the last abort acted on (R315) -/
def FAB_G_ABORT_TICK_value : Field := ⟨0x128, 0, 64, .ro, 0x0⟩
/-- FAB_G_TIME_CTL.realign, R326: Loads count and phase from the parent in one step (R319). Clears when done. -/
def FAB_G_TIME_CTL_realign : Field := ⟨0x130, 1, 1, .w1s, 0x0⟩
/-- FAB_G_TIME_CTL.root, R326: This module is the timing root (R317) -/
def FAB_G_TIME_CTL_root : Field := ⟨0x130, 0, 1, .rw, 0x0⟩
/-- FAB_G_TIME_STATUS.state, R326: 00 unaligned, 01 aligned, 10 holdover, 11 holdover expired -/
def FAB_G_TIME_STATUS_state : Field := ⟨0x134, 30, 2, .ro, 0x0⟩
/-- FAB_G_TIME_STATUS.step_made, R326: The count was stepped by a realignment -/
def FAB_G_TIME_STATUS_step_made : Field := ⟨0x134, 29, 1, .w1c, 0x0⟩
/-- FAB_G_TIME_STATUS.depth, R326: Own depth, 0–63 -/
def FAB_G_TIME_STATUS_depth : Field := ⟨0x134, 8, 6, .ro, 0x3F⟩
/-- FAB_G_TIME_STATUS.parent, R326: Parent port index 0–7. 0xF: none. -/
def FAB_G_TIME_STATUS_parent : Field := ⟨0x134, 0, 4, .ro, 0xF⟩

/-! Partition page (R492) -/

/-- MGT_PT_STATE.state, R492: 00 off, 01 starting, held or in reset, 10 running, 11 failed -/
def MGT_PT_STATE_state : Field := ⟨0x100, 30, 2, .ro, 0x0⟩
/-- MGT_PT_STATE.cause, R492: When failed: 0x1 no spare cluster, 0x2 no spare wing, 0x3 HBM4 channel, 0x4 domain power fault, 0x5 rotation
unit or update engine sweep failure (R375) -/
def MGT_PT_STATE_cause : Field := ⟨0x100, 24, 4, .ro, 0x0⟩
/-- MGT_PT_FAIL_TICK.tick, R492: Tick of the partition's failure (R37) -/
def MGT_PT_FAIL_TICK_tick : Field := ⟨0x108, 0, 64, .ro, 0x0⟩

/-! Ladder page (R119) -/

/-- LAD_CTL.beta, R119: β of R95, FP16 (6.0) -/
def LAD_CTL_beta : Field := ⟨0x100, 16, 16, .rw, 0x4600⟩
/-- LAD_CTL.mode_eff, R119: Mode in effect -/
def LAD_CTL_mode_eff : Field := ⟨0x100, 1, 1, .ro, 0x1⟩
/-- LAD_CTL.mode, R119: 0 normal service, 1 flag mode (R112) -/
def LAD_CTL_mode : Field := ⟨0x100, 0, 1, .rw, 0x1⟩
/-- LAD_QUANT.clip, R119: c of R89, FP16 (3.0) -/
def LAD_QUANT_clip : Field := ⟨0x104, 0, 16, .rw, 0x4200⟩
/-- LAD_MAP_BASE.base, R119: Device-memory address of the ladder map, 4 KiB aligned -/
def LAD_MAP_BASE_base : Field := ⟨0x108, 12, 52, .rw, 0x0⟩
/-- LAD_MAP_CFG.depth, R119: Record ring slots. 0 disables the record. -/
def LAD_MAP_CFG_depth : Field := ⟨0x110, 16, 8, .rw, 0x40⟩
/-- LAD_MAP_CFG.layers, R119: Layer table entries, 0–4,096. Larger values act as 4,096. -/
def LAD_MAP_CFG_layers : Field := ⟨0x110, 0, 13, .rw, 0x0⟩
/-- LAD_STORM_CTL.frac, R119: Storm fraction in 1/256 units -/
def LAD_STORM_CTL_frac : Field := ⟨0x114, 16, 8, .rw, 0xE0⟩
/-- LAD_STORM_CTL.steps, R119: Consecutive steps to raise or clear a storm. 0 acts as 1. -/
def LAD_STORM_CTL_steps : Field := ⟨0x114, 0, 8, .rw, 0x4⟩
/-- LAD_STATUS.storm, R119: 1 during a ladder storm -/
def LAD_STATUS_storm : Field := ⟨0x118, 31, 1, .ro, 0x0⟩
/-- LAD_STATUS.clear_run, R119: Consecutive steps that are not storm steps, saturating at 255 -/
def LAD_STATUS_clear_run : Field := ⟨0x118, 8, 8, .ro, 0x0⟩
/-- LAD_STATUS.storm_run, R119: Consecutive storm steps, saturating at 255 -/
def LAD_STATUS_storm_run : Field := ⟨0x118, 0, 8, .ro, 0x0⟩
/-- LAD_MON_CTL.drift_lim, R119: Reference drift limit in codes, FP16 (0.5) -/
def LAD_MON_CTL_drift_lim : Field := ⟨0x11C, 16, 16, .rw, 0x3800⟩
/-- LAD_MON_CTL.window, R119: log₂ of the evaluation count of R98. Values below 6 act as 6, and values above 20 act as 20. -/
def LAD_MON_CTL_window : Field := ⟨0x11C, 0, 5, .rw, 0xC⟩
/-- LAD_STEP.step, R119: Step of the last record written -/
def LAD_STEP_step : Field := ⟨0x120, 0, 64, .ro, 0x0⟩
/-- LAD_FLAGS.monitor, R119: Statistical-monitor deviation in flag mode -/
def LAD_FLAGS_monitor : Field := ⟨0x128, 3, 1, .w1c, 0x0⟩
/-- LAD_FLAGS.checksum, R119: Checksum disagreement in flag mode -/
def LAD_FLAGS_checksum : Field := ⟨0x128, 2, 1, .w1c, 0x0⟩
/-- LAD_FLAGS.overflow, R119: Outlier overflow in flag mode -/
def LAD_FLAGS_overflow : Field := ⟨0x128, 1, 1, .w1c, 0x0⟩
/-- LAD_FLAGS.saturation, R119: Converter saturation in flag mode -/
def LAD_FLAGS_saturation : Field := ⟨0x128, 0, 1, .w1c, 0x0⟩
/-- LAD_RUNG_CNT.tiles, R119: Tiles of the last recorded step whose final rung was Lk, for register k. Saturates at 0xFFFF_FFFF. -/
def LAD_RUNG_CNT_tiles (i : Nat) : Field := ⟨0x130 + 4 * i, 0, 32, .ro, 0x0⟩
/-- LAD_PINNED.count, R119: Scales pinned now, 0–131,072 -/
def LAD_PINNED_count : Field := ⟨0x140, 0, 18, .ro, 0x0⟩
/-- LAD_PROBE_SEL.wing, R119: Logical wing 0–7 -/
def LAD_PROBE_SEL_wing : Field := ⟨0x150, 14, 3, .rw, 0x0⟩
/-- LAD_PROBE_SEL.bank, R119: Bank 0–31 -/
def LAD_PROBE_SEL_bank : Field := ⟨0x150, 9, 5, .rw, 0x0⟩
/-- LAD_PROBE_SEL.scale, R119: Logical scale 0–511 -/
def LAD_PROBE_SEL_scale : Field := ⟨0x150, 0, 9, .rw, 0x0⟩
/-- LAD_PROBE_BAND.sigma_c, R119: σ_c of the probed scale, FP16 -/
def LAD_PROBE_BAND_sigma_c : Field := ⟨0x154, 16, 16, .ro, 0x0⟩
/-- LAD_PROBE_BAND.rho, R119: ρ of the probed scale, FP16 -/
def LAD_PROBE_BAND_rho : Field := ⟨0x154, 0, 16, .ro, 0x0⟩
/-- LAD_PROBE_MON.pinned, R119: The probed scale is pinned -/
def LAD_PROBE_MON_pinned : Field := ⟨0x158, 31, 1, .ro, 0x0⟩
/-- LAD_PROBE_MON.n, R119: n of R97 for the probed scale -/
def LAD_PROBE_MON_n : Field := ⟨0x158, 0, 21, .ro, 0x0⟩

/-! Thorax partition page (R175, R289–R291) -/

/-- THX_P_CLUSTERS.active, R175: Logical clusters served, 0–24 -/
def THX_P_CLUSTERS_active : Field := ⟨0x100, 16, 5, .ro, 0x0⟩
/-- THX_P_CLUSTERS.spares_left, R175: Free spare clusters, 0–2 -/
def THX_P_CLUSTERS_spares_left : Field := ⟨0x100, 8, 2, .ro, 0x0⟩
/-- THX_P_CLUSTERS.retired, R175: Clusters retired, by fuse or in the field, 0–26 -/
def THX_P_CLUSTERS_retired : Field := ⟨0x100, 0, 5, .ro, 0x0⟩
/-- THX_P_MAP.physical, R175: Physical cluster 0–25 serving logical cluster n -/
def THX_P_MAP_physical (i : Nat) : Field := ⟨0x104 + 4 * (i / 6), 5 * (i % 6), 5, .ro, 0x0⟩
/-- THX_ABFT_CTL.gamma, R175: γ of R168, FP16 (2⁻¹⁰). Values below 0x0C00 act as 0x0C00. -/
def THX_ABFT_CTL_gamma : Field := ⟨0x120, 16, 16, .rw, 0x1400⟩
/-- THX_ABFT_CTL.window, R175: log₂ of the window in ticks, under R172. Values above 30 act as 30. -/
def THX_ABFT_CTL_window : Field := ⟨0x120, 0, 5, .rw, 0x16⟩
/-- THX_ABFT_STATUS.busy, R175: 1 while a recompute or a retirement runs -/
def THX_ABFT_STATUS_busy : Field := ⟨0x124, 31, 1, .ro, 0x0⟩
/-- THX_ABFT_STATUS.pending, R175: Blocks in the recompute queue, 0–48 -/
def THX_ABFT_STATUS_pending : Field := ⟨0x124, 0, 6, .ro, 0x0⟩
/-- THX_SEQ_CTX.valid, R289: The partition is bound (R279) -/
def THX_SEQ_CTX_valid : Field := ⟨0x400, 3, 1, .rw, 0x0⟩
/-- THX_SEQ_CTX.ctx, R289: Context 0–7 -/
def THX_SEQ_CTX_ctx : Field := ⟨0x400, 0, 3, .rw, 0x0⟩
/-- THX_SEQ_CTL.fence_clear, R289: Sets the fences and ℓ to 0. Accepted only while stopped. Clears when done. -/
def THX_SEQ_CTL_fence_clear : Field := ⟨0x404, 1, 1, .w1s, 0x0⟩
/-- THX_SEQ_CTL.run, R289: 1 starts the sequencer. 0 stops issue at the next command boundary. Hardware clears it under R280 and R288. A
write of 1 is discarded while THX_SEQ_STATUS.state reads 11 (R280). -/
def THX_SEQ_CTL_run : Field := ⟨0x404, 0, 1, .rw, 0x0⟩
/-- THX_SEQ_POLL.interval, R289: Poll interval in ns. Values below 250 act as 250. -/
def THX_SEQ_POLL_interval : Field := ⟨0x408, 0, 16, .rw, 0x7D0⟩
/-- THX_SEQ_STATUS.state, R289: 00 stopped, 01 running, 10 draining, 11 terminated -/
def THX_SEQ_STATUS_state : Field := ⟨0x40C, 30, 2, .ro, 0x0⟩
/-- THX_SEQ_STATUS.bind_refused, R289: R279 and R288 -/
def THX_SEQ_STATUS_bind_refused : Field := ⟨0x40C, 29, 1, .w1c, 0x0⟩
/-- THX_SEQ_STATUS.in_flight, R289: Commands issued and not complete, 0–256 -/
def THX_SEQ_STATUS_in_flight : Field := ⟨0x40C, 0, 9, .ro, 0x0⟩
/-- THX_SEQ_STEP.step, R289: n of the last STEP_MARK issued -/
def THX_SEQ_STEP_step : Field := ⟨0x410, 0, 64, .ro, 0x0⟩
/-- THX_SEQ_FENCE_SEL.fence, R289: Fence shown in THX_SEQ_FENCE -/
def THX_SEQ_FENCE_SEL_fence : Field := ⟨0x418, 0, 6, .rw, 0x0⟩
/-- THX_SEQ_FENCE.value, R289: Value of the selected fence -/
def THX_SEQ_FENCE_value : Field := ⟨0x420, 0, 64, .ro, 0x0⟩
/-- THX_SEQ_RING_BASE.base, R290: Ring base, 4 KiB aligned -/
def THX_SEQ_RING_BASE_base (i : Nat) : Field := ⟨0x440 + 32 * i, 12, 52, .rw, 0x0⟩
/-- THX_SEQ_RING_CFG.enable, R290: 1 enables the ring, with both indices taken as 0. The sequencer writes 0 to the index word it owns. -/
def THX_SEQ_RING_CFG_enable (i : Nat) : Field := ⟨0x448 + 32 * i, 31, 1, .rw, 0x0⟩
/-- THX_SEQ_RING_CFG.host, R290: R274 -/
def THX_SEQ_RING_CFG_host (i : Nat) : Field := ⟨0x448 + 32 * i, 30, 1, .rw, 0x0⟩
/-- THX_SEQ_RING_CFG.kind, R290: Ring 0: 00 command. Rings 1–3: 00 unused, 01 input, 10 output. An enable with 11, or with 00 on rings 1–3,
is discarded. -/
def THX_SEQ_RING_CFG_kind (i : Nat) : Field := ⟨0x448 + 32 * i, 28, 2, .rw, 0x0⟩
/-- THX_SEQ_RING_CFG.log2_size, R290: k of R272. Values below 4 act as 4, and values above 16 act as 16. -/
def THX_SEQ_RING_CFG_log2_size (i : Nat) : Field := ⟨0x448 + 32 * i, 0, 5, .rw, 0x4⟩
/-- THX_SEQ_RING_PROD.addr, R290: Address of the index word, 8-byte aligned -/
def THX_SEQ_RING_PROD_addr (i : Nat) : Field := ⟨0x450 + 32 * i, 3, 61, .rw, 0x0⟩
/-- THX_SEQ_RING_CONS.addr, R290: Address of the index word, 8-byte aligned -/
def THX_SEQ_RING_CONS_addr (i : Nat) : Field := ⟨0x458 + 32 * i, 3, 61, .rw, 0x0⟩
/-- THX_SEQ_OBJ.objects, R291: Objects written to output rings -/
def THX_SEQ_OBJ_objects : Field := ⟨0x4D0, 0, 64, .ro, 0x0⟩
/-- THX_SEQ_RATE.objects, R291: Objects written in the last complete window of 2²⁰ ticks -/
def THX_SEQ_RATE_objects : Field := ⟨0x4D8, 0, 32, .ro, 0x0⟩
/-- THX_SEQ_FAULT.reason, R291: 0x0 none since reset, 0x1 reserved opcode, entry kind or launch count of 0, 0x2 operand outside the context
or reserved mode, 0x3 feature not enabled, 0x4 malformed ANALOGUE command, 0x5 m out of range, 0x6 ring overrun or disabled ring, 0x7 thread
instruction fault, 0x8 layer index at or beyond LAD_MAP_CFG.layers (R271) -/
def THX_SEQ_FAULT_reason : Field := ⟨0x4DC, 28, 4, .ro, 0x0⟩
/-- THX_SEQ_FAULT.command, R291: Index of the faulting command within its launch -/
def THX_SEQ_FAULT_command : Field := ⟨0x4DC, 0, 24, .ro, 0x0⟩
/-- THX_SEQ_RFULL, counters in the format of an ERRCNT entry (R283, ring i = 1–3). -/
def THX_SEQ_RFULL (i : Nat) : Field := ⟨0x4BC + 4 * i, 0, 32, .cnt, 0⟩

/-! Update engine page (R148, R243) -/

/-- UPD_RS_CTL.bank_conc, R148: Scales per bank writing at once, under R135. 0 acts as 1, and values above 16 act as 16. -/
def UPD_RS_CTL_bank_conc : Field := ⟨0x800, 4, 5, .rw, 0x10⟩
/-- UPD_RS_CTL.full, R148: R138 -/
def UPD_RS_CTL_full : Field := ⟨0x800, 0, 1, .rw, 0x1⟩
/-- UPD_RS_MIRROR_BASE.base, R148: Device-memory address of the level mirror, 2 MiB aligned -/
def UPD_RS_MIRROR_BASE_base : Field := ⟨0x808, 21, 43, .rw, 0x0⟩
/-- UPD_RS_SIDE_BASE.base, R148: Device-memory address of the side records, 4 KiB aligned -/
def UPD_RS_SIDE_BASE_base : Field := ⟨0x810, 12, 52, .rw, 0x0⟩
/-- UPD_RS_WEAR_LIM.limit, R148: Wear limit of R143. 0 acts as 0xFFFF_FFFF. -/
def UPD_RS_WEAR_LIM_limit : Field := ⟨0x818, 0, 32, .rw, 0x10000000⟩
/-- UPD_RS_DEFECT_LIM.limit, R148: Disabled-cell limit of R143. 0 acts as 1. -/
def UPD_RS_DEFECT_LIM_limit : Field := ⟨0x81C, 0, 18, .rw, 0x100⟩
/-- UPD_RS_STATUS.busy, R148: 1 while any seating or spare load of the partition runs -/
def UPD_RS_STATUS_busy : Field := ⟨0x820, 31, 1, .ro, 0x0⟩
/-- UPD_RS_STATUS.pending, R148: Scales with an accepted descriptor and no epoch yet written, 0–131,072 -/
def UPD_RS_STATUS_pending : Field := ⟨0x820, 0, 18, .ro, 0x0⟩
/-- UPD_RS_EPOCH.step, R148: A descriptor is accepted under the commit step that the partition's hitch holds (HCH_COMMIT) when it is
accepted. This field holds the highest c that meets two conditions. First, at least one descriptor accepted under c has written its epoch.
Second, every descriptor accepted under c or an earlier step has written its epoch or been refused. A refused descriptor no longer holds the
value back, and it does not raise it. -/
def UPD_RS_EPOCH_step : Field := ⟨0x828, 0, 64, .ro, 0x0⟩
/-- UPD_CTL.zero_lim, R243: Zero-update run limit of R240. 0 acts as 1. -/
def UPD_CTL_zero_lim : Field := ⟨0x100, 16, 16, .rw, 0x40⟩
/-- UPD_CTL.ratio_en, R243: 0 suspends the checks of R239. The sums are still written. -/
def UPD_CTL_ratio_en : Field := ⟨0x100, 0, 1, .rw, 0x1⟩
/-- UPD_HDR_BASE.base, R243: Device-memory address, 4 KiB aligned -/
def UPD_HDR_BASE_base : Field := ⟨0x108, 12, 52, .rw, 0x0⟩
/-- UPD_CONST_BASE.base, R243: Device-memory address, 4 KiB aligned -/
def UPD_CONST_BASE_base : Field := ⟨0x110, 12, 52, .rw, 0x0⟩
/-- UPD_LAYER_BASE.base, R243: Device-memory address, 4 KiB aligned -/
def UPD_LAYER_BASE_base : Field := ⟨0x118, 12, 52, .rw, 0x0⟩
/-- UPD_FREEZE_BASE.base, R243: Device-memory address, 4 KiB aligned -/
def UPD_FREEZE_BASE_base : Field := ⟨0x140, 12, 52, .rw, 0x0⟩
/-- UPD_STEP.step, R243: h of the last pass that completed with no refusal -/
def UPD_STEP_step : Field := ⟨0x120, 0, 64, .ro, 0x0⟩
/-- UPD_HITCH_STEP.step, R243: Commit step that the hitch carries for the current or next pass -/
def UPD_HITCH_STEP_step : Field := ⟨0x128, 0, 64, .ro, 0x0⟩
/-- UPD_STATUS.busy, R243: 1 while a pass runs -/
def UPD_STATUS_busy : Field := ⟨0x130, 31, 1, .ro, 0x0⟩
/-- UPD_STATUS.phase, R243: 00 idle, 01 waiting for the flag, 10 classifying headers, 11 streaming -/
def UPD_STATUS_phase : Field := ⟨0x130, 29, 2, .ro, 0x0⟩
/-- UPD_STATUS.in_flight, R243: Chunks in flight, 0–2 -/
def UPD_STATUS_in_flight : Field := ⟨0x130, 0, 2, .ro, 0x0⟩
/-- UPD_NF.resolved, R243: The job's flag for UPD_HITCH_STEP has arrived since the last HITCH open or resume. Cleared, with set, by every
HITCH open and resume (R237). -/
def UPD_NF_resolved : Field := ⟨0x134, 1, 1, .ro, 0x0⟩
/-- UPD_NF.set, R243: The flag is set, under R238 -/
def UPD_NF_set : Field := ⟨0x134, 0, 1, .ro, 0x0⟩
/-- UPD_LAST_REFUSE.reason, R243: 0x0 none since reset, 0x1 bad header step, 0x2 header state 01 or poisoned, 0x3 gradient h absent, 0x4
constants refused, 0x5 non-finite input element with flag clear (R236). The first cause in the order of R234 is recorded. -/
def UPD_LAST_REFUSE_reason : Field := ⟨0x138, 28, 4, .ro, 0x0⟩
/-- UPD_LAST_REFUSE.chunk, R243: Header index of the first chunk found bad, or of the chunk in which reason 0x5 was found, or 0 -/
def UPD_LAST_REFUSE_chunk : Field := ⟨0x138, 0, 24, .ro, 0x0⟩
/-- UPD_SUPPRESS_CNT, a counter in the format of an ERRCNT entry (R232). -/
def UPD_SUPPRESS_CNT : Field := ⟨0x150, 0, 32, .cnt, 0⟩
/-- UPD_SKIP_CNT, a counter in the format of an ERRCNT entry (R238). -/
def UPD_SKIP_CNT : Field := ⟨0x154, 0, 32, .cnt, 0⟩
/-- UPD_ROLLFWD_CNT, a counter in the format of an ERRCNT entry (R235). -/
def UPD_ROLLFWD_CNT : Field := ⟨0x158, 0, 32, .cnt, 0⟩

/-! Hitch page (R360) -/

/-- HCH_CTL.cmp_en, R360: Commit-time comparison of received digests (R351). The digests are sent whatever this bit holds. -/
def HCH_CTL_cmp_en : Field := ⟨0x100, 1, 1, .rw, 0x1⟩
/-- HCH_CTL.hang_en, R360: Hang detection of R330 for the partition's blocks -/
def HCH_CTL_hang_en : Field := ⟨0x100, 0, 1, .rw, 0x1⟩
/-- HCH_HANG_WIN.window, R360: Hang window in ticks. Values below 977 act as 977. -/
def HCH_HANG_WIN_window : Field := ⟨0x104, 0, 24, .rw, 0xBEBC⟩
/-- HCH_STATE.acted, R360: An abort of HCH_OPEN has been acted on since the last resume -/
def HCH_STATE_acted : Field := ⟨0x108, 4, 1, .ro, 0x0⟩
/-- HCH_STATE.vote, R360: Vote of the last commit phase. 1: yes. -/
def HCH_STATE_vote : Field := ⟨0x108, 3, 1, .ro, 0x0⟩
/-- HCH_STATE.state, R360: 000 idle, 001 open, 010 exchanged, 011 ready, 100 committed, 101 held, 110 resuming, 111 reserved -/
def HCH_STATE_state : Field := ⟨0x108, 0, 3, .ro, 0x0⟩
/-- HCH_COMMIT.step, R360: Last committed step, or the step opened -/
def HCH_COMMIT_step : Field := ⟨0x110, 0, 64, .ro, 0x0⟩
/-- HCH_OPEN.step, R360: Last committed step, or the step opened -/
def HCH_OPEN_step : Field := ⟨0x118, 0, 64, .ro, 0x0⟩
/-- HCH_RECOVER.exchanged, R360: The flag round of HCH_OPEN has been issued -/
def HCH_RECOVER_exchanged : Field := ⟨0x120, 31, 1, .ro, 0x0⟩
/-- HCH_RECOVER.pass_done, R360: Every UPDATE since the open has completed with no refusal -/
def HCH_RECOVER_pass_done : Field := ⟨0x120, 30, 1, .ro, 0x0⟩
/-- HCH_RECOVER.was_reset, R360: A partition reset has occurred since the last resume -/
def HCH_RECOVER_was_reset : Field := ⟨0x120, 29, 1, .ro, 0x1⟩
/-- HCH_RECOVER.shard_lost, R360: Set by the last resume under R344. Cleared when a resume issues. -/
def HCH_RECOVER_shard_lost : Field := ⟨0x120, 28, 1, .ro, 0x0⟩
/-- HCH_RECOVER.bad, R360: Chunks in state 01 found at the last resume. Cleared when a resume issues. -/
def HCH_RECOVER_bad : Field := ⟨0x120, 0, 24, .ro, 0x0⟩
/-- HCH_XBUF_BASE.base, R360: Address. HCH_XBUF_BASE must be 1 MiB aligned and HCH_STAGE_BASE 2 MiB aligned. Bits below the alignment read
0. -/
def HCH_XBUF_BASE_base : Field := ⟨0x128, 12, 52, .rw, 0x0⟩
/-- HCH_STAGE_BASE.base, R360: Address. HCH_XBUF_BASE must be 1 MiB aligned and HCH_STAGE_BASE 2 MiB aligned. Bits below the alignment read
0. -/
def HCH_STAGE_BASE_base : Field := ⟨0x130, 12, 52, .rw, 0x0⟩
/-- HCH_CKPT_DST.base, R360: Address. HCH_XBUF_BASE must be 1 MiB aligned and HCH_STAGE_BASE 2 MiB aligned. Bits below the alignment read 0.
-/
def HCH_CKPT_DST_base : Field := ⟨0x138, 12, 52, .rw, 0x0⟩
/-- HCH_CKPT_CTL.peer, R360: 0: host destination. 1: remote destination. -/
def HCH_CKPT_CTL_peer : Field := ⟨0x140, 8, 1, .rw, 0x0⟩
/-- HCH_CKPT_CTL.rate, R360: GB/s for the partition. 0: no limit. -/
def HCH_CKPT_CTL_rate : Field := ⟨0x140, 0, 8, .rw, 0x6⟩
/-- HCH_CKPT_STATUS.snapshot, R360: Snapshot in progress -/
def HCH_CKPT_STATUS_snapshot : Field := ⟨0x144, 31, 1, .ro, 0x0⟩
/-- HCH_CKPT_STATUS.draining, R360: Records pending -/
def HCH_CKPT_STATUS_draining : Field := ⟨0x144, 30, 1, .ro, 0x0⟩
/-- HCH_CKPT_STATUS.verify_failed, R360: R355, for the last checkpoint -/
def HCH_CKPT_STATUS_verify_failed : Field := ⟨0x144, 29, 1, .ro, 0x0⟩
/-- HCH_CKPT_STATUS.pending, R360: Records not yet acknowledged -/
def HCH_CKPT_STATUS_pending : Field := ⟨0x144, 0, 24, .ro, 0x0⟩
/-- HCH_CKPT_STEP.value, R360: Last verified checkpoint step, bytes drained since reset, or tick of the last hang -/
def HCH_CKPT_STEP_value : Field := ⟨0x148, 0, 64, .ro, 0x0⟩
/-- HCH_CKPT_BYTES.value, R360: Last verified checkpoint step, bytes drained since reset, or tick of the last hang -/
def HCH_CKPT_BYTES_value : Field := ⟨0x150, 0, 64, .ro, 0x0⟩
/-- HCH_HANG_TICK.value, R360: Last verified checkpoint step, bytes drained since reset, or tick of the last hang -/
def HCH_HANG_TICK_value : Field := ⟨0x160, 0, 64, .ro, 0x0⟩
/-- HCH_RESET_CAUSE.kind, R360: 0x0 none, 0x1 engine reset, 0x2 partition reset after escalation, 0x3 partition reset by fault or trip, 0x4
partition reset by software -/
def HCH_RESET_CAUSE_kind : Field := ⟨0x158, 28, 4, .ro, 0x0⟩
/-- HCH_RESET_CAUSE.block, R360: 0x0 cluster, 0x1 update engine, 0x2 rotation unit, 0x3 wing periphery, 0x4 sequencer, 0x5 tile mover, 0x6
HBM4 channel -/
def HCH_RESET_CAUSE_block : Field := ⟨0x158, 24, 4, .ro, 0x0⟩
/-- HCH_RESET_CAUSE.instance, R360: Physical cluster, wing or channel number -/
def HCH_RESET_CAUSE_instance : Field := ⟨0x158, 0, 8, .ro, 0x0⟩
/-- HCH_RESET_REQ.partition, R360: Starts a partition reset. Clears when the reset begins. -/
def HCH_RESET_REQ_partition : Field := ⟨0x15C, 0, 1, .w1s, 0x0⟩

/-! Safety page (R383) -/

/-- THX_AUDIT_CTL.en, R383: R374 -/
def THX_AUDIT_CTL_en : Field := ⟨0x100, 5, 1, .rw, 0x1⟩
/-- THX_AUDIT_CTL.log2, R383: Audit ratio exponent. Values above 16 act as 16. -/
def THX_AUDIT_CTL_log2 : Field := ⟨0x100, 0, 5, .rw, 0xA⟩
/-- THX_SWEEP_CTL.period, R383: log₂ of the period in ticks. Values below 16 act as 16, and values above 30 act as 30. -/
def THX_SWEEP_CTL_period : Field := ⟨0x104, 0, 5, .rw, 0x16⟩
/-- THX_SCRUB_CTL.period, R383: log₂ of the period in ticks. Values below 16 act as 16, and values above 30 act as 30. -/
def THX_SCRUB_CTL_period : Field := ⟨0x108, 0, 5, .rw, 0x1A⟩
/-- THX_SWEEP_TICK.tick, R383: Earliest of the last passing sweep ticks of the partition's units -/
def THX_SWEEP_TICK_tick : Field := ⟨0x110, 0, 64, .ro, 0x0⟩
/-- THX_SUSPECT.tick, R383: Tick of the failed unit's last passing sweep under R376. 0: no failure since reset. -/
def THX_SUSPECT_tick : Field := ⟨0x118, 0, 64, .ro, 0x0⟩
/-- THX_POISON_STATUS.terminated, R383: A context was terminated by poison -/
def THX_POISON_STATUS_terminated : Field := ⟨0x120, 31, 1, .w1c, 0x0⟩
/-- THX_POISON_STATUS.point, R383: Last point of R369: 0x0 none, 0x1 command or descriptor, 0x2 gradient buffer, 0x3 update engine, 0x4
re-seat, 0x5 encryption, 0x6 decryption, 0x7 fence, ring index or exchange entry -/
def THX_POISON_STATUS_point : Field := ⟨0x120, 0, 4, .ro, 0x0⟩

/-! Calibration page (R401, R402) -/

/-- CAL_CTL.drift_lim, R401: Drift threshold of R388 in 1/64 code (0.375) -/
def CAL_CTL_drift_lim : Field := ⟨0x100, 16, 8, .rw, 0x18⟩
/-- CAL_CTL.drift_en, R401: Drift trigger -/
def CAL_CTL_drift_en : Field := ⟨0x100, 13, 1, .rw, 0x1⟩
/-- CAL_CTL.temp_en, R401: Temperature trigger -/
def CAL_CTL_temp_en : Field := ⟨0x100, 12, 1, .rw, 0x1⟩
/-- CAL_CTL.delta_t, R401: ΔT in 1/16 °C (4.0 °C). 0 acts as 1. -/
def CAL_CTL_delta_t : Field := ⟨0x100, 0, 12, .rw, 0x40⟩
/-- CAL_CMD.go, R401: Triggers the wings in wings. Clears when the triggers are taken. -/
def CAL_CMD_go : Field := ⟨0x104, 31, 1, .w1s, 0x0⟩
/-- CAL_CMD.wings, R401: Bit w: physical wing w -/
def CAL_CMD_wings : Field := ⟨0x104, 0, 9, .rw, 0x0⟩
/-- CAL_STATUS.busy, R401: A calibration of the partition runs -/
def CAL_STATUS_busy : Field := ⟨0x108, 31, 1, .ro, 0x0⟩
/-- CAL_STATUS.pending, R401: Bit w: a trigger is held for wing w (R389) -/
def CAL_STATUS_pending : Field := ⟨0x108, 9, 9, .ro, 0x0⟩
/-- CAL_STATUS.active, R401: Bit w: wing w is calibrating -/
def CAL_STATUS_active : Field := ⟨0x108, 0, 9, .ro, 0x0⟩
/-- CAL_APPLY.scales, R401: Scales with a trim short of its target, 0–152,064 -/
def CAL_APPLY_scales : Field := ⟨0x10C, 0, 18, .ro, 0x0⟩
/-- CAL_PROBE_SEL.wing, R401: Physical wing 0–8 -/
def CAL_PROBE_SEL_wing : Field := ⟨0x180, 28, 4, .rw, 0x0⟩
/-- CAL_PROBE_SEL.bank, R401: Bank 0–31 -/
def CAL_PROBE_SEL_bank : Field := ⟨0x180, 23, 5, .rw, 0x0⟩
/-- CAL_PROBE_SEL.scale, R401: Physical scale 0–527 -/
def CAL_PROBE_SEL_scale : Field := ⟨0x180, 13, 10, .rw, 0x0⟩
/-- CAL_PROBE_SEL.column, R401: Physical column 0–263 -/
def CAL_PROBE_SEL_column : Field := ⟨0x180, 4, 9, .rw, 0x0⟩
/-- CAL_PROBE_SEL.kind, R401: Trim shown on the test bus: 00 offset, 01 gain, 10 pulse, 11 ladder -/
def CAL_PROBE_SEL_kind : Field := ⟨0x180, 2, 2, .rw, 0x0⟩
/-- CAL_PROBE_CONV.offset, R401: Applied offset trim -/
def CAL_PROBE_CONV_offset : Field := ⟨0x184, 24, 8, .ro, 0x0⟩
/-- CAL_PROBE_CONV.gain, R401: Applied gain trim -/
def CAL_PROBE_CONV_gain : Field := ⟨0x184, 16, 8, .ro, 0x0⟩
/-- CAL_PROBE_CONV.offset_tgt, R401: Offset target -/
def CAL_PROBE_CONV_offset_tgt : Field := ⟨0x184, 8, 8, .ro, 0x0⟩
/-- CAL_PROBE_CONV.gain_tgt, R401: Gain target -/
def CAL_PROBE_CONV_gain_tgt : Field := ⟨0x184, 0, 8, .ro, 0x0⟩
/-- CAL_PROBE_SCALE.ladder, R401: Applied scale ladder trim -/
def CAL_PROBE_SCALE_ladder : Field := ⟨0x188, 22, 10, .ro, 0x0⟩
/-- CAL_PROBE_SCALE.pulse, R401: Applied pulse-width trim -/
def CAL_PROBE_SCALE_pulse : Field := ⟨0x188, 12, 10, .ro, 0x0⟩
/-- CAL_PROBE_SCALE.wing_ref, R401: Applied wing reference trim -/
def CAL_PROBE_SCALE_wing_ref : Field := ⟨0x188, 0, 12, .ro, 0x0⟩
/-- CAL_PROBE_NOISE.sigma_c, R401: Installed σ_c of the scale, FP16 -/
def CAL_PROBE_NOISE_sigma_c : Field := ⟨0x18C, 16, 16, .ro, 0x0⟩
/-- CAL_PROBE_NOISE.sigma_n, R401: Last accepted σ_n of the converter, FP16 -/
def CAL_PROBE_NOISE_sigma_n : Field := ⟨0x18C, 0, 16, .ro, 0x0⟩
/-- CAL_W_COUNT.count, R402: Completed calibrations since the wing was powered, saturating at 0xFFFF_FFFF -/
def CAL_W_COUNT_count (i : Nat) : Field := ⟨0x200 + 32 * i, 0, 32, .ro, 0x0⟩
/-- CAL_W_STATE.phase, R402: 00 idle, 01 reference, 10 scales, 11 converters -/
def CAL_W_STATE_phase (i : Nat) : Field := ⟨0x204 + 32 * i, 30, 2, .ro, 0x0⟩
/-- CAL_W_STATE.ref_temp, R402: Reference temperature of R388, two's complement, 1/16 °C -/
def CAL_W_STATE_ref_temp (i : Nat) : Field := ⟨0x204 + 32 * i, 0, 16, .ro, 0x0⟩
/-- CAL_W_TICK.tick, R402: Tick of the last completion (R395) -/
def CAL_W_TICK_tick (i : Nat) : Field := ⟨0x208 + 32 * i, 0, 64, .ro, 0x0⟩
/-- CAL_W_COLUMN.column, R402: Lowest logical column that some scale of the wing has still to complete in phase 3 -/
def CAL_W_COLUMN_column (i : Nat) : Field := ⟨0x210 + 32 * i, 0, 9, .ro, 0x0⟩

/-! Cluster page (R177, R200) -/

/-- THX_STATE.role, R177: 0x00–0x17: serves logical cluster 0–23. 0x1D: retired by fuse. 0x1E: retired in the field. 0x1F: spare and free. -/
def THX_STATE_role : Field := ⟨0x100, 20, 5, .ro, 0x0⟩
/-- THX_STATE.state, R177: 00 off, 01 starting, 10 running, 11 halted -/
def THX_STATE_state : Field := ⟨0x100, 0, 2, .ro, 0x0⟩
/-- THX_THREADS.ready, R177: Threads ready, 0–96 -/
def THX_THREADS_ready : Field := ⟨0x104, 16, 7, .ro, 0x0⟩
/-- THX_THREADS.waiting, R177: Threads in memory wait or engine wait, 0–96 -/
def THX_THREADS_waiting : Field := ⟨0x104, 8, 7, .ro, 0x0⟩
/-- THX_THREADS.live, R177: Threads that are not free, 0–96 -/
def THX_THREADS_live : Field := ⟨0x104, 0, 7, .ro, 0x0⟩
/-- THX_OUTSTANDING.requests, R177: Tile mover requests outstanding, 0–256 -/
def THX_OUTSTANDING_requests : Field := ⟨0x108, 0, 9, .ro, 0x0⟩
/-- THX_ABFT_DET.in_window, R177: Counted detections within the window of R172, 0–2 -/
def THX_ABFT_DET_in_window : Field := ⟨0x10C, 0, 2, .ro, 0x0⟩
/-- THX_ABFT_TICK.tick, R177: Tick of the last counted detection -/
def THX_ABFT_TICK_tick : Field := ⟨0x110, 0, 64, .ro, 0x0⟩
/-- THX_WB_USE.blocks, R177: Wide buffer blocks written since their last clear, 0–32 -/
def THX_WB_USE_blocks : Field := ⟨0x118, 0, 6, .ro, 0x0⟩
/-- VEC_CAPS.desc_log2, R200: log₂ of the descriptor size in bytes -/
def VEC_CAPS_desc_log2 : Field := ⟨0x400, 24, 4, .ro, 0x7⟩
/-- VEC_CAPS.max_rank, R200: Largest rank minus 1 -/
def VEC_CAPS_max_rank : Field := ⟨0x400, 20, 2, .ro, 0x3⟩
/-- VEC_CAPS.lanes_bf16, R200: Elements per group in BF16 mode -/
def VEC_CAPS_lanes_bf16 : Field := ⟨0x400, 10, 10, .ro, 0x200⟩
/-- VEC_CAPS.lanes_fp32, R200: Elements per group in FP32 mode -/
def VEC_CAPS_lanes_fp32 : Field := ⟨0x400, 0, 10, .ro, 0x100⟩
/-- VEC_CTL.halt_on_refuse, R200: R195 -/
def VEC_CTL_halt_on_refuse : Field := ⟨0x404, 0, 1, .rw, 0x1⟩
/-- VEC_STATUS.busy, R200: 1 while a descriptor is in progress -/
def VEC_STATUS_busy : Field := ⟨0x408, 31, 1, .ro, 0x0⟩
/-- VEC_STATUS.queued, R200: Descriptors queued, 0–2 -/
def VEC_STATUS_queued : Field := ⟨0x408, 16, 2, .ro, 0x0⟩
/-- VEC_STATUS.thread, R200: Thread of the descriptor in progress, 0–95 -/
def VEC_STATUS_thread : Field := ⟨0x408, 8, 7, .ro, 0x0⟩
/-- VEC_ERR.poisoned, R200: A poisoned result was written (R196) -/
def VEC_ERR_poisoned : Field := ⟨0x40C, 1, 1, .w1c, 0x0⟩
/-- VEC_ERR.refused, R200: A descriptor was refused (R195) -/
def VEC_ERR_refused : Field := ⟨0x40C, 0, 1, .w1c, 0x0⟩
/-- VEC_LAST_REFUSE.thread, R200: Thread that issued the last refused descriptor -/
def VEC_LAST_REFUSE_thread : Field := ⟨0x410, 8, 7, .ro, 0x0⟩
/-- VEC_LAST_REFUSE.reason, R200: Reason of R195. 0x0: no refusal since reset. -/
def VEC_LAST_REFUSE_reason : Field := ⟨0x410, 0, 4, .ro, 0x0⟩
/-- VEC_REFUSE_CNT, a counter in the format of an ERRCNT entry (R195). -/
def VEC_REFUSE_CNT : Field := ⟨0x414, 0, 32, .cnt, 0⟩
/-- VEC_POISON_CNT, a counter in the format of an ERRCNT entry (R196). -/
def VEC_POISON_CNT : Field := ⟨0x418, 0, 32, .cnt, 0⟩

/-! HBM4 channel page (R179) -/

/-- THX_HBM_STATE.refresh, R179: 00 standard rate, 01 doubled under R166, 10 and 11 reserved -/
def THX_HBM_STATE_refresh : Field := ⟨0x100, 6, 2, .ro, 0x0⟩
/-- THX_HBM_STATE.failed, R179: 1 once the channel has failed. Its partition fails under R32. -/
def THX_HBM_STATE_failed : Field := ⟨0x100, 1, 1, .ro, 0x0⟩
/-- THX_HBM_STATE.trained, R179: 1 once training has completed since reset -/
def THX_HBM_STATE_trained : Field := ⟨0x100, 0, 1, .ro, 0x0⟩
/-- THX_HBM_TEMP.temp, R179: Channel temperature, two's complement, 1/16 °C per step -/
def THX_HBM_TEMP_temp : Field := ⟨0x104, 0, 16, .ro, 0x0⟩

/-! Wing page (R79) -/

/-- WNG_STATE.role, R79: 0x0–0x7: serves logical wing 0–7. 0xE: retired. 0xF: spare, unassigned. -/
def WNG_STATE_role : Field := ⟨0x100, 20, 4, .ro, 0x0⟩
/-- WNG_STATE.restore_row, R79: Row of R71 in effect -/
def WNG_STATE_restore_row : Field := ⟨0x100, 14, 3, .ro, 0x0⟩
/-- WNG_STATE.calibrated, R79: 1 once the wing's first calibration has completed -/
def WNG_STATE_calibrated : Field := ⟨0x100, 3, 1, .ro, 0x0⟩
/-- WNG_STATE.cleared, R79: 1 once all cells have been cleared to level 0 since reset -/
def WNG_STATE_cleared : Field := ⟨0x100, 2, 1, .ro, 0x0⟩
/-- WNG_STATE.power, R79: 00 off, 01 powering, 10 on, 11 power fault -/
def WNG_STATE_power : Field := ⟨0x100, 0, 2, .ro, 0x0⟩
/-- WNG_SPARES.spare_scales, R79: Spare scales remaining in the wing, 0–512 -/
def WNG_SPARES_spare_scales : Field := ⟨0x104, 16, 16, .ro, 0x0⟩
/-- WNG_SPARES.min_bank_spares, R79: Fewest spare scales remaining in any bank, 0–16 -/
def WNG_SPARES_min_bank_spares : Field := ⟨0x104, 0, 5, .ro, 0x0⟩
/-- WNG_TOKENS.in_flight, R79: Scales in operation now -/
def WNG_TOKENS_in_flight : Field := ⟨0x108, 16, 16, .ro, 0x0⟩
/-- WNG_TOKENS.grant, R79: Grant of R75 -/
def WNG_TOKENS_grant : Field := ⟨0x108, 0, 16, .ro, 0x400⟩
/-- WNG_RESTORE_CTL.force_en, R79: 1: apply force_row under R71 -/
def WNG_RESTORE_CTL_force_en : Field := ⟨0x10C, 3, 1, .rw, 0x0⟩
/-- WNG_RESTORE_CTL.force_row, R79: Row 0–4. Values 5–7 act as 4. -/
def WNG_RESTORE_CTL_force_row : Field := ⟨0x10C, 0, 3, .rw, 0x0⟩
/-- WNG_TEMP.temp, R79: Hottest wing die sensor, two's complement, 1/16 °C per step -/
def WNG_TEMP_temp : Field := ⟨0x110, 0, 16, .ro, 0x0⟩
/-- WNG_OUTQ.full, R79: 1 while issue is held under R69 -/
def WNG_OUTQ_full : Field := ⟨0x114, 31, 1, .ro, 0x0⟩
/-- WNG_OUTQ.occupancy, R79: Queued granules, 0–65,536 -/
def WNG_OUTQ_occupancy : Field := ⟨0x114, 0, 17, .ro, 0x0⟩
/-- WNG_CG_OPEN.open, R79: Open column groups, 0–2,048. The value 2,048 reads as 0x800 in a 12-bit field. -/
def WNG_CG_OPEN_open : Field := ⟨0x118, 0, 12, .ro, 0x0⟩
/-- WNG_RESTORE_TICK.tick, R79: Tick at which the last complete sweep of every bank of the wing ended -/
def WNG_RESTORE_TICK_tick : Field := ⟨0x120, 0, 64, .ro, 0x0⟩

/-! Bank page (R82) -/

/-- WNG_BK_STATE.spares_left, R82: Spare scales remaining in the bank, 0–16 -/
def WNG_BK_STATE_spares_left (i : Nat) : Field := ⟨0x100 + 16 * i, 16, 5, .ro, 0x0⟩
/-- WNG_BK_STATE.retired, R82: Scales retired in the bank, by fuse or in the field, 0–16 -/
def WNG_BK_STATE_retired (i : Nat) : Field := ⟨0x100 + 16 * i, 0, 5, .ro, 0x0⟩
/-- WNG_BK_SWEEP.next_row, R82: Next row of the bank's restore sweep -/
def WNG_BK_SWEEP_next_row (i : Nat) : Field := ⟨0x104 + 16 * i, 0, 10, .ro, 0x0⟩

/-! Scale access page (R83) -/

/-- SCL_SELECT.bank, R83: Bank 0–31 -/
def SCL_SELECT_bank : Field := ⟨0x100, 10, 5, .rw, 0x0⟩
/-- SCL_SELECT.scale, R83: Physical scale 0–527 in the bank -/
def SCL_SELECT_scale : Field := ⟨0x100, 0, 10, .rw, 0x0⟩
/-- SCL_STATE.logical, R83: Logical scale 0–511 served, when role is 001 or 011 -/
def SCL_STATE_logical : Field := ⟨0x104, 16, 9, .ro, 0x0⟩
/-- SCL_STATE.gain, R83: Gain g of R55 -/
def SCL_STATE_gain : Field := ⟨0x104, 6, 2, .ro, 0x0⟩
/-- SCL_STATE.role, R83: 000 not present, 001 active, 010 spare and free, 011 re-seating, 100 retired in the field, 101 retired by fuse -/
def SCL_STATE_role : Field := ⟨0x104, 0, 3, .ro, 0x0⟩
/-- SCL_COLMAP.use, R83: 00 free, 01 replaces a faulty column, 10 calibration takeover, 11 out of service after a column fault of its own
(R142) -/
def SCL_COLMAP_use (i : Nat) : Field := ⟨0x108 + 4 * (i / 2), 16 * (i % 2) + 14, 2, .ro, 0x0⟩
/-- SCL_COLMAP.target, R83: Logical column 0–257 served, when use is 01 or 10. When use is 11, the logical column it served last. -/
def SCL_COLMAP_target (i : Nat) : Field := ⟨0x108 + 4 * (i / 2), 16 * (i % 2) + 0, 9, .ro, 0x0⟩
/-- SCL_DISABLED.count, R83: Disabled cells in the scale, 0–270,336 -/
def SCL_DISABLED_count : Field := ⟨0x114, 0, 19, .ro, 0x0⟩
/-- SCL_WEAR.wear, R83: Wear count of the scale, as that chapter defines it -/
def SCL_WEAR_wear : Field := ⟨0x118, 0, 32, .ro, 0x0⟩
/-- SCL_ROW_CTL.go, R83: Requests a sense of the selected row. Clears when the read ends. -/
def SCL_ROW_CTL_go : Field := ⟨0x120, 31, 1, .w1s, 0x0⟩
/-- SCL_ROW_CTL.done, R83: 1 when SCL_ROW_DATA holds the result of the last request -/
def SCL_ROW_CTL_done : Field := ⟨0x120, 30, 1, .ro, 0x0⟩
/-- SCL_ROW_CTL.refused, R83: 1 when the last request was refused under R84 -/
def SCL_ROW_CTL_refused : Field := ⟨0x120, 29, 1, .ro, 0x0⟩
/-- SCL_ROW_CTL.row, R83: Row 0–1023 -/
def SCL_ROW_CTL_row : Field := ⟨0x120, 0, 10, .rw, 0x0⟩
/-- SCL_ROW_DATA: snapped code of physical column `c` (R83). -/
def SCL_ROW_DATA_cell (c : Nat) : Field := ⟨0x200 + 4 * (c / 8), 4 * (c % 8), 4, .ro, 0⟩

/-! INT_STATUS bit positions, page by page. -/

/-- R80: The output queue was full for 1 ms without a break -/
def WNG_INT_link_stall : Nat := 5
/-- R80: This die was retired, or W8 took over a logical wing -/
def WNG_INT_wing_retired : Nat := 4
/-- R80: R49 -/
def WNG_INT_segment_malformed : Nat := 3
/-- R80: R73 -/
def WNG_INT_restore_late : Nat := 2
/-- R80: A bank fell to 2 or fewer spare scales -/
def WNG_INT_spare_low : Nat := 1
/-- R80: A scale of this wing was retired -/
def WNG_INT_scale_retired : Nat := 0
/-- R120: LAD_CTL.mode_eff changed -/
def LAD_INT_mode_changed : Nat := 4
/-- R120: A scale was pinned under R110 -/
def LAD_INT_scale_pinned : Nat := 3
/-- R120: A LAD_FLAGS bit was set -/
def LAD_INT_trouble_flagged : Nat := 2
/-- R120: R117 -/
def LAD_INT_storm_cleared : Nat := 1
/-- R120: R117 -/
def LAD_INT_storm_raised : Nat := 0
/-- R176: A retirement found no free spare, under R172 -/
def THX_INT_spare_exhausted : Nat := 3
/-- R176: A recompute failed, under R171 -/
def THX_INT_block_poisoned : Nat := 2
/-- R176: R172 -/
def THX_INT_cluster_retired : Nat := 1
/-- R176: A block failed its check -/
def THX_INT_mismatch : Nat := 0
/-- R178: This cluster was retired, or this spare took over a logical cluster -/
def CLU_INT_retired : Nat := 2
/-- R178: A counted detection under R171 -/
def CLU_INT_detection_counted : Nat := 1
/-- R178: A block of this cluster failed its check -/
def CLU_INT_mismatch : Nat := 0
/-- R244: A pass completed with no refusal -/
def UPD_INT_pass_done : Nat := 5
/-- R244: R240 -/
def UPD_INT_zero_run : Nat := 4
/-- R244: R239 -/
def UPD_INT_ratio_out : Nat := 3
/-- R244: A chunk was rolled forward -/
def UPD_INT_rolled_forward : Nat := 2
/-- R244: A shard was refused -/
def UPD_INT_refused : Nat := 1
/-- R244: R238 -/
def UPD_INT_step_skipped : Nat := 0
/-- R325: A frame failed authentication -/
def PORT_INT_auth_fail : Nat := 5
/-- R325: Link-down by replay limit -/
def PORT_INT_replay_limit : Nat := 4
/-- R325: spares_left reached 0 -/
def PORT_INT_spares_out : Nat := 3
/-- R325: A lane moved to a spare (R300) -/
def PORT_INT_lane_spared : Nat := 2
/-- R325: The link came up -/
def PORT_INT_link_up : Nat := 1
/-- R325: R299 -/
def PORT_INT_link_down : Nat := 0
/-- R327: R320 -/
def FABG_INT_holdover_expired : Nat := 4
/-- R327: Holdover entered -/
def FABG_INT_holdover : Nat := 3
/-- R327: The tick became aligned -/
def FABG_INT_aligned : Nat := 2
/-- R327: This module emitted a token -/
def FABG_INT_abort_sent : Nat := 1
/-- R327: R315 -/
def FABG_INT_abort_received : Nat := 0
/-- R361: R344 -/
def HCH_INT_shard_lost : Nat := 8
/-- R361: R355 -/
def HCH_INT_ckpt_done : Nat := 7
/-- R361: R345 -/
def HCH_INT_repair_rejected : Nat := 6
/-- R361: R351 -/
def HCH_INT_divergent : Nat := 5
/-- R361: R342 -/
def HCH_INT_chaser_sent : Nat := 4
/-- R361: The state became held -/
def HCH_INT_held : Nat := 3
/-- R361: An engine reset escalated -/
def HCH_INT_escalated : Nat := 2
/-- R361: R330 -/
def HCH_INT_hang : Nat := 1
/-- R361: R341 -/
def HCH_INT_committed : Nat := 0
/-- R384: R372 -/
def SAF_INT_mirror_rebuilt : Nat := 3
/-- R384: R375 -/
def SAF_INT_sweep_failed : Nat := 2
/-- R384: R374 -/
def SAF_INT_audit_mismatch : Nat := 1
/-- R384: R369 -/
def SAF_INT_poison_consumed : Nat := 0
/-- R402: A column fault was raised under R394 -/
def CAL_INT_column_fault : Nat := 3
/-- R402: A scale was retired under R394 -/
def CAL_INT_scale_retired : Nat := 2
/-- R402: A measurement was repeated -/
def CAL_INT_retry : Nat := 1
/-- R402: A wing calibration completed -/
def CAL_INT_cal_done : Nat := 0
/-- R407: An urgent request was refused under R405 -/
def MSR_INT_queue_full : Nat := 2
/-- R407: A result reached ±(2²³ − 1) -/
def MSR_INT_overrange : Nat := 1
/-- R407: A single scan completed -/
def MSR_INT_scan_done : Nat := 0
/-- R431: R412 -/
def CLK_INT_pll_unlock : Nat := 2
/-- R431: R411 -/
def CLK_INT_ref_switched : Nat := 1
/-- R431: R411 -/
def CLK_INT_ref_lost : Nat := 0
/-- R433: R428 -/
def PWR_INT_instar_stalled : Nat := 5
/-- R433: R417 -/
def PWR_INT_dom_fault : Nat := 4
/-- R433: Limiting began (R420) -/
def PWR_INT_limiting : Nat := 3
/-- R433: A throttle began (R421) -/
def PWR_INT_throttle : Nat := 2
/-- R433: R422 -/
def PWR_INT_trip : Nat := 1
/-- R433: PWR_INSTAR.instar advanced -/
def PWR_INT_instar_reached : Nat := 0
/-- R462: R459 -/
def SEC_INT_selftest_fail : Nat := 4
/-- R462: R436 -/
def SEC_INT_dma_refused : Nat := 3
/-- R462: A sealed load ended -/
def SEC_INT_load_done : Nat := 2
/-- R462: A key release ended -/
def SEC_INT_release_done : Nat := 1
/-- R462: R445 -/
def SEC_INT_report_done : Nat := 0
/-- R491: An access broke R16 (R479) -/
def MGT_INT_access_fault : Nat := 1
/-- R491: An error-map bit went from 0 to 1 -/
def MGT_INT_map_moved : Nat := 0
/-- R495: A poisoned TLP was received (R367) -/
def HIF_INT_poison_rx : Nat := 2
/-- R495: The PCIe link reached L0 -/
def HIF_INT_link_up : Nat := 1
/-- R495: The PCIe link left L0 for Detect or Recovery failure -/
def HIF_INT_link_down : Nat := 0
/-- R492: a partition failed. -/
def PT_INT_failed : Nat := 0
/-- R492: a partition reset completed. -/
def PT_INT_reset_done : Nat := 1
/-- R476: a snapshot is complete. -/
def PMC_INT_snap_done : Nat := 0
/-- R476: a counter wrapped. -/
def PMC_INT_wrap : Nat := 1
/-- R476: the record buffer is full. -/
def PMC_INT_tag_full : Nat := 2

/-- The fields of the MGT page (R490) beside the common header. -/
def mgtFields : List Field :=
  [MGT_SERIAL_serial, MGT_DEVICE_device, MGT_DEVICE_stepping, MGT_TICK_tick, MGT_RESET_REQ_module] ++
  (List.range 144).map MGT_ERR_MAP_pages ++
  (List.range 144).map MGT_INT_MAP_pages ++
  (List.range 16).map MGT_SIZE

/-- The fields of the Clock page (R430) beside the common header. -/
def clkFields : List Field :=
  [CLK_REF_CTL_use_refclk, CLK_REF_STATUS_source, CLK_REF_STATUS_refclk_valid, CLK_REF_STATUS_ref_stable, CLK_REF_STATUS_port, CLK_PLL_STABLE_measurement, CLK_PLL_STABLE_management, CLK_PLL_STABLE_pcie] ++
  [CLK_PLL_STABLE_serdes, CLK_PLL_STABLE_hbm, CLK_PLL_STABLE_wing, CLK_PLL_STABLE_thorax, CLK_SSC_out_rate, CLK_SSC_out_depth, CLK_SSC_thx_rate, CLK_SSC_thx_depth] ++
  [CLK_OUT_CTL_out1, CLK_OUT_CTL_out0, CLK_THX_FREQ_t3, CLK_THX_FREQ_t2, CLK_THX_FREQ_t1, CLK_THX_FREQ_t0]

/-- The fields of the Power page (R432) beside the common header. -/
def pwrFields : List Field :=
  [PWR_INSTAR_cause, PWR_INSTAR_stalled, PWR_INSTAR_instar, PWR_BUDGET_watts, PWR_GRANT_grant, PWR_STORM_GRANT_grant, PWR_INPUT_watts, PWR_INPUT_volts] ++
  [PWR_STATUS_limiting, PWR_STATUS_fab_on, PWR_FAB_OFF_off, PWR_OC_LIM_limit, PWR_THROT_T_temp, PWR_TRIP_CAUSE_kind, PWR_TRIP_CAUSE_instance, PWR_TRIP_TICK_tick] ++
  (List.range 4).map PWR_INSTAR_TICK_tick ++
  (List.range 3).map PWR_DOM_STATE_domains ++
  (List.range 3).map PWR_DOM_FAULT_domains ++
  (List.range 8).map PWR_P_STATE_state ++
  (List.range 8).map PWR_P_STATE_storm ++
  (List.range 8).map PWR_P_STATE_throttled ++
  (List.range 8).map PWR_P_STATE_grant

/-- The fields of the Security page (R461) beside the common header. -/
def secFields : List Field :=
  [SEC_MODE_engines_ok, SEC_MODE_exhausted, SEC_MODE_ide, SEC_MODE_debug_locked, SEC_MODE_confidential, SEC_FW_commit_svn, SEC_FW_image_svn, SEC_FW_fused_svn] ++
  [SEC_ID_INDEX_next, SEC_RPT_CTL_go, SEC_RPT_CTL_done, SEC_RPT_CTL_att_left, SEC_NONCE_CTR_value, SEC_RPT_ADDR_value, SEC_KR_ADDR_value, SEC_LOAD_SRC_value] ++
  [SEC_KR_CTL_go, SEC_KR_CTL_done, SEC_KR_CTL_result, SEC_KR_CTL_slot, SEC_LOAD_CTL_go, SEC_LOAD_CTL_done, SEC_LOAD_CTL_result, SEC_LOAD_CTL_slot] ++
  [SEC_SLOT_SEL_go, SEC_SLOT_SEL_slot, SEC_SLOT_CLR_go, SEC_SLOT_CLR_slot, SEC_SLOT_INFO_valid, SEC_SLOT_INFO_usage, SEC_SLOT_INFO_ctx, SEC_SLOT_INFO_epoch] ++
  (List.range 8).map SEC_CHAL_chal ++
  (List.range 8).map SEC_GRANT_valid ++
  (List.range 8).map SEC_GRANT_mask

/-- The fields of the Measurement page (R406, R407) beside the common header. -/
def msrFields : List Field :=
  (List.range 4).map MSR_M_CFG_tint_sel ++
  (List.range 4).map MSR_M_CFG_cont ++
  (List.range 4).map MSR_M_CFG_en ++
  (List.range 4).map MSR_M_CFG_tint_prog ++
  (List.range 4).map MSR_M_SCAN_mask ++
  (List.range 4).map MSR_M_STATUS_busy ++
  (List.range 4).map MSR_M_STATUS_urgent ++
  (List.range 4).map MSR_M_STATUS_queued ++
  (List.range 4).map MSR_M_STATUS_channel ++
  (List.range 128).map MSR_DATA_valid ++
  (List.range 128).map MSR_DATA_urgent ++
  (List.range 128).map MSR_DATA_code ++
  (List.range 128).map MSR_TICK_tick

/-- The fields of the Monitor page (R474, R475) beside the common header. -/
def pmcFields : List Field :=
  [PMC_CTL_clear_all, PMC_CTL_user_en, PMC_CTL_en, PMC_SNAP_go, PMC_SNAP_done, PMC_SNAP_TICK_tick, PMC_TAG_CTL_drain, PMC_TAG_CTL_log2] ++
  [PMC_TAG_CTL_part, PMC_TAG_STATUS_full, PMC_TAG_STATUS_count, PMC_TAG_SEED, PMC_TAG_SEL] ++
  (List.range 64).map PMC_SLOT_CFG_type ++
  (List.range 64).map PMC_SLOT_CFG_partition ++
  (List.range 64).map PMC_SLOT_CFG_instance ++
  (List.range 64).map PMC_SLOT_CFG_event ++
  (List.range 64).map PMC_SLOT_CFG_mode ++
  (List.range 64).map PMC_SLOT_CFG_user ++
  (List.range 64).map PMC_SLOT_CFG_en ++
  (List.range 64).map PMC_SLOT_STATUS_wrapped ++
  (List.range 64).map PMC_SLOT_STATUS_interrupted ++
  (List.range 64).map PMC_SLOT_STATUS_state ++
  (List.range 64).map PMC_SLOT_STATUS_wraps_snap ++
  (List.range 64).map PMC_SLOT_STATUS_wraps ++
  (List.range 64).map PMC_SLOT_VAL_value ++
  (List.range 64).map PMC_SLOT_SNAP_value ++
  (List.range 16).map PMC_TAG_REC ++
  (List.range 64).map PMC_SLOT_THR_n

/-- The fields of the HIF page (R493) beside the common header. -/
def hifFields : List Field :=
  [HIF_STATE_state, HIF_LINK_ide, HIF_LINK_sris, HIF_LINK_flit, HIF_LINK_width, HIF_LINK_speed, HIF_INT_REARM_vector] ++
  (List.range 64).map HIF_MSIX ++
  (List.range 16).map HIF_PBA

/-- The fields of the Port page (R324) beside the common header. -/
def portFields : List Field :=
  [FAB_PORT_CTL_retrain, FAB_PORT_CTL_job_member, FAB_PORT_CTL_enable, FAB_PORT_STATE_link, FAB_PORT_STATE_encrypted, FAB_PORT_STATE_parent, FAB_PORT_STATE_lanes_up, FAB_PORT_STATE_spares_left] ++
  [FAB_PORT_STATE_nbr_depth, FAB_PORT_NBR_valid, FAB_PORT_NBR_coord, FAB_PORT_TX_RETIRED_lanes, FAB_PORT_RX_RETIRED_lanes, FAB_PORT_RTT_rtt, FAB_PORT_RETRY_limit, FAB_PORT_CREDIT_vc3] ++
  [FAB_PORT_CREDIT_vc2, FAB_PORT_CREDIT_vc1, FAB_PORT_CREDIT_vc0, FAB_PORT_DOWN_TICK_tick, FAB_PORT_KEY_epoch]

/-- The fields of the Fabric global page (R326) beside the common header. -/
def fabGFields : List Field :=
  [FAB_G_SYS_d, FAB_G_SYS_c, FAB_G_SYS_b, FAB_G_SYS_a, FAB_G_JOB_DIM_d, FAB_G_JOB_DIM_c, FAB_G_JOB_DIM_b, FAB_G_JOB_DIM_a] ++
  [FAB_G_COORD_coord, FAB_G_JOB_ORIGIN_coord, FAB_G_JOB_valid, FAB_G_JOB_id, FAB_G_CUT_data, FAB_G_CUT_pipeline, FAB_G_CUT_sequence, FAB_G_CUT_tensor] ++
  [FAB_G_ABORT_go, FAB_G_STATUS_busy, FAB_G_STATUS_in_flight, FAB_G_ABORT_STEP_value, FAB_G_ABORT_TICK_value, FAB_G_TIME_CTL_realign, FAB_G_TIME_CTL_root, FAB_G_TIME_STATUS_state] ++
  [FAB_G_TIME_STATUS_step_made, FAB_G_TIME_STATUS_depth, FAB_G_TIME_STATUS_parent]

/-- The fields of the Partition page (R492) beside the common header. -/
def partFields : List Field :=
  [MGT_PT_STATE_state, MGT_PT_STATE_cause, MGT_PT_FAIL_TICK_tick]

/-- The fields of the Ladder page (R119) beside the common header. -/
def ladFields : List Field :=
  [LAD_CTL_beta, LAD_CTL_mode_eff, LAD_CTL_mode, LAD_QUANT_clip, LAD_MAP_BASE_base, LAD_MAP_CFG_depth, LAD_MAP_CFG_layers, LAD_STORM_CTL_frac] ++
  [LAD_STORM_CTL_steps, LAD_STATUS_storm, LAD_STATUS_clear_run, LAD_STATUS_storm_run, LAD_MON_CTL_drift_lim, LAD_MON_CTL_window, LAD_STEP_step, LAD_FLAGS_monitor] ++
  [LAD_FLAGS_checksum, LAD_FLAGS_overflow, LAD_FLAGS_saturation, LAD_PINNED_count, LAD_PROBE_SEL_wing, LAD_PROBE_SEL_bank, LAD_PROBE_SEL_scale, LAD_PROBE_BAND_sigma_c] ++
  [LAD_PROBE_BAND_rho, LAD_PROBE_MON_pinned, LAD_PROBE_MON_n] ++
  (List.range 4).map LAD_RUNG_CNT_tiles

/-- The fields of the Thorax partition page (R175, R289–R291) beside the common header. -/
def thxFields : List Field :=
  [THX_P_CLUSTERS_active, THX_P_CLUSTERS_spares_left, THX_P_CLUSTERS_retired, THX_ABFT_CTL_gamma, THX_ABFT_CTL_window, THX_ABFT_STATUS_busy, THX_ABFT_STATUS_pending, THX_SEQ_CTX_valid] ++
  [THX_SEQ_CTX_ctx, THX_SEQ_CTL_fence_clear, THX_SEQ_CTL_run, THX_SEQ_POLL_interval, THX_SEQ_STATUS_state, THX_SEQ_STATUS_bind_refused, THX_SEQ_STATUS_in_flight, THX_SEQ_STEP_step] ++
  [THX_SEQ_FENCE_SEL_fence, THX_SEQ_FENCE_value, THX_SEQ_OBJ_objects, THX_SEQ_RATE_objects, THX_SEQ_FAULT_reason, THX_SEQ_FAULT_command] ++
  (List.range 24).map THX_P_MAP_physical ++
  (List.range 4).map THX_SEQ_RING_BASE_base ++
  (List.range 4).map THX_SEQ_RING_CFG_enable ++
  (List.range 4).map THX_SEQ_RING_CFG_host ++
  (List.range 4).map THX_SEQ_RING_CFG_kind ++
  (List.range 4).map THX_SEQ_RING_CFG_log2_size ++
  (List.range 4).map THX_SEQ_RING_PROD_addr ++
  (List.range 4).map THX_SEQ_RING_CONS_addr ++
  (List.range 3).map (fun i => THX_SEQ_RFULL (i + 1))

/-- The fields of the Update engine page (R148, R243) beside the common header. -/
def updFields : List Field :=
  [UPD_RS_CTL_bank_conc, UPD_RS_CTL_full, UPD_RS_MIRROR_BASE_base, UPD_RS_SIDE_BASE_base, UPD_RS_WEAR_LIM_limit, UPD_RS_DEFECT_LIM_limit, UPD_RS_STATUS_busy, UPD_RS_STATUS_pending] ++
  [UPD_RS_EPOCH_step, UPD_CTL_zero_lim, UPD_CTL_ratio_en, UPD_HDR_BASE_base, UPD_CONST_BASE_base, UPD_LAYER_BASE_base, UPD_FREEZE_BASE_base, UPD_STEP_step] ++
  [UPD_HITCH_STEP_step, UPD_STATUS_busy, UPD_STATUS_phase, UPD_STATUS_in_flight, UPD_NF_resolved, UPD_NF_set, UPD_LAST_REFUSE_reason, UPD_LAST_REFUSE_chunk] ++
  [UPD_SUPPRESS_CNT, UPD_SKIP_CNT, UPD_ROLLFWD_CNT]

/-- The fields of the Hitch page (R360) beside the common header. -/
def hchFields : List Field :=
  [HCH_CTL_cmp_en, HCH_CTL_hang_en, HCH_HANG_WIN_window, HCH_STATE_acted, HCH_STATE_vote, HCH_STATE_state, HCH_COMMIT_step, HCH_OPEN_step] ++
  [HCH_RECOVER_exchanged, HCH_RECOVER_pass_done, HCH_RECOVER_was_reset, HCH_RECOVER_shard_lost, HCH_RECOVER_bad, HCH_XBUF_BASE_base, HCH_STAGE_BASE_base, HCH_CKPT_DST_base] ++
  [HCH_CKPT_CTL_peer, HCH_CKPT_CTL_rate, HCH_CKPT_STATUS_snapshot, HCH_CKPT_STATUS_draining, HCH_CKPT_STATUS_verify_failed, HCH_CKPT_STATUS_pending, HCH_CKPT_STEP_value, HCH_CKPT_BYTES_value] ++
  [HCH_HANG_TICK_value, HCH_RESET_CAUSE_kind, HCH_RESET_CAUSE_block, HCH_RESET_CAUSE_instance, HCH_RESET_REQ_partition]

/-- The fields of the Safety page (R383) beside the common header. -/
def safFields : List Field :=
  [THX_AUDIT_CTL_en, THX_AUDIT_CTL_log2, THX_SWEEP_CTL_period, THX_SCRUB_CTL_period, THX_SWEEP_TICK_tick, THX_SUSPECT_tick, THX_POISON_STATUS_terminated, THX_POISON_STATUS_point]

/-- The fields of the Calibration page (R401, R402) beside the common header. -/
def calFields : List Field :=
  [CAL_CTL_drift_lim, CAL_CTL_drift_en, CAL_CTL_temp_en, CAL_CTL_delta_t, CAL_CMD_go, CAL_CMD_wings, CAL_STATUS_busy, CAL_STATUS_pending] ++
  [CAL_STATUS_active, CAL_APPLY_scales, CAL_PROBE_SEL_wing, CAL_PROBE_SEL_bank, CAL_PROBE_SEL_scale, CAL_PROBE_SEL_column, CAL_PROBE_SEL_kind, CAL_PROBE_CONV_offset] ++
  [CAL_PROBE_CONV_gain, CAL_PROBE_CONV_offset_tgt, CAL_PROBE_CONV_gain_tgt, CAL_PROBE_SCALE_ladder, CAL_PROBE_SCALE_pulse, CAL_PROBE_SCALE_wing_ref, CAL_PROBE_NOISE_sigma_c, CAL_PROBE_NOISE_sigma_n] ++
  (List.range 9).map CAL_W_COUNT_count ++
  (List.range 9).map CAL_W_STATE_phase ++
  (List.range 9).map CAL_W_STATE_ref_temp ++
  (List.range 9).map CAL_W_TICK_tick ++
  (List.range 9).map CAL_W_COLUMN_column

/-- The fields of the Cluster page (R177, R200) beside the common header. -/
def clusterFields : List Field :=
  [THX_STATE_role, THX_STATE_state, THX_THREADS_ready, THX_THREADS_waiting, THX_THREADS_live, THX_OUTSTANDING_requests, THX_ABFT_DET_in_window, THX_ABFT_TICK_tick] ++
  [THX_WB_USE_blocks, VEC_CAPS_desc_log2, VEC_CAPS_max_rank, VEC_CAPS_lanes_bf16, VEC_CAPS_lanes_fp32, VEC_CTL_halt_on_refuse, VEC_STATUS_busy, VEC_STATUS_queued] ++
  [VEC_STATUS_thread, VEC_ERR_poisoned, VEC_ERR_refused, VEC_LAST_REFUSE_thread, VEC_LAST_REFUSE_reason, VEC_REFUSE_CNT, VEC_POISON_CNT]

/-- The fields of the HBM4 channel page (R179) beside the common header. -/
def chanFields : List Field :=
  [THX_HBM_STATE_refresh, THX_HBM_STATE_failed, THX_HBM_STATE_trained, THX_HBM_TEMP_temp]

/-- The fields of the Wing page (R79) beside the common header. -/
def wingFields : List Field :=
  [WNG_STATE_role, WNG_STATE_restore_row, WNG_STATE_calibrated, WNG_STATE_cleared, WNG_STATE_power, WNG_SPARES_spare_scales, WNG_SPARES_min_bank_spares, WNG_TOKENS_in_flight] ++
  [WNG_TOKENS_grant, WNG_RESTORE_CTL_force_en, WNG_RESTORE_CTL_force_row, WNG_TEMP_temp, WNG_OUTQ_full, WNG_OUTQ_occupancy, WNG_CG_OPEN_open, WNG_RESTORE_TICK_tick]

/-- The fields of the Bank page (R82) beside the common header. -/
def bankFields : List Field :=
  (List.range 4).map WNG_BK_STATE_spares_left ++
  (List.range 4).map WNG_BK_STATE_retired ++
  (List.range 4).map WNG_BK_SWEEP_next_row

/-- The fields of the Scale access page (R83) beside the common header. -/
def sclFields : List Field :=
  [SCL_SELECT_bank, SCL_SELECT_scale, SCL_STATE_logical, SCL_STATE_gain, SCL_STATE_role, SCL_DISABLED_count, SCL_WEAR_wear, SCL_ROW_CTL_go] ++
  [SCL_ROW_CTL_done, SCL_ROW_CTL_refused, SCL_ROW_CTL_row] ++
  (List.range 6).map SCL_COLMAP_use ++
  (List.range 6).map SCL_COLMAP_target ++
  (List.range 264).map SCL_ROW_DATA_cell

/-! The common header (R486) -/

def HDR_INT_EN : Field := ⟨0x01C, 0, 1, .rw, 0⟩
/-- INT_STATUS bit `i` (R486). -/
def HDR_INT (i : Nat) : Field := ⟨0x020, i, 1, .w1c, 0⟩
/-- INT_MASK bit `i`: 1 masks the INT_STATUS bit in the same position (R486). -/
def HDR_MASK (i : Nat) : Field := ⟨0x024, i, 1, .rw, 0⟩
def HDR_PROGRESS : Field := ⟨0x028, 0, 32, .ro, 0⟩
/-- ERR_SUMMARY.moved (R378). -/
def HDR_MOVED : Field := ⟨0x02C, 0, 1, .w1c, 0⟩
/-- ERR_SUMMARY.saturated (R378). -/
def HDR_SATURATED : Field := ⟨0x02C, 1, 1, .w1c, 0⟩
/-- ERRCNT entry `n`, its saturation bit [31] and count [30:0] held as one word (R377). -/
def HDR_ERRCNT (n : Nat) : Field := ⟨0x040 + 4 * n, 0, 32, .cnt, 0⟩
def HDR_ID_type : Field := ⟨0x000, 16, 16, .ro, 0⟩
def HDR_ID_partition : Field := ⟨0x000, 12, 4, .ro, 0⟩
def HDR_ID_instance : Field := ⟨0x000, 0, 12, .ro, 0⟩
def HDR_VERSION_major : Field := ⟨0x004, 24, 8, .ro, 1⟩
def HDR_FEATURES : Field := ⟨0x008, 0, 64, .ro, 0⟩
def HDR_FEATURE_EN : Field := ⟨0x010, 0, 64, .rw, 0⟩
def HDR_STATUS_state : Field := ⟨0x018, 30, 2, .ro, 0⟩

namespace Page

/-- The offset of a page in BAR0 (R477, R78). -/
def base : Page → Nat
  | mgt => 0x0000
  | clk => 0x1000
  | pwr => 0x2000
  | sec => 0x3000
  | msr => 0x4000
  | pmc => 0x5000
  | hif => 0x6000
  | pmcUser => 0x8000
  | port i => 0x0010_0000 + i * 0x1_0000
  | fabG => 0x0018_0000
  | part p => 0x0100_0000 + p * 0x0100_0000
  | lad p => 0x0100_0000 + p * 0x0100_0000 + 0x1000
  | thx p => 0x0100_0000 + p * 0x0100_0000 + 0x2000
  | upd p => 0x0100_0000 + p * 0x0100_0000 + 0x3000
  | hch p => 0x0100_0000 + p * 0x0100_0000 + 0x4000
  | saf p => 0x0100_0000 + p * 0x0100_0000 + 0x5000
  | cal p => 0x0100_0000 + p * 0x0100_0000 + 0x6000
  | cluster p c => 0x0100_0000 + p * 0x0100_0000 + 0x1_0000 + c * 0x1000
  | chan p ch => 0x0100_0000 + p * 0x0100_0000 + 0x10_0000 + ch * 0x1000
  | wing p w => 0x0100_0000 + p * 0x0100_0000 + 0x20_0000 + w * 0x1_0000
  | bank p w b => 0x0100_0000 + p * 0x0100_0000 + 0x20_0000 + w * 0x1_0000 + 0x1000 + b * 0x1000
  | scl p w => 0x0100_0000 + p * 0x0100_0000 + 0x20_0000 + w * 0x1_0000 + 0x9000

/-- The page that holds a BAR0 offset, none where the offset is reserved (R477, R478). -/
def at? (a : Nat) : Option Page :=
  if a < 0x10_0000 then
    match a / 0x1000 with
    | 0 => some mgt
    | 1 => some clk
    | 2 => some pwr
    | 3 => some sec
    | 4 => some msr
    | 5 => some pmc
    | 6 => some hif
    | 8 => some pmcUser
    | _ => none
  else if a < 0x18_0000 then
    if a % 0x1_0000 < 0x1000 then some (port ((a - 0x10_0000) / 0x1_0000)) else none
  else if a < 0x18_1000 then some fabG
  else if 0x100_0000 ≤ a ∧ a < 0x900_0000 then
    let p := a / 0x100_0000 - 1
    let o := a % 0x100_0000
    if o < 0x7000 then
      match o / 0x1000 with
      | 0 => some (part p)
      | 1 => some (lad p)
      | 2 => some (thx p)
      | 3 => some (upd p)
      | 4 => some (hch p)
      | 5 => some (saf p)
      | _ => some (cal p)
    else if 0x1_0000 ≤ o ∧ o < 0x2_A000 then some (cluster p ((o - 0x1_0000) / 0x1000))
    else if 0x10_0000 ≤ o ∧ o < 0x12_0000 then some (chan p ((o - 0x10_0000) / 0x1000))
    else if 0x20_0000 ≤ o ∧ o < 0x29_0000 then
      let w := (o - 0x20_0000) / 0x1_0000
      let s := o % 0x1_0000 / 0x1000
      if s = 0 then some (wing p w) else if s ≤ 8 then some (bank p w (s - 1)) else if s = 9 then some (scl p w) else none
    else none
  else none

/-- The block type that the page's ID gives (R477). -/
def blockType : Page → Nat
  | mgt => 0x0001
  | clk => 0x0002
  | pwr => 0x0003
  | sec => 0x0004
  | msr => 0x0005
  | pmc => 0x0006
  | pmcUser => 0x0007
  | hif => 0x0008
  | port _ => 0x0010
  | fabG => 0x0011
  | part _ => 0x0020
  | lad _ => 0x0021
  | thx _ => 0x0022
  | upd _ => 0x0023
  | hch _ => 0x0024
  | saf _ => 0x0025
  | cal _ => 0x0026
  | cluster _ _ => 0x0030
  | chan _ _ => 0x0031
  | wing _ _ => 0x0040
  | bank _ _ _ => 0x0041
  | scl _ _ => 0x0042

/-- The partition whose page this is, none for a page outside the partitions (R486). -/
def partition? : Page → Option Nat
  | part p | lad p | thx p | upd p | hch p | saf p | cal p => some p
  | cluster p _ | chan p _ | wing p _ | bank p _ _ | scl p _ => some p
  | _ => none

/-- The instance that the page's ID gives (R486, R78). -/
def inst : Page → Nat
  | port i => i
  | cluster _ c => c
  | chan _ ch => ch
  | wing _ w => w
  | bank _ w b => 8 * w + b
  | scl _ w => w
  | _ => 0

/-- The page's bit index in the error map and the interrupt map (R378). -/
def mapIndex : Page → Nat
  | port i => 256 + i
  | fabG => 264
  | chan p ch => 512 + 512 * p + 256 + ch
  | wing p w => 512 + 512 * p + 288 + 16 * w
  | bank p w b => 512 + 512 * p + 288 + 16 * w + 1 + b
  | scl p w => 512 + 512 * p + 288 + 16 * w + 9
  | cluster p c => 512 + 512 * p + 16 + c
  | part p => 512 + 512 * p
  | lad p => 512 + 512 * p + 1
  | thx p => 512 + 512 * p + 2
  | upd p => 512 + 512 * p + 3
  | hch p => 512 + 512 * p + 4
  | saf p => 512 + 512 * p + 5
  | cal p => 512 + 512 * p + 6
  | pg => pg.base / 0x1000

/-- The MSI-X vector of a page's group (R489). -/
def vector (pg : Page) : Nat :=
  if pg.mapIndex < 256 then 0 else if pg.mapIndex < 512 then 1 else 2 + (pg.mapIndex - 512) / 512

/-- How many INT_STATUS bits the page defines (R80, R120, R176, R178, R244, R325, R327, R361, R384, R402, R407, R431,
R433, R462, R476, R491, R492, R495). -/
def intBits : Page → Nat
  | mgt => 2
  | clk => 3
  | pwr => 6
  | sec => 5
  | msr => 3
  | pmc => 3
  | hif => 3
  | port _ => 6
  | fabG => 5
  | part _ => 2
  | lad _ => 5
  | thx _ => 4
  | upd _ => 6
  | hch _ => 9
  | saf _ => 4
  | cal _ => 4
  | cluster _ _ => 3
  | wing _ _ => 6
  | _ => 0

/-- The fields of a page beside the common header. -/
def ownFields : Page → List Field
  | mgt => mgtFields
  | clk => clkFields
  | pwr => pwrFields
  | sec => secFields
  | msr => msrFields
  | pmc => pmcFields
  | hif => hifFields
  | pmcUser => []
  | port _ => portFields
  | fabG => fabGFields
  | part _ => partFields
  | lad _ => ladFields
  | thx _ => thxFields
  | upd _ => updFields
  | hch _ => hchFields
  | saf _ => safFields
  | cal _ => calFields
  | cluster _ _ => clusterFields
  | chan _ _ => chanFields
  | wing _ _ => wingFields
  | bank _ _ _ => bankFields
  | scl _ _ => sclFields

/-- The common header's fields on this page (R486). -/
def headerFields (pg : Page) : List Field :=
  [HDR_ID_type, HDR_ID_partition, HDR_ID_instance, HDR_VERSION_major, HDR_FEATURES, HDR_FEATURE_EN, HDR_STATUS_state,
   HDR_INT_EN, HDR_PROGRESS, HDR_MOVED, HDR_SATURATED] ++
  (List.range pg.intBits).map HDR_INT ++ (List.range pg.intBits).map HDR_MASK ++ (List.range 48).map HDR_ERRCNT

end Page

/-- The SIZE table of R286. -/
def sizeTable : List Nat :=
  [8, 24 + 26 * 2 ^ 8, 8 + 9 * 2 ^ 8, 32, 512 + 528 * 2 ^ 16, 1024 + 256 * 2 ^ 16, 98304, 49152, 96,
   16384 + 8192 * 2 ^ 16, 256 + 512 * 2 ^ 16, 1024, 8 + 24 * 2 ^ 8 + 26 * 2 ^ 16, 1600, 8 + 64 * 2 ^ 8 + 4 * 2 ^ 16, 0]

/-- The reset value of a field on a page (R12): the field's own, except where it depends on the instance or on the fuses
(DESIGN CHOICE, log entry 2: the nominal part, no instance retired by fuse). -/
def resetOf (pg : Page) (f : Field) : Nat :=
  if f = HDR_ID_type then pg.blockType
  else if f = HDR_ID_partition then pg.partition?.getD 0xF
  else if f = HDR_ID_instance then pg.inst
  else match pg with
  | .mgt =>
    if f = HDR_FEATURES then 0x1FF7
    else if f = MGT_SERIAL_serial then Config.serial
    else if f = MGT_DEVICE_stepping then Config.stepping
    else if 0x140 ≤ f.off ∧ f.off < 0x180 then sizeTable.getD ((f.off - 0x140) / 4) 0
    else f.reset
  | .msr =>
    if f = MSR_M_SCAN_mask 0 then 0x007F_FFFF
    else if f = MSR_M_SCAN_mask 1 then 0x0FFF_FFFF
    else if f = MSR_M_SCAN_mask 2 ∨ f = MSR_M_SCAN_mask 3 then 0x3F3F_3F3F
    else f.reset
  | .thx _ =>
    if f = THX_P_CLUSTERS_active then 24
    else if f = THX_P_CLUSTERS_spares_left then 2
    else if 0x104 ≤ f.off ∧ f.off ≤ 0x110 then 6 * ((f.off - 0x104) / 4) + f.lo / 5
    else f.reset
  | .cluster _ c => if f = THX_STATE_role then (if c < 24 then c else 0x1F) else f.reset
  | .port _ => if f = FAB_PORT_STATE_spares_left then 2 else f.reset
  | .wing _ w =>
    if f = WNG_STATE_role then (if w < 8 then w else 0xF)
    else if f = WNG_SPARES_spare_scales then 512
    else if f = WNG_SPARES_min_bank_spares then 16
    else if f = WNG_TOKENS_grant then (if w < 8 then 0x0400 else 0)
    else f.reset
  | .bank _ _ _ => if 0x100 ≤ f.off ∧ f.off % 0x10 = 0 ∧ f.lo = 16 then 16 else f.reset
  | .sec =>
    if f = SEC_FW_image_svn then Config.imageSvn
    else if f = SEC_FW_fused_svn then Config.fusedSvn
    else f.reset
  | _ => f.reset

end Sys2Proof.Machine
end

