-- ==== Sys2Proof/Machine/SMap.lean ====
section
/-! DEFINITION. Sparse maps from numbers to values in one canonical form: a list of (key, value) pairs with rising keys and
no entry equal to what an unlisted key reads as. Memories, registers and the records of repeated instances are such maps. -/
namespace Sys2Proof.Machine

/-- The entry of a key, if it is listed. -/
def mapFind {β : Type} : List (Nat × β) → Nat → Option β
  | [], _ => none
  | e :: m, k => if e.1 = k then some e.2 else mapFind m k

/-- What a key reads as: its entry, or the value `d` of an unlisted key. -/
def mapGet {β : Type} (d : β) (m : List (Nat × β)) (k : Nat) : β := (mapFind m k).getD d

/-- List a key with a value, at its place in the rising order. -/
def mapIns {β : Type} : List (Nat × β) → Nat → β → List (Nat × β)
  | [], k, v => [(k, v)]
  | e :: m, k, v =>
    if k < e.1 then (k, v) :: e :: m
    else if k = e.1 then (k, v) :: m
    else e :: mapIns m k v

/-- Unlist a key. -/
def mapDel {β : Type} (m : List (Nat × β)) (k : Nat) : List (Nat × β) := m.filter (fun e => e.1 != k)

/-- Make a key read as a value, keeping the canonical form for the unlisted value `d`. -/
def mapSet {β : Type} [DecidableEq β] (d : β) (m : List (Nat × β)) (k : Nat) (v : β) : List (Nat × β) :=
  if v = d then mapDel m k else mapIns m k v

/-- Rising keys. -/
def mapSorted {β : Type} : List (Nat × β) → Bool
  | [] => true
  | [_] => true
  | e :: e' :: m => e.1 < e'.1 && mapSorted (e' :: m)

/-- The canonical form: rising keys, no entry equal to the unlisted value. -/
def mapWf {β : Type} [DecidableEq β] (d : β) (m : List (Nat × β)) : Bool :=
  mapSorted m && m.all (fun e => e.2 ≠ d)

/-- Add a number to a rising list of numbers without repeats. -/
def setIns : List Nat → Nat → List Nat
  | [], k => [k]
  | e :: m, k => if k < e then k :: e :: m else if k = e then e :: m else e :: setIns m k

/-- Remove a number from a list. -/
def setDel (m : List Nat) (k : Nat) : List Nat := m.filter (fun e => e != k)

end Sys2Proof.Machine
end

