-- ==== Sys2Proof/Machine/State.lean ====
section
/-! DEFINITION. The state of the block as plain data (INVENTORY.md, '## State'): every register field stored once, memories
and the records of repeated instances as sparse maps, and the queue of waiting commands. -/
namespace Sys2Proof.Machine

/-- Ways in which the model stops with a fault. The spec gives every command an effect, so no meaning raises one. -/
inductive Fault where
  /-- Raised by no meaning: kept so that the type is inhabited; safe. -/
  | unreachable
  deriving DecidableEq, Repr

/-- Ways in which the model refuses a command. -/
inductive Refusal where
  /-- Raised by the dispatcher alone for a command that has no meaning yet; safe. -/
  | notModelled (mnemonic : String)
  deriving DecidableEq, Repr

/-! Clusters (R150–R178) -/

/-- The states of a thread that is not free (R152). `engWait` names the engines SYNC waits for, as F[2:0] of R278. -/
inductive ThreadState where
  | ready | memWait
  | engWait (engines : Nat)
  | halted
  deriving DecidableEq, Repr

/-- A hardware thread's context (R152, R278): the command it belongs to, program counter, registers and state. -/
structure Thread where
  cmd      : Nat
  pc       : Nat
  a        : List (Nat × W64)
  c        : List (Nat × W32)
  st       : ThreadState
  deferred : Bool
  deriving DecidableEq, Repr

/-- A tile mover request (R154, R278). `half` says that an MX conversion's local values are BF16 (R255, R256). -/
structure MoverReq where
  id     : Nat
  thread : Nat
  src    : Nat
  dst    : Nat
  bytes  : Nat
  out    : Bool
  conv   : Nat
  half   : Bool
  clear  : Bool
  deriving DecidableEq, Repr

/-- A block product in the matrix engine's queue (R156, R159, R278). Formats are numbered as F of R278 numbers them;
`gamma` and `window` are those of THX_ABFT_CTL as the block began (R174). -/
structure BlockProd where
  thread : Nat
  aOff   : Nat
  bOff   : Nat
  aExp   : Nat
  bExp   : Nat
  mode   : Nat
  aFmt   : Nat
  bFmt   : Nat
  wType  : Nat
  dest   : Nat
  exps   : Bool
  gamma  : Nat
  window : Nat
  deriving DecidableEq, Repr

/-- A descriptor in the vector engine's queue (R193, R194): its address, its thread, and whether it has run. -/
structure VecItem where
  addr   : Nat
  thread : Nat
  ran    : Bool
  deriving DecidableEq, Repr

/-- A physical cluster (R150). `last` is the thread that last issued (R153). Wide-buffer accumulators are keyed by block × 16384 +
row × 128 + column; `wideUsed` lists those written since their last clear (R177). -/
structure Cluster where
  threads    : List (Nat × Thread)
  last       : Nat
  mover      : List MoverReq
  nextReq    : Nat
  mmaQ       : List BlockProd
  vecQ       : List VecItem
  tile       : List Host.Cell
  tilePoison : List Nat
  wide       : List (Nat × BitVec 48)
  wideUsed   : List Nat
  widePoison : List Nat
  detections : List Nat
  blocks     : Nat
  sweepTick  : Nat
  deriving DecidableEq, Repr

def Cluster.reset : Cluster := ⟨[], 95, [], 0, [], [], [], [], [], [], [], [], 0, 0⟩

/-- A block handed to the recompute queue, with a copy of the tile buffers that hold its operands (R170). `bad` says that it
read a poisoned operand, `select` that it is to be audited once it has been written; `audit` marks an audit (R374), whose
original result is `orig`. -/
structure Recompute where
  source : Nat
  prod   : BlockProd
  tile   : List Host.Cell
  bad    : Bool
  select : Bool
  audit  : Bool
  orig   : List Nat
  deriving DecidableEq, Repr

/-- A cluster retirement in progress (R172). -/
structure Retirement where
  logical : Nat
  spare   : Nat
  deriving DecidableEq, Repr

/-! Sequencer (R265–R291) -/

/-- What a command in flight still has to see (R266). -/
inductive Work where
  | done                       -- its work is complete
  | boundary                   -- a STEP_MARK waiting for its step boundary
  | threads                    -- a KERNEL: done when no thread carries its id
  | product (id : Nat)         -- an ANALOGUE: done when the product is closed
  | seats                      -- a RESEAT: done when no seat carries its id
  | pass                       -- an UPDATE: done when its pass has ended
  | flagRound                  -- a flag round: done when the round has ended
  | commit                     -- a HITCH commit
  | resume                     -- a HITCH resume
  | push                       -- a HITCH push or receive
  | remote                     -- waits for the acknowledgement of a remote write
  | ringIn (r most buf table taken : Nat)              -- a RING_IN: it waits, or it has taken entries
  | ringOut (r table count dst : Nat) (written : Bool) -- a RING_OUT: it waits, or its entries are written
  deriving DecidableEq, Repr

/-- A tagged command's stamps so far (R471), in nanoseconds of the tether time base. -/
structure Tag where
  fetched : Nat
  issued  : Nat
  started : Nat
  products : Nat
  groups   : Nat
  requests : Nat
  ops      : Nat
  deriving DecidableEq, Repr

/-- A command issued and not complete (R268); `launch` is the ring entry of its launch. -/
structure Inflight where
  id      : Nat
  launch  : Nat
  index   : Nat
  op      : Nat
  sig     : Option (Nat × Nat)
  work    : Work
  tag     : Option Tag
  deriving DecidableEq, Repr

/-- A launch begun and not yet written back (R272, R276). `status` is set when it completed or ended. -/
structure Launch where
  ordinal   : Nat
  entry     : Nat
  stream    : Nat
  count     : Nat
  step      : Nat
  m         : Nat
  issued    : Nat
  completed : Nat
  status    : Option Nat
  deriving DecidableEq, Repr

/-- A ring's indices (R272): the producer index last read (or produced), the consumer index, and entries fetched. -/
structure Ring where
  prod    : Nat
  cons    : Nat
  fetched : Nat
  deriving DecidableEq, Repr

/-- A partition sequencer beside its registers. `window` counts the objects written in window number `windowNo` of 2^20 ticks (R283). -/
structure Seq where
  fences   : List (Nat × W64)
  ell      : Nat
  issuedN  : Nat
  nextId   : Nat
  launches : List Launch
  inflight : List Inflight
  rings    : List (Nat × Ring)
  window   : Nat
  windowNo : Nat
  deriving DecidableEq, Repr

def Ring.reset : Ring := ⟨0, 0, 0⟩
def Seq.reset : Seq := ⟨[], 0, 0, 0, [], [], [], 0, 0⟩

/-! Analogue products (R50–R105, R270) -/

/-- A scale of a column group: logical wing, bank, logical scale, and its 1024-row block of K (R270). -/
structure GScale where
  wing  : Nat
  bank  : Nat
  scale : Nat
  rows  : Nat
  deriving DecidableEq, Repr

/-- A column group (R61): its scales in list order and its output column block. -/
structure Group where
  scales : List GScale
  col    : Nat
  deriving DecidableEq, Repr

/-- An open analogue product (R270). `nonFinite` says whether its input has a non-finite element, once it has been examined
(R91); `outputs` lists the (token, output column block) pairs already written. -/
structure Product where
  id        : Nat
  layer     : Nat
  src       : Nat
  dst       : Nat
  tokens    : Nat
  kp        : Nat
  n         : Nat
  groups    : List Group
  nonFinite : Option Bool
  poisoned  : Bool
  outputs   : List (Nat × Nat)
  deriving DecidableEq, Repr

/-- A rotated 256-element block x′ of a product's token (R85), FP32 patterns. -/
structure RotBlock where
  product : Nat
  token   : Nat
  block   : Nat
  x       : List Nat
  deriving DecidableEq, Repr

/-- An outlier's residual (R90, R92): row within its 1024-row block. -/
structure Outlier where
  product  : Nat
  token    : Nat
  rowBlock : Nat
  row      : Nat
  r        : Nat
  deriving DecidableEq, Repr

/-- A segment on its way up the vertical link to a logical wing (R50), or a note that the segment's L2 form cannot be built
(R101). -/
structure UpSegment where
  wing : Nat
  wire : WireSegment
  overflow : Bool
  deriving DecidableEq, Repr

/-- One pass of a tile (R100, R102): the segment it drives, its rows, and its weight in the combined code (R103). -/
structure Pass where
  kind   : SegKind
  lo     : Nat
  hi     : Nat
  weight : Nat
  deriving DecidableEq, Repr

/-- A tile: one scale's share of one product for one segment (R100). `need` counts the segments that it still awaits and `left` the
passes that have not ended; `gain` is the gain of its last operation, `normal` the mode under which it opened (R112), `first` the place
in the order of arrival of its first operation and `escal` that it has been escalated (R109), `held` that it reached its scale while
the scale was held for a seating (R137). `acc` holds the combined code of each column so far, `target` the rung that a trouble signal
asked for, `term` the finished term of each column (empty where every pass skipped), `l3` the L3 term, which is poisoned where `bad` is
set. `old` keeps the level codes, by row × 256 + column, that the mirror held when the tile opened and has lost since (R106). -/
structure Tile where
  id      : Nat
  product : Nat
  token   : Nat
  group   : Nat
  pos     : Nat
  bank    : Nat
  scale   : Nat
  rung    : Nat
  need    : Nat
  left    : Nat
  ran     : Bool
  gain    : Nat
  normal  : Bool
  first   : Option Nat
  escal   : Bool
  held    : Bool
  old     : List (Nat × Nat)
  acc     : List Int
  target  : Nat
  closed  : Bool
  l3      : List Nat
  term    : List Nat
  bad     : Bool
  deriving DecidableEq, Repr

/-- A scale operation in operation or waiting to issue (R51, R76): its tile and pass, its place in the order of issue (R109), and the
gain, bank and physical scale it issued with. -/
structure ScaleOp where
  id   : Nat
  tile : Nat
  pass : Pass
  rank : Nat
  gain : Nat
  bank : Nat
  sc   : Nat
  deriving DecidableEq, Repr

/-- A VL10 granule in a wing's output queue (R66, R68). -/
structure OutGranule where
  product : Nat
  token   : Nat
  group   : Nat
  index   : Nat
  bits    : BitVec 256
  deriving DecidableEq, Repr

/-- Calibration triggers (R388), in the order of calibration ERRCNT 1–4 with the first calibration last. -/
inductive TrigKind where
  | temperature | drift | monitor | command | first
  deriving DecidableEq, Repr

/-- A wing's calibration (R388–R395). `trig` is the trigger that started the running one, `again` marks one started anew
after a partition reset (R400). -/
structure WingCal where
  running  : Bool
  trig     : TrigKind
  held     : List TrigKind
  attempts : Nat
  begun    : Nat
  newRef   : Nat
  refDone  : Bool
  again    : Bool
  deriving DecidableEq, Repr

/-- A physical wing beside its registers. `doneGroups` lists the finished column groups that wait for room in the output queue (R69).
`refApplied` and `refTarget` are the wing reference trim (R386), `autoRow` the restore row that its temperature gives (R71), bit b of
`swept` says that bank b has ended a sweep since every bank last had (R79). `due` gives by bank when its next row falls due, in 2^−10 ns
(R70), and `rewritten` the scales, as bank × 528 + scale, whose due restore a re-seat write has been (R72). -/
structure Wing where
  segs       : List Segment
  waiting    : List ScaleOp
  running    : List ScaleOp
  tiles      : List Tile
  nextTile   : Nat
  nextOp     : Nat
  openGroups : List (Nat × Nat × Nat)
  outQ       : List OutGranule
  doneGroups : List (Nat × Nat × Nat)
  cal        : WingCal
  refApplied : Int
  refTarget  : Int
  autoRow    : Nat
  swept      : Nat
  due        : List (Nat × Nat)
  rewritten  : List Nat
  deriving DecidableEq, Repr

def WingCal.reset : WingCal := ⟨false, .first, [], 0, 0, 0, false, false⟩
def Wing.reset : Wing := ⟨[], [], [], [], 0, 0, [], [], [], WingCal.reset, 0, 0, 0, 0, [], []⟩

/-- The statistical monitor's accumulators of a scale (R97), FP32 sums as patterns; `since` is the partition's boundary count at its last
evaluation, `due` says that n has reached the window (R98). -/
structure Monitor where
  n    : Nat
  sD   : Nat
  sDD  : Nat
  sV   : Nat
  nd   : Nat
  sd   : Int
  since : Nat
  due  : Bool
  deriving DecidableEq, Repr

def Monitor.reset : Monitor := ⟨0, 0, 0, 0, 0, 0, 0, false⟩

/-- A trim DAC: applied value and target (R386, R396). -/
structure Trim where
  applied : Int
  target  : Int
  deriving DecidableEq, Repr

def Trim.reset : Trim := ⟨0, 0⟩

/-- A physical scale (R42). `managed` says that its gain was set by a management action and is the next operation's (R28). `cells` and
`disabled` are keyed by row × 264 + physical column; `colmap` gives use and target of each spare column; `f` is keyed by logical data
column; `gains` and `offsets` are the converter trims, keyed by physical column; `noise` holds each converter's last accepted σ_n. `pinCal`
says that a calibration has begun since the pin (R389). `calNext` is the lowest logical column that a calibration by takeover has still to
complete, `attempts` the failed attempts of the measurements under way, keyed by physical column, 264 for the ladder and 265 for the pulse,
`calDirect` the mode fixed when phase 3 began (R391), `copied` the row restores since a takeover began (R392). -/
structure Scale where
  role     : Nat
  logical  : Nat
  gain     : Nat
  managed  : Bool
  colmap   : List (Nat × Nat)
  cells    : List (Nat × BitVec 4)
  disabled : List Nat
  f        : List (Nat × BitVec 16)
  rho      : BitVec 16
  sigmaC   : BitVec 16
  epoch    : Nat
  mon      : Monitor
  pinned   : Bool
  pinCal   : Bool
  driftSum : Int
  driftN   : Nat
  wear     : Nat
  wearRem  : Nat
  ladder   : Trim
  pulse    : Trim
  gains    : List (Nat × Trim)
  offsets  : List (Nat × Trim)
  noise    : List (Nat × BitVec 16)
  calNext  : Nat
  attempts : List (Nat × Nat)
  calDirect : Option Bool
  copied   : Nat
  deriving DecidableEq, Repr

/-- A scale of the nominal part after reset (DESIGN CHOICE, log entry 2): scales 0–511 of a bank serve their own number, the
others are free spares. -/
def Scale.reset (s : Nat) : Scale :=
  ⟨if s < 512 then 1 else 2, if s < 512 then s else 0, 0, false, List.replicate 6 (0, 0), [], [], [], 0, 0, 0,
   Monitor.reset, false, false, 0, 0, 0, 0, Trim.reset, Trim.reset, [], [], [], 0, [], none, 0⟩

/-! Re-seat (R133–R147) -/

/-- Why a scale is being written (R133, R142, R144). -/
inductive SeatKind where
  | commit | columnLoad | spareLoad
  deriving DecidableEq, Repr

/-- A re-seat descriptor (R147). -/
structure SeatDesc where
  image : Nat
  layer : Nat
  scale : Nat
  bank  : Nat
  wing  : Nat
  owner : Bool
  isBf16 : Bool
  k0    : Nat
  n0    : Nat
  n     : Nat
  master : Nat
  deriving DecidableEq, Repr

/-- A seating or load in progress: `cmd` is the RESEAT command that it belongs to, none for a load and for an owner descriptor of an update
(R241); `under` the commit step it was accepted under (R148) and `c` the one it seats; `checked` says that its image has been checked and
its rows queued; `stuck` that it consumed poison in its image (R369); `reform` that a cell was disabled while it wrote (R136). -/
structure Seat where
  id      : Nat
  kind    : SeatKind
  cmd     : Option Nat
  lw      : Nat
  bank    : Nat
  ls      : Nat
  pw      : Nat
  ps      : Nat
  under   : Nat
  c       : Nat
  layer   : Nat
  seed    : Nat
  k0      : Nat
  n0      : Nat
  nTotal  : Nat
  image   : Nat
  checked : Bool
  rows    : List Nat
  f       : List Nat
  rho     : Nat
  stuck   : Bool
  reform  : Bool
  deriving DecidableEq, Repr

/-! Update engine (R225–R241) -/

/-- An update descriptor (R241). -/
structure UpdDesc where
  master   : Nat
  mom1     : Nat
  mom2     : Nat
  gradEven : Nat
  gradOdd  : Nat
  owners   : Nat
  elemBase : Nat
  first    : Nat
  chunks   : Nat
  layer    : Nat
  bf16W    : Bool
  bf16M    : Bool
  deriving DecidableEq, Repr

/-- How a chunk's header is classified when it is not bad (R234). -/
inductive ChunkClass where
  | due | behind | current
  deriving DecidableEq, Repr

/-- A chunk of the pass (R234): its descriptor's position, its place in the descriptor, its header index, its class and its frozen
groups, taken when the header was checked (R232). -/
structure ChunkJob where
  desc   : Nat
  i      : Nat
  k      : Nat
  cls    : ChunkClass
  frozen : List Nat
  deriving DecidableEq, Repr

/-- The ratio sums of a descriptor, FP32 patterns (R239), its layer, and whether it updated anything. -/
structure Ratio where
  layer  : Nat
  sDelta : Nat
  sW     : Nat
  any    : Bool
  deriving DecidableEq, Repr

/-- The update pass of an UPDATE command (R234–R240): `jobs` are the chunks not yet begun, `flying` those in flight (R243); `refused` says
that some shard of it was refused, `stopped` that a chunk held a non-finite input element (R236). -/
structure UpdPass where
  cmd        : Nat
  h          : Nat
  descs      : List UpdDesc
  classified : Bool
  jobs       : List ChunkJob
  flying     : List ChunkJob
  ratios     : List Ratio
  refused    : Bool
  stopped    : Bool
  consts     : List Byte
  prevConsts : List Byte
  deriving DecidableEq, Repr

/-! Hitch (R336–R361) and Cocoon (R352–R357) -/

/-- An exchange or transfer with the other holder of a shard (R341, R344, R345, R352): the HITCH command it belongs to, the local update
descriptor, the place of the chunk in it, its header index, the other holder's coordinate and descriptor. -/
structure Peer where
  cmd   : Nat
  desc  : UpdDesc
  i     : Nat
  k     : Nat
  coord : Nat
  peer  : UpdDesc
  first : Bool
  deriving DecidableEq, Repr

/-- What a HITCH command in flight does with an entry that arrives from the other holder: compare it at commit, compare it at
capture, learn its header in a resume, or take a pushed chunk. -/
inductive Await where
  | commit | capture | resume | receive
  deriving DecidableEq, Repr

/-- What a hitch has seen beside its registers: the local non-finite flag (R237), whether an UPDATE since the open was refused, its
vote round, entries it awaits, and the mode and step of a resume. -/
structure Hitch where
  localNf    : Bool
  refused    : Bool
  roundOpen  : Bool
  awaiting   : List (Await × Peer)
  mismatch   : Bool
  resumeMode : Nat
  resumeStep : Nat
  deriving DecidableEq, Repr

def Hitch.reset : Hitch := ⟨false, false, false, [], false, 0, 0⟩

/-- A staged chunk that Cocoon has still to write (R354). -/
structure Staged where
  k      : Nat
  step   : Nat
  addr   : Nat
  bytes  : Nat
  layer  : Nat
  bf16W  : Bool
  bf16M  : Bool
  moments : Nat
  digest : Nat
  deriving DecidableEq, Repr

/-- A partition beside its registers. `stepOpen` is the step whose ladder record is being formed (R115, R116), `boundaries` counts the step
boundaries taken, `trimDue` says that an application point has come (R396), `epochs` lists the commit steps under which some descriptor has
written its epoch (R148), `seated` the logical scales seated since the last module reset (R144). `delivered` holds the output granules that
the vertical link has brought down, `turn` the wing it serves next (R66). `actions` are the management actions that wait for an operation
boundary (R27), `claims` the last spare taken from each parent, as parent, tick, instance and spare (R36). `owned` lists the owner
descriptors of the updates of the step that is open, which are seated once it is committed (R241), and `same` the tiles whose master values
a commit step left unchanged, as step and master address (R131). `ckpt` is the step and destination of a checkpoint that is not yet
verified, `written` the bytes of its records written so far (R354). -/
structure Part where
  seq       : Seq
  recompute : List Recompute
  retiring  : List Retirement
  products  : List Product
  nextProd  : Nat
  rot       : List RotBlock
  outliers  : List Outlier
  up        : List UpSegment
  rungs     : List (Nat × Nat)
  tiles     : List (Nat × Nat)
  stepOpen  : Option Nat
  boundaries : Nat
  trimDue   : Bool
  seats     : List Seat
  nextSeat  : Nat
  epochs    : List Nat
  seated    : List Nat
  delivered : List OutGranule
  turn      : Nat
  actions   : List MgmtAction
  claims    : List (Nat × Nat × Nat × Nat)
  owned     : List SeatDesc
  same      : List (Nat × Nat)
  pass      : Option UpdPass
  hitch     : Hitch
  staged    : List Staged
  ckpt      : Option (Nat × Nat)
  written   : Nat
  rotTick   : Nat
  updTick   : Nat
  heldParts : List TripCause
  deriving DecidableEq, Repr

def Part.reset : Part :=
  ⟨Seq.reset, [], [], [], 0, [], [], [], [], [], none, 0, false, [], 0, [], [], [], 0, [], [], [], [], none, Hitch.reset, [], none, 0, 0, 0, []⟩

/-! Fabric (R292–R327) -/

/-- A frame in a replay buffer, as transmitted (R298): its sequence number, its bytes, what its slots carry, and how often it has
been replayed (R299). -/
structure SentFrame where
  seq   : Nat
  wire  : List Byte
  cargo : List (Option Cargo)
  times : Nat
  deriving DecidableEq, Repr

/-- A granule that waits to be sent, with the port and channel in whose receive buffer it lies if it is being forwarded (R301, R302). -/
structure TxGranule where
  slot   : Slot
  origin : Option (Nat × Nat)
  deriving DecidableEq, Repr

/-- A lane switch to come (R300): its direction, the lane, and the first frame sent on the spare. -/
structure LaneMove where
  transmit : Bool
  lane     : Nat
  first    : Nat
  deriving DecidableEq, Repr

/-- A key to come (R457): its epoch, the first frame under it, and the key. -/
structure NextKey where
  epoch : Nat
  first : Nat
  key   : List Byte
  deriving DecidableEq, Repr

/-- A strand port beside its registers: sequence numbers; the replay buffer and what of it is being resent; whether frames are discarded
until a replay arrives, and whether a nak is due (R298); control messages and granules to send; granules received, and those kept from
before a link-down (R299); credits held and to return, and the partition numbers of VC0 granules out, oldest first (R301); lane switches to
come, corrected symbols of each receive lane in the window of 2^10 ticks, the lanes in error in the last frame if it was bad, and those
common to two bad frames in succession (R300); the receive epoch, keys, keys to come, and each end's last entropy (R457). -/
structure Port where
  txSeq    : Nat
  rxSeq    : Nat
  replay   : List SentFrame
  resend   : List SentFrame
  discarding : Bool
  nakDue   : Bool
  ctrl     : List CtrlMsg
  txQ      : List TxGranule
  rxQ      : List Slot
  kept     : List Slot
  credits  : List Nat
  giveBack : List Nat
  out0     : List Nat
  moves    : List LaneMove
  laneWin  : Nat
  laneErrs : List (Nat × Nat)
  badLanes : List Nat
  common   : List Nat
  rxEpoch  : Nat
  txKey    : List Byte
  rxKey    : List Byte
  nextKey  : Option NextKey
  rxNextKey : Option NextKey
  ownR     : List Byte
  peerR    : List Byte
  deriving DecidableEq, Repr

/-- The receive buffers of R301 in granules: the credits of a port that has just trained. -/
def vcCredits : List Nat := [16384, 8192, 4096, 4096]

def Port.reset : Port :=
  ⟨0, 0, [], [], false, false, [], [], [], [], [0, 0, 0, 0], [0, 0, 0, 0], [], [], 0, [], [], [], 0, [], [], none, none, [], []⟩

/-- A collective in flight (R305). -/
structure Coll where
  part : Nat
  cmd  : Nat
  tag  : Nat
  step : Nat
  deriving DecidableEq, Repr

/-- A remote write not yet ended (R303, R519): `sent` is the tick at which its last byte was sent. -/
structure Remote where
  id    : Nat
  part  : Nat
  cmd   : Nat
  coord : Nat
  addr  : Nat
  data  : List Byte
  sent  : Option Nat
  deriving DecidableEq, Repr

/-- A flag or commit round in progress (R312, R341): its step, the partitions that have issued it, the value before the axis under way, the
axes done, each message that has arrived (its axis, whether it travels in the + direction, and its value) and each that was sent. -/
structure Round where
  kind   : RoundKind
  step   : Nat
  parts  : List Nat
  value  : Bool
  axes   : List Nat
  got    : List (Nat × Bool × Bool)
  sent   : List (Nat × Bool)
  deriving DecidableEq, Repr

/-- The fabric domain controller beside its registers. `broken` lists remote writes, as sender and number, whose granules are discarded
(R303, R519). Times are in 16 ps units, 64,000 to a tick (R318): `heard` holds the offset of each neighbour's time to the module's own,
`slew` what is still to be corrected, and `shift` the correction made to the tick's edge so far (R319). -/
structure Fabric where
  tokens  : List Token
  acted   : List Nat
  rounds  : List Round
  colls   : List Coll
  remotes : List Remote
  nextRw  : Nat
  broken  : List (Nat × Nat)
  heard   : List (Nat × Int)
  slew    : Int
  shift   : Int
  holdFrom : Option Nat
  deriving DecidableEq, Repr

def Fabric.reset : Fabric := ⟨[], [], [], [], [], 0, [], [], 0, 0, none⟩

/-! Power (R419–R424), security (R438–R459), monitor (R463–R475), measurement (R403–R407) -/

/-- A limiter step in effect (R420): a grant step, or a clock step of a Thorax die. -/
inductive LimStep where
  | grant
  | clock (t : Nat)
  deriving DecidableEq, Repr

/-- A throttle in effect (R421): the part, named by its own sensor, the steps taken, the intervals 2 °C below the threshold, and whether
a reading of the present interval was not. -/
structure Throttle where
  sensor : Sensor
  steps  : Nat
  cool   : Nat
  warm   : Bool
  deriving DecidableEq, Repr

/-- The power and thermal managers beside their registers. `last` holds the readings of the last sweep, as 1/16 °C two's
complement; `tripped` the module trip that holds the module; `running` says that Instar 0 has been reached; `ssc` is the spread
setting in effect, laid out as CLK_SSC (R413). -/
structure Power where
  steps     : List LimStep
  under     : Nat
  throttles : List Throttle
  last      : List (Sensor × BitVec 16)
  tripped   : Option TripCause
  running   : Bool
  ssc       : Nat
  deriving DecidableEq, Repr

def Power.reset : Power := ⟨[], 0, [], [], none, false, 0x05000500⟩

/-- An installed key (R448, R449). -/
structure KeySlot where
  usage : Nat
  ctx   : Nat
  key   : List Byte
  deriving DecidableEq, Repr

/-- A context's grant (R449): partition mask, ingress and egress regions. -/
structure Grant where
  mask    : Nat
  inBase  : Nat
  inSize  : Nat
  outBase : Nat
  outSize : Nat
  deriving DecidableEq, Repr

/-- A reservation record copy in flash (R442). -/
structure Reservation where
  seq : Nat
  nId : Nat
  nNc : Nat
  deriving DecidableEq, Repr

/-- The security domain beside its page. `bootKey` numbers the per-boot keys, `attIndex` is the identity index that
certifies the attestation key, `idTop` and `ncTop` end the reserved blocks; bit k of `failed` says that engine pair k failed a
self-test (R459). -/
structure Security where
  slots     : List (Nat × KeySlot)
  epochs    : List (Nat × Nat)
  grants    : List (Nat × Grant)
  reports   : List (Nat × List Byte)
  rptSeq    : Nat
  bootKey   : Nat
  attIndex  : Nat
  idTop     : Nat
  ncTop     : Nat
  copy0     : Reservation
  copy1     : Reservation
  fuseSvn   : Nat
  smbReport : List Byte
  ideKey    : Bool
  failed    : Nat
  deriving DecidableEq, Repr

/-- A blank flash (DESIGN CHOICE, log entry 3): both copies valid, nothing reserved. -/
def Security.reset : Security :=
  ⟨[], [], [], [], 0, 0, 0, 0, 0, ⟨0, 0, 0⟩, ⟨0, 0, 0⟩, Config.fusedSvn, [], false, 0⟩

/-- A performance counter bound to a slot (R463–R467). -/
structure Counter where
  value : BitVec 48
  wraps : Nat
  snap  : BitVec 48
  snapWraps : Nat
  starting  : Bool
  deriving DecidableEq, Repr

def Counter.reset : Counter := ⟨0, 0, 0, 0, false⟩

/-- A measurement converter (R404, R405): the urgent requests waiting, oldest first; the running conversion, its channel and whether it is
urgent; the channel of an abandoned scan conversion; whether a single scan has ended; the requests that wait for the tick edge, each with its
requester's place. -/
structure Converter where
  urgent  : List Nat
  cur     : Option (Nat × Bool)
  again   : Option Nat
  stopped : Bool
  asked   : List (Nat × Nat)
  deriving DecidableEq, Repr

def Converter.reset : Converter := ⟨[], none, none, false, []⟩

/-- What leaves the module for the environment: MSI-X messages, PCIe writes to the host, and frames (R489, R295). -/
inductive Sent where
  | msix (vector : Nat)
  | frame (port : Nat) (wire : List Byte) (cargo : List (Option Cargo))
  deriving DecidableEq, Repr

/-- The block's state. -/
structure State where
  pending  : List Instr
  /-- The events of this tick that wait for one that acts before them, in the order of R381. -/
  held     : List Instr
  answer   : List Byte
  sent     : List Sent
  nDraw    : Nat
  cycle    : Nat
  tick     : BitVec 64
  regs     : List (Nat × Nat)
  held64   : List (Nat × Nat)
  latch64  : List (Nat × Nat × Nat)
  mem      : List Host.Cell
  poison   : List Nat
  hostMem  : List Host.Cell
  clusters : List (Nat × Cluster)
  parts    : List (Nat × Part)
  wings    : List (Nat × Wing)
  scales   : List (Nat × Scale)
  ports    : List (Nat × Port)
  fabric   : Fabric
  power    : Power
  security : Security
  counters : List (Nat × Counter)
  records  : List (List Nat)
  converters : List (Nat × Converter)
  userGo   : Bool
  resetting  : List Nat
  engineResets : List Block
  moved      : List (Nat × Nat × Nat)
  wearFlash  : List (Nat × Nat)
  strapSris  : Bool
  strapSmb   : Nat
  perstLow   : Bool
  killLow    : Bool
  powered    : Bool
  bound      : Bool
  featWritten : Bool
  deriving DecidableEq, Repr

/-- The block right after reset, before power-good: every register field at its reset value (R12), every memory with
nothing listed, every sequence empty. -/
def State.reset : State where
  pending := []
  held := []
  answer := []
  sent := []
  nDraw := 0
  cycle := 0
  tick := 0
  regs := []
  held64 := []
  latch64 := []
  mem := []
  poison := []
  hostMem := []
  clusters := []
  parts := []
  wings := []
  scales := []
  ports := []
  fabric := Fabric.reset
  power := Power.reset
  security := Security.reset
  counters := []
  records := []
  converters := []
  userGo := false
  resetting := []
  engineResets := []
  moved := []
  wearFlash := []
  strapSris := false
  strapSmb := 0
  perstLow := false
  killLow := false
  powered := false
  bound := false
  featWritten := false

end Sys2Proof.Machine
end

