-- ==== Sys2Proof/Machine/Ops.lean ====
section
/-! DEFINITION. The named operations over registers, device memory, host memory and the records of repeated instances.
Every change that a command makes to them goes through these. -/
namespace Sys2Proof.Machine

/-! Registers (R12, R477) -/

/-- The place of a field in BAR0 counted in bits: 8 × (page base + register offset) + lowest bit (R477). -/
def regKey (pg : Page) (f : Field) : Nat := 8 * (pg.base + f.off) + f.lo

/-- The value a field holds: what was last written, or its reset value (R12). -/
def State.rd (s : State) (pg : Page) (f : Field) : Nat := mapGet (resetOf pg f) s.regs (regKey pg f)

/-- A one-bit field read as a truth value. -/
def State.on (s : State) (pg : Page) (f : Field) : Bool := s.rd pg f == 1

/-- Hold a value in a field, cut to the field's width. -/
def State.wr (s : State) (pg : Page) (f : Field) (v : Nat) : State :=
  { s with regs := mapSet (resetOf pg f) s.regs (regKey pg f) (v % 2 ^ f.width) }

/-- Hold a two's complement value in a field (R11). -/
def State.wrInt (s : State) (pg : Page) (f : Field) (v : Int) : State := s.wr pg f (unsigned f.width v)

/-- Add to a field, modulo its width. -/
def State.addReg (s : State) (pg : Page) (f : Field) (n : Nat) : State := s.wr pg f (s.rd pg f + n)

/-- Hold several fields of one page at once. -/
def State.wrAll (s : State) (pg : Page) : List (Field × Nat) → State
  | [] => s
  | x :: xs => (s.wr pg x.1 x.2).wrAll pg xs

/-- The page in which the BAR0 bit address of a register key lies. -/
def pageOfKey (k : Nat) : Option Page := Page.at? (k / 8)

/-- Return every field that the predicate names to its reset value: the predicate sees the page and the offset of the 32-bit register that
holds the field's lowest bit. -/
def State.dropRegs (s : State) (which : Page → Nat → Bool) : State :=
  { s with regs := s.regs.filter (fun e =>
      match pageOfKey e.1 with
      | some pg => !which pg ((e.1 / 8 - pg.base) / 4 * 4)
      | none => true) }

/-- Apply an operation for each number below `n`, in rising order. -/
def State.each (s : State) (l : List Nat) (f : State → Nat → State) : State := l.foldl f s

/-! Bytes and words (R10) -/

/-- The little-endian value of bytes. -/
def leNat : List Byte → Nat
  | [] => 0
  | b :: bs => b.toNat + 256 * leNat bs

/-- The `n` little-endian bytes of a value. -/
def leBytes : Nat → Nat → List Byte
  | 0, _ => []
  | n + 1, v => BitVec.ofNat 8 v :: leBytes n (v / 256)

/-- `n` bytes of a list from an offset, with zeros past its end. -/
def slice (l : List Byte) (off n : Nat) : List Byte := (List.range n).map (fun i => (l.drop off).getD i 0)

/-- The little-endian value of `n` bytes of a list from an offset. -/
def leAt (l : List Byte) (off n : Nat) : Nat := leNat (slice l off n)

/-! Device memory and its poison (R165, R364–R370). An unlisted byte reads 0x00 (DESIGN CHOICE, log entry 4). -/

/-- The byte at a device address. -/
def State.byte (s : State) (a : Nat) : Byte := mapGet 0 s.mem a

/-- `n` bytes from a device address. -/
def State.bytes (s : State) (a n : Nat) : List Byte := (List.range n).map (fun i => s.byte (a + i))

/-- The little-endian value of `n` bytes at a device address. -/
def State.word (s : State) (a n : Nat) : Nat := leNat (s.bytes a n)

/-- `n` consecutive 32-bit words of device memory. -/
def State.words32 (s : State) (a n : Nat) : List Nat := (List.range n).map (fun i => s.word (a + 4 * i) 4)

/-- Whether any granule that overlaps the range is poisoned (R368). -/
def State.poisonedIn (s : State) (a n : Nat) : Bool :=
  n != 0 && s.poison.any (fun g => a / 32 ≤ g && g ≤ (a + n - 1) / 32)

/-- The granules that overlap a range (R364). -/
def granules (a n : Nat) : List Nat :=
  if n = 0 then [] else (List.range ((a + n - 1) / 32 - a / 32 + 1)).map (fun i => a / 32 + i)

/-- Write one byte. -/
def State.setByte (s : State) (a : Nat) (v : Byte) : State := { s with mem := mapSet 0 s.mem a v }

/-- Write bytes at rising addresses. -/
def State.setBytes (s : State) (a : Nat) : List Byte → State
  | [] => s
  | v :: vs => (s.setByte a v).setBytes (a + 1) vs

/-- Add granules to the poisoned ones. -/
def State.poisonAll (s : State) (gs : List Nat) : State := { s with poison := gs.foldl setIns s.poison }

/-- R370: a write that covers a whole granule clears its poison, one that covers a part leaves it as it was; granules
delivered poisoned are stored poisoned. -/
def State.settle (s : State) (a n : Nat) (bad : List Nat) : State :=
  ({ s with poison := s.poison.filter (fun g => !(a ≤ 32 * g && 32 * g + 32 ≤ a + n)) } : State).poisonAll bad

/-- Write bytes to device memory, with the granules that are delivered poisoned (R370). -/
def State.store (s : State) (a : Nat) (l : List Byte) (bad : List Nat) : State :=
  (s.setBytes a l).settle a l.length bad

/-- Write clean bytes. -/
def State.put (s : State) (a : Nat) (l : List Byte) : State := s.store a l []

/-- Write the low `n` bytes of a value. -/
def State.putWord (s : State) (a n v : Nat) : State := s.put a (leBytes n v)

/-- Write consecutive 32-bit words. -/
def State.putWords32 (s : State) (a : Nat) (l : List Nat) (bad : List Nat) : State :=
  s.store a (l.flatMap (leBytes 4)) bad

/-- The destination granules that a copy delivers poisoned (R368: the same granule). -/
def State.poisonMoved (s : State) (src dst n : Nat) : List Nat :=
  s.poison.flatMap (fun g =>
    let lo := max src (32 * g)
    let hi := min (src + n) (32 * g + 32)
    if lo < hi then granules (dst + (lo - src)) (hi - lo) else [])

/-- Copy bytes of device memory, poison with them. -/
def State.copy (s : State) (src dst n : Nat) : State := s.store dst (s.bytes src n) (s.poisonMoved src dst n)

/-- Host memory over PCIe (R274). -/
def State.hostByte (s : State) (a : Nat) : Byte := mapGet 0 s.hostMem a
def State.hostBytes (s : State) (a n : Nat) : List Byte := (List.range n).map (fun i => s.hostByte (a + i))
def State.setHostBytes (s : State) (a : Nat) : List Byte → State
  | [] => s
  | v :: vs => ({ s with hostMem := mapSet 0 s.hostMem a v } : State).setHostBytes (a + 1) vs

/-- Bytes of device memory or of host memory, as a ring's host bit selects (R274). -/
def State.spaceBytes (s : State) (host : Bool) (a n : Nat) : List Byte := if host then s.hostBytes a n else s.bytes a n

/-- Write bytes to device memory or to host memory. -/
def State.putSpace (s : State) (host : Bool) (a : Nat) (l : List Byte) : State :=
  if host then s.setHostBytes a l else s.put a l

/-! The address map of device memory (R165) -/

def hbmSize : Nat := 0x18_0000_0000
def storeBase : Nat := 0x100_0000_0000

/-- The partition whose stack or store holds an address, none where the address is unmapped (R165). -/
def ownerOf (a : Nat) : Option Nat :=
  if a < 8 * hbmSize then some (a / hbmSize)
  else if storeBase ≤ a ∧ a < storeBase + 8 * 0x400_0000 ∧ (a - storeBase) % 0x400_0000 < 0x300_0000 then
    some ((a - storeBase) / 0x400_0000)
  else none

/-- The HBM4 channel of an address in a stack (R165). -/
def channelOf (a : Nat) : Nat := a % hbmSize / 1024 % 32

/-- The context to which a partition is bound (R279). -/
def State.ctx? (s : State) (p : Nat) : Option Nat :=
  if s.on (.thx p) THX_SEQ_CTX_valid then some (s.rd (.thx p) THX_SEQ_CTX_ctx) else none

/-- The partitions of the context of a partition: those bound as it is (R279). -/
def State.peers (s : State) (p : Nat) : List Nat :=
  match s.ctx? p with
  | none => []
  | some c => (List.range 8).filter (fun q => s.ctx? q == some c)

/-- Whether a range lies in mapped device memory of the given partitions (R26, R165). -/
def rangeIn (ps : List Nat) (a n : Nat) : Bool :=
  if n = 0 then (match ownerOf a with | some q => ps.contains q | none => false)
  else match ownerOf a, ownerOf (a + n - 1) with
    | some q, some r =>
      if a < 8 * hbmSize then
        a + n ≤ 8 * hbmSize && (List.range 8).all (fun t => t < q || r < t || ps.contains t)
      else q == r && ps.contains q
    | _, _ => false

/-- Whether two ranges share a byte. -/
def overlaps (a n b m : Nat) : Bool := n != 0 && m != 0 && decide (a < b + m) && decide (b < a + n)

/-- Whether a range lies inside another. -/
def inside (a n b m : Nat) : Bool := decide (b ≤ a) && decide (a + n ≤ b + m)

/-- The grant of a context, if it has one (R449). -/
def State.grant? (s : State) (c : Nat) : Option Grant := mapFind s.security.grants c

/-- Whether a range touches the egress region of the partition's context, which its engines may not address in confidential
mode (R436). -/
def State.inEgress (s : State) (p a n : Nat) : Bool :=
  s.on .sec SEC_MODE_confidential &&
  match (s.ctx? p).bind s.grant? with
  | some g => overlaps a (max n 1) g.outBase g.outSize
  | none => false

/-- Whether a range lies in memory that the partition's context may reach (R26, R436). -/
def State.reach (s : State) (p a n : Nat) : Bool := rangeIn (s.peers p) a n && !s.inEgress p a n

/-! Records of repeated instances -/

def clusterKey (p c : Nat) : Nat := p * 26 + c
def wingKey (p w : Nat) : Nat := p * 9 + w
def scaleKey (p w b sc : Nat) : Nat := ((p * 9 + w) * 32 + b) * 528 + sc

def State.part (s : State) (p : Nat) : Part := mapGet Part.reset s.parts p
def State.setPart (s : State) (p : Nat) (x : Part) : State := { s with parts := mapSet Part.reset s.parts p x }
def State.modPart (s : State) (p : Nat) (f : Part → Part) : State := s.setPart p (f (s.part p))
def State.modSeq (s : State) (p : Nat) (f : Seq → Seq) : State := s.modPart p (fun x => { x with seq := f x.seq })
def State.modHitch (s : State) (p : Nat) (f : Hitch → Hitch) : State :=
  s.modPart p (fun x => { x with hitch := f x.hitch })

def State.cluster (s : State) (p c : Nat) : Cluster := mapGet Cluster.reset s.clusters (clusterKey p c)
def State.setCluster (s : State) (p c : Nat) (x : Cluster) : State :=
  { s with clusters := mapSet Cluster.reset s.clusters (clusterKey p c) x }
def State.modCluster (s : State) (p c : Nat) (f : Cluster → Cluster) : State := s.setCluster p c (f (s.cluster p c))

def State.wing (s : State) (p w : Nat) : Wing := mapGet Wing.reset s.wings (wingKey p w)
def State.setWing (s : State) (p w : Nat) (x : Wing) : State :=
  { s with wings := mapSet Wing.reset s.wings (wingKey p w) x }
def State.modWing (s : State) (p w : Nat) (f : Wing → Wing) : State := s.setWing p w (f (s.wing p w))
def State.modCal (s : State) (p w : Nat) (f : WingCal → WingCal) : State :=
  s.modWing p w (fun x => { x with cal := f x.cal })

def State.scale (s : State) (p w b sc : Nat) : Scale := mapGet (Scale.reset sc) s.scales (scaleKey p w b sc)
def State.setScale (s : State) (p w b sc : Nat) (x : Scale) : State :=
  { s with scales := mapSet (Scale.reset sc) s.scales (scaleKey p w b sc) x }
def State.modScale (s : State) (p w b sc : Nat) (f : Scale → Scale) : State :=
  s.setScale p w b sc (f (s.scale p w b sc))

def State.port (s : State) (i : Nat) : Port := mapGet Port.reset s.ports i
def State.setPort (s : State) (i : Nat) (x : Port) : State := { s with ports := mapSet Port.reset s.ports i x }
def State.modPort (s : State) (i : Nat) (f : Port → Port) : State := s.setPort i (f (s.port i))

def State.counter (s : State) (n : Nat) : Counter := mapGet Counter.reset s.counters n
def State.setCounter (s : State) (n : Nat) (x : Counter) : State :=
  { s with counters := mapSet Counter.reset s.counters n x }
def State.modCounter (s : State) (n : Nat) (f : Counter → Counter) : State := s.setCounter n (f (s.counter n))

def State.converter (s : State) (m : Nat) : Converter := mapGet Converter.reset s.converters m
def State.setConverter (s : State) (m : Nat) (x : Converter) : State :=
  { s with converters := mapSet Converter.reset s.converters m x }

def State.modFabric (s : State) (f : Fabric → Fabric) : State := { s with fabric := f s.fabric }
def State.modPower (s : State) (f : Power → Power) : State := { s with power := f s.power }
def State.modSecurity (s : State) (f : Security → Security) : State := { s with security := f s.security }

/-- Count a draw of a free value (log entry 7); the draw itself is `Config`'s constant applied to `nDraw`. -/
def State.drawn (s : State) : State := { s with nDraw := s.nDraw + 1 }

/-- Something leaves the module for its environment. -/
def State.emit (s : State) (x : Sent) : State := { s with sent := s.sent ++ [x] }

/-- The physical cluster that serves a logical cluster (R151, R175). -/
def State.physCluster (s : State) (p lc : Nat) : Nat := s.rd (.thx p) (THX_P_MAP_physical lc)

/-- The physical wing that serves a logical wing, if one does (R79). -/
def State.physWing? (s : State) (p lw : Nat) : Option Nat :=
  (List.range 9).find? (fun w => s.rd (.wing p w) WNG_STATE_role == lw)

/-- Whether a scale serves its logical scale: role 001, or 011 while it is loaded (R83). -/
def Scale.serves (x : Scale) (ls : Nat) : Bool := (x.role == 1 || x.role == 3) && x.logical == ls

/-- The physical scale that serves a logical scale of a bank, if one does (R83, R115). -/
def State.physScale? (s : State) (p w b ls : Nat) : Option Nat :=
  (ls :: (List.range 528)).find? (fun sc => (s.scale p w b sc).serves ls)

/-- Whether an engine reset of a block is under way, or the clock of the block has stopped it (R331, R412). -/
def State.stopped (s : State) (hit : Block → Bool) : Bool := s.engineResets.any hit

/-- Blocks by their numbers. -/
def isCluster (p c : Nat) : Block → Bool
  | .cluster q k => q.val == p && k.val == c
  | _ => false
def isWing (p w : Nat) : Block → Bool
  | .wing q v => q.val == p && v.val == w
  | _ => false
def isSequencer (p : Nat) : Block → Bool
  | .sequencer q => q.val == p
  | _ => false
def isUpdate (p : Nat) : Block → Bool
  | .update q => q.val == p
  | _ => false
def isRotation (p : Nat) : Block → Bool
  | .rotation q => q.val == p
  | _ => false
def isChannel (p ch : Nat) : Block → Bool
  | .channel q d => q.val == p && d.val == ch
  | _ => false
def isPort (i : Nat) : Block → Bool
  | .port j => j.val == i
  | _ => false

/-- The nanoseconds of the tether time base (R7, R471): a tick is 1,024 ns, a reference cycle 6.4 ns. -/
def State.nowNs (s : State) : Nat := s.tick.toNat * 1024 + s.cycle * 32 / 5

/-- The reference cycle within the tick at which a stamp is taken (R471): a free value, no earlier than the stamps before it in the tick,
which has 160 cycles (R409). -/
def State.toCycle (s : State) : State :=
  { s with cycle := s.cycle + Config.cyclesOn s.nDraw % (160 - s.cycle), nDraw := s.nDraw + 1 }

/-- The present tick, as timestamps hold it (R7). -/
def State.now (s : State) : Nat := s.tick.toNat

end Sys2Proof.Machine
end

