-- ==== Sys2Proof/Machine/Precedence.lean ====
section
/-! DEFINITION. The precedence of the events of one tick (R380, R381): which commands are events, their ranks and instance numbers, and how
an event lets those before it act first. -/
namespace Sys2Proof.Machine

/-- The instance number of a unit of a partition (R381). -/
def partInstance (p unit : Nat) : Nat := p * 2 ^ 24 + unit

/-- The instance number of a block: the partition, then the cluster, wing and port (R381); a shared block comes after the partitions'. -/
def blockInstance : Block → Nat
  | .cluster p c | .tileMover p c => partInstance p.val (1 + c.val)
  | .update p | .rotation p | .sequencer p => partInstance p.val 0
  | .wing p w => partInstance p.val (0x100 + w.val)
  | .channel p ch => partInstance p.val (0x200 + ch.val)
  | .port i => partInstance 8 i.val
  | .hostDma => partInstance 8 8

/-- The instance number of a trip: a module trip precedes that of a partition (R429). -/
def tripInstance : TripCause → Nat
  | .thorax t => 1 + partInstance (2 * t.val) 0
  | .wingStack p | .hbm p => 1 + partInstance p.val 1
  | _ => 0

/-- The rank of an event and its instance number (R380, R381): none for a command that is no event of the table. The operation ends of a tick
keep their order, since what they bring takes local effect at once (R379; log entry 85). -/
def eventRank? : Instr → Option (Nat × Nat)
  | .trip c => some (1, tripInstance c)
  | .abortToken i _ | .linkDown i _ => some (2, partInstance 8 i.val)
  | .abortAct => some (2, partInstance 9 0)
  | .poisonConsumed p _ => some (3, partInstance p.val 0)
  | .hangTimeout b => some (4, blockInstance b)
  | .updatePass p => some (5, partInstance p.val 0)
  | .flagRoundMessage i _ _ _ _ => some (5, partInstance 8 i.val)
  | .scaleOperationEnd _ _ _ => some (6, 0)
  | .driftEvaluation p w b sc => some (7, partInstance p.val (1 + (w.val * 32 + b.val) * 528 + sc.val))
  | .calibrationCommand p _ => some (7, partInstance p.val 0)
  | .counterWrap n _ => some (8, n.val)
  | _ => none

/-- Whether an event acts before another of its tick: ascending rank, then ascending instance number. -/
def actsBefore (j i : Instr) : Bool :=
  match eventRank? j, eventRank? i with
  | some a, some b => decide (a.1 < b.1) || (a.1 == b.1 && decide (a.2 < b.2))
  | _, _ => false

/-- Whether it is an event's turn: no event that acts before it is still to come in this tick, in the queue or among the held ones (R381). The
queue is empty at each tick edge (log entry 1), so whatever waits belongs to the present tick. -/
def State.inTurn (s : State) (i : Instr) : Bool := (s.pending ++ s.held).all (fun j => !actsBefore j i)

/-- Put an event into a list of held ones behind those that act before it, and behind its equals. -/
def putRanked (i : Instr) : List Instr → List Instr
  | [] => [i]
  | j :: l => if actsBefore i j then i :: j :: l else j :: putRanked i l

/-- R380, R381: the effect of an event of a tick in its turn; before it, the event is held for the tick edge, where the held events act in
ascending rank. -/
def State.ranked (s : State) (i : Instr) (t : State) : State :=
  if s.inTurn i then t else { s with held := putRanked i s.held }

end Sys2Proof.Machine
end

