-- ==== Sys2Proof/Machine/Flags.lean ====
section
/-! DEFINITION. Flags: interrupt status bits and MSI-X messages (R489, R494), ERRCNT counters with their summary bits and
the module error map (R377, R378), and PROGRESS (R329, R488). -/
namespace Sys2Proof.Machine

/-! Interrupts -/

/-- R489: a page pends while int_en is 1 and some unmasked INT_STATUS bit is 1. -/
def State.pends (s : State) (pg : Page) : Bool :=
  s.on pg HDR_INT_EN && (List.range pg.intBits).any (fun i => s.on pg (HDR_INT i) && !s.on pg (HDR_MASK i))

/-- The pages whose CONTROL.int_en is 1: int_en resets to 0, so each has a listed entry. -/
def State.armedPages (s : State) : List Page :=
  s.regs.filterMap (fun e => if e.1 % 0x8000 = 8 * 0x01C ∧ e.2 = 1 then pageOfKey e.1 else none)

/-- The number of pending pages in a vector's group (R489). -/
def State.pendCount (s : State) (v : Nat) : Nat :=
  (s.armedPages.filter (fun pg => pg.vector == v && s.pends pg)).length

/-- R494: a vector sends its message, or sets its pending bit while its table entry masks it. -/
def State.sendVector (s : State) (v : Nat) : State :=
  if s.on .hif (HIF_MSIX (4 * v + 3)) then s.wr .hif (HIF_PBA v) 1 else s.emit (.msix v)

/-- R489: send one message for each vector whose number of pending pages has risen from 0 since the state `old`. -/
def State.signalFrom (old s : State) : List Nat → State
  | [] => s
  | v :: vs =>
    State.signalFrom old (if old.pendCount v = 0 ∧ s.pendCount v ≠ 0 then s.sendVector v else s) vs

/-- Set an INT_STATUS bit of a page (R14) and send what R489 asks. -/
def State.raise (s : State) (pg : Page) (b : Nat) : State :=
  State.signalFrom s (s.wr pg (HDR_INT b) 1) [pg.vector]

/-! Error counters -/

/-- R377: an event adds 1; at 0x7FFF_FFFF the count stops and the saturation bit is set. -/
def countUp (c : Nat) : Nat :=
  if bit c 31 then c else if c + 1 = 0x7FFF_FFFF then 0xFFFF_FFFF else c + 1

/-- R378: set the page's bit in the module error map; a bit that goes from 0 to 1 sets map_moved (R491). -/
def State.markMap (s : State) (pg : Page) : State :=
  let w := MGT_ERR_MAP_pages (pg.mapIndex / 32)
  let v := s.rd .mgt w
  if bit v (pg.mapIndex % 32) then s
  else (s.wr .mgt w (v + 2 ^ (pg.mapIndex % 32))).raise .mgt MGT_INT_map_moved

/-- R377, R378: an event counts in ERRCNT entry `n` of a page. -/
def State.bump (s : State) (pg : Page) (n : Nat) : State :=
  let c := s.rd pg (HDR_ERRCNT n)
  if bit c 31 then s
  else
    let t := (s.wr pg (HDR_ERRCNT n) (countUp c)).wr pg HDR_MOVED 1
    (if bit (countUp c) 31 then t.wr pg HDR_SATURATED 1 else t).markMap pg

/-- `k` events count in one entry. -/
def State.bumpN (s : State) (pg : Page) (n : Nat) : Nat → State
  | 0 => s
  | k + 1 => (s.bump pg n).bumpN pg n k

/-- A counter in ERRCNT format outside the ERRCNT entries counts an event (R243, R291). -/
def State.bumpReg (s : State) (pg : Page) (f : Field) : State := s.wr pg f (countUp (s.rd pg f))

/-- R377: a write to a counter whose saturation bit reads 1 clears it; any other write is ignored. -/
def State.clearCount (s : State) (pg : Page) (f : Field) : State := if bit (s.rd pg f) 31 then s.wr pg f 0 else s

/-- R26, R165: whether an engine of a partition may access a range for the partition's own work: where no context is bound, its own memory. -/
def State.ownReach (s : State) (p a n : Nat) : Bool := if (s.ctx? p).isSome then s.reach p a n else rangeIn [p] a n

/-- R165: work that accesses ranges which a base register names. Where one of them is refused, nothing is accessed, the refusal counts
(R176), and the work is not done (DESIGN CHOICE, log entry 79). -/
def State.guarded (s : State) (p : Nat) (rs : List (Nat × Nat)) (t : State) : State :=
  if rs.all (fun r => s.ownReach p r.1 r.2) then t else s.bump (.thx p) 4

/-- R329, R488: a unit of work is completed. -/
def State.progress (s : State) (pg : Page) : State := s.addReg pg HDR_PROGRESS 1

end Sys2Proof.Machine
end

