-- ==== Sys2Proof/Machine/Grants.lean ====
section
/-! DEFINITION. Effective grants and Thorax clocks under budget, storm, limiter and throttle (R75, R77, R419–R421). -/
namespace Sys2Proof.Machine

/-- PWR_GRANT and PWR_STORM_GRANT: 0 acts as 1, values above 16,384 act as 16,384 (R432). -/
def clampGrant (v : Nat) : Nat := max 1 (min 16384 v)

/-- The grant that the limiter leaves after a number of its grant steps (R420). -/
def limiterGrant (base : Nat) : Nat → Nat
  | 0 => base
  | n + 1 =>
    let g := limiterGrant base n
    if 128 < g then max 128 (g - max 1 (base / 8)) else g

/-- The grant that a throttle of the stack leaves after a number of halvings (R421). -/
def throttleGrant (base : Nat) : Nat → Nat
  | 0 => base
  | n + 1 =>
    let g := throttleGrant base n
    if 128 < g then max 128 (g / 2) else g

/-- Whether a sensor belongs to a Wing stack. -/
def sensorOfStack (x : Sensor) (p : Nat) : Bool :=
  match x with
  | .stack q => q.val == p
  | .wingDie q _ => q.val == p
  | _ => false

/-- Whether a throttle on a sensor slows a Thorax die: its own, or that of the partition of an HBM4 stack (R421). -/
def sensorSlows (x : Sensor) (t : Nat) : Bool :=
  match x with
  | .thorax d => d.val == t
  | .hbm q => q.val / 2 == t
  | .channel q _ => q.val / 2 == t
  | _ => false

/-- Whether a throttle acts on a partition: it slows the partition's Thorax die or its wings. -/
def sensorActsOn (x : Sensor) (p : Nat) : Bool := sensorSlows x (p / 2) || sensorOfStack x p

/-- The steps of the throttles that the predicate names. -/
def State.throttleSteps (s : State) (which : Sensor → Bool) : Nat :=
  (s.power.throttles.filter (fun t => which t.sensor)).foldl (fun m t => m + t.steps) 0

/-- Whether a partition is in a ladder storm (R117). -/
def State.inStorm (s : State) (p : Nat) : Bool := s.on (.lad p) LAD_STATUS_storm

/-- R419: the effective grant of a partition's analogue wings. -/
def State.effectiveGrant (s : State) (p : Nat) : Nat :=
  let base := clampGrant (s.rd .pwr PWR_GRANT_grant)
  let storm := if s.inStorm p then clampGrant (s.rd .pwr PWR_STORM_GRANT_grant) else base
  let lim := limiterGrant base (s.power.steps.filter (fun x => x == .grant)).length
  let thr := throttleGrant base (s.throttleSteps (fun x => sensorOfStack x p))
  min (min base storm) (min lim thr)

/-- The clock of a Thorax die in MHz (R420, R421): the lower of what limiter and throttle leave, at least 800. -/
def State.thoraxMHz (s : State) (t : Nat) : Nat :=
  let lim := (s.power.steps.filter (fun x => x == .clock t)).length
  max 800 (1600 - 100 * max lim (s.throttleSteps (fun x => sensorSlows x t)))

/-- The frequency field of a Thorax die (R430). -/
def thoraxFreq (t : Nat) : Field :=
  match t with
  | 0 => CLK_THX_FREQ_t0
  | 1 => CLK_THX_FREQ_t1
  | 2 => CLK_THX_FREQ_t2
  | _ => CLK_THX_FREQ_t3

/-- Bring the grants of a partition's wings into step with what R419–R421 give. -/
def State.applyGrant (s : State) (p : Nat) : State :=
  let g := s.effectiveGrant p
  let s := s.wrAll .pwr [(PWR_P_STATE_grant p, g), (PWR_P_STATE_storm p, flag (s.inStorm p)),
    (PWR_P_STATE_throttled p, flag (s.power.throttles.any (fun t => sensorActsOn t.sensor p && t.steps != 0)))]
  s.each (List.range 9) (fun s w =>
    s.wr (.wing p w) WNG_TOKENS_grant (if s.rd (.wing p w) WNG_STATE_role < 8 then g else 0))

/-- Bring the grants and clocks of the registers into step with what R419–R421 give. The frequency is in units of 8 MHz, rounded
down, and 0 while the clock is stopped (R430). -/
def State.applyPower (s : State) : State :=
  let s := s.each (List.range 8) State.applyGrant
  let s := s.each (List.range 4) (fun s t =>
    if s.rd .clk (thoraxFreq t) = 0 then s else s.wr .clk (thoraxFreq t) (s.thoraxMHz t / 8))
  s.wr .pwr PWR_STATUS_limiting (flag (!s.power.steps.isEmpty))

end Sys2Proof.Machine
end

