-- ==== Sys2Proof/Machine/Numerics.lean ====
section
/-! DEFINITION. The number formats and roundings of Numerics Reference (R246–R252, R184, R185): every value is decoded
to an exact dyadic number, computed exactly, and rounded once to nearest, ties to even. -/
namespace Sys2Proof.Machine

/-- An exact value of a floating-point format: not a number, an infinity, or ±`m` × 2^`e` (zero keeps its sign). -/
inductive Num where
  | nan
  | inf (neg : Bool)
  | fin (neg : Bool) (m : Nat) (e : Int)
  deriving DecidableEq, Repr

/-- How a format spends its largest exponent field (R246). -/
inductive Top where
  | ieee    -- infinity and NaN at the all-ones exponent
  | e4m3    -- only mantissa 0b111 of the largest exponent is NaN, and there is no infinity
  | none    -- neither infinity nor NaN (the six- and four-bit MX elements, R253)
  deriving DecidableEq, Repr

/-- A floating-point format of R246 or an MX element format of R253. -/
structure Fmt where
  ebits : Nat
  mbits : Nat
  bias  : Nat
  top   : Top
  deriving DecidableEq, Repr

def fp32 : Fmt := ⟨8, 23, 127, .ieee⟩
def bf16 : Fmt := ⟨8, 7, 127, .ieee⟩
def fp16 : Fmt := ⟨5, 10, 15, .ieee⟩
def e4m3 : Fmt := ⟨4, 3, 7, .e4m3⟩
def e5m2 : Fmt := ⟨5, 2, 15, .ieee⟩
def e3m2 : Fmt := ⟨3, 2, 3, .none⟩
def e2m3 : Fmt := ⟨2, 3, 1, .none⟩
def e2m1 : Fmt := ⟨2, 1, 1, .none⟩

/-- The pattern of the largest finite magnitude of a format. -/
def Fmt.maxFinite (f : Fmt) : Nat :=
  match f.top with
  | .ieee => (2 ^ f.ebits - 1) * 2 ^ f.mbits - 1
  | .e4m3 => 2 ^ (f.ebits + f.mbits) - 2
  | .none => 2 ^ (f.ebits + f.mbits) - 1

/-- The canonical quiet NaN the module writes in a format (R184, R247). -/
def Fmt.nan (f : Fmt) : Nat :=
  match f.top with
  | .ieee => if f.mbits = 2 then 0x7E else (2 ^ f.ebits - 1) * 2 ^ f.mbits + 2 ^ (f.mbits - 1)
  | .e4m3 => 0x7F
  | .none => 0

/-- The pattern of a signed infinity. E4M3 has none and takes NaN (R185). -/
def Fmt.inf (f : Fmt) (neg : Bool) : Nat :=
  match f.top with
  | .ieee => (2 ^ f.ebits - 1) * 2 ^ f.mbits + flag neg * 2 ^ (f.ebits + f.mbits)
  | .e4m3 => 0x7F
  | .none => f.maxFinite + flag neg * 2 ^ (f.ebits + f.mbits)

/-- The exact value of a pattern (R246). Every NaN encoding is the one NaN (R247). -/
def Fmt.decode (f : Fmt) (v : Nat) : Num :=
  let neg := bit v (f.ebits + f.mbits)
  let ex := bits v f.mbits f.ebits
  let m := bits v 0 f.mbits
  if f.top = .ieee ∧ ex = 2 ^ f.ebits - 1 then (if m = 0 then .inf neg else .nan)
  else if f.top = .e4m3 ∧ ex = 2 ^ f.ebits - 1 ∧ m = 2 ^ f.mbits - 1 then .nan
  else if ex = 0 then .fin neg m (1 - (f.bias : Int) - f.mbits)
  else .fin neg (2 ^ f.mbits + m) ((ex : Int) - f.bias - f.mbits)

/-- `n` ÷ 2^`k`, rounded to nearest with ties to even (R250). -/
def rneShift (n k : Nat) : Nat :=
  let q := n / 2 ^ k
  let r := n % 2 ^ k
  if 2 * r > 2 ^ k ∨ (2 * r = 2 ^ k ∧ q % 2 = 1) then q + 1 else q

/-- The magnitude pattern of `m` × 2^`e` rounded to a format, before any overflow rule; it may exceed `maxFinite`. -/
def Fmt.roundMag (f : Fmt) (m : Nat) (e : Int) : Nat :=
  if m = 0 then 0 else
    let top : Int := (Nat.log2 m : Int) + e
    let emin : Int := 1 - (f.bias : Int)
    let ex := if top < emin then emin else top
    let sh : Int := ex - f.mbits - e
    let mant := if sh ≤ 0 then m * 2 ^ (-sh).toNat else rneShift m sh.toNat
    (ex + f.bias - 1).toNat * 2 ^ f.mbits + mant

/-- What a narrowing conversion does with a value beyond the largest finite value (R185, R252). -/
inductive Over where
  | inf   -- infinity, or NaN where the format has none
  | sat   -- the largest finite value of the sign
  deriving DecidableEq, Repr

/-- Round an exact value to a format with RNE (R250) under an overflow rule. `infSat` says that an infinity saturates too
(R185: E4M3 with sat). -/
def Fmt.encodeWith (f : Fmt) (o : Over) (infSat : Bool) : Num → Nat
  | .nan => f.nan
  | .inf neg => if infSat then f.maxFinite + flag neg * 2 ^ (f.ebits + f.mbits) else f.inf neg
  | .fin neg m e =>
    let r := f.roundMag m e
    let s := flag neg * 2 ^ (f.ebits + f.mbits)
    if r > f.maxFinite then (match o with | .inf => f.inf neg | .sat => f.maxFinite + s) else r + s

/-- Round with overflow to infinity, the rule of every FP32 result. -/
def Fmt.encode (f : Fmt) (x : Num) : Nat := f.encodeWith .inf false x

namespace Num

def isNaN : Num → Bool
  | .nan => true
  | _ => false

def isFinite : Num → Bool
  | .fin _ _ _ => true
  | _ => false

def isZero : Num → Bool
  | .fin _ 0 _ => true
  | _ => false

def isNeg : Num → Bool
  | .nan => false
  | .inf n => n
  | .fin n _ _ => n

def neg : Num → Num
  | .nan => .nan
  | .inf n => .inf (!n)
  | .fin n m e => .fin (!n) m e

def abs : Num → Num
  | .nan => .nan
  | .inf _ => .inf false
  | .fin _ m e => .fin false m e

/-- The integer `x` as an exact value. -/
def ofInt (x : Int) : Num := .fin (x < 0) x.natAbs 0

/-- The power of two 2^`e`. -/
def pow2 (e : Int) : Num := .fin false 1 e

/-- The signed mantissa of a finite value scaled to exponent `e0 ≤ e`. -/
def scaled (neg : Bool) (m : Nat) (e e0 : Int) : Int :=
  let v : Int := (m : Int) * 2 ^ (e - e0).toNat
  if neg then -v else v

/-- The exact sum (R184): opposite infinities give NaN, an exact zero of opposite signs is +0. -/
def add : Num → Num → Num
  | .nan, _ => .nan
  | _, .nan => .nan
  | .inf a, .inf b => if a = b then .inf a else .nan
  | .inf a, .fin _ _ _ => .inf a
  | .fin _ _ _, .inf b => .inf b
  | .fin a m e, .fin b n d =>
    let e0 := min e d
    let v := scaled a m e e0 + scaled b n d e0
    if v = 0 then .fin (a && b) 0 0 else .fin (v < 0) v.natAbs e0

def sub (x y : Num) : Num := add x (neg y)

/-- The exact product (R184): 0 × ±∞ is NaN. -/
def mul : Num → Num → Num
  | .nan, _ => .nan
  | _, .nan => .nan
  | .inf a, .inf b => .inf (a != b)
  | .inf a, .fin b m _ => if m = 0 then .nan else .inf (a != b)
  | .fin a m _, .inf b => if m = 0 then .nan else .inf (a != b)
  | .fin a m e, .fin b n d => .fin (a != b) (m * n) (e + d)

/-- A quotient carried to `guard` bits below any format's precision, its last bit sticky, so that one rounding of it is the
correctly rounded quotient (R225). -/
def div : Num → Num → Num
  | .nan, _ => .nan
  | _, .nan => .nan
  | .inf _, .inf _ => .nan
  | .inf a, .fin b _ _ => .inf (a != b)
  | .fin a _ _, .inf b => .fin (a != b) 0 0
  | .fin a m e, .fin b n d =>
    if n = 0 then (if m = 0 then .nan else .inf (a != b))
    else if m = 0 then .fin (a != b) 0 0
    else
      let k := Nat.log2 n + 64
      let q := m * 2 ^ k / n
      let r := m * 2 ^ k % n
      .fin (a != b) (2 * q + (if r = 0 then 0 else 1)) (e - d - k - 1)

/-- The integer square root of `n`, found by bits from `2^fuel` down. -/
def isqrtGo (n : Nat) : Nat → Nat → Nat
  | 0, acc => acc
  | fuel + 1, acc =>
    let c := acc + 2 ^ fuel
    isqrtGo n fuel (if c * c ≤ n then c else acc)

def isqrt (n : Nat) : Nat := isqrtGo n (Nat.log2 n / 2 + 1) 0

/-- A square root with a sticky last bit, so that one rounding of it is correct (R225). The root of −0 is −0. -/
def sqrt : Num → Num
  | .nan => .nan
  | .inf false => .inf false
  | .inf true => .nan
  | .fin a 0 _ => .fin a 0 0
  | .fin true _ _ => .nan
  | .fin false m e =>
    let odd : Nat := if e % 2 = 0 then 0 else 1
    let m' := m * 2 ^ (128 + odd)
    let r := isqrt m'
    .fin false (2 * r + (if r * r = m' then 0 else 1)) ((e - odd) / 2 - 64 - 1)

/-- Exact comparison of two numbers, none where one is NaN (R183). −0 and +0 compare equal. -/
def cmp : Num → Num → Option Ordering
  | .nan, _ => none
  | _, .nan => none
  | .inf a, .inf b => some (compare (flag b) (flag a))
  | .inf a, .fin _ _ _ => some (if a then .lt else .gt)
  | .fin _ _ _, .inf b => some (if b then .gt else .lt)
  | .fin a m e, .fin b n d =>
    let e0 := min e d
    some (compare (scaled a m e e0) (scaled b n d e0))

def lt (x y : Num) : Bool := cmp x y == some .lt
def le (x y : Num) : Bool := cmp x y == some .lt || cmp x y == some .eq
def gt (x y : Num) : Bool := cmp x y == some .gt

/-- The integer nearest to a finite value, ties to even (R250). -/
def rne : Num → Int
  | .fin a m e =>
    let r : Nat := if 0 ≤ e then m * 2 ^ e.toNat else rneShift m (-e).toNat
    if a then -(r : Int) else r
  | _ => 0

/-- The largest integer at most a finite value. -/
def floor : Num → Int
  | .fin a m e =>
    let v : Int := if a then -(m : Int) else m
    if 0 ≤ e then v * 2 ^ e.toNat else v / ((2 ^ (-e).toNat : Nat) : Int)
  | _ => 0

/-- The smallest exponent `k` with 2^k at least the positive finite value (R89, R124). -/
def ceilLog2 : Num → Int
  | .fin _ m e => if m = 0 then 0 else (if (2 : Nat) ^ Nat.log2 m = m then (Nat.log2 m : Int) else (Nat.log2 m : Int) + 1) + e
  | _ => 0

/-- The largest exponent `k` with 2^k at most the positive finite value (R256). -/
def floorLog2 : Num → Int
  | .fin _ m e => (Nat.log2 m : Int) + e
  | _ => 0

end Num

/-! FP32 operations on patterns, each rounding once with RNE (R225, R250). -/

/-- The value of an FP32 pattern. -/
def f32 (x : Nat) : Num := fp32.decode x
/-- Round to an FP32 pattern. -/
def rne32 (x : Num) : Nat := fp32.encode x
def fadd (x y : Nat) : Nat := rne32 ((f32 x).add (f32 y))
def fsub (x y : Nat) : Nat := rne32 ((f32 x).sub (f32 y))
def fmul (x y : Nat) : Nat := rne32 ((f32 x).mul (f32 y))
def fdiv (x y : Nat) : Nat := rne32 ((f32 x).div (f32 y))
def fsqrt (x : Nat) : Nat := rne32 (f32 x).sqrt
def ffma (x y z : Nat) : Nat := rne32 (((f32 x).mul (f32 y)).add (f32 z))
def fneg (x : Nat) : Nat := rne32 (f32 x).neg
def fabs (x : Nat) : Nat := rne32 (f32 x).abs
/-- The FP32 pattern of an integer, rounded with RNE. -/
def f32OfInt (x : Int) : Nat := rne32 (Num.ofInt x)
/-- An FP32 sum of a list of patterns, in list order from +0.0 with RNE (R89, R239). -/
def fsum (xs : List Nat) : Nat := xs.foldl fadd 0

/-- The lesser value (R182, R184): NaN if either is NaN, and −0 below +0. -/
def Num.min2 (x y : Num) : Num :=
  if x.isNaN || y.isNaN then .nan
  else if x.isZero && y.isZero then (if x.isNeg then x else y)
  else if x.lt y then x else y

/-- The greater value (R182, R184): NaN if either is NaN, and +0 above −0. -/
def Num.max2 (x y : Num) : Num :=
  if x.isNaN || y.isNaN then .nan
  else if x.isZero && y.isZero then (if x.isNeg then y else x)
  else if x.gt y then x else y

/-! The mixing function and the two stochastic roundings (R86, R125, R126, R229). -/

/-- R86: the mixing function on 32-bit words. -/
def mix (v : Nat) : Nat :=
  let h := v % 2 ^ 32
  let h := h ^^^ (h >>> 16)
  let h := h * 0x85EBCA6B % 2 ^ 32
  let h := h ^^^ (h >>> 13)
  let h := h * 0xC2B2AE35 % 2 ^ 32
  h ^^^ (h >>> 16)

/-- R126 and R229: the generator word of element `e` at commit step `c` under seed `z`, with the form's own constant. -/
def drawWord (k z c e : Nat) : Nat :=
  let h := mix (bits z 0 32 ^^^ k)
  let h := mix (h ^^^ bits c 0 32)
  let h := mix (h ^^^ bits c 32 32)
  let h := mix (h ^^^ bits e 0 32)
  mix (h ^^^ bits e 32 32)

/-- R126: the 24-bit numerator of u, so that u = `draw24` × 2^-24. -/
def draw24 (z c e : Nat) : Nat := drawWord 0x2F6B41C3 z c e >>> 8

/-- R125: stochastic rounding of an exact value with u = `u24` × 2^-24. -/
def stochRound (u24 : Nat) (x : Num) : Int :=
  let fl := x.floor
  let frac := x.sub (Num.ofInt fl)
  if (Num.fin false u24 (-24)).lt frac then fl + 1 else fl

/-- R229: round an FP32 pattern to BF16 by the low 16 bits against the draw's high 16 bits, on the bit pattern. -/
def stochBf16 (h32 w : Nat) : Nat :=
  let lo := bits w 0 16
  (bits w 16 16 + (if bits h32 16 16 < lo then 1 else 0)) % 2 ^ 16

/-- R246, R157: the value of an E8M0 block exponent. -/
def e8m0 (x : Nat) : Num := if x % 256 = 255 then .nan else .pow2 ((x % 256 : Nat) - (127 : Int))

end Sys2Proof.Machine
end

