-- ==== Sys2Proof/Machine/Job.lean ====
section
/-! DEFINITION. What several commands share about contexts, launches and jobs: abort tokens (R313), the end of a context by
a fault or by poison (R280, R369), held (R336), the partition reset (R334) and the failure of a partition (R37). -/
namespace Sys2Proof.Machine

/-! Jobs and abort tokens -/

/-- The partitions bound to a context (R279). -/
def State.boundParts (s : State) : List Nat := (List.range 8).filter (fun p => (s.ctx? p).isSome)

/-- R313: the job's current step, the highest step mark among its partitions (DEDUCED, log entry 10: the job's partitions
are the bound ones). -/
def State.jobStep (s : State) : Nat := s.boundParts.foldl (fun m p => max m (s.rd (.thx p) THX_SEQ_STEP_step)) 0

/-- Whether a port sends the job's control messages (R314): up and a job member. -/
def State.jobPort (s : State) (i : Nat) : Bool :=
  s.rd (.port i) FAB_PORT_STATE_link == 2 && s.on (.port i) FAB_PORT_CTL_job_member

/-- Put a control message in front of what a port has to send (R314). -/
def State.sendCtrlFirst (s : State) (i : Nat) (m : CtrlMsg) : State := s.modPort i (fun x => { x with ctrl := m :: x.ctrl })

/-- Put a control message behind what a port has to send. -/
def State.sendCtrl (s : State) (i : Nat) (m : CtrlMsg) : State := s.modPort i (fun x => { x with ctrl := x.ctrl ++ [m] })

/-- Send a token on every job port but one (R314). -/
def State.forwardToken (s : State) (t : Token) (except : Option Nat) : State :=
  s.each ((List.range 8).filter (fun i => s.jobPort i && except != some i)) (fun s i => s.sendCtrlFirst i (.abort t))

/-- R313: the token this module emits for a step: its own coordinate, no hops. -/
def State.ownToken (s : State) (step : Nat) : Token :=
  { job := BitVec.ofNat 16 (s.rd .fabG FAB_G_JOB_id), step := BitVec.ofNat 64 step,
    origin := BitVec.ofNat 18 (s.rd .fabG FAB_G_COORD_coord), hops := 0 }

/-- Whether a step's token is acted on or waits to be (R313, R314). -/
def State.tokenKnown (s : State) (step : Nat) : Bool :=
  s.fabric.acted.contains step || s.fabric.tokens.any (fun t => t.step.toNat == step)

/-- R313: emit a token for a step of the job: at most one for each step; it is acted on at the next tick edge. -/
def State.emitToken (s : State) (step : Nat) : State :=
  if s.on .fabG FAB_G_JOB_valid && !s.tokenKnown step then
    let t := s.ownToken step
    ((s.modFabric (fun f => { f with tokens := f.tokens ++ [t] })).forwardToken t none).raise .fabG FABG_INT_abort_sent
  else s

/-- R333: a partition whose context is bound to the job emits a token for the job's current step. -/
def State.emitFor (s : State) (p : Nat) : State := if (s.ctx? p).isSome then s.emitToken s.jobStep else s

/-! Sequencers -/

/-- A launch begun, with no status and with commands left or in flight. -/
def Launch.isOpen (l : Launch) : Bool := l.status.isNone && l.completed < l.count

/-- R268, R276: the launch whose commands are issuing. -/
def Seq.current (q : Seq) : Option Launch := q.launches.find? (fun l => l.status.isNone && l.issued < l.count)

/-- The last launch begun that has not ended. -/
def Seq.lastOpen (q : Seq) : Option Launch := (q.launches.filter Launch.isOpen).getLast?

/-- End the launch of one ring entry with a status (R272). -/
def Seq.endLaunch (q : Seq) (entry status : Nat) : Seq :=
  { q with launches := q.launches.map (fun l => if l.entry = entry ∧ l.isOpen then { l with status := some status } else l) }

/-- End every open launch with a status. -/
def Seq.endAll (q : Seq) (status : Nat) : Seq :=
  { q with launches := q.launches.map (fun l => if l.isOpen then { l with status := some status } else l) }

/-- Stop a sequencer from issuing (R280, R288): THX_SEQ_CTL.run then reads 0. -/
def State.stopSeq (s : State) (p : Nat) : State := s.wr (.thx p) THX_SEQ_CTL_run 0

/-- The partitions that a fault of `p` stops: its context's, or itself where it has none. -/
def State.withPeers (s : State) (p : Nat) : List Nat := if (s.ctx? p).isSome then s.peers p else [p]

/-- Whether an abort token waits for a step (R314): it acts at the next tick edge. -/
def State.tokenWaits (s : State) (step : Nat) : Bool := s.fabric.tokens.any (fun t => t.step.toNat == step)

/-- R280: a fault stops the partition's sequencer, records reason and command index, stops the context's other sequencers
and ends each partition's current launch with status 0x03. A launch whose step an abort token waits for in the same tick is left to the abort
(R288). -/
def State.seqFault (s : State) (p reason index : Nat) : State :=
  let t := (s.wr (.thx p) THX_SEQ_FAULT_reason reason).wr (.thx p) THX_SEQ_FAULT_command index
  t.each (t.withPeers p) (fun t q =>
    (t.stopSeq q).modSeq q (fun x => match x.lastOpen with
      | some l => if t.tokenWaits l.step then x else x.endLaunch l.entry 3
      | none => x))

/-- R369, R280: poison terminates the context bound to the partition: its sequencers stop in state 11, its launches end with
status 0x04, the point is recorded and the partition emits a token. Without a bound context, or once it is
terminated, nothing happens (R381). -/
def State.terminate (s : State) (p point : Nat) : State :=
  if (s.ctx? p).isSome && s.rd (.thx p) THX_SEQ_STATUS_state != 3 then
    let t := (((s.bump (.saf p) 0).bump (.saf p) 1).wr (.saf p) THX_POISON_STATUS_point point).wr (.saf p)
      THX_POISON_STATUS_terminated 1
    let t := t.each (t.peers p) (fun t q =>
      ((t.stopSeq q).wr (.thx q) THX_SEQ_STATUS_state 3).modSeq q (fun x => x.endAll 4))
    (t.emitFor p).raise (.saf p) SAF_INT_poison_consumed
  else s

/-! The hitch state (R336) -/

def hchIdle : Nat := 0
def hchOpen : Nat := 1
def hchExchanged : Nat := 2
def hchReady : Nat := 3
def hchCommitted : Nat := 4
def hchHeld : Nat := 5
def hchResuming : Nat := 6

/-- The hitch state of a partition. -/
def State.hch (s : State) (p : Nat) : Nat := s.rd (.hch p) HCH_STATE_state

/-- R237: a partition raises its local non-finite flag. -/
def State.raiseNf (s : State) (p : Nat) : State := s.modHitch p (fun h => { h with localNf := true })

/-- Enter a hitch state. -/
def State.setHch (s : State) (p st : Nat) : State := s.wr (.hch p) HCH_STATE_state st

/-- R336, R361: the state becomes held. -/
def State.hold (s : State) (p : Nat) : State := (s.setHch p hchHeld).raise (.hch p) HCH_INT_held

/-! Partition reset (R331, R334) and failure (R37) -/

/-- R23, R29, R334, R377, R484, R492: what a partition reset keeps of a partition's pages: ERRCNT and ERR_SUMMARY; the
partition page; HCH_COMMIT, HCH_OPEN, HCH_RECOVER, HCH_CKPT_STEP and HCH_RESET_CAUSE; the roles and maps of clusters and
wings; the channels' states; the banks' restore sweep; what was measured. -/
def keptInReset (pg : Page) (off : Nat) : Bool :=
  (0x40 ≤ off && off < 0x100) || off == 0x2C ||
  match pg with
  | .part _ => true
  | .hch _ => (0x110 ≤ off && off < 0x124) || (0x148 ≤ off && off < 0x150) || off == 0x158
  | .thx _ => 0x100 ≤ off && off < 0x114
  | .cluster _ _ => off == 0x100
  | .chan _ _ => off == 0x100 || off == 0x104
  | .wing _ _ => off == 0x100 || off == 0x104 || off == 0x108 || off == 0x110 || off == 0x120
  | .bank _ _ _ => true
  | .cal _ => 0x200 ≤ off
  | .lad _ => off == 0x140
  | _ => false

/-- The work of a wing that a reset of its periphery discards (R332): operations, open column groups and output queue. -/
def Wing.cleared (w : Wing) : Wing := { w with segs := [], waiting := [], running := [], tiles := [], openGroups := [], outQ := [], doneGroups := [] }

/-- R69: whether issue is held because a whole group has no room in the output queue. -/
def Wing.outFull (x : Wing) : Bool := decide (65536 < x.outQ.length + 11)

/-- Bring a wing's status words into step with its operations, groups and output queue (R79). -/
def State.syncWing (s : State) (p w : Nat) : State :=
  let x := s.wing p w
  s.wrAll (.wing p w)
    [(WNG_TOKENS_in_flight, x.running.length), (WNG_OUTQ_full, flag x.outFull), (WNG_OUTQ_occupancy, x.outQ.length),
     (WNG_CG_OPEN_open, x.openGroups.length)]

/-- Clear a wing's periphery (R332). -/
def State.clearWing (s : State) (p w : Nat) : State := (s.modWing p w Wing.cleared).syncWing p w

/-- What a partition reset leaves of a seating or load (R137, R146): a scale that poison left held stays held, and a load starts again. -/
def Seat.afterReset (t : Seat) : Option Seat :=
  if t.stuck then some t else if t.kind == .commit then none else some { t with rows := List.range 1024 }

/-- R36: the last spare of a parent was taken in this tick by an instance of a higher number than `inst`: that spare. -/
def State.outranked? (s : State) (p parent inst : Nat) : Option Nat :=
  match mapFind (s.part p).claims parent with
  | some (t, i, spare) => if t = s.now ∧ inst < i then some spare else none
  | none => none

/-- R36: an instance takes a spare of its parent in this tick. -/
def State.claim (s : State) (p parent inst spare : Nat) : State :=
  s.modPart p (fun x => { x with claims := mapIns x.claims parent (s.now, inst, spare) })

/-- R400: a partition reset ends running calibrations; each wing that was calibrating or held a trigger keeps its trigger and
starts anew when the reset is done. -/
def WingCal.interrupted (c : WingCal) : WingCal :=
  { WingCal.reset with again := c.again || c.running || !c.held.isEmpty
                       trig := if c.running || c.again then c.trig else c.held.headD c.trig }

/-- R466: the slots bound to sources of a partition become interrupted. -/
def State.interruptSlots (s : State) (hit : Nat → Nat → Bool) : State :=
  s.each (List.range 64) (fun s n =>
    if s.rd .pmc (PMC_SLOT_STATUS_state n) == 1 &&
        hit (s.rd .pmc (PMC_SLOT_CFG_type n)) (s.rd .pmc (PMC_SLOT_CFG_instance n)) then
      s.wr .pmc (PMC_SLOT_STATUS_interrupted n) 1
    else s)

/-- The same for the sources of a partition. -/
def State.interruptPart (s : State) (p : Nat) (hit : Nat → Nat → Bool) : State :=
  s.each (List.range 64) (fun s n =>
    if s.rd .pmc (PMC_SLOT_STATUS_state n) == 1 && s.rd .pmc (PMC_SLOT_CFG_partition n) == p &&
        hit (s.rd .pmc (PMC_SLOT_CFG_type n)) (s.rd .pmc (PMC_SLOT_CFG_instance n)) then
      s.wr .pmc (PMC_SLOT_STATUS_interrupted n) 1
    else s)

/-- Whether a source type names a partition (R464). -/
def partSource (ty : Nat) : Bool := ty ≤ 4 || ty == 7

/-- The partition a block belongs to, none for a shared block (R21). -/
def blockPart? : Block → Option Nat
  | .cluster p _ | .update p | .rotation p | .wing p _ | .sequencer p | .tileMover p _ | .channel p _ => some p.val
  | .port _ | .hostDma => none

/-- Discard a partition's work: launches, commands, threads, products, seats, queues and its collectives. A cluster whose retirement is
abandoned serves on (R174). -/
def State.discardWork (s : State) (p : Nat) : State :=
  let s := s.each ((s.part p).retiring.map Retirement.logical) (fun s lc => s.wr (.cluster p (s.physCluster p lc)) THX_STATE_state 2)
  let s := s.each (List.range 26) (fun s c => s.setCluster p c Cluster.reset)
  let s := s.each (List.range 9) (fun s w => (s.clearWing p w).modCal p w WingCal.interrupted)
  let s := s.modPart p (fun x =>
    { Part.reset with heldParts := x.heldParts, boundaries := x.boundaries, seated := x.seated, claims := x.claims, actions := x.actions
                      seats := x.seats.filterMap Seat.afterReset, nextSeat := x.nextSeat })
  let s := { s with held64 := s.held64.filter (fun e =>
      match pageOfKey e.1 with | some pg => pg.partition? != some p | none => true) }
  let s := { s with engineResets := s.engineResets.filter (fun b => blockPart? b != some p) }
  s.modFabric (fun f => { f with colls := f.colls.filter (fun c => c.part != p),
                                 remotes := f.remotes.filter (fun r => r.part != p) })

/-- R387, R400: what a partition reset ends in a scale: a takeover and its measurements; applied trims stay and targets are discarded. -/
def Scale.endCal (x : Scale) : Scale :=
  let stay := fun (l : List (Nat × Trim)) => l.map (fun e => (e.1, (⟨e.2.applied, e.2.applied⟩ : Trim)))
  { x with colmap := x.colmap.map (fun e => if e.1 = 2 then (0, 0) else e)
           ladder := ⟨x.ladder.applied, x.ladder.applied⟩, pulse := ⟨x.pulse.applied, x.pulse.applied⟩
           gains := stay x.gains, offsets := stay x.offsets, calNext := 0, attempts := [], calDirect := none }

/-- The same for every scale and every wing reference of a partition. -/
def State.endTrims (s : State) (p : Nat) : State :=
  let s := (s.scales.filter (fun e => e.1 / 152064 == p)).foldl (fun s e =>
    { s with scales := mapSet (Scale.reset (e.1 % 528)) s.scales e.1 e.2.endCal }) s
  s.each (List.range 9) (fun s w =>
    (s.modWing p w (fun x => { x with refTarget := x.refApplied })).wrAll (.cal p) [(CAL_W_STATE_phase w, 0), (CAL_W_COLUMN_column w, 0)])

/-- R84: a row read that was pending as its partition went into reset has been refused. -/
def State.refuseReads (s : State) (p : Nat) (ws : List Nat) : State :=
  s.each ws (fun s w => s.wrAll (.scl p w) [(SCL_ROW_CTL_done, 1), (SCL_ROW_CTL_refused, 1)])

/-- The wings of a partition with a pending row read. -/
def State.readsPending (s : State) (p : Nat) : List Nat := (List.range 9).filter (fun w => s.on (.scl p w) SCL_ROW_CTL_go)

/-- R334: the partition's logic returns to its reset state but for what `keptInReset` names; HCH_RECOVER.was_reset is set and
the hitch is held. A storm has ended, so that the grant returns (R419). -/
def State.resetLogic (s : State) (p : Nat) : State :=
  let reads := s.readsPending p
  let s := (s.discardWork p).endTrims p
  let s := (s.dropRegs (fun pg off => pg.partition? == some p && !keptInReset pg off)).refuseReads p reads
  ((s.wr (.hch p) HCH_RECOVER_was_reset 1).hold p).applyGrant p

/-- R331, R334: a partition reset begins, with its kind for HCH_RESET_CAUSE (2 escalation, 3 fault or trip, 4 software). A
failed partition is out of service and takes none (R37); one that is being reset goes on (R24). -/
def State.beginPartReset (s : State) (p kind : Nat) : State :=
  if s.rd (.part p) MGT_PT_STATE_state == 3 || s.resetting.contains p then s
  else
    let s := s.emitFor p
    let s := s.resetLogic p
    let s := { s with resetting := setIns s.resetting p }
    let s := s.interruptPart p (fun ty _ => partSource ty)
    let s := s.wr (.hch p) HCH_RESET_CAUSE_kind kind
    let s := if kind = 2 then s else s.wrAll (.hch p) [(HCH_RESET_CAUSE_block, 0), (HCH_RESET_CAUSE_instance, 0)]
    let s := (s.wr (.part p) MGT_PT_STATE_state 1).wr .pwr (PWR_P_STATE_state p) 1
    s.bump (.part p) 0

/-- R37, R492: a partition fails: it is reported and taken out of service, and its job learns it by a token (R313). What held it or waited for
it no longer does. -/
def State.failPart (s : State) (p cause : Nat) : State :=
  if s.rd (.part p) MGT_PT_STATE_state == 3 then s
  else
    let s := s.emitFor p
    let s := s.resetLogic p
    let s := ({ s with resetting := setDel s.resetting p } : State).modPart p (fun x => { x with heldParts := [], actions := [] })
    let s := s.interruptPart p (fun ty _ => partSource ty)
    let s := s.wrAll (.part p) [(MGT_PT_STATE_state, 3), (MGT_PT_STATE_cause, cause), (MGT_PT_FAIL_TICK_tick, s.now)]
    let s := s.wr .pwr (PWR_P_STATE_state p) 3
    (s.bump (.part p) 1).raise (.part p) PT_INT_failed

/-- Whether a partition runs: it is started, not in reset and not failed (R492). -/
def State.running (s : State) (p : Nat) : Bool := s.rd (.part p) MGT_PT_STATE_state == 2

end Sys2Proof.Machine
end

