-- ==== Sys2Proof/Machine/Issue.lean ====
section
/-! DEFINITION. Issue and completion of sequencer commands (R265–R269), tagged-command records (R470, R471). -/
namespace Sys2Proof.Machine

/-! Fences (R269) -/

/-- A fence of a partition. -/
def State.fence (s : State) (p n : Nat) : Nat := (mapGet 0 (s.part p).seq.fences n).toNat

/-- A completion increments a fence by 1. -/
def State.incFence (s : State) (p n : Nat) : State :=
  s.modSeq p (fun q => { q with fences := mapSet 0 q.fences n (mapGet 0 q.fences n + 1) })

/-- R268: whether the command's wait has ended: no wait, or its fence has reached wait_value + ℓ × wait_step. -/
def State.waitOver (s : State) (p : Nat) (c : Cmd) (l : Launch) : Bool :=
  !c.waitEn || decide (c.waitValue.toNat + l.ordinal * c.waitStep.toNat ≤ s.fence p c.waitFence.val)

/-! Commands in memory (R265) -/

/-- The fields of a 64-byte command beside its opcode (R265). -/
def readCmd (l : List Byte) : Cmd :=
  let w := leAt l 0 8
  { waitEn := bit w 8, waitFence := Fin.ofNat 64 (bits w 9 6), sigEn := bit w 15, sigFence := Fin.ofNat 64 (bits w 16 6)
    sigPart := Fin.ofNat 8 (bits w 22 3), deferred := bit w 25, waitStep := BitVec.ofNat 16 (bits w 32 16)
    waitValue := BitVec.ofNat 64 (leAt l 8 8), strideLin := BitVec.ofNat 32 (leAt l 0x10 4)
    stridePar := BitVec.ofNat 32 (leAt l 0x14 4)
    a := BitVec.ofNat 64 (leAt l 0x20 8), b := BitVec.ofNat 64 (leAt l 0x28 8)
    c := BitVec.ofNat 64 (leAt l 0x30 8), d := BitVec.ofNat 64 (leAt l 0x38 8) }

/-- The opcode of a 64-byte command (R265). -/
def readOp (l : List Byte) : Nat := leAt l 0 1

/-! Issue (R268) -/

/-- R266, R268: the launch in which the partition's next command issues now: the sequencer runs, fewer than 256 commands are
in flight, and the command's wait has ended. None: the command waits and is to be given again (log entry 11). -/
def State.issueLaunch (s : State) (p : Nat) (c : Cmd) : Option Launch :=
  if s.on (.thx p) THX_SEQ_CTL_run && !s.stopped (isSequencer p) && (s.part p).seq.inflight.length < 256 then
    match (s.part p).seq.current with
    | some l => if s.waitOver p c l then some l else none
    | none => none
  else none

/-- R470: whether tagging selects command number `n`. -/
def State.tagSelects (s : State) (p n : Nat) : Bool :=
  let k := max 4 (min 24 (s.rd .pmc PMC_TAG_CTL_log2))
  bit (s.rd .pmc PMC_TAG_CTL_part) p && mix (n ^^^ s.rd .pmc PMC_TAG_SEED) % 2 ^ k == 0

/-- R470: whether a selected command is tagged: no other of the partition is in flight and the record buffer has room. -/
def State.tagRoom (s : State) (p : Nat) : Bool :=
  (s.part p).seq.inflight.all (fun x => x.tag.isNone) && s.records.length < 256

/-- The stamps of a command tagged at issue (R471): NOP and STEP_MARK take the issue stamp as their start. -/
def newTag (op now : Nat) : Tag :=
  { fetched := now, issued := now, started := if op ≤ 1 then now else 0, products := 0, groups := 0, requests := 0, ops := 0 }

/-- The command that issues now: under the partition's next command id, with its index in its launch, the fence it signals, what it still
has to see, and its first stamps where it is tagged. -/
def State.newCmd (s : State) (p op : Nat) (c : Cmd) (l : Launch) (w : Work) : Inflight :=
  { id := (s.part p).seq.nextId, launch := l.entry, index := l.issued, op := op
    sig := if c.sigEn then some (c.sigPart.val, c.sigFence.val) else none, work := w
    tag := if s.tagSelects p (s.part p).seq.issuedN && s.tagRoom p then some (newTag op s.nowNs) else none }

/-- Issue a command of a launch: it is in flight, and it counts in its launch. A command selected for tagging that finds no room is
counted (R470). -/
def State.issue (s : State) (p op : Nat) (c : Cmd) (l : Launch) (w : Work) : State :=
  let s := s.toCycle
  let x := s.newCmd p op c l w
  let s := if s.tagSelects p (s.part p).seq.issuedN && !s.tagRoom p then s.bump .pmc 1 else s
  s.modSeq p (fun q =>
    { q with
      nextId := q.nextId + 1
      issuedN := q.issuedN + 1
      launches := q.launches.map (fun k => if k.entry = l.entry then { k with issued := k.issued + 1 } else k)
      inflight := q.inflight ++ [x] })

/-- The id that the next issued command takes. -/
def State.nextId (s : State) (p : Nat) : Nat := (s.part p).seq.nextId

/-- Set what a command in flight still has to see. -/
def State.setWork (s : State) (p id : Nat) (w : Work) : State :=
  s.modSeq p (fun q => { q with inflight := q.inflight.map (fun x => if x.id = id then { x with work := w } else x) })

/-- A command in flight. -/
def State.cmd? (s : State) (p id : Nat) : Option Inflight := (s.part p).seq.inflight.find? (fun x => x.id == id)

/-- The step n of the launch a command belongs to. -/
def State.stepOf (s : State) (p : Nat) (x : Inflight) : Nat :=
  match (s.part p).seq.launches.find? (fun l => l.entry == x.launch) with
  | some l => l.step
  | none => s.rd (.thx p) THX_SEQ_STEP_step

/-! Tagged commands (R471) -/

/-- A tagged command's stamps change. -/
def State.modTag (s : State) (p id : Nat) (f : Tag → Tag) : State :=
  s.modSeq p (fun q =>
    { q with inflight := q.inflight.map (fun x => if x.id = id then { x with tag := x.tag.map f } else x) })

/-- The command's first operation starts (R471). -/
def State.tagStart (s : State) (p id : Nat) : State :=
  let s := s.toCycle
  s.modTag p id (fun t => if t.started = 0 then { t with started := s.nowNs } else t)

/-- R471: the sixteen words of a record. -/
def tagWords (p step ended stop : Nat) (x : Inflight) (t : Tag) : List Nat :=
  let q := [step, x.index % 2 ^ 24 + 2 ^ 24 * (x.op % 256) + 2 ^ 32 * p + 2 ^ 35 * stop, t.fetched, t.issued, t.started, ended,
    min t.products 0xFFFF_FFFF + 2 ^ 32 * min t.groups 0xFFFF_FFFF, min t.requests 0xFFFF_FFFF + 2 ^ 32 * min t.ops 0xFFFF_FFFF]
  q.flatMap (fun v => [bits v 0 32, bits v 32 32])

/-- R471: append the record of a tagged command that ends; at 256 records the buffer is full. -/
def State.tagEnd (s : State) (p stop : Nat) (x : Inflight) : State :=
  match x.tag with
  | none => s
  | some t =>
    if s.records.length < 256 then
      let s := s.toCycle
      let s := { s with records := s.records ++ [tagWords p (s.stepOf p x) s.nowNs stop x t] }
      let s := s.wr .pmc PMC_TAG_STATUS_count s.records.length
      if s.records.length = 256 then (s.wr .pmc PMC_TAG_STATUS_full 1).raise .pmc PMC_INT_tag_full else s
    else s

/-! Completion (R268) -/

/-- Whether every thread of a kernel has exited: no thread of the partition carries the command (R266). -/
def State.kernelDone (s : State) (p id : Nat) : Bool :=
  (List.range 26).all (fun c => (s.cluster p c).threads.all (fun t => t.2.cmd != id))

/-- Whether a command in flight has completed its work (R266). -/
def State.workDone (s : State) (p : Nat) (x : Inflight) : Bool :=
  match x.work with
  | .done => true
  | .threads => s.kernelDone p x.id
  | .product k => (s.part p).products.all (fun d => d.id != k)
  | .seats => (s.part p).seats.all (fun t => t.cmd != some x.id)
  | .pass => (s.part p).pass.isNone
  | _ => false

/-- Take a command out of flight, with the collective it runs and the entries it awaits. -/
def State.dropCmd (s : State) (p id : Nat) : State :=
  ((s.modFabric (fun f => { f with colls := f.colls.filter (fun c => c.part != p || c.cmd != id) })).modHitch p (fun h =>
    { h with awaiting := h.awaiting.filter (fun e => e.2.cmd != id) })).modSeq p (fun q =>
    { q with inflight := q.inflight.filter (fun x => x.id != id) })

/-- Whether the fence that a command signals lies outside its context. -/
def State.signalsOutside (s : State) (p : Nat) (x : Inflight) : Bool :=
  match x.sig with
  | none => false
  | some e => !(s.peers p).contains e.1

/-- R268, R269: a command that completes its work increments its signal fence; a fence of a partition outside the context is a fault of
reason 0x2, which ends the command's launch with it (R280). It counts in its launch and in PROGRESS (R289), and its record is appended
(R471). -/
def State.complete (s : State) (p : Nat) (x : Inflight) : State :=
  let s := if s.signalsOutside p x then s.seqFault p 2 x.index else s
  let s := s.dropCmd p x.id
  let s := s.modSeq p (fun q =>
    { q with launches := q.launches.map (fun l => if l.entry = x.launch then { l with completed := l.completed + 1 } else l) })
  let s := (s.tagEnd p 0 x).progress (.thx p)
  match x.sig with
  | none => s
  | some (q, n) => if (s.peers p).contains q then s.incFence q n else s

/-- R268: a command that is abandoned signals nothing; `stop` is its record's end, 1 aborted, 2 fault or termination. -/
def State.abandon (s : State) (p stop : Nat) (x : Inflight) : State := (s.tagEnd p stop x).dropCmd p x.id

/-- Abandon the commands in flight that the predicate names. -/
def State.abandonAll (s : State) (p stop : Nat) (which : Inflight → Bool) : State :=
  ((s.part p).seq.inflight.filter which).foldl (fun s x => s.abandon p stop x) s

/-- Issue a command that completes at issue. -/
def State.issueDone (s : State) (p op : Nat) (c : Cmd) (l : Launch) : State :=
  (s.issue p op c l .done).complete p (s.toCycle.newCmd p op c l .done)

/-- A fault of the command that would issue now: it is recorded with its index in its launch (R280). -/
def State.issueFault (s : State) (p : Nat) (l : Launch) (reason : Nat) : State := s.seqFault p reason l.issued

/-- R284: whether a feature is enabled. -/
def State.feature (s : State) (n : Nat) : Bool := bit (s.rd .mgt HDR_FEATURE_EN) n

/-- Begin a command: where it issues now, run its checks and its start; where it waits, leave the state. -/
def State.issueWith (s : State) (p : Nat) (c : Cmd) (f : Launch → State) : State :=
  match s.issueLaunch p c with
  | some l => f l
  | none => s

/-- R284: begin a command that needs a feature; without it, a fault of reason 0x3. -/
def State.issueNeeding (s : State) (p : Nat) (c : Cmd) (feat : Nat) (f : Launch → State) : State :=
  s.issueWith p c (fun l => if s.feature feat then f l else s.issueFault p l 3)

end Sys2Proof.Machine
end

