-- ==== Sys2Proof/Machine/Operands.lean ====
section
/-! DEFINITION. Operand forms: address operands and their modes (R267), remote operands (R302), launch and ring entries
(R272, R281), the column group table (R270) and routes (R302). -/
namespace Sys2Proof.Machine

/-! Address operands (R267) -/

/-- R267: the address an operand gives at step n, none for the reserved mode 11. -/
def cmdAddress (c : Cmd) (n : Nat) (v : W64) : Option Nat :=
  let base := v.toNat - bits v.toNat 61 2 * 2 ^ 61
  match bits v.toNat 61 2 with
  | 0 => some base
  | 1 => some ((base + n * c.strideLin.toNat) % 2 ^ 64)
  | 2 => some ((base + n % 2 * c.stridePar.toNat) % 2 ^ 64)
  | _ => none

/-- R302: bit 60 of an operand makes it remote. -/
def isRemote (a : Nat) : Bool := bit a 60

/-- R302: the target coordinate and the device address of a remote operand; bits 63 and 59 must be 0. -/
def remoteTarget (a : Nat) : Option (Nat × Nat) :=
  if bit a 63 || bit a 59 then none else some (bits a 41 18, bits a 0 41)

/-! Coordinates and routes (R292, R293, R302) -/

/-- A coordinate's component on an axis 0–3 (R292). -/
def axisOf (coord axis : Nat) : Nat :=
  match axis with
  | 0 => bits coord 0 4
  | 1 => bits coord 4 4
  | 2 => bits coord 8 5
  | _ => bits coord 13 5

/-- The system's size on an axis (R292). -/
def State.sysSize (s : State) (axis : Nat) : Nat :=
  match axis with
  | 0 => s.rd .fabG FAB_G_SYS_a
  | 1 => s.rd .fabG FAB_G_SYS_b
  | 2 => s.rd .fabG FAB_G_SYS_c
  | _ => s.rd .fabG FAB_G_SYS_d

/-- The job's size on an axis (R305). -/
def State.jobSize (s : State) (axis : Nat) : Nat :=
  match axis with
  | 0 => s.rd .fabG FAB_G_JOB_DIM_a
  | 1 => s.rd .fabG FAB_G_JOB_DIM_b
  | 2 => s.rd .fabG FAB_G_JOB_DIM_c
  | _ => s.rd .fabG FAB_G_JOB_DIM_d

/-- The axis of a cut 0 tensor, 1 sequence, 2 pipeline, 3 data (R309). -/
def State.cutAxis (s : State) (cut : Nat) : Nat :=
  match cut with
  | 0 => s.rd .fabG FAB_G_CUT_tensor
  | 1 => s.rd .fabG FAB_G_CUT_sequence
  | 2 => s.rd .fabG FAB_G_CUT_pipeline
  | _ => s.rd .fabG FAB_G_CUT_data

/-- R302: the axis, the direction (true is +) and whether the hop crosses the wrap link, of the first hop from this module to
a coordinate: dimension order, the shorter way, + on a tie. None where the coordinate is this module's. -/
def State.firstHop (s : State) (coord : Nat) : Option (Nat × Bool × Bool) :=
  (List.range 4).findSome? (fun x =>
    let n := s.sysSize x
    let here := axisOf (s.rd .fabG FAB_G_COORD_coord) x
    let d := (axisOf coord x + n - here % n) % n
    if d = 0 then none
    else if 2 * d ≤ n then some (x, true, here + 1 == n)
    else some (x, false, here == 0))

/-- The port of a hop (R293). -/
def hopPort (h : Nat × Bool × Bool) : Nat := 2 * h.1 + (if h.2.1 then 0 else 1)

/-- Cut bytes into 32-byte granules, the last filled with zeros. -/
def granulesOf (l : List Byte) : List (List Byte) :=
  (List.range ((l.length + 31) / 32)).map (fun i => slice l (32 * i) 32)

/-! Rings (R272, R290) -/

/-- log2 of a ring's entries: values below 4 act as 4, above 16 as 16 (R290). -/
def State.ringLog (s : State) (p r : Nat) : Nat := max 4 (min 16 (s.rd (.thx p) (THX_SEQ_RING_CFG_log2_size r)))

/-- The address of ring entry `i` (R272). -/
def State.ringEntry (s : State) (p r i : Nat) : Nat :=
  s.rd (.thx p) (THX_SEQ_RING_BASE_base r) * 4096 + i % 2 ^ s.ringLog p r * 64

/-- Whether a ring lies in host memory (R274). -/
def State.ringHost (s : State) (p r : Nat) : Bool := s.on (.thx p) (THX_SEQ_RING_CFG_host r)

/-- The addresses of a ring's index words (R290). -/
def State.prodAddr (s : State) (p r : Nat) : Nat := s.rd (.thx p) (THX_SEQ_RING_PROD_addr r) * 8
def State.consAddr (s : State) (p r : Nat) : Nat := s.rd (.thx p) (THX_SEQ_RING_CONS_addr r) * 8

/-- A ring's indices. -/
def State.ring (s : State) (p r : Nat) : Ring := mapGet Ring.reset (s.part p).seq.rings r

/-- Change a ring's indices. -/
def State.setRing (s : State) (p r : Nat) (x : Ring) : State :=
  s.modSeq p (fun q => { q with rings := mapSet Ring.reset q.rings r x })

/-- Whether the PCIe link is up: trained (HIF_LINK, R493), and PERST_N is high (R503). -/
def State.linkUp (s : State) : Bool := s.rd .hif HIF_LINK_speed != 0 && !s.perstLow

/-- R503: whether traffic to a ring waits: the ring lies in host memory and the link is down. -/
def State.ringWaits (s : State) (p r : Nat) : Bool := s.ringHost p r && !s.linkUp

/-- R165, R436, R437: whether the sequencer may access a range as part of a ring: in memory of the context, the egress region included. -/
def State.ringReach (s : State) (p a n : Nat) : Bool := rangeIn (if (s.ctx? p).isSome then s.peers p else [p]) a n

/-- R165: work that accesses ranges of a ring's space: in device memory they must lie where the sequencer may reach them. -/
def State.guardRing (s : State) (p r : Nat) (rs : List (Nat × Nat)) (t : State) : State :=
  if s.ringHost p r || rs.all (fun x => s.ringReach p x.1 x.2) then t else s.bump (.thx p) 4

/-- Whether a read in a ring's space meets poison: host memory holds none (R367). -/
def State.ringPoisoned (s : State) (p r a n : Nat) : Bool := !s.ringHost p r && s.poisonedIn a n

/-- Read a 64-byte entry. -/
def State.readEntry (s : State) (p r i : Nat) : List Byte := s.spaceBytes (s.ringHost p r) (s.ringEntry p r i) 64

/-- R276: advance the consumer word of a ring to an index. -/
def State.writeCons (s : State) (p r v : Nat) : State :=
  s.guardRing p r [(s.consAddr p r, 8)] (s.putSpace (s.ringHost p r) (s.consAddr p r) (leBytes 8 v))

/-- Advance the producer word of a ring to an index. -/
def State.writeProd (s : State) (p r v : Nat) : State :=
  s.guardRing p r [(s.prodAddr p r, 8)] (s.putSpace (s.ringHost p r) (s.prodAddr p r) (leBytes 8 v))

/-- Write bytes of a ring entry. -/
def State.writeEntry (s : State) (p r i off : Nat) (l : List Byte) : State :=
  s.guardRing p r [(s.ringEntry p r i + off, l.length)] (s.putSpace (s.ringHost p r) (s.ringEntry p r i + off) l)

/-- Whether a ring's entry may be read (R165). -/
def State.entryReadable (s : State) (p r i : Nat) : Bool := s.ringHost p r || s.ringReach p (s.ringEntry p r i) 64

/-! The column group table (R270) -/

/-- Read the scale words of a group. -/
def readScales (w : Nat → Nat) (at_ : Nat) : Nat → List GScale
  | 0 => []
  | k + 1 =>
    let v := w at_
    { wing := bits v 0 3, bank := bits v 3 5, scale := bits v 8 9, rows := bits v 32 16 } :: readScales w (at_ + 1) k

/-- Read groups until the one whose header says that none remains; `fuel` bounds the words of 16 MiB. None where the table
overruns. -/
def readGroups (w : Nat → Nat) : Nat → Nat → Option (List Group × Nat)
  | 0, _ => none
  | fuel + 1, at_ =>
    let h := w at_
    let n := bits h 0 9
    let g : Group := { scales := readScales w (at_ + 1) n, col := bits h 16 16 }
    if at_ + 1 + n > 0x20_0000 then none
    else if bits h 32 32 = 0 then some ([g], at_ + 1 + n)
    else (readGroups w fuel (at_ + 1 + n)).map (fun x => (g :: x.1, x.2))

end Sys2Proof.Machine
end

