-- ==== Sys2Proof/Machine/Sequencer.lean ====
section
/-! DEFINITION. The partition sequencer: NOP, STEP_MARK, KERNEL, MOVE, completions, launches, rings and the sequencer
registers that have a row of their own (R265–R291). -/
namespace Sys2Proof.Machine

/-! Plain commands -/

/-- NOP (R266): it completes at issue. -/
def execNop (p : PartId) (c : Cmd) (s : State) : Host.Outcome State Fault Refusal :=
  .next (s.issueWith p.val c (fun l => s.issueDone p.val 0x00 c l))

/-- STEP_MARK (R266): it takes n from its launch into THX_SEQ_STEP and waits for the step boundary. -/
def execStepMark (p : PartId) (c : Cmd) (s : State) : Host.Outcome State Fault Refusal :=
  .next (s.issueWith p.val c (fun l =>
    (s.issue p.val 0x01 c l .boundary).wr (.thx p.val) THX_SEQ_STEP_step l.step))

/-! KERNEL (R277) -/

/-- The lowest-numbered free threads of a cluster (R277). -/
def Cluster.freeThreads (x : Cluster) : List Nat := (List.range 96).filter (fun t => (mapFind x.threads t).isNone)

/-- A kernel's thread as it begins: a0 argument block, a1 logical cluster, a2 rank (R277). -/
def newThread (cmd pc arg lc rank : Nat) (deferred : Bool) : Thread :=
  { cmd := cmd, pc := pc, c := [], st := .ready, deferred := deferred
    a := ([(0, BitVec.ofNat 64 arg), (1, BitVec.ofNat 64 lc), (2, BitVec.ofNat 64 rank)] : List (Nat × W64)).foldl
      (fun m e => mapSet 0 m e.1 e.2) [] }

/-- Place `n` threads on a logical cluster's lowest free threads. -/
def State.placeThreads (s : State) (p cmd pc arg lc n : Nat) (deferred : Bool) : State :=
  s.modCluster p (s.physCluster p lc) (fun x =>
    let place := fun m (e : Nat × Nat) => mapIns m e.1 (newThread cmd pc arg lc e.2 deferred)
    { x with threads := (x.freeThreads.take n).zipIdx.foldl place x.threads })

/-- Whether a logical cluster takes no new work: its retirement is under way (R172). -/
def State.clusterHeld (s : State) (p lc : Nat) : Bool := (s.part p).retiring.any (fun r => r.logical == lc)

/-- Whether a logical cluster issues nothing: it is being retired, or an engine reset of its cluster is under way (R172, R331). -/
def State.clusterIdle (s : State) (p lc : Nat) : Bool := s.clusterHeld p lc || s.stopped (isCluster p (s.physCluster p lc))

/-- R277: whether every named cluster has enough free threads. -/
def State.kernelFits (s : State) (p mask n : Nat) : Bool :=
  (List.range 24).all (fun lc => !bit mask lc ||
    (!s.clusterIdle p lc && decide (n ≤ (s.cluster p (s.physCluster p lc)).freeThreads.length)))

/-- The address operand, refused where its mode is 11 or its range lies outside the context (R26, R267). -/
def State.operandAt (s : State) (p : Nat) (c : Cmd) (n : Nat) (v : W64) (len : Nat) : Option Nat :=
  match cmdAddress c n v with
  | some a => if s.reach p a len then some a else none
  | none => none

/-- Whether an operand gives a device address of this module: it has no reserved mode, and it is not remote (R267, R302). -/
def localOperand (c : Cmd) (n : Nat) (v : W64) : Bool :=
  match cmdAddress c n v with
  | some a => !isRemote a
  | none => false

/-- An access of a command that the context may not make: a fault of reason 0x2, and a refused access (R165, R176) unless one of the operands
`vs` gives no device address at all. -/
def State.operandFault (s : State) (p : Nat) (c : Cmd) (l : Launch) (vs : List W64) : State :=
  (if vs.all (localOperand c l.step) then s.bump (.thx p) 4 else s).issueFault p l 2

/-- KERNEL (R277): it waits for free threads on every named cluster, then places and starts the kernel's threads. Deferred
threads need FEATURE_EN bit 11 (R285). A remote operand is a fault of reason 0x2 (R302). -/
def execKernel (p : PartId) (c : Cmd) (s : State) : Host.Outcome State Fault Refusal :=
  .next (s.issueWith p.val c (fun l =>
    let mask := bits c.c.toNat 0 24
    let n := bits c.c.toNat 24 7
    if c.deferred && !s.feature 11 then s.issueFault p.val l 3
    else match s.operandAt p.val c l.step c.a 16, cmdAddress c l.step c.b with
      | some pc, some arg =>
        if isRemote arg then s.operandFault p.val c l [c.b]
        else if s.kernelFits p.val mask n then
          let id := s.nextId p.val
          let t := s.issue p.val 0x02 c l .threads
          let t := t.each ((List.range 24).filter (bit mask)) (fun t lc => t.placeThreads p.val id pc arg lc n c.deferred)
          t.tagStart p.val id
        else s
      | _, _ => s.operandFault p.val c l [c.a, c.b]))

/-! MOVE (R266, R302) -/

/-- This module's coordinate (R292). -/
def State.here (s : State) : Nat := s.rd .fabG FAB_G_COORD_coord

/-- The virtual channel of a hop (R302): VC2 where it crosses the wrap link of its axis, or the granule came along that axis on VC2. -/
def hopVc (h : Nat × Bool × Bool) (origin : Option (Nat × Nat)) : Fin 4 :=
  if h.2.2 then 2
  else match origin with
    | some (i, v) => if i / 2 = h.1 ∧ v = 2 then 2 else 1
    | none => 1

/-- Queue granules on a port. -/
def State.queueTx (s : State) (i : Nat) (l : List TxGranule) : State := s.modPort i (fun x => { x with txQ := x.txQ ++ l })

/-- Return the credit of a granule's place in a receive buffer (R301). -/
def State.returnCredit (s : State) (i v : Nat) : State :=
  s.modPort i (fun x => { x with giveBack := x.giveBack.set v (x.giveBack.getD v 0 + 1) })

/-- The same for a granule that was being forwarded. -/
def State.returnOrigin (s : State) (g : TxGranule) : State :=
  match g.origin with
  | some (i, v) => s.returnCredit i v
  | none => s

/-- Send a granule on toward a coordinate (R302), none where the port of its hop is not up. -/
def State.routeGranule (s : State) (coord : Nat) (g : Slot) (origin : Option (Nat × Nat)) : Option State :=
  match s.firstHop coord with
  | some h =>
    if s.rd (.port (hopPort h)) FAB_PORT_STATE_link = 2 then
      some (s.queueTx (hopPort h) [⟨{ g with vc := hopVc h origin }, origin⟩])
    else none
  | none => none

/-- The granules of a remote write (R302). -/
def State.writeGranules (s : State) (r : Remote) (vc : Fin 4) (poison : List Bool) : List TxGranule :=
  (granulesOf r.data).zipIdx.map (fun g =>
    { slot := { vc := vc, data := g.1, poison := poison.getD g.2 false,
                cargo := .write (BitVec.ofNat 16 (s.rd .fabG FAB_G_JOB_id)) (BitVec.ofNat 18 s.here) (BitVec.ofNat 18 r.coord) r.id
                  (BitVec.ofNat 41 r.addr) r.data.length g.2 }
      origin := none })

/-- The command number of Cocoon's own remote writes: no sequencer command carries it. -/
def cocoonCmd : Nat := 2 ^ 64

/-- A remote write has ended. -/
def State.dropRemote (s : State) (id : Nat) : State :=
  s.modFabric (fun f => { f with remotes := f.remotes.filter (fun x => x.id != id) })

/-- A checkpoint whose record was refused never becomes verified (R355, DESIGN CHOICE, log entry 64). -/
def State.loseCheckpoint (s : State) (p : Nat) : State :=
  (s.modPart p (fun x => { x with ckpt := none, staged := [] })).wrAll (.hch p) [(HCH_CKPT_STATUS_pending, 0), (HCH_CKPT_STATUS_draining, 0)]

/-- R303, R337: a remote write is refused: its command ends as a fault of reason 0x2. -/
def State.refuseRemote (s : State) (r : Remote) : State :=
  let s := s.dropRemote r.id
  match s.cmd? r.part r.cmd with
  | some x => (s.abandon r.part 2 x).seqFault r.part 2 x.index
  | none => if r.cmd = cocoonCmd then s.loseCheckpoint r.part else s

/-- R519: a remote write ends on a broken route or by timeout, as on a refusal. -/
def State.endRemote (s : State) (r : Remote) : State := (s.bump .fabG 6).refuseRemote r

/-- The answer to a remote write of this module arrives (R303, R519). -/
def State.takeReply (s : State) (id : Nat) (x : RemoteResult) : State :=
  match s.fabric.remotes.find? (fun r => r.id == id) with
  | some r =>
    match x with
    | .accepted => s.dropRemote id
    | .refused => s.refuseRemote r
    | .broken => s.endRemote r
  | none => s

/-- Answer a remote write (R303, R519): the answer is routed to the sender. Where its own route is broken it is lost, and the sender's write
times out. -/
def State.sendReply (s : State) (to_ id : Nat) (x : RemoteResult) : State :=
  if to_ = s.here then s.takeReply id x
  else (s.routeGranule to_ { vc := 1, data := List.replicate 32 0, poison := false, cargo := .reply (BitVec.ofNat 18 to_) id x } none).getD s

/-- R303: whether this module accepts a remote write of a job: the job is its own, and the addressed partitions are bound, not in
reset, and hold the whole range. -/
def State.remoteOk (s : State) (job addr n : Nat) : Bool :=
  s.on .fabG FAB_G_JOB_valid && s.rd .fabG FAB_G_JOB_id == job &&
  rangeIn (s.boundParts.filter (fun p => !s.resetting.contains p)) addr n

/-- The granules of a remote write that arrive poisoned, by 32-byte piece (R297). -/
def arrivedPoison (addr n : Nat) (pieces : List Nat) : List Nat :=
  pieces.flatMap (fun i => granules (addr + 32 * i) (min 32 (n - 32 * i)))

/-- R155, R329: whole or partial 1 KiB lines transferred advance the PROGRESS word of their HBM4 channel. -/
def State.transferred (s : State) (a n : Nat) : State :=
  if n = 0 then s
  else s.each (List.range ((a + n - 1) / 1024 - a / 1024 + 1)) (fun s i =>
    let line := (a / 1024 + i) * 1024
    if line < 8 * hbmSize then s.progress (.chan (line / hbmSize) (channelOf line)) else s)

/-- R303: take a remote write, or write nothing and count the refusal. -/
def State.takeRemote (s : State) (job addr : Nat) (data : List Byte) (pieces : List Nat) : State :=
  if s.remoteOk job addr data.length then (s.store addr data (arrivedPoison addr data.length pieces)).transferred addr data.length
  else s.bump .fabG 2

/-- Send a remote write of a command that is in flight (R302, R519): its route's first port must be up. -/
def State.sendRemote (s : State) (p cmd coord addr : Nat) (data : List Byte) (poison : List Bool) : State :=
  let r : Remote := { id := s.fabric.nextRw, part := p, cmd := cmd, coord := coord, addr := addr, data := data, sent := none }
  let s := s.modFabric (fun f => { f with nextRw := f.nextRw + 1, remotes := f.remotes ++ [r] })
  match s.firstHop coord with
  | some h =>
    if s.rd (.port (hopPort h)) FAB_PORT_STATE_link = 2 then s.queueTx (hopPort h) (s.writeGranules r (hopVc h none) poison) else s.endRemote r
  | none =>
    let job := s.rd .fabG FAB_G_JOB_id
    let pieces := (poison.zipIdx.filter (fun e => e.1)).map (fun (e : Bool × Nat) => e.2)
    let t := s.takeRemote job addr data pieces
    if s.remoteOk job addr data.length then t.dropRemote r.id else t.refuseRemote r

/-- The poison of each 32-byte piece of a range (R297). -/
def State.poisonPieces (s : State) (a n : Nat) : List Bool :=
  (List.range ((n + 31) / 32)).map (fun i => s.poisonedIn (a + 32 * i) (min 32 (n - 32 * i)))

/-- MOVE (R266): a byte count that is a multiple of 64, to this module's memory, or by remote write to another module
(R302). A count of 0 moves nothing and completes at issue. -/
def execMove (p : PartId) (c : Cmd) (s : State) : Host.Outcome State Fault Refusal :=
  .next (s.issueWith p.val c (fun l =>
    let n := bits c.c.toNat 0 40
    match cmdAddress c l.step c.a, cmdAddress c l.step c.b with
    | some src, some dst =>
      if n % 64 ≠ 0 then s.issueFault p.val l 2
      else if isRemote src then s.issueFault p.val l 2
      else if isRemote dst then
        match remoteTarget dst with
        | none => s.issueFault p.val l 2
        | some (coord, addr) =>
          if !s.feature 4 then s.issueFault p.val l 3
          else if n = 0 then s.issueDone p.val 0x06 c l
          else if s.reach p.val src n then
            let id := s.nextId p.val
            let t := (s.issue p.val 0x06 c l .remote).tagStart p.val id
            (t.sendRemote p.val id coord addr (s.bytes src n) (s.poisonPieces src n)).transferred src n
          else s.operandFault p.val c l []
      else if n = 0 then s.issueDone p.val 0x06 c l
      else if s.reach p.val src n && s.reach p.val dst n then
        let id := s.nextId p.val
        ((((s.issue p.val 0x06 c l .done).tagStart p.val id).copy src dst n).transferred src n).transferred dst n
      else s.operandFault p.val c l []
    | _, _ => s.operandFault p.val c l [c.a, c.b]))

/-! Launches (R272–R276) -/

/-- The status byte that a launch is to get: that of its end, or 0x01 once every command has completed (R272). -/
def Launch.result (l : Launch) : Option Nat :=
  match l.status with
  | some v => some v
  | none => if l.count ≤ l.completed then some 1 else none

/-- LAUNCH_COMPLETE (R276): the launch at the consumer index, once completed or ended, gets its status byte, and then the
consumer word advances by one. -/
def execLaunchComplete (p : PartId) (s : State) : Host.Outcome State Fault Refusal :=
  .next (match (s.part p.val).seq.launches with
    | l :: rest =>
      match l.result with
      | some v =>
        let r := s.ring p.val 0
        if l.entry = r.cons ∧ !s.ringWaits p.val 0 then
          let t := s.writeEntry p.val 0 l.entry 0x38 (leBytes 1 v)
          let t := t.writeCons p.val 0 (r.cons + 1)
          (t.setRing p.val 0 { r with cons := r.cons + 1 }).modSeq p.val (fun q => { q with launches := rest })
        else s
      | none => s
    | [] => s)

/-- The command index that a fault outside a command records: the next one of the current launch, else 0. -/
def State.nextIndex (s : State) (p : Nat) : Nat :=
  match (s.part p).seq.current with
  | some l => l.issued
  | none => 0

/-- Whether a ring's index word that the sequencer polls is the consumer word: an output ring's (R273). -/
def State.isOutRing (s : State) (p r : Nat) : Bool := s.rd (.thx p) (THX_SEQ_RING_CFG_kind r) == 2

/-- RING_POLL (R273): the sequencer reads the producer word of an input or command ring, the consumer word of an output ring.
A producer index more than 2^k ahead of the consumer is a ring overrun, a fault of reason 0x6 (R275). A poisoned word
changes nothing (R369). -/
def execRingPoll (p : PartId) (r : Fin 4) (s : State) : Host.Outcome State Fault Refusal :=
  .next (
    if s.on (.thx p.val) (THX_SEQ_RING_CFG_enable r.val) && !s.ringWaits p.val r.val then
      let x := s.ring p.val r.val
      let host := s.ringHost p.val r.val
      if s.isOutRing p.val r.val then
        let a := s.consAddr p.val r.val
        if s.ringPoisoned p.val r.val a 8 then s
        else s.guardRing p.val r.val [(a, 8)] (s.setRing p.val r.val { x with cons := leNat (s.spaceBytes host a 8) })
      else
        let a := s.prodAddr p.val r.val
        let v := leNat (s.spaceBytes host a 8)
        if s.ringPoisoned p.val r.val a 8 then s
        else s.guardRing p.val r.val [(a, 8)]
          (if x.cons + 2 ^ s.ringLog p.val r.val < v then s.seqFault p.val 6 (s.nextIndex p.val)
           else s.setRing p.val r.val { x with prod := v })
    else s)

/-- Whether the command ring has an entry to fetch now (R276): it runs, and every command of the launch before has issued. -/
def State.mayFetch (s : State) (p : Nat) : Bool :=
  s.on (.thx p) THX_SEQ_CTL_run && s.on (.thx p) (THX_SEQ_RING_CFG_enable 0) && !s.ringWaits p 0 && (s.part p).seq.current.isNone &&
  decide ((s.ring p 0).fetched < (s.ring p 0).prod) && !s.ringPoisoned p 0 (s.ringEntry p 0 (s.ring p 0).fetched) 64

/-- Take a launch from the entry that the command ring is at. -/
def State.takeLaunch (s : State) (p ell : Nat) (l : Launch) : State :=
  let r := s.ring p 0
  (s.setRing p 0 { r with fetched := r.fetched + 1 }).modSeq p (fun q => { q with ell := ell, launches := q.launches ++ [l] })

/-- LAUNCH_ENTRY (R272): the next entry of the command ring begins a launch with the next ordinal ℓ. A reserved kind or a
count of 0 is a fault of reason 0x1, m of 0 one of reason 0x5, a stream outside the context one of reason 0x2: the entry then ends as the
partition's current launch, with status 0x03 (R280), and ℓ does not advance (DEDUCED, log entry 24). -/
def execLaunchEntry (p : PartId) (s : State) : Host.Outcome State Fault Refusal :=
  .next (
    if s.mayFetch p.val then
      let at_ := (s.ring p.val 0).fetched
      let e := s.readEntry p.val 0 at_
      let kind := leAt e 0 1
      let count := leAt e 0x10 3
      let stream := leAt e 0x08 8
      let ell := (s.part p.val).seq.ell
      let l : Launch := { ordinal := ell, entry := at_, stream := stream, count := count, step := leAt e 0x18 8
                          m := leAt e 0x20 2, issued := 0, completed := 0, status := none }
      let bad := { l with count := max 1 count }
      if !s.entryReadable p.val 0 at_ then s.bump (.thx p.val) 4
      else if kind = 0 then s
      else if kind ≠ 1 ∨ count = 0 then (s.takeLaunch p.val ell bad).seqFault p.val 1 0
      else if l.m = 0 then (s.takeLaunch p.val ell bad).seqFault p.val 5 0
      else if stream % 64 ≠ 0 then (s.takeLaunch p.val ell bad).seqFault p.val 2 0
      else if !s.reach p.val stream (64 * count) then
        ((s.bump (.thx p.val) 4).takeLaunch p.val ell bad).seqFault p.val 2 0
      else s.takeLaunch p.val (ell + 1) l
    else s)

/-- Consume the skip entry at the consumer index (R276). -/
def State.consumeSkip (s : State) (p : Nat) : State :=
  let r := s.ring p 0
  (s.writeCons p 0 (r.cons + 1)).setRing p 0 { r with cons := r.cons + 1 }

/-- Whether the entry at the consumer index has been passed over as a skip entry. -/
def State.skipDue (s : State) (p : Nat) : Bool :=
  decide ((s.ring p 0).cons < (s.ring p 0).fetched) && !s.ringWaits p 0 &&
  match (s.part p).seq.launches with
  | l :: _ => l.entry != (s.ring p 0).cons
  | [] => true

/-- SKIP_ENTRY (R276): a skip entry is passed over without a launch, and the consumer word advances past it
once every entry before it has been consumed. -/
def execSkipEntry (p : PartId) (s : State) : Host.Outcome State Fault Refusal :=
  .next (
    if s.skipDue p.val then s.consumeSkip p.val
    else if s.mayFetch p.val && s.entryReadable p.val 0 (s.ring p.val 0).fetched && leAt (s.readEntry p.val 0 (s.ring p.val 0).fetched) 0 1 == 0 then
      let r := s.ring p.val 0
      let t := s.setRing p.val 0 { r with fetched := r.fetched + 1 }
      if t.skipDue p.val then t.consumeSkip p.val else t
    else s)

/-! Sequencer registers with a row of their own -/

/-- R279, R280: whether a partition's sequencer is stopped: it does not run and has nothing in flight, or it was
terminated. -/
def State.seqStopped (s : State) (p : Nat) : Bool :=
  s.rd (.thx p) THX_SEQ_STATUS_state == 3 ||
  (!s.on (.thx p) THX_SEQ_CTL_run && (s.part p).seq.inflight.isEmpty)

/-- R449: whether confidential mode lets a partition bind a context: it lies in the context's grant. -/
def State.bindGranted (s : State) (p ctx : Nat) : Bool :=
  !s.on .sec SEC_MODE_confidential ||
  (s.on .sec (SEC_GRANT_valid ctx) && bit (s.rd .sec (SEC_GRANT_mask ctx)) p)

/-- R279: binding clears fences, ℓ, threads and ring enables, and a termination; tags number commands from 0 (R470). -/
def State.bindTo (s : State) (p : Nat) (valid : Bool) (ctx : Nat) : State :=
  let s := s.wrAll (.thx p) [(THX_SEQ_CTX_valid, flag valid), (THX_SEQ_CTX_ctx, ctx), (THX_SEQ_STATUS_state, 0)]
  let s := s.each (List.range 4) (fun s r => s.wr (.thx p) (THX_SEQ_RING_CFG_enable r) 0)
  let s := s.each (List.range 26) (fun s c => s.modCluster p c (fun x => { x with threads := [] }))
  let s := (((s.part p).seq.inflight).foldl (fun s x => s.abandon p 2 x) s).modSeq p (fun q =>
    { q with fences := [], ell := 0, issuedN := 0, launches := [], rings := [] })
  if valid then { s with bound := true } else s

/-- CONTEXT_BIND (R279, R449): a write to THX_SEQ_CTX is accepted while the sequencer is stopped and FEATURE_EN has been
written since reset, in confidential mode only within the context's grant; otherwise bind_refused is set. -/
def execContextBind (p : PartId) (valid : Bool) (ctx : Fin 8) (s : State) : Host.Outcome State Fault Refusal :=
  .next (
    if !s.running p.val then s
    else if s.seqStopped p.val && s.featWritten && (!valid || s.bindGranted p.val ctx.val) then
      s.bindTo p.val valid ctx.val
    else s.wr (.thx p.val) THX_SEQ_STATUS_bind_refused 1)

/-- A write to THX_SEQ_CTL.run (R289): 1 starts the sequencer unless it was terminated, 0 stops issue. -/
def State.writeRun (s : State) (p : Nat) (run : Bool) : State :=
  if run && s.rd (.thx p) THX_SEQ_STATUS_state == 3 then s else s.wr (.thx p) THX_SEQ_CTL_run (flag run)

/-- SEQUENCER_RUN (R289). -/
def execSequencerRun (p : PartId) (run : Bool) (s : State) : Host.Outcome State Fault Refusal :=
  .next (if s.running p.val then s.writeRun p.val run else s)

/-- R269, R289: fence_clear sets every fence and ℓ to 0 while the sequencer is stopped; otherwise it is discarded and bind_refused is set
(R288). A terminated sequencer counts as stopped for a binding alone (R280). -/
def State.clearFences (s : State) (p : Nat) : State :=
  if s.seqStopped p && s.rd (.thx p) THX_SEQ_STATUS_state != 3 then s.modSeq p (fun q => { q with fences := [], ell := 0 })
  else s.wr (.thx p) THX_SEQ_STATUS_bind_refused 1

/-- FENCE_CLEAR (R269). -/
def execFenceClear (p : PartId) (s : State) : Host.Outcome State Fault Refusal :=
  .next (if s.running p.val then s.clearFences p.val else s)

/-- R288: a command that waits on a ring which is disabled faults with reason 0x6. -/
def State.faultWaiting (s : State) (p r : Nat) : State :=
  ((s.part p).seq.inflight.filter (fun (x : Inflight) =>
    match x.work with
    | .ringIn q _ _ _ taken => q == r && taken == 0
    | .ringOut q _ _ _ written => q == r && !written
    | _ => false)).foldl (fun s x => (s.abandon p 2 x).seqFault p 6 x.index) s

/-- R290: what a write to THX_SEQ_RING_CFG does: an enable of rings 1–3 with kind 00 or 11 is discarded, ring 0 keeps kind
00, the host bit needs FEATURE_EN bit 10 (R284); an enable takes both indices as 0 and writes 0 to the index word that the
sequencer owns; a launch of the command ring that is not yet written back has then no entry (log entry 24). -/
def State.writeRingCfg (s : State) (p r v : Nat) : State :=
  let en := bit v 31
  let kind := if r = 0 then 0 else bits v 28 2
  if en && r != 0 && (kind == 0 || kind == 3) then s
  else
    let s := s.wrAll (.thx p)
      [(THX_SEQ_RING_CFG_enable r, flag en), (THX_SEQ_RING_CFG_host r, if s.feature 10 then bits v 30 1 else 0),
       (THX_SEQ_RING_CFG_kind r, kind), (THX_SEQ_RING_CFG_log2_size r, bits v 0 5)]
    if en then
      let s := s.setRing p r Ring.reset
      let s := if r = 0 then s.modSeq p (fun q => { q with launches := [] }) else s
      if kind = 2 then s.writeProd p r 0 else s.writeCons p r 0
    else s.faultWaiting p r

/-- RING_ENABLE (R290): a write to the configuration register of a ring. A command that waits on a ring which is disabled
faults with reason 0x6 (R288). -/
def execRingEnable (p : PartId) (r : Fin 4) (cfg : W32) (s : State) : Host.Outcome State Fault Refusal :=
  .next (if s.running p.val then s.writeRingCfg p.val r.val cfg.toNat else s)

/-- R283, R291: once the tick has left the window of 2^20 ticks whose objects are being counted, THX_SEQ_RATE takes the count of the last
complete window. -/
def State.rollWindow (s : State) (p : Nat) : State :=
  let q := (s.part p).seq
  let n := s.now / 2 ^ 20
  if n = q.windowNo then s
  else (s.wr (.thx p) THX_SEQ_RATE_objects (if n = q.windowNo + 1 then q.window else 0)).modSeq p (fun q => { q with window := 0, windowNo := n })

/-- R283: objects written to an output ring count in THX_SEQ_OBJ and in their window. -/
def State.countObjects (s : State) (p n : Nat) : State :=
  ((s.rollWindow p).addReg (.thx p) THX_SEQ_OBJ_objects n).modSeq p (fun q => { q with window := q.window + n })

/-- RATE_WINDOW (R291): a window of 2^20 ticks has ended; before its end nothing happens. -/
def execRateWindow (p : PartId) (s : State) : Host.Outcome State Fault Refusal := .next (s.rollWindow p.val)

end Sys2Proof.Machine
end

