-- ==== Sys2Proof/Machine/Link.lean ====
section
/-! DEFINITION. What several commands share about strand ports and resets of single blocks: link-down (R299, R519), a failed
port (R300) and the engine reset (R332). -/
namespace Sys2Proof.Machine

/-- The remote write that a granule belongs to, as sender and number. -/
def writeOf : Cargo → Option (Nat × Nat)
  | .write _ from_ _ id _ _ _ => some (from_.toNat, id)
  | _ => none

/-- Drop granules that wait on the ports; those that were being forwarded return their credits (R301). -/
def State.purge (s : State) (drop : Slot → Bool) : State :=
  s.each (List.range 8) (fun s i =>
    let gone := (s.port i).txQ.filter (fun g => drop g.slot)
    gone.foldl (fun (s : State) g => s.returnOrigin g) (s.modPort i (fun x => { x with txQ := x.txQ.filter (fun g => !drop g.slot) })))

/-- R519: a remote write's route breaks here: the module discards every granule of it, now and later, and answers its sender. -/
def State.breakWrite (s : State) (w : Nat × Nat) : State :=
  let s := s.purge (fun g => writeOf g.cargo == some w)
  if w.1 = s.here then
    match s.fabric.remotes.find? (fun r => r.id == w.2) with
    | some r => s.endRemote r
    | none => s
  else if s.fabric.broken.contains w then s
  else (s.modFabric (fun f => { f with broken := f.broken ++ [w] })).sendReply w.1 w.2 .broken

/-- The remote writes of which a port holds granules: waiting to be sent, or sent and not acknowledged. -/
def Port.writes (x : Port) : List (Nat × Nat) :=
  x.txQ.filterMap (fun g => writeOf g.slot.cargo) ++ x.replay.flatMap (fun f => f.cargo.filterMap (fun c => c.bind writeOf))

/-- Whether two granules belong to one message of a collective, and whether a granule ends its message. -/
def sameMessage (g h : Slot) : Bool :=
  match g.cargo, h.cargo with
  | .coll job step part tag to_ _, .coll job' step' part' tag' to' _ => job == job' && step == step' && part == part' && tag == tag' && to_ == to'
  | _, _ => false

def endsMessage (g : Slot) : Bool :=
  match g.cargo with
  | .coll _ _ _ _ _ last => last
  | _ => false

/-- The granules of whole received messages (R299): those that the end of their message follows. -/
def wholeOnly : List Slot → List Slot
  | [] => []
  | g :: q => if (g :: q).any (fun h => sameMessage g h && endsMessage h) then g :: wholeOnly q else wholeOnly q

/-- R299: what a port keeps of its queues at a link-down: the replay buffer, partial received messages, and the link's credits, lane
switches under way and keys go; what waits to be sent, whole received messages and control messages stay. -/
def Port.down (x : Port) : Port :=
  { Port.reset with ctrl := x.ctrl, txQ := x.txQ, kept := x.kept ++ wholeOnly x.rxQ, rxEpoch := x.rxEpoch }

/-- R299: a port goes down. `link` is the state it takes, 0 down or 3 failed. A link that was up is recorded as a link-down, the remote
writes that it carries end, and a job port's loss emits a token (R313). -/
def State.portDown (s : State) (i link : Nat) : State :=
  let wasUp := s.rd (.port i) FAB_PORT_STATE_link == 2
  let ws := (s.port i).writes
  let s := s.wrAll (.port i) [(FAB_PORT_STATE_link, link), (FAB_PORT_STATE_lanes_up, 0)]
  if wasUp then
    let s := (s.modPort i Port.down).wr (.port i) FAB_PORT_DOWN_TICK_tick s.now
    let s := ws.foldl (fun s w => s.breakWrite w) s
    let s := if s.on (.port i) FAB_PORT_CTL_job_member then s.emitToken s.jobStep else s
    (s.bump (.port i) 3).raise (.port i) PORT_INT_link_down
  else s

/-- The domain controller's numbering of blocks in HCH_RESET_CAUSE (R360), with the instance. -/
def blockCode : Block → Nat × Nat
  | .cluster _ c => (0, c.val)
  | .update _ => (1, 0)
  | .rotation _ => (2, 0)
  | .wing _ w => (3, w.val)
  | .sequencer _ => (4, 0)
  | .tileMover _ c => (5, c.val)
  | .channel _ ch => (6, ch.val)
  | .port i => (0, i.val)
  | .hostDma => (0, 0)

/-- R332: an engine reset clears only this state of its block. -/
def State.clearBlock (s : State) : Block → State
  | .cluster p c => s.modCluster p.val c.val (fun x =>
      { Cluster.reset with detections := x.detections, blocks := x.blocks, sweepTick := x.sweepTick, nextReq := x.nextReq })
  | .update p =>
    (s.modPart p.val (fun x => { x with pass := x.pass.map (fun u =>
      { u with flying := [], refused := u.refused || !u.flying.isEmpty }) })).wr (.upd p.val) UPD_STATUS_in_flight 0
  | .rotation p => s.modPart p.val (fun x => { x with rot := [], up := [] })
  | .wing p w => s.clearWing p.val w.val
  | .sequencer p => (s.abandonAll p.val 1 (fun _ => true)).modSeq p.val (fun q => q.endAll 2)
  | .tileMover p c => s.modCluster p.val c.val (fun x => { x with mover := [] })
  | .channel _ _ => s
  | .port i => s.portDown i.val 0
  | .hostDma => s

/-- Whether a block holds work of a context bound to a job (R333): its partition is bound. -/
def State.blockBound (s : State) (b : Block) : Bool :=
  match blockPart? b with
  | some p => (s.ctx? p).isSome
  | none => true

/-- R466: a slot whose source is reset becomes interrupted. -/
def State.interruptBlock (s : State) : Block → State
  | .cluster p c => s.interruptPart p.val (fun ty i => ty == 0 && i == c.val)
  | .update p => s.interruptPart p.val (fun ty _ => ty == 3)
  | .wing p w => s.interruptPart p.val (fun ty i => ty == 1 && i == w.val)
  | .sequencer p => s.interruptPart p.val (fun ty _ => ty == 2)
  | .channel p ch => s.interruptPart p.val (fun ty i => ty == 4 && i == ch.val)
  | .port i => s.interruptSlots (fun ty n => ty == 5 && n == i.val)
  | .hostDma => s.interruptSlots (fun ty _ => ty == 6)
  | _ => s

/-- R332, R333: an engine reset of a block: the token for the job, the listed state cleared, the cause recorded and counted. -/
def State.engineReset (s : State) (b : Block) : State :=
  let s := if s.blockBound b then s.emitToken s.jobStep else s
  let s := (s.clearBlock b).interruptBlock b
  match blockPart? b with
  | some p => (s.wrAll (.hch p) [(HCH_RESET_CAUSE_kind, 1), (HCH_RESET_CAUSE_block, (blockCode b).1),
      (HCH_RESET_CAUSE_instance, (blockCode b).2)]).bump (.hch p) 1
  | none => s

end Sys2Proof.Machine
end

