-- ==== Sys2Proof/Machine/Wire.lean ====
section
/-! DEFINITION. The wire form of a strand frame (R295, R296): its 2,688 bytes, the bodies of its control messages (R313, R318, R457), the CRC, and
encryption (R321). -/
namespace Sys2Proof.Machine

/-! Control messages (R296) -/

/-- The msg_type of a control message (R296). -/
def msgCode : CtrlMsg → Nat
  | .idle => 0
  | .abort _ => 1
  | .timing _ _ _ => 2
  | .round _ _ _ _ => 3
  | .lane _ _ _ => 4
  | .keyEpoch _ _ => 5

/-- The 128 bits of a control message's body: R313, R318 and R457 give three of them; those of a round and of a lane message are the model's
(DESIGN CHOICE, log entry 82). -/
def msgBody : CtrlMsg → Nat
  | .idle => 0
  | .abort t => t.job.toNat * 2 ^ 8 + t.step.toNat * 2 ^ 24 + t.origin.toNat * 2 ^ 88 + t.hops.toNat * 2 ^ 106
  | .timing depth tick phase => depth.toNat * 2 ^ 8 + tick.toNat * 2 ^ 16 + phase.toNat * 2 ^ 80
  | .round kind axis step value => flag value + flag (kind == .commitRound) * 2 + axis.val * 4 + step.toNat * 2 ^ 8
  | .lane transmit lane first => lane.val + flag transmit * 2 ^ 5 + first.toNat * 2 ^ 8
  | .keyEpoch epoch first => epoch.toNat + first.toNat * 2 ^ 32

/-- The control message of a type and body (R296): a reserved type is none. -/
def readMsg (ty v : Nat) : CtrlMsg :=
  match ty with
  | 1 => .abort { job := BitVec.ofNat 16 (bits v 8 16), step := BitVec.ofNat 64 (bits v 24 64), origin := BitVec.ofNat 18 (bits v 88 18)
                  hops := BitVec.ofNat 8 (bits v 106 8) }
  | 2 => .timing (BitVec.ofNat 8 (bits v 8 8)) (BitVec.ofNat 64 (bits v 16 64)) (BitVec.ofNat 16 (bits v 80 16))
  | 3 => .round (if bit v 1 then .commitRound else .flagRound) (Fin.ofNat 4 (bits v 2 2)) (BitVec.ofNat 64 (bits v 8 64)) (bit v 0)
  | 4 => .lane (bit v 5) (Fin.ofNat 26 (bits v 0 5)) (BitVec.ofNat 64 (bits v 8 64))
  | 5 => .keyEpoch (BitVec.ofNat 32 (bits v 0 32)) (BitVec.ofNat 64 (bits v 32 64))
  | _ => .idle

/-! The CRC (R296) -/

/-- One bit of the CRC register: the ECMA-182 polynomial, highest bit first. -/
def crcShift (r : Nat) : Nat := if r < 2 ^ 63 then 2 * r else (2 * r) % 2 ^ 64 ^^^ 0x42F0E1EBA9EA3693

/-- One byte. -/
def crcByte (r : Nat) (b : Byte) : Nat := Nat.repeat crcShift 8 (r ^^^ b.toNat * 2 ^ 56)

/-- The CRC register after a run of bytes; the match evaluates it byte by byte. -/
def crcFrom (r : Nat) : List Byte → Nat
  | [] => r
  | b :: l => match r with
    | 0 => crcFrom (crcByte 0 b) l
    | n + 1 => crcFrom (crcByte (n + 1) b) l

/-- CRC-64 with the ECMA-182 polynomial; the register begins at 0 and nothing is reflected, as in that standard (PRESUMED, log entry 82). -/
def crc64 (l : List Byte) : Nat := crcFrom 0 l

/-! Frames -/

/-- A frame's fields (R296), with the 75 slots' data as it stands on the wire and what each slot carries. `seq` and `ack` are the low 32
bits. -/
structure Frame where
  seq     : Nat
  ack     : Nat
  nak     : Bool
  lanePending : Bool
  msg     : CtrlMsg
  poison  : Nat
  vcs     : Nat
  credits : List Nat
  tag     : List Byte
  data    : List (List Byte)
  cargo   : List (Option Cargo)
  deriving DecidableEq, Repr

/-- The bits of slots for which something holds. -/
def slotBits (w : Nat) (l : List Nat) : Nat := l.foldr (fun v n => v % 2 ^ w + 2 ^ w * n) 0

/-- Header bytes 0x00–0x46 (R296), the associated data of R321. -/
def Frame.head (f : Frame) : List Byte :=
  leBytes 4 f.seq ++ leBytes 4 f.ack ++
  leBytes 1 (flag f.nak + 2 * flag (f.cargo.all Option.isNone) + 4 * flag f.lanePending) ++ leBytes 1 (msgCode f.msg) ++
  leBytes 10 f.poison ++ leBytes 19 f.vcs ++ f.credits.flatMap (leBytes 4) ++ leBytes 16 (msgBody f.msg)

/-- The CRC of a frame: over the 75 slots' data bytes and the poison field (R296). -/
def Frame.crc (f : Frame) : Nat := crc64 (f.data.flatten ++ leBytes 10 f.poison)

/-- The 2,688 bytes of a frame (R295, R296). -/
def Frame.wire (f : Frame) : List Byte :=
  let h := f.head ++ slice f.tag 0 16 ++ leBytes 8 f.crc ++ List.replicate 35 0
  h ++ slice (Config.headerCheck h) 0 8 ++ f.data.flatMap (fun d => d ++ slice (Config.slotCheck d) 0 2)

/-- Read a frame's bytes (R296). -/
def readFrame (w : List Byte) (cargo : List (Option Cargo)) : Frame :=
  let fl := leAt w 8 1
  { seq := leAt w 0 4, ack := leAt w 4 4, nak := bit fl 0, lanePending := bit fl 2, msg := readMsg (leAt w 9 1) (leAt w 0x37 16)
    poison := leAt w 0x0A 10, vcs := leAt w 0x14 19, credits := (List.range 4).map (fun v => leAt w (0x27 + 4 * v) 4)
    tag := slice w 0x47 16, data := (List.range 75).map (fun j => slice w (0x8A + 34 * j) 32), cargo := cargo }

/-- Whether the CRC that a frame's bytes carry is that of what they hold (R297). -/
def crcMatches (w : List Byte) : Bool := leAt w 0x57 8 == (readFrame w []).crc

/-- The granules that a frame's slots deliver (R295): an idle slot delivers nothing. -/
def Frame.slots (f : Frame) : List Slot :=
  (f.data.zipIdx).filterMap (fun e => ((f.cargo.getD e.2 none)).map (fun c =>
    { vc := Fin.ofNat 4 (bits f.vcs (2 * e.2) 2), data := e.1, poison := bit f.poison e.2, cargo := c }))

/-- A frame that carries slots, before any encryption. -/
def frameOf (seq ack : Nat) (nak lanePending : Bool) (msg : CtrlMsg) (credits : List Nat) (slots : List Slot) : Frame :=
  { seq := seq % 2 ^ 32, ack := ack % 2 ^ 32, nak := nak, lanePending := lanePending, msg := msg
    poison := slotBits 1 (slots.map (fun g => flag g.poison)), vcs := slotBits 2 (slots.map (fun g => g.vc.val)), credits := credits
    tag := List.replicate 16 0
    data := slots.map (fun g => slice g.data 0 32) ++ List.replicate (75 - slots.length) (List.replicate 32 0)
    cargo := slots.map (fun g => some g.cargo) }

/-- Both ends track the high bits of a sequence number (R296): the number nearest to `near` that has the given low 32 bits. -/
def extendSeq (near low : Nat) : Nat :=
  let d := (low + 2 ^ 32 - near % 2 ^ 32) % 2 ^ 32
  if d < 2 ^ 31 then near + d else near + d - 2 ^ 32

/-! Encryption (R321) -/

/-- The nonce: the extended sequence in its low 8 bytes, then 0, then the sender's port index. -/
def frameNonce (port seq : Nat) : List Byte := leBytes 8 seq ++ [0, 0, 0] ++ leBytes 1 port

/-- Cut bytes into the 75 slots' data. -/
def slotData (l : List Byte) : List (List Byte) := (List.range 75).map (fun j => slice l (32 * j) 32)

/-- Seal a frame's data under a key (R321). -/
def Frame.seal (f : Frame) (key : List Byte) (port seq : Nat) : Frame :=
  let c := Config.gcmSeal key (frameNonce port seq) f.head f.data.flatten
  { f with data := slotData c.1, tag := slice c.2 0 16 }

/-- Open the data of a frame that has come as the bytes `w`: none where it does not authenticate. -/
def Frame.open? (f : Frame) (w : List Byte) (key : List Byte) (port seq : Nat) : Option Frame :=
  (Config.gcmOpen key (frameNonce port seq) (slice w 0 0x47) f.data.flatten f.tag).map (fun d => { f with data := slotData d })

end Sys2Proof.Machine
end

