-- ==== Sys2Proof/Machine/Repair.lean ====
section
/-! DEFINITION. What repair inside a Wing stack works on: the level mirror (R139), spare columns (R142), loads (R144), the counts of
retired scales (R79–R82), and the calibration triggers (R388, R389). -/
namespace Sys2Proof.Machine

/-! The level mirror and side records (R139, R140) -/

/-- The number of a logical scale in its partition (R139). -/
def logicalScale (lw b ls : Nat) : Nat := lw * 16384 + b * 512 + ls

/-- The address of a scale's mirror (R139). -/
def State.mirrorAt (s : State) (p lw b ls : Nat) : Nat :=
  s.rd (.upd p) UPD_RS_MIRROR_BASE_base * 2 ^ 21 + logicalScale lw b ls * 131072

/-- The address of a scale's side record (R140). -/
def State.sideAt (s : State) (p lw b ls : Nat) : Nat :=
  s.rd (.upd p) UPD_RS_SIDE_BASE_base * 4096 + logicalScale lw b ls * 2048

/-- Nibble `i` of an array of packed nibbles (R130: the even one in the low nibble). -/
def State.nibble (s : State) (a i : Nat) : Nat := bits (s.byte (a + i / 2)).toNat (4 * (i % 2)) 4

/-- Write packed nibbles from an even index on. -/
def packNibbles : List Nat → List Byte
  | a :: b :: rest => BitVec.ofNat 8 (a % 16 + 16 * (b % 16)) :: packNibbles rest
  | [a] => [BitVec.ofNat 8 (a % 16)]
  | [] => []

/-- The value of a W4 level code: 0b1000 enters every product as 0 (R41, R248). -/
def levelOf (v : Nat) : Int := if v % 16 = 8 then 0 else signed 4 v

/-- The 256 data level codes of a mirror row (R130, R139). -/
def State.mirrorRow (s : State) (p lw b ls r : Nat) : List Nat :=
  (List.range 256).map (fun j => s.nibble (s.mirrorAt p lw b ls + r * 128) j)

/-- R57: the reference level of a row. -/
def refLevel (r : Nat) : Int :=
  match r % 8 with
  | 0 => 7
  | 1 => -7
  | 2 => 5
  | 3 => -5
  | 4 => 3
  | 5 => -3
  | 6 => 1
  | _ => -1

/-- What an unlisted cell of a scale stands at: level 0, and the level of R57 in the reference column, as a cleared wing has them
(R427). -/
def cellReset (k : Nat) : BitVec 4 := if k % 264 = 257 then BitVec.ofNat 4 (unsigned 4 (refLevel (k / 264))) else 0

/-! Calibration triggers -/

/-- The ERRCNT entry in which a trigger counts (R402); a first trigger counts in none. -/
def TrigKind.errcnt : TrigKind → Option Nat
  | .temperature => some 1
  | .drift => some 2
  | .monitor => some 3
  | .command => some 4
  | .first => none

/-- Set or clear a bit of a field. -/
def State.setBit (s : State) (pg : Page) (f : Field) (i : Nat) (v : Bool) : State :=
  let x := s.rd pg f
  if bit x i == v then s else s.wr pg f (if v then x + 2 ^ i else x - 2 ^ i)

/-- R388, R389: raise a calibration trigger of a wing: it joins a held one of its kind, or it is counted and held for the
calibration that starts next. A wing that is off or retired is not triggered. -/
def State.trigger (s : State) (p w : Nat) (k : TrigKind) : State :=
  if s.rd (.wing p w) WNG_STATE_power ≠ 2 ∨ s.rd (.wing p w) WNG_STATE_role = 0xE ∨ (s.wing p w).cal.held.contains k then s
  else
    let s := s.modCal p w (fun c => { c with held := c.held ++ [k] })
    let s := s.setBit (.cal p) CAL_STATUS_pending w true
    match k.errcnt with
    | some n => s.bump (.cal p) n
    | none => s

/-- A temperature or first trigger: not raised while a calibration that one of its kind started runs (R388). -/
def State.triggerState (s : State) (p w : Nat) (k : TrigKind) : State :=
  let c := (s.wing p w).cal
  if c.running && c.trig == k then s else s.trigger p w k

/-! Columns -/

/-- Spare columns assigned to faults (R33): use 01 or 11. -/
def Scale.faults (x : Scale) : Nat := (x.colmap.filter (fun e => e.1 == 1 || e.1 == 3)).length

/-- The lowest-numbered free spare column (R142). -/
def Scale.freeColumn (x : Scale) : Option Nat := (List.range 6).find? (fun n => (x.colmap.getD n (3, 0)).1 == 0)

/-- Set a spare column's use and target. -/
def Scale.setCol (x : Scale) (n use target : Nat) : Scale := { x with colmap := x.colmap.set n (use, target) }

/-- The physical column that serves a logical column: a spare in use 01, else its own (R142). -/
def Scale.column (x : Scale) (j : Nat) : Nat :=
  match (List.range 6).find? (fun n => x.colmap.getD n (0, 0) == (1, j)) with
  | some n => 258 + n
  | none => j

/-- The logical column that a physical column serves, if any. -/
def Scale.logicalOf (x : Scale) (col : Nat) : Option Nat :=
  if col < 258 then (if x.column col = col then some col else none)
  else
    let e := x.colmap.getD (col - 258) (0, 0)
    if e.1 = 1 ∨ e.1 = 2 then some e.2 else none

/-! Loads (R142, R144) -/

/-- The memory that the mirror and side record of a logical scale take (R139, R140). -/
def State.scaleRanges (s : State) (p lw b ls : Nat) : List (Nat × Nat) :=
  [(s.mirrorAt p lw b ls, 131072), (s.sideAt p lw b ls, 2048)]

/-- Queue a load of a logical scale into a physical scale: every row is to be written. -/
def State.queueLoad (s : State) (p : Nat) (kind : SeatKind) (lw b ls pw ps : Nat) : State :=
  let a := s.sideAt p lw b ls
  let seat := fun (id : Nat) =>
    ({ id := id, kind := kind, cmd := none, lw := lw, bank := b, ls := ls, pw := pw, ps := ps, c := s.word (a + 0x408) 8,
       under := 0, layer := 0, seed := s.word (a + 0x414) 4, k0 := s.word (a + 0x418) 4, n0 := s.word (a + 0x41C) 4,
       nTotal := s.word (a + 0x420) 4, image := 0, checked := true, rows := List.range 1024, f := [], rho := 0,
       stuck := false, reform := false } : Seat)
  s.modPart p (fun x => { x with seats := x.seats ++ [seat x.nextSeat], nextSeat := x.nextSeat + 1 })

/-- Drop the loads that write a physical scale. -/
def State.dropLoads (s : State) (p pw b ps : Nat) : State :=
  s.modPart p (fun x => { x with seats := x.seats.filter (fun t =>
    t.kind == .commit || t.pw != pw || t.bank != b || t.ps != ps) })

/-- Whether a logical scale has been seated since the last module reset (R144). -/
def State.isSeated (s : State) (p lw b ls : Nat) : Bool := (s.part p).seated.contains (logicalScale lw b ls)

/-! Scale and wing retirement -/

/-- The smallest spare count of a wing's banks. -/
def State.minSpares (s : State) (p w : Nat) : Nat :=
  (List.range 32).foldl (fun m b => min m (s.rd (.bank p w (b / 4)) (WNG_BK_STATE_spares_left (b % 4)))) 16

/-- One more scale of a bank is retired (R79–R82), and one spare scale of it is taken or lost where one remains: a bank that falls to 2
or fewer sets spare_low (R80). -/
def State.countRetired (s : State) (p w b : Nat) : State :=
  let old := s.rd (.bank p w (b / 4)) (WNG_BK_STATE_spares_left (b % 4))
  let left := old - 1
  let s := (s.wr (.bank p w (b / 4)) (WNG_BK_STATE_spares_left (b % 4)) left).addReg (.bank p w (b / 4))
    (WNG_BK_STATE_retired (b % 4)) 1
  let s := s.wr (.wing p w) WNG_SPARES_spare_scales (s.rd (.wing p w) WNG_SPARES_spare_scales - (old - left))
  let s := s.wr (.wing p w) WNG_SPARES_min_bank_spares (s.minSpares p w)
  let s := (s.bump (.wing p w) 4).raise (.wing p w) WNG_INT_scale_retired
  if left < old ∧ left ≤ 2 then s.raise (.wing p w) WNG_INT_spare_low else s

/-- A tile that goes on at L3 (R104, R108). -/
def Tile.toL3 (t : Tile) : Tile := { t with target := 3, closed := true, need := 0, left := 0, acc := [], term := [] }

/-- End a wing's calibration without completion (R400). -/
def State.endCal (s : State) (p w : Nat) : State :=
  let s := s.modCal p w (fun _ => WingCal.reset)
  let s := (s.setBit (.cal p) CAL_STATUS_active w false).setBit (.cal p) CAL_STATUS_pending w false
  let s := s.wr (.cal p) (CAL_W_STATE_phase w) 0
  s.wr (.cal p) CAL_STATUS_busy (flag (s.rd (.cal p) CAL_STATUS_active != 0))

/-- R400: a fault of the column under takeover, or of the spare that takes it over, ends that column's calibration. -/
def Scale.faultInCal (x : Scale) (col : Nat) : Scale :=
  match (List.range 6).find? (fun n => (x.colmap.getD n (0, 0)).1 == 2) with
  | some n =>
    let j := (x.colmap.getD n (0, 0)).2
    if col = 258 + n then { x with calNext := j + 1 }
    else if x.column j = col then { x.setCol n 0 0 with calNext := j + 1 }
    else x
  | none => x

end Sys2Proof.Machine
end

