-- ==== Sys2Proof/Machine/Rotation.lean ====
section
/-! DEFINITION. The rotation unit's arithmetic: layer table (R114), signs and butterflies (R85, R86, R211), block scales and
activation codes of the rungs (R89, R90, R101, R104). -/
namespace Sys2Proof.Machine

/-! The layer table (R114) -/

/-- The entries of the layer table: values above 4,096 act as 4,096 (R119). -/
def State.layers (s : State) (p : Nat) : Nat := min 4096 (s.rd (.lad p) LAD_MAP_CFG_layers)

/-- The device address of the ladder map. -/
def State.mapBase (s : State) (p : Nat) : Nat := s.rd (.lad p) LAD_MAP_BASE_base * 4096

/-- A layer's table entry. -/
def State.layerEntry (s : State) (p layer : Nat) : Nat := s.word (s.mapBase p + 8 * layer) 8
def layerWide (e : Nat) : Bool := bit e 36
def layerGain (e : Nat) : Nat := bits e 34 2
def layerRung (e : Nat) : Nat := bits e 32 2
def layerSeed (e : Nat) : Nat := bits e 0 32

/-! Signs and butterflies -/

/-- Whether the layer's sign of element `i` is −1 (R86). -/
def signNeg (z i : Nat) : Bool := bit (mix (z + i / 32 * 0x9E37_79B9)) (i % 32)

/-- Apply the signs to FP32 patterns. -/
def applySigns (z : Nat) (xs : List Nat) : List Nat := xs.zipIdx.map (fun e => if signNeg z e.2 then fneg e.1 else e.1)

/-- The butterfly stages 0 to `n` − 1 of a list of 2^`n` elements (R85): stage s pairs elements that differ in bit s, so the
last stage pairs the two halves. -/
def butterflies : Nat → List Nat → List Nat
  | 0, l => l
  | n + 1, l =>
    let a := butterflies n (l.take (2 ^ n))
    let b := butterflies n (l.drop (2 ^ n))
    List.zipWith fadd a b ++ List.zipWith fsub a b

/-- 1/16 in FP32. -/
def sixteenth : Nat := 0x3D80_0000

/-- R85: x′ = (1/16) × H × (D × x). -/
def rotate (z : Nat) (xs : List Nat) : List Nat := (butterflies 8 (applySigns z xs)).map (fmul sixteenth)

/-- R211: the transpose, butterflies, then signs, then 1/16. -/
def rotateT (z : Nat) (xs : List Nat) : List Nat := (applySigns z (butterflies 8 xs)).map (fmul sixteenth)

/-! Block scales (R89, R90) -/

/-- σ of a 256-element quarter (R89). -/
def sigmaOf (xs : List Nat) : Nat := fsqrt (fdiv (fsum (xs.map (fun x => fmul x x))) 0x4380_0000)

/-- Whether a quarter is all zero (R89): exactly when σ is 0. -/
def allZero (xs : List Nat) : Bool := (f32 (sigmaOf xs)).isZero

/-- The clamp of a block scale's exponent to 2^−14 … 2^15. -/
def clampExp (e : Int) : Int := max (-14) (min 15 e)

/-- The exponent of the natural scale under a clip multiplier (R89); a clip that is not a finite number takes the clamp's upper
end. -/
def naturalExp (clip : Nat) (xs : List Nat) : Int :=
  match f32 (fdiv (fmul (rne32 (fp16.decode clip)) (sigmaOf xs)) 0x40E0_0000) with
  | .fin neg m e => if neg || m == 0 then -14 else clampExp (Num.fin false m e).ceilLog2
  | _ => 15

/-- The largest magnitude of a list of FP32 patterns. -/
def maxAbs (xs : List Nat) : Nat := xs.foldl (fun m x => if (f32 x).abs.gt (f32 m) then fabs x else m) 0

/-- The smallest exponent e with 63 × 2^e at least max|x′| (R101). -/
def a8Exp (xs : List Nat) : Int :=
  let m := f32 (maxAbs xs)
  let e := m.ceilLog2 - 6
  if m.le (.fin false 63 e) then e else e + 1

/-- R90's adjustment: the final exponents of the quarters, none for an all-zero one; none is below the largest by more
than 2. -/
def adjustExps (es : List (Option Int)) : List (Option Int) :=
  let top := (es.filterMap id).foldl max (-14)
  es.map (Option.map (fun e => max e (top - 2)))

/-- The FP16 pattern of a block scale: +0.0 for an all-zero quarter. -/
def scaleBits : Option Int → BitVec 16
  | some e => BitVec.ofNat 16 (fp16.encode (.pow2 e))
  | none => 0

/-- x′ ÷ 2^e, exact. -/
def scaled2 (x : Nat) (e : Int) : Num := (f32 x).mul (.pow2 (-e))

/-- The sign-magnitude code of −7 … 7 (R44). -/
def codeA4 (v : Int) : BitVec 4 := BitVec.ofNat 4 (v.natAbs + (if v < 0 then 8 else 0))

/-- The value of a sign-magnitude code (R44). -/
def valueA4 (c : BitVec 4) : Int := if bit c.toNat 3 then -((c.toNat % 8 : Nat) : Int) else (c.toNat % 8 : Nat)

/-- Clamp to −lim … lim. -/
def clampInt (lim : Int) (v : Int) : Int := max (-lim) (min lim v)

/-- A quarter's A4 codes (R90). -/
def codesA4 (e : Option Int) (xs : List Nat) : List (BitVec 4) :=
  match e with
  | none => xs.map (fun _ => 0)
  | some e => xs.map (fun x => codeA4 (clampInt 7 (scaled2 x e).rne))

/-- A quarter's outliers in row order: row in the quarter and residual (R90). -/
def outliersOf (e : Option Int) (xs : List Nat) : List (Nat × Nat) :=
  match e with
  | none => []
  | some e => xs.zipIdx.filterMap (fun x =>
      let v := (scaled2 x.1 e).rne
      if v.natAbs ≤ 7 then none
      else some (x.2, rne32 ((f32 x.1).sub ((Num.ofInt (clampInt 7 v)).mul (.pow2 e)))))

/-- A quarter's high and low digits (R101). -/
def digitsOf (e : Option Int) (xs : List Nat) : List (BitVec 4 × BitVec 4) :=
  match e with
  | none => xs.map (fun _ => (0, 0))
  | some e => xs.map (fun x =>
      let v := (scaled2 x e).rne
      (codeA4 (v.sign * (v.natAbs / 8 : Nat)), codeA4 (v.sign * (v.natAbs % 8 : Nat))))

/-! A segment's granules (R50) -/

/-- Pack A4 codes two to a byte, the even one in the low nibble. -/
def packCodes : List (BitVec 4) → List Byte
  | a :: b :: rest => BitVec.ofNat 8 (a.toNat + 16 * b.toNat) :: packCodes rest
  | [a] => [BitVec.ofNat 8 a.toNat]
  | [] => []

/-- R50: a segment as its 17 granules: the codes in granules 0 to 15, the block scales at the head of granule 16, whose other bits are 0. -/
def wireOf (g : Segment) : WireSegment :=
  { product := g.product, token := g.token, rowBlock := g.rowBlock, kind := g.kind
    bytes := packCodes g.codes ++ g.scales.flatMap (fun v => leBytes 2 v.toNat) ++ List.replicate 24 0 }

/-- R50: what a wing takes from the granules: bits [255:64] of granule 16 are ignored. -/
def segmentOf (g : WireSegment) : Segment :=
  { product := g.product, token := g.token, rowBlock := g.rowBlock, kind := g.kind
    codes := (List.range 512).flatMap (fun i =>
      let b := (g.bytes.getD i 0).toNat
      [BitVec.ofNat 4 b, BitVec.ofNat 4 (b / 16)])
    scales := (List.range 4).map (fun q => BitVec.ofNat 16 (leAt g.bytes (512 + 2 * q) 2)) }

/-! A segment's shifts (R46, R48) -/

/-- Whether a block scale is a normal FP16 value (R49). -/
def normalScale (v : BitVec 16) : Bool := !bit v.toNat 15 && bits v.toNat 10 5 != 0 && bits v.toNat 10 5 != 31

/-- Whether a quarter of a segment holds a non-zero activation (R44). -/
def nonZeroQuarter (g : Segment) (q : Nat) : Bool := ((g.codes.drop (256 * q)).take 256).any (fun c => c != 0 && c != 8)

/-- Whether a quarter takes part in choosing s_op and the shifts (R48): a non-zero activation, or in a digit segment a block
scale other than +0.0. -/
def takesPart (g : Segment) (q : Nat) : Bool :=
  match g.kind with
  | .a4 => nonZeroQuarter g q
  | _ => g.scales.getD q 0 != 0

/-- The quarters that take part. -/
def partQuarters (g : Segment) : List Nat := (List.range 4).filter (takesPart g)

/-- The block scale of a quarter as an exact value. -/
def scaleOf (g : Segment) (q : Nat) : Num := fp16.decode (g.scales.getD q 0).toNat

/-- The operation scale s_op (R48): the largest block scale among the quarters that take part. -/
def opScale (g : Segment) : Num :=
  (partQuarters g).foldl (fun m q => if (scaleOf g q).gt m then scaleOf g q else m) (.fin false 0 0)

/-- The shift of a quarter (R48), none where it is not exactly 0, 1 or 2. -/
def shiftOf (g : Segment) (q : Nat) : Option Nat :=
  (List.range 3).find? (fun k => ((scaleOf g q).mul (.fin false (2 ^ k) 0)).cmp (opScale g) == some .eq)

/-- R48, R49: whether a segment is malformed: a quarter with a non-zero activation, or one that takes part in a digit segment, has a block
scale that is no normal number or a shift that is not 0, 1 or 2. -/
def malformed (g : Segment) : Bool :=
  ((List.range 4).filter (fun q => takesPart g q || nonZeroQuarter g q)).any (fun q => !normalScale (g.scales.getD q 0) || (shiftOf g q).isNone)

/-- The weight of a row's activation step in quarters of a product unit, 4 × 2^(−k) (R46). -/
def rowWeight (g : Segment) (r : Nat) : Nat :=
  match shiftOf g (r / 256) with
  | some k => 4 / 2 ^ k
  | none => 0

/-- The driven rows of a pass with their weighted activation in quarters of a product unit (R45, R100). -/
def driven (g : Segment) (lo hi : Nat) : List (Nat × Int) :=
  let ws := (List.range 4).map (fun q => rowWeight g (256 * q))
  ((g.codes.take hi).zipIdx.drop lo).filterMap (fun e =>
    let v := valueA4 e.1
    if v = 0 then none else some (e.2, (ws.getD (e.2 / 256) 0 : Int) * v))

end Sys2Proof.Machine
end

