-- ==== Sys2Proof/Machine/Tiles.lean ====
section
/-! DEFINITION. What the analogue commands share: the converter (R47, R52), the checks (R58, R95), VL10 granules (R66–R68), the
life of a tile (R100–R109) and of a column group (R61–R69). -/
namespace Sys2Proof.Machine

/-! The converter -/

/-- Product units per code step (R52). -/
def unitsPerStep (g : Nat) : Nat := 16 / 2 ^ g

/-- ±`n` ÷ 2^`k` rounded to nearest, ties to even. -/
def rneDiv (n : Int) (k : Nat) : Int := n.sign * (rneShift n.natAbs k : Nat)

/-- R52, R53: the code of a charge given in quarters of a product unit at gain `g`, with the conversion's deviation in 2^−16
code steps (R54, log entry 7), and whether it saturates. -/
def convert (g : Nat) (charge deviation : Int) : Int × Bool :=
  let v := rneDiv (charge * (2 ^ 14 / unitsPerStep g : Nat) + deviation) 16
  (clampInt 511 v, 511 < v.natAbs)

/-- The physical column in service for a logical column: a takeover's spare, from when it holds the whole copy until the measurement has been
accepted (R392), else the column of R142. -/
def Scale.serving (x : Scale) (j : Nat) : Nat :=
  match (List.range 6).find? (fun n => x.colmap.getD n (0, 0) == (2, j)) with
  | some n => if 1024 ≤ x.copied ∧ x.calNext ≤ j then 258 + n else x.column j
  | none => x.column j

/-- The code of a cell (R40). -/
def Scale.cell (x : Scale) (r col : Nat) : Nat := (mapGet (cellReset (r * 264 + col)) x.cells (r * 264 + col)).toNat

/-- R47: the charge that the driven rows collect in a physical column, in quarters of a product unit. -/
def Scale.charge (x : Scale) (rows : List (Nat × Int)) (col : Nat) : Int :=
  rows.foldl (fun a e => a + e.2 * levelOf (x.cell e.1 col)) 0

/-- R58: the exact reference sum in quarters of a product unit. -/
def refSum (rows : List (Nat × Int)) : Int := rows.foldl (fun a e => a + e.2 * refLevel e.1) 0

/-- What one operation measured: the 256 data codes, the checksum code and the reference code, with their saturation. -/
structure Reading where
  codes  : List (Int × Bool)
  chk    : Int × Bool
  ref    : Int × Bool
  deriving DecidableEq, Repr

/-- Convert every logical column of a scale: the draws of the deviations number from `nDraw`. -/
def readScale (x : Scale) (g nDraw : Nat) (rows : List (Nat × Int)) : Reading :=
  let one := fun j => convert g (x.charge rows (x.serving j)) (Config.analogueDeviation (nDraw + j))
  { codes := (List.range 256).map one, chk := one 256, ref := one 257 }

/-- R53: whether a data or checksum column saturates. -/
def Reading.saturated (m : Reading) : Bool := m.codes.any (fun c => c.2) || m.chk.2

/-- R95: the integer disagreement D. -/
def Reading.disagreement (m : Reading) : Int := m.codes.foldl (fun a c => a + c.1) 0 - 256 * m.chk.1

/-- R58: the reference deviation, none where it is invalid. -/
def Reading.deviation (m : Reading) (g : Nat) (rows : List (Nat × Int)) : Option Int :=
  let e := convert g (refSum rows) 0
  if m.ref.2 || e.2 then none else some (m.ref.1 - e.1)

/-- R95: the activation norm A in FP32, in row order. -/
def actNorm (rows : List (Nat × Int)) : Nat :=
  fsqrt (fsum (rows.map (fun e => let a := rne32 ((Num.ofInt e.2).mul (.pow2 (-2))); fmul a a)))

/-- R95: V, the value under the square root of the band. -/
def bandV (x : Scale) (g norm : Nat) : Nat :=
  let sc := rne32 (fp16.decode x.sigmaC.toNat)
  let q := fdiv (fmul (rne32 (fp16.decode x.rho.toNat)) norm) (f32OfInt (unitsPerStep g : Nat))
  fadd (fmul sc sc) (fmul q q)

/-- R95: the tolerance band T = β × sqrt(V). -/
def band (beta v : Nat) : Nat := fmul (rne32 (fp16.decode beta)) (fsqrt v)

/-- R97: an operation's share in the monitor's accumulators; the sums of D only where D is valid (R96). -/
def Monitor.add (m : Monitor) (valid : Bool) (d : Int) (v : Nat) (dev : Option Int) : Monitor :=
  let m := if valid then
      { m with n := m.n + 1, sD := fadd m.sD (f32OfInt d), sDD := fadd m.sDD (fmul (f32OfInt d) (f32OfInt d)), sV := fadd m.sV v }
    else m
  match dev with
  | some e => { m with nd := m.nd + 1, sd := m.sd + e }
  | none => m

/-! VL10 (R66–R68) -/

/-- R67: the exponent of 24 values. -/
def vl10Exp (ys : List Nat) : Nat :=
  if ys.any (fun y => !(f32 y).isFinite) then 255
  else
    let m := f32 (maxAbs ys)
    if m.isZero then 0
    else
      let e : Int := m.floorLog2 + 128
      let e := if 511 < (m.mul (.pow2 (136 - e))).rne then e + 1 else e
      if 254 < e then 255
      else if e < 1 then (if (m.mul (.pow2 135)).rne = 0 then 0 else 1)
      else e.toNat

/-- R66: a granule of up to 24 values. -/
def vl10Encode (ys : List Nat) : BitVec 256 :=
  let e := vl10Exp ys
  let m := fun (y : Nat) => if e = 0 ∨ e = 255 then 0 else unsigned 10 ((f32 y).mul (.pow2 (136 - (e : Int)))).rne
  BitVec.ofNat 256 (e + (ys.zipIdx.foldl (fun a y => a + m y.1 * 2 ^ (8 + 10 * y.2)) 0))

/-- R66: the FP32 value of position `k` of a granule. -/
def vl10Decode (g : BitVec 256) (k : Nat) : Nat :=
  let e := bits g.toNat 0 8
  if e = 255 then fp32.nan
  else if e = 0 then 0
  else
    let v := signed 10 (bits g.toNat (8 + 10 * k) 10)
    if v = 0 then 0 else rne32 ((Num.ofInt v).mul (.pow2 ((e : Int) - 136)))

/-- R68: the eleven granules of a column group's 256 outputs. -/
def groupGranules (product token group : Nat) (ys : List Nat) : List OutGranule :=
  (List.range 11).map (fun n =>
    { product := product, token := token, group := group, index := n, bits := vl10Encode ((ys.drop (24 * n)).take 24) })

/-! Products and their rotated blocks -/

/-- An open product. -/
def State.product? (s : State) (p id : Nat) : Option Product := (s.part p).products.find? (fun x => x.id == id)

/-- Change an open product. -/
def State.modProduct (s : State) (p id : Nat) (f : Product → Product) : State :=
  s.modPart p (fun x => { x with products := x.products.map (fun d => if d.id = id then f d else d) })

/-- A rotated block, if it has been formed. -/
def State.rotated? (s : State) (p product token block : Nat) : Option RotBlock :=
  (s.part p).rot.find? (fun b => b.product == product && b.token == token && b.block == block)

/-- The four quarters of a 1024-row block of a token; a quarter at or beyond K_p is zero (R270). None while one of them has not
been rotated. -/
def State.quarters? (s : State) (p : Nat) (d : Product) (token rb : Nat) : Option (List (List Nat)) :=
  (List.range 4).mapM (fun q =>
    if d.kp ≤ 256 * (4 * rb + q) then some (List.replicate 256 0)
    else (s.rotated? p d.id token (4 * rb + q)).map (fun b => b.x))

/-- The command of a product takes a tag count (R471). -/
def State.tagProduct (s : State) (p product : Nat) (f : Tag → Tag) : State :=
  match (s.part p).seq.inflight.find? (fun x => x.work == .product product) with
  | some x => s.modTag p x.id f
  | none => s

/-! Ladder signals (R99, R111) -/

/-- Whether normal service is in effect (R112). -/
def State.normalService (s : State) (p : Nat) : Bool := !s.on (.lad p) LAD_CTL_mode_eff

/-- R111: a signal in flag mode sets its bit. -/
def State.flagTrouble (s : State) (p : Nat) (f : Field) : State :=
  (s.wr (.lad p) f 1).raise (.lad p) LAD_INT_trouble_flagged

/-- Count a signal, and flag it in flag mode. -/
def State.signalTrouble (s : State) (p n : Nat) (f : Field) : State :=
  let s := s.bump (.lad p) n
  if s.normalService p then s else s.flagTrouble p f

/-! Tiles -/

/-- Change a tile of a wing. -/
def State.modTile (s : State) (p w id : Nat) (f : Tile → Tile) : State :=
  s.modWing p w (fun x => { x with tiles := x.tiles.map (fun t => if t.id = id then f t else t) })

/-- A tile of a wing. -/
def State.tile? (s : State) (p w id : Nat) : Option Tile := (s.wing p w).tiles.find? (fun t => t.id == id)

/-- The scale word of a tile in its group (R270). -/
def Product.gscale (d : Product) (t : Tile) : GScale :=
  (d.groups.getD t.group ⟨[], 0⟩).scales.getD t.pos ⟨0, 0, 0, 0⟩

/-- Whether a tile of a product exists. -/
def Wing.tileOf (x : Wing) (product token group pos : Nat) : Option Tile :=
  x.tiles.find? (fun t => t.product == product && t.token == token && t.group == group && t.pos == pos)

/-- The segment of a kind that a tile's passes drive. -/
def Wing.segOf (x : Wing) (product token rb : Nat) (kind : SegKind) : Option Segment :=
  x.segs.find? (fun g => g.product == product && g.token == token && g.rowBlock == rb && g.kind == kind)

/-- Eight passes of 128 rows. -/
def ranged (kind : SegKind) (weight : Nat) : List Pass :=
  (List.range 8).map (fun p => { kind := kind, lo := 128 * p, hi := 128 * p + 128, weight := weight })

/-- R100, R102: the passes that a segment of a kind gives a tile at a rung. -/
def passesFor (rung : Nat) (g : Segment) : List Pass :=
  match g.kind with
  | .a4 => if rung = 0 then [{ kind := .a4, lo := 0, hi := 1024, weight := 1 }] else ranged .a4 1
  | k =>
    let weight := if k = .high then 8 else 1
    let p4 : Nat := (driven g 0 1024).foldl (fun a e => a + e.2.natAbs) 0
    if 7 * p4 ≤ 4 * 8183 then [{ kind := k, lo := 0, hi := 1024, weight := weight }] else ranged k weight

/-- Queue passes of a tile: in the order in which they arrive (R76), or for an escalated tile ahead of every operation that arrived after
the tile's first (R109). -/
def Wing.queue (x : Wing) (t : Tile) (ps : List Pass) : Wing :=
  let first := t.first.getD x.nextOp
  let ops := ps.zipIdx.map (fun e =>
    ({ id := x.nextOp + e.2, tile := t.id, pass := e.1, rank := if t.escal then first else x.nextOp + e.2, gain := 0, bank := t.bank,
       sc := 0 } : ScaleOp))
  { x with
    waiting := if t.escal then x.waiting.takeWhile (fun o => o.rank ≤ first) ++ ops ++ x.waiting.dropWhile (fun o => o.rank ≤ first)
      else x.waiting ++ ops
    nextOp := x.nextOp + ps.length }

/-- R109: an escalated tile that still awaits its digit segments keeps back every operation that arrived after its first. -/
def Wing.heldBack (x : Wing) (o : ScaleOp) : Bool :=
  x.tiles.any (fun t => t.escal && !t.closed && t.need != 0 && decide (t.first.getD 0 < o.rank))

/-- Give a tile the passes of a segment that has arrived. -/
def State.feedTile (s : State) (p w id rung : Nat) (g : Segment) : State :=
  match s.tile? p w id with
  | some t =>
    let ps := passesFor rung g
    let first := t.first.getD (s.wing p w).nextOp
    (s.modWing p w (fun x => x.queue t ps)).modTile p w id (fun t =>
      { t with need := t.need - 1, left := t.left + ps.length, first := some first })
  | none => s

/-- A tile as it is created under a mode: it waits for the segments that its rung needs. -/
def newTile (id product token group pos : Nat) (gs : GScale) (rung : Nat) (normal held : Bool) : Tile :=
  { id := id, product := product, token := token, group := group, pos := pos, bank := gs.bank, scale := gs.scale, rung := rung
    need := if rung = 2 then 2 else 1, left := 0, ran := false, gain := 0, normal := normal, first := none, escal := false, held := held
    old := [], acc := [], target := rung, closed := false, l3 := [], term := [], bad := false }

/-- R115: the entry of a scale in the ladder record, and the step's tiles by final rung; a skipped tile counts in neither. -/
def State.recordRung (s : State) (p lw : Nat) (t : Tile) : State :=
  s.modPart p (fun x =>
    let e := logicalScale lw t.bank t.scale
    { x with rungs := mapSet 0 x.rungs e (max (mapGet 0 x.rungs e) t.rung)
             tiles := mapSet 0 x.tiles t.rung (mapGet 0 x.tiles t.rung + 1) })

/-- Whether a tile counts as run (R59, R89): an operation ran, or at L3 some quarter of x′ is not all zero. -/
def State.tileCounts (s : State) (p : Nat) (d : Product) (t : Tile) : Bool :=
  if t.rung = 3 then
    match s.quarters? p d t.token (d.gscale t).rows with
    | some qs => d.nonFinite != some true && !d.poisoned && qs.any (fun q => !allZero q)
    | none => false
  else t.ran

/-- R62: the outputs of a column group: the terms of its scales added in list order. -/
def groupOutput (terms : List (List Nat)) : List Nat :=
  (List.range 256).map (fun j => terms.foldl (fun a t => match t[j]? with | some v => fadd a v | none => a) 0)

/-- The terms of a column group's tiles in list order, once every one of them is closed in the wing. -/
def State.groupTerms? (s : State) (p w : Nat) (d : Product) (token gi : Nat) : Option (List (List Nat)) :=
  (List.range (d.groups.getD gi ⟨[], 0⟩).scales.length).mapM (fun pos =>
    ((s.wing p w).tileOf d.id token gi pos).bind (fun t => if t.closed then some t.term else none))

/-- Whether a granule belongs to a column group of a product's token. -/
def OutGranule.ofGroup (g : OutGranule) (product token gi : Nat) : Bool := g.product == product && g.token == token && g.group == gi

/-- R67, R68: the outputs of a finished group are queued and the group closes (R64). -/
def State.queueGroup (s : State) (p w product token gi : Nat) (ts : List (List Nat)) : State :=
  (s.modWing p w (fun x =>
    { x with outQ := x.outQ ++ groupGranules product token gi (groupOutput ts),
             openGroups := x.openGroups.filter (fun g => g != (product, token, gi)) })).syncWing p w

/-- R69: once every tile of a group is closed, its outputs are queued in their turn; without room for a whole group they wait. -/
def State.finishGroup (s : State) (p w : Nat) (d : Product) (token gi : Nat) : State :=
  let x := s.wing p w
  match s.groupTerms? p w d token gi with
  | some ts =>
    if x.outQ.any (fun g => g.ofGroup d.id token gi) || (s.part p).delivered.any (fun g => g.ofGroup d.id token gi) ||
        x.doneGroups.contains (d.id, token, gi) then s
    else if x.outFull || !x.doneGroups.isEmpty then s.modWing p w (fun x => { x with doneGroups := x.doneGroups ++ [(d.id, token, gi)] })
    else s.queueGroup p w d.id token gi ts
  | none => s

/-- R69: finished groups that waited for room are queued in order while there is room. -/
def State.flushGroups (s : State) (p w : Nat) : Nat → State
  | 0 => s
  | n + 1 =>
    match (s.wing p w).doneGroups with
    | (product, token, gi) :: rest =>
      if (s.wing p w).outFull then s
      else
        let s := s.modWing p w (fun x => { x with doneGroups := rest })
        match (s.product? p product).bind (fun d => s.groupTerms? p w d token gi) with
        | some ts => (s.queueGroup p w product token gi ts).flushGroups p w n
        | none => s.flushGroups p w n
    | [] => s

/-! The vertical link, downward (R66) -/

/-- The wing that the link serves next: the first from its turn on that has queued output. -/
def State.nextTurn (s : State) (p : Nat) : Option Nat :=
  ((List.range 9).map (fun i => ((s.part p).turn + i) % 9)).find? (fun v => !(s.wing p v).outQ.isEmpty)

/-- R66: one turn of the link brings one granule down, in the order of its wing's queue. -/
def State.deliverOne (s : State) (p : Nat) : State :=
  match s.nextTurn p with
  | none => s
  | some v =>
    match (s.wing p v).outQ with
    | [] => s
    | g :: rest =>
      let s := s.modWing p v (fun x => { x with outQ := rest })
      let s := s.modPart p (fun x => { x with delivered := x.delivered ++ [g], turn := (v + 1) % 9 })
      (s.flushGroups p v (s.wing p v).doneGroups.length).syncWing p v

/-- Turns of the link until the groups of a token are down, at most `n`. -/
def State.deliver (s : State) (p product token : Nat) (gis : List Nat) : Nat → State
  | 0 => s
  | n + 1 =>
    if gis.all (fun gi => ((s.part p).delivered.filter (fun g => g.ofGroup product token gi)).length == 11) then s
    else (s.deliverOne p).deliver p product token gis n

/-- The granules that the link has still to bring down. -/
def State.linkLoad (s : State) (p : Nat) : Nat :=
  (List.range 9).foldl (fun n v => n + (s.wing p v).outQ.length + 11 * (s.wing p v).doneGroups.length) 0

/-! Boundaries of a scale (R70–R72) -/

/-- The restore interval of a row of R71, in nanoseconds: in 2^−10 ns it is the pitch of the rows. -/
def intervalNs : Nat → Nat
  | 0 => 4_000_000
  | 1 => 3_500_000
  | 2 => 3_000_000
  | 3 => 2_500_000
  | _ => 2_200_000

/-- When the next row of a bank falls due, in 2^−10 ns (R70). -/
def Wing.dueAt (x : Wing) (b : Nat) : Nat := mapGet 0 x.due b

/-- R72: whether a row restore of a bank is due: its time is no later than the start of the present tick. -/
def State.restoreDue (s : State) (p w b : Nat) : Bool := decide ((s.wing p w).dueAt b ≤ s.now * 2 ^ 20)

/-- Whether a physical scale is in operation. -/
def Wing.operates (x : Wing) (b sc : Nat) : Bool := x.running.any (fun o => o.bank == b && o.sc == sc)

/-- R27: whether a power action waits for the boundary of a wing's operations; nothing new issues until it has applied. -/
def State.powerWaits (s : State) (p w : Nat) : Bool :=
  (s.part p).actions.any (fun a => match a with
    | .wingPower v _ => v.val == w
    | _ => false)

/-! The end of a tile -/

/-- The rung at which a tile starts (R100, R111). -/
def State.startRung (s : State) (p : Nat) (d : Product) : Nat := layerRung (s.layerEntry p d.layer)

/-- The scale that a tile runs on, if one serves it. -/
def State.tileScale? (s : State) (p w : Nat) (t : Tile) : Option Nat := s.physScale? p w t.bank t.scale

/-- R109: once the last pass of an escalated tile is over, its scale's gain is the layer's L0 gain again. -/
def State.restoreGain (s : State) (p w : Nat) (d : Product) (t : Tile) : State :=
  match s.tileScale? p w t with
  | some sc =>
    if t.ran && decide (s.startRung p d < t.rung) then
      s.modScale p w t.bank sc (fun x => { x with gain := layerGain (s.layerEntry p d.layer) })
    else s
  | none => s

/-- A tile's result is settled: it is recorded, and its column group is output once the last of its tiles is. -/
def State.settleTile (s : State) (p lw w : Nat) (d : Product) (id : Nat) : State :=
  match s.tile? p w id with
  | some t =>
    let s := if s.tileCounts p d t then s.recordRung p lw t else s
    s.finishGroup p w d t.token t.group
  | none => s

/-- R133, R137: whether a scale is held for a seating that has not written its epoch. -/
def State.scaleHeld (s : State) (p lw b ls : Nat) : Bool :=
  (s.part p).seats.any (fun t => t.kind == .commit && t.lw == lw && t.bank == b && t.ls == ls)

/-- R38, R104, R110: a tile goes on at L3: its passes that have not issued are dropped. A tile of a product with a non-finite input only
closes (R91). One that has not begun waits while its scale is held (R137). -/
def State.sendToL3 (s : State) (p lw w : Nat) (d : Product) (id : Nat) : State :=
  match s.tile? p w id with
  | some t =>
    let s := (s.restoreGain p w d t).modWing p w (fun x => { x with waiting := x.waiting.filter (fun o => o.tile != id) })
    let s := s.modTile p w id (fun t => { t.toL3 with
      rung := if d.nonFinite == some true then t.rung else 3, held := !t.ran && s.scaleHeld p lw t.bank t.scale })
    s.settleTile p lw w d id
  | none => s

/-- R62, R103: a tile's term from its combined codes; empty where every pass skipped. -/
def tileTerm (t : Tile) (u : Nat) (sop : Num) (x : Scale) : List Nat :=
  if t.acc.isEmpty then []
  else
    let k := rne32 sop
    t.acc.zipIdx.map (fun e =>
      fmul (fmul (f32OfInt (e.1 * (u : Int))) k) (rne32 (fp16.decode (mapGet 0 x.f e.2).toNat)))

/-- The product units per step that a tile's term takes (R103). -/
def Tile.units (t : Tile) : Nat := if t.rung = 0 then unitsPerStep t.gain else 16

/-- R62, R103: the term that a tile's codes give, under the operation scale of its segment. -/
def State.termOf (s : State) (p w : Nat) (d : Product) (t : Tile) : List Nat :=
  match (s.wing p w).segOf t.product t.token (d.gscale t).rows (if t.rung = 2 then .high else .a4), s.tileScale? p w t with
  | some g, some sc => tileTerm t t.units (opScale g) (s.scale p w t.bank sc)
  | _, _ => []

/-- A tile with no pass to come closes: its term is formed (R62, R103). While its scale waits for an evaluation of the monitor the tile stays
open, because a deviation would repeat it (R99, R110). -/
def State.closeTile (s : State) (p lw w : Nat) (d : Product) (id : Nat) : State :=
  match s.tile? p w id with
  | some t =>
    let waits := match s.tileScale? p w t with
      | some sc => t.ran && (s.scale p w t.bank sc).mon.due
      | none => false
    if t.left = 0 && t.need = 0 && !t.closed && !waits then
      ((s.restoreGain p w d t).modTile p w id (fun u => { u with closed := true, term := s.termOf p w d t })).settleTile p lw w d id
    else s
  | none => s

/-! Segments (R50, R89, R101) -/

/-- The wings that a 1024-row block of a product feeds (R50). -/
def Product.wingsOf (d : Product) (rb : Nat) : List Nat :=
  (List.range 8).filter (fun w => d.groups.any (fun g => g.scales.any (fun x => x.wing == w && x.rows == rb)))

/-- Put segments on the vertical link of a wing. -/
def State.sendUp (s : State) (p w : Nat) (gs : List (Segment × Bool)) : State :=
  s.modPart p (fun x => { x with up := x.up ++ gs.map (fun g => { wing := w, wire := wireOf g.1, overflow := g.2 }) })

/-- The A4 segment of four quarters (R90). -/
def segmentA4 (product token rb clip : Nat) (qs : List (List Nat)) : Segment :=
  let es := adjustExps (qs.map (fun q => if allZero q then none else some (naturalExp clip q)))
  { product := product, token := token, rowBlock := rb, kind := .a4
    codes := (qs.zip es).flatMap (fun e => codesA4 e.2 e.1), scales := es.map scaleBits }

/-- The outliers of four quarters with their row in the 1024-row block (R90). -/
def segmentOutliers (clip : Nat) (qs : List (List Nat)) : List (List (Nat × Nat)) :=
  let es := adjustExps (qs.map (fun q => if allZero q then none else some (naturalExp clip q)))
  (qs.zip es).zipIdx.map (fun e => (outliersOf e.1.2 e.1.1).map (fun o => (256 * e.2 + o.1, o.2)))

/-- A segment of zeros (R91). -/
def zeroSegment (product token rb : Nat) : Segment :=
  { product := product, token := token, rowBlock := rb, kind := .a4, codes := List.replicate 1024 0, scales := List.replicate 4 0 }

/-- The two digit segments of R101, none where a quarter needs a scale above 2^15. -/
def segmentsA8 (product token rb : Nat) (qs : List (List Nat)) : Option (Segment × Segment) :=
  let natural := qs.map (fun q => if allZero q then none else some (a8Exp q))
  if natural.any (fun e => match e with | some v => 15 < v | none => false) then none
  else
    let es := adjustExps (natural.map (Option.map clampExp))
    let ds := (qs.zip es).flatMap (fun e => digitsOf e.2 e.1)
    let mk := fun (k : SegKind) (c : List (BitVec 4)) =>
      ({ product := product, token := token, rowBlock := rb, kind := k, codes := c, scales := es.map scaleBits } : Segment)
    some (mk .high (ds.map Prod.fst), mk .low (ds.map Prod.snd))

/-- A note that a tile has no analogue segment and runs at L3. -/
def noteL3 (product token rb : Nat) : Segment := { zeroSegment product token rb with kind := .high }

/-- Send what a tile at L2 needs to a wing (R101): the two digit segments, or the note that they cannot be built. -/
def State.sendDigits (s : State) (p w : Nat) (d : Product) (token rb : Nat) (qs : List (List Nat)) : State :=
  match segmentsA8 d.id token rb qs with
  | some (h, l) => s.sendUp p w [(h, false), (l, false)]
  | none => s.sendUp p w [(noteL3 d.id token rb, true)]

/-- Whether a digit segment of a block is on the link to a wing. -/
def State.digitsUp (s : State) (p lw : Nat) (d : Product) (token rb : Nat) : Bool :=
  (s.part p).up.any (fun u => u.wing == lw && u.wire.product == d.id && u.wire.token == token && u.wire.rowBlock == rb && u.wire.kind != .a4)

/-- R101: whether a tile's block has no L2 form, because a quarter needs a scale above 2^15. -/
def State.noDigits (s : State) (p : Nat) (d : Product) (token rb : Nat) : Bool :=
  match s.quarters? p d token rb with
  | some qs => (segmentsA8 d.id token rb qs).isNone
  | none => false

/-- R101, R108: the rung at which an escalated tile is repeated. -/
def State.repeatRung (s : State) (p : Nat) (d : Product) (t : Tile) : Nat :=
  if t.target = 2 && s.noDigits p d t.token (d.gscale t).rows then 3 else t.target

/-- R108, R109: a tile escalates: every term is discarded, the escalation counted, and the passes of the new rung go ahead of operations
that arrived after the tile's first. Digit segments that the wing does not hold are sent up once (R101). -/
def State.escalate (s : State) (p lw w : Nat) (d : Product) (t : Tile) : State :=
  let rb := (d.gscale t).rows
  let rung := s.repeatRung p d t
  let s := (s.modWing p w (fun x => { x with waiting := x.waiting.filter (fun o => o.tile != t.id) })).bump (.lad p) (3 + rung)
  if rung = 3 then s.sendToL3 p lw w d t.id
  else
    let again := { t with rung := rung, target := rung, acc := [], left := 0, need := if rung = 2 then 2 else 1, escal := true }
    let s := s.modTile p w t.id (fun _ => again)
    let kinds : List SegKind := if rung = 2 then [.high, .low] else [.a4]
    let here := kinds.filterMap (fun k => (s.wing p w).segOf d.id t.token rb k)
    let s := here.foldl (fun s g => s.feedTile p w t.id rung g) s
    if rung = 2 && here.isEmpty && !s.digitsUp p lw d t.token rb then
      match s.quarters? p d t.token rb with
      | some qs => s.sendDigits p lw d t.token rb qs
      | none => s
    else s

end Sys2Proof.Machine
end

