-- ==== Sys2Proof/Machine/Retire.lean ====
section
/-! DEFINITION. Retirement inside a Wing stack: column faults (R142), scale retirement (R143), wing failure (R145), and what becomes of
the tiles that were open (R38, R118). -/
namespace Sys2Proof.Machine

/-- R38, R118: the open tiles of a wing that the predicate names go on at L3. -/
def State.tilesToL3 (s : State) (p lw w : Nat) (hit : Tile → Bool) : State :=
  ((s.wing p w).tiles.filter (fun t => hit t && !t.closed)).foldl (fun s t =>
    match s.product? p t.product with
    | some d => s.sendToL3 p lw w d t.id
    | none => s) s

/-- The tiles of a logical scale that have begun on the scale that served it. -/
def Tile.begunOn (t : Tile) (b ls : Nat) : Bool := t.ran && t.bank == b && t.scale == ls

/-- R145: the spare wing takes over a logical wing and loads every scale; the tiles run at L3 until then. A seating that was writing the
failed wing goes on at the scale's spare, whose load writes every row (DESIGN CHOICE, log entry 75). -/
def State.takeOverWing (s : State) (p w lw v : Nat) : State :=
  let old := s.wing p w
  let s := (s.wr (.wing p v) WNG_STATE_role lw).raise (.wing p v) WNG_INT_wing_retired
  let s := s.wr (.wing p v) WNG_TOKENS_grant (s.rd (.wing p w) WNG_TOKENS_grant)
  let s := s.modWing p v (fun x => { x with tiles := x.tiles ++ old.tiles, nextTile := max x.nextTile old.nextTile,
                                            nextOp := max x.nextOp old.nextOp, openGroups := x.openGroups ++ old.openGroups,
                                            outQ := x.outQ ++ old.outQ, doneGroups := x.doneGroups ++ old.doneGroups })
  let s := s.each (List.range 32) (fun s b => s.each (List.range 512) (fun s ls =>
    match s.physScale? p v b ls with
    | some ps =>
      let s := s.modPart p (fun q => { q with seats := q.seats.map (fun t =>
        if t.kind == .commit && t.checked && t.pw == w && t.bank == b && t.ls == ls then { t with pw := v, ps := ps, rows := [] } else t) })
      (s.modScale p v b ps (fun x => { x with role := 3 })).queueLoad p .spareLoad lw b ls v ps
    | none => s))
  (s.tilesToL3 p lw v (fun _ => true)).syncWing p v

/-- R35, R145: a wing fails. W8 takes over its logical wing; without a spare wing the partition fails. Where W8 went to a wing of a higher
number in this tick, the lower one receives it first (R36). -/
def State.failWing (s : State) (p w : Nat) : State :=
  let lw := s.rd (.wing p w) WNG_STATE_role
  if lw = 0xE then s
  else
    let s := (s.wr (.wing p w) WNG_STATE_role 0xE).raise (.wing p w) WNG_INT_wing_retired
    let s := s.endCal p w
    let s := s.modPart p (fun x => { x with seats := x.seats.filter (fun t => t.kind == .commit || t.pw != w) })
    let s := s.interruptPart p (fun ty i => ty == 1 && i == w)
    if lw < 8 then
      match s.physWing? p 0xF with
      | some v =>
        let s := (s.takeOverWing p w lw v).claim p 0 w v
        ((s.setWing p w Wing.reset).wr (.wing p w) WNG_TOKENS_grant 0).syncWing p w
      | none =>
        (match s.outranked? p 0 w with
          | some v => s.wr (.wing p v) WNG_STATE_role lw
          | none => s).failPart p 2
    else s

/-- R143, R35: a scale is retired into its bank's lowest-numbered free spare scale, which loads; without one the wing fails, and a spare
that went to a scale of a higher number in this tick is the lower one's first (R36). Tiles that have begun on the scale complete at L3
(R118). A scale that served nothing only goes out of service. The spec does not say what becomes of a pin: a retired scale keeps its pin and
its place in LAD_PINNED, and its spare is not pinned (DESIGN CHOICE, log entry 75). -/
def State.retireScale (s : State) (p w b sc : Nat) : State :=
  let x := s.scale p w b sc
  if x.role = 4 ∨ x.role = 5 ∨ x.role = 0 then s
  else
    let s := ((s.modScale p w b sc (fun x => { x with role := 4 })).dropLoads p w b sc).countRetired p w b
    if x.role = 2 then s
    else
      let lw := s.rd (.wing p w) WNG_STATE_role
      match (List.range 528).find? (fun n => (s.scale p w b n).role == 2) with
      | none =>
        (match s.outranked? p (2 + 32 * w + b) sc with
          | some n => s.modScale p w b n (fun y => { y with logical := x.logical })
          | none => s).failWing p w
      | some n =>
        let s := s.claim p (2 + 32 * w + b) sc n
        let s := s.modPart p (fun q => { q with seats := q.seats.map (fun t =>
          if t.kind == .commit && t.pw == w && t.bank == b && t.ps == sc then { t with ps := n, rows := [] } else t) })
        let s := s.modScale p w b n (fun y => { y with role := if lw < 8 then 3 else 1, logical := x.logical })
        if lw < 8 then
          (s.queueLoad p .spareLoad lw b x.logical w n).tilesToL3 p lw w (fun t => t.begunOn b x.logical)
        else s

/-- R142: a fault of a scale's physical column: a free spare column takes its logical column and loads, while the scale's tiles run at L3
(R38); the sixth fault retires the scale. -/
def State.columnFault (s : State) (p w b sc col : Nat) : State :=
  let x := (s.scale p w b sc).faultInCal col
  if 5 ≤ x.faults then s.retireScale p w b sc
  else
    let use := if col < 258 then 1 else (x.colmap.getD (col - 258) (0, 0)).1
    let y := if col < 258 then x else x.setCol (col - 258) 3 (x.colmap.getD (col - 258) (0, 0)).2
    let s := s.bump (.wing p w) 5
    if use ≠ 1 then s.setScale p w b sc y
    else
      match y.freeColumn, (if col < 258 then some col else x.logicalOf col) with
      | some n, some j =>
        let lw := s.rd (.wing p w) WNG_STATE_role
        let y := y.setCol n 1 j
        if x.role = 2 ∨ 8 ≤ lw then s.setScale p w b sc y
        else
          ((s.setScale p w b sc { y with role := 3 }).queueLoad p .columnLoad lw b x.logical w sc).tilesToL3 p lw w
            (fun t => t.begunOn b x.logical)
      | _, _ => s.setScale p w b sc y

/-- R145: a wing whose rail has failed. The spec names no event that brings a vertical-link fault, and no row of the table is one: only a
power fault comes here (log entry 75). -/
def State.wingFault (s : State) (p w : Nat) : State := (s.wr (.wing p w) WNG_STATE_power 3).failWing p w

end Sys2Proof.Machine
end

