-- ==== Sys2Proof/Machine/Analogue.lean ====
section
/-! DEFINITION. Analogue products: ANALOGUE, ROTATE_BLOCK, ACTIVATION_SEGMENT, SCALE_OPERATION, SCALE_OPERATION_END, L3_TILE and
PRODUCT_OUTPUT (R50–R105, R270). -/
namespace Sys2Proof.Machine

/-! ANALOGUE (R270) -/

/-- R270: whether a column group table is well formed for its widths. -/
def tableOk (kp n : Nat) (gs : List Group) : Bool :=
  kp != 0 && n != 0 && kp % 256 == 0 &&
  gs.all (fun g =>
    1 ≤ g.scales.length && g.scales.length ≤ 256 && decide (g.col < (n + 255) / 256) &&
    g.scales.all (fun x => x.wing == (g.scales.getD 0 ⟨0, 0, 0, 0⟩).wing && decide (x.rows < (kp + 1023) / 1024)))

/-- Open a product for a command that issues. -/
def State.openProduct (s : State) (p layer src dst tokens kp n : Nat) (gs : List Group) : State :=
  s.modPart p (fun x =>
    { x with
      nextProd := x.nextProd + 1
      products := x.products ++
        [{ id := x.nextProd, layer := layer, src := src, dst := dst, tokens := tokens, kp := kp, n := n, groups := gs
           nonFinite := none, poisoned := false, outputs := [] }] })

/-- ANALOGUE (R266, R270, R271): the command's checks, then an open product. A table or layer entry that is poisoned leaves the
command unexecuted (R369). -/
def execAnalogue (p : PartId) (c : Cmd) (s : State) : Host.Outcome State Fault Refusal :=
  .next (s.issueNeeding p.val c 0 (fun l =>
    let tokens := bits c.d.toNat 0 32
    let layer := bits c.d.toNat 32 12
    match cmdAddress c l.step c.a, cmdAddress c l.step c.b, cmdAddress c l.step c.c with
    | some src, some dst, some tab =>
      if bits c.d.toNat 44 20 ≠ 0 then s.issueFault p.val l 4
      else if s.layers p.val ≤ layer then s.issueFault p.val l 8
      else if !s.reach p.val tab 8 then s.operandFault p.val c l [c.a, c.b, c.c]
      else
        let w := fun i => s.word (tab + 8 * i) 8
        match readGroups w 0x20_0000 1 with
        | none => s.issueFault p.val l 4
        | some (gs, len) =>
          let kp := bits (w 0) 0 32
          let n := bits (w 0) 32 32
          if layerWide (s.layerEntry p.val layer) || !tableOk kp n gs then s.issueFault p.val l 4
          else if !(s.reach p.val tab (8 * len) && s.reach p.val src (tokens * kp * 4) &&
              s.reach p.val dst (tokens * n * 4)) then s.operandFault p.val c l [c.a, c.b, c.c]
          else if s.poisonedIn tab (8 * len) || s.poisonedIn (s.mapBase p.val + 8 * layer) 8 then s
          else if tokens = 0 then (s.issue p.val 3 c l .done)
          else
            (s.issue p.val 3 c l (.product (s.part p.val).nextProd)).openProduct p.val layer src dst tokens kp n gs
    | _, _, _ => s.operandFault p.val c l [c.a, c.b, c.c]))

/-! ROTATE_BLOCK (R85–R93, R211) -/

/-- The FP32 input block of a product's token. -/
def State.inputBlock (s : State) (d : Product) (token block : Nat) : List Nat :=
  s.words32 (d.src + 4 * (token * d.kp + 256 * block)) 256

/-- R91: whether some element of the product's input is non-finite, before or after rotation. -/
def State.inputNonFinite (s : State) (d : Product) (seed : Nat) : Bool :=
  (List.range d.tokens).any (fun t => (List.range (d.kp / 256)).any (fun b =>
    let x := s.inputBlock d t b
    x.any (fun v => !(f32 v).isFinite) || (rotate seed x).any (fun v => !(f32 v).isFinite)))

/-- Examine a product's input once (R91, R368). -/
def State.examine (s : State) (p : Nat) (d : Product) (seed : Nat) : State :=
  match d.nonFinite with
  | some _ => s
  | none =>
    let nf := s.inputNonFinite d seed
    let s := s.modProduct p d.id (fun d => { d with nonFinite := some nf, poisoned := s.poisonedIn d.src (d.tokens * d.kp * 4) })
    if nf then (s.bump (.lad p) 8).raiseNf p else s

/-- R89–R93: a 1024-row block whose quarters have been rotated is quantised and its segments are sent to the wings that use
them. -/
def State.sendSegments (s : State) (p : Nat) (d : Product) (token rb : Nat) (qs : List (List Nat)) : State :=
  if d.nonFinite == some true || d.poisoned then
    s.each (d.wingsOf rb) (fun s w => s.sendUp p w [(zeroSegment d.id token rb, false)])
  else
    let rung := layerRung (s.layerEntry p d.layer)
    let clip := s.rd (.lad p) LAD_QUANT_clip
    let outs := segmentOutliers clip qs
    let spilled := if rung < 2 then (outs.filter (fun o => 8 < o.length)).length else 0
    let spills := spilled != 0
    let s := (List.range spilled).foldl (fun s _ => s.signalTrouble p 1 LAD_FLAGS_overflow) s
    let s := if rung < 2 then
        s.modPart p (fun x => { x with outliers := x.outliers ++ (outs.flatMap (fun o => o.take 8)).map (fun o =>
          { product := d.id, token := token, rowBlock := rb, row := o.1, r := o.2 }) })
      else s
    s.each (d.wingsOf rb) (fun s w =>
      if rung = 3 then s.sendUp p w [(noteL3 d.id token rb, true)]
      else if rung = 2 || (spills && s.normalService p) then s.sendDigits p w d token rb qs
      else s.sendUp p w [(segmentA4 d.id token rb clip qs, false)])

/-- ROTATE_BLOCK (R87): the rotation unit completes a 256-element block, of an open product's token or in transpose mode. -/
def execRotateBlock (p : PartId) (job : RotJob) (s : State) : Host.Outcome State Fault Refusal :=
  .next (if s.stopped (isRotation p.val) then s else match job with
    | .forward product token block =>
      match s.product? p.val product with
      | some d =>
        if d.tokens ≤ token ∨ d.kp / 256 ≤ block ∨ (s.rotated? p.val product token block).isSome then s
        else
          let seed := layerSeed (s.layerEntry p.val d.layer)
          let s := s.examine p.val d seed
          let x := rotate seed (s.inputBlock d token block)
          let s := s.modPart p.val (fun q => { q with rot := q.rot ++
            [{ product := product, token := token, block := block, x := x }] })
          let s := s.progress (.lad p.val)
          match s.product? p.val product with
          | some d =>
            match s.quarters? p.val d token (block / 4) with
            | some qs => s.sendSegments p.val d token (block / 4) qs
            | none => s
          | none => s
      | none => s
    | .transpose layer src dst =>
      if s.layers p.val ≤ layer then s
      else if !(s.reach p.val src.toNat 1024 && s.reach p.val dst.toNat 1024) then s.bump (.thx p.val) 4
      else
        let x := rotateT (layerSeed (s.layerEntry p.val layer)) (s.words32 src.toNat 256)
        let bad := if s.poisonedIn src.toNat 1024 then granules dst.toNat 1024 else []
        (s.putWords32 dst.toNat x bad).progress (.lad p.val))

/-! ACTIVATION_SEGMENT (R49, R50) -/

/-- The positions that a segment of a product feeds in a wing: group and place. -/
def Product.fedBy (d : Product) (lw rb : Nat) : List (Nat × Nat) :=
  d.groups.zipIdx.flatMap (fun g => (g.1.scales.zipIdx.filter (fun x => x.1.wing == lw && x.1.rows == rb)).map (fun x => (g.2, x.2)))

/-- Create a tile, under the mode in effect (R112). -/
def State.addTile (s : State) (p lw w : Nat) (d : Product) (g : Segment) (gi pos rung : Nat) : State :=
  let gs := (d.groups.getD gi ⟨[], 0⟩).scales.getD pos ⟨0, 0, 0, 0⟩
  s.modWing p w (fun x =>
    { x with
      tiles := x.tiles ++
        [newTile x.nextTile d.id g.token gi pos gs rung (s.normalService p) (s.scaleHeld p lw gs.bank gs.scale)]
      nextTile := x.nextTile + 1 })

/-- Whether the column block of a group has been written for a token. -/
def Product.written (d : Product) (token gi : Nat) : Bool := d.outputs.contains (token, (d.groups.getD gi ⟨[], 0⟩).col)

/-- R49: the tiles of a malformed segment deliver non-finite outputs and run no further operation. -/
def State.refuseSegment (s : State) (p lw w : Nat) (d : Product) (g : Segment) : State :=
  (d.fedBy lw g.rowBlock).foldl (fun s e =>
    if d.written g.token e.1 then s
    else
      let s := match (s.wing p w).tileOf d.id g.token e.1 e.2 with
        | some _ => s
        | none => s.addTile p lw w d g e.1 e.2 0
      match (s.wing p w).tileOf d.id g.token e.1 e.2 with
      | some t =>
        let s := s.modWing p w (fun x => { x with waiting := x.waiting.filter (fun o => o.tile != t.id) })
        let s := s.modTile p w t.id (fun t => { t.toL3 with target := t.rung, term := List.replicate 256 fp32.nan })
        s.finishGroup p w d g.token e.1
      | none => s) s

/-- R101: a tile bound for L2 whose segment cannot be built runs at L3: it counts in normal service and is flagged in flag
mode; a tile whose recipe is L3 only runs there. -/
def State.takeNote (s : State) (p lw w : Nat) (d : Product) (g : Segment) : State :=
  (d.fedBy lw g.rowBlock).foldl (fun s e =>
    if d.written g.token e.1 then s
    else
      let s := match (s.wing p w).tileOf d.id g.token e.1 e.2 with
        | some _ => s
        | none => s.addTile p lw w d g e.1 e.2 2
      match (s.wing p w).tileOf d.id g.token e.1 e.2 with
      | some t =>
        if t.closed || t.rung != 2 then s
        else
          let s := if s.startRung p d = 3 then s
            else if t.normal then s.bump (.lad p) 6 else s.flagTrouble p LAD_FLAGS_overflow
          s.sendToL3 p lw w d t.id
      | none => s) s

/-- A well-formed segment reaches a wing: it is kept for the tiles that drive it, and each tile it feeds takes its passes. -/
def State.takeSegment (s : State) (p lw w : Nat) (d : Product) (g : Segment) : State :=
  let s := s.modWing p w (fun x => { x with segs := x.segs ++ [g] })
  (d.fedBy lw g.rowBlock).foldl (fun s e =>
    if d.written g.token e.1 then s
    else
      let rung := if g.kind = .a4 then (if d.nonFinite == some true || d.poisoned then 0 else min 1 (s.startRung p d)) else 2
      let s := match (s.wing p w).tileOf d.id g.token e.1 e.2 with
        | some _ => s
        | none =>
          let s := s.addTile p lw w d g e.1 e.2 rung
          if rung = 2 && s.startRung p d < 2 && s.normalService p then s.bump (.lad p) 5 else s
      match (s.wing p w).tileOf d.id g.token e.1 e.2 with
      | some t => if t.closed || t.rung != rung || t.need = 0 then s else s.feedTile p w t.id rung g
      | none => s) s

/-- The next segment on the vertical link of a logical wing, taken off it. -/
def State.nextUp (s : State) (p lw : Nat) : Option (UpSegment × State) :=
  match (s.part p).up.find? (fun u => u.wing == lw) with
  | some u => some (u, s.modPart p (fun x => { x with up := x.up.erase u }))
  | none => none

/-- ACTIVATION_SEGMENT (R50): a logical wing receives the next segment of its link, or one that a stream writes directly. It decodes the
17 granules and broadcasts the segment to every scale that it feeds. -/
def execActivationSegment (p : PartId) (w : Fin 8) (direct : Option WireSegment) (s : State) :
    Host.Outcome State Fault Refusal :=
  let next := match direct with
    | some g => some ((⟨w.val, g, false⟩ : UpSegment), s)
    | none => s.nextUp p.val w.val
  .next (match next, s.physWing? p.val w.val with
    | some (u, t), some pw =>
      let g := segmentOf u.wire
      let bad := !u.overflow && malformed g
      let t := if bad then (t.bump (.wing p.val pw) 3).raise (.wing p.val pw) WNG_INT_segment_malformed else t
      match t.product? p.val g.product with
      | some d =>
        if bad then t.refuseSegment p.val w.val pw d g
        else if u.overflow then t.takeNote p.val w.val pw d g
        else t.takeSegment p.val w.val pw d g
      | none => t
    | _, _ => s)

/-! SCALE_OPERATION (R51, R59, R64, R69, R76) -/

/-- Whether a wing may issue to its scales: on and calibrated (R398). -/
def State.wingReady (s : State) (p w : Nat) : Bool :=
  s.rd (.wing p w) WNG_STATE_power == 2 && s.on (.wing p w) WNG_STATE_calibrated

/-- Take the front operation of a wing off its queue. -/
def State.popOp (s : State) (p w : Nat) : State := s.modWing p w (fun x => { x with waiting := x.waiting.drop 1 })

/-- R76: whether an operation may issue: the wing is below its grant, there is room for a whole group's output (R69), a new
group stays within 2,048 (R64), the scale is free, and no engine reset of the periphery is under way (R331). -/
def State.mayIssue (s : State) (p w sc : Nat) (d : Product) (t : Tile) : Bool :=
  let x := s.wing p w
  decide (x.running.length < s.rd (.wing p w) WNG_TOKENS_grant) && !x.outFull && !s.stopped (isWing p w) &&
  (x.openGroups.contains (d.id, t.token, t.group) || decide (x.openGroups.length < 2048)) &&
  !x.operates t.bank sc

/-- R55, R109: the gain of a tile's next operation: at L0 the layer's, or the one that a management action has set (R28, log entry 76). -/
def State.opGain (s : State) (p : Nat) (x : Scale) (d : Product) (t : Tile) : Nat :=
  if t.rung ≠ 0 then 0 else if x.managed then x.gain else layerGain (s.layerEntry p d.layer)

/-- Issue an operation of a tile at its rung's gain (R55, R109). A tile opens with its first, under the mode in effect (R112). -/
def State.startOp (s : State) (p w sc : Nat) (d : Product) (t : Tile) (o : ScaleOp) : State :=
  let g := s.opGain p (s.scale p w t.bank sc) d t
  let normal := if t.ran then t.normal else s.normalService p
  let s := s.modWing p w (fun x =>
    { x with waiting := x.waiting.drop 1, running := x.running ++ [{ o with gain := g, bank := t.bank, sc := sc }],
             openGroups := if x.openGroups.contains (d.id, t.token, t.group) then x.openGroups
               else x.openGroups ++ [(d.id, t.token, t.group)] })
  let s := s.modTile p w t.id (fun t => { t with ran := true, gain := g, normal := normal })
  let s := s.modScale p w t.bank sc (fun x => { x with gain := g, managed := x.managed && t.rung != 0 })
  let s := (s.syncWing p w).toCycle
  s.tagProduct p d.id (fun g => { g with ops := g.ops + 1, started := if g.started = 0 then s.nowNs else g.started })

/-- R38, R110: whether a tile runs at L3 whatever its codes: its scale is being loaded, or pinned under normal service. The segments of a
product with a non-finite or poisoned input only skip (R91). -/
def Scale.digital (x : Scale) (d : Product) (normal : Bool) : Bool :=
  (x.role == 3 || (x.pinned && normal)) && d.nonFinite != some true && !d.poisoned

/-- R110: a tile of a pinned scale goes on at L3; one that has begun is escalated to it by the deviation (R99). -/
def State.sendDigital (s : State) (p lw w : Nat) (d : Product) (t : Tile) (x : Scale) : State :=
  (if x.pinned && t.normal && t.ran then s.bump (.lad p) 6 else s).sendToL3 p lw w d t.id

/-- SCALE_OPERATION (R51): the front operation of a logical wing issues, skips, or goes to L3 where its scale is pinned or being
loaded. It waits while its scale is held, an escalated tile of the wing keeps it back (R109), a row restore of its bank is due (R72), a
power action waits (R27), or the wing has no grant, room or group left. -/
def execScaleOperation (p : PartId) (w : Fin 8) (s : State) : Host.Outcome State Fault Refusal :=
  .next (match s.physWing? p.val w.val with
    | none => s
    | some pw =>
      let s := s.syncWing p.val pw
      match (s.wing p.val pw).waiting with
      | [] => s
      | o :: _ =>
        match s.tile? p.val pw o.tile with
        | none => s.popOp p.val pw
        | some t =>
          match s.product? p.val t.product with
          | none => s.popOp p.val pw
          | some d =>
            if !s.wingReady p.val pw || (!t.ran && s.scaleHeld p.val w.val t.bank t.scale) || (s.wing p.val pw).heldBack o ||
                s.powerWaits p.val pw then s
            else
              match (s.wing p.val pw).segOf t.product t.token (d.gscale t).rows o.pass.kind, s.tileScale? p.val pw t with
              | some g, some sc =>
                let x := s.scale p.val pw t.bank sc
                if x.digital d (if t.ran then t.normal else s.normalService p.val) then s.sendDigital p.val w.val pw d t x
                else if (driven g o.pass.lo o.pass.hi).isEmpty then
                  ((s.popOp p.val pw).modTile p.val pw t.id (fun t => { t with left := t.left - 1 })).closeTile p.val w.val pw d t.id
                else if !s.restoreDue p.val pw t.bank && s.mayIssue p.val pw sc d t then s.startOp p.val pw sc d t o
                else s
              | _, none => s.sendToL3 p.val w.val pw d t.id
              | none, _ => s.popOp p.val pw)

/-! SCALE_OPERATION_END (R51–R65, R95–R99, R108) -/

/-- The count at which the monitor evaluates a scale (R98, R119). -/
def State.monWindow (s : State) (p : Nat) : Nat := 2 ^ max 6 (min 20 (s.rd (.lad p) LAD_MON_CTL_window))

/-- R97, R388: an operation enters the scale's monitor and its drift sum; an evaluation falls due as n reaches the window (R98). -/
def Scale.observe (x : Scale) (g window : Nat) (rows : List (Nat × Int)) (m : Reading) : Scale :=
  let dev := m.deviation g rows
  let mon := x.mon.add (!m.saturated) m.disagreement (bandV x g (actNorm rows)) dev
  let y := { x with mon := { mon with due := decide (window ≤ mon.n) } }
  match dev with
  | some e => { y with driftSum := y.driftSum + e, driftN := y.driftN + 1 }
  | none => y

/-- R95: whether the operation's disagreement lies outside the band. -/
def State.disagrees (s : State) (p : Nat) (x : Scale) (g : Nat) (rows : List (Nat × Int)) (m : Reading) : Bool :=
  !m.saturated &&
  (Num.ofInt m.disagreement).abs.gt (f32 (band (s.rd (.lad p) LAD_CTL_beta) (bandV x g (actNorm rows))))

/-- R103: add a pass's codes, by weight, to a tile's combined codes. -/
def addCodes (acc : List Int) (weight : Nat) (codes : List Int) : List Int :=
  if acc.isEmpty then codes.map (fun c => weight * c) else List.zipWith (fun a c => a + weight * c) acc codes

/-- R99, R111: the signals of an operation are counted, and under flag mode flagged. -/
def State.opSignals (s : State) (p : Nat) (normal sat chk : Bool) : State :=
  let one := fun (s : State) (n : Nat) (f : Field) => let s := s.bump (.lad p) n; if normal then s else s.flagTrouble p f
  let s := if sat then one s 0 LAD_FLAGS_saturation else s
  if chk then one s 2 LAD_FLAGS_checksum else s

/-- The end of an operation (R51): every one is converted, checked and observed (R56, R58, R95, R97), whatever becomes of its tile. The codes
of a closed tile are discarded (R108); a tile whose scale has been retired, is being loaded or is pinned goes on at L3 (R110, R118);
else the tile takes the codes, and escalates or closes. -/
def State.endOp (s : State) (p lw w : Nat) (d : Product) (t : Tile) (o : ScaleOp) (g : Segment) : State :=
  let x := s.scale p w o.bank o.sc
  let rows := driven g o.pass.lo o.pass.hi
  let m := readScale x o.gain s.nDraw rows
  let s := { s with nDraw := s.nDraw + 258 }
  let s := if m.saturated || m.ref.2 then s.bump (.wing p w) 0 else s
  let chk := s.disagrees p x o.gain rows m
  let s := s.setScale p w o.bank o.sc (x.observe o.gain (s.monWindow p) rows m)
  let s := s.opSignals p t.normal m.saturated chk
  if t.closed then s
  else if x.role != 1 || x.digital d t.normal then s.sendDigital p lw w d t x
  else
    let target := if (m.saturated || chk) && t.normal then t.rung + 1 else t.rung
    let t' := { t with acc := addCodes t.acc o.pass.weight (m.codes.map Prod.fst), left := t.left - 1, target := target }
    let s := s.modTile p w t.id (fun _ => t')
    if target ≠ t.rung then s.escalate p lw w d t' else s.closeTile p lw w d t.id

/-- R62: a running operation ends: it leaves its token, its codes latch, the checks run and the tile takes them. -/
def State.endRunning (s : State) (p lw w : Nat) (o : ScaleOp) : State :=
  let s := s.modWing p w (fun x => { x with running := x.running.filter (fun r => r.id != o.id) })
  let s := (s.syncWing p w).progress (.wing p w)
  match s.tile? p w o.tile with
  | none => s
  | some t =>
    match s.product? p t.product with
    | none => s
    | some d =>
      match (s.wing p w).segOf t.product t.token (d.gscale t).rows o.pass.kind with
      | some g => s.endOp p lw w d t o g
      | none => s

/-- SCALE_OPERATION_END up to its boundary (R62). It waits while an evaluation of the scale's monitor is due (R98). -/
def State.endOperation (s : State) (p lw w id : Nat) : State :=
  match (s.wing p w).running.find? (fun o => o.id == id) with
  | none => s
  | some o => if (s.scale p w o.bank o.sc).mon.due then s else s.endRunning p lw w o

/-! L3_TILE (R104) -/

/-- The exponent of a quarter's FP8 scale (R104). -/
def l3Exp (q : List Nat) : Int := (f32 (fdiv (maxAbs q) 0x43E0_0000)).ceilLog2

/-- R158: the sum of a quarter's products with a column of levels, in groups of 32. -/
def l3Sum (xs : List Num) (levels : List Int) : Nat :=
  (List.range 8).foldl (fun acc g =>
    let ps := List.zipWith (fun x l => x.mul (Num.ofInt l)) ((xs.drop (32 * g)).take 32) ((levels.drop (32 * g)).take 32)
    let e := ps.foldl Num.add (.fin false 0 0)
    fadd acc (if e.isZero then 0 else rne32 e)) 0

/-- R104: the term of one column. -/
def l3Term (qs : List (List Nat)) (levels : List Int) (f : Nat) : Nat :=
  let acc := qs.zipIdx.foldl (fun acc e =>
    if allZero e.1 then acc
    else
      let k := l3Exp e.1
      let xs := e.1.map (fun x => e4m3.decode (e4m3.encode (scaled2 x k)))
      fadd acc (fmul (l3Sum xs ((levels.drop (256 * e.2)).take 256)) (rne32 (.pow2 k)))) 0
  fmul acc f

/-- The f of a side record's column as an FP32 pattern (R140, R203). -/
def State.sideF (s : State) (p lw b ls j : Nat) : Nat :=
  rne32 (fp16.decode (s.word (s.sideAt p lw b ls + 0x200 + 2 * j) 2))

/-- R106: the level code of the mirror at `a` as it stood when the tile opened. -/
def State.tileLevel (s : State) (a : Nat) (t : Tile) (r j : Nat) : Nat :=
  match mapFind t.old (r * 256 + j) with
  | some v => v
  | none => s.nibble (a + 128 * r) j

/-- L3_TILE (R104): Thorax forms the exact term of a tile that runs at L3 against the level mirror. A mirror or side record that
is poisoned poisons the term (R368). A tile that reached its scale while it was held waits for the epoch (R137). -/
def execL3Tile (p : PartId) (w : Fin 8) (tile : Nat) (s : State) : Host.Outcome State Fault Refusal :=
  .next (match s.physWing? p.val w.val with
    | none => s
    | some pw =>
      match s.tile? p.val pw tile with
      | none => s
      | some t =>
        match s.product? p.val t.product with
        | none => s
        | some d =>
          match s.quarters? p.val d t.token (d.gscale t).rows with
          | none => s
          | some qs =>
            if t.rung ≠ 3 ∨ !t.closed ∨ !t.l3.isEmpty ∨ (t.held && s.scaleHeld p.val w.val t.bank t.scale) then s
            else
              let a := s.mirrorAt p.val w.val t.bank t.scale
              let level := fun (r j : Nat) => levelOf (s.tileLevel a t r j)
              let term := fun (j : Nat) =>
                l3Term qs ((List.range 1024).map (fun r => level r j)) (s.sideF p.val w.val t.bank t.scale j)
              let bad := s.poisonedIn a 131072 || s.poisonedIn (s.sideAt p.val w.val t.bank t.scale + 0x200) 512
              s.guarded p.val (s.scaleRanges p.val w.val t.bank t.scale)
                (s.modTile p.val pw tile (fun t => { t with l3 := (List.range 256).map term, bad := bad })))

/-! PRODUCT_OUTPUT (R92, R105) -/

/-- The granules of a column group that the vertical link has brought down (R66). -/
def State.groupQueued (s : State) (p : Nat) (d : Product) (token gi : Nat) : List OutGranule :=
  (s.part p).delivered.filter (fun g => g.ofGroup d.id token gi)

/-- The tiles of a column group in list order. -/
def State.groupTiles (s : State) (p : Nat) (d : Product) (token gi : Nat) : List Tile :=
  let g := d.groups.getD gi ⟨[], 0⟩
  match s.physWing? p (g.scales.getD 0 ⟨0, 0, 0, 0⟩).wing with
  | some w => (List.range g.scales.length).filterMap (fun pos => (s.wing p w).tileOf d.id token gi pos)
  | none => []

/-- Whether a column group has all that its output takes. -/
def State.groupReady (s : State) (p : Nat) (d : Product) (token gi : Nat) : Bool :=
  (s.groupQueued p d token gi).length == 11 &&
  (s.groupTiles p d token gi).all (fun t => t.rung != 3 || !t.l3.isEmpty)

/-- R92: the corrections of a tile in row order for one column. -/
def State.corrections (s : State) (p : Nat) (d : Product) (t : Tile) (j : Nat) : List Nat :=
  let x := d.gscale t
  let a := s.mirrorAt p x.wing t.bank t.scale
  ((s.part p).outliers.filter (fun o => o.product == d.id && o.token == t.token && o.rowBlock == x.rows)).map (fun o =>
    fmul (fmul o.r (f32OfInt (levelOf (s.tileLevel a t o.row j)))) (s.sideF p x.wing t.bank t.scale j))

/-- R165: the mirrors and side records that the corrections of a group read. -/
def State.correctionRanges (s : State) (p : Nat) (d : Product) (token gi : Nat) : List (Nat × Nat) :=
  (s.groupTiles p d token gi).flatMap (fun t =>
    let x := d.gscale t
    if t.rung ≤ 1 && t.ran && (s.part p).outliers.any (fun o => o.product == d.id && o.token == token && o.rowBlock == x.rows) then
      s.scaleRanges p x.wing t.bank t.scale
    else [])

/-- R105: one column of a group: VL10 output, L3 terms in list order, corrections in list and row order. -/
def State.groupColumn (s : State) (p : Nat) (d : Product) (token gi j : Nat) : Nat :=
  let gs := s.groupQueued p d token gi
  let ts := s.groupTiles p d token gi
  let y := vl10Decode (match gs.find? (fun g => g.index == j / 24) with | some g => g.bits | none => 0) (j % 24)
  let y := ts.foldl (fun y t => if t.rung = 3 then fadd y (t.l3.getD j 0) else y) y
  ts.foldl (fun y t => if t.rung ≤ 1 && t.ran then (s.corrections p d t j).foldl fadd y else y) y

/-- R368: whether a group's outputs are poisoned: its product's input was, an L3 term was, or a mirror row or f that a
correction reads is. -/
def State.groupPoisoned (s : State) (p : Nat) (d : Product) (token gi : Nat) : Bool :=
  d.poisoned || (s.groupTiles p d token gi).any (fun t =>
    t.bad || (t.rung ≤ 1 && t.ran &&
      let x := d.gscale t
      let os := (s.part p).outliers.filter (fun o => o.product == d.id && o.token == token && o.rowBlock == x.rows)
      !os.isEmpty && (s.poisonedIn (s.sideAt p x.wing t.bank t.scale + 0x200) 512 ||
        os.any (fun o => s.poisonedIn (s.mirrorAt p x.wing t.bank t.scale + 128 * o.row) 128))))

/-- R61: the outputs of the groups of one column block, each formed under R105, added in table order. -/
def State.columnOutput (s : State) (p : Nat) (d : Product) (token : Nat) (gis : List Nat) (j : Nat) : Nat :=
  match gis with
  | [] => 0
  | g :: rest => rest.foldl (fun y g => fadd y (s.groupColumn p d token g j)) (s.groupColumn p d token g j)

/-- A column group whose output is formed leaves nothing behind: its granules and its tiles. -/
def State.dropGroup (s : State) (p : Nat) (d : Product) (token gi : Nat) : State :=
  let s := s.modPart p (fun x => { x with delivered := x.delivered.filter (fun g => !g.ofGroup d.id token gi) })
  match s.physWing? p ((d.groups.getD gi ⟨[], 0⟩).scales.getD 0 ⟨0, 0, 0, 0⟩).wing with
  | some w => s.modWing p w (fun x =>
      { x with tiles := x.tiles.filter (fun t => t.product != d.id || t.token != token || t.group != gi) })
  | none => s

/-- A product whose every output is written closes: its blocks, outliers and segments are dropped. -/
def State.closeProduct (s : State) (p id : Nat) : State :=
  let s := s.modPart p (fun x =>
    { x with products := x.products.filter (fun d => d.id != id), rot := x.rot.filter (fun b => b.product != id),
             outliers := x.outliers.filter (fun o => o.product != id), up := x.up.filter (fun u => u.wire.product != id) })
  s.each (List.range 9) (fun s w => s.modWing p w (fun x => { x with segs := x.segs.filter (fun g => g.product != id) }))

/-- The column blocks of a product's table. -/
def Product.cols (d : Product) : List Nat := (d.groups.map (fun g => g.col)).eraseDups

/-- R105: form and write the outputs of a column block of a token, all of whose groups have come down. -/
def State.writeOutput (s : State) (p : Nat) (d : Product) (token col : Nat) (gis : List Nat) : State :=
  let n := min 256 (d.n - 256 * col)
  let nan := d.nonFinite == some true
  let ys := (List.range n).map (fun j => if nan then fp32.nan else s.columnOutput p d token gis j)
  let at_ := d.dst + 4 * (token * d.n + 256 * col)
  let bad := if gis.any (fun gi => s.groupPoisoned p d token gi) then granules at_ (4 * n) else []
  let s := s.putWords32 at_ ys bad
  let s := gis.foldl (fun s gi => s.dropGroup p d token gi) s
  let s := s.modProduct p d.id (fun d => { d with outputs := d.outputs ++ [(token, col)] })
  if d.outputs.length + 1 = d.tokens * d.cols.length then s.closeProduct p d.id else s

/-- PRODUCT_OUTPUT (R66, R105): the vertical link brings the groups of a column block down, in its turns, and their outputs are formed and
written to the output array. It waits while a group or an L3 term of the block is not there. -/
def execProductOutput (p : PartId) (product token group : Nat) (s : State) : Host.Outcome State Fault Refusal :=
  .next (match s.product? p.val product with
    | none => s
    | some d =>
      let col := (d.groups.getD group ⟨[], 0⟩).col
      let gis := (List.range d.groups.length).filter (fun gi => (d.groups.getD gi ⟨[], 0⟩).col == col)
      if d.groups.length ≤ group ∨ d.tokens ≤ token ∨ d.written token group then s
      else
        let t := s.deliver p.val d.id token gis (s.linkLoad p.val)
        if gis.all (fun gi => t.groupReady p.val d token gi) then
          t.guarded p.val (gis.flatMap (fun gi => t.correctionRanges p.val d token gi)) (t.writeOutput p.val d token col gis)
        else s)

end Sys2Proof.Machine
end

