-- ==== Sys2Proof/Machine/Steps.lean ====
section
/-! DEFINITION. Step boundaries and what follows from them: STEP_BOUNDARY with the ladder record, the mode change and the
monitor's evaluation (R98, R112, R116, R339), storms (R117), pins (R110). -/
namespace Sys2Proof.Machine

/-! Pins and the statistical monitor -/

/-- R110: a scale is pinned and triggers a calibration of its wing. -/
def State.pinScale (s : State) (p w b sc : Nat) : State :=
  if (s.scale p w b sc).pinned then s
  else
    let s := s.modScale p w b sc (fun x => { x with pinned := true, pinCal := false })
    ((s.addReg (.lad p) LAD_PINNED_count 1).raise (.lad p) LAD_INT_scale_pinned).trigger p w .monitor

/-- R98: whether the accumulators show a deviation, under a drift limit in FP16. -/
def Monitor.deviates (m : Monitor) (lim : Nat) : Bool :=
  (64 ≤ m.nd && (Num.ofInt m.sd).abs.gt ((fp16.decode lim).mul (Num.ofInt m.nd))) ||
  (f32 (fabs m.sD)).gt (f32 (fmul 0x40C0_0000 (fsqrt m.sV))) ||
  (f32 m.sDD).gt (f32 (fmul 0x4000_0000 m.sV))

/-- R99, R110: what becomes of the open tiles that have begun on a scale once it has been evaluated: a deviation in normal service
escalates them to L3, which ERRCNT 6 counts (R121); the others close where only the evaluation kept them open. -/
def State.afterEvaluation (s : State) (p w b sc : Nat) (deviation : Bool) : State :=
  let x := s.scale p w b sc
  let lw := s.rd (.wing p w) WNG_STATE_role
  if x.role ≠ 1 then s
  else ((s.wing p w).tiles.filter (fun t => t.begunOn b x.logical && !t.closed)).foldl (fun s t =>
    match s.product? p t.product with
    | some d => if deviation && t.normal then (s.bump (.lad p) 6).sendToL3 p lw w d t.id else s.closeTile p lw w d t.id
    | none => s) s

/-- R98: evaluate a scale's accumulators and clear them; a deviation pins the scale in normal service and is flagged in flag
mode (R111). -/
def State.evaluate (s : State) (p w b sc : Nat) : State :=
  let m := (s.scale p w b sc).mon
  let s := s.modScale p w b sc (fun x => { x with mon := { Monitor.reset with since := (s.part p).boundaries } })
  if m.deviates (s.rd (.lad p) LAD_MON_CTL_drift_lim) then
    let s := s.bump (.lad p) 3
    if s.normalService p then (s.pinScale p w b sc).afterEvaluation p w b sc true
    else (s.flagTrouble p LAD_FLAGS_monitor).afterEvaluation p w b sc false
  else s.afterEvaluation p w b sc false

/-- The keys of a partition's scales: wing, bank and scale of each listed one. -/
def State.listedScales (s : State) (p : Nat) : List (Nat × Nat × Nat) :=
  s.scales.filterMap (fun e =>
    if e.1 / (9 * 32 * 528) = p then some (e.1 / (32 * 528) % 9, e.1 / 528 % 32, e.1 % 528) else none)

/-- MONITOR_WINDOW_EVALUATION (R98): the scale's n has reached the window. -/
def execMonitorWindowEvaluation (p : PartId) (w : WingId) (b : BankId) (sc : ScaleId) (s : State) :
    Host.Outcome State Fault Refusal :=
  .next (
    if (s.scale p.val w.val b.val sc.val).mon.due || decide (s.monWindow p.val ≤ (s.scale p.val w.val b.val sc.val).mon.n) then
      s.evaluate p.val w.val b.val sc.val
    else s)

/-- R98: the evaluations due at a step boundary. -/
def State.evaluateDue (s : State) (p : Nat) : State :=
  (s.listedScales p).foldl (fun s e =>
    let m := (s.scale p e.1 e.2.1 e.2.2).mon
    if 64 ≤ m.n ∧ m.since + 16 ≤ (s.part p).boundaries then s.evaluate p e.1 e.2.1 e.2.2 else s) s

/-! The ladder record (R115, R116) -/

/-- R115: the entry of a scale in a step's record: its highest final rung; a pinned scale that serves records 11. -/
def State.recordEntries (s : State) (p : Nat) : List (Nat × Nat) :=
  (s.listedScales p).foldl (fun m e =>
    let x := s.scale p e.1 e.2.1 e.2.2
    let lw := s.rd (.wing p e.1) WNG_STATE_role
    if x.pinned && (x.role == 1 || x.role == 3) && decide (lw < 8) then mapSet 0 m (logicalScale lw e.2.1 x.logical) 3 else m) (s.part p).rungs

/-- The bytes of a step's record. -/
def recordBytes (es : List (Nat × Nat)) : List Byte :=
  (List.range 32768).map (fun i =>
    BitVec.ofNat 8 (mapGet 0 es (4 * i) + 4 * mapGet 0 es (4 * i + 1) + 16 * mapGet 0 es (4 * i + 2) + 64 * mapGet 0 es (4 * i + 3)))

/-- R117: count a finished step in the storm runs. A step in which no analogue tile ran, because it had none or all of them skipped,
counts in neither run (DESIGN CHOICE for the skipped ones, log entry 75: R117 names a step without analogue tiles only). -/
def State.countStorm (s : State) (p : Nat) : State :=
  let ts := (s.part p).tiles
  let total := mapGet 0 ts 0 + mapGet 0 ts 1 + mapGet 0 ts 2 + mapGet 0 ts 3
  if total = 0 then s
  else if s.normalService p && s.rd (.lad p) LAD_STORM_CTL_frac * total ≤ 256 * mapGet 0 ts 3 then
    (s.wrAll (.lad p) [(LAD_STATUS_storm_run, min 255 (s.rd (.lad p) LAD_STATUS_storm_run + 1)), (LAD_STATUS_clear_run, 0)]).bump
      (.lad p) 7
  else s.wrAll (.lad p) [(LAD_STATUS_clear_run, min 255 (s.rd (.lad p) LAD_STATUS_clear_run + 1)), (LAD_STATUS_storm_run, 0)]

/-- R116: write the record of the step that ends, if one is open. -/
def State.writeRecord (s : State) (p : Nat) : State :=
  match (s.part p).stepOpen with
  | none => s
  | some n =>
    let depth := s.rd (.lad p) LAD_MAP_CFG_depth
    let s := if depth = 0 then s
      else
        let a := s.mapBase p + 0x8000 + n % depth * 32768
        let s := s.guarded p [(a, 32768)] (s.put a (recordBytes (s.recordEntries p)))
        s.wrAll (.lad p) ((LAD_STEP_step, n) ::
          (List.range 4).map (fun k => (LAD_RUNG_CNT_tiles k, min 0xFFFF_FFFF (mapGet 0 (s.part p).tiles k))))
    s.countStorm p

/-- R112: the written mode takes effect. -/
def State.changeMode (s : State) (p : Nat) : State :=
  if s.rd (.lad p) LAD_CTL_mode = s.rd (.lad p) LAD_CTL_mode_eff then s
  else (s.wr (.lad p) LAD_CTL_mode_eff (s.rd (.lad p) LAD_CTL_mode)).raise (.lad p) LAD_INT_mode_changed

/-- The step mark whose boundary is next: the earliest issued (R268). -/
def State.markWaiting (s : State) (p : Nat) : Option Inflight :=
  (s.part p).seq.inflight.find? (fun x => x.work == .boundary)

/-- R339: whether the boundary of step `n` may be taken. -/
def State.boundaryFree (s : State) (p n : Nat) : Bool :=
  (s.rd (.hch p) HCH_COMMIT_step + 1) % 2 ^ 64 == n % 2 ^ 64 && (s.hch p == hchIdle || s.hch p == hchCommitted)

/-- STEP_BOUNDARY (R339): the partition takes the boundary of its step mark: record (R116), monitor (R98) under the mode that
ends, mode change (R112), an application point of the trims (R396); a committed hitch becomes idle. -/
def execStepBoundary (p : PartId) (s : State) : Host.Outcome State Fault Refusal :=
  .next (match s.markWaiting p.val with
    | some x =>
      let n := s.stepOf p.val x
      if s.boundaryFree p.val n then
        let committed := s.hch p.val == hchCommitted
        let s := s.modPart p.val (fun q => { q with boundaries := q.boundaries + 1 })
        let s := (s.writeRecord p.val).evaluateDue p.val
        let s := s.changeMode p.val
        let s := s.modPart p.val (fun q => { q with stepOpen := some n, rungs := [], tiles := [], trimDue := true })
        let s := if committed then s.setHch p.val hchIdle else s
        s.setWork p.val x.id .done
      else s
    | none => s)

/-- LAD_STORM_CTL.steps: 0 acts as 1 (R119). -/
def State.stormSteps (s : State) (p : Nat) : Nat := max 1 (s.rd (.lad p) LAD_STORM_CTL_steps)

/-- LADDER_STORM_RAISED (R117): the set number of consecutive storm steps has passed; the storm grant then applies (R419). -/
def execLadderStormRaised (p : PartId) (s : State) : Host.Outcome State Fault Refusal :=
  .next (
    if !s.inStorm p.val && s.stormSteps p.val ≤ s.rd (.lad p.val) LAD_STATUS_storm_run then
      ((s.wr (.lad p.val) LAD_STATUS_storm 1).raise (.lad p.val) LAD_INT_storm_raised).applyPower
    else s)

/-- LADDER_STORM_CLEARED (R117): the same number of consecutive steps has passed that were no storm steps. -/
def execLadderStormCleared (p : PartId) (s : State) : Host.Outcome State Fault Refusal :=
  .next (
    if s.inStorm p.val && s.stormSteps p.val ≤ s.rd (.lad p.val) LAD_STATUS_clear_run then
      ((s.wr (.lad p.val) LAD_STATUS_storm 0).raise (.lad p.val) LAD_INT_storm_cleared).applyPower
    else s)

end Sys2Proof.Machine
end

