-- ==== Sys2Proof/Machine/Restore.lean ====
section
/-! DEFINITION. Level restore (R70–R74), the output queue's stall (R80) and debug row reads (R83, R84). -/
namespace Sys2Proof.Machine

/-- The lower boundary of a restore row above 0, in 1/16 °C (R71). -/
def rowLower (row : Nat) : Int := 1360 + 80 * ((row : Int) - 1)

/-- The row of R71 that a temperature gives, without hysteresis. -/
def rowFor (t : Int) : Nat := ((List.range 5).drop 1).foldl (fun m r => if rowLower r < t then r else m) 0

/-- Move to longer intervals, one row at a time, while the temperature is 2 °C below the row's lower boundary (R71). -/
def relaxRow (t : Int) (target : Nat) : Nat → Nat
  | 0 => 0
  | row + 1 => if target < row + 1 ∧ t ≤ rowLower (row + 1) - 32 then relaxRow t target row else row + 1

/-- The automatic row at a temperature, from the row before (R71). -/
def autoRow (t : Int) (row : Nat) : Nat := if row ≤ rowFor t then rowFor t else relaxRow t (rowFor t) row

/-- Bring a wing's restore row into step with its temperature and WNG_RESTORE_CTL (R71, R79). -/
def State.setRestoreRow (s : State) (p w : Nat) : State :=
  let t := signed 16 (s.rd (.wing p w) WNG_TEMP_temp)
  let s := s.modWing p w (fun x => { x with autoRow := autoRow t x.autoRow })
  let forced := if s.on (.wing p w) WNG_RESTORE_CTL_force_en then min 4 (s.rd (.wing p w) WNG_RESTORE_CTL_force_row) else 0
  s.wr (.wing p w) WNG_STATE_restore_row (max (s.wing p w).autoRow forced)

/-- Set the code of a cell that is not disabled (R41). -/
def Scale.setCell (x : Scale) (r col : Nat) (v : Nat) : Scale :=
  if x.disabled.contains (r * 264 + col) then x
  else { x with cells := mapSet (cellReset (r * 264 + col)) x.cells (r * 264 + col) (BitVec.ofNat 4 v) }

/-- Whether a scale's rows are restored (R70). -/
def Scale.restored (x : Scale) : Bool := x.role == 1 || x.role == 3

/-- R392: a restore of a row writes the level of a column under takeover into its spare as well, and counts. -/
def Scale.copyTakeover (x : Scale) (r : Nat) : Scale :=
  (List.range 6).foldl (fun (x : Scale) n =>
    let e := x.colmap.getD n (0, 0)
    if e.1 = 2 then { x.setCell r (258 + n) (x.cell r (x.column e.2)) with copied := x.copied + 1 } else x) x

/-- R72: whether a re-seat write of row `r` is done in place of a scale's restore: it waits for the scale, or it has been done. -/
def State.reseatsRow (s : State) (p w b sc r : Nat) : Bool :=
  (s.wing p w).rewritten.contains (b * 528 + sc) ||
  (s.part p).seats.any (fun t => t.checked && t.pw == w && t.bank == b && t.ps == sc && t.rows.contains r)

/-- R74: a restored cell that did not stand at its level takes the one it snaps to; a disabled cell is skipped (R70). -/
def State.snapCell (s : State) (p w b r : Nat) (c : CellFound) : State :=
  let x := s.scale p w b c.scale.val
  if x.restored && !x.disabled.contains (r * 264 + c.column.val) && !s.reseatsRow p w b c.scale.val r then
    let s := s.modScale p w b c.scale.val (fun x => x.setCell r c.column.val c.code.toNat)
    if c.weak then s.bump (.wing p w) 1 else s
  else s

/-- R70: the bank's sweep goes on to its next row, one pitch of the row in effect later (R71). -/
def State.sweepOn (s : State) (p w b r : Nat) : State :=
  let pitch := intervalNs (s.rd (.wing p w) WNG_STATE_restore_row)
  let s := s.modWing p w (fun x => { x with due := mapSet 0 x.due b (x.dueAt b + pitch)
                                            rewritten := x.rewritten.filter (fun k => k / 528 != b) })
  let s := s.wr (.bank p w (b / 4)) (WNG_BK_SWEEP_next_row (b % 4)) ((r + 1) % 1024)
  if r = 1023 then
    let s := s.modWing p w (fun x => { x with swept := x.swept ||| 2 ^ b })
    if (s.wing p w).swept = 2 ^ 32 - 1 then
      (s.modWing p w (fun x => { x with swept := 0 })).wr (.wing p w) WNG_RESTORE_TICK_tick s.now
    else s
  else s

/-- R70, R72, R412: whether the next row of a bank is restored now: the wing's timebase runs, the row falls due by the end of the present
tick, and no scale of the bank is in operation. -/
def State.mayRestore (s : State) (p w b : Nat) : Bool :=
  s.rd (.wing p w) WNG_STATE_power == 2 && bit (s.rd .clk CLK_PLL_STABLE_wing) p && decide ((s.wing p w).dueAt b < (s.now + 1) * 2 ^ 20) &&
  !(s.wing p w).running.any (fun o => o.bank == b)

/-- ROW_RESTORE (R70): the row that falls due in the bank's sweep is sensed, snapped and written back in every active scale.
`found` lists the cells that did not stand exactly at their level: each takes the level it snaps to (R74). It does nothing before the row
falls due, and waits for the bank's boundary (R72; log entry 77). -/
def execRowRestore (p : PartId) (w : WingId) (b : BankId) (lateNs : Nat) (found : List CellFound) (s : State) :
    Host.Outcome State Fault Refusal :=
  .next (
    if !s.mayRestore p.val w.val b.val then s
    else
      let r := s.rd (.bank p.val w.val (b.val / 4)) (WNG_BK_SWEEP_next_row (b.val % 4))
      let s := found.foldl (fun s c => s.snapCell p.val w.val b.val r c) s
      let s := ((s.listedScales p.val).filter (fun e => e.1 == w.val && e.2.1 == b.val)).foldl (fun s e =>
        s.modScale p.val w.val b.val e.2.2 (fun x => x.copyTakeover r)) s
      let s := if 1000 < lateNs then (s.bump (.wing p.val w.val) 2).raise (.wing p.val w.val) WNG_INT_restore_late else s
      (s.setRestoreRow p.val w.val).sweepOn p.val w.val b.val r)

/-- LINK_STALL (R80): the output queue has been full for 1 ms. -/
def execLinkStall (p : PartId) (w : WingId) (s : State) : Host.Outcome State Fault Refusal :=
  .next (if (s.wing p.val w.val).outFull then s.raise (.wing p.val w.val) WNG_INT_link_stall else s)

/-! Debug row reads (R84) -/

/-- The scale that SCL_SELECT names, none outside the bank and scale range (R83). -/
def State.selected? (s : State) (p w : Nat) : Option (Nat × Nat) :=
  let b := s.rd (.scl p w) SCL_SELECT_bank
  let sc := s.rd (.scl p w) SCL_SELECT_scale
  if b < 32 ∧ sc < 528 then some (b, sc) else none

/-- A write of 1 to SCL_ROW_CTL.go (R84): it replaces a pending request. -/
def State.requestRow (s : State) (p w row : Nat) : State :=
  s.wrAll (.scl p w) [(SCL_ROW_CTL_go, 1), (SCL_ROW_CTL_done, 0), (SCL_ROW_CTL_refused, 0), (SCL_ROW_CTL_row, row)]

/-- DEBUG_ROW_READ_REQUEST (R84). A partition in reset discards the write (R29). -/
def execDebugRowReadRequest (p : PartId) (w : WingId) (row : BitVec 10) (s : State) : Host.Outcome State Fault Refusal :=
  .next (if s.resetting.contains p.val then s else s.requestRow p.val w.val row.toNat)

/-- What a row read shows of physical column `c` (R83): its snapped code, 0 where the read is refused. -/
def State.shownCell (s : State) (p w row : Nat) (bsc : Option (Nat × Nat)) (c : Nat) : Nat :=
  match bsc with
  | some (b, sc) => (s.scale p w b sc).cell row c
  | none => 0

/-- R84: the scale that a row read senses, none where it is refused: in confidential mode, or for a scale whose role is neither 001 nor
011. R84 does not say what a selection that names no scale does: it is refused as well (DESIGN CHOICE, log entry 78). -/
def State.sensed? (s : State) (p w : Nat) : Option (Nat × Nat) :=
  match s.selected? p w with
  | some (b, sc) => if s.on .sec SEC_MODE_confidential || !(s.scale p w b sc).restored then none else some (b, sc)
  | none => none

/-- R72: whether other work of a scale goes before a row read: an operation that runs on it, the one that issues next, a due row restore
of its bank, or a queued re-seat row write. -/
def State.sensingWaits (s : State) (p w b sc : Nat) : Bool :=
  let x := s.wing p w
  let next := match x.waiting with
    | o :: _ => match s.tile? p w o.tile with
      | some t => t.bank == b && s.tileScale? p w t == some sc
      | none => false
    | [] => false
  x.operates b sc || next || (s.rd (.wing p w) WNG_STATE_power == 2 && s.restoreDue p w b) ||
  (s.part p).seats.any (fun t => t.checked && t.pw == w && t.bank == b && t.ps == sc && !t.rows.isEmpty)

/-- DEBUG_ROW_READ (R84): the pending request is served at a boundary that leaves it the scale (R72), or refused. The request names neither
scale nor row of its own: SCL_SELECT and SCL_ROW_CTL.row are taken as they stand when it is served (DESIGN CHOICE, log entry 78). -/
def execDebugRowRead (p : PartId) (w : WingId) (s : State) : Host.Outcome State Fault Refusal :=
  let pg : Page := .scl p.val w.val
  .next (
    let sel := s.sensed? p.val w.val
    let waits := match sel with
      | some (b, sc) => s.sensingWaits p.val w.val b sc
      | none => false
    if s.on pg SCL_ROW_CTL_go && !waits then
      let row := s.rd pg SCL_ROW_CTL_row
      let s := s.wrAll pg ((List.range 264).map (fun c => (SCL_ROW_DATA_cell c, s.shownCell p.val w.val row sel c)))
      s.wrAll pg [(SCL_ROW_CTL_go, 0), (SCL_ROW_CTL_done, 1), (SCL_ROW_CTL_refused, flag sel.isNone)]
    else s)

end Sys2Proof.Machine
end

