-- ==== Sys2Proof/Machine/Image.lean ====
section
/-! DEFINITION. Level images (R122–R131): the image former and the layout of an image; checksum levels and ρ (R94, R127). -/
namespace Sys2Proof.Machine

def imageSize : Nat := 131648
def imageF : Nat := 0x2_0000
def imageHead : Nat := 0x2_0200

/-- The key under which a tile's levels are drawn (R123): seed, commit step, k0, n0 and N. -/
structure ImageKey where
  z  : Nat
  c  : Nat
  k0 : Nat
  n0 : Nat
  n  : Nat
  deriving DecidableEq, Repr

/-- The index of a data element (R127). -/
def ImageKey.dataIndex (k : ImageKey) (r j : Nat) : Nat := ((k.k0 + r) * k.n + (k.n0 + j)) % 2 ^ 64

/-- The index of a row's checksum level (R127). -/
def ImageKey.chkIndex (k : ImageKey) (r : Nat) : Nat := (2 ^ 63 + (k.k0 + r) * ((k.n + 255) / 256) + k.n0 / 256) % 2 ^ 64

/-- R94: the checksum level of a row whose data levels sum to `sum`. -/
def ImageKey.checksum (k : ImageKey) (r : Nat) (sum : Int) : Int :=
  stochRound (draw24 k.z k.c (k.chkIndex r)) ((Num.ofInt sum).mul (.pow2 (-8)))

/-- R94: ρ from the row residuals, rounded once to FP16. -/
def rhoOf (es : List Int) : Nat := fp16.encode ((Num.ofInt (es.foldl (fun a e => a + e * e) 0)).mul (.pow2 (-10))).sqrt

/-- The sum of a row's data levels, with disabled cells as 0. -/
def rowSum (levels : List Nat) : Int := levels.foldl (fun a v => a + levelOf v) 0

/-- Column `j` of a tile's 1024 × 256 values, rotated block by block (R124). -/
def rotatedColumn (z : Nat) (vals : Nat → Nat) (j : Nat) : List Nat :=
  (List.range 4).flatMap (fun q => rotate z ((List.range 256).map (fun i => vals ((256 * q + i) * 256 + j))))

/-- The exponent of a column's scale factor (R124). -/
def columnExp (col : List Nat) : Int :=
  match f32 (fdiv (maxAbs col) 0x40E0_0000) with
  | .fin _ m e => if m = 0 then -14 else clampExp (Num.fin false m e).ceilLog2
  | _ => 15

/-- An element's level before the clamp (R124, R125). -/
def rawLevel (k : ImageKey) (e : Int) (r j x : Nat) : Int :=
  stochRound (draw24 k.z k.c (k.dataIndex r j)) (f32 (rne32 (scaled2 x e)))

/-- What the image former makes of a tile: refused, or the scale exponents and the raw levels of each column. -/
inductive Formed where
  | refused
  | levels (cols : List (Int × List Int))
  deriving DecidableEq, Repr

/-- R122: a tile's master value; a column beyond the layer's output dimension holds 0. -/
def ImageKey.master (k : ImageKey) (vals : Nat → Nat) (i : Nat) : Nat := if k.n ≤ k.n0 + i % 256 then 0 else vals i

/-- R124, R131: form a tile's levels from its FP32 master values. -/
def formLevels (k : ImageKey) (master : Nat → Nat) : Formed :=
  let vals := k.master master
  if (List.range 262144).any (fun i => !(f32 (vals i)).isFinite) then .refused
  else
    let cols := (List.range 256).map (rotatedColumn k.z vals)
    if cols.any (fun c => c.any (fun x => !(f32 x).isFinite)) then .refused
    else .levels (cols.zipIdx.map (fun c =>
      let e := columnExp c.1
      (e, c.1.zipIdx.map (fun x => rawLevel k e x.2 c.2 x.1))))

/-- The header bytes of an image (R130): commit step and flags. -/
def imageHeader (c flags : Nat) : List Byte := leBytes 8 c ++ leBytes 4 flags ++ List.replicate 52 0

/-- The bytes of a full image. -/
def imageBytes (c : Nat) (cols : List (Int × List Int)) : List Byte :=
  let level := fun (r j : Nat) => unsigned 4 (clampInt 7 ((cols.getD j (0, [])).2.getD r 0))
  let clamped := cols.any (fun x => x.2.any (fun v => 7 < v.natAbs))
  (List.range 1024).flatMap (fun r => packNibbles ((List.range 256).map (level r))) ++
  cols.flatMap (fun x => leBytes 2 (fp16.encode (.pow2 x.1))) ++ imageHeader c (4 * flag clamped)

/-- R131: write only the header of an image, unchanged (1) or refused (2). -/
def State.writeHeader (s : State) (image c flags : Nat) : State := s.put (image + imageHead) (imageHeader c flags)

/-- IMAGE_FORM (R124, R131): the owner forms a tile's image, or refuses it. -/
def State.formImage (s : State) (p image : Nat) (k : ImageKey) (vals : Nat → Nat) : State :=
  match formLevels k vals with
  | .refused => (s.bump (.upd p) 42).writeHeader image k.c 2
  | .levels cols =>
    let s := s.addReg (.lad p) HDR_PROGRESS 1024
    let n : Nat := cols.foldl (fun a x => a + (x.2.filter (fun v => 7 < v.natAbs)).length) 0
    (s.bumpN (.upd p) 43 n).put image (imageBytes k.c cols)

/-- The FP32 value of element `i` of a master array in FP32 or BF16. -/
def State.masterAt (s : State) (a : Nat) (isBf16 : Bool) (i : Nat) : Nat :=
  if isBf16 then rne32 (bf16.decode (s.word (a + 2 * i) 2)) else s.word (a + 4 * i) 4

end Sys2Proof.Machine
end

