-- ==== Sys2Proof/Machine/Reseat.lean ====
section
/-! DEFINITION. Re-seating (R133–R147, R369, R517, R518): RESEAT, SEAT_TILE, RESEAT_ROW_WRITE, SEAT_COMPLETE,
SPARE_LOAD_COMPLETE and WEAR_COPY. -/
namespace Sys2Proof.Machine

/-! RESEAT (R147) -/

/-- The descriptor at a device address. -/
def State.seatDesc (s : State) (a : Nat) : SeatDesc :=
  let w := s.word (a + 8) 8
  { image := s.word a 8, layer := bits w 0 12, scale := bits w 12 9, bank := bits w 21 5, wing := bits w 26 3, owner := bit w 29
    isBf16 := bit w 30, k0 := bits w 32 32, n0 := s.word (a + 16) 4, n := s.word (a + 20) 4, master := s.word (a + 24) 8 }

/-- R148: the highest commit step under which some descriptor has written its epoch while none accepted under it or an earlier
step is open. -/
def State.setEpoch (s : State) (p : Nat) : State :=
  let x := s.part p
  let ok := x.epochs.filter (fun c => x.seats.all (fun t => t.kind != .commit || c < t.under))
  s.wr (.upd p) UPD_RS_EPOCH_step (ok.foldl max 0)

/-- R137: accept a descriptor under the commit step of the hitch (R148): the scale is held from now on. -/
def State.acceptSeat (s : State) (p : Nat) (cmd : Option Nat) (d : SeatDesc) : State :=
  let under := s.rd (.hch p) HCH_COMMIT_step
  let seed := layerSeed (s.layerEntry p d.layer)
  let seat := fun (id : Nat) =>
    ({ id := id, kind := .commit, cmd := cmd, lw := d.wing, bank := d.bank, ls := d.scale, pw := 0, ps := 0, under := under, c := 0,
       layer := d.layer, seed := seed, k0 := d.k0, n0 := d.n0, nTotal := d.n, image := d.image, checked := false, rows := [],
       f := [], rho := 0, stuck := false, reform := false } : Seat)
  (s.modPart p (fun x => { x with seats := x.seats ++ [seat x.nextSeat], nextSeat := x.nextSeat + 1 })).setEpoch p

/-- R131, R147: the owner forms a descriptor's image for the commit step of the hitch: only a header marked unchanged where that commit left
every master value of the tile as it was. -/
def State.ownerImage (s : State) (p : Nat) (d : SeatDesc) : State :=
  let c := s.rd (.hch p) HCH_COMMIT_step
  if (s.part p).same.contains (c, d.master) then s.writeHeader d.image c 1
  else
    s.formImage p d.image { z := layerSeed (s.layerEntry p d.layer), c := c, k0 := d.k0, n0 := d.n0, n := d.n } (s.masterAt d.master d.isBf16)

/-- R238: whether a step is being skipped: its flag is set. -/
def State.skipped (s : State) (p step : Nat) : Bool :=
  s.on (.upd p) UPD_NF_set && s.rd (.upd p) UPD_HITCH_STEP_step == step

/-- One descriptor of a RESEAT command of a step: refused for a wide layer (R518), discarded with the updates of a skipped step where it is
an owner's (R238); else the owner's image is formed (R147) and the descriptor is accepted. -/
def State.takeSeatDesc (s : State) (p cmd step : Nat) (d : SeatDesc) : State :=
  if layerWide (s.layerEntry p d.layer) then s.bump (.upd p) 45
  else if d.owner && s.skipped p step then s
  else (if d.owner then s.ownerImage p d else s).acceptSeat p (some cmd) d

/-- What the re-seat path reads and writes for a descriptor that is not refused for a wide layer (R518). -/
def State.seatReach (s : State) (p : Nat) (d : SeatDesc) : Bool :=
  layerWide (s.layerEntry p d.layer) ||
  (s.reach p d.image imageSize && (!d.owner || s.reach p d.master (if d.isBf16 then 524288 else 1048576)) &&
    s.reach p (s.mirrorAt p d.wing d.bank d.scale) 131072 && s.reach p (s.sideAt p d.wing d.bank d.scale) 2048)

/-- RESEAT (R266, R271): it reads its descriptors and accepts them in order. A layer index beyond the layer table is a fault of
reason 0x8; a poisoned descriptor leaves the command unexecuted (R369). Ranges outside the context's memory refuse the command (R26). -/
def execReseat (p : PartId) (c : Cmd) (s : State) : Host.Outcome State Fault Refusal :=
  .next (s.issueNeeding p.val c 0 (fun l =>
    let n := bits c.b.toNat 0 32
    match s.operandAt p.val c l.step c.a (32 * n) with
    | none => s.operandFault p.val c l [c.a]
    | some a =>
      let ds := (List.range n).map (fun i => s.seatDesc (a + 32 * i))
      if s.poisonedIn a (32 * n) then s
      else if ds.any (fun d => decide (s.layers p.val ≤ d.layer)) then s.issueFault p.val l 8
      else if ds.any (fun d => !s.reach p.val (s.mapBase p.val + 8 * d.layer) 8 || !s.seatReach p.val d) then s.operandFault p.val c l []
      else
        let id := s.nextId p.val
        ds.foldl (fun s d => s.takeSeatDesc p.val id l.step d) ((s.issue p.val 4 c l .seats).tagStart p.val id)))

/-! SEAT_TILE (R133) -/

/-- A seat of a partition. -/
def State.seat? (s : State) (p id : Nat) : Option Seat := (s.part p).seats.find? (fun t => t.id == id)

/-- Change a seat. -/
def State.modSeat (s : State) (p id : Nat) (f : Seat → Seat) : State :=
  s.modPart p (fun x => { x with seats := x.seats.map (fun t => if t.id = id then f t else t) })

/-- Drop a seat; UPD_RS_EPOCH follows (R148). -/
def State.dropSeat (s : State) (p id : Nat) : State :=
  (s.modPart p (fun x => { x with seats := x.seats.filter (fun t => t.id != id) })).setEpoch p

/-- Write the epoch of a seating and end it (R133, R137), with any earlier seating of the scale that poison left stuck. -/
def State.endSeat (s : State) (p : Nat) (t : Seat) : State :=
  let s := s.putWord (s.sideAt p t.lw t.bank t.ls + 0x408) 8 t.c
  let s := s.modPart p (fun x =>
    { x with epochs := if x.epochs.contains t.under then x.epochs else x.epochs ++ [t.under],
             seats := x.seats.filter (fun u => !(u.stuck && u.lw == t.lw && u.bank == t.bank && u.ls == t.ls)) })
  s.dropSeat p t.id

/-- R106: whether a tile is open on its scale: some pass of it has run, or it runs at L3 and waits for no epoch. -/
def Tile.onScale (t : Tile) (b ls : Nat) : Bool := t.bank == b && t.scale == ls && (t.ran || (t.rung == 3 && !t.held))

/-- R106: whether a tile of the scale is open. -/
def State.openTile (s : State) (p lw b ls : Nat) : Bool :=
  match s.physWing? p lw with
  | some w => (s.wing p w).tiles.any (fun t => t.onScale b ls)
  | none => false

/-- R204: whether a product of a step up to `n` has still to read the partition's mirror: a kernel of such a step runs, of which any block
product may be an input gradient's (R210), or such a step has an L3 tile to form. -/
def State.mirrorPending (s : State) (p n : Nat) : Bool :=
  (s.part p).seq.inflight.any (fun x => decide (s.stepOf p x ≤ n) &&
    match x.work with
    | .threads => !s.kernelDone p x.id
    | .product k => (List.range 9).any (fun w => (s.wing p w).tiles.any (fun t =>
        t.product == k && t.rung == 3 && t.closed && t.l3.isEmpty && !t.held))
    | _ => false)

/-- The key of a seating (R127). -/
def Seat.key (t : Seat) : ImageKey := { z := t.seed, c := t.c, k0 := t.k0, n0 := t.n0, n := t.nTotal }

/-- Set the nibble of a byte. -/
def setNibble (b : Byte) (hi : Bool) (v : Nat) : Byte :=
  BitVec.ofNat 8 (if hi then b.toNat % 16 + 16 * (v % 16) else b.toNat / 16 * 16 + v % 16)

/-- Hold the checksum level of a row in the side record (R140). -/
def State.putChk (s : State) (side r : Nat) (v : Int) : State :=
  s.put (side + r / 2) [setNibble (s.byte (side + r / 2)) (r % 2 == 1) (unsigned 4 v)]

/-- R133: the new levels of a row, 0b1000 where the serving cell is disabled. -/
def newRow (x : Scale) (r : Nat) (image : List Nat) : List Nat :=
  image.zipIdx.map (fun e => if x.disabled.contains (r * 264 + x.serving e.2) then 8 else e.1)

/-- R133, R517: one row of a seating: whether it is queued, its new levels and its checksum level. -/
def State.seatRow (s : State) (p : Nat) (t : Seat) (x : Scale) (r : Nat) : Bool × List Nat × Int :=
  let new := newRow x r ((List.range 256).map (fun j => s.nibble (t.image + 128 * r) j))
  let chk := t.key.checksum r (rowSum new)
  let a := s.mirrorAt p t.lw t.bank t.ls + 128 * r
  let side := s.sideAt p t.lw t.bank t.ls
  let differs := s.on (.upd p) UPD_RS_CTL_full || s.poisonedIn a 128 || s.poisonedIn (side + r / 2) 1 ||
    new != s.mirrorRow p t.lw t.bank t.ls r || unsigned 4 chk != s.nibble side r
  (differs, new, chk)

/-- The row residual e_r (R94). -/
def residual (levels : List Nat) (chk : Int) : Int := 256 * chk - rowSum levels

/-- The first poisoned row of an image (R369): 1024 where only f is poisoned, none where nothing is. -/
def State.imagePoison (s : State) (image : Nat) : Option Nat :=
  match (List.range 1024).find? (fun r => s.poisonedIn (image + 128 * r) 128) with
  | some r => some r
  | none => if s.poisonedIn (image + imageF) 512 then some 1024 else none

/-- R133: check a matching image's rows, update mirror and checksum nibbles, and queue the rows that differ. -/
def State.seatRows (s : State) (p : Nat) (t : Seat) (pw ps : Nat) : State :=
  let x := s.scale p pw t.bank ps
  let bad := s.imagePoison t.image
  let n := bad.getD 1024
  let rows := (List.range n).map (fun r => (r, s.seatRow p t x r))
  let side := s.sideAt p t.lw t.bank t.ls
  let mirror := s.mirrorAt p t.lw t.bank t.ls
  let chk := fun (r : Nat) => match rows[r]? with
    | some e => unsigned 4 e.2.2.2
    | none => s.nibble side r
  let s := rows.foldl (fun s e => s.put (mirror + 128 * e.1) (packNibbles e.2.2.1)) s
  let s := if n = 0 then s else s.put side (packNibbles ((List.range (2 * ((n + 1) / 2))).map chk))
  s.modSeat p t.id (fun v =>
    { v with
      c := t.c, pw := pw, ps := ps, checked := true, stuck := bad.isSome
      rows := (rows.filter (fun e => e.2.1)).map Prod.fst
      f := (List.range 256).map (fun j => s.word (t.image + imageF + 2 * j) 2)
      rho := rhoOf (rows.map (fun e => residual e.2.2.1 e.2.2.2)) })

/-- R133: seat an image that may be read, on the scale that serves. A poisoned header is consumed and leaves the scale held (R369). -/
def State.seatImage (s : State) (p pw ps : Nat) (t : Seat) : State :=
  let c := s.word (t.image + imageHead) 8
  if s.poisonedIn (t.image + imageHead) 64 then s.modSeat p t.id (fun t => { t with checked := true, stuck := true })
  else if c ≠ s.rd (.hch p) HCH_COMMIT_step then (s.bump (.upd p) 44).dropSeat p t.id
  else
    let flags := s.word (t.image + imageHead + 8) 4
    let side := s.sideAt p t.lw t.bank t.ls
    if bit flags 0 || bit flags 1 then
      let s := if bit flags 1 then s.putWord (side + 0x410) 4 (s.word (side + 0x410) 4 ||| 1) else s
      s.endSeat p { t with c := c }
    else s.seatRows p { t with c := c } pw ps

/-- SEAT_TILE (R133): the image of an accepted descriptor has arrived. It waits for open tiles of the scale (R106), for the products of the
steps before that read the mirror (R204), and while the serving scale is being loaded (R518). -/
def execSeatTile (p : PartId) (seat : Nat) (s : State) : Host.Outcome State Fault Refusal :=
  .next (match s.seat? p.val seat with
    | none => s
    | some t =>
      if t.kind != .commit || t.checked || s.openTile p.val t.lw t.bank t.ls || s.mirrorPending p.val t.under then s
      else
        match s.physWing? p.val t.lw with
        | none => s
        | some pw =>
          match s.physScale? p.val pw t.bank t.ls with
          | none => s
          | some ps =>
            if (s.scale p.val pw t.bank ps).role = 3 then s
            else s.guarded p.val ((t.image, imageSize) :: s.scaleRanges p.val t.lw t.bank t.ls) (s.seatImage p.val pw ps t))

/-! RESEAT_ROW_WRITE (R134–R136) -/

/-- R134: the level that a row write gives a physical column. -/
def rowTarget (x : Scale) (r : Nat) (levels : List Nat) (chk : Int) (col : Nat) : Nat :=
  let own := fun (j : Nat) =>
    if j < 256 then (let v := levels.getD j 0; if v = 8 then 0 else v) else if j = 256 then unsigned 4 chk else unsigned 4 (refLevel r)
  if col < 258 then own col
  else
    let e := x.colmap.getD (col - 258) (0, 0)
    if e.1 = 1 ∨ e.1 = 2 then own e.2 else 0

/-- Set every cell of a row that is not disabled. -/
def Scale.writeRow (x : Scale) (r : Nat) (levels : List Nat) (chk : Int) : Scale :=
  (List.range 264).foldl (fun y col => y.setCell r col (rowTarget x r levels chk col)) x

/-- Count row writes in the wear (R141). -/
def Scale.addWear (x : Scale) (n : Nat) : Scale :=
  { x with wear := (x.wear + (x.wearRem + n) / 1024) % 2 ^ 32, wearRem := (x.wearRem + n) % 1024 }

/-- Disable a cell (R41). -/
def Scale.disable (x : Scale) (r col : Nat) : Scale :=
  { x with disabled := setIns x.disabled (r * 264 + col), cells := mapSet (cellReset (r * 264 + col)) x.cells (r * 264 + col) 8 }

/-- The disabled cells of a physical column. -/
def Scale.disabledIn (x : Scale) (col : Nat) : Nat := (x.disabled.filter (fun k => k % 264 == col)).length

/-- Whether a seating or load takes levels from the mirror: a load of a scale that was never seated writes zeros (R142, R144). -/
def State.fromMirror (s : State) (p : Nat) (t : Seat) : Bool := t.kind == .commit || s.isSeated p t.lw t.bank t.ls

/-- The levels and the checksum level that a seat writes into a row: those of the mirror and the side record, or zeros. R144 does not say
what becomes of a poisoned mirror row in a load: its stored levels are written as if they were clean (DESIGN CHOICE, log entry 75). -/
def State.rowToWrite (s : State) (p : Nat) (t : Seat) (r : Nat) : List Nat × Int :=
  if s.fromMirror p t then (s.mirrorRow p t.lw t.bank t.ls r, signed 4 (s.nibble (s.sideAt p t.lw t.bank t.ls) r))
  else (List.replicate 256 0, 0)

/-- R142: a column in service that has reached 8 disabled cells is a column fault. -/
def State.checkColumn (s : State) (p w b sc col : Nat) : State :=
  let x := s.scale p w b sc
  if 8 ≤ x.disabledIn col ∧ (x.logicalOf col).isSome then s.columnFault p w b sc col else s

/-- R106: a tile keeps a mirror row's levels that change while it is open. -/
def Tile.keepOld (t : Tile) (r : Nat) (changed : List (Nat × Nat)) : Tile :=
  { t with old := changed.foldl (fun m e => if (mapFind m (r * 256 + e.1)).isSome then m else mapIns m (r * 256 + e.1) e.2) t.old }

/-- Write a mirror row, which keeps its poison (log entry 75); the scale's open tiles keep the levels at which they opened (R106). -/
def State.putMirrorRow (s : State) (p : Nat) (t : Seat) (r : Nat) (new : List Nat) : State :=
  let a := s.mirrorAt p t.lw t.bank t.ls + 128 * r
  let changed := ((s.mirrorRow p t.lw t.bank t.ls r).zip new).zipIdx.filterMap (fun e => if e.1.1 = e.1.2 then none else some (e.2, e.1.1))
  let s := s.store a (packNibbles new) (s.poisonMoved a a 128)
  match s.physWing? p t.lw with
  | some w => s.modWing p w (fun x => { x with tiles := x.tiles.map (fun u => if u.onScale t.bank t.ls then u.keepOld r changed else u) })
  | none => s

/-- R94, R136, R139: a row's disabled serving cells enter the mirror as 0b1000, and its checksum level and ρ are formed anew. -/
def State.reformRow (s : State) (p : Nat) (t : Seat) (r : Nat) : State :=
  let levels := newRow (s.scale p t.pw t.bank t.ps) r (s.mirrorRow p t.lw t.bank t.ls r)
  let s := (s.putMirrorRow p t r levels).putChk (s.sideAt p t.lw t.bank t.ls) r (t.key.checksum r (rowSum levels))
  s.modPart p (fun x => { x with seats := x.seats.map (fun u =>
    if u.lw == t.lw && u.bank == t.bank && u.ls == t.ls then { u with reform := true } else u) })

/-- R142, R144: a row that a load is about to write: where a cell that now serves is disabled already, and always for a spare load, it is
formed anew. -/
def State.loadRow (s : State) (p : Nat) (t : Seat) (r : Nat) : State :=
  let row := s.mirrorRow p t.lw t.bank t.ls r
  if t.kind == .commit || !s.fromMirror p t then s
  else if t.kind == .spareLoad || newRow (s.scale p t.pw t.bank t.ps) r row != row then s.reformRow p t r
  else s

/-- R136: disable cells of a row, mark them in the mirror, and form the row's checksum level anew. -/
def State.disableCells (s : State) (p : Nat) (t : Seat) (r : Nat) (cols : List Nat) : State :=
  let fresh := cols.filter (fun c => !(s.scale p t.pw t.bank t.ps).disabled.contains (r * 264 + c))
  let x := fresh.foldl (fun x c => x.disable r c) (s.scale p t.pw t.bank t.ps)
  let s := (s.setScale p t.pw t.bank t.ps x).bumpN (.upd p) 41 fresh.length
  if s.fromMirror p t then s.reformRow p t r else s

/-- R136: write a row and verify it: `verify` lists, attempt by attempt, the columns whose cells differ. A row is written up to
three times; cells that still differ are disabled and the row is written once more under the same verification. R136 does not say whether
that further write is a rewrite after a failed verify: it does not count in ERRCNT 40 (DESIGN CHOICE, log entry 75). -/
def State.writeVerify (s : State) (p : Nat) (t : Seat) (r : Nat) : Nat → List (List (Fin 264)) → State
  | _, [] =>
    let x := s.scale p t.pw t.bank t.ps
    let d := s.rowToWrite p t r
    s.setScale p t.pw t.bank t.ps ((x.writeRow r d.1 d.2).addWear 1)
  | tries, bad :: rest =>
    let x := s.scale p t.pw t.bank t.ps
    let d := s.rowToWrite p t r
    let s := s.setScale p t.pw t.bank t.ps ((x.writeRow r d.1 d.2).addWear 1)
    let live := bad.filter (fun c => !x.disabled.contains (r * 264 + c.val))
    if live.isEmpty then s
    else if tries < 2 then (s.bump (.upd p) 40).writeVerify p t r (tries + 1) rest
    else (s.disableCells p t r (live.map (fun c => c.val))).writeVerify p t r 0 rest

/-- The row that a bank's sweep restores next. -/
def State.sweepRow (s : State) (p w b : Nat) : Nat := s.rd (.bank p w (b / 4)) (WNG_BK_SWEEP_next_row (b % 4))

/-- R72, R106, R142: whether a row write of a seating or load waits: for an open tile of the scale, an operation that runs on it, a due
restore of another row of its bank, or, as a load, for the rows of a seating that the scale still has. -/
def State.rowWaits (s : State) (p : Nat) (t : Seat) (r : Nat) : Bool :=
  s.rd (.wing p t.pw) WNG_STATE_power != 2 || (t.kind == .commit && s.openTile p t.lw t.bank t.ls) ||
  (s.wing p t.pw).operates t.bank t.ps || (s.restoreDue p t.pw t.bank && s.sweepRow p t.pw t.bank != r) ||
  (t.kind != .commit && (s.part p).seats.any (fun u =>
    u.kind == .commit && u.checked && u.pw == t.pw && u.bank == t.bank && u.ps == t.ps && !u.rows.isEmpty))

/-- R72, R146: a re-seat write of the row whose restore is due counts as that restore. -/
def State.countRestore (s : State) (p : Nat) (t : Seat) (r : Nat) : State :=
  if s.restoreDue p t.pw t.bank && s.sweepRow p t.pw t.bank == r then
    s.modWing p t.pw (fun x => { x with rewritten := setIns x.rewritten (t.bank * 528 + t.ps) })
  else s

/-- R135, R136: write row `r` of a seating or load; the rows `rest` are still to come. Column faults follow in ascending column (R36,
R142). -/
def State.writeSeatRow (s : State) (p : Nat) (t : Seat) (r : Nat) (rest : List Nat) (verify : List (List (Fin 264))) : State :=
  let s := (s.modSeat p t.id (fun t => { t with rows := rest })).countRestore p t r
  let s := (s.loadRow p t r).writeVerify p t r 0 verify
  let cols := (List.range 264).filter (fun c => verify.any (fun v => v.any (fun d => d.val == c)))
  cols.foldl (fun s c => s.checkColumn p t.pw t.bank t.ps c) s

/-- RESEAT_ROW_WRITE (R135): the next queued row of a seating or load is written and verified, once nothing goes before it; column faults
follow (R142). -/
def execReseatRowWrite (p : PartId) (seat : Nat) (verify : List (List (Fin 264))) (s : State) :
    Host.Outcome State Fault Refusal :=
  .next (match s.seat? p.val seat with
    | none => s
    | some t =>
      match t.rows with
      | [] => s
      | r :: rest =>
        if s.rowWaits p.val t r then s
        else
          s.guarded p.val (if s.fromMirror p.val t then s.scaleRanges p.val t.lw t.bank t.ls else [])
            (s.writeSeatRow p.val t r rest verify))

/-! Completion (R137, R142–R144) -/

/-- R143: a scale at its wear or defect limit is retired. -/
def State.checkLimits (s : State) (p w b sc : Nat) : State :=
  let x := s.scale p w b sc
  let wearLim := s.rd (.upd p) UPD_RS_WEAR_LIM_limit
  let wearLim := if wearLim = 0 then 0xFFFF_FFFF else wearLim
  if wearLim ≤ x.wear ∨ max 1 (s.rd (.upd p) UPD_RS_DEFECT_LIM_limit) ≤ x.disabled.length then s.retireScale p w b sc else s

/-- ρ of a logical scale from its mirror and checksum nibbles (R94). -/
def State.rhoNow (s : State) (p lw b ls : Nat) : Nat :=
  let side := s.sideAt p lw b ls
  rhoOf ((List.range 1024).map (fun r => residual (s.mirrorRow p lw b ls r) (signed 4 (s.nibble side r))))

/-- The column scale factors as the periphery holds them. -/
def fMap (fs : List Nat) : List (Nat × BitVec 16) :=
  fs.zipIdx.foldl (fun m e => mapSet 0 m e.2 (BitVec.ofNat 16 e.1)) []

/-- Whether a load of the physical scale that a seat writes goes on. -/
def State.loading (s : State) (p : Nat) (t : Seat) : Bool :=
  (s.part p).seats.any (fun u => u.kind != .commit && u.pw == t.pw && u.bank == t.bank && u.ps == t.ps)

/-- R133, R137: f and ρ are installed and the side record is written, the epoch last; a limit of R143 reached on the way retires the
scale. -/
def State.install (s : State) (p : Nat) (t : Seat) : State :=
  let rho := if t.reform then s.rhoNow p t.lw t.bank t.ls else t.rho
  let side := s.sideAt p t.lw t.bank t.ls
  let s := s.modScale p t.pw t.bank t.ps (fun x => { x with f := fMap t.f, rho := BitVec.ofNat 16 rho, epoch := t.c })
  let s := s.modPart p (fun x => { x with seated := setIns x.seated (logicalScale t.lw t.bank t.ls) })
  let s := s.put (side + 0x200) (t.f.flatMap (leBytes 2))
  let s := s.putWord (side + 0x400) 2 rho
  let s := s.put (side + 0x410) (leBytes 4 0 ++ leBytes 4 t.seed ++ leBytes 4 t.k0 ++ leBytes 4 t.n0 ++ leBytes 4 t.nTotal)
  (s.endSeat p t).checkLimits p t.pw t.bank t.ps

/-- SEAT_COMPLETE (R133, R137): every queued row of a seating has verified, no column of its scale is being loaded and the scale is at a
boundary. -/
def execSeatComplete (p : PartId) (seat : Nat) (s : State) : Host.Outcome State Fault Refusal :=
  .next (match s.seat? p.val seat with
    | none => s
    | some t =>
      if t.kind != .commit || !t.checked || t.stuck || !t.rows.isEmpty || s.loading p.val t || (s.wing p.val t.pw).operates t.bank t.ps then s
      else s.guarded p.val (s.scaleRanges p.val t.lw t.bank t.ls) (s.install p.val t))

/-- R142, R144: what a load installs from the side record: a spare takes f, its own ρ and the epoch, and the checksum nibbles are written
whole (R517); a column load forms ρ anew where a row was. A scale that was never seated has f and ρ at +0.0. R140 does not say whether a
spare load clears the stale flag: it stays (DESIGN CHOICE, log entry 75). -/
def State.installLoad (s : State) (p : Nat) (t : Seat) : State :=
  let side := s.sideAt p t.lw t.bank t.ls
  if !s.fromMirror p t then
    if t.kind == .spareLoad then s.modScale p t.pw t.bank t.ps (fun x => { x with f := [], rho := 0 }) else s
  else
    let rho := s.rhoNow p t.lw t.bank t.ls
    let fs := (List.range 256).map (fun j => s.word (side + 0x200 + 2 * j) 2)
    let s := if t.kind == .spareLoad then s.put side (s.bytes side 512) else s
    let s := if t.kind == .spareLoad || t.reform then s.putWord (side + 0x400) 2 rho else s
    s.modScale p t.pw t.bank t.ps (fun x =>
      let x := if t.kind == .spareLoad || t.reform then { x with rho := BitVec.ofNat 16 rho } else x
      if t.kind == .spareLoad then { x with f := fMap fs, epoch := s.word (side + 0x408) 8 } else x)

/-- The end of a load: the spare serves its logical instance, and the limits of R143 are checked. -/
def State.endLoad (s : State) (p : Nat) (t : Seat) : State :=
  let s := (s.installLoad p t).dropSeat p t.id
  let s := if s.loading p t || (s.scale p t.pw t.bank t.ps).role != 3 then s
    else s.modScale p t.pw t.bank t.ps (fun x => { x with role := 1 })
  s.checkLimits p t.pw t.bank t.ps

/-- SPARE_LOAD_COMPLETE (R142, R144): the last row of a load has verified, and the spare serves its logical instance. -/
def execSpareLoadComplete (p : PartId) (seat : Nat) (s : State) : Host.Outcome State Fault Refusal :=
  .next (match s.seat? p.val seat with
    | none => s
    | some t =>
      if t.kind == .commit || !t.rows.isEmpty then s
      else s.guarded p.val (if s.fromMirror p.val t then s.scaleRanges p.val t.lw t.bank t.ls else []) (s.endLoad p.val t))

/-- WEAR_COPY (R141): every scale's wear count is copied to flash. -/
def execWearCopy (s : State) : Host.Outcome State Fault Refusal :=
  .next { s with wearFlash := s.scales.foldl (fun m e => mapSet 0 m e.1 e.2.wear) s.wearFlash }

end Sys2Proof.Machine
end

