-- ==== Sys2Proof/Machine/Local.lean ====
section
/-! DEFINITION. What the engines of a cluster share: tile buffers, wide buffer and W48 (R161–R163, R190), poison of local
spaces (R368, R370), symbol errors found by reads (R164, R178, R365), and the states of threads (R152, R153, R213). -/
namespace Sys2Proof.Machine

/-! W48 (R161, R162, R248) -/

/-- The FP32 sum and the BF16 compensation of an accumulator. -/
def w48Sum (a : BitVec 48) : Nat := bits a.toNat 0 32
def w48Comp (a : BitVec 48) : Nat := bits a.toNat 32 16

/-- A BF16 pattern as an FP32 pattern: widening is exact (R252). -/
def bf16to32 (x : Nat) : Nat := x % 2 ^ 16 * 2 ^ 16

/-- R162: the W48 add of an FP32 value. -/
def w48Add (a : BitVec 48) (v : Nat) : BitVec 48 :=
  let s := w48Sum a
  let c := bf16to32 (w48Comp a)
  let y := fsub v c
  let t := fadd s y
  let c' := bf16.encode (f32 (fsub (fsub t s) y))
  BitVec.ofNat 48 (t + 2 ^ 32 * (if (f32 t).isFinite then c' else 0))

/-- R162: the read-out of an accumulator. -/
def w48Read (a : BitVec 48) : Nat :=
  let s := w48Sum a
  if (f32 s).isFinite then fsub s (bf16to32 (w48Comp a)) else s

/-! Tile buffers and wide buffer (R150, R190) -/

def tileSize : Nat := 0x10_0000
def wideSize : Nat := 0x20_0000
/-- The raw W48 words of the wide buffer (R163, R248), which the tile mover addresses behind the wide view (DESIGN CHOICE, log entry 36). -/
def rawSize : Nat := 0x30_0000

/-- Bytes of the tile buffers. -/
def Cluster.tileBytes (x : Cluster) (a n : Nat) : List Byte := (List.range n).map (fun i => mapGet 0 x.tile (a + i))

/-- Write one byte of the tile buffers. -/
def Cluster.setTile (x : Cluster) (a : Nat) (v : Byte) : Cluster := { x with tile := mapSet 0 x.tile a v }

/-- Write bytes of the tile buffers. -/
def Cluster.setTiles (x : Cluster) (a : Nat) : List Byte → Cluster
  | [] => x
  | v :: vs => (x.setTile a v).setTiles (a + 1) vs

/-- R370 in the tile buffers: granules wholly covered lose their poison, those delivered poisoned keep it. -/
def Cluster.tileStore (x : Cluster) (a : Nat) (l : List Byte) (bad : List Nat) : Cluster :=
  let y := x.setTiles a l
  let kept := y.tilePoison.filter (fun g => !(a ≤ 32 * g && 32 * g + 32 ≤ a + l.length))
  { y with tilePoison := bad.foldl setIns kept }

/-- The accumulator to which a byte of the wide buffer's space belongs: an FP32 read-out in the wide view, a raw W48 word behind it. -/
def accumulatorAt (a : Nat) : Nat := if a < wideSize then a / 4 else (a - wideSize) / 6

/-- The wide-buffer block of a byte of that space. -/
def wideBlockAt (a : Nat) : Nat := accumulatorAt a / 16384

/-- A byte of the raw W48 words (R248): s in bytes 0–3, c in bytes 4–5. -/
def Cluster.rawByte (x : Cluster) (a : Nat) : Byte := BitVec.ofNat 8 (bits (mapGet 0 x.wide (a / 6)).toNat (8 * (a % 6)) 8)

/-- Write a byte of the raw W48 words. -/
def Cluster.setRaw (x : Cluster) (a : Nat) (v : Byte) : Cluster :=
  let old := mapGet 0 x.wide (a / 6)
  { x with wide := mapSet 0 x.wide (a / 6) (old &&& ~~~(255#48 <<< (8 * (a % 6))) ||| v.setWidth 48 <<< (8 * (a % 6))) }

/-- Bytes of the wide buffer's space: the FP32 read-out of accumulators (R162), or their raw words (R163). -/
def Cluster.wideBytes (x : Cluster) (a n : Nat) : List Byte :=
  if a < wideSize then slice ((List.range (n / 4 + 2)).flatMap (fun i => leBytes 4 (w48Read (mapGet 0 x.wide (a / 4 + i))))) (a % 4) n
  else (List.range n).map (fun i => x.rawByte (a - wideSize + i))

/-- R162: add FP32 values from a wide view element on; the accumulators written are in use. -/
def Cluster.wideAdds (x : Cluster) (k : Nat) : List Nat → Cluster
  | [] => x
  | v :: vs =>
    ({ x with wide := mapSet 0 x.wide k (w48Add (mapGet 0 x.wide k) v), wideUsed := setIns x.wideUsed k } : Cluster).wideAdds
      (k + 1) vs

/-- R163: write raw W48 bytes back: their accumulators resume where they stopped. -/
def Cluster.rawStore (x : Cluster) (a : Nat) : List Byte → Cluster
  | [] => x
  | v :: vs => ({ x.setRaw a v with wideUsed := setIns x.wideUsed (a / 6) } : Cluster).rawStore (a + 1) vs

/-- Whether an accumulator is cleared with a range of the wide buffer's space: its read-out lies in it, or the last byte of its raw word. -/
def clearedWith (a n k : Nat) : Bool :=
  if a < wideSize then decide (a / 4 ≤ k) && decide (k < (a + n) / 4)
  else decide (a ≤ wideSize + 6 * k + 5) && decide (wideSize + 6 * k + 5 < a + n)

/-- Clear a range of accumulators (R161, R163). A block none of whose accumulators has been written since its clear is no longer in use
(R177), nor poisoned (R368). -/
def Cluster.wideClear (x : Cluster) (a n : Nat) : Cluster :=
  let y := if a < wideSize then { x with wide := x.wide.filter (fun e => !clearedWith a n e.1) }
    else (List.range n).foldl (fun y i => y.setRaw (a - wideSize + i) 0) x
  let used := x.wideUsed.filter (fun k => !clearedWith a n k)
  { y with wideUsed := used
           widePoison := y.widePoison.filter (fun b => 
             used.any (fun k => k / 16384 == b) || decide (b < wideBlockAt a) || decide (wideBlockAt (a + n - 1) < b)) }

/-- R177: the wide-buffer blocks written since their last clear. -/
def Cluster.blocksUsed (x : Cluster) : Nat := ((List.range 32).filter (fun b => x.wideUsed.any (fun k => k / 16384 == b))).length

/-! Operand spaces (R187, R190) -/

/-- Bytes of a space, as an input. -/
def State.inBytes (s : State) (p c : Nat) (sp : Space) (a n : Nat) : List Byte :=
  match sp with
  | .device => s.bytes a n
  | .tile => (s.cluster p c).tileBytes a n
  | .wide => (s.cluster p c).wideBytes a n

/-- Whether a range of a space holds poison (R368). -/
def State.inPoison (s : State) (p c : Nat) (sp : Space) (a n : Nat) : Bool :=
  match sp with
  | .device => s.poisonedIn a n
  | .tile => n != 0 && (s.cluster p c).tilePoison.any (fun g => a / 32 ≤ g && g ≤ (a + n - 1) / 32)
  | .wide => n != 0 && (s.cluster p c).widePoison.any (fun b => wideBlockAt a ≤ b && b ≤ wideBlockAt (a + n - 1))

/-- The FP32 patterns in little-endian bytes. -/
def wordsOf (l : List Byte) : List Nat := (List.range (l.length / 4)).map (fun i => leAt l (4 * i) 4)

/-- Write bytes into a space, with the granules of it that are delivered poisoned: into the wide view, the W48 add of each
element (R190), behind it the raw words (R163); a poisoned result poisons the wide-buffer block (R368). -/
def State.outBytes (s : State) (p c : Nat) (sp : Space) (a : Nat) (l : List Byte) (bad : List Nat) : State :=
  match sp with
  | .device => s.store a l bad
  | .tile => s.modCluster p c (fun x => x.tileStore a l bad)
  | .wide => s.modCluster p c (fun x =>
      let y := if a < wideSize then x.wideAdds (a / 4) (wordsOf l) else x.rawStore (a - wideSize) l
      { y with widePoison := (bad.map (fun g => wideBlockAt (g * 32))).foldl setIns y.widePoison })

/-! Symbol errors found by reads (R164, R178, R365, R366) -/

/-- An error with a symbol corrected. -/
def fixSymbol (e : List Nat) (fix : Option (Nat × Nat)) : List Nat :=
  match fix with
  | some (i, v) => e.modify i (fun x => x ^^^ v)
  | none => e

/-- What a read makes of a granule: the symbols by which its codeword still differs from the one written, whether it is poisoned now, and
which kind of error it counts as, 0 corrected or 1 uncorrectable. -/
structure GranuleRead where
  left     : List Nat
  poisoned : Bool
  count    : Option Nat
  deriving DecidableEq, Repr

/-- R365, R366: the read of a granule whose stored codeword has an error: it is corrected, or delivered and written back poisoned. `was` says
that it was stored poisoned. -/
def readCodeword (was : Bool) (e : List Nat) : GranuleRead :=
  let w := if was then addWords e poisonPattern else e
  match decodeGranule w with
  | .clean => ⟨w, false, none⟩
  | .corrected i v => ⟨fixSymbol w (some (i, v)), false, some 0⟩
  | .poisoned fix => ⟨fixSymbol (addWords w poisonPattern) fix, true, none⟩
  | .uncorrectable => ⟨e, true, some 1⟩

/-- Add symbols of an error to the data bytes of a granule. -/
def State.flipData (s : State) (g : Nat) (e : List Nat) : State :=
  { s with mem := (List.range 32).foldl (fun m i =>
      mapSet 0 m (32 * g + i) (mapGet 0 m (32 * g + i) ^^^ BitVec.ofNat 8 (e.getD (i + 4) 0))) s.mem }

/-- A granule of device memory is read with an error; the read counts in a page where one is given (R179). -/
def State.readGranule (s : State) (pg : Option Page) (g : Nat) (e : List Nat) : State :=
  let r := readCodeword (s.poison.contains g) e
  let t := { s.flipData g r.left with poison := if r.poisoned then setIns s.poison g else setDel s.poison g }
  match pg, r.count with
  | some pg, some n => t.bump pg n
  | _, _ => t

/-- A granule of the tile buffers is read with an error. -/
def Cluster.readTile (x : Cluster) (g : Nat) (r : GranuleRead) : Cluster :=
  let y := (List.range 32).foldl (fun (y : Cluster) i =>
    y.setTile (32 * g + i) (mapGet 0 y.tile (32 * g + i) ^^^ BitVec.ofNat 8 (r.left.getD (i + 4) 0))) x
  { y with tilePoison := if r.poisoned then setIns x.tilePoison g else setDel x.tilePoison g }

/-- The same for a granule of the wide buffer's raw words; an uncorrectable one poisons its block (R368). -/
def Cluster.readWide (x : Cluster) (g : Nat) (r : GranuleRead) : Cluster :=
  let y := (List.range 32).foldl (fun (y : Cluster) i =>
    y.setRaw (32 * g + i) (y.rawByte (32 * g + i) ^^^ BitVec.ofNat 8 (r.left.getD (i + 4) 0))) x
  if r.poisoned then { y with widePoison := setIns x.widePoison (wideBlockAt (wideSize + 32 * g)) } else y

/-- The channel page in which an error of device memory counts (R179): the partition store has none. -/
def channelPage (g : Nat) : Option Page :=
  if 32 * g < 8 * hbmSize then some (.chan (32 * g / hbmSize) (channelOf (32 * g))) else none

/-- Count an uncorrectable read of a cluster's tile buffers or wide buffer (R178). -/
def State.countLocal (s : State) (p k : Nat) (r : GranuleRead) : State := if r.count = some 1 then s.bump (.cluster p k) 3 else s

/-- An engine of a physical cluster reads a granule and finds an error (R164, R173, R178). A granule that its space does not have is none. -/
def State.findError (s : State) (p k : Nat) (e : ReadError) : State :=
  let g := e.granule
  match e.space with
  | .device => if (ownerOf (32 * g)).isSome then s.readGranule (channelPage g) g (upsetError e.upsets) else s
  | .tile =>
    let r := readCodeword ((s.cluster p k).tilePoison.contains g) (upsetError e.upsets)
    if 32 * g < tileSize then (s.modCluster p k (fun x => x.readTile g r)).countLocal p k r else s
  | .wide =>
    let r := readCodeword ((s.cluster p k).widePoison.contains (wideBlockAt (wideSize + 32 * g))) (upsetError e.upsets)
    if 32 * g < rawSize then (s.modCluster p k (fun x => x.readWide g r)).countLocal p k r else s

/-- The granules that a command's reads find with errors. -/
def State.findErrors (s : State) (p k : Nat) (es : List ReadError) : State := es.foldl (fun s e => s.findError p k e) s

/-! Threads (R152, R153) -/

/-- A thread of a cluster. -/
def Cluster.thread? (x : Cluster) (t : Nat) : Option Thread := mapFind x.threads t

/-- Change a thread that is not free. -/
def Cluster.modThread (x : Cluster) (t : Nat) (f : Thread → Thread) : Cluster :=
  match x.thread? t with
  | some y => { x with threads := mapIns x.threads t (f y) }
  | none => x

/-- An address register and a counter of a thread: an unlisted one holds 0. -/
def Thread.areg (y : Thread) (i : Nat) : W64 := mapGet 0 y.a i
def Thread.counter (y : Thread) (i : Nat) : W32 := mapGet 0 y.c i

/-- The next instruction. -/
def Thread.advance (y : Thread) : Thread := { y with pc := y.pc + 16 }

/-- R153, R213: whether an engine's queue accepts an operation: fewer than 2 are queued, none for a deferred thread. The matrix engine's two
include the block in progress (DEDUCED from R172, log entry 80). -/
def hasRoom (deferred : Bool) (queued : Nat) : Bool := if deferred then queued == 0 else decide (queued < 2)

/-- R154: whether the limits of a thread and of the cluster leave room for a tile mover request. -/
def Cluster.moverRoom (x : Cluster) (t : Nat) : Bool :=
  (x.mover.filter (fun r => r.thread == t)).length < 8 && x.mover.length < 256

/-- The descriptors queued for the vector engine and not yet started (R194; DEDUCED from VEC_STATUS of R200, log entry 80). -/
def Cluster.vecQueued (x : Cluster) : Nat := (x.vecQ.filter (fun v => !v.ran)).length

/-- Whether the wait of a thread has ended (R152): bits 0–2 of an engine wait are the engines of SYNC, bits 3 and 4 a full
matrix or vector queue; `pend` says that a block of the thread awaits its recompute. -/
def Cluster.waitOver (x : Cluster) (pend : Bool) (t : Nat) (y : Thread) : Bool :=
  match y.st with
  | .memWait => x.moverRoom t
  | .engWait m =>
    (!bit m 0 || (x.mmaQ.all (fun b => b.thread != t) && !pend)) && (!bit m 1 || x.vecQ.all (fun v => v.thread != t)) &&
    (!bit m 2 || x.mover.all (fun r => r.thread != t)) && (!bit m 3 || hasRoom y.deferred x.mmaQ.length) &&
    (!bit m 4 || hasRoom y.deferred x.vecQueued)
  | _ => false

/-- Threads whose wait has ended become ready (R153). -/
def Cluster.wake (x : Cluster) (pend : Nat → Bool) : Cluster :=
  { x with threads := x.threads.map (fun e => if x.waitOver (pend e.1) e.1 e.2 then (e.1, { e.2 with st := .ready }) else e) }

/-- Whether a block of a thread of a logical cluster awaits its recompute. -/
def State.awaits (s : State) (p lc t : Nat) : Bool :=
  (s.part p).recompute.any (fun r => r.source == lc && r.prod.thread == t && !r.audit)

/-- Wake the threads of a logical cluster. -/
def State.wake (s : State) (p lc : Nat) : State := s.modCluster p (s.physCluster p lc) (fun x => x.wake (s.awaits p lc))

/-- The threads that count as ready, in ascending order: one with the deferred attribute only where none without it is ready (R153, R213). -/
def Cluster.readyThreads (x : Cluster) : List Nat :=
  let r := x.threads.filter (fun e => e.2.st == .ready)
  let plain := r.filter (fun e => !e.2.deferred)
  (if plain.isEmpty then r else plain).map (fun e => e.1)

/-- R153: the ready threads in the order in which they issue: those that follow the thread that last issued, then from the lowest on. -/
def Cluster.issueOrder (x : Cluster) : List Nat :=
  x.readyThreads.filter (fun t => decide (x.last < t)) ++ x.readyThreads.filter (fun t => decide (t ≤ x.last))

/-- The thread of a logical cluster whose next instruction can issue now: its turn has come, and the cluster is not being retired
(R152, R153, R172, R331). -/
def State.issuing? (s : State) (p lc t : Nat) : Option Thread :=
  let x := s.cluster p (s.physCluster p lc)
  if s.clusterIdle p lc || x.issueOrder.head? != some t then none else x.thread? t

/-- Change a thread of a logical cluster. -/
def State.modThread (s : State) (p lc t : Nat) (f : Thread → Thread) : State :=
  s.modCluster p (s.physCluster p lc) (fun x => x.modThread t f)

/-- The command index that a fault of a thread records: its kernel's. -/
def State.threadIndex (s : State) (p : Nat) (y : Thread) : Nat :=
  match s.cmd? p y.cmd with
  | some x => x.index
  | none => 0

/-- R278, R280: a fault of a thread halts it and ends its context with the reason. -/
def State.threadFault (s : State) (p lc t reason : Nat) (y : Thread) : State :=
  (s.modThread p lc t (fun z => { z with st := .halted })).seqFault p reason (s.threadIndex p y)

/-- A tag's counts (R471). -/
def State.countTag (s : State) (p id : Nat) (f : Tag → Tag) : State := s.modTag p id f

/-- R153: a thread of a logical cluster has had its turn. -/
def State.issued (s : State) (p lc t : Nat) : State := s.modCluster p (s.physCluster p lc) (fun x => { x with last := t })

/-- Run a thread instruction where the thread's turn to issue has come; otherwise it is to be given again (log entry 11). -/
def State.onThread (s : State) (p lc t : Nat) (f : State → Thread → State) : State :=
  match s.issuing? p lc t with
  | some y => f (s.issued p lc t) y
  | none => s

end Sys2Proof.Machine
end

