-- ==== Sys2Proof/Machine/Mover.lean ====
section
/-! DEFINITION. The tile mover (R154, R163) with MX conversion (R253–R256), and its two commands. -/
namespace Sys2Proof.Machine

/-! MX blocks (R253–R256) -/

/-- Bits of an element of MX format 1–6 (R253, R278). -/
def mxWidth (k : Nat) : Nat :=
  match k with
  | 3 | 4 => 6
  | 5 => 4
  | _ => 8

/-- The floating-point element format of MX formats 1–5. -/
def mxFmt (k : Nat) : Fmt :=
  match k with
  | 1 => e4m3
  | 2 => e5m2
  | 3 => e3m2
  | 4 => e2m3
  | _ => e2m1

/-- emax of the element (R253). -/
def mxEmax (k : Nat) : Int :=
  match k with
  | 1 => 8
  | 2 => 15
  | 3 => 4
  | 4 | 5 => 2
  | _ => 0

/-- The value of an element: MXINT8 is two's complement × 2^-6. -/
def mxElem (k v : Nat) : Num :=
  if k = 6 then
    let i := signed 8 v
    .fin (i < 0) i.natAbs (-6)
  else (mxFmt k).decode v

/-- R256: the element nearest to a value, saturating at the largest magnitude. -/
def mxCode (k : Nat) (x : Num) : Nat :=
  if k = 6 then unsigned 8 (max (-127) (min 127 (x.mul (.pow2 6)).rne))
  else (mxFmt k).encodeWith .sat true x

/-- The format of a conversion's local values: BF16 where `half`, else FP32 (R255, R256). -/
def mxLocal (half : Bool) : Fmt := if half then bf16 else fp32

/-- The bytes of a local value, and of a block of 32 of them. -/
def mxSize (half : Bool) : Nat := if half then 2 else 4
def mxBlock (half : Bool) : Nat := 32 * mxSize half

/-- R255: an element under its scale, as a pattern of the local format. -/
def mxImport (half : Bool) (k scale v : Nat) : Nat := (mxLocal half).encode ((mxElem k v).mul (e8m0 scale))

/-- R256: the scale and the elements of a block of 32 patterns of the local format. -/
def mxExport (half : Bool) (k : Nat) (vs : List Nat) : Nat × List Nat :=
  let xs := vs.map (mxLocal half).decode
  if xs.any (fun x => !x.isFinite) then (0xFF, vs.map (fun _ => 0))
  else
    let m := xs.foldl (fun (m x : Num) => m.max2 x.abs) (Num.fin false 0 0)
    if m.isZero then (127, vs.map (fun _ => 0))
    else
      let x := (max 0 (min 254 (m.floorLog2 - mxEmax k + 127))).toNat
      (x, xs.map (fun (v : Num) => mxCode k (v.mul (.pow2 (127 - (x : Int))))))

/-- The bytes of a block's packed elements (R254): element i in bits w·i of the little-endian string. -/
def mxPack (k : Nat) (es : List Nat) : List Byte :=
  leBytes (4 * mxWidth k) (es.zipIdx.foldl (fun a e => a + e.1 % 2 ^ mxWidth k * 2 ^ (mxWidth k * e.2)) 0)

/-- The elements of a block. -/
def mxUnpack (k : Nat) (l : List Byte) : List Nat :=
  (List.range 32).map (fun i => bits (leNat l) (mxWidth k * i) (mxWidth k))

/-! Requests (R154, R278) -/

/-- The bytes that a request's device side covers: converted, the elements of each 32-value block and, behind all of them, one
scale byte a block (DESIGN CHOICE, log entry 20). -/
def deviceBytes (half : Bool) (conv n : Nat) : Nat :=
  if conv = 0 then n else n / mxBlock half * (4 * mxWidth conv) + n / mxBlock half

/-- The space and offset that a local address names: bits [62:61] = 10 the wide view, 00 or 01 the tile buffers (R187,
R190; DEDUCED, log entry 20). Bit 60 is `localHalf`. -/
def localPlace (a : Nat) : Option (Space × Nat) :=
  let off := a % 2 ^ 60
  match bits a 61 2 with
  | 2 => some (.wide, off)
  | 3 => none
  | _ => some (.tile, off)

/-- Whether a local address names BF16 values of a conversion (R255, R256): bit 60 (DESIGN CHOICE, log entry 20). -/
def localHalf (a : Nat) : Bool := bit a 60

/-- Whether a range lies in its local space; the wide view holds whole FP32 elements, and the raw W48 words lie behind it (log entry 36). -/
def localIn (sp : Space) (a n : Nat) : Bool :=
  match sp with
  | .tile => decide (a + n ≤ tileSize)
  | .wide =>
    if a < wideSize then decide (a + n ≤ wideSize) && a % 4 == 0 && n % 4 == 0 else decide (a + n ≤ wideSize + rawSize)
  | .device => true

/-- Whether a conversion may have a local side: whole blocks, BF16 only in the tile buffers, none on raw W48 words. -/
def convIn (half : Bool) (conv : Nat) (sp : Space) (a n : Nat) : Bool :=
  if conv = 0 then !half else n % mxBlock half == 0 && (sp != .wide || (!half && decide (a < wideSize)))

/-- The request that an instruction makes, none where its fields are refused (R278, R254). -/
def moverReq? (y : Thread) (i : TInstr) (id t : Nat) : Option MoverReq :=
  let f := i.f.toNat
  let r : MoverReq := { id := id, thread := t, src := (y.areg i.ra.val + i.imm64).toNat
                        dst := (y.areg i.rb.val + i.imm32.setWidth 64).toNat, bytes := bits f 0 10 + 1, out := bit f 10
                        conv := bits f 11 4, half := false, clear := bit f 15 }
  let side := if r.out then r.src else r.dst
  let r := { r with half := localHalf side }
  let ok := match localPlace side with
    | some (sp, a) => localIn sp a r.bytes && convIn r.half r.conv sp a r.bytes
    | none => false
  if r.conv ≤ 6 && ok then some r else none

/-- The device address of a request, its local address, and the bytes of its device side. -/
def MoverReq.device (r : MoverReq) : Nat := if r.out then r.dst else r.src
def MoverReq.side (r : MoverReq) : Nat := if r.out then r.src else r.dst
def MoverReq.deviceLen (r : MoverReq) : Nat := deviceBytes r.half r.conv r.bytes

/-- TILE_MOVER_REQUEST (thread instruction MOVE, R278, R154): the request is outstanding, or the thread enters memory wait at
the limits. An address outside the context is refused (R165), MX conversion needs FEATURE_EN bit 6 (R284). -/
def execTileMoverRequest (p : PartId) (c : LogicalCluster) (t : ThreadId) (i : TInstr) (s : State) :
    Host.Outcome State Fault Refusal :=
  .next (s.onThread p.val c.val t.val (fun s y =>
    let x := s.cluster p.val (s.physCluster p.val c.val)
    match moverReq? y i x.nextReq t.val with
    | none => s.threadFault p.val c.val t.val 7 y
    | some r =>
      if r.conv ≠ 0 && !s.feature 6 then s.threadFault p.val c.val t.val 3 y
      else if !s.reach p.val r.device r.deviceLen then
        (s.bump (.thx p.val) 4).threadFault p.val c.val t.val 2 y
      else if !x.moverRoom t.val then s.modThread p.val c.val t.val (fun z => { z with st := .memWait })
      else
        let s := s.modThread p.val c.val t.val Thread.advance
        let s := s.modCluster p.val (s.physCluster p.val c.val) (fun x =>
          { x with mover := x.mover ++ [r], nextReq := x.nextReq + 1 })
        s.countTag p.val y.cmd (fun g => { g with requests := g.requests + 1 })))

/-! Completion -/

/-- R368: the granules of a destination range that a copy with equal offsets delivers poisoned. -/
def movedPoison (bad : Nat → Nat → Bool) (src dst n : Nat) : List Nat :=
  (granules dst n).filter (fun g =>
    let lo := max dst (32 * g)
    let hi := min (dst + n) (32 * g + 32)
    bad (src + (lo - dst)) (hi - lo))

/-- The bytes that import makes of a device range of `b` blocks (R255). -/
def importBlocks (half : Bool) (k b : Nat) (l : List Byte) : List Byte :=
  (List.range b).flatMap (fun j =>
    let es := mxUnpack k (slice l (j * (4 * mxWidth k)) (4 * mxWidth k))
    let x := leAt l (b * (4 * mxWidth k) + j) 1
    es.flatMap (fun e => leBytes (mxSize half) (mxImport half k x e)))

/-- The bytes that export makes of `b` blocks of local values (R256). -/
def exportBlocks (half : Bool) (k b : Nat) (l : List Byte) : List Byte :=
  let z := mxSize half
  let bs := (List.range b).map (fun j => mxExport half k ((List.range 32).map (fun i => leAt l (z * (32 * j + i)) z)))
  bs.flatMap (fun x => mxPack k x.2) ++ bs.map (fun x => BitVec.ofNat 8 x.1)

/-- Whether one of the accumulators that a range of the wide buffer's space touches is not finite (R237). -/
def Cluster.wideNonFinite (x : Cluster) (a n : Nat) : Bool :=
  n != 0 && x.wide.any (fun e =>
    decide (accumulatorAt a ≤ e.1) && decide (e.1 ≤ accumulatorAt (a + n - 1)) && !(f32 (w48Read e.2)).isFinite)

/-- Move the data of a request (R154, R163, R253–R256): poison travels by granule, in a conversion by block (R368). A read of a wide-buffer
block that is not finite raises the partition's flag (R237). -/
def State.moveData (s : State) (p c : Nat) (r : MoverReq) : State :=
  match localPlace r.side with
  | none => s
  | some (sp, off) =>
    let m := mxBlock r.half
    let b := r.bytes / m
    let w := 4 * mxWidth r.conv
    let s :=
      if r.out then
        let l := s.inBytes p c sp off r.bytes
        if r.conv = 0 then s.store r.dst l (movedPoison (s.inPoison p c sp) off r.dst r.bytes)
        else
          let badBlocks := (List.range b).filter (fun j => s.inPoison p c sp (off + m * j) m)
          s.store r.dst (exportBlocks r.half r.conv b l)
            (badBlocks.flatMap (fun j => granules (r.dst + j * w) w ++ granules (r.dst + b * w + j) 1))
      else
        let l := s.bytes r.src r.deviceLen
        if r.conv = 0 then s.outBytes p c sp off l (movedPoison s.poisonedIn r.src off r.deviceLen)
        else
          let badBlocks := (List.range b).filter (fun j =>
            s.poisonedIn (r.src + j * w) w || s.poisonedIn (r.src + b * w + j) 1)
          s.outBytes p c sp off (importBlocks r.half r.conv b l) (badBlocks.flatMap (fun j => granules (off + m * j) m))
    let s := if r.out && sp == .wide && (s.cluster p c).wideNonFinite off r.bytes then s.raiseNf p else s
    if r.out && r.clear then
      match sp with
      | .wide => s.modCluster p c (fun x => x.wideClear off r.bytes)
      | _ => s.modCluster p c (fun x => x.tileStore off (List.replicate r.bytes 0) [])
    else s

/-- TILE_MOVER_COMPLETE (R154): a request's data is in place, and then the threads that await it become ready. Requests
complete in any order. `errs` are the granules that its reads found with symbol errors (R164, R178). -/
def execTileMoverComplete (p : PartId) (c : LogicalCluster) (id : Nat) (errs : List ReadError) (s : State) : Host.Outcome State Fault Refusal :=
  let k := s.physCluster p.val c.val
  .next (match (s.cluster p.val k).mover.find? (fun r => r.id == id) with
    | some r =>
      let s := ((s.findErrors p.val k errs).moveData p.val k r).transferred r.device r.deviceLen
      let s := s.modCluster p.val k (fun x => { x with mover := x.mover.filter (fun q => q.id != id) })
      (s.progress (.cluster p.val k)).wake p.val c.val
    | none => s)

end Sys2Proof.Machine
end

