-- ==== Sys2Proof/Machine/Threads.lean ====
section
/-! DEFINITION. Thread instructions beside MOVE (R278): MMA, VEC, SYNC, ADDI, SETC, LOOP and EXIT. -/
namespace Sys2Proof.Machine

/-! MMA (R156, R157, R159, R278) -/

/-- Bytes of an operand tile (R150) and of its block exponents (R157): one per 128 values of K on each of 128 lines. -/
def operandBytes : Nat := 0x2_0000
def BlockProd.k (b : BlockProd) : Nat := if b.aFmt = 2 then 512 else 1024
def BlockProd.expBytes (b : BlockProd) : Nat := if b.exps then b.k else 0

/-- R156: the accepted pairs of formats: FP8 with FP8 or W4, BF16 with BF16 or W4. -/
def fmtPair (a b : Nat) : Bool := if a < 2 then b < 2 || b == 3 else a == 2 && 2 ≤ b

/-- The block product that an instruction issues, none where its fields are refused (R278): reserved mode or write type, a pair
outside R156, an operand outside the tile buffers, a destination that does not exist (R159). -/
def blockProd? (y : Thread) (i : TInstr) (t : Nat) : Option BlockProd :=
  let f := i.f.toNat
  let b : BlockProd := { thread := t, aOff := (y.areg i.ra.val).toNat, bOff := (y.areg i.rb.val).toNat
                         aExp := i.imm32.toNat, bExp := i.imm64.toNat, mode := bits f 0 2, aFmt := bits f 2 2
                         bFmt := bits f 4 2, wType := bits f 6 2, dest := bits f 8 5, exps := bit f 13, gamma := 0, window := 0 }
  if b.mode < 3 && b.wType < 3 && fmtPair b.aFmt b.bFmt && (b.mode == 2 || b.dest < 16) &&
      b.aOff + operandBytes ≤ tileSize && b.bOff + operandBytes ≤ tileSize &&
      (!b.exps || (b.aExp + b.k ≤ tileSize && b.bExp + b.k ≤ tileSize)) then some b else none

/-- A block product begins under the γ and the window that THX_ABFT_CTL gives now (R174). -/
def State.begun (s : State) (p : Nat) (b : BlockProd) : BlockProd :=
  { b with gamma := s.rd (.thx p) THX_ABFT_CTL_gamma, window := s.rd (.thx p) THX_ABFT_CTL_window }

/-- The matrix engine's queue with its first block begun. -/
def State.beginFirst (s : State) (p : Nat) : List BlockProd → List BlockProd
  | [] => []
  | b :: r => s.begun p b :: r

/-- MMA (R278, R153): the block product joins the matrix engine's queue; where the queue is full, for a deferred thread where
it holds anything (R213), the thread enters engine wait. A block that joins an empty queue begins at once. -/
def execMma (p : PartId) (c : LogicalCluster) (t : ThreadId) (i : TInstr) (s : State) : Host.Outcome State Fault Refusal :=
  .next (s.onThread p.val c.val t.val (fun s y =>
    let k := s.physCluster p.val c.val
    match blockProd? y i t.val with
    | none => s.threadFault p.val c.val t.val 7 y
    | some b =>
      if hasRoom y.deferred (s.cluster p.val k).mmaQ.length then
        let s := s.modThread p.val c.val t.val Thread.advance
        let s := s.modCluster p.val k (fun x => { x with mmaQ := if x.mmaQ.isEmpty then [s.begun p.val b] else x.mmaQ ++ [b] })
        s.countTag p.val y.cmd (fun g => { g with products := g.products + 1 })
      else s.modThread p.val c.val t.val (fun z => { z with st := .engWait 8 })))

/-- VEC (R278, R193): the descriptor at ra + imm64 joins the vector engine's queue. Its address must lie in the context (R165,
R26). -/
def execVec (p : PartId) (c : LogicalCluster) (t : ThreadId) (i : TInstr) (s : State) : Host.Outcome State Fault Refusal :=
  .next (s.onThread p.val c.val t.val (fun s y =>
    let k := s.physCluster p.val c.val
    let a := (y.areg i.ra.val + i.imm64).toNat
    if !s.reach p.val a 128 then (s.bump (.thx p.val) 4).threadFault p.val c.val t.val 2 y
    else if hasRoom y.deferred (s.cluster p.val k).vecQueued then
      let s := s.modThread p.val c.val t.val Thread.advance
      s.modCluster p.val k (fun x => { x with vecQ := x.vecQ ++ [{ addr := a, thread := t.val, ran := false }] })
    else s.modThread p.val c.val t.val (fun z => { z with st := .engWait 16 })))

/-- SYNC (R278): engine wait until every earlier operation of the thread on the named engines has completed. -/
def execSync (p : PartId) (c : LogicalCluster) (t : ThreadId) (i : TInstr) (s : State) : Host.Outcome State Fault Refusal :=
  .next (s.onThread p.val c.val t.val (fun s y =>
    let x := s.cluster p.val (s.physCluster p.val c.val)
    let z := { y.advance with st := .engWait (bits i.f.toNat 0 3) }
    s.modThread p.val c.val t.val (fun _ =>
      if x.waitOver (s.awaits p.val c.val t.val) t.val z then { z with st := .ready } else z)))

/-- ADDI (R278): a[ra] = a[rb] + imm64. -/
def execAddi (p : PartId) (c : LogicalCluster) (t : ThreadId) (i : TInstr) (s : State) : Host.Outcome State Fault Refusal :=
  .next (s.onThread p.val c.val t.val (fun s _ =>
    s.modThread p.val c.val t.val (fun z =>
      { z.advance with a := mapSet 0 z.a i.ra.val (z.areg i.rb.val + i.imm64) })))

/-- SETC (R278): c[ra] = imm32; the counters are c0–c7, another number is a reserved field. -/
def execSetc (p : PartId) (c : LogicalCluster) (t : ThreadId) (i : TInstr) (s : State) : Host.Outcome State Fault Refusal :=
  .next (s.onThread p.val c.val t.val (fun s y =>
    if 8 ≤ i.ra.val then s.threadFault p.val c.val t.val 7 y
    else s.modThread p.val c.val t.val (fun z => { z.advance with c := mapSet 0 z.c i.ra.val i.imm32 })))

/-- Where the program counter stands after a branch by a signed number of 16-byte instructions (R278; from the LOOP itself:
DEDUCED, log entry 21). -/
def branch (pc : Nat) (d : W32) : Nat := (((pc : Int) + 16 * d.toInt) % (2 ^ 64 : Nat)).toNat

/-- LOOP (R278): c[ra] = c[ra] − 1, and a branch where the result is not zero. -/
def execLoop (p : PartId) (c : LogicalCluster) (t : ThreadId) (i : TInstr) (s : State) : Host.Outcome State Fault Refusal :=
  .next (s.onThread p.val c.val t.val (fun s y =>
    if 8 ≤ i.ra.val then s.threadFault p.val c.val t.val 7 y
    else s.modThread p.val c.val t.val (fun z =>
      let n := z.counter i.ra.val - 1
      { z with c := mapSet 0 z.c i.ra.val n, pc := if n = 0 then z.pc + 16 else branch z.pc i.imm32 })))

/-- EXIT (R278): the thread becomes free. -/
def execExit (p : PartId) (c : LogicalCluster) (t : ThreadId) (_i : TInstr) (s : State) : Host.Outcome State Fault Refusal :=
  .next (s.onThread p.val c.val t.val (fun s _ =>
    s.modCluster p.val (s.physCluster p.val c.val) (fun x => { x with threads := mapDel x.threads t.val })))

end Sys2Proof.Machine
end

