-- ==== Sys2Proof/Machine/Matrix.lean ====
section
/-! DEFINITION. The matrix engine and the checksum unit (R156–R174), audits (R374) and the retirement of clusters (R172). -/
namespace Sys2Proof.Machine

/-! Operands (R156, R157) -/

/-- Element `k` of operand line `i` at an offset, in a format of R278: E4M3, E5M2, BF16 or W4. -/
def operandElem (x : Cluster) (fmt off i k : Nat) : Num :=
  let line := off + 1024 * i
  let byte := fun n => (mapGet (0 : Byte) x.tile (line + n)).toNat
  match fmt with
  | 0 => e4m3.decode (byte k)
  | 1 => e5m2.decode (byte k)
  | 2 => bf16.decode (byte (2 * k) + 256 * byte (2 * k + 1))
  | _ => Num.ofInt (levelOf (bits (byte (k / 2)) (4 * (k % 2)) 4))

/-- The block exponent of a line for the 128 values that hold element `k` (R157, laid out as R207). -/
def operandExp (x : Cluster) (b : BlockProd) (off i k : Nat) : Num :=
  if b.exps then e8m0 (mapGet (0 : Byte) x.tile (off + i * (b.k / 128) + k / 128)).toNat else .pow2 0

def BlockProd.a (b : BlockProd) (x : Cluster) (i k : Nat) : Num := operandElem x b.aFmt b.aOff i k
def BlockProd.b (b : BlockProd) (x : Cluster) (k j : Nat) : Num := operandElem x b.bFmt b.bOff j k

/-- R168: an operand value with its block exponent applied. -/
def BlockProd.ea (b : BlockProd) (x : Cluster) (i k : Nat) : Num := (b.a x i k).mul (operandExp x b b.aExp i k)
def BlockProd.eb (b : BlockProd) (x : Cluster) (k j : Nat) : Num := (b.b x k j).mul (operandExp x b b.bExp j k)

/-! The product (R158) -/

/-- One group of 32 values of K: its exact sum under its exponents, rounded once; an exact zero gives +0.0. -/
def BlockProd.group (b : BlockProd) (x : Cluster) (i j g : Nat) : Nat :=
  let sum := (List.range 32).foldl (fun (a : Num) n => a.add ((b.a x i (32 * g + n)).mul (b.b x (32 * g + n) j))) (.fin false 0 0)
  let e := (operandExp x b b.aExp i (32 * g)).mul (operandExp x b b.bExp j (32 * g))
  if sum.isZero && !e.isNaN then 0 else rne32 (sum.mul e)

/-- R158: element (i, j), the groups added in ascending order. -/
def BlockProd.elem (b : BlockProd) (x : Cluster) (i j : Nat) : Nat := fsum ((List.range (b.k / 32)).map (b.group x i j))

/-- R158: the block P, by rows, with the symbol errors that physics puts into it (R167). -/
def BlockProd.product (b : BlockProd) (x : Cluster) (flips : List Flip) : List Nat :=
  let clean := (List.range 16384).map (fun n => b.elem x (n / 128) (n % 128))
  flips.foldl (fun l f =>
    let n := f.i.val * 128 + f.j.val
    l.set n (l.getD n 0 ^^^ f.x.toNat)) clean

/-! The check (R167–R169) -/

/-- R169, R174, R175: the γ under which a block began, FP16; values below 2^-12 act as 2^-12. A NaN or +∞, for which the spec gives no
meaning, makes no comparison hold (DESIGN CHOICE, log entry 80). -/
def BlockProd.band (b : BlockProd) : Num :=
  let g := fp16.decode b.gamma
  if g.lt (.pow2 (-12)) then .pow2 (-12) else g

/-- An FP32 sum of exact values in ascending index order, each addition rounded. -/
def sumNums (l : List Num) : Nat := l.foldl (fun a x => rne32 ((f32 a).add x)) 0

/-- R168: whether one row or column is out of its band: |u − v| > γ × w + 2^-126 with u − v in FP32; not compared where u or v
is not finite. -/
def outOfBand (gamma : Num) (u v w : Nat) : Bool :=
  (f32 u).isFinite && (f32 v).isFinite && (f32 (fabs (fsub u v))).gt ((gamma.mul (f32 w)).add (.pow2 (-126)))

/-- R168: the check of a block against its operands. -/
def BlockProd.mismatch (b : BlockProd) (x : Cluster) (pr : List Nat) : Bool :=
  let gamma := b.band
  let r := List.range 128
  let ks := List.range b.k
  let ak := ks.map (fun k => sumNums (r.map (fun i => b.ea x i k)))
  let aak := ks.map (fun k => sumNums (r.map (fun i => (b.ea x i k).abs)))
  let bk := ks.map (fun k => sumNums (r.map (fun j => b.eb x k j)))
  let abk := ks.map (fun k => sumNums (r.map (fun j => (b.eb x k j).abs)))
  let at_ := fun (l : List Nat) k => f32 (l.getD k 0)
  r.any (fun j => outOfBand gamma (fsum (r.map (fun i => pr.getD (i * 128 + j) 0)))
    (fsum (ks.map (fun k => rne32 ((at_ ak k).mul (b.eb x k j)))))
    (fsum (ks.map (fun k => rne32 ((at_ aak k).mul (b.eb x k j).abs))))) ||
  r.any (fun i => outOfBand gamma (fsum (r.map (fun j => pr.getD (i * 128 + j) 0)))
    (fsum (ks.map (fun k => rne32 ((b.ea x i k).mul (at_ bk k)))))
    (fsum (ks.map (fun k => rne32 ((b.ea x i k).abs.mul (at_ abk k))))))

/-! The destination (R159, R368) -/

/-- The bytes of a block in a write type (R159, R252). -/
def blockBytes (wType : Nat) (pr : List Nat) : List Byte :=
  match wType with
  | 0 => pr.flatMap (leBytes 4)
  | 1 => pr.flatMap (fun v => leBytes 2 (bf16.encode (f32 v)))
  | _ => pr.flatMap (fun v => leBytes 1 (e4m3.encodeWith .sat false (f32 v)))

/-- The destination's space and offset. -/
def BlockProd.place (b : BlockProd) : Space × Nat := (if b.mode = 2 then .wide else .tile, b.dest * 0x10000)

/-- The granules of the whole destination block (R368). -/
def BlockProd.destGranules (b : BlockProd) : List Nat := granules (b.dest * 0x10000) 0x10000

/-- R159: the result enters its destination in write, add or wide mode; `bad` poisons the whole block. -/
def State.writeBlock (s : State) (p c : Nat) (b : BlockProd) (pr : List Nat) (bad : Bool) : State :=
  let l :=
    if b.mode = 1 then
      (List.zipWith fadd (wordsOf ((s.cluster p c).tileBytes (b.dest * 0x10000) 0x10000)) pr).flatMap (leBytes 4)
    else if b.mode = 2 then blockBytes 0 pr
    else blockBytes b.wType pr
  s.outBytes p c b.place.1 b.place.2 l (if bad then b.destGranules else [])

/-- Mark a destination block poisoned without another change (R374). -/
def State.poisonBlock (s : State) (p c : Nat) (b : BlockProd) : State :=
  s.modCluster p c (fun x =>
    if b.mode = 2 then { x with widePoison := setIns x.widePoison b.dest }
    else { x with tilePoison := b.destGranules.foldl setIns x.tilePoison })

/-- R368: whether the product reads a poisoned granule: operand lines, exponents, and in add mode the block it adds to. -/
def State.blockPoisoned (s : State) (p c : Nat) (b : BlockProd) : Bool :=
  let lines := fun off n => (List.range 128).any (fun i => s.inPoison p c .tile (off + 1024 * i) n)
  lines b.aOff 1024 || lines b.bOff (if b.bFmt = 3 then b.k / 2 else 1024) ||
  s.inPoison p c .tile b.aExp b.expBytes || s.inPoison p c .tile b.bExp b.expBytes ||
  (b.mode == 1 && s.inPoison p c .tile (b.dest * 0x10000) 0x10000)

/-- R174: whether an earlier block to the same destination awaits its recompute. -/
def State.destPending (s : State) (p lc : Nat) (b : BlockProd) : Bool :=
  (s.part p).recompute.any (fun r => r.source == lc && !r.audit && r.prod.place == b.place)

/-- R374: whether a cluster audits its block number `n`. -/
def State.auditSelects (s : State) (p n : Nat) : Bool :=
  s.on (.saf p) THX_AUDIT_CTL_en && mix (n ^^^ 0xA3C5_9AC3) % 2 ^ min 16 (s.rd (.saf p) THX_AUDIT_CTL_log2) == 0

/-- Append to the recompute queue. -/
def State.queueRecompute (s : State) (p : Nat) (r : Recompute) : State :=
  s.modPart p (fun x => { x with recompute := x.recompute ++ [r] })

/-- Remove the first entry of the recompute queue that the predicate names. -/
def State.dropRecompute (s : State) (p : Nat) (which : Recompute → Bool) : State :=
  s.modPart p (fun x => { x with recompute := x.recompute.eraseP which })

/-- BLOCK_PRODUCT_END (R158, R159, R167–R170, R374): the block at the head of the matrix engine's queue is formed and checked. A
block that passes is written; one that fails is not, and goes to the recompute queue with copies of its operands. The next block begins.
`errs` are the granules that its reads found with symbol errors (R178). -/
def execBlockProductEnd (p : PartId) (c : LogicalCluster) (flips : List Flip) (errs : List ReadError) (s : State) :
    Host.Outcome State Fault Refusal :=
  let k := s.physCluster p.val c.val
  .next (match (s.cluster p.val k).mmaQ with
    | [] => s
    | b :: rest =>
      if s.destPending p.val c.val b then s
      else
        let s := s.findErrors p.val k errs
        let x := s.cluster p.val k
        let bad := s.blockPoisoned p.val k b
        let pr := b.product x flips
        let sel := s.auditSelects p.val x.blocks
        let s := s.modCluster p.val k (fun x => { x with mmaQ := s.beginFirst p.val rest, blocks := x.blocks + 1 })
        let r : Recompute := { source := c.val, prod := b, tile := x.tile, bad := bad, select := sel, audit := false, orig := [] }
        let s :=
          if b.mismatch x pr then
            let s := ((s.bump (.thx p.val) 0).bump (.cluster p.val k) 0).queueRecompute p.val r
            (s.raise (.thx p.val) THX_INT_mismatch).raise (.cluster p.val k) CLU_INT_mismatch
          else
            let s := s.writeBlock p.val k b pr bad
            if sel then s.queueRecompute p.val { r with audit := true, orig := pr } else s
        (s.progress (.cluster p.val k)).wake p.val c.val)

/-! Detections and retirement (R171–R174) -/

/-- The next active logical cluster after one, in ascending order, wrapping (R170), that is not being retired (R174) nor reset. -/
def State.nextCluster (s : State) (p lc : Nat) : Option Nat :=
  ((List.range 23).map (fun i => (lc + 1 + i) % 24)).find? (fun n =>
    !s.clusterIdle p n && s.rd (.cluster p (s.physCluster p n)) THX_STATE_role == n)

/-- The lowest-numbered free spare cluster of a partition (R172). -/
def State.spareCluster? (s : State) (p : Nat) : Option Nat :=
  (List.range 26).find? (fun c =>
    s.rd (.cluster p c) THX_STATE_role == 0x1F && (s.part p).retiring.all (fun r => r.spare != c))

/-- R172: the retirement of a logical cluster begins: it stops issuing; without a free spare the partition fails
(R35), and INT_STATUS says why (R176). -/
def State.beginRetire (s : State) (p lc : Nat) : State :=
  if s.clusterHeld p lc then s
  else match s.spareCluster? p with
    | none => ((s.raise (.thx p) THX_INT_spare_exhausted).failPart p 1).wr (.thx p) (HDR_INT THX_INT_spare_exhausted) 1
    | some c =>
      (s.wr (.cluster p (s.physCluster p lc)) THX_STATE_state 3).modPart p (fun x =>
        { x with retiring := x.retiring ++ [{ logical := lc, spare := c }] })

/-- The ticks of the window of R172 under which a block began (R174). -/
def BlockProd.windowTicks (b : BlockProd) : Nat := 2 ^ min 30 b.window

/-- R171, R172: a counted detection of a logical cluster by a block; the second within the window retires it. None is counted while its
retirement is under way (R174). -/
def State.countDetection (s : State) (p lc : Nat) (b : BlockProd) : State :=
  if s.clusterHeld p lc then s
  else
    let k := s.physCluster p lc
    let old := (s.cluster p k).detections.filter (fun d => decide (s.now ≤ d + b.windowTicks))
    let s := s.modCluster p k (fun x => { x with detections := old ++ [s.now] })
    let s := ((s.bump (.cluster p k) 1).wr (.cluster p k) THX_ABFT_TICK_tick s.now).raise (.cluster p k) CLU_INT_detection_counted
    if old.isEmpty then s else s.beginRetire p lc

/-- The operands of a copied block. -/
def Recompute.operands (r : Recompute) : Cluster := { Cluster.reset with tile := r.tile }

/-- A recompute or audit that a cluster ran for another (R178). -/
def State.ranFor (s : State) (p lc : Nat) : State :=
  (s.bump (.cluster p (s.physCluster p lc)) 2).progress (.cluster p (s.physCluster p lc))

/-- BLOCK_RECOMPUTE (R170, R171): the next active logical cluster recomputes the oldest queued block. A pass is written and is a
counted detection of the cluster that mismatched; a failure is written poisoned. -/
def execBlockRecompute (p : PartId) (flips : List Flip) (s : State) : Host.Outcome State Fault Refusal :=
  .next (match (s.part p.val).recompute.find? (fun r => !r.audit) with
    | none => s
    | some r =>
      match s.nextCluster p.val r.source with
      | none => s
      | some t =>
        let pr := r.prod.product r.operands flips
        let k := s.physCluster p.val r.source
        let s := (s.dropRecompute p.val (fun q => !q.audit)).ranFor p.val t
        let s :=
          if r.prod.mismatch r.operands pr then
            let s := (s.writeBlock p.val k r.prod pr true).bump (.thx p.val) 2
            s.raise (.thx p.val) THX_INT_block_poisoned
          else
            let s := (s.writeBlock p.val k r.prod pr r.bad).bump (.thx p.val) 1
            let s := if r.select then s.queueRecompute p.val { r with audit := true, orig := pr } else s
            s.countDetection p.val r.source r.prod
        s.wake p.val r.source)

/-- AUDIT_RECOMPUTE (R374): the oldest audit. A second cluster's result that differs bit for bit calls in a third: the one that
differs from the other two receives a counted detection; where the original is wrong, or all differ, the destination is poisoned. -/
def execAuditRecompute (p : PartId) (flips2 flips3 : List Flip) (s : State) : Host.Outcome State Fault Refusal :=
  .next (match (s.part p.val).recompute.find? (fun r => r.audit) with
    | none => s
    | some r =>
      match s.nextCluster p.val r.source with
      | none => s
      | some t2 =>
        let k := s.physCluster p.val r.source
        let s := ((s.dropRecompute p.val (fun q => q.audit)).ranFor p.val t2).bump (.saf p.val) 2
        let p2 := r.prod.product r.operands flips2
        if p2 = r.orig then s
        else
          let s := (s.bump (.saf p.val) 3).raise (.saf p.val) SAF_INT_audit_mismatch
          let t3 := ((s.nextCluster p.val t2).filter (fun n => n != r.source)).getD t2
          let s := s.ranFor p.val t3
          let p3 := r.prod.product r.operands flips3
          if p3 = p2 then (s.poisonBlock p.val k r.prod).countDetection p.val r.source r.prod
          else if p3 = r.orig then s.countDetection p.val t2 r.prod
          else s.poisonBlock p.val k r.prod)

/-- Whether a cluster's engines have drained (R172): no block, no request, no descriptor in progress. -/
def Cluster.drained (x : Cluster) : Bool := x.mmaQ.isEmpty && x.mover.isEmpty && x.vecQ.all (fun v => !v.ran)

/-- Whether a logical cluster can be handed over: its engines have drained, and no block of it awaits its recompute or audit (R172, R174). -/
def State.drained (s : State) (p lc : Nat) : Bool :=
  (s.cluster p (s.physCluster p lc)).drained && (s.part p).recompute.all (fun r => r.source != lc)

/-- CLUSTER_TAKEOVER (R172, R173): a retirement's copy ends. The spare takes over the logical cluster with its threads, queued
descriptors, tile buffers and wide buffer; the old cluster is retired in the field. `errs` are the granules that the copy read with symbol
errors (R173). -/
def execClusterTakeover (p : PartId) (errs : List ReadError) (s : State) : Host.Outcome State Fault Refusal :=
  .next (match (s.part p.val).retiring.find? (fun r => s.drained p.val r.logical) with
    | none => s
    | some r =>
      let k := s.physCluster p.val r.logical
      let s := s.findErrors p.val k errs
      let old := s.cluster p.val k
      let s := s.modCluster p.val r.spare (fun x =>
        { old with detections := x.detections, blocks := x.blocks, sweepTick := x.sweepTick })
      let s := s.modCluster p.val k (fun x =>
        { Cluster.reset with detections := x.detections, blocks := x.blocks, sweepTick := x.sweepTick })
      let s := s.modPart p.val (fun x => { x with retiring := x.retiring.filter (fun q => q.logical != r.logical) })
      let s := (s.wr (.cluster p.val r.spare) THX_STATE_role r.logical).wr (.cluster p.val k) THX_STATE_role 0x1E
      let s := s.wrAll (.thx p.val) [(THX_P_MAP_physical r.logical, r.spare),
        (THX_P_CLUSTERS_spares_left, s.rd (.thx p.val) THX_P_CLUSTERS_spares_left - 1),
        (THX_P_CLUSTERS_retired, s.rd (.thx p.val) THX_P_CLUSTERS_retired + 1)]
      let s := (s.bump (.thx p.val) 3).interruptPart p.val (fun ty i => ty == 0 && i == k)
      let s := (s.raise (.cluster p.val k) CLU_INT_retired).raise (.cluster p.val r.spare) CLU_INT_retired
      (s.raise (.thx p.val) THX_INT_cluster_retired).wake p.val r.logical)

end Sys2Proof.Machine
end

