-- ==== Sys2Proof/Machine/Vector.lean ====
section
/-! DEFINITION. The vector engine (R180–R197): descriptors, native operations, conversions, reductions, refusal and poison. -/
namespace Sys2Proof.Machine

/-! Descriptors (R186, R187) -/

/-- An operand slot with its type. An immediate holds its pattern in `imm`. -/
structure VecSlot where
  imm    : Option Nat
  type   : Nat
  space  : Nat
  addr   : Nat
  stride : List Int
  deriving DecidableEq, Repr

/-- A descriptor. -/
structure VecDesc where
  op     : Nat
  pred   : Nat
  reduce : Nat
  tail   : Nat
  rank   : Nat
  bf16   : Bool
  sat    : Bool
  fill   : Nat
  ext    : List Nat
  x      : VecSlot
  y      : VecSlot
  z      : VecSlot
  d      : VecSlot
  deriving DecidableEq, Repr

/-- The slot at an offset of a descriptor's bytes. -/
def readSlot (l : List Byte) (off type : Nat) (imm : Bool) : VecSlot :=
  let w := leAt l off 8
  { imm := if imm then some (bits w 0 32) else none, type := type, space := bits w 61 2, addr := bits w 0 41
    stride := (List.range 4).map (fun k => signed 32 (leAt l (off + 8 + 4 * k) 4)) }

/-- The descriptor in 128 bytes (R186). -/
def readDesc (l : List Byte) : VecDesc :=
  let w := leAt l 0 8
  { op := bits w 0 8, pred := bits w 8 3, reduce := bits w 12 2, tail := bits w 14 2, rank := bits w 16 2 + 1
    bf16 := bit w 18, sat := bit w 19, fill := leAt l 0x08 4
    ext := (List.range 4).map (fun k => if k < bits w 16 2 + 1 then leAt l (0x10 + 4 * k) 4 else 1)
    x := readSlot l 0x20 (bits w 24 4) (bit w 20), y := readSlot l 0x38 (bits w 28 4) (bit w 21)
    z := readSlot l 0x50 (bits w 32 4) (bit w 22), d := readSlot l 0x68 (bits w 36 4) false }

/-- R188: the size of an element. -/
def elemSize (t : Nat) : Nat :=
  match t with
  | 0 | 5 => 4
  | 1 | 2 => 2
  | _ => 1

/-- R182: the inputs that an operation uses. -/
def VecDesc.inputs (d : VecDesc) : List VecSlot :=
  match d.op with
  | 3 | 5 => [d.x, d.y, d.z]
  | _ => [d.x, d.y]

/-- Inputs read from memory. -/
def VecDesc.reads (d : VecDesc) : List VecSlot := d.inputs.filter (fun o => o.imm.isNone)

def VecDesc.e (d : VecDesc) (k : Nat) : Nat := d.ext.getD k 1
/-- Rows: the indices (i3, i2, i1). -/
def VecDesc.rows (d : VecDesc) : Nat := d.e 1 * d.e 2 * d.e 3

/-- The four indices of element `i0` of row `r`. -/
def VecDesc.index (d : VecDesc) (i0 r : Nat) : List Nat := [i0, r % d.e 1, r / d.e 1 % d.e 2, r / (d.e 1 * d.e 2)]

/-- R189: the address of an element. -/
def VecSlot.at_ (o : VecSlot) (ix : List Nat) : Int :=
  o.addr + (List.zipWith (fun (i : Nat) s => (i : Int) * s) ix o.stride).foldl (· + ·) 0 * elemSize o.type

/-- The addresses of an operand's elements, in order. -/
def VecDesc.addrs (d : VecDesc) (o : VecSlot) : List Int :=
  (List.range d.rows).flatMap (fun r => (List.range (d.e 0)).map (fun i => o.at_ (d.index i r)))

/-- R191: where the fill of a row ends: the next multiple of 1024 ÷ size(type_d). -/
def VecDesc.fillEnd (d : VecDesc) : Nat :=
  let n := 1024 / elemSize d.d.type
  (d.e 0 + n - 1) / n * n

/-- The addresses that D takes: one element a row in a reduction (R192), with the filled positions in fill mode (R191). -/
def VecDesc.dests (d : VecDesc) : List Int :=
  let n := if d.reduce ≠ 0 then 1 else if d.tail = 1 then d.fillEnd else d.e 0
  (List.range d.rows).flatMap (fun r => (List.range n).map (fun i => d.d.at_ (d.index i r)))

/-! Refusal (R195) -/

def VecSlot.space? (o : VecSlot) : Option Space :=
  match o.space with
  | 0 => some .device
  | 1 => some .tile
  | 2 => some .wide
  | _ => none

/-- R181, R188, R190: whether a type may stand in a slot. -/
def VecDesc.typeOk (d : VecDesc) (o : VecSlot) : Bool :=
  o.type < 6 && (!d.bf16 || o.type == 1 || o.type == 3 || o.type == 4) && (o.imm.isSome || o.space != 2 || o.type == 0)

/-- Whether an element address is outside its space or mapped memory, or misaligned. -/
def VecSlot.outside (o : VecSlot) (a : Int) : Bool :=
  let sz := elemSize o.type
  decide (a < 0) || a % (sz : Int) != 0 ||
  match o.space? with
  | some .device => !rangeIn (List.range 8) a.toNat sz
  | some .tile => tileSize < a.toNat + sz
  | some .wide => wideSize < a.toNat + sz
  | none => true

/-- The range from the lowest to past the highest of some addresses. -/
def addrSpan (l : List Int) (sz : Nat) : Int × Int :=
  match l with
  | [] => (0, 0)
  | a :: r => (r.foldl min a, r.foldl max a + sz)

/-- R195 reason 0x5: D's range overlaps an input's, unless it is the exact in-place operand. -/
def VecDesc.clash (d : VecDesc) (o : VecSlot) : Bool :=
  let a := addrSpan d.dests (elemSize d.d.type)
  let b := addrSpan (d.addrs o) (elemSize o.type)
  o.space == d.d.space && decide (a.1 < b.2) && decide (b.1 < a.2) &&
  !(d.reduce == 0 && o.addr == d.d.addr && o.type == d.d.type && o.stride == d.d.stride)

/-- Whether an extent within the rank is 0 (R189). -/
def VecDesc.empty (d : VecDesc) : Bool := d.ext.contains 0

/-- R195: the reason for which a descriptor at an address is refused, 0 for none. Reasons are tried in ascending order; a
misaligned descriptor takes 0x4 (DEDUCED, log entry 22). -/
def State.refuses (s : State) (p at_ : Nat) (d : VecDesc) : Nat :=
  let used := d.reads ++ [d.d]
  if d.op = 0 ∨ 7 < d.op ∨ (d.op = 4 ∧ d.pred = 7) then 1
  else if (d.inputs ++ [d.d]).any (fun o => !d.typeOk o) then 2
  else if used.any (fun o => o.space == 3) || d.reduce == 3 || 2 ≤ d.tail ||
      (d.tail == 1 && (d.d.stride.getD 0 0 != 1 || d.reduce != 0)) then 3
  else if at_ % 128 ≠ 0 then 4
  else if d.empty then 0
  else if d.reads.any (fun o => (d.addrs o).any o.outside) || d.dests.any d.d.outside then 4
  else if d.reads.any d.clash then 5
  else if d.reads.any (fun o => o.space == 0 && (d.addrs o).any (fun a => !s.reach p a.toNat (elemSize o.type))) ||
      (d.d.space == 0 && d.dests.any (fun a => !s.reach p a.toNat (elemSize d.d.type))) then 6
  else 0

/-- Whether a descriptor refused for a reason was a refused access of R165: to a partition outside the context's, or to an unmapped
address. -/
def VecDesc.refusedAccess (d : VecDesc) (reason : Nat) : Bool :=
  let unmapped := fun (o : VecSlot) (l : List Int) =>
    o.space == 0 && l.any (fun a => decide (a < 0) || !rangeIn (List.range 8) a.toNat (elemSize o.type))
  reason == 6 || (reason == 4 && (d.reads.any (fun o => unmapped o (d.addrs o)) || unmapped d.d d.dests))

/-! Elements (R180–R185) -/

/-- R181: an element loaded from its type. INT32 converts to FP32 with RNE. -/
def loadElem (t v : Nat) : Num :=
  match t with
  | 0 => fp32.decode v
  | 1 => bf16.decode v
  | 2 => fp16.decode v
  | 3 => e4m3.decode v
  | 4 => e5m2.decode v
  | _ => f32 (f32OfInt (signed 32 v))

/-- R185: a result as the destination type holds it. -/
def storeElem (t : Nat) (sat : Bool) (x : Num) : Nat :=
  let o : Over := if sat then .sat else .inf
  match t with
  | 0 => fp32.encode x
  | 1 => bf16.encode x
  | 2 => fp16.encodeWith o false x
  | 3 => e4m3.encodeWith o sat x
  | 4 => e5m2.encodeWith o false x
  | _ =>
    match x with
    | .nan => 0
    | .inf neg => if neg then 2 ^ 31 else 2 ^ 31 - 1
    | y => unsigned 32 (max (-(2 ^ 31)) (min (2 ^ 31 - 1) y.rne))

/-- R183: a predicate of cmp. -/
def vecPred (pred : Nat) (x y : Num) : Bool :=
  match pred with
  | 0 => Num.cmp x y == some .eq
  | 1 => Num.cmp x y != some .eq
  | 2 => x.lt y
  | 3 => x.le y
  | 4 => x.gt y
  | 5 => x.gt y || Num.cmp x y == some .eq
  | _ => x.isNaN || y.isNaN

/-- R182: the exact result of an operation. -/
def vecOp (op pred : Nat) (x y z : Num) : Num :=
  match op with
  | 1 => x.add y
  | 2 => x.mul y
  | 3 => (x.mul y).add z
  | 4 => if vecPred pred x y then .fin false 1 0 else .fin false 0 0
  | 5 => if !x.isZero && !x.isNaN then y else z
  | 6 => x.min2 y
  | _ => x.max2 y

/-- R180: the result rounded once to the mode's precision. -/
def VecDesc.round (d : VecDesc) (x : Num) : Num := if d.bf16 then Machine.bf16.decode (Machine.bf16.encode x) else f32 (rne32 x)

/-- The pattern an input slot gives at an index. -/
def State.slotValue (s : State) (p c : Nat) (o : VecSlot) (ix : List Nat) : Num :=
  let sz := elemSize o.type
  match o.imm, o.space? with
  | some v, _ => loadElem o.type (v % 2 ^ (8 * sz))
  | none, some sp => loadElem o.type (leNat (s.inBytes p c sp (o.at_ ix).toNat sz))
  | none, none => .nan

/-- R196: whether an input element lies in a poisoned granule. -/
def State.slotPoison (s : State) (p c : Nat) (o : VecSlot) (ix : List Nat) : Bool :=
  match o.imm, o.space? with
  | none, some sp => s.inPoison p c sp (o.at_ ix).toNat (elemSize o.type)
  | _, _ => false

/-- The result at an index. -/
def State.vecResult (s : State) (p c : Nat) (d : VecDesc) (ix : List Nat) : Num :=
  d.round (vecOp d.op d.pred (s.slotValue p c d.x ix) (s.slotValue p c d.y ix) (s.slotValue p c d.z ix))

def State.vecPoison (s : State) (p c : Nat) (d : VecDesc) (ix : List Nat) : Bool :=
  d.inputs.any (fun o => s.slotPoison p c o ix)

/-! Reductions (R192) -/

/-- The native step of a reduction, in FP32 with RNE. -/
def reduceStep (reduce : Nat) (x y : Num) : Num := if reduce = 1 then f32 (rne32 (x.add y)) else x.max2 y

/-- The identity that pads a chunk. -/
def reduceUnit (reduce : Nat) : Num := if reduce = 1 then .fin true 0 0 else .inf true

/-- One stage of the tree: every even element absorbs its neighbour. -/
def reducePairs (reduce : Nat) : List Num → List Num
  | a :: b :: r => reduceStep reduce a b :: reducePairs reduce r
  | l => l

/-- The tree of eight stages over a padded chunk. -/
def reduceChunk (reduce : Nat) (l : List Num) : Num :=
  let full := l ++ List.replicate (256 - l.length) (reduceUnit reduce)
  ((List.range 8).foldl (fun m _ => reducePairs reduce m) full).headD (reduceUnit reduce)

/-- R192: the reduction of a row: chunks of 256 from i0 = 0, combined in chunk order. -/
def reduceRow (reduce : Nat) (l : List Num) : Num :=
  let cs := (List.range ((l.length + 255) / 256)).map (fun k => reduceChunk reduce ((l.drop (256 * k)).take 256))
  match cs with
  | [] => reduceUnit reduce
  | c :: r => r.foldl (reduceStep reduce) c

/-! The save tile writer (R207, R252). Library programs write save tiles, so no command calls these. -/

/-- The larger of two magnitudes. -/
def maxMag (m x : Num) : Num := if x.isFinite && x.abs.gt m then x.abs else m

/-- R207: the exponent of a block of 128 values: the smallest e with 2^(e − 127) at least the largest finite magnitude ÷ F, where F is the
format's largest finite value, clamped to 0–254; 127 where no finite value is other than zero. -/
def saveExp (f : Fmt) (vs : List Num) : Nat :=
  let m := vs.foldl maxMag (.fin false 0 0)
  let top := f.decode f.maxFinite
  let k := m.floorLog2 - top.floorLog2
  if m.isZero then 127 else (max 0 (min 254 ((if m.gt (top.mul (.pow2 k)) then k + 1 else k) + 127))).toNat

/-- R207, R252: a value's code under an exponent: finite values saturate, NaN and the infinities store as NaN. -/
def saveCode (f : Fmt) (e : Nat) (v : Num) : Nat :=
  if v.isFinite then f.encodeWith .sat false (v.mul (.pow2 (127 - (e : Int)))) else f.nan

/-! Writing (R189–R191, R196) -/

/-- Write an element's pattern, without a change of poison. -/
def State.putElem (s : State) (p c : Nat) (o : VecSlot) (a v : Nat) : State :=
  let l := leBytes (elemSize o.type) v
  match o.space? with
  | some .device => s.setBytes a l
  | some .tile => s.modCluster p c (fun x => x.setTiles a l)
  | some .wide => s.modCluster p c (fun x => x.wideAdds (a / 4) [v])
  | none => s

/-- R370, R196: after a descriptor's writes at the addresses `ws`, granules with a poisoned result are poisoned, and others that
were covered whole are clean. -/
def settlePoison (old : List Nat) (ws bad : List Int) (sz : Nat) : List Nat :=
  let covered := fun (g : Nat) => (List.range 32).all (fun i =>
    ws.any (fun a => decide (a ≤ ((32 * g + i : Nat) : Int)) && decide (((32 * g + i : Nat) : Int) < a + sz)))
  (bad.flatMap (fun a => granules a.toNat sz)).foldl setIns (old.filter (fun g => !covered g))

/-- Settle the poison of a descriptor's destination. -/
def State.settleDest (s : State) (p c : Nat) (o : VecSlot) (ws bad : List Int) : State :=
  let sz := elemSize o.type
  match o.space? with
  | some .device => { s with poison := settlePoison s.poison ws bad sz }
  | some .tile => s.modCluster p c (fun x => { x with tilePoison := settlePoison x.tilePoison ws bad sz })
  | some .wide => s.modCluster p c (fun x =>
      { x with widePoison := (bad.map (fun a => a.toNat / 0x10000)).foldl setIns x.widePoison })
  | none => s

/-- One row of a descriptor without reduction: its elements in order, then the fill (R191). -/
def State.vecRow (s : State) (p c : Nat) (d : VecDesc) (r : Nat) : State :=
  let s := s.each (List.range (d.e 0)) (fun s i =>
    s.putElem p c d.d (d.d.at_ (d.index i r)).toNat (storeElem d.d.type d.sat (s.vecResult p c d (d.index i r))))
  if d.tail = 1 then
    s.each (List.range (d.fillEnd - d.e 0)) (fun s i => s.putElem p c d.d (d.d.at_ (d.index (d.e 0 + i) r)).toNat d.fill)
  else s

/-- One row of a reduction: the row's one element (R192). -/
def State.vecReduce (s : State) (p c : Nat) (d : VecDesc) (r : Nat) : State :=
  let l := (List.range (d.e 0)).map (fun i => s.vecResult p c d (d.index i r))
  s.putElem p c d.d (d.d.at_ (d.index 0 r)).toNat (storeElem d.d.type d.sat (reduceRow d.reduce l))

/-- R196: the addresses that take a poisoned result: an element's own, in a reduction the row's. -/
def State.poisonedDests (s : State) (p c : Nat) (d : VecDesc) : List Int :=
  (List.range d.rows).flatMap (fun r =>
    let bad := (List.range (d.e 0)).filter (fun i => s.vecPoison p c d (d.index i r))
    if d.reduce ≠ 0 then (if bad.isEmpty then [] else [d.d.at_ (d.index 0 r)])
    else bad.map (fun i => d.d.at_ (d.index i r)))

/-- Run an accepted descriptor. -/
def State.runDesc (s : State) (p c : Nat) (d : VecDesc) : State :=
  if d.empty then s
  else
    let bad := s.poisonedDests p c d
    let t := s.each (List.range d.rows) (fun s r => if d.reduce ≠ 0 then s.vecReduce p c d r else s.vecRow p c d r)
    let t := t.settleDest p c d.d d.dests bad
    if bad.isEmpty then t else (t.wr (.cluster p c) VEC_ERR_poisoned 1).bumpReg (.cluster p c) VEC_POISON_CNT

/-- R195: refuse a descriptor. -/
def State.refuseDesc (s : State) (p c thread reason : Nat) : State :=
  let pg := Page.cluster p c
  let s := (s.bumpReg pg VEC_REFUSE_CNT).wrAll pg
    [(VEC_ERR_refused, 1), (VEC_LAST_REFUSE_thread, thread), (VEC_LAST_REFUSE_reason, reason)]
  if s.on pg VEC_CTL_halt_on_refuse then
    s.modCluster p c (fun x => x.modThread thread (fun y => { y with st := .halted }))
  else s

/-- R193: the element groups of a descriptor. -/
def VecDesc.groups (d : VecDesc) : Nat :=
  let n := if d.bf16 then 512 else 256
  d.rows * ((d.e 0 + n - 1) / n)

/-- The queue with its first descriptor that had not run marked as run. -/
def markRan : List VecItem → List VecItem
  | [] => []
  | v :: r => if v.ran then v :: markRan r else { v with ran := true } :: r

/-- The vector engine takes the first descriptor of its queue that has not run, if its operation is `op` or a code that R182 refuses; `errs`
are the granules that it reads with symbol errors (R164, R178). A refused access counts (R176). A poisoned descriptor is not executed
(R369); none starts while the cluster is being retired (R197). -/
def State.vecRun (s : State) (p lc op : Nat) (errs : List ReadError) : State :=
  let c := s.physCluster p lc
  match (s.cluster p c).vecQ.find? (fun v => !v.ran) with
  | none => s
  | some v =>
    let d := readDesc (s.bytes v.addr 128)
    if s.clusterHeld p lc || !(d.op == op || d.op == 0 || 7 < d.op) then s
    else
      let t := s.modCluster p c (fun x => { x with vecQ := markRan x.vecQ })
      if s.poisonedIn v.addr 128 then t
      else
        let reason := s.refuses p v.addr d
        if reason ≠ 0 then (if d.refusedAccess reason then t.bump (.thx p) 4 else t).refuseDesc p c v.thread reason
        else
          let id := ((s.cluster p c).thread? v.thread).map (fun y => y.cmd)
          let t := match id with
            | some k => t.countTag p k (fun g => { g with groups := g.groups + d.groups })
            | none => t
          (t.findErrors p c errs).runDesc p c d

/-- ADD (R182): X + Y. -/
def execAdd (p : PartId) (c : LogicalCluster) (errs : List ReadError) (s : State) : Host.Outcome State Fault Refusal :=
  .next (s.vecRun p.val c.val 1 errs)
/-- MUL (R182): X × Y. -/
def execMul (p : PartId) (c : LogicalCluster) (errs : List ReadError) (s : State) : Host.Outcome State Fault Refusal :=
  .next (s.vecRun p.val c.val 2 errs)
/-- FMA (R182): X × Y + Z with one rounding. -/
def execFma (p : PartId) (c : LogicalCluster) (errs : List ReadError) (s : State) : Host.Outcome State Fault Refusal :=
  .next (s.vecRun p.val c.val 3 errs)
/-- CMP (R182, R183): +1.0 where the predicate holds, otherwise +0.0. -/
def execCmp (p : PartId) (c : LogicalCluster) (errs : List ReadError) (s : State) : Host.Outcome State Fault Refusal :=
  .next (s.vecRun p.val c.val 4 errs)
/-- SELECT (R182): Y where X is non-zero and not NaN, otherwise Z. -/
def execSelect (p : PartId) (c : LogicalCluster) (errs : List ReadError) (s : State) : Host.Outcome State Fault Refusal :=
  .next (s.vecRun p.val c.val 5 errs)
/-- MIN (R182). -/
def execMin (p : PartId) (c : LogicalCluster) (errs : List ReadError) (s : State) : Host.Outcome State Fault Refusal :=
  .next (s.vecRun p.val c.val 6 errs)
/-- MAX (R182). -/
def execMax (p : PartId) (c : LogicalCluster) (errs : List ReadError) (s : State) : Host.Outcome State Fault Refusal :=
  .next (s.vecRun p.val c.val 7 errs)

/-- VEC_DESCRIPTOR_COMPLETE (R193): the oldest descriptor that has run completes, and threads that wait for it go on. -/
def execVecDescriptorComplete (p : PartId) (c : LogicalCluster) (s : State) : Host.Outcome State Fault Refusal :=
  let k := s.physCluster p.val c.val
  .next (match (s.cluster p.val k).vecQ with
    | v :: rest =>
      if v.ran then ((s.modCluster p.val k (fun x => { x with vecQ := rest })).progress (.cluster p.val k)).wake p.val c.val
      else s
    | [] => s)

end Sys2Proof.Machine
end

