-- ==== Sys2Proof/Machine/Update.lean ====
section
/-! DEFINITION. The update engine (R225–R245): UPDATE, UPDATE_PASS, UPDATE_CHUNK and UPDATE_PASS_END, with chunk headers, the
chunk digest (R373) and the ratio watch. -/
namespace Sys2Proof.Machine

/-! Descriptors and headers (R233, R241) -/

/-- The update descriptor in 64 bytes. -/
def readUpdDesc (l : List Byte) : UpdDesc :=
  let w := leAt l 0x38 8
  { master := leAt l 0 8, mom1 := leAt l 8 8, mom2 := leAt l 0x10 8, gradEven := leAt l 0x18 8, gradOdd := leAt l 0x20 8
    owners := leAt l 0x28 8, elemBase := leAt l 0x30 8, first := bits w 0 24, chunks := bits w 24 16, layer := bits w 40 12
    bf16W := bit w 52, bf16M := bit w 53 }

def chunkBytes : Nat := 0x20_0000
/-- Elements of a chunk (R226). -/
def UpdDesc.elems (d : UpdDesc) : Nat := if d.bf16W then 1048576 else 524288
/-- Bytes of a moment of a chunk. -/
def UpdDesc.momBytes (d : UpdDesc) : Nat := d.elems * (if d.bf16M then 2 else 4)
/-- The tiles of a chunk. -/
def UpdDesc.tiles (d : UpdDesc) : Nat := d.elems / 262144

/-- The gradient buffer of a step, by parity (R234). -/
def UpdDesc.grad (d : UpdDesc) (step : Nat) : Nat := if step % 2 = 0 then d.gradEven else d.gradOdd

/-- The ranges of device memory that a descriptor names. -/
def UpdDesc.ranges (d : UpdDesc) : List (Nat × Nat) :=
  let opt := fun a n => if a = 0 then [] else [(a, n)]
  [(d.master, d.chunks * chunkBytes), (d.gradEven, 64 + 4 * d.chunks * d.elems), (d.gradOdd, 64 + 4 * d.chunks * d.elems)] ++
  opt d.mom1 (d.chunks * d.momBytes) ++ opt d.mom2 (d.chunks * d.momBytes) ++ opt d.owners (32 * d.chunks * d.tiles)

/-- The address of a chunk header (R233). -/
def State.headerAt (s : State) (p k : Nat) : Nat := s.rd (.upd p) UPD_HDR_BASE_base * 4096 + k * 64

/-- Step, state and digest of a header. -/
def State.hdrStep (s : State) (a : Nat) : Nat := s.word a 8
def State.hdrState (s : State) (a : Nat) : Nat := bits (s.word (a + 8) 4) 0 2
def State.hdrDigest (s : State) (a : Nat) : Nat := s.word (a + 16) 8

/-- Write a header whole. -/
def State.putHeader (s : State) (a step state layer digest : Nat) : State :=
  s.put a (leBytes 8 step ++ leBytes 8 (state + 4 * layer) ++ leBytes 8 digest ++ List.replicate 40 0)

/-- R234: whether the gradient of a step is present. -/
def State.gradPresent (s : State) (d : UpdDesc) (step : Nat) : Bool :=
  let a := d.grad step
  s.hdrStep a == step && s.hdrState a == 0 && !s.poisonedIn a 64

/-! The chunk digest (R373) -/

/-- The contribution of word x at index j. -/
def digestTerm (j x : Nat) : Nat := mix (x ^^^ mix (j ^^^ 0x5BD1_E995)) * 2 ^ 32 + mix (x ^^^ mix j)

/-- The terms of one tensor of a chunk. -/
def State.digestTensor (s : State) (tau a n : Nat) : Nat :=
  (List.range (n / 4)).foldl (fun h i => h + digestTerm (tau * 2 ^ 21 + i) (s.word (a + 4 * i) 4)) 0

/-- The tensors of chunk `i` that are kept: index, address and bytes. -/
def UpdDesc.tensors (d : UpdDesc) (i : Nat) : List (Nat × Nat × Nat) :=
  [(0, d.master + i * chunkBytes, chunkBytes)] ++
  (if d.mom1 = 0 then [] else [(1, d.mom1 + i * d.momBytes, d.momBytes)]) ++
  (if d.mom2 = 0 then [] else [(2, d.mom2 + i * d.momBytes, d.momBytes)])

/-- Whether a chunk holds a poisoned granule. -/
def State.chunkPoisoned (s : State) (d : UpdDesc) (i : Nat) : Bool := (d.tensors i).any (fun t => s.poisonedIn t.2.1 t.2.2)

/-- R373: the digest of chunk `i`, 0 where it holds a poisoned granule. -/
def State.digest (s : State) (d : UpdDesc) (i : Nat) : Nat :=
  if s.chunkPoisoned d i then 0
  else (d.tensors i).foldl (fun h t => h + s.digestTensor t.1 t.2.1 t.2.2) 0 % 2 ^ 64

/-! Constants (R230, R231) -/

/-- The fields of a constants block, FP32 patterns. -/
structure OptConsts where
  step  : Nat
  opt   : Nat
  nest  : Bool
  lr    : Nat
  beta1 : Nat
  beta2 : Nat
  eps   : Nat
  decay : Nat
  scale : Nat
  t0    : Nat
  deriving DecidableEq, Repr

def readConsts (l : List Byte) : OptConsts :=
  { step := leAt l 0 8, opt := leAt l 8 1, nest := bit (leAt l 8 4) 8, lr := leAt l 0x0C 4, beta1 := leAt l 0x10 4
    beta2 := leAt l 0x14 4, eps := leAt l 0x18 4, decay := leAt l 0x1C 4, scale := leAt l 0x20 4, t0 := leAt l 0x28 8 }

/-- The address of a step's constants block. -/
def State.constsAt (s : State) (p step : Nat) : Nat := s.rd (.upd p) UPD_CONST_BASE_base * 4096 + step % 2 * 256

/-- R233: the bias-correction count of a step. -/
def OptConsts.t (c : OptConsts) (step : Nat) : Int := signed 64 (step + 2 ^ 64 - c.t0)

/-- The fields that a form uses (R228). -/
def OptConsts.used (c : OptConsts) : List Nat :=
  match c.opt with
  | 1 | 2 => [c.lr, c.beta1, c.beta2, c.eps, c.decay, c.scale]
  | 3 => [c.lr, c.beta1, c.decay, c.scale]
  | _ => [c.lr, c.beta1, c.beta2, c.decay, c.scale]

/-- R231: whether a block serves for a step. -/
def OptConsts.valid (c : OptConsts) (step : Nat) : Bool :=
  c.step == step && 1 ≤ c.opt && c.opt ≤ 4 && c.used.all (fun x => (f32 x).isFinite) &&
  (2 < c.opt || ((f32 c.eps).gt (.fin false 0 0) && decide (1 ≤ c.t step)))

/-- Whether a step's constants block is read clean and serves for it. -/
def State.constsOk (s : State) (p step : Nat) : Bool :=
  !s.poisonedIn (s.constsAt p step) 256 && (readConsts (s.bytes (s.constsAt p step) 256)).valid step

/-! Arithmetic of an element (R228, R229) -/

def one32 : Nat := 0x3F80_0000

/-- R233: β^t. -/
def powT (beta : Nat) : Nat → Nat → Nat → Nat
  | 0, _, p => p
  | fuel + 1, n, p => if n = 0 then p else powT (fmul beta beta) fuel (n / 2) (if n % 2 = 1 then fmul p beta else p)

/-- An element's state. -/
structure Elem where
  w : Nat
  m : Nat
  v : Nat
  deriving DecidableEq, Repr

/-- sign(k), with sign(±0) = +0. -/
def sign32 (k : Nat) : Nat :=
  match f32 k with
  | .nan => fp32.nan
  | x => if x.isZero then 0 else if x.isNeg then 0xBF80_0000 else one32

/-- R228: the form of an optimiser on one element; `lr` is the step's rate under the layer's factor. -/
def OptConsts.form (c : OptConsts) (lr b1 b2 : Nat) (x : Elem) (gr : Nat) : Elem :=
  let g0 := fmul gr c.scale
  let g := if c.opt = 2 then ffma c.decay x.w g0 else g0
  let c1 := fsub one32 c.beta1
  let c2 := fsub one32 c.beta2
  match c.opt with
  | 1 | 2 =>
    let m := ffma c.beta1 x.m (fmul c1 g)
    let v := ffma c.beta2 x.v (fmul c2 (fmul g g))
    let d := fdiv (fdiv m b1) (fadd (fsqrt (fdiv v b2)) c.eps)
    let u := if c.opt = 1 then fadd d (fmul c.decay x.w) else d
    { w := ffma (fneg lr) u x.w, m := m, v := v }
  | 3 =>
    let m := ffma c.beta1 x.m g
    let u := if c.nest then fadd g (fmul c.beta1 m) else m
    { w := ffma (fneg lr) (fadd u (fmul c.decay x.w)) x.w, m := m, v := x.v }
  | _ =>
    let k := ffma c.beta1 x.m (fmul c1 g)
    let u := fadd (sign32 k) (fmul c.decay x.w)
    { w := ffma (fneg lr) u x.w, m := ffma c.beta2 x.m (fmul c2 g), v := x.v }

/-- The moments that a form keeps (R228). -/
def OptConsts.moments (c : OptConsts) : Nat := if c.opt ≤ 2 then 2 else 1

/-- Whether the state that a form keeps is finite. -/
def OptConsts.finite (c : OptConsts) (x : Elem) : Bool :=
  (f32 x.w).isFinite && (f32 x.m).isFinite && (c.moments < 2 || (f32 x.v).isFinite)

/-- A BF16 moment: RNE on write, exact on read (R225). -/
def narrow16 (x : Nat) : Nat := bf16to32 (bf16.encode (f32 x))

/-- R229: w′ as a BF16 master holds it. -/
def roundMaster (z step e w : Nat) : Nat := bf16to32 (stochBf16 (drawWord 0x6C8E_9CF5 z step e) w)

/-- R228, R229, R236: one update of one element at a step; none where it is held because its result is not finite. -/
def OptConsts.update (c : OptConsts) (d : UpdDesc) (lr z step e : Nat) (x : Elem) (gr : Nat) : Option Elem :=
  let t := (c.t step).toNat
  let y := c.form lr (fsub one32 (powT c.beta1 64 t one32)) (fsub one32 (powT c.beta2 64 t one32)) x gr
  let y : Elem := if d.bf16M then { y with m := narrow16 y.m, v := if c.moments = 2 then narrow16 y.v else y.v } else y
  if !c.finite y then none
  else
    let y : Elem := if d.bf16W then { y with w := roundMaster z step e y.w } else y
    if c.finite y then some y else none

/-! A chunk (R232, R235, R236, R239) -/

/-- What a chunk's elements have come to so far: sums of R239, whether any was updated, held updates, non-finite inputs, elements
written poisoned, and the granules to poison. -/
structure ChunkSum where
  sDelta : Nat
  sW     : Nat
  any    : Bool
  held   : Nat
  input  : Nat
  bad    : Nat
  poison : List Nat
  deriving DecidableEq, Repr

/-- The FP32 value at an address that holds FP32 or BF16. -/
def State.valueAt (s : State) (a : Nat) (isBf16 : Bool) : Nat := if isBf16 then bf16to32 (s.word a 2) else s.word a 4

/-- The bytes that hold an FP32 value in a format it is exact in. -/
def valueBytes (isBf16 : Bool) (v : Nat) : List Byte := if isBf16 then leBytes 2 (v / 2 ^ 16) else leBytes 4 v

/-- What the engine needs to compute a chunk. -/
structure ChunkCtx where
  d     : UpdDesc
  i     : Nat
  h     : Nat
  back  : Bool
  c     : OptConsts
  prev  : OptConsts
  lr    : Nat
  lrPrev : Nat
  z     : Nat
  deriving DecidableEq, Repr

/-- The moments that the forms of a chunk keep: of a behind chunk, those of either step (R235). -/
def ChunkCtx.moments (x : ChunkCtx) : Nat := if x.back then max x.c.moments x.prev.moments else x.c.moments

/-- The addresses and sizes of an element's kept state: master, then moments. -/
def ChunkCtx.places (x : ChunkCtx) (e : Nat) : List (Nat × Nat) :=
  let n := x.i * x.d.elems + e
  let ws := if x.d.bf16W then 2 else 4
  let ms := if x.d.bf16M then 2 else 4
  [(x.d.master + n * ws, ws), (x.d.mom1 + n * ms, ms)] ++ (if x.moments = 2 then [(x.d.mom2 + n * ms, ms)] else [])

/-- Whether an element's kept state is finite. -/
def ChunkCtx.finite (x : ChunkCtx) (y : Elem) : Bool := x.c.finite y && (!x.back || x.prev.finite y)

/-- The address of an element's gradient of a step. -/
def ChunkCtx.gradAt (x : ChunkCtx) (step e : Nat) : Nat := x.d.grad step + 64 + 4 * (x.i * x.d.elems + e)

/-- One element of a chunk: it is read once, updated once, or twice where the chunk is behind, and written once (R235, R236). Where an
input is poisoned it is only written poisoned (R242, log entry 68). -/
def State.updateElem (x : ChunkCtx) (t : State × ChunkSum) (e : Nat) : State × ChunkSum :=
  let s := t.1
  let a := t.2
  let pl := x.places e
  let at_ := fun i => (pl.getD i (0, 0)).1
  let old : Elem := { w := s.valueAt (at_ 0) x.d.bf16W, m := s.valueAt (at_ 1) x.d.bf16M
                      v := if x.moments = 2 then s.valueAt (at_ 2) x.d.bf16M else 0 }
  let g := s.word (x.gradAt x.h e) 4
  let g' := s.word (x.gradAt (x.h - 1) e) 4
  let grads := x.gradAt x.h e :: (if x.back then [x.gradAt (x.h - 1) e] else [])
  let bad := pl.any (fun q => s.poisonedIn q.1 q.2) || grads.any (fun q => s.poisonedIn q 4)
  if bad then (s, { a with bad := a.bad + 1, poison := a.poison ++ pl.flatMap (fun q => granules q.1 q.2) })
  else if !x.finite old || !(f32 g).isFinite || (x.back && !(f32 g').isFinite) then (s, { a with input := a.input + 1 })
  else
    let idx := x.d.elemBase + x.i * x.d.elems + e
    let mid := if x.back then x.prev.update x.d x.lrPrev x.z (x.h - 1) idx old g' else some old
    let new := x.c.update x.d x.lr x.z x.h idx (mid.getD old) g
    let held := (if mid.isNone then 1 else 0) + (if new.isNone then 1 else 0)
    let y := new.getD (mid.getD old)
    let s := (s.setBytes (at_ 0) (valueBytes x.d.bf16W y.w)).setBytes (at_ 1) (valueBytes x.d.bf16M y.m)
    let s := if x.moments = 2 then s.setBytes (at_ 2) (valueBytes x.d.bf16M y.v) else s
    let dw := fsub y.w old.w
    let a := { a with held := a.held + held }
    (s, if new.isSome then { a with any := true, sDelta := fadd a.sDelta (fmul dw dw), sW := fadd a.sW (fmul y.w y.w) } else a)

/-- The layer's learning rate: lr × lr_scale, rounded once (R228). -/
def State.layerLr (s : State) (p layer lr : Nat) : Nat := fmul lr (s.word (s.rd (.upd p) UPD_LAYER_BASE_base * 4096 + 32 * layer) 4)

/-- The groups of a chunk that its freeze mask freezes (R232). -/
def State.frozenGroups (s : State) (p : Nat) (d : UpdDesc) (k : Nat) : List Nat :=
  (List.range (d.elems / 64)).filter (fun i =>
    bit (s.byte (s.rd (.upd p) UPD_FREEZE_BASE_base * 4096 + k * 2048 + i / 8)).toNat (i % 8))

/-- The owner descriptor of tile `j` of a chunk (R241). -/
def State.ownerOfTile (s : State) (d : UpdDesc) (i j : Nat) : SeatDesc := s.seatDesc (d.owners + 32 * (i * d.tiles + j))

/-- What the image former writes for an owned tile (R129–R131): only a header marked unchanged, or the image of the tile's master values,
poisoned where they are. -/
def State.putImage (s : State) (p h : Nat) (o : SeatDesc) (m : Nat) (d : UpdDesc) (changed : Bool) : State :=
  if !changed then s.writeHeader o.image h 1
  else
    let key : ImageKey := { z := layerSeed (s.layerEntry p o.layer), c := h, k0 := o.k0, n0 := o.n0, n := o.n }
    let t := s.formImage p o.image key (s.masterAt m d.bf16W)
    if s.poisonedIn m (262144 * (if d.bf16W then 2 else 4)) then t.poisonAll (granules o.image imageSize) else t

/-- The image of one tile of a chunk (R241): the engine forms it, and its owner descriptor is seated once the hitch has committed h. A
descriptor of a wide layer is refused (R518), an image outside the context's memory a refused access (R165). -/
def State.tileImage (s : State) (p h : Nat) (o : SeatDesc) (m : Nat) (d : UpdDesc) (changed : Bool) : State :=
  s.guarded p [(s.mapBase p + 8 * o.layer, 8), (o.image, imageSize)]
    (if layerWide (s.layerEntry p o.layer) then s.bump (.upd p) 45
     else (s.putImage p h o m d changed).modPart p (fun x => { x with owned := x.owned ++ [o] }))

/-- Master bytes of a tile, and its address. -/
def UpdDesc.tileBytes (d : UpdDesc) : Nat := 262144 * (if d.bf16W then 2 else 4)
def UpdDesc.tileAt (d : UpdDesc) (i j : Nat) : Nat := d.master + i * chunkBytes + j * d.tileBytes

/-- The images of a chunk's tiles, where this device owns them: a tile is unchanged where `old`, the state before the chunk was written, holds
the same master values (R131). -/
def State.chunkImages (s : State) (p h : Nat) (d : UpdDesc) (i : Nat) (old : State) : State :=
  if d.owners = 0 then s
  else s.each (List.range d.tiles) (fun s j =>
    let a := d.tileAt i j
    s.tileImage p h (s.ownerOfTile d i j) a d (s.bytes a d.tileBytes != old.bytes a d.tileBytes))

/-- R131: keep which tiles of a written chunk have master values that step h left as they were, for an owner's RESEAT of that step. -/
def State.recordSame (s : State) (p h : Nat) (d : UpdDesc) (i : Nat) (old : State) : State :=
  let l := ((List.range d.tiles).map (d.tileAt i)).filter (fun a => s.bytes a d.tileBytes == old.bytes a d.tileBytes)
  s.modPart p (fun x => { x with same := x.same ++ l.map (fun a => (h, a)) })

/-- Write the elements of a chunk's groups that are not frozen, in ascending order (R227, R232), and settle their poison. -/
def State.updateElems (s : State) (x : ChunkCtx) (frozen : List Nat) : State × ChunkSum :=
  let live := (List.range (x.d.elems / 64)).filter (fun g => !frozen.contains g)
  let r := (live.flatMap (fun g => (List.range 64).map (fun n => 64 * g + n))).foldl (State.updateElem x)
    (s, { sDelta := 0, sW := 0, any := false, held := 0, input := 0, bad := 0, poison := [] })
  (r.1.poisonAll r.2.poison, r.2)

/-- Add a chunk's sums to its descriptor's (R239). -/
def addRatio (rs : List Ratio) (desc : Nat) (a : ChunkSum) : List Ratio :=
  rs.zipIdx.map (fun e =>
    if e.2 = desc then { e.1 with sDelta := fadd e.1.sDelta a.sDelta, sW := fadd e.1.sW a.sW, any := e.1.any || a.any } else e.1)

/-- Change the update pass of a partition. -/
def State.modPass (s : State) (p : Nat) (f : UpdPass → UpdPass) : State := s.modPart p (fun x => { x with pass := x.pass.map f })

/-- R234, R236: a shard is refused: it is reported, and completion is withheld from the hitch. -/
def State.refuseShard (s : State) (p reason chunk : Nat) : State :=
  let s := s.wrAll (.upd p) [(UPD_LAST_REFUSE_reason, reason), (UPD_LAST_REFUSE_chunk, chunk)]
  let s := (s.modHitch p (fun x => { x with refused := true })).modPass p (fun x => { x with refused := true })
  (s.wr (.hch p) HCH_RECOVER_pass_done 0).raise (.upd p) UPD_INT_refused

/-- R235, R371: the header that ends a chunk: the step, state 00 and the digest, or state 01 and digest 0 where any granule was
written poisoned. A chunk whose groups are all frozen keeps its digest (R232). -/
def State.endChunk (s : State) (p h : Nat) (d : UpdDesc) (j : ChunkJob) (bad : Nat) : State :=
  let a := s.headerAt p j.k
  if bad ≠ 0 then s.putHeader a h 1 d.layer 0
  else s.putHeader a h 0 d.layer (if j.frozen.length = d.elems / 64 then s.hdrDigest a else s.digest d j.i)

/-- R235: write a due or behind chunk whose header is in state 01. After a non-finite input of this or of an earlier chunk no image is formed
(R236). -/
def State.writeChunk (s : State) (p : Nat) (u : UpdPass) (d : UpdDesc) (j : ChunkJob) : State :=
  let c := readConsts u.consts
  let q := readConsts u.prevConsts
  let x : ChunkCtx := { d := d, i := j.i, h := u.h, back := j.cls == .behind, c := c, prev := q, lr := s.layerLr p d.layer c.lr
                        lrPrev := s.layerLr p d.layer q.lr, z := layerSeed (s.layerEntry p d.layer) }
  let r := s.updateElems x j.frozen
  let t := r.1.endChunk p u.h d j r.2.bad
  let t := ((t.bumpN (.upd p) 3 r.2.input).bumpN (.upd p) 4 r.2.held).bumpN (.upd p) 8 r.2.bad
  let t := t.each j.frozen (fun t _ => t.bumpReg (.upd p) UPD_SUPPRESS_CNT)
  let t := if j.cls == .behind then (t.bumpReg (.upd p) UPD_ROLLFWD_CNT).raise (.upd p) UPD_INT_rolled_forward else t
  let t := t.modPass p (fun v => { v with ratios := addRatio v.ratios j.desc r.2 })
  let t := t.recordSame p u.h d j.i s
  if r.2.input ≠ 0 then
    let t := t.modPass p (fun v => { v with jobs := [], stopped := true })
    if u.stopped then t else t.refuseShard p 5 j.k
  else if u.stopped then t
  else t.chunkImages p u.h d j.i s

/-- R235: the first step of a chunk's write: its header in state 01, with the step and digest that it holds (DESIGN CHOICE, log entry 68). -/
def State.markWriting (s : State) (p : Nat) (d : UpdDesc) (k : Nat) : State :=
  let a := s.headerAt p k
  s.putHeader a (s.hdrStep a) 1 d.layer (s.hdrDigest a)

/-- R242, R243: chunks begin in order while fewer than two are in flight. One that is current is not read; its tiles' images are marked
unchanged (R241). Answers the chunks not begun and those in flight. -/
def State.startChunks (p : Nat) (u : UpdPass) : List ChunkJob → List ChunkJob → State → State × List ChunkJob × List ChunkJob
  | [], fl, s => (s, [], fl)
  | j :: r, fl, s =>
    if 2 ≤ fl.length then (s, j :: r, fl)
    else match u.descs[j.desc]? with
      | none => State.startChunks p u r fl s
      | some d =>
        if j.cls = .current then State.startChunks p u r fl (s.chunkImages p u.h d j.i s)
        else State.startChunks p u r (fl ++ [j]) (s.markWriting p d j.k)

/-- Begin chunks, and show the pass streaming (R243). -/
def State.beginChunks (s : State) (p : Nat) : State :=
  match (s.part p).pass with
  | none => s
  | some u =>
    let r := State.startChunks p u u.jobs u.flying s
    (r.1.modPass p (fun v => { v with jobs := r.2.1, flying := r.2.2 })).wrAll (.upd p)
      [(UPD_STATUS_phase, 3), (UPD_STATUS_in_flight, r.2.2.length)]

/-- R329: a chunk's transfers: its tensors are read and written, its gradients read, that of h − 1 too where it is behind (R235). -/
def State.chunkTransfers (s : State) (u : UpdPass) (d : UpdDesc) (j : ChunkJob) : State :=
  let kept := (d.tensors j.i).map (fun t => t.2)
  let grad := fun (h : Nat) => (d.grad h + 64 + 4 * j.i * d.elems, 4 * d.elems)
  let back := if j.cls == .behind then [grad (u.h - 1)] else []
  (kept ++ kept ++ [grad u.h] ++ back).foldl (fun s r => s.transferred r.1 r.2) s

/-- The oldest chunk in flight is written to its end. -/
def State.finishChunk (s : State) (p : Nat) : State :=
  match (s.part p).pass with
  | none => s
  | some u =>
    match u.flying with
    | [] => s
    | j :: rest =>
      let t := s.modPass p (fun v => { v with flying := rest })
      match u.descs[j.desc]? with
      | none => t
      | some d => ((t.writeChunk p u d j).chunkTransfers u d j).progress (.upd p)

/-- What a pass reads and writes at the addresses of base registers: constants, chunk headers, freeze masks and layer entries. -/
def State.passRanges (s : State) (p : Nat) (u : UpdPass) : List (Nat × Nat) :=
  (s.rd (.upd p) UPD_CONST_BASE_base * 4096, 512) :: u.descs.flatMap (fun d =>
    [(s.headerAt p d.first, 64 * d.chunks), (s.rd (.upd p) UPD_FREEZE_BASE_base * 4096 + d.first * 2048, 2048 * d.chunks),
     (s.rd (.upd p) UPD_LAYER_BASE_base * 4096 + 32 * d.layer, 32)])

/-- R242: chunks in flight complete. -/
def State.landChunks (s : State) (p : Nat) : State :=
  match (s.part p).pass with
  | some u => if u.flying.isEmpty then s else s.guarded p (s.passRanges p u) (u.flying.foldl (fun s _ => s.finishChunk p) s)
  | none => s

/-- UPDATE_CHUNK (R235): the engine writes the next chunk of a classified pass; at its end the chunks that then begin are in flight, with
their headers in state 01 (log entry 68). -/
def execUpdateChunk (p : PartId) (s : State) : Host.Outcome State Fault Refusal :=
  .next (match (s.part p.val).pass with
    | none => s
    | some u =>
      if !u.classified || (u.jobs.isEmpty && u.flying.isEmpty) || s.stopped (isUpdate p.val) then s
      else s.guarded p.val (s.passRanges p.val u) (((s.beginChunks p.val).finishChunk p.val).beginChunks p.val))

/-! The pass (R234, R238) -/

/-- UPDATE (R266, R241): it reads its descriptors; the pass then waits for the flag (R237). A layer beyond the layer table is a
fault of reason 0x8 (R271), a BF16 master needs FEATURE_EN bit 7 (R284). While another pass runs the command waits. -/
def execUpdate (p : PartId) (c : Cmd) (s : State) : Host.Outcome State Fault Refusal :=
  .next (s.issueWith p.val c (fun l =>
    let n := bits c.b.toNat 0 32
    if (s.part p.val).pass.isSome then s
    else match s.operandAt p.val c l.step c.a (64 * n) with
    | none => s.operandFault p.val c l [c.a]
    | some a =>
      let ds := (List.range n).map (fun i => readUpdDesc (s.bytes (a + 64 * i) 64))
      if s.poisonedIn a (64 * n) then s
      else if ds.any (fun d => decide (s.layers p.val ≤ d.layer)) then s.issueFault p.val l 8
      else if ds.any (fun d => d.bf16W) && !s.feature 7 then s.issueFault p.val l 3
      else if ds.any (fun d => d.ranges.any (fun r => !s.reach p.val r.1 r.2)) then s.operandFault p.val c l []
      else
        let id := s.nextId p.val
        let t := (s.issue p.val 5 c l .pass).tagStart p.val id
        let t := t.wrAll (.upd p.val) [(UPD_STATUS_busy, 1), (UPD_STATUS_phase, 1)]
        (t.wr (.hch p.val) HCH_RECOVER_pass_done 0).modPart p.val (fun x =>
          { x with pass := some { cmd := id, h := 0, descs := ds, classified := false, jobs := [], flying := [], ratios := [], refused := false
                                  stopped := false, consts := [], prevConsts := [] } })))

/-- R234: the class of a chunk's header, none where it is bad. `behind` says whether gradient and constants of h − 1 are present. -/
def State.classOf (s : State) (p h k : Nat) (behind : Bool) : Option ChunkClass :=
  let a := s.headerAt p k
  let step := s.hdrStep a
  if s.hdrState a ≠ 0 || s.poisonedIn a 64 then none
  else if step = (h + 2 ^ 64 - 1) % 2 ^ 64 then some .due
  else if step = h then some .current
  else if step = (h + 2 ^ 64 - 2) % 2 ^ 64 ∧ behind then some .behind
  else none

/-- Whether a bad header counts as one in state 01 (R234): state 01 or poisoned. -/
def State.headerTorn (s : State) (p k : Nat) : Bool := s.hdrState (s.headerAt p k) == 1 || s.poisonedIn (s.headerAt p k) 64

/-- R234: whether the constants block of a step is present: its step field equals the step. -/
def State.constsPresent (s : State) (p step : Nat) : Bool := (readConsts (s.bytes (s.constsAt p step) 256)).step == step

/-- The chunks of a descriptor with their classes. -/
def State.classify (s : State) (p h : Nat) (d : UpdDesc) : List (Nat × Option ChunkClass) :=
  let behind := s.constsPresent p (h - 1) && s.gradPresent d (h - 1)
  (List.range d.chunks).map (fun i => (i, s.classOf p h (d.first + i) behind))

/-- The jobs of a descriptor whose shard is not refused. -/
def State.chunkJobs (s : State) (p desc : Nat) (d : UpdDesc) (cls : List (Nat × Option ChunkClass)) : List ChunkJob :=
  cls.filterMap (fun e => e.2.map (fun c =>
    { desc := desc, i := e.1, k := d.first + e.1, cls := c, frozen := s.frozenGroups p d (d.first + e.1) }))

/-- R239: clear the engine's sums of a layer. -/
def State.clearSums (s : State) (p layer : Nat) : State :=
  s.put (s.rd (.upd p) UPD_LAYER_BASE_base * 4096 + 32 * layer + 8) (leBytes 8 0)

/-- The end of a pass: nothing of it is left in the engine. -/
def State.endPass (s : State) (p : Nat) : State :=
  (s.modPart p (fun x => { x with pass := none })).wrAll (.upd p) [(UPD_STATUS_busy, 0), (UPD_STATUS_phase, 0), (UPD_STATUS_in_flight, 0)]

/-- R238, R336: the step is skipped, its owner descriptors are discarded, and an open or exchanged hitch becomes idle. -/
def State.skipPass (s : State) (p : Nat) : State :=
  let s := (((s.endPass p).modPart p (fun x => { x with owned := [] })).bumpReg (.upd p) UPD_SKIP_CNT).raise (.upd p) UPD_INT_step_skipped
  if s.hch p = hchOpen ∨ s.hch p = hchExchanged then s.setHch p hchIdle else s

/-- R231, R234: the steps whose constants blocks a pass uses: h, and h − 1 where a chunk is behind. -/
def usedSteps (h : Nat) (cls : List (Option ChunkClass)) : List Nat := if cls.contains (some .behind) then [h, h - 1] else [h]

/-- R234: read the constants and classify every header; a bad chunk, a refused constants block or an absent gradient refuses the
shard. Every cause counts; the first in the order of R234 is recorded. The pass then streams (R243: until its first chunk begins, the status
shows the classification). -/
def State.classifyPass (s : State) (p : Nat) (u : UpdPass) : State :=
  let h := s.rd (.upd p) UPD_HITCH_STEP_step
  let ds := u.descs.zipIdx.map (fun e => (e.2, e.1, s.gradPresent e.1 h, s.classify p h e.1))
  let refusedBlocks := (usedSteps h (ds.flatMap (fun e => e.2.2.2.map Prod.snd))).filter (fun c => !s.constsOk p c)
  let ok := refusedBlocks.isEmpty
  let absent := ds.any (fun e => !e.2.2.1)
  let bad := ds.flatMap (fun e => (e.2.2.2.filter (fun c => c.2.isNone)).map (fun c => e.2.1.first + c.1))
  let work := ds.filter (fun e => ok && e.2.2.1 && e.2.2.2.all (fun c => c.2.isSome))
  let t := s.bumpN (.upd p) 7 refusedBlocks.length
  let t := if absent then t.bump (.upd p) 2 else t
  let t := t.each bad (fun t k => t.bump (.upd p) (if s.headerTorn p k then 1 else 0))
  let jobs := work.flatMap (fun e => s.chunkJobs p e.1 e.2.1 e.2.2.2)
  let t := t.modPass p (fun v =>
    { v with
      h := h, classified := true, jobs := jobs
      ratios := u.descs.map (fun d => ({ layer := d.layer, sDelta := 0, sW := 0, any := false } : Ratio))
      consts := s.bytes (s.constsAt p h) 256, prevConsts := s.bytes (s.constsAt p (h - 1)) 256 })
  let t := t.each ((work.map (fun e => e.2.1.layer)).eraseDups) (fun t l => t.clearSums p l)
  let t := (t.wr (.upd p) UPD_STATUS_phase 2).modPart p (fun x => { x with same := x.same.filter (fun e => e.1 == h) })
  let k := bad.headD 0
  if !ok then t.refuseShard p 4 k
  else if absent then t.refuseShard p 3 k
  else if bad.isEmpty then t
  else t.refuseShard p (if s.headerTorn p k then 2 else 1) k

/-- R242: whether an abort token waits for the step of a pass; it acts before the non-finite flag. -/
def State.abortWaits (s : State) (p : Nat) (u : UpdPass) : Bool :=
  match s.cmd? p u.cmd with
  | some x => s.tokenWaits (s.stepOf p x)
  | none => false

/-- UPDATE_PASS (R234, R237, R238): once the flag is resolved, the engine skips the step or classifies every chunk. A skip waits for an abort
token of the step to act (R242). -/
def execUpdatePass (p : PartId) (s : State) : Host.Outcome State Fault Refusal :=
  .next (s.ranked (.updatePass p) (match (s.part p.val).pass with
    | none => s
    | some u =>
      if u.classified || !s.on (.upd p.val) UPD_NF_resolved then s
      else if s.on (.upd p.val) UPD_NF_set then (if s.abortWaits p.val u then s else s.skipPass p.val)
      else s.guarded p.val (s.passRanges p.val u) (s.classifyPass p.val u)))

/-! The ratio watch (R239, R240) -/

/-- The zero-run limit: 0 acts as 1. -/
def State.zeroLimit (s : State) (p : Nat) : Nat := max 1 (s.rd (.upd p) UPD_CTL_zero_lim)

/-- Write the engine's flags of a layer entry. -/
def putFlags (run : Nat) (out zero : Bool) : List Byte := leBytes 4 (run + 2 ^ 16 * flag out + 2 ^ 17 * flag zero)

/-- R239, R240: check a layer's entry. -/
def State.checkLayer (s : State) (p layer : Nat) : State :=
  let a := s.rd (.upd p) UPD_LAYER_BASE_base * 4096 + 32 * layer
  let sd := s.word (a + 8) 4
  let sw := s.word (a + 12) 4
  let w := s.word (a + 16) 4
  let rho := f32 (fsqrt (fdiv sd sw))
  let checked := (f32 sw).gt (.fin false 0 0)
  let out := rho.lt (fp16.decode (s.word (a + 4) 2)) || rho.gt (fp16.decode (s.word (a + 6) 2))
  let out' := if checked then out else bit w 16
  let run := if sd = 0 then min 0xFFFF (bits w 0 16 + 1) else 0
  let zero := sd = 0 && (bit w 17 || s.zeroLimit p ≤ run)
  let s := s.put (a + 16) (putFlags run out' zero)
  let s := if checked && out then (s.bump (.upd p) 5).raise (.upd p) UPD_INT_ratio_out else s
  if zero && !bit w 17 then (s.bump (.upd p) 6).raise (.upd p) UPD_INT_zero_run else s

/-- Add a descriptor's sums into its layer's entry (R239). -/
def State.addSums (s : State) (p : Nat) (r : Ratio) : State :=
  let a := s.rd (.upd p) UPD_LAYER_BASE_base * 4096 + 32 * r.layer
  s.put (a + 8) (leBytes 4 (fadd (s.word (a + 8) 4) r.sDelta) ++ leBytes 4 (fadd (s.word (a + 12) 4) r.sW))

/-- R239: the sums enter the layer entries in descriptor issue order, and the layers that had an element updated are checked. -/
def State.watch (s : State) (p : Nat) (rs : List Ratio) : State :=
  let live := rs.filter (fun r => r.any)
  let s := live.foldl (fun s r => s.addSums p r) s
  if s.on (.upd p) UPD_CTL_ratio_en then s.each ((live.map (fun r => r.layer)).eraseDups) (fun s l => s.checkLayer p l) else s

/-- UPDATE_PASS_END (R239, R240, R243): every chunk of a classified pass is done. With no refusal UPD_STEP takes h. -/
def execUpdatePassEnd (p : PartId) (s : State) : Host.Outcome State Fault Refusal :=
  .next (match (s.part p.val).pass with
    | none => s
    | some u =>
      if !u.classified || !u.jobs.isEmpty || !u.flying.isEmpty then s
      else s.guarded p.val (s.passRanges p.val u) <|
        let t := if u.stopped then s else s.watch p.val u.ratios
        let t := t.endPass p.val
        if u.refused then t
        else
          let t := (t.wr (.upd p.val) UPD_STEP_step u.h).raise (.upd p.val) UPD_INT_pass_done
          if (t.part p.val).hitch.refused then t else t.wr (.hch p.val) HCH_RECOVER_pass_done 1)

end Sys2Proof.Machine
end

