-- ==== Sys2Proof/Machine/Collect.lean ====
section
/-! DEFINITION. Hardware collectives (R304–R308): REDUCE_SCATTER, ALL_GATHER, ALL_REDUCE, SHIFT_UP and SHIFT_DOWN. The data of the
other members is an operand of the command; what this module sends is queued on its ports. -/
namespace Sys2Proof.Machine

/-! The axis of a collective (R305, R307) -/

/-- The axis a collective runs on, the number of members, this module's index, and whether the axis is a full ring; and what its messages are
matched by (R305). -/
structure CollAxis where
  axis : Nat
  n    : Nat
  k    : Nat
  full : Bool
  job  : Nat
  step : Nat
  part : Nat
  tag  : Nat
  deriving DecidableEq, Repr

/-- R305: this module's member index on an axis. -/
def State.memberIndex (s : State) (axis : Nat) : Nat :=
  let n := s.sysSize axis
  (axisOf (s.rd .fabG FAB_G_COORD_coord) axis + n - axisOf (s.rd .fabG FAB_G_JOB_ORIGIN_coord) axis % n) % n

/-- The axis that the cut of a partition's command names (R304, R309). -/
def State.collAxis (s : State) (p step : Nat) (c : Cmd) : CollAxis :=
  let axis := s.cutAxis (bits c.c.toNat 44 2)
  { axis := axis, n := s.jobSize axis, k := s.memberIndex axis, full := s.jobSize axis == s.sysSize axis
    job := s.rd .fabG FAB_G_JOB_id, step := step, part := p, tag := bits c.c.toNat 48 16 }

/-- A coordinate with another component on an axis (R292). -/
def withAxis (coord axis v : Nat) : Nat :=
  let at_ := match axis with | 0 => 0 | 1 => 4 | 2 => 8 | _ => 13
  coord - axisOf coord axis * 2 ^ at_ + v * 2 ^ at_

/-- The coordinate of a member of the axis (R305). -/
def State.memberCoord (s : State) (axis j : Nat) : Nat :=
  withAxis s.here axis ((axisOf (s.rd .fabG FAB_G_JOB_ORIGIN_coord) axis + j) % s.sysSize axis)

/-- The member to which this one sends in a direction. -/
def CollAxis.next (x : CollAxis) (plus : Bool) : Nat := if plus then (x.k + 1) % x.n else (x.k + x.n - 1) % x.n

/-- R307: the port of a logical hop; the wrap hop of a partial axis travels back the other way. -/
def CollAxis.port (x : CollAxis) (plus wrap : Bool) : Nat := 2 * x.axis + (if plus != (wrap && !x.full) then 0 else 1)

/-- The port on which this member sends in a direction. -/
def CollAxis.sendPort (x : CollAxis) (plus : Bool) : Nat := x.port plus (if plus then x.k + 1 == x.n else x.k == 0)

/-- The port on which this member receives what travels in a direction. -/
def CollAxis.recvPort (x : CollAxis) (plus : Bool) : Nat := x.port (!plus) (if plus then x.k == 0 else x.k + 1 == x.n)

/-- R306: the members of shard `k` in the order that its reduction takes them. -/
def CollAxis.order (x : CollAxis) (plus : Bool) (k : Nat) : List Nat :=
  (List.range x.n).map (fun i => if plus then (k + 1 + i) % x.n else (k + x.n - 1 - i) % x.n)

/-! Reductions (R306) -/

/-- One step of a reduction: op 0 adds, op 1 takes the maximum. -/
def combine (op x y : Nat) : Nat := if op = 0 then fadd x y else rne32 ((f32 x).max2 (f32 y))

/-- The reduction of one element's values in order. -/
def combineAll (op : Nat) : List Nat → Nat
  | [] => 0
  | v :: vs => vs.foldl (combine op) v

/-- R306: the granules of a shard that go in the + direction. -/
def plusGranules (len : Nat) (bidir : Bool) : Nat := if bidir then (len / 32 + 1) / 2 else len / 32

/-- The bytes and poisoned granules of shard `k`, from granule `lo` to `hi`, reduced over `ms` in order. -/
def reducePart (op len k lo hi : Nat) (ms : List Member) : Member :=
  { data := (List.range (8 * (hi - lo))).flatMap (fun i =>
      leBytes 4 (combineAll op (ms.map (fun (m : Member) => leAt m.data (k * len + 32 * lo + 4 * i) 4))))
    poison := (List.range (hi - lo)).filter (fun g => ms.any (fun m => m.poison.contains (k * len / 32 + lo + g))) }

/-- Two pieces one after the other; the first holds `n` granules. -/
def joinMembers (n : Nat) (x y : Member) : Member :=
  { data := x.data ++ y.data, poison := x.poison ++ y.poison.map (fun g => n + g) }

/-- R306: the result of the reduction of shard `k`. -/
def CollAxis.reduced (x : CollAxis) (op len : Nat) (bidir : Bool) (m : Nat → Member) (k : Nat) : Member :=
  let h := plusGranules len bidir
  joinMembers h (reducePart op len k 0 h ((x.order true k).map m)) (reducePart op len k h (len / 32) ((x.order false k).map m))

/-- Pieces of `n` granules each, one after the other. -/
def joinAll (n : Nat) (ms : List Member) : Member :=
  { data := ms.flatMap (fun (m : Member) => m.data)
    poison := ms.zipIdx.flatMap (fun (e : Member × Nat) => e.1.poison.map (fun g => e.2 * n + g)) }

/-! What this member sends -/

/-- The granules of a member's bytes from granule `lo` to `hi`. -/
def pieceOf (m : Member) (lo hi : Nat) : Member :=
  { data := slice m.data (32 * lo) (32 * (hi - lo)), poison := (m.poison.filter (fun g => lo ≤ g && g < hi)).map (fun g => g - lo) }

/-- The VC0 granules of a message (R301, R305). -/
def CollAxis.granules (x : CollAxis) (to_ : Nat) (m : Member) : List TxGranule :=
  let l := granulesOf m.data
  l.zipIdx.map (fun g =>
    { slot := { vc := 0, data := g.1, poison := m.poison.contains g.2,
                cargo := .coll (BitVec.ofNat 16 x.job) (BitVec.ofNat 64 x.step) (Fin.ofNat 8 x.part) (BitVec.ofNat 16 x.tag) (BitVec.ofNat 18 to_)
                  (g.2 + 1 == l.length) }
      origin := none })

/-- R301, R304: queue a message to the next member in a direction. -/
def State.queueVc0 (s : State) (x : CollAxis) (plus : Bool) (m : Member) : State :=
  s.queueTx (x.sendPort plus) (x.granules (s.memberCoord x.axis (x.next plus)) m)

/-- R306: the partials that this member sends in a direction: that of each shard which passes it on its way. -/
def CollAxis.partials (x : CollAxis) (op len lo hi : Nat) (plus : Bool) (m : Nat → Member) : List Member :=
  (List.range (x.n - 1)).map (fun i =>
    let sh := if plus then (x.k + x.n - 1 - i) % x.n else (x.k + 1 + i) % x.n
    reducePart op len sh lo hi (((x.order plus sh).take (i + 1)).map m))

/-- R306: the shards that this member passes on in an all-gather. -/
def CollAxis.passed (x : CollAxis) (lo hi : Nat) (plus : Bool) (m : Nat → Member) : List Member :=
  (List.range (x.n - 1)).map (fun i =>
    pieceOf (m (if plus then (x.k + x.n - i) % x.n else (x.k + i) % x.n)) lo hi)

/-- Queue what goes in each direction. -/
def State.sendBoth (s : State) (x : CollAxis) (plus minus : List Member) : State :=
  let s := plus.foldl (fun s m => s.queueVc0 x true m) s
  minus.foldl (fun s m => s.queueVc0 x false m) s

/-- Send the partials of a reduce-scatter. -/
def State.sendPartials (s : State) (x : CollAxis) (op len : Nat) (bidir : Bool) (m : Nat → Member) : State :=
  let h := plusGranules len bidir
  s.sendBoth x (x.partials op len 0 h true m) (if bidir then x.partials op len h (len / 32) false m else [])

/-- Send the shards of an all-gather. -/
def State.sendShards (s : State) (x : CollAxis) (len : Nat) (bidir : Bool) (m : Nat → Member) : State :=
  let h := plusGranules len bidir
  s.sendBoth x (x.passed 0 h true m) (if bidir then x.passed h (len / 32) false m else [])

/-! Issue -/

/-- Bytes of device memory with the pieces of them that are poisoned. -/
def State.readMember (s : State) (a n : Nat) : Member :=
  { data := s.bytes a n, poison := ((s.poisonPieces a n).zipIdx.filter (fun e => e.1)).map (fun (e : Bool × Nat) => e.2) }

/-- Write a collective's bytes, its poisoned granules with them (R368). -/
def State.writeMember (s : State) (a : Nat) (m : Member) : State :=
  (s.store a m.data (arrivedPoison a m.data.length m.poison)).transferred a m.data.length

/-- The members' contributions in member order, this module's own at its index. -/
def membersOf (own : Member) (k : Nat) (peers : List Member) (j : Nat) : Member :=
  if j = k then own else peers.getD j { data := [], poison := [] }

/-- R304: whether a command's fields serve its kind. -/
def collFieldsOk (kind : Nat) (c : Cmd) : Bool :=
  let k := bits c.c.toNat 40 3
  let op := bits c.c.toNat 46 2
  let len := bits c.c.toNat 0 40
  k != 0 && k != 7 && len % 32 == 0 && 32 ≤ len && (if kind = 1 ∨ kind = 3 then op < 2 else op == 2)

/-- The collectives of a partition in flight, flag rounds among them (R304, R305). -/
def State.collsOf (s : State) (p : Nat) : Nat := ((s.part p).seq.inflight.filter (fun x => x.op == 7)).length

/-- R305: whether a collective can run now: fewer than 4 of the partition are in flight, and the ports it uses are up. -/
def State.collReady (s : State) (p : Nat) (x : CollAxis) (ports : List Nat) : Bool :=
  decide (s.collsOf p < 4) && (x.n < 2 || ports.all (fun i => s.rd (.port i) FAB_PORT_STATE_link == 2))

/-- Whether a granule belongs to a message of a job, step, partition and tag (R305). -/
def matchesColl (job step part tag : Nat) (g : Slot) : Bool :=
  match g.cargo with
  | .coll j st p t _ _ => j.toNat == job && st.toNat == step && p.val == part && t.toNat == tag
  | _ => false

/-- R301: free the received VC0 granules for which something holds, and return their credits; those kept from before a link-down are owed
none. -/
def State.freeVc0 (s : State) (i : Nat) (drop : Slot → Bool) : State :=
  s.modPort i (fun x =>
    { x with rxQ := x.rxQ.filter (fun g => !drop g), kept := x.kept.filter (fun g => !drop g)
             giveBack := x.giveBack.set 0 (x.giveBack.getD 0 0 + (x.rxQ.filter drop).length) })

/-- R304: whether bidirectional order and ports apply (R307). -/
def CollAxis.bidir (x : CollAxis) (c : Cmd) : Bool := x.full && bit c.c.toNat 43

/-- R304: begin a collective: feature, fields and ranges are checked, it waits until it can run, and then runs. -/
def State.collect (s : State) (p : Nat) (c : Cmd) (kind : Nat) (srcN dstN : Nat → Nat) (ports : CollAxis → List Nat)
    (f : CollAxis → Nat → Nat → Nat → State → State) : State :=
  s.issueNeeding p c 5 (fun l =>
    let x := s.collAxis p l.step c
    let len := bits c.c.toNat 0 40
    if !collFieldsOk kind c then s.issueFault p l 2
    else match s.operandAt p c l.step c.a (srcN x.n * len), s.operandAt p c l.step c.b (dstN x.n * len) with
      | some src, some dst =>
        if s.collReady p x (ports x) then
          let id := s.nextId p
          let t := (s.issue p 7 c l .done).tagStart p id
          let t := t.modFabric (fun g => { g with colls := g.colls ++ [{ part := p, cmd := id, tag := x.tag, step := l.step }] })
          let t := (ports x).foldl (fun t i => t.freeVc0 i (matchesColl x.job x.step p x.tag)) t
          (f x len src dst t).transferred src (srcN x.n * len)
        else s
      | _, _ => s.operandFault p c l [c.a, c.b])

/-- The ports of a ring collective: both directions where it is bidirectional. -/
def ringPorts (c : Cmd) (x : CollAxis) : List Nat :=
  [x.sendPort true, x.recvPort true] ++ (if x.bidir c then [x.sendPort false, x.recvPort false] else [])

/-- R234, R369: the header of the gradient buffer that a data-cut reduce-scatter fills: stable, or in state 01 where poison entered the
sum (DESIGN CHOICE, log entry 60: its destination follows the header). -/
def State.gradientHeader (s : State) (c : Cmd) (step dst : Nat) (m : Member) : State :=
  if bits c.c.toNat 44 2 = 3 ∧ 64 ≤ dst then s.putHeader (dst - 64) step (if m.poison.isEmpty then 0 else 1) 0 0 else s

/-- R349: whether the place before an all-reduce's destination is the header of the gradient buffer of its step's parity: it holds an
earlier step of that parity, or the step itself (DESIGN CHOICE, log entry 60). -/
def State.holdsGradient (s : State) (step dst : Nat) : Bool :=
  let h := s.hdrStep (dst - 64)
  64 ≤ dst && decide (0 < h) && decide (h ≤ step) && h % 2 == step % 2

/-- REDUCE_SCATTER (R304, R306). -/
def execReduceScatter (p : PartId) (c : Cmd) (peers : List Member) (s : State) : Host.Outcome State Fault Refusal :=
  .next (s.collect p.val c 1 (fun n => n) (fun _ => 1) (ringPorts c) (fun x len src dst t =>
    let m := membersOf (t.readMember src (x.n * len)) x.k peers
    let op := bits c.c.toNat 46 2
    let r := x.reduced op len (x.bidir c) m x.k
    ((t.sendPartials x op len (x.bidir c) m).writeMember dst r).gradientHeader c x.step dst r))

/-- ALL_GATHER (R304, R306): shard k travels unchanged. -/
def execAllGather (p : PartId) (c : Cmd) (peers : List Member) (s : State) : Host.Outcome State Fault Refusal :=
  .next (s.collect p.val c 2 (fun _ => 1) (fun n => n) (ringPorts c) (fun x len src dst t =>
    let m := membersOf (t.readMember src len) x.k peers
    (t.sendShards x len (x.bidir c) m).writeMember dst
      (joinAll (len / 32) ((List.range x.n).map (fun j => pieceOf (m j) 0 (len / 32))))))

/-- ALL_REDUCE (R304, R306): a reduce-scatter followed by an all-gather. -/
def execAllReduce (p : PartId) (c : Cmd) (peers : List Member) (s : State) : Host.Outcome State Fault Refusal :=
  .next (s.collect p.val c 3 (fun n => n) (fun n => n) (ringPorts c) (fun x len src dst t =>
    let m := membersOf (t.readMember src (x.n * len)) x.k peers
    let op := bits c.c.toNat 46 2
    let r := x.reduced op len (x.bidir c) m
    let all := joinAll (len / 32) ((List.range x.n).map r)
    let u := ((t.sendPartials x op len (x.bidir c) m).sendShards x len (x.bidir c) r).writeMember dst all
    if t.holdsGradient x.step dst then u.gradientHeader c x.step dst all else u))

/-- R304: whether this member sends, and whether it receives, in a shift: an open axis does not wrap. -/
def CollAxis.shiftEnds (x : CollAxis) (plus isOpen : Bool) : Bool × Bool :=
  let last := x.k + 1 == x.n
  let first := x.k == 0
  (!(isOpen && (if plus then last else first)), !(isOpen && (if plus then first else last)))

/-- The ports of a shift. -/
def shiftPorts (plus isOpen : Bool) (x : CollAxis) : List Nat :=
  (if (x.shiftEnds plus isOpen).1 then [x.sendPort plus] else []) ++ (if (x.shiftEnds plus isOpen).2 then [x.recvPort plus] else [])

/-- R304: a shift sends `len` bytes one member on and receives as many from the other side. -/
def State.shift (plus : Bool) (isOpen : Bool) (received : Member) (x : CollAxis) (len src dst : Nat) (t : State) : State :=
  let own := t.readMember src len
  let e := x.shiftEnds plus isOpen
  let t := if e.1 && decide (1 < x.n) then t.queueVc0 x plus own else t
  if e.2 then t.writeMember dst (if x.n < 2 then own else pieceOf received 0 (len / 32)) else t

/-- SHIFT_UP (R304). -/
def execShiftUp (p : PartId) (c : Cmd) (received : Member) (s : State) : Host.Outcome State Fault Refusal :=
  let isOpen := bit c.d.toNat 0
  .next (s.collect p.val c 5 (fun _ => 1) (fun _ => 1) (shiftPorts true isOpen) (State.shift true isOpen received))

/-- SHIFT_DOWN (R304). -/
def execShiftDown (p : PartId) (c : Cmd) (received : Member) (s : State) : Host.Outcome State Fault Refusal :=
  let isOpen := bit c.d.toNat 0
  .next (s.collect p.val c 6 (fun _ => 1) (fun _ => 1) (shiftPorts false isOpen) (State.shift false isOpen received))

end Sys2Proof.Machine
end

