-- ==== Sys2Proof/Machine/Hitch.lean ====
section
/-! DEFINITION. The hitch (R336–R357, R520): its phases open, commit, push, resume and checkpoint, the exchange buffer, the flag and
commit rounds (R312, R341), and COMMAND_COMPLETE. -/
namespace Sys2Proof.Machine

/-! Shard tables (R338) -/

/-- A shard table entry. -/
structure ShardEntry where
  loc    : Nat
  peer   : Nat
  coord  : Nat
  second : Bool
  valid  : Bool
  deriving DecidableEq, Repr

/-- The entry at a device address. -/
def State.shardEntry (s : State) (a : Nat) : ShardEntry :=
  let w := s.word (a + 16) 8
  { loc := s.word a 8, peer := s.word (a + 8) 8, coord := bits w 0 18, second := bit w 30, valid := bit w 31 }

/-- The update descriptor at a device address (R241). -/
def State.updDesc (s : State) (a : Nat) : UpdDesc := readUpdDesc (s.bytes a 64)

/-- The chunks of an entry, each with the other holder's copy. Both holders use one header index for a chunk (DEDUCED, log entry 62). -/
def State.chunksOf (s : State) (cmd : Nat) (e : ShardEntry) : List Peer :=
  let d := s.updDesc e.loc
  (List.range d.chunks).map (fun i =>
    { cmd := cmd, desc := d, i := i, k := d.first + i, coord := e.coord, peer := s.updDesc e.peer, first := !e.second })

/-- Whether an entry's descriptors can be read by the partition's context. -/
def State.entryReach (s : State) (p : Nat) (e : ShardEntry) : Bool := s.reach p e.loc 64 && (!e.valid || s.reach p e.peer 64)

/-- Whether an entry's descriptors are clean. -/
def State.entryClean (s : State) (e : ShardEntry) : Bool := !s.poisonedIn e.loc 64 && (!e.valid || !s.poisonedIn e.peer 64)

/-- R337: begin a phase that reads a shard table of `n` entries: an address outside the context is a fault of reason 0x2, and a
poisoned entry or descriptor leaves the command unexecuted (R369). -/
def State.withTable (s : State) (p : Nat) (c : Cmd) (l : Launch) (lo n : Nat) (f : List ShardEntry → State) : State :=
  match s.operandAt p c l.step c.d (32 * (lo + n)) with
  | none => s.operandFault p c l [c.d]
  | some a =>
    let es := (List.range n).map (fun i => s.shardEntry (a + 32 * (lo + i)))
    if s.poisonedIn (a + 32 * lo) (32 * n) || es.any (fun e => !s.entryClean e) then s
    else if es.any (fun e => !s.entryReach p e) then s.operandFault p c l []
    else f es

/-! The exchange buffer (R520) -/

/-- The address of the entry of a header index. -/
def State.xbufAt (s : State) (p k : Nat) : Nat := s.rd (.hch p) HCH_XBUF_BASE_base * 4096 + k % 32768 * 32

/-- The state of a chunk header as the hitch sees it: a poisoned header is in state 01 (R371). -/
def State.hdrSeen (s : State) (a : Nat) : Nat := if s.poisonedIn a 64 then 1 else s.hdrState a

/-- The 32 bytes of an entry. -/
def entryBytes (k step st digest : Nat) : List Byte := leBytes 8 (k % 2 ^ 24 + 2 ^ 63) ++ leBytes 8 step ++ leBytes 8 st ++ leBytes 8 digest

/-- R341, R344, R345: write this holder's header entry of a chunk to the other holder, in one remote write. -/
def State.sendEntry (s : State) (p : Nat) (q : Peer) : State :=
  let a := s.headerAt p q.k
  s.guarded p [(a, 64)]
    (s.sendRemote p q.cmd q.coord (s.xbufAt p q.k) (entryBytes q.k (s.hdrStep a) (s.hdrSeen a) (s.hdrDigest a)) [false])

/-- Write the header of a chunk of the hitch (R233), where it lies in the context's memory (R165). -/
def State.setHeader (s : State) (p : Nat) (q : Peer) (step st digest : Nat) : State :=
  s.guarded p [(s.headerAt p q.k, 64)] (s.putHeader (s.headerAt p q.k) step st q.desc.layer digest)

/-- R520: whether the entry that a chunk awaits has arrived; a poisoned one has not (R369), and one outside the context's memory is never
seen. -/
def State.entryArrived (s : State) (p k : Nat) : Bool :=
  let a := s.xbufAt p k
  s.ownReach p a 32 && !s.poisonedIn a 32 && bit (s.word a 8) 63 && bits (s.word a 8) 0 24 == k % 2 ^ 24

/-- R345: push a chunk: its master and moments to the addresses of the receiver's descriptor, then its header entry. -/
def State.pushChunk (s : State) (p : Nat) (q : Peer) : State :=
  let s := ((q.desc.tensors q.i).zip (q.peer.tensors q.i)).foldl (fun s t =>
    (s.sendRemote p q.cmd q.coord t.2.2.1 (s.bytes t.1.2.1 t.1.2.2) (s.poisonPieces t.1.2.1 t.1.2.2)).transferred t.1.2.1 t.1.2.2) s
  s.sendEntry p q

/-- R345: the receiver of a push first writes the chunk's header to state 01, and then awaits it. -/
def State.beginReceive (s : State) (p : Nat) (q : Peer) : State :=
  let a := s.headerAt p q.k
  (s.setHeader p q (s.hdrStep a) 1 (s.hdrDigest a)).modHitch p (fun h =>
    { h with awaiting := h.awaiting ++ [(.receive, q)] })

/-- R345: a pushed chunk has arrived under a sender's header: it is accepted where its digest is the sender's. -/
def State.acceptChunk (s : State) (p : Nat) (q : Peer) (step digest : Nat) : State :=
  if !s.chunkPoisoned q.desc q.i && s.digest q.desc q.i == digest then
    (s.setHeader p q step 0 digest).bump (.hch p) 5
  else (s.bump (.hch p) 6).raise (.hch p) HCH_INT_repair_rejected

/-- R351, R352: a compared entry differs: it is counted, and the second holder emits a token for the step after the commit. -/
def State.divergent (s : State) (p : Nat) (q : Peer) : State :=
  let s := (s.bump (.hch p) 4).raise (.hch p) HCH_INT_divergent
  if q.first then s else s.emitToken (s.rd (.hch p) HCH_COMMIT_step + 1)

/-- R344: what a resume does with a chunk once it knows the other holder's header. -/
def State.repair (s : State) (p : Nat) (q : Peer) (other : Nat) : State :=
  let own := s.hdrSeen (s.headerAt p q.k)
  if own = 0 ∧ other = 1 then s.pushChunk p q
  else if own = 1 ∧ other = 0 then s.beginReceive p q
  else if own = 1 ∧ other = 1 then (s.wr (.hch p) HCH_RECOVER_shard_lost 1).raise (.hch p) HCH_INT_shard_lost
  else s

/-- R341, R344, R345, R352: take an arrived entry for what awaited it, and write it to 0. -/
def State.takeEntry (s : State) (p : Nat) (e : Await × Peer) : State :=
  let a := s.xbufAt p e.2.k
  let step := s.word (a + 8) 8
  let st := bits (s.word (a + 16) 8) 0 2
  let digest := s.word (a + 24) 8
  let hdr := s.headerAt p e.2.k
  let same := s.hdrStep hdr == step && s.hdrSeen hdr == st && s.hdrDigest hdr == digest
  let s := (s.put a (List.replicate 32 0)).modHitch p (fun h => { h with awaiting := h.awaiting.filter (fun x => x != e) })
  match e.1 with
  | .commit => if s.on (.hch p) HCH_CTL_cmp_en && !same then s.divergent p e.2 else s
  | .capture => if same then s else (s.divergent p e.2).wr (.hch p) HCH_CKPT_STATUS_verify_failed 1
  | .resume => s.repair p e.2 st
  | .receive => s.acceptChunk p e.2 step digest

/-- Whether remote writes of a command are not yet acknowledged (R303). -/
def State.remotesOut (s : State) (p cmd : Nat) : Bool := s.fabric.remotes.any (fun r => r.part == p && r.cmd == cmd)

/-- R355: a checkpoint is verified once its snapshot is complete, every digest has matched and every record is acknowledged. -/
def State.verifyCheckpoint (s : State) (p : Nat) : State :=
  let x := s.part p
  match x.ckpt with
  | some (step, _) =>
    if x.staged.isEmpty && x.hitch.awaiting.all (fun e => e.1 != .capture) && !s.remotesOut p cocoonCmd then
      let s := s.modPart p (fun y => { y with ckpt := none })
      if s.on (.hch p) HCH_CKPT_STATUS_verify_failed then s
      else (s.wr (.hch p) HCH_CKPT_STEP_value step).raise (.hch p) HCH_INT_ckpt_done
    else s
  | none => s

/-- Take every entry that has arrived. Entries of a commit wait for the end of its round. -/
def State.hitchArrivals (s : State) (p : Nat) : State :=
  let h := (s.part p).hitch
  let s := h.awaiting.foldl (fun s e =>
    if (e.1 == .commit && h.roundOpen) || !s.entryArrived p e.2.k then s else s.takeEntry p e) s
  let s := s.wr (.hch p) HCH_CKPT_STATUS_snapshot (flag ((s.part p).hitch.awaiting.any (fun e => e.1 == .capture)))
  s.verifyCheckpoint p

/-! Rounds (R312, R341) -/

/-- R241: the owner descriptors of the updates of the step that has been committed are seated. -/
def State.seatOwned (s : State) (p : Nat) : State :=
  let ds := (s.part p).owned
  ds.foldl (fun s d => s.acceptSeat p none d) (s.modPart p (fun x => { x with owned := [] }))

/-- R341: the round's result at a partition that voted: on every vote yes it commits; otherwise it is held. -/
def State.commitResult (s : State) (p step : Nat) (yes : Bool) : State :=
  let mine := (s.part p).hitch.awaiting.filter (fun e => e.1 == .commit && e.2.k % 64 == step % 64)
  let s := s.modHitch p (fun h =>
    { h with roundOpen := false
             awaiting := h.awaiting.filter (fun e => e.1 != .commit || (yes && e.2.k % 64 == step % 64 && !e.2.first)) })
  if yes then
    let s := ((s.wr (.hch p) HCH_COMMIT_step step).setHch p hchCommitted).raise (.hch p) HCH_INT_committed
    let s := (mine.filter (fun e => e.2.first)).foldl (fun s e => s.sendEntry p e.2) (s.seatOwned p)
    s.hitchArrivals p
  else
    let s := (s.hold p).bump (.hch p) 3
    if s.on (.hch p) HCH_STATE_vote then s else s.emitToken step

/-- R312: the end of a flag round at a partition: UPD_NF takes the flag where UPD_HITCH_STEP is the round's step, and the command is
done. -/
def State.flagResult (s : State) (p step : Nat) (set : Bool) : State :=
  let s := if s.rd (.upd p) UPD_HITCH_STEP_step = step then s.wrAll (.upd p) [(UPD_NF_resolved, 1), (UPD_NF_set, flag set)] else s
  s.each (((s.part p).seq.inflight.filter (fun x => x.work == .flagRound && s.stepOf p x == step)).map (fun x => x.id))
    (fun s id => s.setWork p id .done)

/-- The round of a kind and step, if there is one. -/
def State.round? (s : State) (kind : RoundKind) (step : Nat) : Option Round :=
  s.fabric.rounds.find? (fun r => r.kind == kind && r.step == step)

/-- Change a round, which begins with this change if there is none. -/
def State.modRound (s : State) (kind : RoundKind) (step : Nat) (f : Round → Round) : State :=
  s.modFabric (fun g =>
    if g.rounds.any (fun r => r.kind == kind && r.step == step) then
      { g with rounds := g.rounds.map (fun r => if r.kind = kind ∧ r.step = step then f r else r) }
    else { g with rounds := g.rounds ++ [f { kind := kind, step := step, parts := [], value := kind == .commitRound, axes := [], got := [], sent := [] }] })

/-- How a round combines values: OR for flags, AND for votes. -/
def roundJoin (kind : RoundKind) (x y : Bool) : Bool :=
  match kind with
  | .flagRound => x || y
  | .commitRound => x && y

/-- R312, R341: the axes in the order of a round. -/
def State.roundAxes (s : State) (kind : RoundKind) : List Nat :=
  match kind with
  | .flagRound => [0, 1, 2, 3]
  | .commitRound => [0, 1, 2, 3].filter (fun a => a != s.cutAxis 3) ++ [s.cutAxis 3]

/-- How a round runs on an axis of the job (R305, R312): the number of members, this module's index, and whether the axis is a full ring. -/
structure RoundAxis where
  n    : Nat
  k    : Nat
  full : Bool
  deriving DecidableEq, Repr

def State.roundAxis (s : State) (a : Nat) : RoundAxis := { n := s.jobSize a, k := s.memberIndex a, full := s.jobSize a == s.sysSize a }

/-- The messages of an axis that this module receives in a direction: on a ring ⌊N ÷ 2⌋ each way, so that every member's value reaches every
other; on a partial axis one of each member on that side (DEDUCED, log entry 46). -/
def RoundAxis.due (x : RoundAxis) (plus : Bool) : Nat := if x.full then x.n / 2 else if plus then x.k else x.n - 1 - x.k

/-- The messages that it sends in a direction: its own value, and each received one that a member further on still needs. -/
def RoundAxis.sends (x : RoundAxis) (plus : Bool) : Nat :=
  if x.full then x.n / 2 else if plus then (if x.k + 1 < x.n then x.k + 1 else 0) else if 0 < x.k then x.n - x.k else 0

/-- The values that have arrived on an axis in a direction, in order. -/
def Round.arrived (r : Round) (a : Nat) (plus : Bool) : List Bool := r.got.filterMap (fun g => if g.1 = a ∧ g.2.1 = plus then some g.2.2 else none)

/-- The next message of a round to send in a direction, if one can go now: the module's value, joined with the last received one that
travels that way. -/
def Round.ready? (r : Round) (x : RoundAxis) (a : Nat) (plus : Bool) : Option Bool :=
  let j := r.sent.count (a, plus)
  if x.sends plus ≤ j then none
  else if j = 0 then some r.value
  else ((r.arrived a plus)[j - 1]?).map (roundJoin r.kind r.value)

/-- Whether everything due on an axis has arrived. -/
def Round.axisDone (r : Round) (x : RoundAxis) (a : Nat) : Bool :=
  decide (x.due true ≤ (r.arrived a true).length) && decide (x.due false ≤ (r.arrived a false).length)

/-- R312: send a round's message on an axis in a direction. -/
def State.sendRound (s : State) (r : Round) (a : Nat) (plus v : Bool) : State :=
  let i := 2 * a + (if plus then 0 else 1)
  let m : CtrlMsg := .round r.kind (Fin.ofNat 4 a) (BitVec.ofNat 64 r.step) v
  (if s.rd (.port i) FAB_PORT_STATE_link == 2 then s.sendCtrl i m else s).modRound r.kind r.step (fun r => { r with sent := r.sent ++ [(a, plus)] })

/-- A round ends on this module. -/
def State.endRound (s : State) (r : Round) : State :=
  let s := s.modFabric (fun g => { g with rounds := g.rounds.filter (fun x => x.kind != r.kind || x.step != r.step) })
  match r.kind with
  | .flagRound => s.each s.boundParts (fun s p => s.flagResult p r.step r.value)
  | .commitRound => s.each r.parts (fun s p => s.commitResult p r.step r.value)

/-- R312, R341: carry a round as far as the messages that have arrived allow, one axis at a time and in both directions around its ring.
`fuel` bounds the messages and axes. -/
def State.runRound (s : State) (kind : RoundKind) (step : Nat) : Nat → State
  | 0 => s
  | fuel + 1 =>
    match s.round? kind step with
    | none => s
    | some r =>
      if s.boundParts.isEmpty || !s.boundParts.all r.parts.contains then s
      else
        match (s.roundAxes kind).find? (fun a => !r.axes.contains a) with
        | none => s.endRound r
        | some a =>
          let x := s.roundAxis a
          match r.ready? x a true, r.ready? x a false with
          | some v, _ => (s.sendRound r a true v).runRound kind step fuel
          | none, some v => (s.sendRound r a false v).runRound kind step fuel
          | none, none =>
            if r.axisDone x a then
              let all := (r.arrived a true ++ r.arrived a false).foldl (roundJoin kind) r.value
              (s.modRound kind step (fun r => { r with value := all, axes := r.axes ++ [a] })).runRound kind step fuel
            else s

/-- The most messages and axes of a round: twice 16 + 16 + 32 + 32, and 4, and its end. -/
def roundFuel : Nat := 197

/-- A partition joins a round; the last of the module's bound partitions brings in the module's own value. -/
def State.joinRound (s : State) (kind : RoundKind) (step p : Nat) : State :=
  let s := s.modRound kind step (fun r => { r with parts := r.parts ++ [p] })
  let own := match kind with
    | .flagRound => s.boundParts.any (fun q => (s.part q).hitch.localNf)
    | .commitRound => s.boundParts.all (fun q => s.on (.hch q) HCH_STATE_vote)
  let whole := fun (r : Round) => s.boundParts.all r.parts.contains
  let s := s.modRound kind step (fun r => if whole r then { r with value := roundJoin kind r.value own } else r)
  s.runRound kind step roundFuel

/-- FLAG_ROUND (R312): a COLLECTIVE of kind 0x4, one of the 4 that a partition may have in flight (R305); the flag round of HCH_OPEN
makes the hitch exchanged (R336). `raised`: the stream has raised the local flag (R237, log entry 44). -/
def execFlagRound (p : PartId) (c : Cmd) (raised : Bool) (s : State) : Host.Outcome State Fault Refusal :=
  .next (s.issueNeeding p.val c 5 (fun l =>
    if 4 ≤ s.collsOf p.val then s
    else
    let id := s.nextId p.val
    let t := (s.issue p.val 7 c l .flagRound).tagStart p.val id
    let t := if raised then t.raiseNf p.val else t
    let t := if l.step = t.rd (.hch p.val) HCH_OPEN_step then
        let t := t.wr (.hch p.val) HCH_RECOVER_exchanged 1
        if t.hch p.val = hchOpen then t.setHch p.val hchExchanged else t
      else t
    t.joinRound .flagRound l.step p.val))

/-- FLAG_ROUND_MESSAGE (R312, R341): a round message of a neighbour; `plus` says that it travels in the + direction. One of a step whose abort
has been acted on is ignored (R315). -/
def State.roundMessage (s : State) (kind : RoundKind) (axis : Nat) (plus : Bool) (step : Nat) (value : Bool) : State :=
  if s.fabric.acted.contains step then s
  else (s.modRound kind step (fun r => { r with got := r.got ++ [(axis, plus, value)] })).runRound kind step roundFuel

/-- What arrives on a − port travels in the + direction (R293). -/
def travelsPlus (i : Nat) : Bool := i % 2 == 1

/-- FLAG_ROUND_MESSAGE (R312). -/
def execFlagRoundMessage (i : PortId) (kind : RoundKind) (axis : Fin 4) (step : W64) (value : Bool) (s : State) :
    Host.Outcome State Fault Refusal :=
  .next (s.ranked (.flagRoundMessage i kind axis step value) (s.roundMessage kind axis.val (travelsPlus i.val) step.toNat value))

/-! Phases (R337) -/

/-- R237: clear UPD_NF. -/
def State.clearNf (s : State) (p : Nat) : State := s.wrAll (.upd p) [(UPD_NF_resolved, 0), (UPD_NF_set, 0)]

/-- HITCH_OPEN (R339): it succeeds where HCH_COMMIT is n − 1 and the state idle or committed; otherwise the partition emits a token
and is held. -/
def execHitchOpen (p : PartId) (c : Cmd) (s : State) : Host.Outcome State Fault Refusal :=
  .next (s.issueWith p.val c (fun l =>
    let t := ((s.issueDone p.val 8 c l).clearNf p.val).modPart p.val (fun x => { x with owned := [] })
    if s.boundaryFree p.val l.step then
      let t := t.wrAll (.hch p.val) [(HCH_OPEN_step, l.step), (HCH_RECOVER_exchanged, 0), (HCH_RECOVER_pass_done, 1)]
      let t := (t.wr (.upd p.val) UPD_HITCH_STEP_step l.step).modHitch p.val (fun h => { h with localNf := false, refused := false })
      t.setHch p.val hchOpen
    else (t.emitFor p.val).hold p.val))

/-- HITCH_COMMIT (R341): the partition votes and joins the commit round of HCH_OPEN; where UPD_NF.set holds, there is no round. -/
def execHitchCommit (p : PartId) (c : Cmd) (s : State) : Host.Outcome State Fault Refusal :=
  .next (s.issueWith p.val c (fun l =>
    s.withTable p.val c l 0 (bits c.c.toNat 0 16) (fun es =>
      if s.on (.upd p.val) UPD_NF_set then (s.issueDone p.val 8 c l).setHch p.val hchIdle
      else
        let id := s.nextId p.val
        let h := s.rd (.hch p.val) HCH_OPEN_step
        let yes := s.on (.hch p.val) HCH_RECOVER_pass_done
        let t := (s.issue p.val 8 c l .commit).tagStart p.val id
        let t := t.wr (.hch p.val) HCH_STATE_vote (flag yes)
        let t := if yes then t.setHch p.val hchReady else t
        let held := (es.filter (fun e => e.valid)).flatMap (s.chunksOf id)
        let t := t.modHitch p.val (fun x =>
          { x with roundOpen := true, awaiting := x.awaiting ++ held.map (fun q => (Await.commit, q)) })
        t.joinRound .commitRound h p.val)))

/-- HITCH_PUSH (R337, R345): one entry's chunks are pushed, or received; an entry whose valid bit is 0 completes at once. Only stable
chunks are pushed (R349). -/
def execHitchPush (p : PartId) (c : Cmd) (s : State) : Host.Outcome State Fault Refusal :=
  .next (s.issueWith p.val c (fun l =>
    s.withTable p.val c l (bits c.c.toNat 0 16) 1 (fun es =>
      match es with
      | e :: _ =>
        if !e.valid then s.issueDone p.val 8 c l
        else
          let id := s.nextId p.val
          let t := (s.issue p.val 8 c l .push).tagStart p.val id
          let qs := s.chunksOf id e
          if bit c.c.toNat 31 then (qs.foldl (fun t q => t.beginReceive p.val q) t).hitchArrivals p.val
          else qs.foldl (fun t q => if t.hdrSeen (t.headerAt p.val q.k) = 0 then t.pushChunk p.val q else t) t
      | [] => s)))

/-- R344: re-seat every scale that holds weights from the mirror and side records, as a spare load does. -/
def State.reloadScales (s : State) (p : Nat) : State :=
  (s.listedScales p).foldl (fun s e =>
    let x := s.scale p e.1 e.2.1 e.2.2
    let lw := s.rd (.wing p e.1) WNG_STATE_role
    if lw < 8 && s.isSeated p lw e.2.1 x.logical && (x.role == 1 || x.role == 3) then
      let s := (s.dropLoads p e.1 e.2.1 e.2.2).modScale p e.1 e.2.1 e.2.2 (fun x => { x with role := 3 })
      s.queueLoad p .spareLoad lw e.2.1 x.logical e.1 e.2.2
    else s) s

/-- HITCH_RESUME (R344): headers are exchanged with the other holders, and chunks pushed and received as they ask. -/
def execHitchResume (p : PartId) (c : Cmd) (s : State) : Host.Outcome State Fault Refusal :=
  .next (s.issueWith p.val c (fun l =>
    s.withTable p.val c l 0 (bits c.c.toNat 0 16) (fun es =>
      let id := s.nextId p.val
      let mode := bits c.c.toNat 16 2
      let step := c.b.toNat
      let bad := ((es.flatMap (s.chunksOf id)).filter (fun q => s.hdrSeen (s.headerAt p.val q.k) == 1)).length
      let t := (s.issue p.val 8 c l .resume).tagStart p.val id
      let t := t.wrAll (.hch p.val) [(HCH_RECOVER_shard_lost, 0), (HCH_RECOVER_bad, min 0xFF_FFFF bad)]
      let t := (t.wr (.upd p.val) UPD_HITCH_STEP_step step).wrAll (.upd p.val)
        [(UPD_NF_resolved, flag (mode = 3)), (UPD_NF_set, flag (mode = 3))]
      let t := (t.setHch p.val hchResuming).modHitch p.val (fun h => { h with resumeMode := mode, resumeStep := step })
      let qs := (es.filter (fun e => e.valid)).flatMap (s.chunksOf id)
      let t := qs.foldl (fun t q => t.sendEntry p.val q) t
      let t := t.modHitch p.val (fun h => { h with awaiting := h.awaiting ++ qs.map (fun q => (Await.resume, q)) })
      let t := if t.on (.hch p.val) HCH_RECOVER_was_reset then t.reloadScales p.val else t
      t.hitchArrivals p.val)))

/-- R344: whether a resume ends held. -/
def State.resumeHeld (s : State) (p mode step : Nat) : Bool :=
  let commit := s.rd (.hch p) HCH_COMMIT_step
  match mode with
  | 0 => step != commit
  | 1 => !s.on (.hch p) HCH_RECOVER_pass_done
  | 2 => false
  | _ => step != commit + 1

/-- R344, R346: a resume completes: the state of its mode, and a new abort of its step or the next will be acted on. -/
def State.finishResume (s : State) (p : Nat) : State :=
  let h := (s.part p).hitch
  let t := h.resumeStep
  let s :=
    if s.resumeHeld p h.resumeMode t then s.hold p
    else match h.resumeMode with
      | 0 => s.setHch p hchCommitted
      | 1 => (s.wr (.hch p) HCH_COMMIT_step t).setHch p hchCommitted
      | 2 => s.setHch p hchExchanged
      | _ => s.setHch p hchIdle
  let s := (s.wrAll (.hch p) [(HCH_RECOVER_was_reset, 0), (HCH_STATE_acted, 0), (HCH_RECOVER_pass_done, 1)]).modHitch p (fun h =>
    { h with refused := false })
  (s.modFabric (fun f => { f with acted := f.acted.filter (fun x => x != t && x != t + 1) })).bump (.hch p) 9

/-! Checkpoint snapshot (R352) -/

/-- The bytes of a chunk's tensors. -/
def Peer.stateBytes (q : Peer) : Nat := ((q.desc.tensors q.i).map (fun (t : Nat × Nat × Nat) => t.2.2)).foldl (· + ·) 0

/-- Copy a chunk's header, master and moments to the staging area, where both lie in the context's memory (R165). -/
def State.stageChunk (s : State) (p : Nat) (q : Peer) (at_ : Nat) : State :=
  let t := s.copy (s.headerAt p q.k) at_ 64
  s.guarded p [(s.headerAt p q.k, 64), (at_, 64 + q.stateBytes)]
    ((q.desc.tensors q.i).foldl (fun (e : State × Nat) x =>
      (((e.1.copy x.2.1 e.2 x.2.2).transferred x.2.1 x.2.2).transferred e.2 x.2.2, e.2 + x.2.2)) (t, at_ + 64)).1

/-- What Cocoon keeps of a staged chunk. -/
def State.stagedOf (s : State) (p step : Nat) (q : Peer) (at_ : Nat) : Staged :=
  { k := q.k, step := step, addr := at_, bytes := 64 + q.stateBytes, layer := q.desc.layer, bf16W := q.desc.bf16W, bf16M := q.desc.bf16M
    moments := (if q.desc.mom1 = 0 then 0 else 1) + (if q.desc.mom2 = 0 then 0 else 1), digest := s.hdrDigest (s.headerAt p q.k) }

/-- Stage chunks one after the other, and list them in ascending header index (R354). -/
def State.stageAll (s : State) (p step : Nat) (qs : List Peer) : State :=
  let base := s.rd (.hch p) HCH_STAGE_BASE_base * 4096
  let r := qs.foldl (fun (e : State × Nat × List (Nat × Staged)) q =>
    (e.1.stageChunk p q e.2.1, e.2.1 + 64 + q.stateBytes, mapIns e.2.2 q.k (e.1.stagedOf p step q e.2.1))) (s, base, [])
  r.1.modPart p (fun x => { x with staged := r.2.2.map (fun (e : Nat × Staged) => e.2) })

/-- HITCH_CHECKPOINT (R352): first-held chunks are copied to the staging area, and the digests of all chunks exchanged and compared.
It waits while the drain of the checkpoint before runs (DESIGN CHOICE, log entry 63). -/
def execHitchCheckpoint (p : PartId) (c : Cmd) (s : State) : Host.Outcome State Fault Refusal :=
  .next (s.issueNeeding p.val c 8 (fun l =>
    s.withTable p.val c l 0 (bits c.c.toNat 0 16) (fun es =>
      if !(s.part p.val).staged.isEmpty then s
      else
        let id := s.nextId p.val
        let step := s.rd (.hch p.val) HCH_COMMIT_step
        let t := (s.issue p.val 8 c l .push).tagStart p.val id
        let t := t.stageAll p.val step ((es.filter (fun e => !e.second)).flatMap (s.chunksOf id))
        let n := (t.part p.val).staged.length
        let t := t.wrAll (.hch p.val) [(HCH_CKPT_STATUS_verify_failed, 0), (HCH_CKPT_STATUS_draining, flag (n != 0)),
          (HCH_CKPT_STATUS_pending, n)]
        let qs := (es.filter (fun e => e.valid)).flatMap (s.chunksOf id)
        let t := qs.foldl (fun t q => t.sendEntry p.val q) t
        let t := t.modPart p.val (fun x =>
          { x with ckpt := some (step, t.rd (.hch p.val) HCH_CKPT_DST_base * 4096), written := 0
                   hitch := { x.hitch with awaiting := x.hitch.awaiting ++ qs.map (fun q => (Await.capture, q)) } })
        t.hitchArrivals p.val)))

/-! Completion -/

/-- Whether a HITCH command still awaits an entry, its round, or the acknowledgement of a remote write (R303, R337). -/
def State.hitchBusy (s : State) (p : Nat) (x : Inflight) : Bool :=
  let h := (s.part p).hitch
  (x.work == .commit && h.roundOpen) || h.awaiting.any (fun e => e.2.cmd == x.id) || s.remotesOut p x.id

end Sys2Proof.Machine
end

