-- ==== Sys2Proof/Machine/Fabric.lean ====
section
/-! DEFINITION. The strand fabric (R293–R327, R457): frames, replay, lanes and link-down, remote writes, the tether tick, port
training and link keys. -/
namespace Sys2Proof.Machine

/-! Training (R322) -/

/-- Whether the fabric pair of a port is powered (R418). -/
def State.pairOn (s : State) (i : Nat) : Bool := bit (s.rd .pwr PWR_STATUS_fab_on) (i / 2)

/-- R322: an enabled port that is down starts training once the module has reached Instar 2 its pair is powered and its
PLL is stable (R412); a pending retrain request clears (R324). -/
def State.startTraining (s : State) (i : Nat) : State :=
  if s.on (.port i) FAB_PORT_CTL_enable && s.rd (.port i) FAB_PORT_STATE_link == 0 && s.pairOn i && !s.stopped (isPort i) &&
      bit (s.rd .clk CLK_PLL_STABLE_serdes) i &&
      2 ≤ s.rd .pwr PWR_INSTAR_instar then
    s.wrAll (.port i) [(FAB_PORT_STATE_link, 1), (FAB_PORT_CTL_retrain, 0)]
  else s

/-- PORT_ENABLE (R322): a write to FAB_PORT_CTL, which needs FEATURE_EN bit 4 (R284). -/
def execPortEnable (i : PortId) (s : State) : Host.Outcome State Fault Refusal :=
  .next (if s.feature 4 then (s.wr (.port i.val) FAB_PORT_CTL_enable 1).startTraining i.val else s)

/-- A write of 1 to FAB_PORT_CTL.retrain (R324): link-down, and retraining. -/
def State.retrain (s : State) (i : Nat) : State :=
  let s := s.wr (.port i) FAB_PORT_CTL_retrain 1
  let s := if s.rd (.port i) FAB_PORT_STATE_link = 1 ∨ s.rd (.port i) FAB_PORT_STATE_link = 2 then s.portDown i 0 else s
  s.startTraining i

/-- PORT_RETRAIN (R324). -/
def execPortRetrain (i : PortId) (s : State) : Host.Outcome State Fault Refusal :=
  .next (if s.feature 4 then s.retrain i.val else s)

/-- The job link key, where one is installed (R448, R457). -/
def State.jobLinkKey? (s : State) : Option (List Byte) := (s.security.slots.find? (fun e => e.2.usage == 2)).map (fun e => e.2.key)

/-- Whether an installed key serves job links (R457). -/
def State.linkKey (s : State) : Bool := s.jobLinkKey?.isSome

/-- R457: the key of a port in a direction, from the coordinates and entropies of sender and receiver. A port of no job takes another link key
than a job's (log entry 83). -/
def State.keyFor (s : State) (i sender receiver epoch : Nat) (rs rr : List Byte) : List Byte :=
  let l := if s.on (.port i) FAB_PORT_CTL_job_member then s.jobLinkKey?.getD (Config.portKey i) else Config.portKey i
  slice (Config.shake256 (l ++ leBytes 3 sender ++ leBytes 3 receiver ++ leBytes 4 epoch ++ rs ++ rr) 32) 0 32

/-- The coordinate of a port's neighbour (R324). -/
def State.neighbour (s : State) (i : Nat) : Nat := s.rd (.port i) FAB_PORT_NBR_coord

/-- Bits set among the 26 lanes of a direction. -/
def lanesRetired (v : Nat) : Nat := ((List.range 26).filter (bit v)).length

/-- R324: working lanes, transmit and receive both. -/
def State.lanesUp (s : State) (i : Nat) : Nat :=
  26 - lanesRetired (s.rd (.port i) FAB_PORT_TX_RETIRED_lanes ||| s.rd (.port i) FAB_PORT_RX_RETIRED_lanes)

/-- R301, R457: a port as its link comes up: its sequence numbers start anew, and it holds credits for the other end's buffers; what waited
to be sent still waits. `own` and `peer` are the two ends' entropies. -/
def Port.trained (x : Port) (own peer : List Byte) : Port :=
  { Port.reset with ctrl := x.ctrl, txQ := x.txQ, kept := x.kept, credits := vcCredits, ownR := own, peerR := peer }

/-- PORT_TRAINED (R322, R457): training completes and the link comes up. In confidential mode a job port stays in training until a job
link slot is installed, and the link is keyed with the entropies of both ends and encrypted (R321). -/
def execPortTrained (i : PortId) (neighbour : Coord) (rtt : BitVec 16) (entropy : List Byte) (s : State) : Host.Outcome State Fault Refusal :=
  let pg : Page := .port i.val
  .next (
    if s.rd pg FAB_PORT_STATE_link ≠ 1 then s
    else
      let conf := s.on .sec SEC_MODE_confidential
      if conf && s.on pg FAB_PORT_CTL_job_member && !s.linkKey then s
      else
        let own := slice (Config.entropy s.nDraw) 0 32
        let s := (if conf then s.drawn else s).modPort i.val (fun x => x.trained own entropy)
        let s := if conf then s.modPort i.val (fun x =>
            { x with txKey := s.keyFor i.val s.here neighbour.toNat 0 own entropy, rxKey := s.keyFor i.val neighbour.toNat s.here 0 entropy own }) else s
        let s := s.wrAll pg [(FAB_PORT_STATE_link, 2), (FAB_PORT_STATE_encrypted, flag conf), (FAB_PORT_STATE_lanes_up, s.lanesUp i.val),
          (FAB_PORT_STATE_nbr_depth, 0xFF), (FAB_PORT_NBR_valid, 1), (FAB_PORT_NBR_coord, neighbour.toNat), (FAB_PORT_RTT_rtt, rtt.toNat),
          (FAB_PORT_KEY_epoch, 0)]
        s.raise pg PORT_INT_link_up)

/-! Link-down and lanes (R299, R300) -/

/-- The replay limit: 0 acts as 1 (R324). -/
def State.replayLimit (s : State) (i : Nat) : Nat := max 1 (s.rd (.port i) FAB_PORT_RETRY_limit)

/-- LINK_DOWN (R299): no good frame for 0.96 µs, or one frame replayed as often as the limit in succession. -/
def execLinkDown (i : PortId) (byReplay : Bool) (s : State) : Host.Outcome State Fault Refusal :=
  let pg : Page := .port i.val
  .next (s.ranked (.linkDown i byReplay) (
    if s.rd pg FAB_PORT_STATE_link ≠ 2 then s
    else if byReplay then
      if (s.port i.val).replay.any (fun f => decide (s.replayLimit i.val ≤ f.times)) then ((s.portDown i.val 0).raise pg PORT_INT_replay_limit).startTraining i.val
      else s
    else (s.portDown i.val 0).startTraining i.val))

/-- The register of a direction's retired lanes. -/
def retiredLanes (transmit : Bool) : Field := if transmit then FAB_PORT_TX_RETIRED_lanes else FAB_PORT_RX_RETIRED_lanes

/-- R300: a lane of a direction moves to a spare. -/
def State.retireLane (s : State) (i : Nat) (transmit : Bool) (lane : Nat) : State :=
  let pg : Page := .port i
  let s := s.setBit pg (retiredLanes transmit) lane true
  let used := max (lanesRetired (s.rd pg FAB_PORT_TX_RETIRED_lanes)) (lanesRetired (s.rd pg FAB_PORT_RX_RETIRED_lanes))
  let s := s.wrAll pg [(FAB_PORT_STATE_spares_left, 2 - used), (FAB_PORT_STATE_lanes_up, s.lanesUp i)]
  let s := (s.bump pg 2).raise pg PORT_INT_lane_spared
  if used = 2 then s.raise pg PORT_INT_spares_out else s

/-- The lanes of a direction that are retired or about to be (R300). -/
def State.lanesLeaving (s : State) (i : Nat) (transmit : Bool) : Nat :=
  lanesRetired (s.rd (.port i) (retiredLanes transmit)) + ((s.port i).moves.filter (fun m => m.transmit == transmit)).length

/-- Whether a lane is retired or about to be. -/
def State.laneLeaves (s : State) (i : Nat) (transmit : Bool) (lane : Nat) : Bool :=
  bit (s.rd (.port i) (retiredLanes transmit)) lane || (s.port i).moves.any (fun m => m.transmit == transmit && m.lane == lane)

/-- R300: make the lane switches of a direction whose first frame has come. -/
def State.turnLanes (s : State) (i : Nat) (transmit : Bool) (seq : Nat) : State :=
  let due := fun (m : LaneMove) => m.transmit == transmit && decide (m.first ≤ seq)
  ((s.port i).moves.filter due).foldl (fun s m => s.retireLane i transmit m.lane)
    (s.modPort i (fun x => { x with moves := x.moves.filter (fun m => !due m) }))

/-- R300: whether a cause for a switch holds. The port counts what it receives; it learns of a transmit lane's fault as a loss of signal. -/
def State.laneFaulty (s : State) (i : Nat) (transmit : Bool) (lane : Nat) : LaneCause → Bool
  | .signal => true
  | .corrected => !transmit && (s.port i).laneWin == s.now / 1024 && decide (2 ^ 16 < mapGet 0 (s.port i).laneErrs lane)
  | .common => !transmit && (s.port i).common.contains lane

/-- LANE_SPARE (R300): a faulty lane moves to a spare, and the other end is told the first frame sent on it; with no spare left in the
direction the port is down and failed (R32). -/
def execLaneSpare (i : PortId) (transmit : Bool) (lane : Fin 26) (cause : LaneCause) (s : State) : Host.Outcome State Fault Refusal :=
  let pg : Page := .port i.val
  .next (
    if s.rd pg FAB_PORT_STATE_link ≠ 2 ∨ s.laneLeaves i.val transmit lane.val ∨ !s.laneFaulty i.val transmit lane.val cause then s
    else if 2 ≤ s.lanesLeaving i.val transmit then s.portDown i.val 3
    else
      let x := s.port i.val
      let first := (if transmit then x.txSeq else x.rxSeq) + x.ctrl.length + 65
      (s.modPort i.val (fun x => { x with moves := x.moves ++ [⟨transmit, lane.val, first⟩] })).sendCtrl i.val
        (.lane transmit lane (BitVec.ofNat 64 first)))

/-- R300: the other end moves a lane: its transmit lane is this end's receive lane. -/
def State.laneMessage (s : State) (i : Nat) (transmit : Bool) (lane first : Nat) : State :=
  if s.laneLeaves i (!transmit) lane ∨ 2 ≤ s.lanesLeaving i (!transmit) then s
  else s.modPort i (fun x => { x with moves := x.moves ++ [⟨!transmit, lane, first⟩] })

/-- LANE_MANAGEMENT_MESSAGE (R300). -/
def execLaneManagementMessage (i : PortId) (transmit : Bool) (lane : Fin 26) (first : W64) (s : State) :
    Host.Outcome State Fault Refusal :=
  .next (if s.rd (.port i.val) FAB_PORT_STATE_link = 2 then s.laneMessage i.val transmit lane.val first.toNat else s)

/-! Remote writes (R303, R519) -/

/-- Entries that the HITCH commands of the partition at an address await are taken (R341, R344, R345). -/
def State.arrivedAt (s : State) (addr : Nat) : State :=
  match ownerOf addr with
  | some p => s.hitchArrivals p
  | none => s

/-- REMOTE_WRITE (R303): a whole remote write arrives; it is accepted or refused, and the sender is told. -/
def execRemoteWrite (from_ : Coord) (id : Nat) (job : BitVec 16) (addr : BitVec 41) (data : List Byte) (poison : List Nat) (s : State) :
    Host.Outcome State Fault Refusal :=
  let ok := s.remoteOk job.toNat addr.toNat data.length
  let t := (s.takeRemote job.toNat addr.toNat data poison).sendReply from_.toNat id (if ok then .accepted else .refused)
  .next (if ok then t.arrivedAt addr.toNat else t)

/-- REMOTE_WRITE_TIMEOUT (R519): neither acknowledgement nor refusal within 100 ms, 97,657 ticks, of the last byte being sent. -/
def execRemoteWriteTimeout (id : Nat) (s : State) : Host.Outcome State Fault Refusal :=
  .next (match s.fabric.remotes.find? (fun r => r.id == id) with
    | some r => if r.sent.any (fun t => decide (t + 97657 ≤ s.now)) then s.endRemote r else s
    | none => s)

/-! The tether tick (R317–R320) -/

/-- R317: the depth that the module advertises. -/
def State.depth (s : State) : Nat := s.rd .fabG FAB_G_TIME_STATUS_depth

/-- TIMING_MESSAGE_SEND (R318): depth, tick count and phase go to the neighbour. -/
def execTimingMessageSend (i : PortId) (phase : BitVec 16) (s : State) : Host.Outcome State Fault Refusal :=
  .next (if s.rd (.port i.val) FAB_PORT_STATE_link = 2 then
      s.sendCtrl i.val (.timing (BitVec.ofNat 8 s.depth) s.tick phase)
    else s)

/-- The offset of a neighbour's time to the module's own, in 16 ps units, if the module has heard from it. -/
def State.offsetTo (s : State) (i : Nat) : Option Int := mapFind s.fabric.heard i

/-- R318: the offset that a timing message shows: the time at its sender as it was sent, and half the measured round trip on the way,
against the module's own time at its arrival. One nanosecond is 62.5 units. -/
def State.offsetOf (s : State) (i tick phase arrival : Nat) : Int :=
  ((tick * 64000 + phase + s.rd (.port i) FAB_PORT_RTT_rtt * 125 / 4 : Nat) : Int) - ((s.now * 64000 + arrival : Nat) : Int)

/-- The restores of a wing fall due by the time that has passed, which a load of the tick does not change (R70). -/
def Wing.shiftDue (x : Wing) (ticks : Int) : Wing :=
  { x with due := x.due.map (fun e => (e.1, ((e.2 : Int) + ticks * 2 ^ 20).toNat)) }

/-- R319: load tick count and phase in one step, by an offset: the count takes the whole ticks, and the edge moves by the rest. What was heard
before no longer holds. Times that measure what has passed move with the count. -/
def State.loadTick (s : State) (d : Int) : State :=
  let s := s.each (List.range 8) (fun s p => s.each (List.range 9) (fun s w => s.modWing p w (fun x => x.shiftDue (d / 64000))))
  ({ s with tick := BitVec.ofInt 64 (s.now + d / 64000)
            moved := s.moved.map (fun e => (e.1, e.2.1, ((e.2.2 : Int) + d / 64000).toNat)) } : State).modFabric (fun f =>
    { f with slew := 0, shift := f.shift + d % 64000, heard := [] })

/-- R319: a realignment that software ordered. -/
def State.doRealign (s : State) (i : Nat) : State :=
  match s.offsetTo i with
  | some d =>
    let was := s.rd .fabG FAB_G_TIME_STATUS_state
    let s := (s.loadTick d).wrAll .fabG [(FAB_G_TIME_STATUS_state, 1), (FAB_G_TIME_STATUS_step_made, 1), (FAB_G_TIME_CTL_realign, 0)]
    let s := s.modFabric (fun f => { f with holdFrom := none })
    if was = 1 then s else s.raise .fabG FABG_INT_aligned
  | none => s

/-- R319, R320: follow a parent from which the module has heard: an aligned module, or one in holdover whose offset is at most 1,024
ticks, slews to it. -/
def State.follow (s : State) (i : Nat) : State :=
  match s.offsetTo i with
  | none => s
  | some d =>
    let st := s.rd .fabG FAB_G_TIME_STATUS_state
    if st = 1 then s.modFabric (fun f => { f with slew := d })
    else if 2 ≤ st ∧ d.natAbs ≤ 1024 * 64000 then
      ((s.wr .fabG FAB_G_TIME_STATUS_state 1).modFabric (fun f => { f with slew := d, holdFrom := none })).raise .fabG
        FABG_INT_aligned
    else s

/-- TIMING_MESSAGE (R317, R318, R319): a depth above 63 is rejected: that neighbour is no usable parent; the parent's message disciplines the
tick. -/
def State.timingMessage (s : State) (i depth tick phase arrival : Nat) : State :=
  if 63 < depth then (s.wr (.port i) FAB_PORT_STATE_nbr_depth depth).bump .fabG 5
  else
    let s := s.wr (.port i) FAB_PORT_STATE_nbr_depth depth
    let s := s.modFabric (fun f => { f with heard := mapIns f.heard i (s.offsetOf i tick phase arrival) })
    if s.rd .fabG FAB_G_TIME_STATUS_parent = i then
      let s := if depth < 63 then s.wr .fabG FAB_G_TIME_STATUS_depth (depth + 1) else s
      if s.on .fabG FAB_G_TIME_CTL_realign then s.doRealign i else s.follow i
    else s

/-- TIMING_MESSAGE (R318). -/
def execTimingMessage (i : PortId) (depth : BitVec 8) (tick : W64) (phase arrival : BitVec 16) (s : State) : Host.Outcome State Fault Refusal :=
  .next (if s.rd (.port i.val) FAB_PORT_STATE_link = 2 then s.timingMessage i.val depth.toNat tick.toNat phase.toNat arrival.toNat else s)

/-- R317: the timing parent: the up port whose neighbour advertises the smallest usable depth, the lower index on a tie. -/
def State.bestParent (s : State) : Option Nat :=
  ((List.range 8).filter (fun i => s.rd (.port i) FAB_PORT_STATE_link == 2 && decide (s.rd (.port i) FAB_PORT_STATE_nbr_depth ≤ 62))).foldl
    (fun (m : Option Nat) i => match m with
      | some j => if s.rd (.port i) FAB_PORT_STATE_nbr_depth < s.rd (.port j) FAB_PORT_STATE_nbr_depth then some i else m
      | none => some i) none

/-- Name a parent port, or none. -/
def State.setParent (s : State) (m : Option Nat) : State :=
  let s := s.each (List.range 8) (fun s i => s.wr (.port i) FAB_PORT_STATE_parent (flag (m == some i)))
  match m with
  | some i => s.wrAll .fabG [(FAB_G_TIME_STATUS_parent, i), (FAB_G_TIME_STATUS_depth, s.rd (.port i) FAB_PORT_STATE_nbr_depth + 1)]
  | none => s.wrAll .fabG [(FAB_G_TIME_STATUS_parent, 0xF), (FAB_G_TIME_STATUS_depth, if s.on .fabG FAB_G_TIME_CTL_root then 0 else 0x3F)]

/-- TIMING_PARENT_SELECT (R317, R320): the module chooses its parent; without one an aligned module enters holdover. The root has none. -/
def execTimingParentSelect (s : State) : Host.Outcome State Fault Refusal :=
  let best := if s.on .fabG FAB_G_TIME_CTL_root then none else s.bestParent
  let old := s.rd .fabG FAB_G_TIME_STATUS_parent
  .next (
    let t := s.setParent best
    match best with
    | some i =>
      let t := if old = i then t else t.bump .fabG 4
      if t.on .fabG FAB_G_TIME_CTL_realign then t.doRealign i else t.follow i
    | none =>
      let t := if old = 0xF then t else t.bump .fabG 4
      if s.on .fabG FAB_G_TIME_CTL_root then t
      else if t.rd .fabG FAB_G_TIME_STATUS_state = 1 then
        ((t.wr .fabG FAB_G_TIME_STATUS_state 2).modFabric (fun f => { f with holdFrom := some t.now })).raise .fabG FABG_INT_holdover
      else t)

/-- HOLDOVER_EXPIRED (R320): 1 s, 976,563 ticks, without a parent. -/
def execHoldoverExpired (s : State) : Host.Outcome State Fault Refusal :=
  .next (match s.fabric.holdFrom with
    | some t =>
      if s.rd .fabG FAB_G_TIME_STATUS_state = 2 ∧ t + 976563 ≤ s.now then
        (s.wr .fabG FAB_G_TIME_STATUS_state 3).raise .fabG FABG_INT_holdover_expired
      else s
    | none => s)

/-- A write of 1 to FAB_G_TIME_CTL.realign (R319): it is done at once where the parent has been heard, else when it is. -/
def State.realign (s : State) : State :=
  let s := s.wr .fabG FAB_G_TIME_CTL_realign 1
  s.doRealign (s.rd .fabG FAB_G_TIME_STATUS_parent)

/-- REALIGN (R319). -/
def execRealign (s : State) : Host.Outcome State Fault Refusal := .next (if s.feature 4 then s.realign else s)

/-- TICK_ALIGNED (R319): the first alignment loads the parent's tick count and phase; the root is aligned by itself. -/
def execTickAligned (s : State) : Host.Outcome State Fault Refusal :=
  let i := s.rd .fabG FAB_G_TIME_STATUS_parent
  let aligned := fun (s : State) => (s.wr .fabG FAB_G_TIME_STATUS_state 1).raise .fabG FABG_INT_aligned
  .next (
    if s.rd .fabG FAB_G_TIME_STATUS_state ≠ 0 then s
    else if s.on .fabG FAB_G_TIME_CTL_root then aligned (s.wr .fabG FAB_G_TIME_STATUS_depth 0)
    else match s.offsetTo i with
      | some d => aligned (s.loadTick d)
      | none => s)

/-! Link keys (R321, R457) -/

/-- KEY_EPOCH_MESSAGE (R457): the epoch of the frames received from a sequence on, and its key. -/
def State.keyEpochMessage (s : State) (i epoch first : Nat) : State :=
  s.modPort i (fun x =>
    { x with rxNextKey := some { epoch := epoch, first := first, key := s.keyFor i (s.neighbour i) s.here epoch x.peerR x.ownR } })

/-- KEY_EPOCH_MESSAGE (R457). -/
def execKeyEpochMessage (i : PortId) (epoch : W32) (first : W64) (s : State) : Host.Outcome State Fault Refusal :=
  .next (if s.on (.port i.val) FAB_PORT_STATE_encrypted then s.keyEpochMessage i.val epoch.toNat first.toNat else s)

/-- LINK_KEY_ROLLOVER (R321, R457): a new key for a new epoch, 256 frames ahead; the entropy of this end goes out on VC3 first. -/
def execLinkKeyRollover (i : PortId) (s : State) : Host.Outcome State Fault Refusal :=
  .next (
    if s.on (.port i.val) FAB_PORT_STATE_encrypted && (s.port i.val).nextKey.isNone then
      let epoch := (s.rd (.port i.val) FAB_PORT_KEY_epoch + 1) % 2 ^ 32
      let first := (s.port i.val).txSeq + (s.port i.val).ctrl.length + 257
      let own := slice (Config.entropy s.nDraw) 0 32
      let key := s.keyFor i.val s.here (s.neighbour i.val) epoch own (s.port i.val).peerR
      let s := s.drawn.modPort i.val (fun x => { x with nextKey := some { epoch := epoch, first := first, key := key }, ownR := own })
      let s := s.queueTx i.val [{ slot := { vc := 3, data := own, poison := false, cargo := .mgmt }, origin := none }]
      s.sendCtrl i.val (.keyEpoch (BitVec.ofNat 32 epoch) (BitVec.ofNat 64 first))
    else s)

end Sys2Proof.Machine
end

