-- ==== Sys2Proof/Machine/Frames.lean ====
section
/-! DEFINITION. The abort token (R313–R316, R342, R359) and frames (R295–R298, R301, R321). -/
namespace Sys2Proof.Machine

/-! Tokens (R313, R314) -/

/-- R314: a token arrives on a port: one of another job is ignored, a stale one is counted, one already known is discarded; every other
waits for the next tick edge and is forwarded. -/
def State.tokenArrives (s : State) (i : Nat) (t : Token) : State :=
  if !s.on .fabG FAB_G_JOB_valid || s.rd .fabG FAB_G_JOB_id != t.job.toNat then s
  else if t.step.toNat < s.jobStep then s.bump .fabG 1
  else if s.tokenKnown t.step.toNat then s
  else
    let t : Token := { t with hops := t.hops + 1 }
    (s.modFabric (fun f => { f with tokens := f.tokens ++ [t] })).forwardToken t (some i)

/-- ABORT_TOKEN (R314). -/
def execAbortToken (i : PortId) (t : Token) (s : State) : Host.Outcome State Fault Refusal :=
  .next (s.ranked (.abortToken i t) (s.tokenArrives i.val t))

/-- ABORT_GO (R313): software emits a token for the current step. -/
def execAbortGo (s : State) : Host.Outcome State Fault Refusal :=
  .next (if s.feature 4 then s.emitToken s.jobStep else s)

/-! Acting on a token (R315) -/

/-- Whether an abort ends a command in flight: seatings, remote writes, checkpoints, pushes and comparisons that have begun go on
(R147, R323, R359), and what has completed its work stays complete. -/
def Inflight.endedByAbort (x : Inflight) : Bool :=
  match x.work with
  | .boundary | .threads | .product _ | .pass | .flagRound | .resume => true
  | .ringIn _ _ _ _ taken => taken == 0
  | .ringOut _ _ _ _ written => !written
  | .done | .seats | .commit | .remote | .push => false

/-- R118, R174, R197, R242: what an abort of a step discards of a partition's work. Chunks in flight complete first; the record of another
step stays (R116). -/
def State.discardStep (s : State) (p step : Nat) : State :=
  let s := s.abandonAll p 1 Inflight.endedByAbort
  let s := s.each (List.range 26) (fun s c =>
    s.modCluster p c (fun x => { x with threads := [], mover := [], mmaQ := [], vecQ := [] }))
  let s := s.each (List.range 9) (fun s w => s.clearWing p w)
  let s := s.landChunks p
  let s := s.modPart p (fun x =>
    { x with recompute := [], products := [], rot := [], outliers := [], up := [], rungs := [], tiles := []
             stepOpen := if x.stepOpen = some step then none else x.stepOpen, pass := none, owned := [] })
  s.wrAll (.upd p) [(UPD_STATUS_busy, 0), (UPD_STATUS_phase, 0), (UPD_STATUS_in_flight, 0)]

/-- R342: a partition in ready or committed sends the chaser for the next step. -/
def State.chase (s : State) (p step : Nat) : State :=
  if s.hch p = hchReady ∨ s.hch p = hchCommitted then
    ((s.emitToken (step + 1)).bump (.hch p) 7).raise (.hch p) HCH_INT_chaser_sent
  else s

/-- R336: an abort whose step is HCH_OPEN or later, or any abort during a resume, leaves the hitch held. -/
def State.abortHolds (s : State) (p step : Nat) : Bool := s.hch p == hchResuming || decide (s.rd (.hch p) HCH_OPEN_step ≤ step)

/-- The domain controller passes an abort to a partition: its launches end, its sequencer stops, the step's work is discarded, and the
hitch chases and is held. -/
def State.abortPart (s : State) (p step : Nat) : State :=
  let s := s.chase p step
  let held := s.abortHolds p step
  let s := s.discardStep p step
  let s := s.modHitch p (fun h =>
    if h.roundOpen then { h with roundOpen := false, awaiting := h.awaiting.filter (fun e => e.1 != .commit) } else h)
  let s := (s.stopSeq p).modSeq p (fun q => q.endAll 2)
  let s := if s.rd (.hch p) HCH_OPEN_step = step then s.wr (.hch p) HCH_STATE_acted 1 else s
  if held then s.hold p else s

/-- Whether a granule belongs to a step of the module's job (R315). -/
def State.ofStep (s : State) (step : Nat) (g : Slot) : Bool :=
  match g.cargo with
  | .coll j st _ _ _ _ => j.toNat == s.rd .fabG FAB_G_JOB_id && st.toNat == step
  | _ => false

/-- R315: discard the VC0 granules of a step: each is counted, and those received return their credits. -/
def State.discardVc0 (s : State) (step : Nat) : State :=
  let hit := s.ofStep step
  let n := fun (x : Port) => ((x.rxQ ++ x.kept).filter hit).length + (x.txQ.filter (fun g => hit g.slot)).length
  let count := ((List.range 8).map (fun i => n (s.port i))).foldl (· + ·) 0
  ((s.each (List.range 8) (fun s i => s.freeVc0 i hit)).purge hit).bumpN .fabG 3 count

/-- R315: act on an abort of a step. -/
def State.actOn (s : State) (step : Nat) : State :=
  let s := s.wrAll .fabG [(FAB_G_ABORT_STEP_value, step), (FAB_G_ABORT_TICK_value, s.now)]
  let s := (s.bump .fabG 0).raise .fabG FABG_INT_abort_received
  let s := s.modFabric (fun f =>
    { f with acted := setIns f.acted step, colls := f.colls.filter (fun c => c.step != step),
             rounds := f.rounds.filter (fun r => r.step != step) })
  let s := s.discardVc0 step
  s.each s.boundParts (fun s p => s.abortPart p step)

/-- ABORT_ACT (R315): at a tick edge the module acts on the first token that waits. -/
def execAbortAct (s : State) : Host.Outcome State Fault Refusal :=
  .next (s.ranked .abortAct (match s.fabric.tokens with
    | t :: rest => (s.modFabric (fun f => { f with tokens := rest })).actOn t.step.toNat
    | [] => s))

/-! Sending frames (R295–R298) -/

/-- Take the first granule of a virtual channel out of a queue. -/
def takeSlot (vc : Fin 4) : List TxGranule → Option (TxGranule × List TxGranule)
  | [] => none
  | g :: q => if g.slot.vc = vc then some (g, q) else (takeSlot vc q).map (fun r => (r.1, g :: r.2))

/-- The partition number of a collective's granule (R301). -/
def partOf (g : Slot) : List Nat :=
  match g.cargo with
  | .coll _ _ part _ _ _ => [part.val]
  | _ => []

/-- R301: whether a granule has room at the other end beside its credit: a partition number's part of VC0 is 64 KiB, 2,048 granules. -/
def roomFor (g : TxGranule) (out0 : List Nat) : Bool := (partOf g.slot).all (fun p => decide (out0.count p < 2048))

/-- What `fillSlots` leaves: the granules taken, the queue, the credits, and the partition numbers out. -/
structure Filled where
  took    : List TxGranule
  queue   : List TxGranule
  credits : List Nat
  out0    : List Nat
  deriving DecidableEq, Repr

/-- The channels from one on, each with the granule it would send now: the first of its queue, where it holds a credit and has room. -/
def nextGranule (vc : Fin 4) (q : List TxGranule) (cr out0 : List Nat) : Option (Fin 4 × TxGranule × List TxGranule) :=
  [vc, vc + 1, vc + 2, vc + 3].findSome? (fun (v : Fin 4) =>
    if cr.getD v.val 0 = 0 then none
    else match takeSlot v q with
      | some (g, q') => if roomFor g out0 then some (v, g, q') else none
      | none => none)

/-- R301: the granules of a frame: round-robin among the virtual channels that have data and credit; `fuel` bounds the slots. -/
def fillSlots : Nat → Fin 4 → List TxGranule → List Nat → List Nat → Filled
  | 0, _, q, cr, out0 => ⟨[], q, cr, out0⟩
  | fuel + 1, vc, q, cr, out0 =>
    match nextGranule vc q cr out0 with
    | none => ⟨[], q, cr, out0⟩
    | some (v, g, q') =>
      let r := fillSlots fuel (v + 1) q' (cr.set v.val (cr.getD v.val 0 - 1)) (out0 ++ partOf g.slot)
      { r with took := g :: r.took }

/-- Whether a lane switch is under way (R296). -/
def lanePendingIn (x : Port) : Bool := !x.moves.isEmpty

/-- R457: use the next transmit key from its first frame on. -/
def State.turnKey (s : State) (i : Nat) : State :=
  match (s.port i).nextKey with
  | some k =>
    if k.first ≤ (s.port i).txSeq + 1 then
      (s.wr (.port i) FAB_PORT_KEY_epoch k.epoch).modPort i (fun x => { x with txKey := k.key, nextKey := none })
    else s
  | none => s

/-- R297: the sending port checks a granule's G36 code: a correctable error is corrected, and a granule with an uncorrectable one leaves
poisoned. -/
def checkSlot (g : Slot) (us : List Upset) : Slot :=
  let r := readCodeword g.poison (upsetError us)
  { g with data := g.data.zipIdx.map (fun b => b.1 ^^^ BitVec.ofNat 8 (r.left.getD (b.2 + 4) 0)), poison := r.poisoned }

/-- The granules of a frame after the check of their codes. -/
def checkSlots (l : List Slot) (errs : List (Fin 75 × List Upset)) : List Slot :=
  l.zipIdx.map (fun g => match errs.find? (fun e => e.1.val == g.2) with
    | some e => checkSlot g.1 e.2
    | none => g.1)

/-- R519: the tick at which the last byte of this module's remote write is sent. -/
def State.markSent (s : State) (g : Slot) : State :=
  match g.cargo with
  | .write _ from_ _ id _ len index =>
    if from_.toNat = s.here ∧ len ≤ 32 * (index + 1) then
      s.modFabric (fun f => { f with remotes := f.remotes.map (fun r => if r.id = id then { r with sent := some s.now } else r) })
    else s
  | _ => s

/-- Send a new frame (R295, R296), encrypted where the port encrypts (R321). -/
def State.sendFrame (s : State) (i : Nat) (errs : List (Fin 75 × List Upset)) : State :=
  let s := (s.turnKey i).turnLanes i true ((s.port i).txSeq + 1)
  let x := s.port i
  let seq := x.txSeq + 1
  let r := fillSlots 75 0 x.txQ x.credits x.out0
  let f := frameOf seq x.rxSeq x.nakDue (lanePendingIn x) (x.ctrl.headD .idle) x.giveBack (checkSlots (r.took.map TxGranule.slot) errs)
  let f := if s.on (.port i) FAB_PORT_STATE_encrypted then f.seal x.txKey i seq else f
  let s := s.setPort i { x with txSeq := seq, replay := x.replay ++ [⟨seq, f.wire, f.cargo, 0⟩], nakDue := false, ctrl := x.ctrl.drop 1
                                txQ := r.queue, credits := r.credits, out0 := r.out0, giveBack := [0, 0, 0, 0] }
  let s := r.took.foldl (fun s g => (s.returnOrigin g).markSent g.slot) s
  (s.progress (.port i)).emit (.frame i f.wire f.cargo)

/-- R298, R299: resend a frame of a replay as transmitted. -/
def State.resendFrame (s : State) (i : Nat) (f : SentFrame) (rest : List SentFrame) : State :=
  let s := s.modPort i (fun x =>
    { x with resend := rest, replay := x.replay.map (fun g => if g.seq = f.seq then { g with times := g.times + 1 } else g) })
  ((s.bump (.port i) 1).progress (.port i)).emit (.frame i f.wire f.cargo)

/-- STRAND_FRAME_SEND (R295, R298): a frame of a replay goes out as transmitted; else a new one while the replay buffer has room. A
port that is to encrypt and does not sends nothing (R321). -/
def execStrandFrameSend (i : PortId) (errs : List (Fin 75 × List Upset)) (s : State) : Host.Outcome State Fault Refusal :=
  let pg : Page := .port i.val
  .next (
    if s.rd pg FAB_PORT_STATE_link ≠ 2 then s
    else if s.on .sec SEC_MODE_confidential && !s.on pg FAB_PORT_STATE_encrypted then s
    else match (s.port i.val).resend with
      | f :: rest => s.resendFrame i.val f rest
      | [] => if (s.port i.val).replay.length < 390 then s.sendFrame i.val errs else s)

/-! Receiving frames (R297, R298) -/

/-- The symbol errors of a frame's header. -/
def headerErrors (a : Arrival) : Nat := (a.errors.filter (fun e => decide (e.val < 138))).length

/-- The symbol errors of a slot. -/
def slotErrors (a : Arrival) (j : Nat) : Nat := (a.errors.filter (fun e => decide (138 ≤ e.val) && (e.val - 138) / 34 == j)).length

/-- R297: the slots whose one symbol error is corrected, and whether every error lies within what is corrected. -/
def slotsCorrected (a : Arrival) : Nat := ((List.range 75).filter (fun j => slotErrors a j == 1)).length
def isCorrectable (a : Arrival) : Bool := decide (headerErrors a ≤ 4) && (List.range 75).all (fun j => decide (slotErrors a j ≤ 1))

/-- R295: the receive lane that carries byte `n` of a frame: logical lane n mod 24, the working lanes in order (DESIGN CHOICE, log entry
84). -/
def State.laneOf (s : State) (i n : Nat) : Nat :=
  ((List.range 26).filter (fun k => !bit (s.rd (.port i) FAB_PORT_RX_RETIRED_lanes) k)).getD (n % 24) 0

/-- The lanes on which a frame has errors. -/
def State.errorLanes (s : State) (i : Nat) (a : Arrival) : List Nat :=
  (List.range 26).filter (fun k => a.errors.any (fun e => s.laneOf i e.val == k))

/-- R300: count the symbols that each lane had corrected in this window of 2^10 ticks. -/
def State.countLanes (s : State) (i : Nat) (a : Arrival) : State :=
  let win := s.now / 1024
  let add := fun (m : List (Nat × Nat)) (e : Fin 2688) => let k := s.laneOf i e.val; mapSet 0 m k (mapGet 0 m k + 1)
  s.modPort i (fun x => { x with laneWin := win, laneErrs := a.errors.foldl add (if x.laneWin = win then x.laneErrs else []) })

/-- A bad frame (R298, R300): the receiver naks and discards frames until the replay arrives; lanes in error in two bad frames in succession
are noted. -/
def State.badFrame (s : State) (i : Nat) (a : Arrival) : State :=
  let l := s.errorLanes i a
  let s := s.modPort i (fun x =>
    { x with nakDue := true, discarding := true, badLanes := l
             common := if x.badLanes.isEmpty then x.common else l.filter x.badLanes.contains })
  if 4 < headerErrors a then s.bump (.port i) 5 else s

/-- R321: a frame that fails authentication is bad, and counts in ERRCNT 4. -/
def State.forgedFrame (s : State) (i : Nat) (a : Arrival) : State := ((s.badFrame i a).bump (.port i) 4).raise (.port i) PORT_INT_auth_fail

/-- R298, R301: what an accepted frame acknowledges leaves the replay buffer, and the credits it returns are held; a nak has the rest
resent. Returned VC0 credits are those of the oldest granules out (DESIGN CHOICE, log entry 47). -/
def Port.acknowledge (x : Port) (ack : Nat) (nak : Bool) (back : List Nat) : Port :=
  let left := x.replay.filter (fun f => decide (ack < f.seq))
  { x with
    replay := left
    resend := if nak then left else x.resend.filter (fun f => decide (ack < f.seq))
    credits := x.credits.zipIdx.map (fun (c : Nat × Nat) => c.1 + back.getD c.2 0)
    out0 := x.out0.drop (back.getD 0 0) }

/-- R301, R305, R307, R315: a granule of a collective: one of an aborted step is discarded, one for a member further on goes on, one of a
collective in flight is taken, and any other waits. -/
def State.takeColl (s : State) (i : Nat) (g : Slot) (job step part tag to_ : Nat) : State :=
  if job = s.rd .fabG FAB_G_JOB_id ∧ s.fabric.acted.contains step then (s.returnCredit i 0).bump .fabG 3
  else if to_ ≠ s.here then s.queueTx (i ^^^ 1) [⟨g, some (i, 0)⟩]
  else if s.fabric.colls.any (fun c => matchesColl (s.rd .fabG FAB_G_JOB_id) c.step c.part c.tag g) then s.returnCredit i 0
  else s.modPort i (fun x => { x with rxQ := x.rxQ ++ [g] })

/-- Forget a remote write whose granules were discarded, with its last one. -/
def State.forgetWrite (s : State) (w : Nat × Nat) (last : Bool) : State :=
  if last then s.modFabric (fun f => { f with broken := f.broken.filter (fun x => x != w) }) else s

/-- R302, R303, R519: a granule of a remote write: one of a broken or refused write is discarded, one for another module goes on, and one
for this module is written or refused. The last one that is written answers the sender. -/
def State.takeWrite (s : State) (i : Nat) (g : Slot) (job from_ to_ id addr len index : Nat) : State :=
  let w := (from_, id)
  let last := decide (len ≤ 32 * (index + 1))
  let at_ := addr + 32 * index
  let n := min 32 (len - 32 * index)
  if s.fabric.broken.contains w then (s.returnCredit i g.vc.val).forgetWrite w last
  else if to_ ≠ s.here then
    match s.routeGranule to_ g (some (i, g.vc.val)) with
    | some t => t
    | none => (s.returnCredit i g.vc.val).breakWrite w
  else if s.remoteOk job addr len then
    let t := ((s.returnCredit i g.vc.val).store at_ (slice g.data 0 n) (if g.poison then granules at_ n else [])).transferred at_ n
    if last then (t.sendReply from_ id .accepted).arrivedAt addr else t
  else
    let t := (s.returnCredit i g.vc.val).bump .fabG 2
    let t := if last then t else t.modFabric (fun f => { f with broken := f.broken ++ [w] })
    t.sendReply from_ id .refused

/-- R355: checkpoints whose last record has been acknowledged. -/
def State.verifyAll (s : State) : State := s.each (List.range 8) State.verifyCheckpoint

/-- Take one granule of an accepted frame. A management granule brings the other end's entropy (R457). -/
def State.takeGranule (s : State) (i : Nat) (g : Slot) : State :=
  match g.cargo with
  | .coll job step part tag to_ _ => s.takeColl i g job.toNat step.toNat part.val tag.toNat to_.toNat
  | .write job from_ to_ id addr len index => s.takeWrite i g job.toNat from_.toNat to_.toNat id addr.toNat len index
  | .reply to_ id x =>
    if to_.toNat = s.here then ((s.returnCredit i g.vc.val).takeReply id x).verifyAll
    else (s.routeGranule to_.toNat g (some (i, g.vc.val))).getD (s.returnCredit i g.vc.val)
  | .mgmt => (s.returnCredit i g.vc.val).modPort i (fun x => { x with peerR := g.data })

/-- A control message of an accepted frame (R296). -/
def State.takeControl (s : State) (i arrival : Nat) : CtrlMsg → State
  | .idle => s
  | .abort t => s.tokenArrives i t
  | .timing depth tick phase => s.timingMessage i depth.toNat tick.toNat phase.toNat arrival
  | .round kind axis step value => s.roundMessage kind axis.val (travelsPlus i) step.toNat value
  | .lane transmit lane first => s.laneMessage i transmit lane.val first.toNat
  | .keyEpoch epoch first => s.keyEpochMessage i epoch.toNat first.toNat

/-- R457: the key under which a received frame comes. -/
def Port.keyOf (x : Port) (seq : Nat) : List Byte :=
  match x.rxNextKey with
  | some k => if k.first ≤ seq then k.key else x.rxKey
  | none => x.rxKey

/-- R457: use the next receive key from its first frame on. -/
def Port.turnRxKey (x : Port) (seq : Nat) : Port :=
  match x.rxNextKey with
  | some k => if k.first ≤ seq then { x with rxEpoch := k.epoch, rxKey := k.key, rxNextKey := none } else x
  | none => x

/-- A good frame in sequence order: a replay that was awaited has arrived. -/
def State.acceptFrame (s : State) (i seq arrival : Nat) (f : Frame) : State :=
  let s := s.modPort i (fun x =>
    { (x.acknowledge (extendSeq x.txSeq f.ack) f.nak f.credits).turnRxKey seq with rxSeq := seq, discarding := false, badLanes := [] })
  let s := f.slots.foldl (fun s g => s.takeGranule i g) (s.turnLanes i false seq)
  (s.progress (.port i)).takeControl i arrival f.msg

/-- R298: a good frame: the next in order is accepted; one further on shows that a frame was lost, and is nak'ed once; one that was accepted
before is discarded. -/
def State.goodFrame (s : State) (i seq arrival : Nat) (f : Frame) : State :=
  let x := s.port i
  if seq = x.rxSeq + 1 then s.acceptFrame i seq arrival f
  else if x.rxSeq < seq ∧ !x.discarding then s.modPort i (fun x => { x with nakDue := true, discarding := true })
  else s

/-- The frame that bytes on the wire hold, decrypted where the port encrypts: none where it does not authenticate (R321). The other end of a
link is the port of the opposite direction (R293). -/
def State.readFrame? (s : State) (i seq : Nat) (wire : List Byte) (cargo : List (Option Cargo)) : Option Frame :=
  let f := readFrame wire cargo
  if s.on (.port i) FAB_PORT_STATE_encrypted then f.open? wire ((s.port i).keyOf seq) (i ^^^ 1) seq else some f

/-- STRAND_FRAME_RECEIVE (R297, R298): `wire` is the frame as it was sent, `cargo` what its slots carry. Symbols are corrected, a bad frame is
nak'ed, and a good one is accepted in sequence order. -/
def execStrandFrameReceive (i : PortId) (wire : List Byte) (cargo : List (Option Cargo)) (a : Arrival) (s : State) :
    Host.Outcome State Fault Refusal :=
  .next (
    if s.rd (.port i.val) FAB_PORT_STATE_link ≠ 2 then s
    else
      let s := (s.bumpN (.port i.val) 0 (slotsCorrected a)).countLanes i.val a
      let seq := extendSeq ((s.port i.val).rxSeq + 1) (leAt wire 0 4)
      if !isCorrectable a || !crcMatches wire then s.badFrame i.val a
      else match s.readFrame? i.val seq wire cargo with
        | none => s.forgedFrame i.val a
        | some f => s.goodFrame i.val seq a.phase.toNat f)

end Sys2Proof.Machine
end

