-- ==== Sys2Proof/Machine/Measure.lean ====
section
/-! DEFINITION. The measurement unit (R403–R407): four converters with a scan and a queue of urgent requests. -/
namespace Sys2Proof.Machine

/-- The channels that a converter has (R403): the others are reserved and never converted. -/
def validChannels (m : Nat) : Nat :=
  match m with
  | 0 => 0x007F_FFFF
  | 1 => 0x0FFF_FFFF
  | _ => 0x3F3F_3F3F

/-- The next channel of a scan: the lowest one from `from_` on that MSR_M_SCAN selects (R404). -/
def State.scanFrom (s : State) (m from_ : Nat) : Option Nat :=
  (List.range 32).find? (fun c => from_ ≤ c && bit (s.rd .msr (MSR_M_SCAN_mask m)) c && bit (validChannels m) c)

/-- MSR_M_STATUS shows a converter (R406). -/
def State.showConverter (s : State) (m : Nat) : State :=
  let c := s.converter m
  s.wrAll .msr [(MSR_M_STATUS_busy m, flag c.cur.isSome), (MSR_M_STATUS_urgent m, flag (c.cur.any (fun e => e.2))),
    (MSR_M_STATUS_queued m, c.urgent.length), (MSR_M_STATUS_channel m, (c.cur.map Prod.fst).getD 0)]

/-- Put a converter's record and show it. -/
def State.putConverter (s : State) (m : Nat) (x : Converter) : State := (s.setConverter m x).showConverter m

/-- R404: the scan's next conversion after channel `last`, none where it starts anew: an abandoned one starts again, then the scan goes on in
ascending order; at its end a continuous scan starts again from the lowest and a single one stops. -/
def State.startScan (s : State) (m : Nat) (last : Option Nat) : State :=
  let c := s.converter m
  if !s.on .msr (MSR_M_CFG_en m) || c.stopped then s.putConverter m { c with again := none }
  else
    match s.scanFrom m (c.again.getD ((last.map (· + 1)).getD 0)) with
    | some ch => s.putConverter m { c with cur := some (ch, false), again := none }
    | none =>
      if s.on .msr (MSR_M_CFG_cont m) then
        match s.scanFrom m 0 with
        | some ch => s.putConverter m { c with cur := some (ch, false), again := none }
        | none => s.putConverter m { c with again := none }
      else
        let s := s.putConverter m { c with again := none, stopped := true }
        if last.isSome || c.again.isSome then s.raise .msr MSR_INT_scan_done else s

/-- R404, R405: an idle converter begins its next conversion: urgent requests first, in order of arrival. It runs from the measurement
clock (R412). -/
def State.startNext (s : State) (m : Nat) (last : Option Nat) : State :=
  let c := s.converter m
  if c.cur.isSome || !s.on .clk CLK_PLL_STABLE_measurement then s.showConverter m
  else
    match c.urgent with
    | ch :: rest => s.putConverter m { c with cur := some (ch, true), urgent := rest }
    | [] => s.startScan m last

/-- The measurement clock runs: every converter begins. -/
def State.startConverters (s : State) : State := s.each (List.range 4) (fun s m => s.startNext m none)

/-- The measurement clock stops (R412): the running conversions produce no result and start again when it runs. -/
def State.stopConverters (s : State) : State :=
  s.each (List.range 4) (fun s m =>
    let c := s.converter m
    match c.cur with
    | some (ch, true) => s.putConverter m { c with cur := none, urgent := ch :: c.urgent }
    | some (ch, false) => s.putConverter m { c with cur := none, again := some ch }
    | none => s)

/-- A write of MSR_M_CFG or MSR_M_SCAN (R404): a converter that has stopped scans again (DESIGN CHOICE, log entry 65). -/
def State.rescan (s : State) (m : Nat) : State := (s.setConverter m { s.converter m with stopped := false }).startNext m none

/-- The place of a requester among the requests of one tick (R405): the thermal manager, then the calibration engines in ascending
partition. -/
def requesterRank : UrgentRequester → Nat
  | .thermal => 0
  | .calibration p => 1 + p.val

/-- URGENT_REQUEST (R405): the request takes effect at the next tick edge. A reserved channel is never converted (R403). -/
def execUrgentRequest (m : Fin 4) (ch : Fin 32) (requester : UrgentRequester) (s : State) : Host.Outcome State Fault Refusal :=
  .next (
    let c := s.converter m.val
    if !s.powered || !bit (validChannels m.val) ch.val then s
    else s.setConverter m.val { c with asked := c.asked ++ [(requesterRank requester, ch.val)] })

/-- R405: a converter serves one request: a running scan conversion is abandoned and the urgent one runs at once; behind an urgent one it
queues, and a full queue refuses it until its requester repeats it at the next edge. -/
def State.serveUrgent (s : State) (m : Nat) (e : Nat × Nat) : State :=
  let c := s.converter m
  match c.cur with
  | some (old, false) => (s.putConverter m { c with cur := some (e.2, true), again := some old }).bump .msr 1
  | some (_, true) | none =>
    if c.urgent.length < 8 then (s.setConverter m { c with urgent := c.urgent ++ [e.2] }).startNext m none
    else ((s.setConverter m { c with asked := c.asked ++ [e] }).bump .msr 4).raise .msr MSR_INT_queue_full

/-- R405: at a tick edge a converter takes the requests of the tick, thermal manager first, then by ascending partition, each in order of
arrival. -/
def State.takeUrgent (s : State) (m : Nat) : State :=
  let c := s.converter m
  ((List.range 9).flatMap (fun k => c.asked.filter (fun e => e.1 = k))).foldl (fun s e => s.serveUrgent m e)
    (s.setConverter m { c with asked := [] })

/-- The largest code of a converter (R404). -/
def fullCode : Int := 2 ^ 23 - 1

/-- R404, R407: a result is written with its tick; one at ±(2²³ − 1) is overrange. -/
def State.putResult (s : State) (m ch : Nat) (urgent : Bool) (value : Int) : State :=
  let v := max (-fullCode) (min fullCode value)
  let s := (s.wrAll .msr [(MSR_DATA_valid (32 * m + ch), 1), (MSR_DATA_urgent (32 * m + ch), flag urgent),
    (MSR_TICK_tick (32 * m + ch), s.now)]).wrInt .msr (MSR_DATA_code (32 * m + ch)) v
  let s := s.bump .msr 0
  let s := if urgent then s.bump .msr 2 else s
  if fullCode ≤ value ∨ value ≤ -fullCode then (s.bump .msr 3).raise .msr MSR_INT_overrange else s

/-- MEASUREMENT_CONVERSION (R404, R405): the converter's running conversion ends. -/
def execMeasurementConversion (m : Fin 4) (value : Int) (s : State) : Host.Outcome State Fault Refusal :=
  .next (
    match (s.converter m.val).cur with
    | some (ch, urgent) =>
      let s := s.putResult m.val ch urgent value
      (s.setConverter m.val { s.converter m.val with cur := none }).startNext m.val (if urgent then none else some ch)
    | none => s)

end Sys2Proof.Machine
end

