-- ==== Sys2Proof/Machine/Start.lean ====
section
/-! DEFINITION. Power-off, power-good and the staged start (R416, R425–R428, R442), module and watchdog resets (R331, R335), and
FEATURE_ENABLE (R284). -/
namespace Sys2Proof.Machine

/-! What survives (R416, R424) -/

/-- The records of the scales as a start finds them: reset but for the wear that the flash holds (R141). -/
def wornScales (wear : List (Nat × Nat)) : List (Nat × Scale) :=
  wear.map (fun e => (e.1, { Scale.reset (e.1 % 528) with wear := e.2 }))

/-- R416: the module without power. Fuses and flash keep what they hold; the host's memory, the pins and the waiting commands are not the
module's. -/
def State.cold (s : State) : State :=
  { State.reset with
    pending := s.pending
    sent := s.sent
    nDraw := s.nDraw
    hostMem := s.hostMem
    scales := wornScales s.wearFlash
    security := { Security.reset with copy0 := s.security.copy0, copy1 := s.security.copy1, fuseSvn := s.security.fuseSvn
                                      bootKey := s.security.bootKey }
    wearFlash := s.wearFlash
    strapSris := s.strapSris
    strapSmb := s.strapSmb
    perstLow := s.perstLow }

/-- Switch a power domain on or off (R415); a domain in power fault stays off until the next module reset (R417). -/
def State.setDomain (s : State) (n : Nat) (on : Bool) : State :=
  if on && bit (s.rd .pwr (PWR_DOM_FAULT_domains (n / 32))) (n % 32) then s
  else s.setBit .pwr (PWR_DOM_STATE_domains (n / 32)) (n % 32) on

/-- Whether a power domain is on. -/
def State.domainOn (s : State) (n : Nat) : Bool := bit (s.rd .pwr (PWR_DOM_STATE_domains (n / 32))) (n % 32)

/-! Reservations and keys (R441–R443) -/

/-- The valid copy of the reservation record with the higher sequence (R442). -/
def Security.latest (x : Security) : Reservation := if x.copy1.seq ≤ x.copy0.seq then x.copy0 else x.copy1

/-- Write the other copy of the reservation record. -/
def Security.putCopy (x : Security) (r : Reservation) : Security :=
  if x.copy1.seq ≤ x.copy0.seq then { x with copy1 := r } else { x with copy0 := r }

/-- R442, R443: reserve the next block of identity indices; where N_id would pass 2^20, confidential mode is exhausted. -/
def State.reserveId (s : State) : State :=
  let r := s.security.latest
  if 2 ^ 20 < r.nId + 16 then s.wr .sec SEC_MODE_exhausted 1
  else
    (s.modSecurity (fun x => { x.putCopy { r with seq := r.seq + 1, nId := r.nId + 16 } with idTop := r.nId + 16 })).bump .sec 6

/-- R442, R443: reserve the next block of nonce counters; where N_nc would pass 2^40, confidential mode is exhausted. -/
def State.reserveNonce (s : State) : State :=
  let r := s.security.latest
  if 2 ^ 40 < r.nNc + 2 ^ 24 then s.wr .sec SEC_MODE_exhausted 1
  else
    (s.modSecurity (fun x => { x.putCopy { r with seq := r.seq + 1, nNc := r.nNc + 2 ^ 24 } with ncTop := r.nNc + 2 ^ 24 })).bump .sec 7

/-- R442: at a start one write of the record reserves a block of both kinds. Where one is exhausted nothing is reserved, and the values go on
from what the flash holds as not reserved, so that none is used twice. -/
def State.reserveBoth (s : State) : State :=
  let r := s.security.latest
  if 2 ^ 20 < r.nId + 16 ∨ 2 ^ 40 < r.nNc + 2 ^ 24 then
    (s.modSecurity (fun x => { x with idTop := r.nId, ncTop := r.nNc })).wrAll .sec
      [(SEC_MODE_exhausted, 1), (SEC_ID_INDEX_next, r.nId), (SEC_NONCE_CTR_value, r.nNc)]
  else
    let t : Reservation := { seq := r.seq + 1, nId := r.nId + 16, nNc := r.nNc + 2 ^ 24 }
    let s := s.modSecurity (fun x => { x.putCopy t with idTop := r.nId + 16, ncTop := r.nNc + 2 ^ 24 })
    ((s.wrAll .sec [(SEC_ID_INDEX_next, r.nId), (SEC_NONCE_CTR_value, r.nNc)]).bump .sec 6).bump .sec 7

/-- The next identity index, from a block reserved for it (R442): none where the indices are exhausted. -/
def State.takeId (s : State) : Option (Nat × State) :=
  let s := if s.rd .sec SEC_ID_INDEX_next < s.security.idTop then s else s.reserveId
  let n := s.rd .sec SEC_ID_INDEX_next
  if n < s.security.idTop then some (n, s.wr .sec SEC_ID_INDEX_next (n + 1)) else none

/-- The next nonce counter value (R442, R453): none where the counters are exhausted. -/
def State.takeNonce (s : State) : Option (Nat × State) :=
  let s := if s.rd .sec SEC_NONCE_CTR_value < s.security.ncTop then s else s.reserveNonce
  let n := s.rd .sec SEC_NONCE_CTR_value
  if n < s.security.ncTop then some (n, s.wr .sec SEC_NONCE_CTR_value (n + 1)) else none

/-- Mint an attestation key under the next identity index (R441, R443). -/
def State.mintKey (s : State) : Option State :=
  s.takeId.map (fun r => (r.2.modSecurity (fun x => { x with attIndex := r.1 })).wr .sec SEC_RPT_CTL_att_left 0x400)

/-- R441, R459: the security domain starts: its self-tests pass, the reservation is written, and the per-boot keys are generated. -/
def State.startSecurity (s : State) : State :=
  let s := (s.wrAll .sec [(SEC_MODE_engines_ok, 0xF), (SEC_FW_fused_svn, s.security.fuseSvn)]).reserveBoth
  let s := s.modSecurity (fun x => { x with bootKey := x.bootKey + 1 })
  s.mintKey.getD (s.wr .sec SEC_RPT_CTL_att_left 0)

/-! The stages (R426–R428) -/

/-- R426: from power-good, domains 93, 94 and 95 are on, the tick counts from 0, and ROM begins the start. -/
def State.fromPowerGood (s : State) : State :=
  let s : State := { s.cold with powered := true, strapSris := s.strapSris, strapSmb := s.strapSmb }
  (s.each [93, 94, 95] (fun s n => s.setDomain n true)).startSecurity

/-- The partitions in service: not failed. -/
def State.workingParts (s : State) : List Nat := (List.range 8).filter (fun p => s.rd (.part p) MGT_PT_STATE_state != 3)

/-- R426: the work of Instar 1: partition logic, HBM4 and fabric pair domains are switched on, and the partitions start. -/
def State.beginInstar1 (s : State) : State :=
  let s := s.each ((List.range 20).map (· + 72)) (fun s n => s.setDomain n true)
  let s := s.wr .pwr PWR_STATUS_fab_on (((List.range 4).filter (fun x => s.domainOn (88 + x))).foldl (fun a x => a + 2 ^ x) 0)
  s.each s.workingParts (fun s p =>
    ((s.wr (.part p) MGT_PT_STATE_state 1).wr .pwr (PWR_P_STATE_state p) 1).each (List.range 26) (fun s c =>
      s.wr (.cluster p c) THX_STATE_state 1))

/-- R426: Instar 0: the host interface is up, and the work of Instar 1 begins. -/
def State.reachInstar0 (s : State) : State :=
  let s := (s.modPower (fun x => { x with running := true })).setDomain 92 true
  let s := s.wrAll .pwr [(PWR_INSTAR_TICK_tick 0, s.now)]
  (s.wr .hif HIF_LINK_sris (flag s.strapSris)).beginInstar1

/-- A stage after Instar 0 is reached: its number and its tick. -/
def State.reach_ (s : State) (k : Nat) : State :=
  (s.wrAll .pwr [(PWR_INSTAR_instar, k), (PWR_INSTAR_TICK_tick k, s.now)]).raise .pwr PWR_INT_instar_reached

/-- R426, R322: Instar 2: enabled ports begin training. -/
def State.reachInstar2 (s : State) : State := (s.reach_ 2).each (List.range 8) State.startTraining

/-- R427: begin Instar 2: the wings are powered, or Instar 2 is reached at once where FEATURE_EN bit 0 is 0. -/
def State.powerWing (s : State) (p w : Nat) : State :=
  let s := s.setDomain (9 * p + w) true
  if s.domainOn (9 * p + w) then s.wr (.wing p w) WNG_STATE_power 1 else s

/-- R427: Instar 2 begins. -/
def State.beginInstar2 (s : State) : State :=
  if s.feature 0 then s.each s.workingParts (fun s p => s.each (List.range 9) (fun s w => s.powerWing p w))
  else s.reachInstar2

/-- R426, R492: Instar 1: the partitions run, and Instar 2 begins where FEATURE_EN has been written (R427, R429). -/
def State.reachInstar1 (s : State) : State :=
  let s := (s.reach_ 1).wr .hif HIF_STATE_state 1
  let s := s.each (s.workingParts.filter (fun p => !s.resetting.contains p)) (fun s p =>
    let s := (s.wr (.part p) MGT_PT_STATE_state 2).wr .pwr (PWR_P_STATE_state p) 2
    let s := s.each (List.range 26) (fun s c => s.wr (.cluster p c) THX_STATE_state 2)
    s.each (List.range 32) (fun s ch => s.wr (.chan p ch) THX_HBM_STATE_trained 1))
  let s := s.applyPower
  if s.featWritten then s.beginInstar2 else s

/-- R426: whether every PLL that Instar 1 needs is stable: of the powered domains and the partitions in service. -/
def State.pllsStable (s : State) : Bool :=
  s.on .clk CLK_REF_STATUS_ref_stable && s.on .clk CLK_PLL_STABLE_management && s.on .clk CLK_PLL_STABLE_measurement &&
  s.on .clk CLK_PLL_STABLE_pcie && s.rd .clk CLK_PLL_STABLE_thorax == 0xF &&
  s.workingParts.all (fun p => bit (s.rd .clk CLK_PLL_STABLE_hbm) p) &&
  (List.range 8).all (fun i => !s.pairOn i || bit (s.rd .clk CLK_PLL_STABLE_serdes) i)

/-- R427: whether every wing of every working partition is powered, cleared and calibrated; a retired wing serves nothing. -/
def State.wingsReady (s : State) : Bool :=
  s.workingParts.all (fun p => (List.range 9).all (fun w =>
    s.rd (.wing p w) WNG_STATE_role == 0xE ||
    (s.rd (.wing p w) WNG_STATE_power == 2 && s.on (.wing p w) WNG_STATE_cleared && s.on (.wing p w) WNG_STATE_calibrated)))

/-- R426: whether every job port is up and the tick is aligned. -/
def State.jobReady (s : State) : Bool :=
  (List.range 8).all (fun i => !s.on (.port i) FAB_PORT_CTL_job_member || s.rd (.port i) FAB_PORT_STATE_link == 2) &&
  s.rd .fabG FAB_G_TIME_STATUS_state == 1

/-- Whether the module runs: powered, and held by no module trip. -/
def State.alive (s : State) : Bool := s.powered && s.power.tripped.isNone

/-- R426: whether the conditions of a stage hold, as far as the state records them, and the stage before it has been reached. A stalled
stage is not reached (R428). -/
def State.stageDue (s : State) (k : Nat) : Bool :=
  s.alive && !s.on .pwr PWR_INSTAR_stalled &&
  match k with
  | 0 => !s.power.running && !s.perstLow
  | 1 => s.power.running && s.rd .pwr PWR_INSTAR_instar == 0 && s.pllsStable
  | 2 => s.rd .pwr PWR_INSTAR_instar == 1 && s.featWritten && s.wingsReady
  | _ => s.rd .pwr PWR_INSTAR_instar == 2 && s.jobReady

/-- INSTAR_REACHED (R426). `retries` names an HBM4 channel for each repeat of its training before Instar 1 (R179). -/
def execInstarReached (k : Fin 4) (retries : List (PartId × ChannelId)) (s : State) : Host.Outcome State Fault Refusal :=
  .next (
    if s.stageDue k.val then
      match k.val with
      | 0 => s.reachInstar0
      | 1 => retries.foldl (fun s e => s.bump (.chan e.1.val e.2.val) 2) s.reachInstar1
      | 2 => s.reachInstar2
      | _ => s.reach_ 3
    else s)

/-- PWR_INSTAR.cause (R432). -/
def stallCode : StallCause → Nat
  | .firmware => 1
  | .pll => 2
  | .bound => 3
  | .jobPort => 4
  | .tick => 5

/-- Whether a stall of the cause can be that of the stage under way. -/
def State.stallDue (s : State) (c : StallCause) : Bool :=
  s.alive && !s.on .pwr PWR_INSTAR_stalled && s.rd .pwr PWR_INSTAR_instar != 3 &&
  match c with
  | .firmware => !s.power.running
  | .jobPort | .tick => s.rd .pwr PWR_INSTAR_instar == 2
  | _ => true

/-- INSTAR_STALL (R428): a stage has not been reached within its bound. -/
def execInstarStall (c : StallCause) (s : State) : Host.Outcome State Fault Refusal :=
  .next (
    if s.stallDue c then
      ((s.wrAll .pwr [(PWR_INSTAR_stalled, 1), (PWR_INSTAR_cause, stallCode c)]).wr .hif HIF_STATE_state 2).raise .pwr
        PWR_INT_instar_stalled
    else s)

/-! FEATURE_EN (R284, R446) -/

/-- R446: what FEATURES reads: bit 3 only while all four engine pairs have passed their tests and nothing is exhausted. -/
def State.features (s : State) : Nat :=
  0x1FF7 + (if s.rd .sec SEC_MODE_engines_ok = 0xF ∧ ¬ s.on .sec SEC_MODE_exhausted then 8 else 0)

/-- R284, R446: a completed write of FEATURE_EN: accepted until the first binding; bit 3, once set, stays, and begins confidential mode. The
first write after Instar 1 begins Instar 2 (R427). -/
def State.writeFeatures (s : State) (v : Nat) : State :=
  if s.bound || !s.alive then s
  else
    let v := (v &&& s.features) ||| (s.rd .mgt HDR_FEATURE_EN &&& 8)
    let first := !s.featWritten
    let s := { s.wr .mgt HDR_FEATURE_EN v with featWritten := true }
    let s := if bit v 3 then s.wrAll .sec [(SEC_MODE_confidential, 1), (SEC_MODE_debug_locked, 1)] else s
    if first && s.rd .pwr PWR_INSTAR_instar == 1 then s.beginInstar2 else s

/-- FEATURE_ENABLE (R284). -/
def execFeatureEnable (value : W64) (s : State) : Host.Outcome State Fault Refusal := .next (s.writeFeatures value.toNat)

/-! Wings power up (R423, R427) -/

/-- The cells that stand at their level when a scale is cleared (R427): nothing listed, but the reference levels of a spare column that
serves the reference column, and the disabled cells. -/
def Scale.clearedCells (x : Scale) : List (Nat × BitVec 4) :=
  let refs := ((List.range 6).filter (fun n => x.colmap.getD n (0, 0) == (1, 257))).flatMap (fun n =>
    (List.range 1024).map (fun r => (r * 264 + 258 + n, BitVec.ofNat 4 (unsigned 4 (refLevel r)))))
  let m := refs.foldl (fun m (e : Nat × BitVec 4) => mapSet (cellReset e.1) m e.1 e.2) []
  x.disabled.foldl (fun m k => mapSet (cellReset k) m k 8) m

/-- R387, R427: a scale as its wing is powered: cleared cells, f and ρ +0.0, factory trims. -/
def Scale.powerUp (x : Scale) : Scale :=
  { x with cells := x.clearedCells, f := [], rho := 0, ladder := Trim.reset, pulse := Trim.reset, gains := [], offsets := [], noise := []
           sigmaC := 0, mon := Monitor.reset, driftSum := 0, driftN := 0, calNext := 0, attempts := [], calDirect := none }

/-- The listed scales of a wing: bank and scale of each. -/
def State.wingScales (s : State) (p w : Nat) : List (Nat × Nat) :=
  (s.listedScales p).filterMap (fun e => if e.1 = w then some e.2 else none)

/-- WING_CLEAR (R427): a wing that is being powered clears itself; its first calibration is triggered
at the next tick edge (R388, R398). The wings of a stack are powered
one at a time, W0 to W8, and clear while their timebase is stable (R412); the sweeps of the banks begin (R70). -/
def execWingClear (p : PartId) (w : WingId) (s : State) : Host.Outcome State Fault Refusal :=
  .next (
    if s.rd (.wing p.val w.val) WNG_STATE_power = 1 ∧ bit (s.rd .clk CLK_PLL_STABLE_wing) p.val ∧ (List.range w.val).all (fun v => s.rd (.wing p.val v) WNG_STATE_power != 1) then
      let s := (s.wingScales p.val w.val).foldl (fun s e => s.modScale p.val w.val e.1 e.2 Scale.powerUp) s
      let first := s.now * 2 ^ 20 + intervalNs (s.rd (.wing p.val w.val) WNG_STATE_restore_row)
      let s := s.modWing p.val w.val (fun x =>
        { x with refApplied := 0, refTarget := 0, due := (List.range 32).map (fun b => (b, first)) })
      let s := s.wrAll (.wing p.val w.val) [(WNG_STATE_power, 2), (WNG_STATE_cleared, 1)]
      s.wr (.cal p.val) (CAL_W_COUNT_count w.val) 0
    else s)

/-! Power and module-wide resets -/

/-- POWER_GOOD (R426, R442, R511): power-good holds, and KILL_N has been released; the straps are sampled. -/
def execPowerGood (sris : Bool) (smbAddr : Fin 8) (s : State) : Host.Outcome State Fault Refusal :=
  .next (if s.powered then s else ({ s with strapSris := sris, strapSmb := smbAddr.val } : State).fromPowerGood)

/-- POWER_LOSS (R416). -/
def execPowerLoss (s : State) : Host.Outcome State Fault Refusal := .next s.cold

/-- KILL (R425): every domain is switched off, and the module stays off while KILL_N is low. -/
def execKill (s : State) : Host.Outcome State Fault Refusal := .next { s.cold with killLow := true }

/-- What a module reset keeps (R424, R433, R441): the power page's counters and trip record, and the state of the clocks, which domain 94
holds. -/
def keptInModuleReset (pg : Page) (off : Nat) : Bool :=
  match pg with
  | .pwr => (0x40 ≤ off && off < 0x100) || off == 0x2C || (0x1A0 ≤ off && off < 0x1B0)
  | .clk => off == 0x104 || off == 0x108
  | _ => false

/-- R331, R335: what a module reset leaves: the partition, fabric and host interface domains lose everything, every page is reset, and
slots and grants are cleared (R450); the tick counts on and the per-boot keys stay (R441). -/
def State.moduleDown (s : State) : State :=
  let x := s.security
  let t : State :=
    { s.cold with
      powered := true
      tick := s.tick
      power := { Power.reset with last := s.power.last }
      regs := (s.dropRegs (fun pg off => !keptInModuleReset pg off)).regs
      security := { x with slots := [], epochs := [], grants := [], smbReport := [], ideKey := false, failed := 0 } }
  let t := t.wrAll .sec [(SEC_MODE_engines_ok, 0xF), (SEC_MODE_exhausted, s.rd .sec SEC_MODE_exhausted),
    (SEC_FW_fused_svn, x.fuseSvn), (SEC_ID_INDEX_next, s.rd .sec SEC_ID_INDEX_next),
    (SEC_NONCE_CTR_value, s.rd .sec SEC_NONCE_CTR_value), (SEC_RPT_CTL_att_left, s.rd .sec SEC_RPT_CTL_att_left)]
  t.each [93, 94, 95] (fun t n => t.setDomain n true)

/-- Let the Thorax clocks run whose PLL is stable (R412, R430). -/
def State.startClock (s : State) (t : Nat) : State :=
  if bit (s.rd .clk CLK_PLL_STABLE_thorax) t then s.wr .clk (thoraxFreq t) (s.thoraxMHz t / 8) else s

/-- R424: the management controller starts again from the work of Instar 1. -/
def State.restartModule (s : State) : State :=
  ((s.modPower (fun x => { x with tripped := none })).reachInstar0.each (List.range 4) State.startClock).startConverters

/-- R331: a module reset. -/
def State.moduleReset (s : State) : State := s.moduleDown.restartModule

/-- R331: a watchdog reset: the whole module starts again from ROM, with new per-boot keys (R441). -/
def State.watchdog (s : State) : State := s.fromPowerGood

/-- MODULE_RESET_REQUEST (R331, R491): software starts a module reset, which is counted. -/
def execModuleResetRequest (s : State) : Host.Outcome State Fault Refusal :=
  .next (if s.alive then s.moduleReset.bump .mgt 1 else s)

/-- WATCHDOG_RESET (R331). -/
def execWatchdogReset (s : State) : Host.Outcome State Fault Refusal := .next (if s.powered then s.watchdog else s)

end Sys2Proof.Machine
end

