-- ==== Sys2Proof/Machine/Power.lean ====
section
/-! DEFINITION. Clocks (R410–R413), power faults (R417, R418), limiter and throttle (R420, R421) and trips (R422–R424). -/
namespace Sys2Proof.Machine

/-! Sensors (R421, R403) -/

/-- The part that a sensor belongs to, named by its own sensor: a Thorax die, a Wing stack, an HBM4 stack or Spinneret. -/
def partSensor : Sensor → Sensor
  | .thorax t => .thorax t
  | .stack p => .stack p
  | .wingDie p _ => .stack p
  | .hbm p => .hbm p
  | .channel p _ => .hbm p
  | .spinneret => .spinneret

/-- A reading in 1/16 °C. -/
def tempOf (v : BitVec 16) : Int := signed 16 v.toNat

/-- The throttle threshold: values above 104.0 °C act as 104.0 °C (R432). -/
def State.throttleTemp (s : State) : Int := (min 1664 (s.rd .pwr PWR_THROT_T_temp) : Nat)

/-- Hold a sensor's reading. -/
def State.putReading (s : State) (x : Sensor) (v : BitVec 16) : State :=
  s.modPower (fun y => { y with last := (x, v) :: y.last.filter (fun e => decide (e.1 ≠ x)) })

/-- R388: whether a wing's temperature lies beyond delta_t from its reference temperature; a delta_t of 0 acts as 1 (R401). -/
def State.tempBeyond (s : State) (p w : Nat) : Bool :=
  let d := signed 16 (s.rd (.wing p w) WNG_TEMP_temp) - signed 16 (s.rd (.cal p) (CAL_W_STATE_ref_temp w))
  decide (max 1 (s.rd (.cal p) CAL_CTL_delta_t) < d.natAbs)

/-- R388: the triggers of a wing that are sampled at each tick edge: the temperature of one that has been calibrated, and the first
calibration of one that has been cleared. -/
def State.sampleTriggers (s : State) (p w : Nat) : State :=
  if s.on (.wing p w) WNG_STATE_calibrated then
    if s.on (.cal p) CAL_CTL_temp_en && s.tempBeyond p w then s.triggerState p w .temperature else s
  else if s.on (.wing p w) WNG_STATE_cleared then s.triggerState p w .first
  else s

/-- What a reading moves beside the throttles: a wing's restore row (R71), a channel's refresh rate (R166). -/
def State.applyReading (s : State) (x : Sensor) (v : BitVec 16) : State :=
  match x with
  | .wingDie p w => (s.wr (.wing p.val w.val) WNG_TEMP_temp v.toNat).setRestoreRow p.val w.val
  | .channel p ch => s.wrAll (.chan p.val ch.val) [(THX_HBM_TEMP_temp, v.toNat), (THX_HBM_STATE_refresh, flag (1360 < tempOf v))]
  | _ => s

/-- R421: a sensor that reaches the threshold starts a throttle of its part; one that is less than 2 °C below it keeps a throttle warm. -/
def State.throttleOn (s : State) (x : Sensor) (v : BitVec 16) : State :=
  let y := partSensor x
  if x = .spinneret then s
  else
    let s := if s.throttleTemp - 32 < tempOf v then
        s.modPower (fun z => { z with throttles := z.throttles.map (fun t => if t.sensor = y then { t with warm := true } else t) })
      else s
    if s.throttleTemp ≤ tempOf v ∧ s.power.throttles.all (fun t => decide (t.sensor ≠ y)) then
      ((s.modPower (fun z => { z with throttles := z.throttles ++ [{ sensor := y, steps := 0, cool := 0, warm := true }] })).bump
        .pwr 4).raise .pwr PWR_INT_throttle
    else s

/-- One reading of a die sensor. -/
def State.takeReading (s : State) (x : Sensor) (v : BitVec 16) : State := ((s.putReading x v).applyReading x v).throttleOn x v

/-- THERMAL_READING (R421): a sweep of the die sensors; protection runs from power-good on (R426). -/
def execThermalReading (readings : List (Sensor × BitVec 16)) (s : State) : Host.Outcome State Fault Refusal :=
  .next (if s.powered then readings.foldl (fun s e => s.takeReading e.1 e.2) s else s)

/-! The control interval (R419–R421) -/

/-- PWR_BUDGET: values above 4,200 act as 4,200, values below 1,500 as 1,500 (R432). -/
def State.budget (s : State) : Nat := max 1500 (min 4200 (s.rd .pwr PWR_BUDGET_watts))

/-- Whether a die has a partition in a storm. -/
def State.dieStorm (s : State) (t : Nat) : Bool := s.inStorm (2 * t) || s.inStorm (2 * t + 1)

/-- R420: whether one die is slowed before another: the highest clock first, a die with a storm last among equals, then the lower
number. -/
def State.slowsBefore (s : State) (a b : Nat) : Bool :=
  s.thoraxMHz b < s.thoraxMHz a ||
  (s.thoraxMHz a == s.thoraxMHz b && (!s.dieStorm a && s.dieStorm b || (s.dieStorm a == s.dieStorm b && decide (a < b))))

/-- R420: the next limiter step: a grant step while some analogue wing is above 128, else a clock step of a running die above 800 MHz. -/
def State.nextLimit (s : State) : Option LimStep :=
  if s.workingParts.any (fun p => 128 < s.effectiveGrant p) then some .grant
  else
    (((List.range 4).filter (fun t => s.rd .clk (thoraxFreq t) != 0 && decide (800 < s.thoraxMHz t))).foldl (fun (m : Option Nat) t =>
      match m with
      | some u => if s.slowsBefore t u then some t else m
      | none => some t) none).map LimStep.clock

/-- Undo one limiter step: clocks first, then grants (R420). -/
def undoStep (l : List LimStep) : List LimStep :=
  match l.reverse.find? (fun x => x != .grant) with
  | some c => (l.reverse.erase c).reverse
  | none => l.dropLast

/-- R420: the limiter at the end of an interval. -/
def State.limit (s : State) (watts : Nat) : State :=
  if s.budget < watts then
    let s := s.modPower (fun x => { x with under := 0 })
    match s.nextLimit with
    | some st =>
      let t := s.modPower (fun x => { x with steps := x.steps ++ [st] })
      if s.power.steps.isEmpty then (t.bump .pwr 5).raise .pwr PWR_INT_limiting else t
    | none => s
  else if watts + 100 < s.budget then
    let s := s.modPower (fun x => { x with under := x.under + 1 })
    if 8 ≤ s.power.under then s.modPower (fun x => { x with steps := undoStep x.steps }) else s
  else s.modPower (fun x => { x with under := 0 })

/-- Whether a reading of the part is less than 2 °C below the threshold. -/
def State.partWarm (s : State) (y : Sensor) : Bool :=
  s.power.last.any (fun e => decide (partSensor e.1 = y) && decide (s.throttleTemp - 32 < tempOf e.2))

/-- R421: the throttles at the end of an interval: each takes a step, and ends after 8 consecutive intervals 2 °C below the threshold. -/
def State.throttleEnd (s : State) : State :=
  s.modPower (fun x => { x with throttles := x.throttles.filterMap (fun t =>
    let cool := if t.warm then 0 else t.cool + 1
    if 8 ≤ cool then none else some { t with steps := t.steps + 1, cool := cool, warm := s.partWarm t.sensor }) })

/-- CONTROL_INTERVAL (R419–R421): an interval of 1,024 ticks ends with its average input power, in W, and the input voltage, in
10 mV. -/
def execControlInterval (watts : BitVec 16) (volts : BitVec 16) (s : State) : Host.Outcome State Fault Refusal :=
  .next (
    if s.alive then
      (((s.wrAll .pwr [(PWR_INPUT_watts, watts.toNat), (PWR_INPUT_volts, volts.toNat)]).limit watts.toNat).throttleEnd).applyPower
    else s)

/-! Trips (R422–R424) -/

/-- PWR_TRIP_CAUSE of a trip (R432): kind and instance. -/
def tripCode : TripCause → Nat × Nat
  | .thorax t => (1, t.val)
  | .wingStack p => (2, p.val)
  | .hbm p => (3, p.val)
  | .spinneret => (4, 0)
  | .overcurrent => (5, 0)
  | .undervoltage => (6, 0)
  | .overvoltage => (7, 0)
  | .sharedDomain n => (8, 92 + n.val)

/-- The partitions that a trip acts on, none for a module trip (R422). -/
def tripParts : TripCause → Option (List Nat)
  | .thorax t => some [2 * t.val, 2 * t.val + 1]
  | .wingStack p => some [p.val]
  | .hbm p => some [p.val]
  | _ => none

/-- Count a trip in the power page (R433). -/
def State.countTrip (s : State) (c : TripCause) : State :=
  match (tripCode c).1 with
  | 5 => s.bump .pwr 1
  | 6 | 7 => s.bump .pwr 2
  | 8 => s
  | _ => s.bump .pwr 0

/-- R422: record a trip. -/
def State.recordTrip (s : State) (c : TripCause) : State :=
  (s.wrAll .pwr [(PWR_TRIP_CAUSE_kind, (tripCode c).1), (PWR_TRIP_CAUSE_instance, (tripCode c).2), (PWR_TRIP_TICK_tick, s.now)]).raise
    .pwr PWR_INT_trip

/-- A scale whose wing die has lost power: levels and the disabled-cell latches of its data columns are gone; the partition keeps the
positions of the other disabled cells (R423). -/
def Scale.losePower (x : Scale) : Scale := { x with cells := [], disabled := x.disabled.filter (fun k => decide (256 ≤ k % 264)) }

/-- A wing domain is switched off. -/
def State.wingOff (s : State) (p w : Nat) : State :=
  let s := (s.wingScales p w).foldl (fun s e => s.modScale p w e.1 e.2 Scale.losePower) s
  let s := ((s.endCal p w).clearWing p w).setDomain (9 * p + w) false
  s.wrAll (.wing p w) [(WNG_STATE_power, 0), (WNG_STATE_cleared, 0), (WNG_STATE_calibrated, 0)]

/-- R423: the nine wing domains of a stack are switched off. -/
def State.stackOff (s : State) (p : Nat) : State := s.each (List.range 9) (fun s w => s.wingOff p w)

/-- R423: a partition is reset by a trip and its tripped part held off. -/
def State.holdPart (s : State) (c : TripCause) (p : Nat) : State :=
  if s.rd (.part p) MGT_PT_STATE_state = 3 then s
  else
    let s := s.beginPartReset p 3
    let s := s.modPart p (fun x => { x with heldParts := x.heldParts ++ [c] })
    match c with
    | .wingStack _ => s.stackOff p
    | .thorax t => s.wr .clk (thoraxFreq t.val) 0
    | _ => s

/-- R424: a module trip: every domain but 93 to 95 is switched off until the module restarts; a trip of one of those is followed by a
watchdog reset. -/
def State.moduleTrip (s : State) (c : TripCause) : State :=
  match c with
  | .sharedDomain 0 | .spinneret | .overcurrent | .undervoltage | .overvoltage =>
    let s := s.moduleDown.modPower (fun x => { x with tripped := some c })
    (s.wr .hif HIF_STATE_state 3).recordTrip c
  | _ => s.watchdog

/-- Whether a shared-domain trip has its cause: the domain is in power fault (R417). -/
def State.tripDue (s : State) (c : TripCause) : Bool :=
  match c with
  | .sharedDomain n => bit (s.rd .pwr (PWR_DOM_FAULT_domains 2)) (28 + n.val)
  | _ => true

/-- TRIP (R422): a trip is sampled, and acts on the partitions of its scope that it does not hold already (R25). While a module trip holds the
module, another trip only counts (R429). -/
def execTrip (c : TripCause) (s : State) : Host.Outcome State Fault Refusal :=
  .next (s.ranked (.trip c) (
    if !s.powered || !s.tripDue c then s
    else if s.power.tripped.isSome then s.countTrip c
    else match tripParts c with
      | some ps =>
        let free := ps.filter (fun p => !(s.part p).heldParts.contains c)
        if free.isEmpty then s else ((s.countTrip c).recordTrip c).each free (fun s p => s.holdPart c p)
      | none => (s.countTrip c).moduleTrip c))

/-- Whether every sensor of a tripped part reads 95.0 °C or less. -/
def State.partCool (s : State) (c : TripCause) : Bool :=
  let y : Option Sensor := match c with
    | .thorax t => some (.thorax t)
    | .wingStack p => some (.stack p)
    | .hbm p => some (.hbm p)
    | .spinneret => some .spinneret
    | _ => none
  s.power.last.all (fun e => decide (some (partSensor e.1) ≠ y) || decide (tempOf e.2 ≤ 1520))

/-- R423: set the disabled-cell latches of the data columns again, from the 0b1000 entries of the mirror. -/
def State.reapplyLatches (s : State) (p w b sc : Nat) : State :=
  let x := s.scale p w b sc
  let lw := s.rd (.wing p w) WNG_STATE_role
  if decide (lw < 8) && s.isSeated p lw b x.logical && x.serves x.logical then
    let found := (List.range 1024).flatMap (fun r =>
      (s.mirrorRow p lw b x.logical r).zipIdx.filterMap (fun e => if e.1 = 8 then some (r * 264 + x.serving e.2) else none))
    s.setScale p w b sc { x with disabled := found.foldl setIns x.disabled }
  else s

/-- R423: a wing takes its field repairs again and is powered. -/
def State.wingOn (s : State) (p w : Nat) : State :=
  ((s.wingScales p w).foldl (fun s e => s.reapplyLatches p w e.1 e.2) s).powerWing p w

/-- R423: a Wing stack restarts. -/
def State.stackOn (s : State) (p : Nat) : State := s.each (List.range 9) (fun s w => s.wingOn p w)

/-- PARTITION_TRIP_RESTART (R423): the tripped parts of a partition whose sensors read 95.0 °C or less restart. -/
def execPartitionTripRestart (p : PartId) (s : State) : Host.Outcome State Fault Refusal :=
  .next (
    let cool := (s.part p.val).heldParts.filter s.partCool
    let s := s.modPart p.val (fun x => { x with heldParts := x.heldParts.filter (fun c => !cool.contains c) })
    cool.foldl (fun s c =>
      match c with
      | .wingStack _ => s.stackOn p.val
      | .thorax t => s.startClock t.val
      | _ => s) s)

/-- MODULE_TRIP_RESTART (R424): the trip condition has been absent for 1 s. -/
def execModuleTripRestart (s : State) : Host.Outcome State Fault Refusal :=
  .next (match s.power.tripped with
    | some c => if s.partCool c then s.restartModule else s
    | none => s)

/-! Domains (R417, R418) -/

/-- R417: what a power fault of a domain brings about; that of a shared domain is a trip, which follows as an event of its own. -/
def State.domainFault (s : State) (n : Nat) : State :=
  if n < 72 then s.wingFault (n / 9) (n % 9)
  else if n < 88 then s.failPart ((n - 72) % 8) 4
  else if n < 92 then
    let s := s.setBit .pwr PWR_STATUS_fab_on (n - 88) false
    (s.portDown (2 * (n - 88)) 3).portDown (2 * (n - 88) + 1) 3
  else s

/-- DOMAIN_POWER_FAULT (R417): a rail has left its set point; the domain is switched off until the next module reset. -/
def execDomainPowerFault (n : Fin 96) (s : State) : Host.Outcome State Fault Refusal :=
  .next (
    if s.alive && s.domainOn n.val then
      let s := (s.setDomain n.val false).setBit .pwr (PWR_DOM_FAULT_domains (n.val / 32)) (n.val % 32) true
      ((s.bump .pwr 3).raise .pwr PWR_INT_dom_fault).domainFault n.val
    else s)

/-- Switch a fabric pair off: its two ports lose what they hold, but a retired lane stays retired (R39). -/
def State.pairDown (s : State) (x : Nat) : State :=
  let s := (s.setDomain (88 + x) false).setBit .pwr PWR_STATUS_fab_on x false
  s.each [2 * x, 2 * x + 1] (fun s i =>
    let kept := [FAB_PORT_TX_RETIRED_lanes, FAB_PORT_RX_RETIRED_lanes, FAB_PORT_STATE_spares_left].map (fun f => (f, s.rd (.port i) f))
    ((s.setPort i Port.reset).dropRegs (fun pg off => decide (pg = .port i) && decide (0x100 ≤ off))).wrAll (.port i) kept)

/-- R418: the power manager takes one bit of PWR_FAB_OFF: it switches a pair off while both its ports are disabled, and else ignores the
bit; clearing it powers the pair again. -/
def State.writePair (s : State) (x : Nat) (off : Bool) : State :=
  if off then
    if bit (s.rd .pwr PWR_FAB_OFF_off) x || s.on (.port (2 * x)) FAB_PORT_CTL_enable || s.on (.port (2 * x + 1)) FAB_PORT_CTL_enable then s
    else (s.setBit .pwr PWR_FAB_OFF_off x true).pairDown x
  else if bit (s.rd .pwr PWR_FAB_OFF_off) x then
    let s := (s.setBit .pwr PWR_FAB_OFF_off x false).setDomain (88 + x) true
    if s.domainOn (88 + x) then s.setBit .pwr PWR_STATUS_fab_on x true else s
  else s

/-- A write of PWR_FAB_OFF (R418). -/
def State.writePairs (s : State) (pairs : Nat) : State := s.each (List.range 4) (fun s x => s.writePair x (bit pairs x))

/-- FABRIC_PAIR_OFF (R418). -/
def execFabricPairOff (pairs : BitVec 4) (s : State) : Host.Outcome State Fault Refusal :=
  .next (if s.alive then s.writePairs pairs.toNat else s)

/-! Oscillators, PLLs and the reference (R410–R413) -/

/-- The stability bit of an oscillator or PLL (R430): register field and bit. -/
def pllBit : Pll → Field × Nat
  | .reference => (CLK_REF_STATUS_ref_stable, 0)
  | .management => (CLK_PLL_STABLE_management, 0)
  | .measurement => (CLK_PLL_STABLE_measurement, 0)
  | .pcie => (CLK_PLL_STABLE_pcie, 0)
  | .thorax t => (CLK_PLL_STABLE_thorax, t.val)
  | .wing p => (CLK_PLL_STABLE_wing, p.val)
  | .hbm p => (CLK_PLL_STABLE_hbm, p.val)
  | .serdes i => (CLK_PLL_STABLE_serdes, i.val)

/-- Whether a PLL is stable. -/
def State.pllStable (s : State) (x : Pll) : Bool := bit (s.rd .clk (pllBit x).1) (pllBit x).2

/-- The PLL that clocks a block (R408). -/
def blockPll : Block → Pll
  | .cluster p _ | .update p | .rotation p | .sequencer p | .tileMover p _ => .thorax ⟨p.val / 2, by omega⟩
  | .wing p _ => .wing p
  | .channel p _ => .hbm p
  | .port i => .serdes i
  | .hostDma => .pcie

/-- R412: the blocks that a PLL clocks leave reset, and a port trains. -/
def State.unstop (s : State) (x : Pll) : State :=
  let s := { s with engineResets := s.engineResets.filter (fun b => decide (blockPll b ≠ x)) }
  match x with
  | .serdes i => s.startTraining i.val
  | _ => s

/-- PLL_STABLE (R412): a stability counter has reached 65,536, and the blocks that it clocks are released. -/
def execPllStable (x : Pll) (s : State) : Host.Outcome State Fault Refusal :=
  .next (
    if s.powered && !s.pllStable x then
      let s := (s.setBit .clk (pllBit x).1 (pllBit x).2 true).unstop x
      match x with
      | .thorax t =>
        if (s.part (2 * t.val)).heldParts.contains (.thorax t) || (s.part (2 * t.val + 1)).heldParts.contains (.thorax t) then s
        else s.startClock t.val
      | .measurement => s.startConverters
      | _ => s
    else s)

/-- The blocks of a partition that its Thorax die clocks. -/
def thoraxBlocks (p : PartId) : List Block :=
  (List.finRange 26).map (fun c => .cluster p c) ++ [.rotation p, .update p, .sequencer p]

/-- The blocks that a PLL clocks and that an engine reset clears (R412, R332). -/
def clockedBlocks : Pll → List Block
  | .thorax t => thoraxBlocks ⟨2 * t.val, by omega⟩ ++ thoraxBlocks ⟨2 * t.val + 1, by omega⟩
  | .wing p => (List.finRange 9).map (fun w => .wing p w)
  | .hbm p => (List.finRange 32).map (fun ch => .channel p ch)
  | .serdes i => [.port i]
  | .pcie => [.hostDma]
  | _ => []

/-- Whether a block is in service: its partition runs, or its port is in training or up. -/
def State.blockRuns (s : State) (b : Block) : Bool :=
  match b with
  | .port i => s.rd (.port i.val) FAB_PORT_STATE_link == 1 || s.rd (.port i.val) FAB_PORT_STATE_link == 2
  | _ => match blockPart? b with
    | some p => s.running p
    | none => s.alive

/-- R412: a block stops with its clock, which counts as an engine reset. -/
def State.stopBlock (s : State) (b : Block) : State :=
  let s := s.engineReset b
  if s.engineResets.contains b then s else { s with engineResets := s.engineResets ++ [b] }

/-- PLL_UNLOCK (R412): a stable PLL loses lock: it stops the blocks that it clocks until it is stable again. -/
def execPllUnlock (x : Pll) (s : State) : Host.Outcome State Fault Refusal :=
  .next (
    if s.powered && s.pllStable x then
      let s := s.setBit .clk (pllBit x).1 (pllBit x).2 false
      let s := (s.bump .clk 1).raise .clk CLK_INT_pll_unlock
      let s := ((clockedBlocks x).filter s.blockRuns).foldl (fun s b => s.stopBlock b) s
      match x with
      | .thorax t => s.wr .clk (thoraxFreq t.val) 0
      | .measurement => s.stopConverters
      | _ => s
    else s)

/-- CLK_REF_STATUS of a source (R430): source and port. -/
def refCode : RefSource → Nat × Nat
  | .crystal => (0, 0xF)
  | .refclk => (1, 0xF)
  | .port i => (2, i.val)
  | .holdover => (3, 0xF)

/-- R410: the source of the module reference: the crystal before the first alignment; then REFCLK_IN at a timing root that may use it, the
parent's port, or holdover. -/
def State.refChoice (s : State) (refclkValid : Bool) : Nat × Nat :=
  if s.on .fabG FAB_G_TIME_CTL_root then if s.on .clk CLK_REF_CTL_use_refclk && refclkValid then (1, 0xF) else (0, 0xF)
  else if s.rd .fabG FAB_G_TIME_STATUS_state = 0 then (0, 0xF)
  else if s.rd .fabG FAB_G_TIME_STATUS_parent < 8 then (2, s.rd .fabG FAB_G_TIME_STATUS_parent)
  else (3, 0xF)

/-- REFERENCE_SOURCE_CHANGE (R410, R411): the module reference moves to the source that R410 selects; `lost` says that the source in use was
lost. A source that R410 does not select is not taken. -/
def execReferenceSourceChange (src : RefSource) (lost : Bool) (refclkValid : Bool) (s : State) : Host.Outcome State Fault Refusal :=
  .next (
    if s.powered && s.refChoice refclkValid != refCode src then s.wr .clk CLK_REF_STATUS_refclk_valid (flag refclkValid)
    else if s.powered then
      let changed := s.rd .clk CLK_REF_STATUS_source != (refCode src).1 || s.rd .clk CLK_REF_STATUS_port != (refCode src).2
      let s := s.wrAll .clk [(CLK_REF_STATUS_source, (refCode src).1), (CLK_REF_STATUS_port, (refCode src).2),
        (CLK_REF_STATUS_refclk_valid, flag refclkValid)]
      let s := if lost then (s.bump .clk 0).raise .clk CLK_INT_ref_lost else s
      if changed then (s.bump .clk 2).raise .clk CLK_INT_ref_switched else s
    else s)

/-- The modulation that CLK_SSC asks for, with its clamps (R430), laid out as the register; the Thorax setting in effect stays while a
Thorax PLL is not stable (R429). -/
def State.sscAsked (s : State) : Nat :=
  let thx := if s.rd .clk CLK_PLL_STABLE_thorax = 0xF then
      min 8 (s.rd .clk CLK_SSC_thx_depth) + 2 ^ 8 * min 10 (s.rd .clk CLK_SSC_thx_rate)
    else s.power.ssc % 2 ^ 16
  thx + 2 ^ 16 * min 8 (s.rd .clk CLK_SSC_out_depth) + 2 ^ 24 * min 10 (s.rd .clk CLK_SSC_out_rate)

/-- SSC_APPLY (R413): depth and rate take effect at the next low point of the modulation. -/
def execSscApply (s : State) : Host.Outcome State Fault Refusal :=
  .next (if s.powered then s.modPower (fun x => { x with ssc := s.sscAsked }) else s)

end Sys2Proof.Machine
end

