-- ==== Sys2Proof/Machine/Recovery.lean ====
section
/-! DEFINITION. The reset ladder (R330–R335), the loss of an HBM4 channel (R32) and management actions (R27). -/
namespace Sys2Proof.Machine

/-! Hang detection (R330) -/

/-- The page in which a block's PROGRESS word lies (R329). -/
def blockPage : Block → Page
  | .cluster p c | .tileMover p c => .cluster p.val c.val
  | .update p => .upd p.val
  | .rotation p => .lad p.val
  | .wing p w => .wing p.val w.val
  | .sequencer p => .thx p.val
  | .channel p ch => .chan p.val ch.val
  | .port i => .port i.val
  | .hostDma => .hif

/-- Whether a key is that of a PROGRESS word: it stands at one place in every page (R484). -/
def isProgress (k : Nat) : Bool := k % 0x8000 == 8 * 0x28

/-- R330: at a tick edge the domain controllers sample the PROGRESS words: each that counts, or has counted, is held with the edge at which it
last changed. -/
def State.sampleProgress (s : State) : State :=
  let cur := s.regs.filter (fun e => isProgress e.1)
  let seen := cur.map (fun e => match mapFind s.moved e.1 with
    | some (v, t) => (e.1, e.2, if v = e.2 then t else s.now)
    | none => (e.1, e.2, s.now))
  let gone := (s.moved.filter (fun e => cur.all (fun c => c.1 != e.1))).map (fun e => (e.1, 0, if e.2.1 = 0 then e.2.2 else s.now))
  { s with moved := seen ++ gone }

/-- The hang window of a block (R330, R360): values below 977 act as 977, and the shared blocks have a fixed one. -/
def State.hangWindow (s : State) (b : Block) : Nat :=
  match blockPart? b with
  | some p => max 977 (s.rd (.hch p) HCH_HANG_WIN_window)
  | none => 48828

/-- R330: whether a block's PROGRESS word has not changed for the window. -/
def State.stood (s : State) (b : Block) : Bool :=
  let v := s.rd (blockPage b) HDR_PROGRESS
  match mapFind s.moved (regKey (blockPage b) HDR_PROGRESS) with
  | some (u, t) => u == v && decide (t + s.hangWindow b ≤ s.now)
  | none => v == 0 && decide (s.hangWindow b ≤ s.now)

/-- Whether a request of a tile mover is served by an HBM4 channel of a partition. -/
def MoverReq.onChannel (r : MoverReq) (p ch : Nat) : Bool :=
  [r.device, r.device + r.bytes - 1].any (fun a => ownerOf a == some p && channelOf a == ch)

/-- R330: whether a block holds work that it has accepted. The host DMA holds none: its transfers are single commands. -/
def State.holdsWork (s : State) : Block → Bool
  | .cluster p c =>
    let x := s.cluster p.val c.val
    !x.threads.isEmpty || !x.mover.isEmpty || !x.mmaQ.isEmpty || !x.vecQ.isEmpty
  | .tileMover p c => !(s.cluster p.val c.val).mover.isEmpty
  | .update p => (s.part p.val).pass.isSome
  | .rotation p => (s.part p.val).products.any (fun d =>
      decide (((s.part p.val).rot.filter (fun b => b.product == d.id)).length < d.tokens * (d.kp / 256)))
  | .wing p w =>
    let x := s.wing p.val w.val
    !x.waiting.isEmpty || !x.running.isEmpty || !x.tiles.isEmpty
  | .sequencer p => !(s.part p.val).seq.inflight.isEmpty || (s.part p.val).seq.current.isSome
  | .channel p ch => s.clusters.any (fun e => e.2.mover.any (fun r => r.onChannel p.val ch.val))
  | .port i =>
    let x := s.port i.val
    s.rd (.port i.val) FAB_PORT_STATE_link == 2 && (!x.txQ.isEmpty || !x.replay.isEmpty || !x.ctrl.isEmpty)
  | .hostDma => false

/-- R330: whether a command in flight waits on another module, a ring index or the host. -/
def Inflight.external (x : Inflight) : Bool :=
  x.op == 7 ||
  match x.work with
  | .flagRound | .commit | .resume | .push | .remote | .ringIn _ _ _ _ _ | .ringOut _ _ _ _ _ => true
  | _ => false

/-- R330: whether the next command of a partition waits on a fence that such a command signals. -/
def State.fenceExternal (s : State) (p : Nat) : Bool :=
  match (s.part p).seq.current with
  | none => false
  | some l =>
    let c := readCmd (s.bytes (l.stream + 64 * l.issued) 64)
    c.waitEn && (s.peers p).any (fun q => (s.part q).seq.inflight.any (fun x => x.external && x.sig == some (p, c.waitFence.val)))

/-- R330: whether some of a block's work waits on an external event. -/
def State.waitsExternal (s : State) : Block → Bool
  | .sequencer p => (s.part p.val).seq.inflight.any Inflight.external || s.fenceExternal p.val
  | .update p => !s.on (.upd p.val) UPD_NF_resolved && (s.part p.val).pass.any (fun u => !u.classified)
  | .port i => (s.port i.val).txQ.any (fun g => (s.port i.val).credits.getD g.slot.vc.val 0 == 0)
  | _ => false

/-- R330: whether a block hangs: detection is enabled and watches it, it holds work of which none waits on an external event, and its PROGRESS
word has stood still. -/
def State.hangs (s : State) (b : Block) : Bool :=
  s.blockRuns b && !s.engineResets.contains b && s.holdsWork b && !s.waitsExternal b && s.stood b &&
  match blockPart? b with
  | some p => s.on (.hch p) HCH_CTL_hang_en
  | none => true

/-- R330: a partition records a hang. -/
def State.recordHang (s : State) (b : Block) : State :=
  match blockPart? b with
  | some p => ((s.wr (.hch p) HCH_HANG_TICK_value s.now).bump (.hch p) 0).raise (.hch p) HCH_INT_hang
  | none => s

/-- HANG_TIMEOUT (R330, R331): a block's PROGRESS has not changed for the hang window; its engine reset begins. -/
def execHangTimeout (b : Block) (s : State) : Host.Outcome State Fault Refusal :=
  .next (s.ranked (.hangTimeout b) (
    if s.hangs b then
      let t := (s.recordHang b).engineReset b
      { t with engineResets := t.engineResets ++ [b] }
    else s))

/-- An engine reset is no longer under way. -/
def State.endEngineReset (s : State) (b : Block) : State :=
  { s with engineResets := s.engineResets.filter (fun x => decide (x ≠ b)) }

/-- ENGINE_RESET_COMPLETE (R331): the block returns to service with the state that the reset kept, once its clock is stable (R412); a port
retrains (R332). -/
def execEngineResetComplete (b : Block) (s : State) : Host.Outcome State Fault Refusal :=
  .next (
    if s.engineResets.contains b && s.pllStable (blockPll b) then
      match b with
      | .port i => (s.endEngineReset b).startTraining i.val
      | _ => s.endEngineReset b
    else s)

/-- R331: an engine reset escalates to a partition reset, that of a shared block to a module reset. -/
def State.escalateReset (s : State) (b : Block) : State :=
  match blockPart? b with
  | some p => ((s.beginPartReset p 2).bump (.hch p) 2).raise (.hch p) HCH_INT_escalated
  | none => s.moduleReset

/-- ENGINE_RESET_TIMEOUT (R331): an engine reset has not completed within 2 ms. A block whose clock has stopped it waits for the clock
(R412). -/
def execEngineResetTimeout (b : Block) (s : State) : Host.Outcome State Fault Refusal :=
  .next (if s.engineResets.contains b && s.pllStable (blockPll b) then (s.endEngineReset b).escalateReset b else s)

/-- A write of 1 to HCH_RESET_REQ.partition (R331); the bit clears as the reset begins. -/
def State.requestPartReset (s : State) (p : Nat) : State := if s.running p then s.beginPartReset p 4 else s

/-- PARTITION_RESET_REQUEST (R331). -/
def execPartitionResetRequest (p : PartId) (s : State) : Host.Outcome State Fault Refusal := .next (s.requestPartReset p.val)

/-- R412: whether the clocks of a partition's blocks are stable. Its wings count once Instar 2 powers them. -/
def State.partClocked (s : State) (p : PartId) : Bool :=
  s.pllStable (.thorax ⟨p.val / 2, by omega⟩) && s.pllStable (.hbm p) &&
  (s.pllStable (.wing p) || (List.range 9).all (fun w => s.rd (.wing p.val w) WNG_STATE_power != 2))

/-- PARTITION_RESET_DONE (R331, R492): the reset completes within its bound; a partition that a trip holds waits (R423), and no block leaves
reset before its clock is stable (R412). -/
def execPartitionResetDone (p : PartId) (s : State) : Host.Outcome State Fault Refusal :=
  .next (
    if s.resetting.contains p.val && (s.part p.val).heldParts.isEmpty && s.partClocked p then
      let st := if 1 ≤ s.rd .pwr PWR_INSTAR_instar then 2 else 1
      let t := { s with resetting := setDel s.resetting p.val }
      let t := (t.wr (.part p.val) MGT_PT_STATE_state st).wr .pwr (PWR_P_STATE_state p.val) st
      t.raise (.part p.val) PT_INT_reset_done
    else s)

/-- PARTITION_RESET_TIMEOUT (R331): a partition reset has not completed within 20 ms. -/
def execPartitionResetTimeout (p : PartId) (s : State) : Host.Outcome State Fault Refusal :=
  .next (if s.resetting.contains p.val && (s.part p.val).heldParts.isEmpty then s.moduleReset else s)

/-- HBM_CHANNEL_FAILURE (R32, R166): a channel fails training or fails later, and its partition fails. -/
def execHbmChannelFailure (p : PartId) (ch : ChannelId) (s : State) : Host.Outcome State Fault Refusal :=
  .next (
    if s.rd (.part p.val) MGT_PT_STATE_state = 3 then s
    else (s.failPart p.val 3).wr (.chan p.val ch.val) THX_HBM_STATE_failed 1)

/-! Management actions (R27, R28) -/

/-- R27: apply a management action to a block of a partition. A gain holds from the scale's next operation (R28, log entry 76). -/
def State.manage (s : State) (p : Nat) : MgmtAction → State
  | .grant w g =>
    let v := if s.rd (.wing p w.val) WNG_STATE_role < 8 then clampGrant g.toNat else 0
    s.wr (.wing p w.val) WNG_TOKENS_grant v
  | .gain w b sc g => s.modScale p w.val b.val sc.val (fun x => { x with gain := g.val, managed := true })
  | .wingPower w on =>
    if on then (if s.rd (.wing p w.val) WNG_STATE_power = 0 then s.wingOn p w.val else s)
    else if s.rd (.wing p w.val) WNG_STATE_power = 0 then s else s.wingOff p w.val

/-- R27: whether the block of an action stands at an operation boundary: no operation of a wing runs, or of a scale; for a grant, an operation
of its wing has just ended. -/
def State.atBoundary (s : State) (p : Nat) (ended : Option Nat) : MgmtAction → Bool
  | .grant w _ => (s.wing p w.val).running.isEmpty || ended == some w.val
  | .gain w b sc _ => !(s.wing p w.val).operates b.val sc.val
  | .wingPower w _ => (s.wing p w.val).running.isEmpty

/-- R27: the domain controller applies the oldest action that waits, where its block stands at a boundary. -/
def State.applyNext (s : State) (p : Nat) (ended : Option Nat) : State :=
  match (s.part p).actions with
  | [] => s
  | a :: rest =>
    if s.atBoundary p ended a then
      ((s.modPart p (fun x => { x with actions := rest })).manage p a).progress (.part p)
    else s

/-- R27: the domain controller applies the actions that need no longer wait, in the order in which it received them. -/
def State.applyActions (s : State) (p : Nat) (ended : Option Nat) : State := s.each (List.range (s.part p).actions.length) (fun s _ => s.applyNext p ended)

/-- MANAGEMENT_ACTION (R27, R492): it takes effect at the block's operation boundary, after the actions received before it, and counts in the
partition page's PROGRESS. -/
def execManagementAction (p : PartId) (a : MgmtAction) (s : State) : Host.Outcome State Fault Refusal :=
  .next (
    if s.alive && s.rd (.part p.val) MGT_PT_STATE_state != 3 then
      (s.modPart p.val (fun x => { x with actions := x.actions ++ [a] })).applyActions p.val none
    else s)

/-- SCALE_OPERATION_END (R51, R62): an operation of a logical wing ends, and the wing stands at a boundary (R27). -/
def execScaleOperationEnd (p : PartId) (w : Fin 8) (id : Nat) (s : State) : Host.Outcome State Fault Refusal :=
  .next (s.ranked (.scaleOperationEnd p w id) (match s.physWing? p.val w.val with
    | none => s
    | some pw => (s.endOperation p.val w.val pw id).applyActions p.val (some pw)))

end Sys2Proof.Machine
end

