-- ==== Sys2Proof/Machine/Safety.lean ====
section
/-! DEFINITION. Poison consumption (R369), mirror rebuild (R372), scrubbing (R366), pattern sweeps (R375, R376), counters (R377) and
Cocoon records (R353–R355). -/
namespace Sys2Proof.Machine

/-! Poison (R369, R372) -/

/-- THX_POISON_STATUS.point of a point of consumption (R383). -/
def pointCode : PoisonPoint → Nat
  | .command => 1
  | .gradient => 2
  | .updateEngine => 3
  | .reseat => 4
  | .encryption => 5
  | .decryption => 6
  | .fence => 7

/-- POISON_CONSUMED (R369): the consumption is sampled, and the consuming context is terminated. -/
def execPoisonConsumed (p : PartId) (point : PoisonPoint) (s : State) : Host.Outcome State Fault Refusal :=
  .next (s.ranked (.poisonConsumed p point) (s.terminate p.val (pointCode point)))

/-- A granule of the level mirror or of a side record: logical scale, and byte offset in its mirror or record. -/
structure MirrorGranule where
  side : Bool
  lw   : Nat
  bank : Nat
  ls   : Nat
  off  : Nat
  deriving DecidableEq, Repr

/-- The mirror or side-record granule at a granule's address, if it lies there (R139, R140). -/
def State.mirrorGranule? (s : State) (p a : Nat) : Option MirrorGranule :=
  let m := s.mirrorAt p 0 0 0
  let r := s.sideAt p 0 0 0
  if m ≤ a ∧ a < m + 131072 * 131072 then
    let n := (a - m) / 131072
    some { side := false, lw := n / 16384, bank := n / 512 % 32, ls := n % 512, off := (a - m) % 131072 }
  else if r ≤ a ∧ a < r + 131072 * 2048 then
    let n := (a - r) / 2048
    some { side := true, lw := n / 16384, bank := n / 512 % 32, ls := n % 512, off := (a - r) % 2048 }
  else none

/-- The bytes of a granule rebuilt from the scale (R372): mirror levels and checksum nibbles from a sense of their rows, f, ρ and epoch
from the periphery's copies; what neither holds stays as it was read. -/
def State.rebuilt (s : State) (a : Nat) (g : MirrorGranule) (x : Scale) : List Byte :=
  if !g.side then
    let r := g.off / 128
    packNibbles ((List.range 64).map (fun i => x.cell r (x.serving (g.off % 128 * 2 + i))))
  else if g.off < 0x200 then packNibbles ((List.range 64).map (fun i => x.cell (g.off * 2 + i) (x.serving 256)))
  else if g.off < 0x400 then
    (List.range 16).flatMap (fun i => leBytes 2 (mapGet 0 x.f ((g.off - 0x200) / 2 + i)).toNat)
  else if g.off = 0x400 then leBytes 2 x.rho.toNat ++ s.bytes (a + 2) 6 ++ leBytes 8 x.epoch ++ s.bytes (a + 16) 16
  else s.bytes a 32

/-- MIRROR_REBUILD (R372): a read has found a poisoned granule of the level mirror or of a side record; it is written whole from the scale.
It waits while a seating or a load of the scale is under way. -/
def execMirrorRebuild (p : PartId) (granule : W64) (s : State) : Host.Outcome State Fault Refusal :=
  let a := granule.toNat / 32 * 32
  .next (
    if !s.poisonedIn a 32 then s
    else match s.mirrorGranule? p.val a with
      | none => s
      | some g =>
        if (s.part p.val).seats.any (fun t => t.lw == g.lw && t.bank == g.bank && t.ls == g.ls && !t.stuck) then s
        else match s.physWing? p.val g.lw with
          | none => s
          | some pw => match s.physScale? p.val pw g.bank g.ls with
            | none => s
            | some ps =>
              let t := s.put a (s.rebuilt a g (s.scale p.val pw g.bank ps))
              s.guarded p.val [(a, 32)] ((t.bump (.saf p.val) (if g.side then 7 else 6)).raise (.saf p.val) SAF_INT_mirror_rebuilt))

/-! Scrubbing (R365, R366) -/

/-- SCRUB (R366): a channel has read its contents once; `found` lists the granules whose codewords had symbol errors. Granules of other
channels are not its own. -/
def execScrub (p : PartId) (ch : ChannelId) (found : List (W64 × List Upset)) (s : State) : Host.Outcome State Fault Refusal :=
  .next (
    if s.resetting.contains p.val then s
    else found.foldl (fun s e =>
      let a := e.1.toNat
      if a / hbmSize = p.val ∧ channelOf a = ch.val then s.readGranule (some (.chan p.val ch.val)) (a / 32) (upsetError e.2) else s) s)

/-! Pattern sweeps (R375, R376) -/

/-- Whether a cluster is swept: active or a free spare (R375). -/
def State.swept (s : State) (p c : Nat) : Bool :=
  s.rd (.cluster p c) THX_STATE_role < 24 || s.rd (.cluster p c) THX_STATE_role == 0x1F

/-- The tick of a unit's last passing sweep. -/
def State.sweepTickOf (s : State) (p : Nat) : SweepUnit → Nat
  | .cluster c => (s.cluster p c.val).sweepTick
  | .rotation => (s.part p).rotTick
  | .update => (s.part p).updTick

/-- Set the tick of a unit's last passing sweep. -/
def State.setSweepTick (s : State) (p : Nat) : SweepUnit → State
  | .cluster c => s.modCluster p c.val (fun x => { x with sweepTick := s.now })
  | .rotation => s.modPart p (fun x => { x with rotTick := s.now })
  | .update => s.modPart p (fun x => { x with updTick := s.now })

/-- The earliest of the last passing sweep ticks of a partition's units (R383). -/
def State.earliestSweep (s : State) (p : Nat) : Nat :=
  (((List.range 26).filter (s.swept p)).map (fun c => (s.cluster p c).sweepTick)).foldl min (min (s.part p).rotTick (s.part p).updTick)

/-- R375, R172: a spare cluster that fails its sweep is retired in the field. -/
def State.retireSpare (s : State) (p c : Nat) : State :=
  let s := (s.wr (.cluster p c) THX_STATE_role 0x1E).wr (.cluster p c) THX_STATE_state 3
  let s := s.wrAll (.thx p) [(THX_P_CLUSTERS_spares_left, s.rd (.thx p) THX_P_CLUSTERS_spares_left - 1),
    (THX_P_CLUSTERS_retired, s.rd (.thx p) THX_P_CLUSTERS_retired + 1)]
  let s := (s.bump (.thx p) 3).interruptPart p (fun ty i => ty == 0 && i == c)
  (s.raise (.cluster p c) CLU_INT_retired).raise (.thx p) THX_INT_cluster_retired

/-- R375: what becomes of a unit that fails its sweep. -/
def State.sweepFails (s : State) (p : Nat) : SweepUnit → State
  | .cluster c =>
    let role := s.rd (.cluster p c.val) THX_STATE_role
    if role < 24 then s.beginRetire p role else s.retireSpare p c.val
  | _ => s.failPart p 5

/-- Whether a unit is in service for a sweep. -/
def State.sweepable (s : State) (p : Nat) (u : SweepUnit) : Bool :=
  s.rd (.part p) MGT_PT_STATE_state != 3 && !s.resetting.contains p &&
  match u with
  | .cluster c => s.swept p c.val
  | _ => true

/-- PATTERN_SWEEP (R375, R376): a unit has run the built-in pattern set. A failure marks the tick of the unit's last passing sweep and emits
a token. -/
def execPatternSweep (p : PartId) (u : SweepUnit) (passed : Bool) (s : State) : Host.Outcome State Fault Refusal :=
  .next (
    if !s.sweepable p.val u then s
    else if passed then
      let s := (s.setSweepTick p.val u).bump (.saf p.val) 4
      s.wr (.saf p.val) THX_SWEEP_TICK_tick (s.earliestSweep p.val)
    else
      let s := s.wr (.saf p.val) THX_SUSPECT_tick (s.sweepTickOf p.val u)
      (((s.bump (.saf p.val) 5).raise (.saf p.val) SAF_INT_sweep_failed).emitFor p.val).sweepFails p.val u)

/-! Counters (R377) -/

/-- The counter at a BAR0 offset, if one lies there: an ERRCNT entry, or another field of its format. -/
def counterAt (off : Nat) : Option (Page × Field) :=
  match Page.at? off with
  | none => none
  | some pg =>
    let o := off - pg.base
    if 0x40 ≤ o ∧ o < 0x100 then (if o % 4 = 0 then some (pg, HDR_ERRCNT ((o - 0x40) / 4)) else none)
    else (pg.ownFields.find? (fun f => f.off == o && f.acc == .cnt)).map (fun f => (pg, f))

/-- ERRCNT_CLEAR (R377): a write to a counter whose saturation bit reads 1 clears it. -/
def execErrcntClear (off : BitVec 28) (s : State) : Host.Outcome State Fault Refusal :=
  .next (match counterAt off.toNat with
    | some e => s.clearCount e.1 e.2
    | none => s)

/-! Keys and nonces of records (R450, R453) -/

/-- An installed key slot. -/
def State.slot? (s : State) (n : Nat) : Option KeySlot := mapFind s.security.slots n

/-- The lowest slot that holds a key of a usage for a partition's context (R450). -/
def State.slotFor (s : State) (p usage : Nat) : Option (Nat × KeySlot) :=
  match s.ctx? p with
  | some c => s.security.slots.find? (fun e => e.2.usage == usage && e.2.ctx == c)
  | none => none

/-- A nonce of R453: serial, kind (1 embedding, 2 record) and counter. -/
def nonceBytes (kind ctr : Nat) : List Byte := leBytes 5 ctr ++ leBytes 1 kind ++ leBytes 6 Config.serial

/-- The installs into a slot since module reset (R461). -/
def State.slotEpoch (s : State) (n : Nat) : Nat := mapGet 0 s.security.epochs n

/-! Cocoon records (R353–R355) -/

/-- Bytes 0x00–0x27 of a record (R353). -/
def recordHead (job : Nat) (x : Staged) (len : Nat) : List Byte :=
  leBytes 8 (job % 2 ^ 16) ++ leBytes 8 x.step ++
  leBytes 8 (x.k % 2 ^ 24 + 2 ^ 24 * (x.layer % 2 ^ 12) + 2 ^ 36 * flag x.bf16W + 2 ^ 37 * flag x.bf16M + 2 ^ 38 * (x.moments % 4)) ++
  leBytes 8 len ++ leBytes 8 x.digest

/-- Pad to whole 4 KiB. -/
def pad4k (l : List Byte) : List Byte := l ++ List.replicate ((4096 - l.length % 4096) % 4096) 0

/-- A record of a staged chunk under a slot's key and a nonce (R353, R453): bytes 0x00–0x37 are the associated data. -/
def State.record (s : State) (x : Staged) (n : Nat) (k : KeySlot) (ctr : Nat) : List Byte :=
  let nonce := nonceBytes 2 ctr
  let aad := recordHead (s.rd .fabG FAB_G_JOB_id) x x.bytes ++ nonce ++ leBytes 4 (n + 256 * (s.slotEpoch n % 2 ^ 24))
  let c := Config.gcmSeal k.key nonce aad (s.bytes x.addr x.bytes)
  pad4k (aad ++ slice c.2 0 16 ++ List.replicate 56 0 ++ slice c.1 0 x.bytes)

/-- Take the first staged chunk off the drain; the checkpoint is verified with the last one (R355). -/
def State.unstage (s : State) (p : Nat) : State :=
  let s := s.modPart p (fun x => { x with staged := x.staged.drop 1 })
  let n := (s.part p).staged.length
  (s.wrAll (.hch p) [(HCH_CKPT_STATUS_pending, n), (HCH_CKPT_STATUS_draining, flag (n != 0))]).verifyCheckpoint p

/-- R354: where a record goes: to host memory while the PCIe link is up, or to a remote module while the port of its first hop is. -/
def State.sendRecord (s : State) (p dst : Nat) (l : List Byte) : Option State :=
  if s.on (.hch p) HCH_CKPT_CTL_peer then
    match remoteTarget dst with
    | some (coord, addr) =>
      match s.firstHop coord with
      | some h =>
        if s.rd (.port (hopPort h)) FAB_PORT_STATE_link = 2 then
          some (s.sendRemote p cocoonCmd coord addr l [])
        else none
      | none => some (s.sendRemote p cocoonCmd coord addr l [])
    | none => none
  else if !s.linkUp then none
  else some (s.setHostBytes dst l)

/-- COCOON_RECORD_WRITE (R354): the next staged chunk is encrypted and written as a record. A poisoned one is not written, and the
checkpoint is not verified (R369). Without a checkpoint slot, a nonce or a way out, Cocoon waits. -/
def execCocoonRecordWrite (p : PartId) (s : State) : Host.Outcome State Fault Refusal :=
  .next (match (s.part p.val).staged, (s.part p.val).ckpt with
    | x :: _, some (_, dst) =>
      if s.poisonedIn x.addr x.bytes then (s.wr (.hch p.val) HCH_CKPT_STATUS_verify_failed 1).unstage p.val
      else match s.slotFor p.val 1, s.takeNonce with
        | some (n, k), some (ctr, t) =>
          let l := t.record x n k ctr
          match t.sendRecord p.val (dst + (s.part p.val).written) l with
          | some u =>
            let u := (u.modPart p.val (fun y => { y with written := y.written + l.length })).bump (.hch p.val) 8
            (u.addReg (.hch p.val) HCH_CKPT_BYTES_value l.length).unstage p.val
          | none => s
        | _, _ => s
    | _, _ => s)

end Sys2Proof.Machine
end

