-- ==== Sys2Proof/Machine/Calibration.lean ====
section
/-! DEFINITION. Calibration of the wings (R386–R400): triggers, the course of a calibration, takeover, and the gradual application of
trims. -/
namespace Sys2Proof.Machine

/-! Triggers (R388) -/

/-- A write of 1 to CAL_CMD.go: a command trigger for each wing named (R388); go clears when the triggers are taken. -/
def State.commandCal (s : State) (p wings : Nat) : State :=
  ((s.wrAll (.cal p) [(CAL_CMD_wings, wings), (CAL_CMD_go, 0)])).each ((List.range 9).filter (bit wings)) (fun s w => s.trigger p w .command)

/-- CALIBRATION_COMMAND (R388). A partition in reset discards the write (R29). -/
def execCalibrationCommand (p : PartId) (wings : BitVec 9) (s : State) : Host.Outcome State Fault Refusal :=
  .next (s.ranked (.calibrationCommand p wings) (if s.resetting.contains p.val then s else s.commandCal p.val wings.toNat))

/-- DRIFT_EVALUATION (R388): a scale's count of reference deviations has reached 65,536. -/
def execDriftEvaluation (p : PartId) (w : WingId) (b : BankId) (sc : ScaleId) (s : State) : Host.Outcome State Fault Refusal :=
  .next (s.ranked (.driftEvaluation p w b sc) (
    let x := s.scale p.val w.val b.val sc.val
    if x.driftN < 65536 then s
    else
      let drifted := s.on (.cal p.val) CAL_CTL_drift_en && decide (s.rd (.cal p.val) CAL_CTL_drift_lim * 1024 < x.driftSum.natAbs)
      let s := s.modScale p.val w.val b.val sc.val (fun x => { x with driftSum := 0, driftN := 0 })
      if drifted then s.trigger p.val w.val .drift else s))

/-! The course of a calibration (R389–R395) -/

/-- Change every listed scale of a wing. -/
def State.modWingScales (s : State) (p w : Nat) (f : Scale → Scale) : State :=
  (s.wingScales p w).foldl (fun s e => s.modScale p w e.1 e.2 f) s

/-- CAL_STATUS of a wing: whether it is calibrating and whether a trigger is held (R401). -/
def State.showCal (s : State) (p w : Nat) : State :=
  let c := (s.wing p w).cal
  let s := (s.setBit (.cal p) CAL_STATUS_active w c.running).setBit (.cal p) CAL_STATUS_pending w !c.held.isEmpty
  s.wr (.cal p) CAL_STATUS_busy (flag (s.rd (.cal p) CAL_STATUS_active != 0))

/-- Whether a calibration of a wing can begin: it is on and in service, its partition is out of reset, and a trigger is held or a partition
reset has ended one (R388, R389, R400). -/
def State.calDue (s : State) (p w : Nat) : Bool :=
  let c := (s.wing p w).cal
  !c.running && (c.again || !c.held.isEmpty) && s.rd (.wing p w) WNG_STATE_power == 2 && s.rd (.wing p w) WNG_STATE_role != 0xE &&
  !s.resetting.contains p

/-- CALIBRATION_START (R388–R390): a calibration begins with phase 1 and takes the reference temperature; it takes every held trigger. -/
def execCalibrationStart (p : PartId) (w : WingId) (s : State) : Host.Outcome State Fault Refusal :=
  .next (
    if s.calDue p.val w.val then
      let temp := s.rd (.wing p.val w.val) WNG_TEMP_temp
      let s := s.modCal p.val w.val (fun c =>
        { running := true, trig := if c.again then c.trig else c.held.headD c.trig, held := [], attempts := 0, begun := s.now
          newRef := temp, refDone := false, again := false })
      let s := s.modWingScales p.val w.val (fun x =>
        { x with attempts := [], calNext := 0, calDirect := none, pinCal := x.pinned })
      (s.wrAll (.cal p.val) [(CAL_W_STATE_phase w.val, 1), (CAL_W_COLUMN_column w.val, 0)]).showCal p.val w.val
    else s)

/-- R398: a wing's first calibration since it was powered. -/
def State.firstCal (s : State) (p w : Nat) : Bool := !s.on (.wing p w) WNG_STATE_calibrated

/-- R391, R398: whether a scale issues no scale operation, so that it is calibrated directly. -/
def State.idleScale (s : State) (p w : Nat) (x : Scale) : Bool :=
  x.role == 2 || x.role == 3 || x.pinned || s.rd (.wing p w) WNG_STATE_role == 0xF || (s.ctx? p).isNone || s.firstCal p w

/-- The mode of a scale, fixed when phase 3 begins for it (R391). -/
def State.direct (s : State) (p w b sc : Nat) : Bool :=
  let x := s.scale p w b sc
  x.calDirect.getD (s.idleScale p w x)

/-- Phase 3 begins for a scale: its mode is fixed (R391). -/
def State.beginPhase3 (s : State) (p w b sc : Nat) : State :=
  let d := s.direct p w b sc
  (s.modScale p w b sc (fun x => { x with calDirect := some d })).wr (.cal p) (CAL_W_STATE_phase w) 3

/-- An integer ÷ `n`, rounded to nearest with ties to even. -/
def rneQuot (v : Int) (n : Nat) : Int :=
  let q : Nat := (2 * v.natAbs + n) / (2 * n)
  let r : Nat := if (2 * v.natAbs + n) % (2 * n) = 0 ∧ q % 2 = 1 then q - 1 else q
  if v < 0 then -(r : Int) else r

/-- R393: whether two runs agree within 0.25 code. -/
def runsAgree (r : MeasRuns) : Bool :=
  decide ((r.offset1 - r.offset2).natAbs ≤ 256) && decide ((r.gain1 - r.gain2).natAbs ≤ 256)

/-- R386: whether a value fits a trim of a number of bits. -/
def inTrim (bits : Nat) (v : Int) : Bool := decide (-(2 ^ (bits - 1) : Int) ≤ v) && decide (v < 2 ^ (bits - 1))

/-- A value kept within a trim's range. -/
def clampTrim (bits : Nat) (v : Int) : Int := max (-(2 ^ (bits - 1) : Int)) (min (2 ^ (bits - 1) - 1) v)

/-- R393: the target that the mean of two runs gives: it takes the error away, `lsb` being the effect of one LSB in 2^-10 code (DEDUCED, log
entry 66). -/
def trimTarget (applied e1 e2 : Int) (lsb : Nat) : Int := applied - rneQuot (e1 + e2) (2 * lsb)

/-- Set a trim's target; at once where the scale is calibrated directly (R397). -/
def Trim.aim (t : Trim) (target : Int) (atOnce : Bool) : Trim := ⟨if atOnce then target else t.applied, target⟩

/-- R394: the limits of R54 on a converter with these targets. -/
def meetsLimits (r : MeasRuns) (x : Scale) (col : Nat) (offset gain : Int) : Bool :=
  let o := (mapGet Trim.reset x.offsets col).applied
  let g := (mapGet Trim.reset x.gains col).applied
  inTrim 8 offset && inTrim 8 gain && decide (r.inl ≤ 1024) &&
  decide ((r.offset1 + r.offset2 + 64 * (offset - o)).natAbs ≤ 512) &&
  decide ((r.gain1 + r.gain2 + 448 * (gain - g)).natAbs * 1000 ≤ 4 * 896 * 1024) &&
  ((Num.ofInt 20).mul (fp16.decode r.sigma.toNat)).le (Num.ofInt 9)

/-- R394: a scale's measurement is not accepted: it is repeated, and the fourth failure retires the scale. `key` names the measurement. -/
def State.retryScale (s : State) (p w b sc key : Nat) : State :=
  let n := mapGet 0 (s.scale p w b sc).attempts key + 1
  if n < 4 then
    ((s.modScale p w b sc (fun x => { x with attempts := mapSet 0 x.attempts key n })).bump (.cal p) 5).raise (.cal p) CAL_INT_retry
  else ((s.retireScale p w b sc).bump (.cal p) 6).raise (.cal p) CAL_INT_scale_retired

/-- A scale's measurement is accepted. -/
def Scale.clearAttempts (x : Scale) (key : Nat) : Scale := { x with attempts := mapDel x.attempts key }

/-- R393, R394: the wing reference: its fourth failure fails the ladder measurement of every scale, and so the wing. It is reported as one
retirement (log entry 66). -/
def State.measureReference (s : State) (p w : Nat) (r : MeasRuns) : State :=
  let c := (s.wing p w).cal
  if c.refDone then s
  else if runsAgree r then
    let atOnce := s.firstCal p w || s.rd (.wing p w) WNG_STATE_role == 0xF || (s.ctx? p).isNone
    let t := clampTrim 12 (trimTarget (s.wing p w).refApplied r.gain1 r.gain2 8)
    let s := s.modWing p w (fun x => { x with refTarget := t, refApplied := if atOnce then t else x.refApplied })
    (s.modCal p w (fun c => { c with refDone := true })).wr (.cal p) (CAL_W_STATE_phase w) 2
  else if c.attempts + 1 < 4 then
    ((s.modCal p w (fun c => { c with attempts := c.attempts + 1 })).bump (.cal p) 5).raise (.cal p) CAL_INT_retry
  else ((s.bump (.cal p) 6).raise (.cal p) CAL_INT_scale_retired).failWing p w

/-- R393: a scale's ladder. -/
def State.measureLadder (s : State) (p w b sc : Nat) (r : MeasRuns) : State :=
  if runsAgree r then
    let d := s.direct p w b sc
    s.modScale p w b sc (fun x =>
      { x.clearAttempts 264 with ladder := x.ladder.aim (clampTrim 10 (trimTarget x.ladder.applied r.gain1 r.gain2 128)) d })
  else s.retryScale p w b sc 264

/-- R393: a scale's pulse-width generator. -/
def State.measurePulse (s : State) (p w b sc : Nat) (r : MeasRuns) : State :=
  if runsAgree r then
    let d := s.direct p w b sc
    s.modScale p w b sc (fun x =>
      { x.clearAttempts 265 with pulse := x.pulse.aim (clampTrim 10 (trimTarget x.pulse.applied r.gain1 r.gain2 32)) d })
  else s.retryScale p w b sc 265

/-- The spare column that takes a column over, with its target (R392). -/
def Scale.takeover? (x : Scale) : Option (Nat × Nat) :=
  ((List.range 6).find? (fun n => (x.colmap.getD n (0, 0)).1 == 2)).map (fun n => (n, (x.colmap.getD n (0, 0)).2))

/-- R390–R392: whether a scale's converter is to be measured now: of a scale calibrated directly any that serves or is free, in takeover the
free ones before the columns and then the column taken over, once its spare holds the whole copy. -/
def Scale.measures (x : Scale) (direct : Bool) (col : Nat) : Bool :=
  let free := 258 ≤ col && (x.colmap.getD (col - 258) (3, 0)).1 == 0
  match x.takeover? with
  | some (_, j) => x.column j == col && x.calNext ≤ j && 1024 ≤ x.copied
  | none => if direct then free || (x.logicalOf col).isSome else free && x.calNext == 0

/-- R392: acceptance of the column under takeover lets the scale go on to the next one. -/
def Scale.columnDone (x : Scale) (col : Nat) : Scale :=
  match x.takeover? with
  | some (_, j) => if x.column j = col then { x with calNext := j + 1 } else x
  | none => x

/-- R393, R394: a converter. -/
def State.measureConverter (s : State) (p w b sc col : Nat) (r : MeasRuns) : State :=
  let s := s.beginPhase3 p w b sc
  let d := s.direct p w b sc
  let x := s.scale p w b sc
  if !x.measures d col then s
  else if !runsAgree r then s.retryScale p w b sc col
  else
    let o := mapGet Trim.reset x.offsets col
    let g := mapGet Trim.reset x.gains col
    let ot := trimTarget o.applied r.offset1 r.offset2 32
    let gt := trimTarget g.applied r.gain1 r.gain2 224
    if meetsLimits r x col ot gt then
      s.setScale p w b sc (({ x.clearAttempts col with
        offsets := mapSet Trim.reset x.offsets col (o.aim ot d), gains := mapSet Trim.reset x.gains col (g.aim gt d)
        noise := mapIns x.noise col r.sigma } : Scale).columnDone col)
    else ((s.columnFault p w b sc col).bump (.cal p) 7).raise (.cal p) CAL_INT_column_fault

/-- Whether a scale takes part in phases 2 and 3 (R390). -/
def Scale.calibrates (x : Scale) : Bool := x.role == 1 || x.role == 2 || x.role == 3

/-- MEASUREMENT_RUN_END (R393, R394): a pair of runs of the wing's calibration has ended. -/
def execMeasurementRunEnd (p : PartId) (w : WingId) (what : MeasTarget) (runs : MeasRuns) (s : State) :
    Host.Outcome State Fault Refusal :=
  .next (
    let c := (s.wing p.val w.val).cal
    if !c.running then s
    else
      match what with
      | .wingReference => s.measureReference p.val w.val runs
      | .ladder b sc =>
        if c.refDone && (s.scale p.val w.val b.val sc.val).calibrates then s.measureLadder p.val w.val b.val sc.val runs else s
      | .pulse b sc =>
        if c.refDone && (s.scale p.val w.val b.val sc.val).calibrates then s.measurePulse p.val w.val b.val sc.val runs else s
      | .converter b sc col =>
        if c.refDone && (s.scale p.val w.val b.val sc.val).calibrates then
          s.measureConverter p.val w.val b.val sc.val col.val runs
        else s)

/-! Takeover (R392) -/

/-- CAL_W_COLUMN: the lowest logical column that some scale in takeover has still to complete (R402). -/
def State.showColumn (s : State) (p w : Nat) : State :=
  let left := (s.wingScales p w).filterMap (fun e =>
    let x := s.scale p w e.1 e.2
    if x.role == 1 && x.calDirect == some false && x.calNext ≤ 257 then some x.calNext else none)
  s.wr (.cal p) (CAL_W_COLUMN_column w) (match left with | [] => 0 | j :: js => js.foldl min j)

/-- The highest-numbered free spare column (R392). -/
def Scale.lastFree (x : Scale) : Option Nat := (List.range 6).reverse.find? (fun n => (x.colmap.getD n (3, 0)).1 == 0)

/-- COLUMN_TAKEOVER (R392): the scale's next column is to be taken over by its highest-numbered free spare column, which the restores of the
next 1,024 rows fill. -/
def execColumnTakeover (p : PartId) (w : WingId) (b : BankId) (sc : ScaleId) (s : State) : Host.Outcome State Fault Refusal :=
  .next (
    let x := s.scale p.val w.val b.val sc.val
    let c := (s.wing p.val w.val).cal
    if c.running && c.refDone && x.role == 1 && !s.direct p.val w.val b.val sc.val && decide (x.calNext ≤ 257) && x.takeover?.isNone then
      match x.lastFree with
      | some n =>
        let s := s.beginPhase3 p.val w.val b.val sc.val
        let s := s.modScale p.val w.val b.val sc.val (fun x => { x.setCol n 2 x.calNext with copied := 0 })
        (s.bump (.cal p.val) 8).showColumn p.val w.val
      | none => s
    else s)

/-- TAKEOVER_END (R392): the column's own converter serves again and the spare is free. -/
def execTakeoverEnd (p : PartId) (w : WingId) (b : BankId) (sc : ScaleId) (s : State) : Host.Outcome State Fault Refusal :=
  .next (
    let x := s.scale p.val w.val b.val sc.val
    match x.takeover? with
    | some (n, j) =>
      if j < x.calNext then (s.setScale p.val w.val b.val sc.val (x.setCol n 0 0)).showColumn p.val w.val else s
    | none => s)

/-! Completion (R395) -/

/-- The last accepted σ_n of a converter, an FP16 pattern: one that no run of the model has measured is a free value within the limit of
R394. -/
def Scale.noiseOf (x : Scale) (key col : Nat) : Nat :=
  match mapFind x.noise col with
  | some v => v.toNat
  | none => min ((Config.measuredNoise (key * 264 + col)).toNat % 2 ^ 15) 0x3733

/-- R395: twelve times σ_n² + 1. -/
def noiseTerm (v : Nat) : Num := ((Num.ofInt 12).mul ((fp16.decode v).mul (fp16.decode v))).add (Num.ofInt 1)

/-- R395: σ_c, in FP16 with RNE. -/
def Scale.sigma (x : Scale) (key : Nat) : Nat :=
  let data := (List.range 256).foldl (fun (a : Num) j => a.add (noiseTerm (x.noiseOf key (x.column j)))) (Num.ofInt 0)
  let all := data.add ((Num.ofInt 65536).mul (noiseTerm (x.noiseOf key (x.column 256))))
  fp16.encode (all.div (Num.ofInt 12)).sqrt

/-- R389, R395: what completion does to a scale: σ_c is installed, and a pin that the calibration began after is cleared. -/
def State.finishScale (s : State) (p w b sc : Nat) : State :=
  let x := s.scale p w b sc
  if !x.calibrates then s
  else
    let x := { x with sigmaC := BitVec.ofNat 16 (x.sigma (scaleKey p w b sc)) }
    if x.pinned && x.pinCal then
      (s.setScale p w b sc { x with pinned := false, pinCal := false, mon := { Monitor.reset with since := x.mon.since } }).wr (.lad p) LAD_PINNED_count
        (s.rd (.lad p) LAD_PINNED_count - 1)
    else s.setScale p w b sc x

/-- Every scale of a wing. -/
def State.finishScales (s : State) (p w : Nat) : State :=
  s.each (List.range 32) (fun s b => s.each (List.range 528) (fun s sc => s.finishScale p w b sc))

/-- R389: a held temperature trigger is evaluated against the new reference temperature. -/
def State.recheckHeld (s : State) (p w : Nat) : State :=
  let keep := s.on (.cal p) CAL_CTL_temp_en && s.tempBeyond p w
  s.modCal p w (fun c => { c with held := c.held.filter (fun k => k != .temperature || keep) })

/-- R395: whether nothing of a scale's calibration is known to be open: no measurement waits for its repeat, no column is taken over, and a
scale in takeover with a free spare column has come to its last column. What no run has reported on counts as accepted (DESIGN CHOICE, log
entry 66). -/
def Scale.calDone (x : Scale) : Bool :=
  !x.calibrates || (x.attempts.isEmpty && x.takeover?.isNone &&
    (x.role != 1 || x.calDirect != some false || decide (257 < x.calNext) || x.lastFree.isNone))

/-- Whether a calibration can complete: its reference is accepted and nothing of its scales is open. -/
def State.calFinished (s : State) (p w : Nat) : Bool :=
  let c := (s.wing p w).cal
  c.running && c.refDone && (s.wingScales p w).all (fun e => (s.scale p w e.1 e.2).calDone)

/-- CALIBRATION_COMPLETE (R395): every measurement has been accepted or has ended in a retirement or a column fault. -/
def execCalibrationComplete (p : PartId) (w : WingId) (s : State) : Host.Outcome State Fault Refusal :=
  .next (
    if s.calFinished p.val w.val then
      let c := (s.wing p.val w.val).cal
      let s := s.finishScales p.val w.val
      let s := s.modCal p.val w.val (fun c => { c with running := false, attempts := 0, refDone := false })
      let s := s.wrAll (.cal p.val) [(CAL_W_COUNT_count w.val, min 0xFFFF_FFFF (s.rd (.cal p.val) (CAL_W_COUNT_count w.val) + 1)),
        (CAL_W_TICK_tick w.val, s.now), (CAL_W_STATE_ref_temp w.val, c.newRef), (CAL_W_STATE_phase w.val, 0),
        (CAL_W_COLUMN_column w.val, 0)]
      let s := s.wr (.wing p.val w.val) WNG_STATE_calibrated 1
      let s := (s.bump (.cal p.val) 0).raise (.cal p.val) CAL_INT_cal_done
      (s.recheckHeld p.val w.val).showCal p.val w.val
    else s)

/-! Application of trims (R396) -/

/-- Move a trim toward its target within a budget, where one LSB costs `lsb`: the trim and the budget left. -/
def Trim.move (t : Trim) (lsb budget : Nat) : Trim × Nat :=
  let n := min (t.target - t.applied).natAbs (budget / lsb)
  (⟨if t.target < t.applied then t.applied - n else t.applied + n, t.target⟩, budget - n * lsb)

/-- The per-converter trims of a scale, within the budget that its ladder and pulse leave: gain before offset. -/
def Scale.moveConverters (x : Scale) (budget : Nat) : Scale :=
  let cols := (List.range 264).filter (fun c => (mapFind x.gains c).isSome || (mapFind x.offsets c).isSome)
  cols.foldl (fun (x : Scale) c =>
    let g := (mapGet Trim.reset x.gains c).move 128 budget
    let o := (mapGet Trim.reset x.offsets c).move 32 g.2
    { x with gains := mapSet Trim.reset x.gains c g.1, offsets := mapSet Trim.reset x.offsets c o.1 }) x

/-- R396: a scale's trims at an application point: ladder, pulse, then each converter's gain and offset. -/
def Scale.moveTrims (x : Scale) (budget : Nat) : Scale :=
  let l := x.ladder.move 128 budget
  let q := x.pulse.move 32 l.2
  ({ x with ladder := l.1, pulse := q.1 } : Scale).moveConverters q.2

/-- R396: a wing's trims at an application point: the budget is 1/8 code on any one converter, counted in 2^-10 code, and the wing reference
moves first. -/
def State.moveWing (s : State) (p w : Nat) : State :=
  let y := s.wing p w
  let r := (⟨y.refApplied, y.refTarget⟩ : Trim).move 8 128
  (s.modWing p w (fun x => { x with refApplied := r.1.applied })).modWingScales p w (fun x => x.moveTrims r.2)

/-- TRIM_APPLICATION (R396): an application point of the partition. -/
def execTrimApplication (p : PartId) (s : State) : Host.Outcome State Fault Refusal :=
  .next (
    if (s.part p.val).trimDue then
      (s.modPart p.val (fun x => { x with trimDue := false })).each (List.range 9) (fun s w => s.moveWing p.val w)
    else s)

end Sys2Proof.Machine
end

