-- ==== Sys2Proof/Machine/Rings.lean ====
section
/-! DEFINITION. Indexing rings (R281–R283, R451, R452): RING_IN and RING_OUT; HITCH restore (R356, R456); and COMMAND_COMPLETE
(R268). -/
namespace Sys2Proof.Machine

/-! Objects (R281, R282, R451) -/

/-- A tenant slot of a partition's context; any other slot fails the object (R450). -/
def State.tenant? (s : State) (p slot : Nat) : Option KeySlot :=
  match s.slot? slot with
  | some k => if k.usage = 0 ∧ s.ctx? p = some k.ctx then some k else none
  | none => none

/-- A subkey of a tenant key (R451): 1 for objects, 2 for embeddings. -/
def subkey (k : KeySlot) (n : Nat) : List Byte := slice (Config.shake256 (k.key ++ [BitVec.ofNat 8 n]) 32) 0 32

/-- The batch table record of an object (R282): plaintext address, length, identifier, and status with the tenant slot in bits [15:8] of
its word (DESIGN CHOICE, log entry 67). -/
def batchRecord (addr len ident status slot : Nat) : List Byte :=
  leBytes 8 addr ++ leBytes 8 len ++ leBytes 8 ident ++ leBytes 8 (status + 256 * slot)

/-- The next multiple of 64. -/
def align64 (a : Nat) : Nat := (a + 63) / 64 * 64

/-- Decrypt one object (R452): the status of R281, and its plaintext where it is 0. -/
def State.openObject (s : State) (p : Nat) (e : List Byte) : Nat × List Byte :=
  let addr := leAt e 0 8
  let len := leAt e 8 8
  if s.poisonedIn addr len then (2, [])
  else match s.tenant? p (leAt e 0x18 1) with
    | none => (1, [])
    | some k =>
      match Config.gcmOpen (subkey k 1) (slice e 0x30 12) (slice e 8 24) (s.bytes addr len) (slice e 0x20 16) with
      | some l => (0, slice l 0 len)
      | none => (1, [])

/-- Take one entry of an input ring: its plaintext at `buf` and its record; answers where the next plaintext goes. -/
def State.takeObject (s : State) (p : Nat) (e : List Byte) (buf table : Nat) : State × Nat :=
  let r := s.openObject p e
  let rec_ := batchRecord (if r.1 = 0 then buf else 0) (leAt e 8 8) (leAt e 0x10 8) r.1 (leAt e 0x18 1)
  if r.1 = 0 then ((s.put buf r.2).put table rec_, align64 (buf + r.2.length))
  else ((if r.1 = 1 then s.bump .sec 3 else s).put table rec_, buf)

/-- The entries that a RING_IN takes. -/
def State.ringBatch (s : State) (p r most : Nat) : List (List Byte) :=
  let x := s.ring p r
  (List.range (min most (x.prod - x.fetched))).map (fun i => s.readEntry p r (x.fetched + i))

/-- Whether the partition's context may reach the entries of a data ring (R165). -/
def State.entriesReadable (s : State) (p r first n : Nat) : Bool := (List.range n).all (fun i => s.entryReadable p r (first + i))

/-- Whether the partition's context may reach what the entries name, the plaintext buffer and the batch table (R26). -/
def State.batchReach (s : State) (p buf table : Nat) (es : List (List Byte)) : Bool :=
  es.all (fun e => s.reach p (leAt e 0 8) (leAt e 8 8)) && s.reach p table (32 * es.length) &&
  s.reach p buf (es.foldl (fun (n : Nat) e => align64 (n + leAt e 8 8)) 0)

/-- Whether a ring serves a command: an enabled data ring of a kind; any other is a fault of reason 0x6 (DEDUCED, log entry 67). -/
def State.ringServes (s : State) (p r kind : Nat) : Bool :=
  decide (1 ≤ r ∧ r ≤ 3) && s.on (.thx p) (THX_SEQ_RING_CFG_enable r) && s.rd (.thx p) (THX_SEQ_RING_CFG_kind r) == kind

/-- Whether an earlier command in flight still waits on the same ring. -/
def State.ringBlocked (s : State) (p id r : Nat) : Bool :=
  (s.part p).seq.inflight.any (fun (x : Inflight) => decide (x.id < id) &&
    match x.work with
    | .ringIn q _ _ _ taken => q == r && taken == 0
    | .ringOut q _ _ _ written => q == r && !written
    | _ => false)

/-- Whether any of the entries lies poisoned in device memory (R369: it is not executed). -/
def State.entriesPoisoned (s : State) (p r first n : Nat) : Bool :=
  (List.range n).any (fun i => s.ringPoisoned p r (s.ringEntry p r (first + i)) 64)

/-- R282: a RING_IN in flight takes its objects once its ring holds one. -/
def State.runRingIn (s : State) (p id r most buf table : Nat) : State :=
  let es := s.ringBatch p r most
  if es.isEmpty || s.ringWaits p r || s.ringBlocked p id r || s.entriesPoisoned p r (s.ring p r).fetched es.length then s
  else if !s.batchReach p buf table es || !s.entriesReadable p r (s.ring p r).fetched es.length then
    match s.cmd? p id with
    | some x => ((s.abandon p 2 x).bump (.thx p) 4).seqFault p 2 x.index
    | none => s
  else
    let s := (s.setRing p r { s.ring p r with fetched := (s.ring p r).fetched + es.length }).setWork p id
      (.ringIn r most buf table es.length)
    ((es.foldl (fun (e : (State × Nat) × Nat) o => (e.1.1.takeObject p o e.1.2 e.2, e.2 + 32)) ((s, buf), table)).1).1

/-! Embeddings (R282, R452, R453) -/

/-- An output entry (R281). -/
def outEntry (addr len ident status : Nat) (tag nonce : List Byte) : List Byte :=
  leBytes 8 addr ++ leBytes 8 len ++ leBytes 8 ident ++ leBytes 8 status ++ slice tag 0 16 ++ slice nonce 0 12 ++ leBytes 4 0

/-- The status of a record's embedding as it is encrypted (R282, R369, R450). -/
def State.embeddingStatus (s : State) (p : Nat) (rec_ : List Byte) : Nat :=
  if leAt rec_ 0x18 1 ≠ 0 then leAt rec_ 0x18 1
  else if s.poisonedIn (leAt rec_ 0 8) (leAt rec_ 8 8) then 2
  else if (s.tenant? p (leAt rec_ 0x19 1)).isNone then 1
  else 0

/-- Encrypt one embedding to `dst` and answer its entry: none where no nonce is left (R443). -/
def State.sealEmbedding (s : State) (p : Nat) (rec_ : List Byte) (dst : Nat) : Option (State × List Byte × Nat) :=
  let len := leAt rec_ 8 8
  let ident := leAt rec_ 0x10 8
  let st := s.embeddingStatus p rec_
  match st, s.tenant? p (leAt rec_ 0x19 1) with
  | 0, some k =>
    s.takeNonce.map (fun (r : Nat × State) =>
      let nonce := nonceBytes 1 r.1
      let c := Config.gcmSeal (subkey k 2) nonce (leBytes 8 len ++ leBytes 8 ident) (r.2.bytes (leAt rec_ 0 8) len)
      (r.2.put dst (slice c.1 0 len), outEntry dst len ident 0 c.2 nonce, align64 (dst + len)))
  | _, _ => some (s, outEntry 0 0 ident st [] [], dst)

/-- Encrypt the records of a batch in table order, writing the entries from index `at_` on. -/
def State.sealBatch (s : State) (p r at_ dst : Nat) : List (List Byte) → Option State
  | [] => some s
  | x :: xs =>
    match s.sealEmbedding p x dst with
    | some (t, e, next) => (t.writeEntry p r at_ 0 e).sealBatch p r (at_ + 1) next xs
    | none => none

/-- The bytes that a batch's ciphertexts take. -/
def State.batchBytes (s : State) (p : Nat) (recs : List (List Byte)) : Nat :=
  recs.foldl (fun (n : Nat) x => if s.embeddingStatus p x = 0 then align64 (n + leAt x 8 8) else n) 0

/-- Whether a range lies in the egress region of the partition's context (R452). -/
def State.inOwnEgress (s : State) (p a n : Nat) : Bool :=
  match (s.ctx? p).bind s.grant? with
  | some g => inside a n g.outBase g.outSize
  | none => false

/-- The records of a batch table. -/
def State.batch (s : State) (table count : Nat) : List (List Byte) := (List.range count).map (fun i => s.bytes (table + 32 * i) 32)

/-- Whether a RING_OUT's operands are in order: table and embeddings in the context, ciphertext in its egress region (R26, R452). -/
def State.outReach (s : State) (p table count dst : Nat) : Bool :=
  let recs := s.batch table count
  s.reach p table (32 * count) && s.inOwnEgress p (align64 dst) (s.batchBytes p recs) &&
  recs.all (fun x => leAt x 0x18 1 != 0 || s.reach p (leAt x 0 8) (leAt x 8 8))

/-- R282: a RING_OUT in flight encrypts its batch once its ring has room. A poisoned batch table is not executed (R369), and without a nonce
the command waits. -/
def State.runRingOut (s : State) (p id r table count dst : Nat) : State :=
  let x := s.ring p r
  if 2 ^ s.ringLog p r < x.prod - x.cons + count || s.ringWaits p r || s.ringBlocked p id r || s.poisonedIn table (32 * count) then s
  else if !s.outReach p table count dst || !s.entriesReadable p r x.prod count then
    match s.cmd? p id with
    | some y => ((s.abandon p 2 y).bump (.thx p) 4).seqFault p 2 y.index
    | none => s
  else
    match s.sealBatch p r x.prod (align64 dst) (s.batch table count) with
    | some t =>
      let t := (t.writeProd p r (x.prod + count)).setRing p r { x with prod := x.prod + count }
      (t.countObjects p count).setWork p id (.ringOut r table count dst true)
    | none => s

/-- RING_IN (R282): it issues, and takes objects as soon as its ring holds one. -/
def execRingIn (p : PartId) (c : Cmd) (s : State) : Host.Outcome State Fault Refusal :=
  .next (s.issueNeeding p.val c 2 (fun l =>
    match cmdAddress c l.step c.c, cmdAddress c l.step c.d with
    | some buf, some table =>
      let r := c.a.toNat
      if s.ringServes p.val r 1 then
        let id := s.nextId p.val
        (((s.issue p.val 0x09 c l (.ringIn r c.b.toNat buf table 0)).tagStart p.val id).runRingIn p.val id r c.b.toNat buf table)
      else s.issueFault p.val l 6
    | _, _ => s.operandFault p.val c l [c.c, c.d]))

/-- RING_OUT (R282): it issues, and writes its entries as soon as its ring has room for them. -/
def execRingOut (p : PartId) (c : Cmd) (s : State) : Host.Outcome State Fault Refusal :=
  .next (s.issueNeeding p.val c 2 (fun l =>
    match cmdAddress c l.step c.b, cmdAddress c l.step c.d with
    | some table, some dst =>
      let r := c.a.toNat
      if s.ringServes p.val r 2 then
        let id := s.nextId p.val
        (((s.issue p.val 0x0A c l (.ringOut r table c.c.toNat dst false)).tagStart p.val id).runRingOut p.val id r table
          c.c.toNat dst)
      else s.issueFault p.val l 6
    | _, _ => s.operandFault p.val c l [c.b, c.d]))

/-! HITCH restore (R353, R356, R456) -/

/-- A Cocoon record's fields (R353). -/
structure RecordHead where
  step   : Nat
  k      : Nat
  layer  : Nat
  bf16W  : Bool
  bf16M  : Bool
  moments : Nat
  len    : Nat
  digest : Nat
  deriving DecidableEq, Repr

/-- Read a record's header. -/
def readRecord (l : List Byte) : RecordHead :=
  let w := leAt l 0x10 8
  { step := leAt l 8 8, k := bits w 0 24, layer := bits w 24 12, bf16W := bit w 36, bf16M := bit w 37, moments := bits w 38 2
    len := leAt l 0x18 8, digest := leAt l 0x20 8 }

/-- The tensors of a record's plaintext: index, offset behind the chunk header, and bytes (R226, R353). -/
def RecordHead.tensors (x : RecordHead) : List (Nat × Nat × Nat) :=
  let m := (if x.bf16W then 1048576 else 524288) * (if x.bf16M then 2 else 4)
  [(0, 64, chunkBytes)] ++ (if 1 ≤ x.moments then [(1, 64 + chunkBytes, m)] else []) ++
  (if 2 ≤ x.moments then [(2, 64 + chunkBytes + m, m)] else [])

/-- R373: the digest of a chunk's plaintext. -/
def RecordHead.digestOf (x : RecordHead) (l : List Byte) : Nat :=
  x.tensors.foldl (fun h t => (List.range (t.2.2 / 4)).foldl (fun (h : Nat) i =>
    h + digestTerm (t.1 * 2 ^ 21 + i) (leAt l (t.2.1 + 4 * i) 4)) h) 0 % 2 ^ 64

/-- The plaintext of the record at an address, where it authenticates under the key and its digest is its record's (R356). -/
def State.openRecord (s : State) (k : KeySlot) (a : Nat) : Option (List Byte) :=
  let x := readRecord (s.bytes a 128)
  if s.poisonedIn (a + 128) x.len then none
  else match Config.gcmOpen k.key (s.bytes (a + 0x28) 12) (s.bytes a 0x38) (s.bytes (a + 128) x.len) (s.bytes (a + 0x38) 16) with
    | some l => if x.digestOf l = x.digest then some l else none
    | none => none

/-- R356: restore one record: its state and then its header, or the header to state 01; answers whether it was accepted. The place of the
state is a free value (log entry 64). -/
def State.restoreRecord (s : State) (p : Nat) (k : KeySlot) (a : Nat) : State × Bool :=
  let x := readRecord (s.bytes a 128)
  let h := s.headerAt p x.k
  match s.openRecord k a with
  | some l =>
    let s := x.tensors.foldl (fun s t => s.put (Config.chunkPlace p x.k t.1) (slice l t.2.1 t.2.2)) s
    (s.putHeader h x.step 0 x.layer x.digest, true)
  | none => (((s.putHeader h (s.hdrStep h) 1 x.layer (s.hdrDigest h)).bump (.hch p) 6).raise (.hch p) HCH_INT_repair_rejected, false)

/-- The addresses of records that follow each other from an address, each padded to 4 KiB (R353). -/
def State.recordsAt (s : State) (a : Nat) : Nat → List Nat
  | 0 => []
  | n + 1 => a :: s.recordsAt (a + (128 + (readRecord (s.bytes a 128)).len + 4095) / 4096 * 4096) n

/-- Whether the partition's context may reach every record whole. -/
def State.recordsReach (s : State) (p : Nat) (l : List Nat) : Bool :=
  l.all (fun a => s.reach p a (128 + (readRecord (s.bytes a 128)).len))

/-- HITCH_RESTORE (R356): records are decrypted under the checkpoint slot of the context; without one it is a fault of reason 0x2 (R450).
When all are accepted HCH_COMMIT becomes their step. -/
def execHitchRestore (p : PartId) (c : Cmd) (s : State) : Host.Outcome State Fault Refusal :=
  .next (s.issueNeeding p.val c 8 (fun l =>
    match cmdAddress c l.step c.b, s.slotFor p.val 1 with
    | some a, some (_, k) =>
      let rs := s.recordsAt a (bits c.c.toNat 0 32)
      if !s.recordsReach p.val rs then s.operandFault p.val c l []
      else if rs.any (fun a => s.poisonedIn a 128) then s
      else
        let id := s.nextId p.val
        let t := (s.issue p.val 0x08 c l .done).tagStart p.val id
        let r := rs.foldl (fun (e : State × Bool) a => let x := e.1.restoreRecord p.val k a; (x.1, e.2 && x.2)) (t, true)
        match rs.getLast? with
        | some a =>
          if r.2 then r.1.wr (.hch p.val) HCH_COMMIT_step (readRecord (s.bytes a 128)).step else r.1
        | none => r.1
    | _, _ => s.issueFault p.val l 2))

/-! Completion (R268) -/

/-- A RING_IN that has taken its entries advances the consumer word as it completes (R282). -/
def State.endRingIn (s : State) (p r taken : Nat) : State :=
  let x := s.ring p r
  (s.writeCons p r (x.cons + taken)).setRing p r { x with cons := x.cons + taken }

/-- Complete a ring command that has done its work; one that waits tries again. -/
def State.completeRing (s : State) (p : Nat) (x : Inflight) : State :=
  let t := match x.work with
    | .ringIn r most buf table 0 => s.runRingIn p x.id r most buf table
    | .ringOut r table count dst false => s.runRingOut p x.id r table count dst
    | _ => s
  match t.cmd? p x.id with
  | some y =>
    match y.work with
    | .ringIn r _ _ _ taken => if taken = 0 || t.ringWaits p r then t else (t.endRingIn p r taken).complete p y
    | .ringOut _ _ _ _ written => if written then t.complete p y else t
    | _ => t
  | none => t

/-- COMMAND_COMPLETE (R268): a command in flight that has completed its work ends; one that has sent remote writes waits for their
acknowledgements (R303). -/
def execCommandComplete (p : PartId) (id : Nat) (s : State) : Host.Outcome State Fault Refusal :=
  .next (match s.cmd? p.val id with
    | some x =>
      match x.work with
      | .remote => if s.remotesOut p.val id then s else s.complete p.val x
      | .commit | .push => if s.hitchBusy p.val x then s else s.complete p.val x
      | .resume => if s.hitchBusy p.val x then s else (s.finishResume p.val).complete p.val x
      | .ringIn _ _ _ _ _ | .ringOut _ _ _ _ _ => s.completeRing p.val x
      | _ => if s.workDone p.val x then s.complete p.val x else s
    | none => s)

end Sys2Proof.Machine
end

