-- ==== Sys2Proof/Machine/Security.lean ====
section
/-! DEFINITION. The security domain (R436–R459): attestation reports, key release, sealed loads, slots, the fused SVN, host DMA, self-tests
and link IDE. -/
namespace Sys2Proof.Machine

/-- The 32-bit word that a page's fields form at an offset, out of what they hold. -/
def State.fieldsWord (s : State) (pg : Page) (off : Nat) : Nat :=
  (pg.ownFields.filter (fun f => f.off == off)).foldl (fun (a : Nat) f => a + s.rd pg f * 2 ^ f.lo) 0 % 2 ^ 32

/-! The attestation report (R441, R443–R445) -/

/-- The firmware measurement that a report carries: zeros where no acceptable image was found (R440). -/
def State.measurement (s : State) : List Byte :=
  if s.on .pwr PWR_INSTAR_stalled && s.rd .pwr PWR_INSTAR_cause == 1 then List.replicate 32 0 else slice Config.firmwareMeasurement 0 32

/-- The bindings of a report: THX_SEQ_CTX.valid above ctx for each partition (R444). -/
def State.bindings (s : State) : Nat :=
  (List.range 8).foldl (fun (a : Nat) p =>
    a + 2 ^ (4 * p) * (8 * s.rd (.thx p) THX_SEQ_CTX_valid + s.rd (.thx p) THX_SEQ_CTX_ctx)) 0

/-- The challenge in SEC_CHAL. -/
def State.challenge (s : State) : List Byte := (List.range 8).flatMap (fun i => leBytes 4 (s.rd .sec (SEC_CHAL_chal i)))

/-- Bytes 0x000–0x767 of a report (R444). -/
def State.reportBody (s : State) (chal : List Byte) : List Byte :=
  leBytes 4 1 ++ leBytes 4 0x1C30 ++ leBytes 8 s.security.rptSeq ++ leBytes 8 s.now ++ leBytes 8 (Config.serial % 2 ^ 48) ++
  slice (Config.shake256 (Config.xmssPublic 0) 32) 0 32 ++ s.measurement ++ leBytes 4 Config.fwVersion ++
  leBytes 4 (s.rd .sec SEC_FW_fused_svn + 256 * s.rd .sec SEC_FW_image_svn) ++ leBytes 8 (s.rd .mgt HDR_FEATURE_EN) ++
  leBytes 4 (s.fieldsWord .sec 0x100) ++ leBytes 4 (s.fieldsWord .pwr PWR_INSTAR_instar.off) ++ leBytes 8 0 ++ slice chal 0 32 ++
  leBytes 4 s.bindings ++ List.replicate 92 0 ++ slice (Config.mlkemPublic s.security.bootKey) 0 1568 ++
  slice (Config.xmssPublic (1 + s.security.attIndex)) 0 68 ++ leBytes 4 s.security.attIndex

/-- A report of 7,216 bytes over a challenge (R444): the identity key is number 0, the attestation key is numbered by its index. -/
def State.reportBytes (s : State) (chal : List Byte) : List Byte :=
  let b := s.reportBody chal
  let b := b ++ slice (Config.xmssSign 0 s.security.attIndex (slice b 0x18 0x50 ++ slice b 0x100 0x668)) 0 2820
  b ++ slice (Config.xmssSign (1 + s.security.attIndex) (1024 - s.rd .sec SEC_RPT_CTL_att_left) b) 0 2500

/-- R443: the attestation key has a signature left, or a new key is minted for the request. -/
def State.readyKey (s : State) : Option State := if s.rd .sec SEC_RPT_CTL_att_left = 0 then s.mintKey else some s

/-- R443–R445: sign a report; its hash is kept with those of the last 16. None where no key can be minted. -/
def State.signReport (s : State) (chal : List Byte) : Option (List Byte × State) :=
  s.readyKey.map (fun (t : State) =>
    let l := t.reportBytes chal
    let t := t.wr .sec SEC_RPT_CTL_att_left (t.rd .sec SEC_RPT_CTL_att_left - 1)
    let t := t.modSecurity (fun x =>
      { x with reports := (x.reports ++ [(x.rptSeq, slice (Config.shake256 l 32) 0 32)]).drop (x.reports.length + 1 - 16)
               rptSeq := x.rptSeq + 1 })
    (l, t.bump .sec 0))

/-- R445: a report over SEC_CHAL is signed and written to the host; without a key or a host it is still requested. -/
def State.serveReport (s : State) : State :=
  let s := s.wr .sec SEC_RPT_CTL_go 1
  if !s.linkUp then s
  else
    match s.signReport s.challenge with
    | some (l, t) =>
      ((t.setHostBytes (t.rd .sec SEC_RPT_ADDR_value) l).wrAll .sec [(SEC_RPT_CTL_go, 0), (SEC_RPT_CTL_done, 1)]).raise .sec
        SEC_INT_report_done
    | none => s

/-- REPORT_REQUEST (R445): answered from Instar 0 onward. -/
def execReportRequest (s : State) : Host.Outcome State Fault Refusal := .next (if s.alive then s.serveReport else s)

/-! Key release (R448, R449) -/

/-- A key release message's fields (R448). -/
structure Release where
  slot  : Nat
  usage : Nat
  ctx   : Nat
  seq   : Nat
  grant : Grant
  deriving DecidableEq, Repr

/-- Read a key release message. -/
def readRelease (l : List Byte) : Release :=
  let w := leAt l 4 4
  { slot := bits w 0 8, usage := bits w 8 2, ctx := bits w 12 3, seq := leAt l 8 8
    grant := { mask := bits w 16 8, inBase := leAt l 0x10 8, inSize := leAt l 0x18 8, outBase := leAt l 0x20 8, outSize := leAt l 0x28 8 } }

/-- Whether a grant's regions are in order (R448, R449): aligned, within the mask's partitions, and apart. -/
def grantOk (g : Grant) : Bool :=
  let ps := (List.range 8).filter (bit g.mask)
  [g.inBase, g.inSize, g.outBase, g.outSize].all (fun v => v % 0x20_0000 == 0) && rangeIn ps g.inBase g.inSize &&
  rangeIn ps g.outBase g.outSize && !overlaps g.inBase g.inSize g.outBase g.outSize

/-- Steps 1 to 4 of R449: the wrapped key, or the result that refuses the release. -/
def State.unwrapKey (s : State) (l : List Byte) : Nat × List Byte :=
  match s.security.reports.find? (fun e => e.1 == (readRelease l).seq) with
  | none => (2, [])
  | some (_, h) =>
    let ss := Config.mlkemDecaps s.security.bootKey (slice l 0x30 1568)
    let kw := slice (Config.shake256 (ss ++ h ++ slice l 0 0x30) 32) 0 32
    match Config.gcmOpen kw (slice l 0x650 12) (slice l 0 0x30) (slice l 0x660 32) (slice l 0x680 16) with
    | some k => (0, slice k 0 32)
    | none => (3, [])

/-- Step 5 of R449: the first release to a context sets its grant, a later one must carry the same. None where it is refused. -/
def State.takeGrant (s : State) (r : Release) : Option State :=
  match s.grant? r.ctx with
  | some g => if g = r.grant then some s else none
  | none =>
    if grantOk r.grant then
      some ((s.modSecurity (fun x => { x with grants := mapIns x.grants r.ctx r.grant })).wrAll .sec
        [(SEC_GRANT_valid r.ctx, 1), (SEC_GRANT_mask r.ctx, r.grant.mask)])
    else none

/-- Step 6 of R449: install the key in its slot; none where a valid slot is bound to another context. -/
def State.installKey (s : State) (r : Release) (key : List Byte) : Option State :=
  if (s.slot? r.slot).any (fun k => k.ctx != r.ctx) then none
  else
    some (s.modSecurity (fun x =>
      { x with slots := mapIns x.slots r.slot { usage := r.usage, ctx := r.ctx, key := key }
               epochs := mapSet 0 x.epochs r.slot (mapGet 0 x.epochs r.slot + 1) }))

/-- R449: what a release does once its message is read: its result, and the state. -/
def State.release (s : State) (l : List Byte) : Nat × State :=
  let u := s.unwrapKey l
  let r := readRelease l
  if u.1 ≠ 0 then (u.1, s)
  else match s.takeGrant r with
    | none => (4, s)
    | some t =>
      match t.installKey r u.2 with
      | none => (5, t)
      | some t => (0, t.wr .sec SEC_KR_CTL_slot r.slot)

/-- R449, R516: process a key release: result 0x1 while confidential operation is not offered, 0x2 where the host cannot be read. -/
def State.serveRelease (s : State) : State :=
  let r := if !bit s.features 3 then (1, s)
    else if !s.linkUp then (2, s)
    else s.release (s.hostBytes (s.rd .sec SEC_KR_ADDR_value) 1680)
  let t := r.2.wrAll .sec [(SEC_KR_CTL_go, 0), (SEC_KR_CTL_done, 1), (SEC_KR_CTL_result, r.1)]
  (if r.1 = 0 then t else t.bump .sec 1).raise .sec SEC_INT_release_done

/-- KEY_RELEASE (R449). -/
def execKeyRelease (s : State) : Host.Outcome State Fault Refusal := .next (if s.alive then s.serveRelease else s)

/-! Sealed loads (R454) -/

/-- The partitions bound to a context (R279). -/
def State.partsOf (s : State) (c : Nat) : List Nat := (List.range 8).filter (fun p => s.ctx? p == some c)

/-- R454: a load's result, and the state with its plaintext written where it is accepted. -/
def State.load (s : State) (slot : Nat) : Nat × State :=
  match s.slot? slot with
  | none => (1, s)
  | some k =>
    match (if k.usage = 3 then s.grant? k.ctx else none) with
    | none => (1, s)
    | some g =>
      let src := s.rd .sec SEC_LOAD_SRC_value
      if !inside src 64 g.inBase g.inSize then (2, s)
      else if s.poisonedIn src 64 then (5, s)
      else
        let h := s.bytes src 64
        let dst := leAt h 0 8
        let len := leAt h 8 8
        if len = 0 ∨ len % 64 ≠ 0 ∨ 32 * 2 ^ 20 < len then (6, s)
        else if !inside (src + 64) len g.inBase g.inSize then (2, s)
        else if dst % 64 ≠ 0 || !rangeIn (s.partsOf k.ctx) dst len || overlaps dst len g.inBase g.inSize ||
            overlaps dst len g.outBase g.outSize then (3, s)
        else if s.poisonedIn (src + 64) len then (5, s)
        else match Config.gcmOpen k.key (slice h 0x10 12) (slice h 0 16) (s.bytes (src + 64) len) (slice h 0x20 16) with
          | some l => (0, s.put dst (slice l 0 len))
          | none => (4, s)

/-- R454: run a sealed load under a slot. -/
def State.serveLoad (s : State) (slot : Nat) : State :=
  let r := s.load slot
  let t := r.2.wrAll .sec [(SEC_LOAD_CTL_go, 0), (SEC_LOAD_CTL_done, 1), (SEC_LOAD_CTL_result, r.1), (SEC_LOAD_CTL_slot, slot)]
  (if r.1 = 0 then t else t.bump .sec 2).raise .sec SEC_INT_load_done

/-- SEALED_LOAD (R454): a write of 1 to SEC_LOAD_CTL.go with the load slot. -/
def execSealedLoad (slot : BitVec 8) (s : State) : Host.Outcome State Fault Refusal :=
  .next (if s.alive then s.serveLoad slot.toNat else s)

/-! Slots and the SVN (R450, R440) -/

/-- R450: clear a slot: no operation that uses it is in flight between two commands. -/
def State.clearSlot (s : State) (slot : Nat) : State :=
  (s.modSecurity (fun x => { x with slots := mapDel x.slots slot })).wrAll .sec [(SEC_SLOT_CLR_go, 0), (SEC_SLOT_CLR_slot, slot)]

/-- SLOT_CLEAR (R450). -/
def execSlotClear (slot : BitVec 8) (s : State) : Host.Outcome State Fault Refusal :=
  .next (if s.alive then s.clearSlot slot.toNat else s)

/-- R440: blow SVN fuses up to the image SVN of the running firmware. -/
def State.commitSvn (s : State) : State :=
  let v := max s.security.fuseSvn (s.rd .sec SEC_FW_image_svn)
  (s.modSecurity (fun x => { x with fuseSvn := v })).wrAll .sec [(SEC_FW_fused_svn, v), (SEC_FW_commit_svn, 0)]

/-- COMMIT_SVN (R440). -/
def execCommitSvn (s : State) : Host.Outcome State Fault Refusal := .next (if s.alive then s.commitSvn else s)

/-! Host DMA (R436, R437, R367) -/

/-- Whether every byte of a range lies in device memory that the host can reach: mapped, and of partitions neither failed nor in reset. -/
def State.dmaMapped (s : State) (a n : Nat) : Bool :=
  rangeIn (s.workingParts.filter (fun p => !s.resetting.contains p)) a n

/-- Whether a range touches a partition's memory. -/
def touches (p a n : Nat) : Bool :=
  overlaps a (max n 1) (p * hbmSize) hbmSize || overlaps a (max n 1) (storeBase + p * 0x400_0000) 0x300_0000

/-- R436: whether confidential mode admits a host access: in the memory of a bound partition a write lies inside its context's ingress region
and a read inside its egress region. -/
def State.dmaAllowed (s : State) (write : Bool) (a n : Nat) : Bool :=
  !s.on .sec SEC_MODE_confidential ||
  s.boundParts.all (fun p => !touches p a n ||
    match (s.ctx? p).bind s.grant? with
    | some g => if write then inside a n g.inBase g.inSize else inside a n g.outBase g.outSize
    | none => false)

/-- Whether host traffic reaches the module: the host interface is up and PERST_N is high (R426, R503). -/
def State.hostReach (s : State) : Bool := s.alive && s.power.running && !s.perstLow

/-- HOST_DMA (R436, R367): a host write to device memory, or a read of `data.length` bytes, which are the answer; a refused or unmapped
read is an Unsupported Request and answers nothing. -/
def execHostDma (write : Bool) (addr : BitVec 41) (data : List Byte) (poisoned : Bool) (s : State) :
    Host.Outcome State Fault Refusal :=
  .next (
    if !s.hostReach then s
    else
      let a := addr.toNat
      let n := data.length
      let s := { s.progress .hif with answer := [] }
      let s := if write && poisoned then (s.bump .hif 0).raise .hif HIF_INT_poison_rx else s
      if !s.dmaAllowed write a n then (s.bump .sec 4).raise .sec SEC_INT_dma_refused
      else if !s.dmaMapped a n then s
      else if write then s.store a data (if poisoned then granules a n else [])
      else
        let s := { s with answer := s.bytes a n }
        if s.poisonedIn a n then s.bump .hif 1 else s)

/-! Self-tests (R459) and link IDE (R458) -/

/-- R459: an engine pair fails: it is out of service until module reset, and each context bound to its partitions is terminated. -/
def State.pairFails (s : State) (k : Nat) : State :=
  let s := s.modSecurity (fun x => { x with failed := x.failed ||| 2 ^ k })
  let s := (s.setBit .sec SEC_MODE_engines_ok k false).bump .sec 5
  let s := s.each [2 * k, 2 * k + 1] (fun s p => s.terminate p (s.rd (.saf p) THX_POISON_STATUS_point))
  s.raise .sec SEC_INT_selftest_fail

/-- R459: a port cipher core fails: its port is down and failed. -/
def State.cipherFails (s : State) (i : Nat) : State := ((s.portDown i 3).bump .sec 5).raise .sec SEC_INT_selftest_fail

/-- SELF_TEST (R459): the engine pairs and port cipher cores have run their tests or compared an output; a bit of 0 fails the unit, which
must be in service. -/
def execSelfTest (pairsOk : BitVec 4) (portsOk : BitVec 8) (s : State) : Host.Outcome State Fault Refusal :=
  .next (
    if !s.alive then s
    else
      let s := s.each ((List.range 4).filter (fun k => !bit pairsOk.toNat k && bit (s.rd .sec SEC_MODE_engines_ok) k)) State.pairFails
      s.each ((List.range 8).filter (fun i => !bit portsOk.toNat i && s.rd (.port i) FAB_PORT_STATE_link != 3)) State.cipherFails)

/-- IDE_KM_MESSAGE (R458): the keys of the link's IDE stream are set, where FEATURE_EN bit 9 enables it. The message's body is not
interpreted. -/
def execIdeKmMessage (_body : List Byte) (s : State) : Host.Outcome State Fault Refusal :=
  .next (
    if s.hostReach && s.feature 9 then
      ((s.modSecurity (fun x => { x with ideKey := true })).wr .sec SEC_MODE_ide 1).wr .hif HIF_LINK_ide 1
    else s)

end Sys2Proof.Machine
end

