-- ==== Sys2Proof/Machine/Pmc.lean ====
section
/-! DEFINITION. The performance monitor (R463–R474): slots, wraps, live reads, snapshots and tag records. -/
namespace Sys2Proof.Machine

/-! Slots (R463–R466) -/

/-- How many instances a source type has in its place, 0 for a reserved type (R464). -/
def sourceCount (ty : Nat) : Nat :=
  match ty with
  | 0 => 26
  | 1 => 9
  | 4 => 32
  | 5 => 8
  | 2 | 3 | 6 | 7 => 1
  | _ => 0

/-- The occupancy events (R464). -/
def occupancyEvent (ty ev : Nat) : Bool :=
  match ty with
  | 0 => ev == 4 || ev == 5
  | 1 => ev == 3 || ev == 4
  | 2 => decide (2 ≤ ev ∧ ev ≤ 5)
  | 3 => ev == 2
  | 4 => ev == 3
  | 5 => ev == 3
  | _ => false

/-- The count events (R464), event 0x00 of every type with a clock among them. -/
def countEvent (ty ev : Nat) : Bool :=
  match ty with
  | 0 => decide (ev ≤ 3)
  | 1 => decide (ev ≤ 2) || ev == 5
  | 2 => decide (ev ≤ 1)
  | 3 => decide (ev ≤ 1)
  | 4 => decide (ev ≤ 2)
  | 5 => decide (ev ≤ 2) || ev == 4
  | 6 => decide (ev ≤ 2)
  | 7 => decide (1 ≤ ev ∧ ev ≤ 4)
  | _ => false

/-- Whether a mode is allowed for an event (R465). -/
def modeAllowed (ty ev mode : Nat) : Bool :=
  match mode with
  | 0 => countEvent ty ev || occupancyEvent ty ev
  | 1 | 2 => occupancyEvent ty ev
  | _ => false

/-- The source instance that a slot's configuration names: types 0x5 and 0x6 ignore the partition (R464). -/
def State.slotSource (s : State) (n : Nat) : Nat × Nat × Nat :=
  let ty := s.rd .pmc (PMC_SLOT_CFG_type n)
  (ty, if ty = 5 ∨ ty = 6 then 0 else s.rd .pmc (PMC_SLOT_CFG_partition n), s.rd .pmc (PMC_SLOT_CFG_instance n))

/-- Whether a slot has a counter of its source: it counts, or starts at the next tick edge. -/
def State.slotBound (s : State) (n : Nat) : Bool := s.rd .pmc (PMC_SLOT_STATUS_state n) == 1 || (s.counter n).starting

/-- R463: whether a slot's configuration binds: the instance, event and mode exist, and its source has a counter left of 4. -/
def State.slotOk (s : State) (n : Nat) : Bool :=
  let ty := s.rd .pmc (PMC_SLOT_CFG_type n)
  decide (s.rd .pmc (PMC_SLOT_CFG_instance n) < sourceCount ty) &&
  modeAllowed ty (s.rd .pmc (PMC_SLOT_CFG_event n)) (s.rd .pmc (PMC_SLOT_CFG_mode n)) &&
  decide (((List.range 64).filter (fun m => m != n && s.slotBound m && s.slotSource m == s.slotSource n)).length < 4)

/-- R466: stop a slot, clear it, and bind it anew where it is enabled; a snapshot that is pending reads 0 for it (R473). -/
def State.bindSlot (s : State) (n : Nat) : State :=
  let s := s.modCounter n (fun c =>
    { Counter.reset with snap := if s.on .pmc PMC_SNAP_go then 0 else c.snap
                         snapWraps := if s.on .pmc PMC_SNAP_go then 0 else c.snapWraps })
  let s := s.wrAll .pmc [(PMC_SLOT_STATUS_wrapped n, 0), (PMC_SLOT_STATUS_interrupted n, 0), (PMC_SLOT_STATUS_state n, 0)]
  if s.on .pmc (PMC_SLOT_CFG_en n) then
    if s.slotOk n then s.modCounter n (fun c => { c with starting := true })
    else (s.wr .pmc (PMC_SLOT_STATUS_state n) 2).bump .pmc 0
  else s

/-- R466: a write to PMC_SLOT_CFG. -/
def State.writeSlotCfg (s : State) (n v : Nat) : State :=
  (s.wrAll .pmc [(PMC_SLOT_CFG_type n, bits v 28 4), (PMC_SLOT_CFG_partition n, bits v 25 3), (PMC_SLOT_CFG_instance n, bits v 16 9),
    (PMC_SLOT_CFG_event n, bits v 8 8), (PMC_SLOT_CFG_mode n, bits v 6 2), (PMC_SLOT_CFG_user n, bits v 5 1),
    (PMC_SLOT_CFG_en n, bits v 0 1)]).bindSlot n

/-- SLOT_CONFIGURE (R466). -/
def execSlotConfigure (n : Fin 64) (cfg : W32) (s : State) : Host.Outcome State Fault Refusal :=
  .next (if s.alive then s.writeSlotCfg n.val cfg.toNat else s)

/-- R466: at a tick edge the slots that were to start begin to count. -/
def State.startSlots (s : State) : State :=
  s.each ((List.range 64).filter (fun n => (s.counter n).starting)) (fun s n =>
    (s.modCounter n (fun c => { c with starting := false })).wr .pmc (PMC_SLOT_STATUS_state n) 1)

/-! Counting and wraps (R465, R467) -/

/-- R465, R467: a counting slot adds what its source has added since its last event; past 2^48 − 1 it goes on from 0 and its wrap is an
event. A slot that does not count adds nothing. -/
def State.addCount (s : State) (n added : Nat) : State :=
  if s.rd .pmc (PMC_SLOT_STATUS_state n) ≠ 1 || !s.on .pmc PMC_CTL_en then s
  else
    let v := (s.counter n).value.toNat + added
    let t := s.modCounter n (fun c => { c with value := BitVec.ofNat 48 v, wraps := if 2 ^ 48 ≤ v then min 255 (c.wraps + 1) else c.wraps })
    if 2 ^ 48 ≤ v then (t.wr .pmc (PMC_SLOT_STATUS_wrapped n) 1).raise .pmc PMC_INT_wrap else t

/-- COUNTER_WRAP (R467). -/
def execCounterWrap (n : Fin 64) (added : BitVec 48) (s : State) : Host.Outcome State Fault Refusal :=
  .next (s.ranked (.counterWrap n added) (s.addCount n.val added.toNat))

/-! Reading (R468, R469) -/

/-- Latch the upper word of a 64-bit register for a requester (R480). -/
def State.latch (s : State) (req key upper : Nat) : State :=
  { s with latch64 := (req, key, upper) :: s.latch64.filter (fun e => e.1 != req || e.2.1 != key) }

/-- R468: the low word of PMC_SLOT_VAL is read and bits [47:32] are latched for the requester; `key` is the register's place in BAR0 in
bits. -/
def State.readCounter (s : State) (req n : Nat) : State :=
  let v := (s.counter n).value.toNat
  ({ s with answer := leBytes 4 v } : State).latch req (regKey .pmc (PMC_SLOT_VAL_value n)) (v / 2 ^ 32)

/-- LIVE_READ (R468): a read of the low word of a slot's PMC_SLOT_VAL. -/
def execLiveRead (req : Nat) (n : Fin 64) (added : BitVec 48) (s : State) : Host.Outcome State Fault Refusal :=
  .next (if s.hostReach then (s.addCount n.val added.toNat).readCounter req n.val else s)

/-- R469: ask for a snapshot; one that is pending is joined. -/
def State.askSnapshot (s : State) : State := s.wrAll .pmc [(PMC_SNAP_go, 1), (PMC_SNAP_done, 0)]

/-- SNAPSHOT (R469): a write of 1 to PMC_SNAP.go. -/
def execSnapshot (s : State) : Host.Outcome State Fault Refusal := .next (if s.alive then s.askSnapshot else s)

/-- R472: a write of 1 to PMC_U_SNAP.go, which acts as PMC_SNAP.go while user_en is 1; it needs FEATURE_EN bit 12 (R284). -/
def State.askUserSnapshot (s : State) : State :=
  if s.feature 12 && s.on .pmc PMC_CTL_user_en then { s.askSnapshot with userGo := true } else s

/-- USER_SNAPSHOT (R472). -/
def execUserSnapshot (s : State) : Host.Outcome State Fault Refusal := .next (if s.alive then s.askUserSnapshot else s)

/-- SNAPSHOT_LATCH (R469): the tick edge at which a pending snapshot latches every counting slot, and its completion. -/
def execSnapshotLatch (added : List (Fin 64 × BitVec 48)) (s : State) : Host.Outcome State Fault Refusal :=
  .next (
    if s.on .pmc PMC_SNAP_go then
      let s := added.foldl (fun s e => s.addCount e.1.val e.2.toNat) s
      let s := s.each ((List.range 64).filter (fun n => s.rd .pmc (PMC_SLOT_STATUS_state n) == 1)) (fun s n =>
        s.modCounter n (fun c => { c with snap := c.value, snapWraps := c.wraps }))
      let s := s.wrAll .pmc [(PMC_SNAP_TICK_tick, s.now), (PMC_SNAP_go, 0), (PMC_SNAP_done, 1)]
      ({ s with userGo := false } : State).raise .pmc PMC_INT_snap_done
    else s)

/-- R474: PMC_CTL.clear_all acts as a CFG write with en unchanged on every slot. -/
def State.clearSlots (s : State) : State := (s.each (List.range 64) State.bindSlot).wr .pmc PMC_CTL_clear_all 0

/-- CLEAR_ALL (R474). -/
def execClearAll (s : State) : Host.Outcome State Fault Refusal := .next (if s.alive then s.clearSlots else s)

/-- R471: PMC_TAG_CTL.drain empties the record buffer. -/
def State.drainTags (s : State) : State :=
  ({ s with records := [] } : State).wrAll .pmc [(PMC_TAG_STATUS_count, 0), (PMC_TAG_STATUS_full, 0), (PMC_TAG_CTL_drain, 0)]

/-- TAG_DRAIN (R471). -/
def execTagDrain (s : State) : Host.Outcome State Fault Refusal := .next (if s.alive then s.drainTags else s)

end Sys2Proof.Machine
end

