-- ==== Sys2Proof/Machine/Registers.lean ====
section
/-! DEFINITION. The register space (R477–R496): what a read of a register shows, what a write of one does, how PCIe transactions are split,
latches and holds of 64-bit registers, and the SMBus path (R485, R507). -/
namespace Sys2Proof.Machine

/-! Pages that answer in part (R29, R484) -/

/-- STATUS.state of a partition's pages: 0 running, 1 in reset or starting, 2 off, 3 failed (R486). -/
def State.partPage (s : State) (p : Nat) : Nat :=
  match s.rd (.part p) MGT_PT_STATE_state with
  | 0 => 2
  | 1 => 1
  | 2 => 0
  | _ => 3

/-- STATUS.state of a wing's pages (R79). -/
def State.wingPage (s : State) (p w : Nat) : Nat :=
  if s.rd (.wing p w) WNG_STATE_power = 3 ∨ s.rd (.wing p w) WNG_STATE_role = 0xE then 3
  else if s.rd (.wing p w) WNG_STATE_power = 0 then 2
  else if s.stopped (isWing p w) then 1
  else 0

/-- STATUS.state of a page inside a partition, where the partition itself answers. -/
def State.innerPage (s : State) (pg : Page) : Nat :=
  match pg with
  | .cluster p c =>
    let role := s.rd pg THX_STATE_role
    if role = 0x1D ∨ role = 0x1E then 3
    else if s.stopped (isCluster p c) then 1
    else 0
  | .chan p ch =>
    if s.on pg THX_HBM_STATE_failed then 3
    else if s.stopped (isChannel p ch) then 1
    else 0
  | .wing p w | .bank p w _ | .scl p w => s.wingPage p w
  | _ => 0

/-- STATUS.state of a page (R486). -/
def State.pageState (s : State) (pg : Page) : Nat :=
  match pg with
  | .port i => if !s.pairOn i then 2 else if s.rd pg FAB_PORT_STATE_link = 3 then 3 else 0
  | _ =>
    match pg.partition? with
    | some p => if s.partPage p ≠ 0 then s.partPage p else s.innerPage pg
    | none => 0

/-- The registers that a page keeps answering while its block is off, in reset or failed (R484), beside the header. -/
def answersAlways (pg : Page) (off : Nat) : Bool :=
  decide (off < 0x100) ||
  match pg with
  | .wing _ _ => off == 0x100 || off == 0x104
  | .cluster _ _ | .chan _ _ => off == 0x100
  | .port _ => off == 0x104
  | .part _ => off == 0x100 || off == 0x108 || off == 0x10C
  | _ => false

/-- Whether a register of a page answers and takes writes now. -/
def State.answers (s : State) (pg : Page) (off : Nat) : Bool := s.pageState pg == 0 || answersAlways pg off

/-! What a field shows -/

/-- A word of the interrupt map (R489). -/
def State.intMap (s : State) (k : Nat) : Nat :=
  ((s.armedPages.filter (fun pg => pg.mapIndex / 32 == k && s.pends pg)).map (fun pg => pg.mapIndex % 32)).foldl
    (fun (a : Nat) b => a ||| 2 ^ b) 0

/-- The physical scale that LAD_PROBE_SEL names (R119): partition, wing, bank, scale. -/
def State.probed? (s : State) (p : Nat) : Option Scale :=
  let b := s.rd (.lad p) LAD_PROBE_SEL_bank
  match s.physWing? p (s.rd (.lad p) LAD_PROBE_SEL_wing) with
  | some w => (s.physScale? p w b (s.rd (.lad p) LAD_PROBE_SEL_scale)).map (fun sc => s.scale p w b sc)
  | none => none

/-- The scale that CAL_PROBE_SEL names (R401), with its key; none outside the wings and scales. -/
def State.calProbe? (s : State) (p : Nat) : Option (Nat × Nat × Scale) :=
  let w := s.rd (.cal p) CAL_PROBE_SEL_wing
  let b := s.rd (.cal p) CAL_PROBE_SEL_bank
  let sc := s.rd (.cal p) CAL_PROBE_SEL_scale
  if w < 9 ∧ sc < 528 then some (w, scaleKey p w b sc, s.scale p w b sc) else none

/-- Whether a trim of a scale or of its wing is short of its target (R397). -/
def Scale.moving (x : Scale) : Bool :=
  x.ladder.applied != x.ladder.target || x.pulse.applied != x.pulse.target ||
  x.gains.any (fun e => e.2.applied != e.2.target) || x.offsets.any (fun e => e.2.applied != e.2.target)

/-- CAL_APPLY.scales (R401): every scale of a wing whose reference moves, and the scales with a trim of their own that does. -/
def State.movingScales (s : State) (p : Nat) : Nat :=
  let moving := (List.range 9).filter (fun w => (s.wing p w).refApplied != (s.wing p w).refTarget)
  moving.length * 16896 +
  ((s.listedScales p).filter (fun e => !moving.contains e.1 && (s.scale p e.1 e.2.1 e.2.2).moving)).length

/-- R326: the collectives in flight over all partitions, flag rounds among them (R304). -/
def State.collsBusy (s : State) : Nat := (List.range 8).foldl (fun n p => n + s.collsOf p) 0

/-- R284: the feature that a register's function needs, if it needs one. -/
def featureOf (pg : Page) (f : Field) : Option Nat :=
  match pg with
  | .port _ | .fabG => if 0x100 ≤ f.off then some 4 else none
  | .hch _ => if 0x138 ≤ f.off ∧ f.off < 0x158 then some 8 else none
  | .pmc => if f = PMC_CTL_user_en then some 12 else none
  | .lad _ => if f = LAD_CTL_mode then some 1 else none
  | _ => none

/-- R284: whether a field reads as 0 and ignores writes, since the feature that it needs is not enabled. -/
def State.fieldOff (s : State) (pg : Page) (f : Field) : Bool :=
  match featureOf pg f with
  | some n => !s.feature n
  | none => false

/-- A field of a page whose value is formed as it is read. -/
def State.viewGlobal (s : State) (pg : Page) (f : Field) : Option Nat :=
  match pg with
  | .mgt =>
    if f = HDR_FEATURES then some s.features
    else if f = MGT_TICK_tick then some s.now
    else if 0xC00 ≤ f.off ∧ f.off < 0xE40 then some (s.intMap ((f.off - 0xC00) / 4))
    else none
  | .sec =>
    let n := s.rd .sec SEC_SLOT_SEL_slot
    if f = SEC_SLOT_INFO_valid then some (flag (s.slot? n).isSome)
    else if f = SEC_SLOT_INFO_usage then some ((s.slot? n).map KeySlot.usage |>.getD 0)
    else if f = SEC_SLOT_INFO_ctx then some ((s.slot? n).map KeySlot.ctx |>.getD 0)
    else if f = SEC_SLOT_INFO_epoch then some (s.slotEpoch n)
    else none
  | .pmc =>
    if 0x400 ≤ f.off ∧ f.off < 0xC00 then
      let c := s.counter ((f.off - 0x400) / 32)
      if f.off % 32 = 0x10 then some c.value.toNat
      else if f.off % 32 = 0x18 then some c.snap.toNat
      else if f.off % 32 = 8 ∧ f.lo = 0 then some c.wraps
      else if f.off % 32 = 8 ∧ f.lo = 8 then some c.snapWraps
      else none
    else if 0x200 ≤ f.off ∧ f.off < 0x240 then
      some ((s.records.getD (s.rd .pmc PMC_TAG_SEL) []).getD ((f.off - 0x200) / 4) 0)
    else none
  | .port i => if f.off = 0x11C then some (min 255 ((s.port i).credits.getD (f.lo / 8) 0 / 32)) else none
  | .fabG =>
    if f = FAB_G_STATUS_busy then some (flag (s.collsBusy != 0))
    else if f = FAB_G_STATUS_in_flight then some s.collsBusy
    else none
  | _ => none

/-- The same for a page of a partition: sequencer, recompute queue, seatings and probes. -/
def State.viewPart (s : State) (pg : Page) (f : Field) : Option Nat :=
  match pg with
  | .lad p =>
    match s.probed? p with
    | some x =>
      if f = LAD_PROBE_BAND_sigma_c then some x.sigmaC.toNat
      else if f = LAD_PROBE_BAND_rho then some x.rho.toNat
      else if f = LAD_PROBE_MON_pinned then some (flag x.pinned)
      else if f = LAD_PROBE_MON_n then some x.mon.n
      else none
    | none => none
  | .thx p =>
    let q := (s.part p).seq
    if f = THX_SEQ_STATUS_state then
      some (if s.rd pg f = 3 then 3 else if s.on pg THX_SEQ_CTL_run then 1 else if q.inflight.isEmpty then 0 else 2)
    else if f = THX_SEQ_STATUS_in_flight then some q.inflight.length
    else if f = THX_SEQ_FENCE_value then some (s.fence p (s.rd pg THX_SEQ_FENCE_SEL_fence))
    else if f = THX_ABFT_STATUS_busy then some (flag (!(s.part p).recompute.isEmpty || !(s.part p).retiring.isEmpty))
    else if f = THX_ABFT_STATUS_pending then some (s.part p).recompute.length
    else none
  | .upd p =>
    if f = UPD_RS_STATUS_busy then some (flag !(s.part p).seats.isEmpty)
    else if f = UPD_RS_STATUS_pending then some (((s.part p).seats.filter (fun t => t.kind == .commit)).map (fun t => (t.lw, t.bank, t.ls))).eraseDups.length
    else none
  | .cal p =>
    if f = CAL_APPLY_scales then some (s.movingScales p)
    else match s.calProbe? p with
      | some (w, key, x) =>
        let col := s.rd pg CAL_PROBE_SEL_column
        let o := mapGet Trim.reset x.offsets col
        let g := mapGet Trim.reset x.gains col
        if f = CAL_PROBE_CONV_offset then some (unsigned 8 o.applied)
        else if f = CAL_PROBE_CONV_gain then some (unsigned 8 g.applied)
        else if f = CAL_PROBE_CONV_offset_tgt then some (unsigned 8 o.target)
        else if f = CAL_PROBE_CONV_gain_tgt then some (unsigned 8 g.target)
        else if f = CAL_PROBE_SCALE_ladder then some (unsigned 10 x.ladder.applied)
        else if f = CAL_PROBE_SCALE_pulse then some (unsigned 10 x.pulse.applied)
        else if f = CAL_PROBE_SCALE_wing_ref then some (unsigned 12 (s.wing p w).refApplied)
        else if f = CAL_PROBE_NOISE_sigma_c then some x.sigmaC.toNat
        else if f = CAL_PROBE_NOISE_sigma_n then
          some (if (mapFind x.noise col).isSome || s.on (.wing p w) WNG_STATE_calibrated then x.noiseOf key col else 0)
        else none
      | none => none
  | _ => none

/-- The same for a cluster page (R177, R200) and a scale access page: where SCL_SELECT names no scale every other SCL_ field reads 0 (R83),
while SCL_SELECT shows what was written (DESIGN CHOICE, log entry 78). -/
def State.viewUnit (s : State) (pg : Page) (f : Field) : Option Nat :=
  match pg with
  | .cluster p c =>
    let x := s.cluster p c
    let held := (s.part p).retiring.any (fun r => s.physCluster p r.logical == c)
    let waits := fun (t : ThreadState) => match t with | .memWait => true | .engWait _ => true | _ => false
    if f = THX_THREADS_ready then some (if held then 0 else x.readyThreads.length)
    else if f = THX_THREADS_waiting then some (if held then 0 else (x.threads.filter (fun t => waits t.2.st)).length)
    else if f = THX_THREADS_live then some x.threads.length
    else if f = THX_OUTSTANDING_requests then some x.mover.length
    else if f = THX_ABFT_DET_in_window then
      some (x.detections.filter (fun d => decide (s.now ≤ d + 2 ^ min 30 (s.rd (.thx p) THX_ABFT_CTL_window)))).length
    else if f = THX_WB_USE_blocks then some x.blocksUsed
    else if f = VEC_STATUS_busy then some (flag (x.vecQ.any (fun v => v.ran)))
    else if f = VEC_STATUS_queued then some x.vecQueued
    else if f = VEC_STATUS_thread then some (((x.vecQ.find? (fun v => v.ran)).map VecItem.thread).getD 0)
    else none
  | .scl p w =>
    match s.selected? p w with
    | some (b, sc) =>
      let x := s.scale p w b sc
      let col := fun (n : Nat) => x.colmap.getD n (0, 0)
      if f = SCL_STATE_logical then some x.logical
      else if f = SCL_STATE_gain then some x.gain
      else if f = SCL_STATE_role then some x.role
      else if 0x108 ≤ f.off ∧ f.off < 0x114 then
        let n := 2 * ((f.off - 0x108) / 4) + f.lo / 16
        some (if f.width = 2 then (col n).1 else (col n).2)
      else if f = SCL_DISABLED_count then some x.disabled.length
      else if f = SCL_WEAR_wear then some x.wear
      else none
    | none => if f.off ≤ SCL_SELECT_scale.off then none else some 0
  | _ => none

/-- What a read of a field shows: STATUS.state, a value formed as it is read, or what the field holds. -/
def State.show (s : State) (pg : Page) (f : Field) : Nat :=
  if f = HDR_STATUS_state then s.pageState pg
  else if s.fieldOff pg f then 0
  else match s.viewGlobal pg f with
    | some v => v
    | none => match s.viewPart pg f with
      | some v => v
      | none => match s.viewUnit pg f with
        | some v => v
        | none => s.rd pg f

/-! Reads -/

/-- The part of a field's value that lies in the 32-bit word at a page offset. -/
def wordPart (f : Field) (o v : Nat) : Nat :=
  if f.off = o then v % 2 ^ f.width * 2 ^ f.lo % 2 ^ 32
  else if f.off + 4 = o then v % 2 ^ f.width * 2 ^ f.lo / 2 ^ 32 % 2 ^ 32
  else 0

/-- The user view page (R472). -/
def State.userWord (s : State) (o : Nat) : Nat :=
  if o = 0x104 then 2 ^ 31 * flag s.userGo + 2 ^ 30 * s.rd .pmc PMC_SNAP_done
  else if o = 0x108 then s.rd .pmc PMC_SNAP_TICK_tick % 2 ^ 32
  else if o = 0x10C then s.rd .pmc PMC_SNAP_TICK_tick / 2 ^ 32
  else if 0x400 ≤ o ∧ o < 0xC00 ∧ (o % 32 = 0x18 ∨ o % 32 = 0x1C) then
    let n := (o - 0x400) / 32
    if s.feature 12 && s.on .pmc PMC_CTL_user_en && s.on .pmc (PMC_SLOT_CFG_user n) then
      (if o % 32 = 0x18 then (s.counter n).snap.toNat % 2 ^ 32 else (s.counter n).snap.toNat / 2 ^ 32)
    else 0
  else 0

/-- The 32-bit word at an offset of a page. -/
def State.pageWord (s : State) (pg : Page) (o : Nat) : Nat :=
  if !s.answers pg o then 0
  else if pg = .pmcUser ∧ 0x100 ≤ o then s.userWord o
  else (if o < 0x100 then pg.headerFields else pg.ownFields).foldl (fun (a : Nat) f =>
    if f.off = o ∨ f.off + 4 = o then a + wordPart f o (s.show pg f) else a) 0

/-- The 32-bit word at an aligned BAR0 offset: a reserved offset reads 0 (R478). -/
def State.busWord (s : State) (off : Nat) : Nat :=
  match Page.at? off with
  | some pg => s.pageWord pg (off - pg.base)
  | none => 0

/-- Whether an offset of a page is the lower word of a 64-bit register that hardware changes (R480). -/
def wideRo (pg : Page) (o : Nat) : Bool :=
  (pg = .pmcUser && (o == 0x108 || (decide (0x400 ≤ o ∧ o < 0xC00) && o % 32 == 0x18))) ||
  ((if o < 0x100 then [HDR_FEATURES] else pg.ownFields).any (fun f => f.off == o && f.acc == .ro && decide (32 < f.lo + f.width)))

/-- R480: a 32-bit read by a requester. A lower word latches its upper word, which that requester's next read of it returns. -/
def State.busRead (s : State) (req off : Nat) : State :=
  match Page.at? off with
  | none => { s with answer := leBytes 4 0 }
  | some pg =>
    let o := off - pg.base
    if wideRo pg o then
      ({ s with answer := leBytes 4 (s.pageWord pg o) } : State).latch req (8 * off) (s.pageWord pg (o + 4))
    else if 4 ≤ o && wideRo pg (o - 4) then
      match s.latch64.find? (fun e => e.1 == req && e.2.1 == 8 * (off - 4)) with
      | some e => { s with answer := leBytes 4 e.2.2, latch64 := s.latch64.filter (fun e => e.1 != req || e.2.1 != 8 * (off - 4)) }
      | none => { s with answer := leBytes 4 (s.pageWord pg o) }
    else { s with answer := leBytes 4 (s.pageWord pg o) }

/-- An access of a wrong size or alignment (R479). -/
def State.accessFault (s : State) : State := (s.bump .mgt 0).raise .mgt MGT_INT_access_fault

/-- LOWER_WORD_READ (R480): a 32-bit read of BAR0 by a requester; what it returns is the answer. -/
def execLowerWordRead (req : Nat) (off : BitVec 28) (s : State) : Host.Outcome State Fault Refusal :=
  .next (
    if !s.hostReach then s
    else if off.toNat % 4 ≠ 0 then ({ s with answer := leBytes 4 0 } : State).accessFault
    else s.busRead req off.toNat)

/-! Writes -/

/-- Write one field as its access type says (R13): RW takes the value, W1C clears the bits written as 1, a counter clears under R377, and the
rest ignore it. -/
def State.writeField (s : State) (pg : Page) (v : Nat) (f : Field) : State :=
  if s.fieldOff pg f then s
  else match f.acc with
  | .rw => s.wr pg f (bits v f.lo f.width)
  | .w1c => s.wr pg f (s.rd pg f - (s.rd pg f &&& bits v f.lo f.width))
  | .cnt => s.clearCount pg f
  | _ => s

/-- The fields of the 32-bit register at an offset. -/
def fieldsAt (pg : Page) (o : Nat) : List Field :=
  ((if o < 0x100 then pg.headerFields else pg.ownFields).filter (fun f => f.off == o))

/-- Write every field of a 32-bit register. -/
def State.writePlain (s : State) (pg : Page) (o v : Nat) : State := (fieldsAt pg o).foldl (fun s f => s.writeField pg v f) s

/-- R326: whether the sizes of a system or a job box are in range. -/
def sizesOk (v : Nat) : Bool :=
  decide (1 ≤ bits v 0 8 ∧ bits v 0 8 ≤ 16 ∧ 1 ≤ bits v 8 8 ∧ bits v 8 8 ≤ 16) &&
  decide (1 ≤ bits v 16 8 ∧ bits v 16 8 ≤ 32 ∧ 1 ≤ bits v 24 8 ∧ bits v 24 8 ≤ 32)

/-- R309: whether FAB_G_CUT is written as a permutation of the four axes. -/
def cutOk (v : Nat) : Bool := (List.range 4).all (fun x => (List.range 4).any (fun c => bits v (2 * c) 2 == x))

/-- R489: rearm vectors: each whose group still pends sends at once. -/
def State.rearm (s : State) (vectors : Nat) : State :=
  s.each ((List.range 16).filter (fun v => bit vectors v && s.pendCount v != 0)) State.sendVector

/-- R494: a write to the MSI-X table: an entry's mask bit is bit 0 of its last word, and a vector that is unmasked while its pending bit is
set sends. -/
def State.writeMsix (s : State) (i v : Nat) : State :=
  if i % 4 = 3 then
    let s := s.wr .hif (HIF_MSIX i) (v % 2)
    if v % 2 = 0 ∧ s.on .hif (HIF_PBA (i / 4)) then (s.wr .hif (HIF_PBA (i / 4)) 0).emit (.msix (i / 4)) else s
  else s.wr .hif (HIF_MSIX i) (if i % 4 = 0 then v / 4 * 4 else v)

/-- R324: a write to FAB_PORT_CTL: a port that is disabled goes down, one that is enabled trains. -/
def State.writePortCtl (s : State) (i v : Nat) : State :=
  let pg : Page := .port i
  let down := !bit v 0 && (s.rd pg FAB_PORT_STATE_link == 1 || s.rd pg FAB_PORT_STATE_link == 2)
  let s := if down then s.portDown i 0 else s
  let s := (s.wrAll pg [(FAB_PORT_CTL_enable, bits v 0 1), (FAB_PORT_CTL_job_member, bits v 1 1)]).startTraining i
  if bit v 2 then s.retrain i else s

/-- Writes to the global pages whose effect is more than to hold a value. None: the register is plain. The cut and the job box stay while a
collective is in flight (R323); a change of the root drops the timing parent, which counts (R327). -/
def State.writeGlobal (s : State) (pg : Page) (o v : Nat) : Option State :=
  match pg with
  | .mgt => if o = 0x118 then some (if bit v 0 then s.moduleReset.bump .mgt 1 else s) else none
  | .pwr =>
    if o = 0x134 then
      let t := s.writePlain pg o v
      some (if s.power.steps.isEmpty then t.applyPower else t)
    else if o = 0x138 then some (s.writePlain pg o v).applyPower
    else if o = 0x170 then some (s.writePairs (bits v 0 4))
    else none
  | .sec =>
    if o = 0x104 then some (if bit v 31 then s.commitSvn else s)
    else if o = 0x10C then some (if bit v 31 then s.serveReport else s)
    else if o = 0x150 then some (if bit v 31 then s.serveRelease else s)
    else if o = 0x154 then some (if bit v 31 then s.serveLoad (bits v 0 8) else s.writePlain pg o v)
    else if o = 0x168 then some (if bit v 31 then s.clearSlot (bits v 0 8) else s.writePlain pg o v)
    else none
  | .msr => if 0x100 ≤ o ∧ o < 0x140 then some ((s.writePlain pg o v).rescan ((o - 0x100) / 16)) else none
  | .pmc =>
    if o = 0x100 then (let t := s.writePlain pg o v; some (if bit v 2 then t.clearSlots else t))
    else if o = 0x104 then some (if bit v 31 then s.askSnapshot else s)
    else if o = 0x120 then (let t := s.writePlain pg o v; some (if bit v 31 then t.drainTags else t))
    else if 0x400 ≤ o ∧ o < 0xC00 ∧ o % 32 = 0 then some (s.writeSlotCfg ((o - 0x400) / 32) v)
    else none
  | .pmcUser => some (if o = 0x104 ∧ bit v 31 then s.askUserSnapshot else s)
  | .hif =>
    if o = 0x108 then some (s.rearm (bits v 0 16))
    else if 0x800 ≤ o ∧ o < 0x900 then some (s.writeMsix ((o - 0x800) / 4) v)
    else none
  | .port i => if o = 0x100 then some (s.writePortCtl i v) else none
  | .fabG =>
    if o = 0x100 then some (if sizesOk v then s.writePlain pg o v else s)
    else if o = 0x108 then some (if s.collsBusy = 0 then s.writePlain pg o v else s)
    else if o = 0x10C then some (if sizesOk v && s.collsBusy == 0 then s.writePlain pg o v else s)
    else if o = 0x114 then some (if cutOk v && s.collsBusy == 0 then s.writePlain pg o v else s)
    else if o = 0x118 then some (if bit v 0 then s.emitToken s.jobStep else s)
    else if o = 0x130 then
      let was := s.rd pg FAB_G_TIME_CTL_root
      let t := s.writePlain pg o v
      let t := if t.rd pg FAB_G_TIME_CTL_root = was then t
        else (if t.rd pg FAB_G_TIME_STATUS_parent = 0xF then t else t.bump .fabG 4).setParent none
      some (if bit v 1 then t.realign else t)
    else none
  | _ => none

/-- The same for a partition's pages. -/
def State.writePart (s : State) (pg : Page) (o v : Nat) : Option State :=
  match pg with
  | .lad p =>
    if o = 0x100 then
      some (if s.feature 1 then s.writePlain pg o v else s.wr (.lad p) LAD_CTL_beta (bits v 16 16))
    else none
  | .thx p =>
    if o = 0x400 then
      some (if s.seqStopped p && s.featWritten && (!bit v 3 || s.bindGranted p (bits v 0 3)) then s.bindTo p (bit v 3) (bits v 0 3)
        else s.wr pg THX_SEQ_STATUS_bind_refused 1)
    else if o = 0x404 then
      let t := if bit v 1 then s.clearFences p else s
      some (t.writeRun p (bit v 0))
    else if 0x440 ≤ o ∧ o < 0x4C0 ∧ o % 32 = 8 then some (s.writeRingCfg p ((o - 0x440) / 32) v)
    else none
  | .hch p => if o = 0x15C then some (if bit v 0 then s.requestPartReset p else s) else none
  | .cal p =>
    if o = 0x104 then some (if bit v 31 then s.commandCal p (bits v 0 9) else s.writePlain pg o v)
    else none
  | .wing p w => if o = 0x10C then some ((s.writePlain pg o v).setRestoreRow p w) else none
  | .scl p w => if o = 0x120 then some (if bit v 31 then s.requestRow p w (bits v 0 10) else s.writePlain pg o v) else none
  | _ => none

/-- Pages whose block completes no units of work count the management actions applied through them (R488). -/
def countsActions (pg : Page) : Bool :=
  match pg with
  | .mgt | .clk | .pwr | .sec | .msr | .pmc | .fabG | .hch _ | .saf _ | .cal _ | .scl _ _ => true
  | _ => false

/-- A write to a register beside the header. -/
def State.writeOwn (s : State) (pg : Page) (o v : Nat) : State :=
  let t := match s.writeGlobal pg o v with
    | some t => t
    | none => match s.writePart pg o v with
      | some t => t
      | none => s.writePlain pg o v
  if countsActions pg && t.alive then t.progress pg else t

/-- A write to the common header (R486): interrupts that come to pend send their message. -/
def State.writeCommon (s : State) (pg : Page) (o v : Nat) : State := State.signalFrom s (s.writePlain pg o v) [pg.vector]

/-- The 64-bit RW register one of whose words lies at an offset, and whether that is its upper word (R481). -/
def wideRw? (pg : Page) (o : Nat) : Option (Field × Bool) :=
  match ((if o < 0x100 then [HDR_FEATURE_EN] else pg.ownFields).find? (fun f =>
    f.acc == .rw && decide (32 < f.lo + f.width) && (f.off == o || f.off + 4 == o))) with
  | some f => some (f, f.off != o)
  | none => none

/-- The value that a 64-bit register takes: the addresses of R461 and R360 read 0 below their alignment. -/
def alignWide (f : Field) (v : Nat) : Nat :=
  if f = SEC_RPT_ADDR_value ∨ f = SEC_KR_ADDR_value ∨ f = SEC_LOAD_SRC_value then v / 64 * 64
  else v

/-- HCH_XBUF_BASE is 1 MiB aligned and HCH_STAGE_BASE 2 MiB aligned: bits below read 0 (R360). -/
def alignHitch (f : Field) (v : Nat) : Nat :=
  if f = HCH_XBUF_BASE_base then v / 2 ^ 20 * 2 ^ 20 else if f = HCH_STAGE_BASE_base then v / 2 ^ 21 * 2 ^ 21 else v

/-- R481: a 64-bit register takes its value as one update. A page other than MGT has no features to enable (R487). -/
def State.writeWide (s : State) (pg : Page) (f : Field) (v : Nat) : State :=
  if f = HDR_FEATURE_EN then (if pg = .mgt then s.writeFeatures v else s)
  else if s.fieldOff pg f then s
  else
    let v := match pg with
      | .sec => alignWide f v
      | .hch _ => alignHitch f v
      | _ => v
    let s := s.wr pg f (bits v f.lo f.width)
    if countsActions pg then s.progress pg else s

/-- A write of one 32-bit word of a page that answers (R481): the lower word of a 64-bit register is held until its upper word is written. -/
def State.pageWrite (s : State) (pg : Page) (o v : Nat) : State :=
  if (fieldsAt pg o).any (fun f => featureOf pg f == some 4 && s.fieldOff pg f) then s
  else match wideRw? pg o with
  | some (f, false) => { s with held64 := mapIns s.held64 (8 * (pg.base + f.off)) v }
  | some (f, true) =>
    let lower := (mapFind s.held64 (8 * (pg.base + f.off))).getD (s.rd pg f * 2 ^ f.lo % 2 ^ 32)
    ({ s with held64 := mapDel s.held64 (8 * (pg.base + f.off)) } : State).writeWide pg f (lower + 2 ^ 32 * v)
  | none => if o < 0x100 then s.writeCommon pg o v else s.writeOwn pg o v

/-- A naturally aligned 32-bit write at a BAR0 offset (R477–R484): discarded where nothing answers. -/
def State.busWrite (s : State) (off v : Nat) : State :=
  match Page.at? off with
  | some pg => if s.answers pg (off - pg.base) then s.pageWrite pg (off - pg.base) (v % 2 ^ 32) else s
  | none => s

/-- R479: a PCIe write larger than 64 bits, split into pieces in ascending order. `fuel` bounds the pieces. -/
def State.writePieces (s : State) (off : Nat) (data : List Byte) : Nat → State
  | 0 => s
  | fuel + 1 =>
    if data.isEmpty then s
    else if off % 8 = 0 ∧ 8 ≤ data.length then
      ((s.busWrite off (leAt data 0 4)).busWrite (off + 4) (leAt data 4 4)).writePieces (off + 8) (data.drop 8) fuel
    else if off % 4 = 0 ∧ 4 ≤ data.length then (s.busWrite off (leAt data 0 4)).writePieces (off + 4) (data.drop 4) fuel
    else s.accessFault.writePieces (off / 4 * 4 + 4) (data.drop (off / 4 * 4 + 4 - off)) fuel

/-- R479: a BAR0 write transaction. -/
def State.busTransaction (s : State) (off : Nat) (data : List Byte) : State :=
  if 8 < data.length then s.writePieces off data data.length
  else if data.length = 4 ∧ off % 4 = 0 then s.busWrite off (leAt data 0 4)
  else if data.length = 8 ∧ off % 8 = 0 then (s.busWrite off (leAt data 0 4)).busWrite (off + 4) (leAt data 4 4)
  else s.accessFault

/-- REGISTER_WRITE (R479): a write transaction of the host. -/
def execRegisterWrite (_req : Nat) (off : BitVec 28) (data : List Byte) (s : State) : Host.Outcome State Fault Refusal :=
  .next (if s.hostReach then s.busTransaction off.toNat data else s)

/-- INT_REARM (R489): a write to HIF_INT_REARM. -/
def execIntRearm (vectors : BitVec 16) (s : State) : Host.Outcome State Fault Refusal :=
  .next (if s.hostReach then s.rearm vectors.toNat else s)

/-! SMBus (R485, R506, R507) -/

/-- SMBus answers from Instar 0 onward (R506), also while a module trip holds the module (R508). -/
def State.smbusUp (s : State) : Bool := s.powered && (s.power.running || s.power.tripped.isSome)

/-- R447, R485: whether SMBus reaches a page now: in confidential mode only MGT, PWR, CLK and MSR. -/
def State.smbusReach (s : State) (off : Nat) : Bool :=
  !s.on .sec SEC_MODE_confidential ||
  match Page.at? off with
  | some pg => pg = .mgt || pg = .pwr || pg = .clk || pg = .msr
  | none => false

/-- The requester number of the board management controller. -/
def smbusReq : Nat := 2 ^ 64

/-- SMBUS_REGISTER_READ (R485, R507). -/
def execSmbusRegisterRead (off : BitVec 28) (s : State) : Host.Outcome State Fault Refusal :=
  .next (
    if !s.smbusUp then s
    else if !s.smbusReach off.toNat then ({ s with answer := leBytes 4 0 } : State).bump .mgt 2
    else if off.toNat % 4 ≠ 0 then ({ s with answer := leBytes 4 0 } : State).accessFault
    else s.busRead smbusReq off.toNat)

/-- SMBUS_REGISTER_WRITE (R485, R507). -/
def execSmbusRegisterWrite (off : BitVec 28) (value : W32) (s : State) : Host.Outcome State Fault Refusal :=
  .next (
    if !s.smbusUp then s
    else if !s.smbusReach off.toNat then s.bump .mgt 2
    else if off.toNat % 4 ≠ 0 then s.accessFault
    else s.busWrite off.toNat value.toNat)

/-- SMBUS_REPORT_READ (R507): a piece of up to 240 bytes of the report last asked for over SMBus, or of the identity certificate. -/
def execSmbusReportRead (piece : BitVec 16) (s : State) : Host.Outcome State Fault Refusal :=
  .next (
    if s.smbusUp then
      let l := if bit piece.toNat 15 then Config.identityCertificate else s.security.smbReport
      { s with answer := (l.drop (240 * (piece.toNat % 2 ^ 15))).take 240 }
    else s)

/-- SMBUS_CHALLENGE (R507): a report over the challenge is signed as R445 gives, without touching SEC_CHAL. -/
def execSmbusChallenge (challenge : List Byte) (s : State) : Host.Outcome State Fault Refusal :=
  .next (
    if s.smbusUp then
      match s.signReport challenge with
      | some (l, t) => t.modSecurity (fun x => { x with smbReport := l })
      | none => s.modSecurity (fun x => { x with smbReport := [] })
    else s)

end Sys2Proof.Machine
end

