-- ==== Sys2Proof/Machine/HostPins.lean ====
section
/-! DEFINITION. The host interface's pins and link: PERST_N, function-level reset, link up and down, completion timeouts (R493, R495,
R502, R503), and the output pins that follow from the state (R501, R508). -/
namespace Sys2Proof.Machine

/-- The PCIe link is lost: HIF_LINK returns to its reset values but for the strap, the IDE stream ends with the link (R458, log entry 70), and
a link that was up sets link_down (R495). -/
def State.dropLink (s : State) : State :=
  let up := s.rd .hif HIF_LINK_speed != 0
  let t := (s.wrAll .hif [(HIF_LINK_speed, 0), (HIF_LINK_width, 0), (HIF_LINK_flit, 0), (HIF_LINK_ide, 0)]).wr .sec SEC_MODE_ide 0
  let t := t.modSecurity (fun x => { x with ideKey := false })
  if up then t.raise .hif HIF_INT_link_down else t

/-- PERST_ASSERT (R503): the PCIe controller and the host DMA are held in reset and the link is down; no other block is reset. -/
def execPerstAssert (s : State) : Host.Outcome State Fault Refusal := .next { s.dropLink with perstLow := true }

/-- PERST_RELEASE (R503): PERST_N is high; the link comes up by its own event. -/
def execPerstRelease (s : State) : Host.Outcome State Fault Refusal := .next { s with perstLow := false }

/-- FUNCTION_LEVEL_RESET (R502): it acts as PERST_N for the host interface's DMA: no access of the host is under way between two commands,
and no other block is reset. -/
def execFunctionLevelReset (s : State) : Host.Outcome State Fault Refusal := .next s

/-- The link speeds and widths that the host interface trains to (R493, R502). -/
def linkOk (speed width : Nat) : Bool := decide (1 ≤ speed) && decide (speed ≤ 6) && [1, 2, 4, 8, 16].contains width

/-- Flit mode: always at 64 GT/s (R502); below it the partner decides, a free value. -/
def flitAt (draw speed : Nat) : Bool := if speed = 6 then true else Config.flitMode draw

/-- PCIE_LINK_UP (R493, R495): the link has reached L0 at a speed and a width, first or after a retrain. -/
def execPcieLinkUp (speed : Fin 7) (width : Fin 17) (retrain : Bool) (s : State) : Host.Outcome State Fault Refusal :=
  .next (
    if s.alive && !s.perstLow && linkOk speed.val width.val then
      let t := s.wrAll .hif [(HIF_LINK_speed, speed.val), (HIF_LINK_width, width.val),
        (HIF_LINK_flit, flag (flitAt s.nDraw speed.val))]
      let t := if retrain then t.bump .hif 2 else t
      t.drawn.raise .hif HIF_INT_link_up
    else s)

/-- PCIE_LINK_DOWN (R495): the link has left L0 for Detect, or its recovery has failed. -/
def execPcieLinkDown (s : State) : Host.Outcome State Fault Refusal :=
  .next (if s.alive && s.rd .hif HIF_LINK_speed != 0 then s.dropLink else s)

/-- PCIE_COMPLETION_TIMEOUT (R503, R495): a read of the module's over PCIe has timed out. -/
def execPcieCompletionTimeout (s : State) : Host.Outcome State Fault Refusal :=
  .next (if s.alive then s.bump .hif 3 else s)

/-! Output pins -/

/-- PWR_GOOD_OUT is released while power-good holds, and pulled low during a module trip (R501). -/
def State.pwrGoodOut (s : State) : Bool := s.alive

/-- SMB_ALERT_N is pulled low while a module global page pends or HIF_STATE.state reads 10 or 11 (R508). -/
def State.smbAlertLow (s : State) : Bool :=
  (List.range 8).any (fun k => s.intMap k != 0) || decide (2 ≤ s.rd .hif HIF_STATE_state)

end Sys2Proof.Machine
end

