-- ==== Sys2Proof/Machine/Fetch.lean ====
section
/-! DEFINITION. The tick edge: what the block does of its own when no command waits (log entry 1). The tick advances (R318, R319), what
counts ticks counts (R291, R396), and running sequencers and ready threads give their next commands out of memory (R153, R265, R278). -/
namespace Sys2Proof.Machine

/-! Commands in memory (R265) -/

/-- What a sequencer does with the next command of its stream: give it, wait for the sender of what it cannot read (what a
collective carries), or fault with a reason. -/
inductive Fetched where
  | give (i : Instr)
  | wait
  | fault (reason : Nat)
  deriving DecidableEq, Repr

/-- The collective of a kind (R304): the data of other members, or whether the stream has raised the flag (R237), comes with the command. -/
def fetchedCollective (c : Cmd) : Fetched :=
  match bits c.c.toNat 40 3 with
  | 0 | 7 => .fault 2
  | _ => .wait

/-- The phase of a HITCH command (R337). -/
def fetchedHitch (p : PartId) (c : Cmd) : Fetched :=
  match bits c.a.toNat 0 3 with
  | 0 => .give (.hitchOpen p c)
  | 1 => .give (.hitchCommit p c)
  | 2 => .give (.hitchPush p c)
  | 3 => .give (.hitchResume p c)
  | 4 => .give (.hitchCheckpoint p c)
  | 5 => .give (.hitchRestore p c)
  | _ => .fault 1

/-- The command of an opcode (R266): any other opcode is a fault of reason 0x1. -/
def fetchedCommand (p : PartId) (op : Nat) (c : Cmd) : Fetched :=
  match op with
  | 0x00 => .give (.nop p c)
  | 0x01 => .give (.stepMark p c)
  | 0x02 => .give (.kernel p c)
  | 0x03 => .give (.analogue p c)
  | 0x04 => .give (.reseat p c)
  | 0x05 => .give (.update p c)
  | 0x06 => .give (.move p c)
  | 0x07 => fetchedCollective c
  | 0x08 => fetchedHitch p c
  | 0x09 => .give (.ringIn p c)
  | 0x0A => .give (.ringOut p c)
  | _ => .fault 1

/-- Put a command at the end of the queue. -/
def State.enqueue (s : State) (i : Instr) : State := { s with pending := s.pending ++ [i] }

/-- A running sequencer takes the next command of its stream; a poisoned one is not executed (R369). -/
def State.fetchNext (s : State) (p : PartId) : State :=
  match (s.part p.val).seq.current with
  | some l =>
    let a := l.stream + 64 * l.issued
    if !s.on (.thx p.val) THX_SEQ_CTL_run || s.stopped (isSequencer p.val) then s
    else if s.poisonedIn a 64 then s.enqueue (.poisonConsumed p .command)
    else
      let b := s.bytes a 64
      match fetchedCommand p (readOp b) (readCmd b) with
      | .give i => s.enqueue i
      | .wait => s
      | .fault r => s.seqFault p.val r l.issued
  | none => s

/-! Thread instructions in memory (R278) -/

/-- The fields of a 16-byte thread instruction beside its op. -/
def readTInstr (l : List Byte) : TInstr :=
  let w := leAt l 0 8
  { ra := Fin.ofNat 16 (bits w 8 4), rb := Fin.ofNat 16 (bits w 12 4), f := BitVec.ofNat 16 (bits w 16 16)
    imm32 := BitVec.ofNat 32 (bits w 32 32), imm64 := BitVec.ofNat 64 (leAt l 8 8) }

/-- The command of a thread op (R278): none for any other op. -/
def threadCommand (p : PartId) (c : LogicalCluster) (t : ThreadId) (op : Nat) (i : TInstr) : Option Instr :=
  match op with
  | 0x01 => some (.tileMoverRequest p c t i)
  | 0x02 => some (.mma p c t i)
  | 0x03 => some (.vec p c t i)
  | 0x04 => some (.sync p c t i)
  | 0x05 => some (.addi p c t i)
  | 0x06 => some (.setc p c t i)
  | 0x07 => some (.loop p c t i)
  | 0x0F => some (.exit p c t i)
  | _ => none

/-- A thread whose turn has come takes its next instruction: a program counter outside the context is a refused access (R165), any other op
a fault of reason 0x7 (R278), a poisoned instruction is not executed (R369). -/
def State.fetchThread (s : State) (p : PartId) (c : LogicalCluster) (t : ThreadId) : State :=
  match (s.cluster p.val (s.physCluster p.val c.val)).thread? t.val with
  | some y =>
    if !s.reach p.val y.pc 16 then (s.bump (.thx p.val) 4).threadFault p.val c.val t.val 2 y
    else if s.poisonedIn y.pc 16 then s.enqueue (.poisonConsumed p .command)
    else match threadCommand p c t (s.word y.pc 1) (readTInstr (s.bytes y.pc 16)) with
      | some i => s.enqueue i
      | none => s.threadFault p.val c.val t.val 7 y
  | none => s

/-- The ready threads of a partition take their next instructions, cluster by cluster in the order in which they issue (R153, R213); those
of a cluster that is being retired or reset take none (R172, R331). -/
def State.fetchThreads (s : State) (p : PartId) : State :=
  s.each ((List.finRange 24).map Fin.val) (fun s c =>
    s.each (if s.clusterIdle p.val c then [] else (s.cluster p.val (s.physCluster p.val c)).issueOrder) (fun s t =>
      s.fetchThread p (Fin.ofNat 24 c) (Fin.ofNat 96 t)))

/-! The edge -/

/-- R319: how far the tick's edge moves toward a correction in one tick, in 16 ps units: at most 1 ns, which is 62.5 of them. -/
def slewStep (d : Int) : Int := max (-62) (min 62 d)

/-- R319: a tick's edge moves toward the correction that is left, and every neighbour's offset with it. -/
def Fabric.slewed (f : Fabric) : Fabric :=
  let d := slewStep f.slew
  { f with slew := f.slew - d, shift := f.shift + d, heard := f.heard.map (fun e => (e.1, e.2 - d)) }

/-- R291: THX_SEQ_RFULL counts the ticks at whose edge a data ring is full. -/
def State.countFull (s : State) (p r : Nat) : State :=
  let x := s.ring p r
  if s.on (.thx p) (THX_SEQ_RING_CFG_enable r) && decide (2 ^ s.ringLog p r ≤ x.prod - x.cons) then
    s.wr (.thx p) (THX_SEQ_RFULL r) (countUp (s.rd (.thx p) (THX_SEQ_RFULL r)))
  else s

/-- R396: while a partition's sequencer does not run, every 1,024th tick is an application point of its trims. -/
def State.trimPoint (s : State) (p : Nat) : State :=
  if !s.on (.thx p) THX_SEQ_CTL_run && s.now % 1024 == 0 && s.running p then s.modPart p (fun x => { x with trimDue := true })
  else s

/-- A partition's own work at a tick edge: full rings are counted (R291), trims become due (R396), management actions that need no longer wait
apply (R27), and the triggers of its wings are sampled (R388). -/
def State.partEdge (s : State) (p : Nat) : State :=
  let s := ((s.each [1, 2, 3] (fun s r => s.countFull p r)).trimPoint p).applyActions p none
  if s.running p then s.each (List.range 9) (fun s w => s.sampleTriggers p w) else s

/-- The clock's own work at a tick edge: the tick counts and slews (R318, R319), urgent measurements are taken (R405), and PROGRESS is sampled
(R330). -/
def State.clockEdge (s : State) : State :=
  let s := ({ s with tick := s.tick + 1, cycle := 0 } : State).modFabric Fabric.slewed
  let s := (s.each (List.range 4) State.takeUrgent).each (List.range 8) State.partEdge
  s.sampleProgress.startSlots.each (List.range 8) State.startTraining

/-- The state that a command answers; where it stops, the state stays. -/
def State.nextOr (s : State) : Host.Outcome State Fault Refusal → State
  | .next t => t
  | _ => s

/-- R381: what a held event does at the tick edge, where nothing waits before it. -/
def State.actHeld (s : State) (i : Instr) : State :=
  match i with
  | .trip c => s.nextOr (execTrip c s)
  | .abortToken k t => s.nextOr (execAbortToken k t s)
  | .linkDown k byReplay => s.nextOr (execLinkDown k byReplay s)
  | .abortAct => s.nextOr (execAbortAct s)
  | .poisonConsumed p point => s.nextOr (execPoisonConsumed p point s)
  | .hangTimeout b => s.nextOr (execHangTimeout b s)
  | .updatePass p => s.nextOr (execUpdatePass p s)
  | .flagRoundMessage k kind axis step value => s.nextOr (execFlagRoundMessage k kind axis step value s)
  | .scaleOperationEnd p w id => s.nextOr (execScaleOperationEnd p w id s)
  | .driftEvaluation p w b sc => s.nextOr (execDriftEvaluation p w b sc s)
  | .calibrationCommand p wings => s.nextOr (execCalibrationCommand p wings s)
  | .counterWrap n added => s.nextOr (execCounterWrap n added s)
  | _ => s

/-- R381: at the tick edge the events that were held act in ascending rank and instance number. -/
def State.actAllHeld (s : State) : State := s.held.foldl State.actHeld { s with held := [] }

/-- The tick edge of a powered module: the held events of the ending tick act (R381), the clock's work is done, and what runs gives its next
commands. Without power nothing moves. -/
def State.tickEdge (s : State) : State :=
  if s.powered then
    let s := s.actAllHeld.clockEdge
    (List.finRange 8).foldl (fun s p => if s.running p.val then (s.fetchNext p).fetchThreads p else s) s
  else s

end Sys2Proof.Machine
end

