-- ==== Sys2Proof/Machine/Dispatch.lean ====
section
/-! DEFINITION. The meaning of every command: one arm per constructor of `Instr`. -/
namespace Sys2Proof.Machine

def exec (i : Instr) (s : State) : Host.Outcome State Fault Refusal :=
  match i with
  | .nop p c => Sys2Proof.Machine.execNop p c s
  | .stepMark p c => Sys2Proof.Machine.execStepMark p c s
  | .stepBoundary p => Sys2Proof.Machine.execStepBoundary p s
  | .kernel p c => Sys2Proof.Machine.execKernel p c s
  | .analogue p c => Sys2Proof.Machine.execAnalogue p c s
  | .reseat p c => Sys2Proof.Machine.execReseat p c s
  | .update p c => Sys2Proof.Machine.execUpdate p c s
  | .move p c => Sys2Proof.Machine.execMove p c s
  | .reduceScatter p c peers => Sys2Proof.Machine.execReduceScatter p c peers s
  | .allGather p c peers => Sys2Proof.Machine.execAllGather p c peers s
  | .allReduce p c peers => Sys2Proof.Machine.execAllReduce p c peers s
  | .flagRound p c raised => Sys2Proof.Machine.execFlagRound p c raised s
  | .shiftUp p c received => Sys2Proof.Machine.execShiftUp p c received s
  | .shiftDown p c received => Sys2Proof.Machine.execShiftDown p c received s
  | .hitchOpen p c => Sys2Proof.Machine.execHitchOpen p c s
  | .hitchCommit p c => Sys2Proof.Machine.execHitchCommit p c s
  | .hitchPush p c => Sys2Proof.Machine.execHitchPush p c s
  | .hitchResume p c => Sys2Proof.Machine.execHitchResume p c s
  | .hitchCheckpoint p c => Sys2Proof.Machine.execHitchCheckpoint p c s
  | .hitchRestore p c => Sys2Proof.Machine.execHitchRestore p c s
  | .ringIn p c => Sys2Proof.Machine.execRingIn p c s
  | .ringOut p c => Sys2Proof.Machine.execRingOut p c s
  | .commandComplete p id => Sys2Proof.Machine.execCommandComplete p id s
  | .launchComplete p => Sys2Proof.Machine.execLaunchComplete p s
  | .ringPoll p r => Sys2Proof.Machine.execRingPoll p r s
  | .launchEntry p => Sys2Proof.Machine.execLaunchEntry p s
  | .skipEntry p => Sys2Proof.Machine.execSkipEntry p s
  | .tileMoverRequest p c t x => Sys2Proof.Machine.execTileMoverRequest p c t x s
  | .tileMoverComplete p c id errs => Sys2Proof.Machine.execTileMoverComplete p c id errs s
  | .mma p c t x => Sys2Proof.Machine.execMma p c t x s
  | .vec p c t x => Sys2Proof.Machine.execVec p c t x s
  | .sync p c t x => Sys2Proof.Machine.execSync p c t x s
  | .addi p c t x => Sys2Proof.Machine.execAddi p c t x s
  | .setc p c t x => Sys2Proof.Machine.execSetc p c t x s
  | .loop p c t x => Sys2Proof.Machine.execLoop p c t x s
  | .exit p c t x => Sys2Proof.Machine.execExit p c t x s
  | .blockProductEnd p c flips errs => Sys2Proof.Machine.execBlockProductEnd p c flips errs s
  | .blockRecompute p flips => Sys2Proof.Machine.execBlockRecompute p flips s
  | .clusterTakeover p errs => Sys2Proof.Machine.execClusterTakeover p errs s
  | .auditRecompute p flips2 flips3 => Sys2Proof.Machine.execAuditRecompute p flips2 flips3 s
  | .add p c errs => Sys2Proof.Machine.execAdd p c errs s
  | .mul p c errs => Sys2Proof.Machine.execMul p c errs s
  | .fma p c errs => Sys2Proof.Machine.execFma p c errs s
  | .cmp p c errs => Sys2Proof.Machine.execCmp p c errs s
  | .select p c errs => Sys2Proof.Machine.execSelect p c errs s
  | .min p c errs => Sys2Proof.Machine.execMin p c errs s
  | .max p c errs => Sys2Proof.Machine.execMax p c errs s
  | .vecDescriptorComplete p c => Sys2Proof.Machine.execVecDescriptorComplete p c s
  | .activationSegment p w direct => Sys2Proof.Machine.execActivationSegment p w direct s
  | .rotateBlock p job => Sys2Proof.Machine.execRotateBlock p job s
  | .scaleOperation p w => Sys2Proof.Machine.execScaleOperation p w s
  | .scaleOperationEnd p w id => Sys2Proof.Machine.execScaleOperationEnd p w id s
  | .l3Tile p w tile => Sys2Proof.Machine.execL3Tile p w tile s
  | .productOutput p product token group => Sys2Proof.Machine.execProductOutput p product token group s
  | .monitorWindowEvaluation p w b sc => Sys2Proof.Machine.execMonitorWindowEvaluation p w b sc s
  | .ladderStormRaised p => Sys2Proof.Machine.execLadderStormRaised p s
  | .ladderStormCleared p => Sys2Proof.Machine.execLadderStormCleared p s
  | .rowRestore p w b lateNs found => Sys2Proof.Machine.execRowRestore p w b lateNs found s
  | .linkStall p w => Sys2Proof.Machine.execLinkStall p w s
  | .debugRowReadRequest p w row => Sys2Proof.Machine.execDebugRowReadRequest p w row s
  | .debugRowRead p w => Sys2Proof.Machine.execDebugRowRead p w s
  | .seatTile p seat => Sys2Proof.Machine.execSeatTile p seat s
  | .reseatRowWrite p seat verify => Sys2Proof.Machine.execReseatRowWrite p seat verify s
  | .seatComplete p seat => Sys2Proof.Machine.execSeatComplete p seat s
  | .spareLoadComplete p seat => Sys2Proof.Machine.execSpareLoadComplete p seat s
  | .wearCopy => Sys2Proof.Machine.execWearCopy s
  | .updatePass p => Sys2Proof.Machine.execUpdatePass p s
  | .updateChunk p => Sys2Proof.Machine.execUpdateChunk p s
  | .updatePassEnd p => Sys2Proof.Machine.execUpdatePassEnd p s
  | .strandFrameSend k errs => Sys2Proof.Machine.execStrandFrameSend k errs s
  | .strandFrameReceive k wire cargo a => Sys2Proof.Machine.execStrandFrameReceive k wire cargo a s
  | .linkDown x byReplay => Sys2Proof.Machine.execLinkDown x byReplay s
  | .laneSpare k transmit lane cause => Sys2Proof.Machine.execLaneSpare k transmit lane cause s
  | .laneManagementMessage x transmit lane first => Sys2Proof.Machine.execLaneManagementMessage x transmit lane first s
  | .remoteWrite from_ id job addr data poison => Sys2Proof.Machine.execRemoteWrite from_ id job addr data poison s
  | .remoteWriteTimeout id => Sys2Proof.Machine.execRemoteWriteTimeout id s
  | .flagRoundMessage x kind axis step value => Sys2Proof.Machine.execFlagRoundMessage x kind axis step value s
  | .abortToken x t => Sys2Proof.Machine.execAbortToken x t s
  | .abortAct => Sys2Proof.Machine.execAbortAct s
  | .abortGo => Sys2Proof.Machine.execAbortGo s
  | .timingMessageSend x phase => Sys2Proof.Machine.execTimingMessageSend x phase s
  | .timingMessage k depth tick phase arrival => Sys2Proof.Machine.execTimingMessage k depth tick phase arrival s
  | .timingParentSelect => Sys2Proof.Machine.execTimingParentSelect s
  | .holdoverExpired => Sys2Proof.Machine.execHoldoverExpired s
  | .realign => Sys2Proof.Machine.execRealign s
  | .tickAligned => Sys2Proof.Machine.execTickAligned s
  | .portEnable x => Sys2Proof.Machine.execPortEnable x s
  | .portRetrain x => Sys2Proof.Machine.execPortRetrain x s
  | .portTrained k neighbour rtt entropy => Sys2Proof.Machine.execPortTrained k neighbour rtt entropy s
  | .keyEpochMessage x epoch first => Sys2Proof.Machine.execKeyEpochMessage x epoch first s
  | .linkKeyRollover x => Sys2Proof.Machine.execLinkKeyRollover x s
  | .hangTimeout b => Sys2Proof.Machine.execHangTimeout b s
  | .engineResetTimeout b => Sys2Proof.Machine.execEngineResetTimeout b s
  | .partitionResetRequest p => Sys2Proof.Machine.execPartitionResetRequest p s
  | .partitionResetDone p => Sys2Proof.Machine.execPartitionResetDone p s
  | .partitionResetTimeout p => Sys2Proof.Machine.execPartitionResetTimeout p s
  | .moduleResetRequest => Sys2Proof.Machine.execModuleResetRequest s
  | .watchdogReset => Sys2Proof.Machine.execWatchdogReset s
  | .hbmChannelFailure p ch => Sys2Proof.Machine.execHbmChannelFailure p ch s
  | .managementAction p a => Sys2Proof.Machine.execManagementAction p a s
  | .poisonConsumed p point => Sys2Proof.Machine.execPoisonConsumed p point s
  | .mirrorRebuild p granule => Sys2Proof.Machine.execMirrorRebuild p granule s
  | .scrub p ch found => Sys2Proof.Machine.execScrub p ch found s
  | .patternSweep p u passed => Sys2Proof.Machine.execPatternSweep p u passed s
  | .cocoonRecordWrite p => Sys2Proof.Machine.execCocoonRecordWrite p s
  | .errcntClear off => Sys2Proof.Machine.execErrcntClear off s
  | .calibrationCommand p wings => Sys2Proof.Machine.execCalibrationCommand p wings s
  | .driftEvaluation p w b sc => Sys2Proof.Machine.execDriftEvaluation p w b sc s
  | .calibrationStart p w => Sys2Proof.Machine.execCalibrationStart p w s
  | .measurementRunEnd p w what runs => Sys2Proof.Machine.execMeasurementRunEnd p w what runs s
  | .columnTakeover p w b sc => Sys2Proof.Machine.execColumnTakeover p w b sc s
  | .takeoverEnd p w b sc => Sys2Proof.Machine.execTakeoverEnd p w b sc s
  | .calibrationComplete p w => Sys2Proof.Machine.execCalibrationComplete p w s
  | .trimApplication p => Sys2Proof.Machine.execTrimApplication p s
  | .urgentRequest m ch from_ => Sys2Proof.Machine.execUrgentRequest m ch from_ s
  | .measurementConversion m value => Sys2Proof.Machine.execMeasurementConversion m value s
  | .thermalReading readings => Sys2Proof.Machine.execThermalReading readings s
  | .trip c => Sys2Proof.Machine.execTrip c s
  | .partitionTripRestart p => Sys2Proof.Machine.execPartitionTripRestart p s
  | .moduleTripRestart => Sys2Proof.Machine.execModuleTripRestart s
  | .controlInterval watts volts => Sys2Proof.Machine.execControlInterval watts volts s
  | .domainPowerFault n => Sys2Proof.Machine.execDomainPowerFault n s
  | .fabricPairOff pairs => Sys2Proof.Machine.execFabricPairOff pairs s
  | .kill => Sys2Proof.Machine.execKill s
  | .powerGood sris smbAddr => Sys2Proof.Machine.execPowerGood sris smbAddr s
  | .instarReached k retries => Sys2Proof.Machine.execInstarReached k retries s
  | .instarStall c => Sys2Proof.Machine.execInstarStall c s
  | .wingClear p w => Sys2Proof.Machine.execWingClear p w s
  | .pllStable x => Sys2Proof.Machine.execPllStable x s
  | .pllUnlock x => Sys2Proof.Machine.execPllUnlock x s
  | .referenceSourceChange src lost refclkValid => Sys2Proof.Machine.execReferenceSourceChange src lost refclkValid s
  | .sscApply => Sys2Proof.Machine.execSscApply s
  | .featureEnable value => Sys2Proof.Machine.execFeatureEnable value s
  | .contextBind p valid ctx => Sys2Proof.Machine.execContextBind p valid ctx s
  | .sequencerRun p run => Sys2Proof.Machine.execSequencerRun p run s
  | .fenceClear p => Sys2Proof.Machine.execFenceClear p s
  | .ringEnable p r cfg => Sys2Proof.Machine.execRingEnable p r cfg s
  | .rateWindow p => Sys2Proof.Machine.execRateWindow p s
  | .reportRequest => Sys2Proof.Machine.execReportRequest s
  | .keyRelease => Sys2Proof.Machine.execKeyRelease s
  | .sealedLoad slot => Sys2Proof.Machine.execSealedLoad slot s
  | .slotClear slot => Sys2Proof.Machine.execSlotClear slot s
  | .commitSvn => Sys2Proof.Machine.execCommitSvn s
  | .hostDma write addr data poisoned => Sys2Proof.Machine.execHostDma write addr data poisoned s
  | .selfTest pairsOk portsOk => Sys2Proof.Machine.execSelfTest pairsOk portsOk s
  | .slotConfigure n cfg => Sys2Proof.Machine.execSlotConfigure n cfg s
  | .counterWrap n added => Sys2Proof.Machine.execCounterWrap n added s
  | .liveRead req n added => Sys2Proof.Machine.execLiveRead req n added s
  | .snapshot => Sys2Proof.Machine.execSnapshot s
  | .userSnapshot => Sys2Proof.Machine.execUserSnapshot s
  | .snapshotLatch added => Sys2Proof.Machine.execSnapshotLatch added s
  | .clearAll => Sys2Proof.Machine.execClearAll s
  | .tagDrain => Sys2Proof.Machine.execTagDrain s
  | .lowerWordRead req off => Sys2Proof.Machine.execLowerWordRead req off s
  | .registerWrite req off data => Sys2Proof.Machine.execRegisterWrite req off data s
  | .intRearm vectors => Sys2Proof.Machine.execIntRearm vectors s
  | .smbusRegisterRead off => Sys2Proof.Machine.execSmbusRegisterRead off s
  | .smbusRegisterWrite off value => Sys2Proof.Machine.execSmbusRegisterWrite off value s
  | .smbusReportRead piece => Sys2Proof.Machine.execSmbusReportRead piece s
  | .smbusChallenge challenge => Sys2Proof.Machine.execSmbusChallenge challenge s
  | .perstAssert => Sys2Proof.Machine.execPerstAssert s
  | .perstRelease => Sys2Proof.Machine.execPerstRelease s
  | .pcieLinkUp speed width retrain => Sys2Proof.Machine.execPcieLinkUp speed width retrain s
  | .pcieLinkDown => Sys2Proof.Machine.execPcieLinkDown s
  | .powerLoss => Sys2Proof.Machine.execPowerLoss s
  | .engineResetComplete b => Sys2Proof.Machine.execEngineResetComplete b s
  | .pcieCompletionTimeout => Sys2Proof.Machine.execPcieCompletionTimeout s
  | .ideKmMessage body => Sys2Proof.Machine.execIdeKmMessage body s
  | .functionLevelReset => Sys2Proof.Machine.execFunctionLevelReset s

end Sys2Proof.Machine
end

