-- ==== Sys2Proof/WellFormed.lean ====
section
/-! DEFINITION. Which commands are well formed: the checks on operands that their types do not make. -/
namespace Sys2Proof

/-- A member's contribution comes in whole granules, and its poison names granules of it (R304). -/
def Member.wf (m : Member) : Bool := m.data.length % 32 == 0 && m.poison.all (fun g => decide (32 * g < m.data.length))

/-- Each element is struck once, by an error (R167). -/
def flipsWf (l : List Flip) : Bool := l.all (fun f => f.x != 0) && decide (l.map (fun f => (f.i, f.j))).Nodup

/-- A segment is 17 granules of 32 bytes (R50). -/
def WireSegment.wf (g : WireSegment) : Bool := g.bytes.length == 544

/-- Each symbol of a codeword is struck once, by an error (R364). -/
def upsetsWf (l : List Upset) : Bool := l.all (fun u => u.x != 0) && decide (l.map (fun u => u.byte)).Nodup

/-- Each granule that an engine reads with symbol errors is named once, its upsets well formed (R365). -/
def readErrorsWf (l : List ReadError) : Bool :=
  l.all (fun e => upsetsWf e.upsets) && decide (l.map (fun e => (e.space, e.granule))).Nodup

/-- Whether a command's operands are in order. -/
def Instr.wf (i : Instr) : Bool :=
  match i with
  | .reduceScatter _ _ peers => peers.all Member.wf
  | .allGather _ _ peers => peers.all Member.wf
  | .allReduce _ _ peers => peers.all Member.wf
  | .shiftUp _ _ received => received.wf
  | .shiftDown _ _ received => received.wf
  | .blockProductEnd _ _ flips errs => flipsWf flips && readErrorsWf errs
  | .tileMoverComplete _ _ _ errs => readErrorsWf errs
  | .clusterTakeover _ errs => readErrorsWf errs
  | .add _ _ errs => readErrorsWf errs
  | .mul _ _ errs => readErrorsWf errs
  | .fma _ _ errs => readErrorsWf errs
  | .cmp _ _ errs => readErrorsWf errs
  | .select _ _ errs => readErrorsWf errs
  | .min _ _ errs => readErrorsWf errs
  | .max _ _ errs => readErrorsWf errs
  | .blockRecompute _ flips => flipsWf flips
  | .auditRecompute _ flips2 flips3 => flipsWf flips2 && flipsWf flips3
  | .activationSegment _ _ direct => direct.all WireSegment.wf
  | .rowRestore _ _ _ _ found => found.all (fun c => c.code != 8) && decide (found.map (fun c => (c.scale, c.column))).Nodup
  | .reseatRowWrite _ _ verify => verify.all (fun l => decide l.Nodup)
  | .strandFrameSend _ errs => errs.all (fun e => upsetsWf e.2) && decide (errs.map (fun e => e.1)).Nodup
  | .strandFrameReceive _ wire cargo a => wire.length == 2688 && decide (cargo.length ≤ 75) && decide a.errors.Nodup
  | .portTrained _ _ _ entropy => entropy.length == 32
  | .remoteWrite _ _ _ addr data poison => !data.isEmpty && decide (addr.toNat + data.length ≤ 2 ^ 41) && poison.all (fun j => decide (32 * j < data.length))
  | .scrub _ _ found => found.all (fun e => e.1.toNat % 32 == 0 && upsetsWf e.2)
  | .thermalReading readings => decide (readings.map (fun e => e.1)).Nodup
  | .hostDma _ addr data _ => !data.isEmpty && decide (addr.toNat + data.length ≤ 2 ^ 41)
  | .snapshotLatch added => decide (added.map (fun e => e.1)).Nodup
  | .lowerWordRead _ off => off.toNat % 4 == 0
  | .registerWrite _ off data => !data.isEmpty && decide (off.toNat + data.length ≤ 2 ^ 28)
  | .smbusRegisterRead off => off.toNat % 4 == 0
  | .smbusRegisterWrite off _ => off.toNat % 4 == 0
  | .smbusChallenge challenge => challenge.length == 32
  | .pcieLinkUp speed width _ => speed.val != 0 && [1, 2, 4, 8, 16].contains width.val
  | .nop _ _ | .stepMark _ _ | .stepBoundary _ | .kernel _ _ | .analogue _ _ | .reseat _ _ | .update _ _ | .move _ _
  | .flagRound _ _ _ | .hitchOpen _ _ | .hitchCommit _ _ | .hitchPush _ _ | .hitchResume _ _ | .hitchCheckpoint _ _
  | .hitchRestore _ _ | .ringIn _ _ | .ringOut _ _ | .commandComplete _ _ | .launchComplete _ | .ringPoll _ _
  | .launchEntry _ | .skipEntry _ | .tileMoverRequest _ _ _ _ | .mma _ _ _ _ | .vec _ _ _ _
  | .sync _ _ _ _ | .addi _ _ _ _ | .setc _ _ _ _ | .loop _ _ _ _ | .exit _ _ _ _
  | .vecDescriptorComplete _ _ | .rotateBlock _ _
  | .scaleOperation _ _ | .scaleOperationEnd _ _ _ | .l3Tile _ _ _ | .productOutput _ _ _ _
  | .monitorWindowEvaluation _ _ _ _ | .ladderStormRaised _ | .ladderStormCleared _ | .linkStall _ _
  | .debugRowReadRequest _ _ _ | .debugRowRead _ _ | .seatTile _ _ | .seatComplete _ _ | .spareLoadComplete _ _ | .wearCopy
  | .updatePass _ | .updateChunk _ | .updatePassEnd _ | .linkDown _ _ | .laneSpare _ _ _ _
  | .laneManagementMessage _ _ _ _ | .remoteWriteTimeout _ | .flagRoundMessage _ _ _ _ _ | .abortToken _ _ | .abortAct
  | .abortGo | .timingMessageSend _ _ | .timingMessage _ _ _ _ _ | .timingParentSelect | .holdoverExpired | .realign
  | .tickAligned | .portEnable _ | .portRetrain _ | .keyEpochMessage _ _ _ | .linkKeyRollover _
  | .hangTimeout _ | .engineResetTimeout _ | .partitionResetRequest _ | .partitionResetDone _ | .partitionResetTimeout _
  | .moduleResetRequest | .watchdogReset | .hbmChannelFailure _ _ | .managementAction _ _ | .poisonConsumed _ _
  | .mirrorRebuild _ _ | .patternSweep _ _ _ | .cocoonRecordWrite _ | .errcntClear _ | .calibrationCommand _ _
  | .driftEvaluation _ _ _ _ | .calibrationStart _ _ | .measurementRunEnd _ _ _ _ | .columnTakeover _ _ _ _
  | .takeoverEnd _ _ _ _ | .calibrationComplete _ _ | .trimApplication _ | .urgentRequest _ _ _ | .measurementConversion _ _
  | .trip _ | .partitionTripRestart _ | .moduleTripRestart | .controlInterval _ _ | .domainPowerFault _ | .fabricPairOff _
  | .kill | .powerGood _ _ | .instarReached _ _ | .instarStall _ | .wingClear _ _ | .pllStable _ | .pllUnlock _
  | .referenceSourceChange _ _ _ | .sscApply | .featureEnable _ | .contextBind _ _ _ | .sequencerRun _ _ | .fenceClear _
  | .ringEnable _ _ _ | .rateWindow _ | .reportRequest | .keyRelease | .sealedLoad _ | .slotClear _ | .commitSvn
  | .selfTest _ _ | .slotConfigure _ _ | .counterWrap _ _ | .liveRead _ _ _ | .snapshot | .userSnapshot | .clearAll
  | .tagDrain | .intRearm _ | .smbusReportRead _ | .perstAssert | .perstRelease | .pcieLinkDown | .powerLoss
  | .engineResetComplete _ | .pcieCompletionTimeout | .ideKmMessage _ | .functionLevelReset => true

end Sys2Proof
end

