-- ==== Sys2Proof/Safety.lean ====
section
/-! DEFINITION. What counts as a state in order, and what the statements observe of a state: the canonical forms of the sparse maps
(log entry 4), the registers that a raised bit or a counted event touches, and what a command leaves as it was. -/
namespace Sys2Proof.Machine

/-- Device memory is in its canonical form: rising addresses, no byte listed that reads as an unlisted one. -/
abbrev Memory.wf (m : List Host.Cell) : Bool := mapWf 0 m

/-- A state in order: both memories canonical, registers listed in rising order, poisoned granules in rising order without repeats. -/
def State.canonical (s : State) : Prop :=
  Memory.wf s.mem = true ∧ Memory.wf s.hostMem = true ∧ mapSorted s.regs = true ∧ s.poison.Pairwise (· < ·)

/-! Frames. A register field is named by its key, the place of its lowest bit in BAR0 (`regKey`). -/

/-- The fields that raising a bit of a page's INT_STATUS may change: the bit, and the pending bit of the page's vector (R489, R494). -/
def raiseKeys (pg : Page) (b : Nat) : List Nat := [regKey pg (HDR_INT b), regKey .hif (HIF_PBA pg.vector)]

/-- The fields that counting an event in ERRCNT entry `n` of a page may change (R377, R378, R491). -/
def bumpKeys (pg : Page) (n : Nat) : List Nat :=
  [regKey pg (HDR_ERRCNT n), regKey pg HDR_MOVED, regKey pg HDR_SATURATED, regKey .mgt (MGT_ERR_MAP_pages (pg.mapIndex / 32))] ++
    raiseKeys .mgt MGT_INT_map_moved

/-- Every register field but those listed reads as before. -/
def RegsBut (s t : State) (ks : List Nat) : Prop := ∀ (pg : Page) (f : Field), regKey pg f ∉ ks → t.rd pg f = s.rd pg f

/-- Device memory, its poison and host memory read as before, byte by byte. -/
def SameMemory (s t : State) : Prop :=
  (∀ a, t.byte a = s.byte a) ∧ (∀ a, t.hostByte a = s.hostByte a) ∧ t.poison = s.poison

/-- The same where the PROGRESS words of channels, which count the lines that they carry (R155, R329), may have changed too. -/
def RegsButLines (s t : State) (ks : List Nat) : Prop :=
  ∀ (pg : Page) (f : Field), regKey pg f ∉ ks → (∀ q ch, regKey pg f ≠ regKey (.chan q ch) HDR_PROGRESS) → t.rd pg f = s.rd pg f

/-- Nothing but the listed register fields, and the messages sent, has changed. -/
def OnlyRegs (s t : State) (ks : List Nat) : Prop := t = { s with regs := t.regs, sent := t.sent } ∧ RegsBut s t ks

/-- The commands that write to no byte of device memory or host memory and move no poison, whatever their operands. -/
def storesNothing : Instr → Bool
  | .nop _ _ => true
  | .stepMark _ _ => true
  | .stepBoundary _ => false
  | .kernel _ _ => true
  | .analogue _ _ => true
  | .reseat _ _ => false
  | .update _ _ => true
  | .move _ _ => false
  | .reduceScatter _ _ _ => false
  | .allGather _ _ _ => false
  | .allReduce _ _ _ => false
  | .flagRound _ _ _ => false
  | .shiftUp _ _ _ => false
  | .shiftDown _ _ _ => false
  | .hitchOpen _ _ => true
  | .hitchCommit _ _ => false
  | .hitchPush _ _ => false
  | .hitchResume _ _ => false
  | .hitchCheckpoint _ _ => false
  | .hitchRestore _ _ => false
  | .ringIn _ _ => false
  | .ringOut _ _ => false
  | .commandComplete _ _ => false
  | .launchComplete _ => false
  | .ringPoll _ _ => true
  | .launchEntry _ => true
  | .skipEntry _ => false
  | .tileMoverRequest _ _ _ _ => true
  | .tileMoverComplete _ _ _ _ => false
  | .mma _ _ _ _ => true
  | .vec _ _ _ _ => true
  | .sync _ _ _ _ => true
  | .addi _ _ _ _ => true
  | .setc _ _ _ _ => true
  | .loop _ _ _ _ => true
  | .exit _ _ _ _ => true
  | .blockProductEnd _ _ _ _ => false
  | .blockRecompute _ _ => false
  | .clusterTakeover _ _ => false
  | .auditRecompute _ _ _ => true
  | .add _ _ _ => false
  | .mul _ _ _ => false
  | .fma _ _ _ => false
  | .cmp _ _ _ => false
  | .select _ _ _ => false
  | .min _ _ _ => false
  | .max _ _ _ => false
  | .vecDescriptorComplete _ _ => true
  | .activationSegment _ _ _ => true
  | .rotateBlock _ _ => false
  | .scaleOperation _ _ => true
  | .scaleOperationEnd _ _ _ => true
  | .l3Tile _ _ _ => true
  | .productOutput _ _ _ _ => false
  | .monitorWindowEvaluation _ _ _ _ => true
  | .ladderStormRaised _ => true
  | .ladderStormCleared _ => true
  | .rowRestore _ _ _ _ _ => true
  | .linkStall _ _ => true
  | .debugRowReadRequest _ _ _ => true
  | .debugRowRead _ _ => true
  | .seatTile _ _ => false
  | .reseatRowWrite _ _ _ => false
  | .seatComplete _ _ => false
  | .spareLoadComplete _ _ => false
  | .wearCopy => true
  | .updatePass _ => false
  | .updateChunk _ => false
  | .updatePassEnd _ => false
  | .strandFrameSend _ _ => true
  | .strandFrameReceive _ _ _ _ => false
  | .linkDown _ _ => true
  | .laneSpare _ _ _ _ => true
  | .laneManagementMessage _ _ _ _ => true
  | .remoteWrite _ _ _ _ _ _ => false
  | .remoteWriteTimeout _ => true
  | .flagRoundMessage _ _ _ _ _ => false
  | .abortToken _ _ => true
  | .abortAct => false
  | .abortGo => true
  | .timingMessageSend _ _ => true
  | .timingMessage _ _ _ _ _ => true
  | .timingParentSelect => true
  | .holdoverExpired => true
  | .realign => true
  | .tickAligned => true
  | .portEnable _ => true
  | .portRetrain _ => true
  | .portTrained _ _ _ _ => true
  | .keyEpochMessage _ _ _ => true
  | .linkKeyRollover _ => true
  | .hangTimeout _ => true
  | .engineResetTimeout _ => false
  | .partitionResetRequest _ => true
  | .partitionResetDone _ => true
  | .partitionResetTimeout _ => false
  | .moduleResetRequest => false
  | .watchdogReset => false
  | .hbmChannelFailure _ _ => true
  | .managementAction _ _ => true
  | .poisonConsumed _ _ => true
  | .mirrorRebuild _ _ => false
  | .scrub _ _ _ => false
  | .patternSweep _ _ _ => true
  | .cocoonRecordWrite _ => false
  | .errcntClear _ => true
  | .calibrationCommand _ _ => true
  | .driftEvaluation _ _ _ _ => true
  | .calibrationStart _ _ => true
  | .measurementRunEnd _ _ _ _ => true
  | .columnTakeover _ _ _ _ => true
  | .takeoverEnd _ _ _ _ => true
  | .calibrationComplete _ _ => true
  | .trimApplication _ => true
  | .urgentRequest _ _ _ => true
  | .measurementConversion _ _ => true
  | .thermalReading _ => true
  | .trip _ => false
  | .partitionTripRestart _ => true
  | .moduleTripRestart => true
  | .controlInterval _ _ => true
  | .domainPowerFault _ => true
  | .fabricPairOff _ => true
  | .kill => false
  | .powerGood _ _ => false
  | .instarReached _ _ => true
  | .instarStall _ => true
  | .wingClear _ _ => true
  | .pllStable _ => true
  | .pllUnlock _ => true
  | .referenceSourceChange _ _ _ => true
  | .sscApply => true
  | .featureEnable _ => true
  | .contextBind _ _ _ => true
  | .sequencerRun _ _ => true
  | .fenceClear _ => true
  | .ringEnable _ _ _ => false
  | .rateWindow _ => true
  | .reportRequest => false
  | .keyRelease => true
  | .sealedLoad _ => false
  | .slotClear _ => true
  | .commitSvn => true
  | .hostDma _ _ _ _ => false
  | .selfTest _ _ => true
  | .slotConfigure _ _ => true
  | .counterWrap _ _ => true
  | .liveRead _ _ _ => true
  | .snapshot => true
  | .userSnapshot => true
  | .snapshotLatch _ => true
  | .clearAll => true
  | .tagDrain => true
  | .lowerWordRead _ _ => true
  | .registerWrite _ _ _ => false
  | .intRearm _ => true
  | .smbusRegisterRead _ => true
  | .smbusRegisterWrite _ _ => false
  | .smbusReportRead _ => true
  | .smbusChallenge _ => true
  | .perstAssert => true
  | .perstRelease => true
  | .pcieLinkUp _ _ _ => true
  | .pcieLinkDown => true
  | .powerLoss => false
  | .engineResetComplete _ => true
  | .pcieCompletionTimeout => true
  | .ideKmMessage _ => true
  | .functionLevelReset => true

/-! Sequencer commands (R265–R271) -/

/-- The commands of a partition in flight, without the stamps of tagged ones (R471). -/
def State.flight (s : State) (p : Nat) : List Inflight := (s.part p).seq.inflight.map (fun x => { x with tag := none })

/-- The fields that tagging may change: the count of commands that found no room, and the record buffer's count and flag (R470, R471). -/
@[irreducible] def tagKeys : List Nat :=
  bumpKeys .pmc 1 ++ [regKey .pmc PMC_TAG_STATUS_count, regKey .pmc PMC_TAG_STATUS_full] ++ raiseKeys .pmc PMC_INT_tag_full

/-- The launches of a partition once command `c` of launch `l` has issued (R268). -/
def State.launchesIssued (s : State) (p : Nat) (l : Launch) : List Launch :=
  (s.part p).seq.launches.map (fun k => if k.entry = l.entry then { k with issued := k.issued + 1 } else k)

/-- A command has issued (R268): it is in flight under the next command id, with its place in its launch, its signal fence and what it
still has to see, and it counts in its launch. -/
def Issued (s t : State) (p op : Nat) (c : Cmd) (l : Launch) (w : Work) : Prop :=
  t.flight p = s.flight p ++ [{ id := s.nextId p, launch := l.entry, index := l.issued, op := op
                                sig := if c.sigEn then some (c.sigPart.val, c.sigFence.val) else none, work := w, tag := none }] ∧
  t.nextId p = s.nextId p + 1 ∧ (t.part p).seq.launches = s.launchesIssued p l ∧ (t.part p).seq.fences = (s.part p).seq.fences

/-- No other partition's record has changed. -/
def OnlyPart (s t : State) (p : Nat) : Prop := ∀ q, q ≠ p → t.part q = s.part q

/-- What every command of a stream leaves as it was: but for the records of tagged commands and the time of their stamps (log entry 7),
everything outside the partition's own record and the listed registers. -/
def SeqFrame (s t : State) (p : Nat) (ks : List Nat) : Prop :=
  t = { s with regs := t.regs, sent := t.sent, parts := t.parts, records := t.records, nDraw := t.nDraw, cycle := t.cycle } ∧
  OnlyPart s t p ∧ RegsBut s t ks

/-- The launches of a partition once command `x` has completed (R268). -/
def State.launchesCompleted (s : State) (p : Nat) (x : Inflight) : List Launch :=
  (s.part p).seq.launches.map (fun l => if l.entry = x.launch then { l with completed := l.completed + 1 } else l)

/-- A command has completed its work (R268, R269, R289): it is no longer in flight, it counts in its launch and in PROGRESS, its signal
fence, and no other, is one higher, and nothing else but the records of tagged commands has changed. -/
def Completed (s t : State) (p : Nat) (x : Inflight) : Prop :=
  t.flight p = (s.flight p).filter (fun y => y.id != x.id) ∧ (t.part p).seq.launches = s.launchesCompleted p x ∧
  t.rd (.thx p) HDR_PROGRESS = (s.rd (.thx p) HDR_PROGRESS + 1) % 2 ^ 32 ∧
  (∀ q n, t.fence q n = if x.sig = some (q, n) then (s.fence q n + 1) % 2 ^ 64 else s.fence q n) ∧
  t = { s with regs := t.regs, sent := t.sent, parts := t.parts, records := t.records, nDraw := t.nDraw, cycle := t.cycle
               fabric := { s.fabric with colls := t.fabric.colls } } ∧
  RegsBut s t (regKey (.thx p) HDR_PROGRESS :: tagKeys)

/-- Whether the fence that a command signals, if it signals one, lies in the context of its partition (R269). -/
def State.signalsInside (s : State) (p : Nat) (x : Inflight) : Prop := ∀ q n, x.sig = some (q, n) → (s.peers p).contains q = true

/-! Memory and collectives -/

/-- A range of device memory now holds the given bytes, and no other byte has changed. -/
def Wrote (s t : State) (a : Nat) (l : List Byte) : Prop :=
  ∀ b, t.byte b = if a ≤ b ∧ b < a + l.length then l.getD (b - a) 0 else s.byte b

/-- The header of a gradient buffer (R234): its step, its state, and no layer or digest (log entry 60). -/
def gradientHead (step state : Nat) : List Byte := leBytes 8 step ++ leBytes 8 state ++ leBytes 8 0 ++ List.replicate 40 0

/-- A collective issues and runs now (R304, R305): its feature is on, its fields serve its kind, its ranges lie in the context, fewer than
4 of the partition are open, and its ports are up. -/
def State.collectiveRuns (s : State) (p : Nat) (c : Cmd) (l : Launch) (kind srcLen dstLen : Nat) (ports : List Nat) (src dst : Nat) : Prop :=
  s.issueLaunch p c = some l ∧ s.feature 5 = true ∧ collFieldsOk kind c = true ∧ s.operandAt p c l.step c.a srcLen = some src ∧
  s.operandAt p c l.step c.b dstLen = some dst ∧ s.collReady p (s.collAxis p l.step c) ports = true

/-- What a collective that runs does beside its destination: it has issued with its work done, it is open under its tag and step, and
nothing else has changed but memory and the ports it uses. -/
def CollFrame (s t : State) (p : Nat) (c : Cmd) (l : Launch) (ports : List Nat) : Prop :=
  Issued s t p 7 c l .done ∧ OnlyPart s t p ∧ (∀ i, i ∉ ports → t.port i = s.port i) ∧ RegsButLines s t (bumpKeys .pmc 1) ∧
  t = { s with
    regs := t.regs, sent := t.sent, parts := t.parts, ports := t.ports, mem := t.mem, poison := t.poison, nDraw := t.nDraw, cycle := t.cycle
    fabric := { s.fabric with colls := s.fabric.colls ++
      [{ part := p, cmd := s.nextId p, tag := bits c.c.toNat 48 16, step := l.step }] } }

/-- A command's shard table entries from `lo` on (R338), where they and the descriptors they name are in the context and clean. -/
def State.tableReads (s : State) (p : Nat) (c : Cmd) (l : Launch) (lo n : Nat) (es : List ShardEntry) : Prop :=
  ∃ a, s.operandAt p c l.step c.d (32 * (lo + n)) = some a ∧
    es = (List.range n).map (fun i => s.shardEntry (a + 32 * (lo + i))) ∧ s.poisonedIn (a + 32 * lo) (32 * n) = false ∧
    ∀ e ∈ es, s.entryClean e = true ∧ s.entryReach p e = true

/-! Clusters and threads -/

/-- No cluster but one has changed. -/
def OnlyCluster (s t : State) (p c : Nat) : Prop := ∀ q d, clusterKey q d ≠ clusterKey p c → t.cluster q d = s.cluster q d

/-- One thread of a cluster's record is now what `z` says (none: free), and no other thread has changed. -/
def ThreadIs (x y : Cluster) (th : Nat) (z : Option Thread) : Prop := y.thread? th = z ∧ ∀ o, o ≠ th → y.thread? o = x.thread? o

/-- One thread of a logical cluster has changed as `ThreadIs` says and has had its turn (R153), and nothing else of the state has changed. -/
def ThreadBecomes (s t : State) (p lc th : Nat) (z : Option Thread) : Prop :=
  let k := s.physCluster p lc
  t = { s with clusters := t.clusters } ∧ OnlyCluster s t p k ∧
  t.cluster p k = { s.cluster p k with threads := (t.cluster p k).threads, last := th } ∧ ThreadIs (s.cluster p k) (t.cluster p k) th z

/-- A range of the tile buffers holds the given bytes, and no other byte of them has changed. -/
def TileWrote (x y : Cluster) (a : Nat) (l : List Byte) : Prop :=
  ∀ b, mapGet 0 y.tile b = if a ≤ b ∧ b < a + l.length then l.getD (b - a) 0 else mapGet 0 x.tile b

/-- The same for the raw words of the accumulators (R163, R248). -/
def RawWrote (x y : Cluster) (a : Nat) (l : List Byte) : Prop :=
  ∀ b, y.rawByte b = if a ≤ b ∧ b < a + l.length then l.getD (b - a) 0 else x.rawByte b

/-- The FP32 values were added to the accumulators from one on (R162), and no other accumulator has changed. -/
def WideAdded (x y : Cluster) (k : Nat) (vs : List Nat) : Prop :=
  ∀ i, mapGet 0 y.wide i = if k ≤ i ∧ i < k + vs.length then w48Add (mapGet 0 x.wide i) (vs.getD (i - k) 0) else mapGet 0 x.wide i

/-- The stamps of the partition's tagged commands, and nothing else of its record, may have changed. -/
def OnlyStamps (s t : State) (p : Nat) : Prop :=
  OnlyPart s t p ∧ t.flight p = s.flight p ∧
  t.part p = { s.part p with seq := { (s.part p).seq with inflight := (t.part p).seq.inflight } }

/-- The bytes that a product writes to its destination in the tile buffers (R159): in add mode, its sum with the block there. -/
def BlockProd.tileImage (b : BlockProd) (x : Cluster) (pr : List Nat) : List Byte :=
  if b.mode = 1 then (List.zipWith fadd (wordsOf (x.tileBytes (b.dest * 0x10000) 0x10000)) pr).flatMap (leBytes 4)
  else blockBytes b.wType pr

/-- A product has been written to its destination (R159): added to the accumulators of its wide block, one of 32, or its image in the tile
buffers; the other buffer has not changed. -/
def BlockWritten (x y : Cluster) (b : BlockProd) (pr : List Nat) : Prop :=
  (b.mode = 2 → b.dest < 32 → WideAdded x y (b.dest * 0x4000) (wordsOf (blockBytes 0 pr)) ∧ y.tile = x.tile) ∧
  (b.mode ≠ 2 → TileWrote x y (b.dest * 0x10000) (b.tileImage x pr) ∧ y.wide = x.wide)

/-! Wings and scales -/

/-- No wing but one has changed. -/
def OnlyWing (s t : State) (p w : Nat) : Prop := ∀ q v, wingKey q v ≠ wingKey p w → t.wing q v = s.wing q v

/-- No scale but one has changed. -/
def OnlyScale (s t : State) (p w b sc : Nat) : Prop :=
  ∀ q v a c, scaleKey q v a c ≠ scaleKey p w b sc → t.scale q v a c = s.scale q v a c

/-- The status fields of a wing that follow its operations, groups and output queue (R79). -/
def wingStatusKeys (p w : Nat) : List Nat :=
  [WNG_TOKENS_in_flight, WNG_OUTQ_full, WNG_OUTQ_occupancy, WNG_CG_OPEN_open].map (regKey (.wing p w))

/-- The mode under which a tile runs: that of its first operation, or for one that has not begun the present one (R112). -/
def State.tileMode (s : State) (p : Nat) (tl : Tile) : Bool := if tl.ran then tl.normal else s.normalService p

/-- The front operation of a logical wing's queue can go on: its tile, product, segment and scale are there, the wing is ready and no power
action waits for it, no escalated tile keeps the operation back, and the scale is neither held for a seating, nor being loaded, nor pinned
in normal service (R27, R51, R109, R110, R133). -/
def State.opReady (s : State) (p lw w : Nat) (o : ScaleOp) (tl : Tile) (d : Product) (g : Segment) (sc : Nat) : Prop :=
  s.physWing? p lw = some w ∧ s.tile? p w o.tile = some tl ∧ s.product? p tl.product = some d ∧ s.wingReady p w = true ∧
  (tl.ran = false → s.scaleHeld p lw tl.bank tl.scale = false) ∧ (s.wing p w).heldBack o = false ∧ s.powerWaits p w = false ∧
  (s.wing p w).segOf tl.product tl.token (d.gscale tl).rows o.pass.kind = some g ∧ s.tileScale? p w tl = some sc ∧
  (s.scale p w tl.bank sc).digital d (s.tileMode p tl) = false

/-- An operation of a wing runs, and its tile, product and segment are there; its scale serves, is not pinned in normal service, and waits for
no evaluation of its monitor (R51, R98, R110). -/
def State.opEnds (s : State) (p lw w id : Nat) (o : ScaleOp) (tl : Tile) (d : Product) (g : Segment) : Prop :=
  s.physWing? p lw = some w ∧ (s.wing p w).running.find? (fun r => r.id == id) = some o ∧ s.tile? p w o.tile = some tl ∧
  s.product? p tl.product = some d ∧ (s.wing p w).segOf tl.product tl.token (d.gscale tl).rows o.pass.kind = some g ∧
  (s.scale p w o.bank o.sc).mon.due = false ∧ (s.scale p w o.bank o.sc).role = 1 ∧ (s.scale p w o.bank o.sc).digital d tl.normal = false

/-- An engine may access every one of some ranges for its partition's own work (R165). -/
def State.reaches (s : State) (p : Nat) (rs : List (Nat × Nat)) : Prop := ∀ r ∈ rs, s.ownReach p r.1 r.2 = true

/-- A scale has reached neither its wear limit nor its defect limit (R143). -/
def State.withinLimits (s : State) (p w b sc : Nat) : Prop :=
  (s.rd (.upd p) UPD_RS_WEAR_LIM_limit = 0 → (s.scale p w b sc).wear < 0xFFFF_FFFF) ∧
  (s.rd (.upd p) UPD_RS_WEAR_LIM_limit ≠ 0 → (s.scale p w b sc).wear < s.rd (.upd p) UPD_RS_WEAR_LIM_limit) ∧
  (s.scale p w b sc).disabled.length < max 1 (s.rd (.upd p) UPD_RS_DEFECT_LIM_limit)

/-- A seat is a load that writes the physical scale of another. -/
def Seat.loads (u t : Seat) : Prop := u.kind ≠ .commit ∧ u.pw = t.pw ∧ u.bank = t.bank ∧ u.ps = t.ps

/-! Ports -/

/-- No port but one has changed. -/
def OnlyPort (s t : State) (i : Nat) : Prop := ∀ j, j ≠ i → t.port j = s.port j

/-- Whether an enabled port that is down has what training needs (R322, R412): power, a stable clock, and the module at Instar 2. -/
def State.portReady (s : State) (i : Nat) : Bool :=
  s.pairOn i && !s.stopped (isPort i) && bit (s.rd .clk CLK_PLL_STABLE_serdes) i && decide (2 ≤ s.rd .pwr PWR_INSTAR_instar)

/-- Whether a port that is down goes into training (R322). -/
def State.trains (s : State) (i : Nat) : Bool := s.on (.port i) FAB_PORT_CTL_enable && s.portReady i

/-- The round of a kind and step, or the one that its first event begins. -/
def State.roundOr (s : State) (kind : RoundKind) (step : Nat) : Round :=
  (s.round? kind step).getD { kind := kind, step := step, parts := [], value := kind == .commitRound, axes := [], got := [], sent := [] }

/-! Rings and host memory -/

/-- A range of host memory (`host`) or of device memory now holds the given bytes, and no other byte of either has changed. -/
def WroteSpace (s t : State) (host : Bool) (a : Nat) (l : List Byte) : Prop :=
  if host then
    (∀ b, t.hostByte b = if a ≤ b ∧ b < a + l.length then l.getD (b - a) 0 else s.hostByte b) ∧ ∀ b, t.byte b = s.byte b
  else Wrote s t a l ∧ ∀ b, t.hostByte b = s.hostByte b

/-- The sequencer may access some ranges of a ring's space (R165, R436). -/
def State.ringAllows (s : State) (p r : Nat) (rs : List (Nat × Nat)) : Prop :=
  s.ringHost p r = true ∨ ∀ x ∈ rs, s.ringReach p x.1 x.2 = true

/-- Only one ring of a partition has other indices. -/
def RingIs (s t : State) (p r : Nat) (x : Ring) : Prop := t.ring p r = x ∧ ∀ q, q ≠ r → t.ring p q = s.ring p q

/-- Nothing of a partition's record has changed but its rings' indices and its launches. -/
def OnlyRings (s t : State) (p : Nat) : Prop :=
  OnlyPart s t p ∧ t.part p = { s.part p with seq :=
    { (s.part p).seq with rings := (t.part p).seq.rings, launches := (t.part p).seq.launches, ell := (t.part p).seq.ell } }

/-! Resets -/

/-- What an engine reset clears of its block (R332); the listed state of a channel and of the host DMA is empty between two commands, and a
port in training has none. -/
def BlockCleared (s t : State) : Block → Prop
  | .cluster p c =>
    let x := t.cluster p.val c.val
    x.threads = [] ∧ x.mover = [] ∧ x.mmaQ = [] ∧ x.vecQ = [] ∧ x.tile = [] ∧ x.wide = []
  | .update p => (∀ u, (t.part p.val).pass = some u → u.flying = []) ∧ t.rd (.upd p.val) UPD_STATUS_in_flight = 0
  | .rotation p => (t.part p.val).rot = [] ∧ (t.part p.val).up = []
  | .wing p w =>
    let x := t.wing p.val w.val
    x.segs = [] ∧ x.waiting = [] ∧ x.running = [] ∧ x.tiles = [] ∧ x.openGroups = [] ∧ x.outQ = []
  | .sequencer p => (t.part p.val).seq.inflight = []
  | .tileMover p c => (t.cluster p.val c.val).mover = []
  | .channel _ _ => True
  | .port i => t.rd (.port i.val) FAB_PORT_STATE_link = 0 ∧
      (s.rd (.port i.val) FAB_PORT_STATE_link = 2 → (t.port i.val).replay = [] ∧ (t.port i.val).rxQ = [])
  | .hostDma => True

/-- A partition has entered its reset (R331, R334): its work is gone, its logic is reset but for what R334 keeps, and its hitch is held. -/
def PartReset (s t : State) (p kind : Nat) : Prop :=
  t.resetting.contains p = true ∧ t.rd (.part p) MGT_PT_STATE_state = 1 ∧ t.rd (.hch p) HCH_RESET_CAUSE_kind = kind ∧
  t.rd (.hch p) HCH_RECOVER_was_reset = 1 ∧ t.hch p = hchHeld ∧ (t.part p).seq = Seq.reset ∧ (t.part p).products = [] ∧
  (t.part p).seats = (s.part p).seats.filterMap Seat.afterReset ∧ (t.part p).pass = none ∧ (∀ lc, lc < 24 → t.physCluster p lc = s.physCluster p lc) ∧
  (∀ c, c < 26 → t.cluster p c = Cluster.reset) ∧ SameMemory s t

/-- The module right after a reset of all its blocks (R331, R335): memories, records, keys and bindings are gone; fuses and flash stay. -/
def ModuleCleared (s t : State) : Prop :=
  t.powered = true ∧ t.mem = [] ∧ t.poison = [] ∧ t.hostMem = s.hostMem ∧ t.clusters = [] ∧ t.parts = [] ∧ t.wings = [] ∧
  t.ports = [] ∧ t.fabric = Fabric.reset ∧ t.counters = [] ∧ t.records = [] ∧ t.bound = false ∧ t.featWritten = false ∧
  t.resetting = [] ∧ t.engineResets = [] ∧ t.security.slots = [] ∧ t.security.grants = [] ∧ t.security.fuseSvn = s.security.fuseSvn ∧
  t.wearFlash = s.wearFlash ∧ t.power.tripped = none ∧ t.rd .pwr PWR_INSTAR_instar = 0 ∧ t.rd .sec SEC_MODE_confidential = 0

/-- A partition has failed (R37): its cause and tick are recorded, it is out of service, and its work is gone. -/
def PartFailed (s t : State) (p cause : Nat) : Prop :=
  t.rd (.part p) MGT_PT_STATE_state = 3 ∧ t.rd (.part p) MGT_PT_STATE_cause = cause ∧ t.rd (.part p) MGT_PT_FAIL_TICK_tick = s.now ∧
  t.rd .pwr (PWR_P_STATE_state p) = 3 ∧ t.resetting.contains p = false ∧ (t.part p).seq = Seq.reset ∧ (t.part p).heldParts = [] ∧
  (t.part p).actions = [] ∧ SameMemory s t ∧
  t.rd (.part p) (HDR_INT PT_INT_failed) = 1

/-! Registers -/

/-- What a 32-bit read of a requester at an aligned offset leaves (R478, R480): the word is the answer; a lower word latches its upper
word, which that requester's next read of it returns; nothing else changes. -/
def RegisterRead (s t : State) (req off : Nat) : Prop :=
  t = { s with answer := t.answer, latch64 := t.latch64 } ∧
  (Page.at? off = none → t.answer = [0, 0, 0, 0] ∧ t.latch64 = s.latch64) ∧
  ∀ pg, Page.at? off = some pg →
    let o := off - pg.base
    let latched := s.latch64.find? (fun e => e.1 == req && e.2.1 == 8 * (off - 4))
    (wideRo pg o = true → t.answer = leBytes 4 (s.pageWord pg o) ∧
      t.latch64.head? = some (req, 8 * off, s.pageWord pg (o + 4))) ∧
    (wideRo pg o = false → 4 ≤ o → wideRo pg (o - 4) = true → ∀ e, latched = some e →
      t.answer = leBytes 4 e.2.2 ∧ t.latch64.find? (fun e => e.1 == req && e.2.1 == 8 * (off - 4)) = none) ∧
    (wideRo pg o = false → (o < 4 ∨ wideRo pg (o - 4) = false ∨ latched = none) →
      t.answer = leBytes 4 (s.pageWord pg o) ∧ t.latch64 = s.latch64)

/-- What a 32-bit write at an aligned offset leaves (R13, R284, R478, R481, R484): a reserved offset, or one that does not answer, discards
it; a plain register takes it field by field, but for one whose feature is off; the lower word of a 64-bit register is held until its upper
word is written. -/
def RegisterWritten (s t : State) (off v : Nat) : Prop :=
  (Page.at? off = none → t = s) ∧
  ∀ pg, Page.at? off = some pg →
    let o := off - pg.base
    (s.answers pg o = false → t = s) ∧
    (s.answers pg o = true →
      (∀ f l l', wideRw? pg o = none → (0x100 ≤ o → s.writeGlobal pg o v = none ∧ s.writePart pg o v = none) →
        fieldsAt pg o = l ++ f :: l' → (∀ g ∈ l ++ l', g.lo ≠ f.lo) →
        (f.acc = .rw → s.fieldOff pg f = false → t.rd pg f = bits v f.lo f.width) ∧
        (s.fieldOff pg f = true → f ≠ HDR_PROGRESS → t.rd pg f = s.rd pg f) ∧
        (f.acc = .w1c → s.fieldOff pg f = false → t.rd pg f = (s.rd pg f - (s.rd pg f &&& bits v f.lo f.width)) % 2 ^ f.width) ∧
        (f.acc = .ro → f ≠ HDR_PROGRESS → t.rd pg f = s.rd pg f)) ∧
      (∀ f, wideRw? pg o = some (f, false) → (∀ g ∈ fieldsAt pg o, s.fieldOff pg g = false) → t = { s with held64 := mapIns s.held64 (8 * (pg.base + f.off)) v }) ∧
      (∀ f lower, wideRw? pg o = some (f, true) → mapFind s.held64 (8 * (pg.base + f.off)) = some lower → f ≠ HDR_FEATURE_EN →
        s.fieldOff pg f = false → (∀ g ∈ fieldsAt pg o, s.fieldOff pg g = false) → (∀ p, pg ≠ .hch p) → t.rd pg f = bits (if pg = .sec then alignWide f (lower + 2 ^ 32 * v) else lower + 2 ^ 32 * v) f.lo f.width))

/-! Numbers -/

/-- The order of two numbers (R183): exact values are compared at their common exponent, and the infinities lie outside them. -/
def numBelow : Num → Num → Prop
  | .inf a, .inf b => a = true ∧ b = false
  | .inf a, .fin _ _ _ => a = true
  | .fin _ _ _, .inf b => b = false
  | .fin a m e, .fin b n d =>
    (if a then -(m : Int) else m) * 2 ^ (e - min e d).toNat < (if b then -(n : Int) else n) * 2 ^ (d - min e d).toNat
  | _, _ => False

/-- The same for equal values: the two zeros are equal. -/
def numSame : Num → Num → Prop
  | .inf a, .inf b => a = b
  | .fin a m e, .fin b n d =>
    (if a then -(m : Int) else m) * 2 ^ (e - min e d).toNat = (if b then -(n : Int) else n) * 2 ^ (d - min e d).toNat
  | _, _ => False

end Sys2Proof.Machine
end

