-- ==== Sys2Proof/Certificates/Slice0/Obligations.lean ====
section
/-! DEFINITION. The statements for the provers: what each command does when it has its own effect, what it leaves as it was, and the
invariants that every step keeps. Each docstring cites the rules it rests on. -/

open Sys2Proof Sys2Proof.Machine

/-- A step takes the command at the front of the queue and answers what that command does with the queue's rest. The model's choice (log
entry 1): with no command waiting a step is the tick edge, and without power nothing moves. R380, R381: an event before which others of its
tick act is only held, in the order of their ranks and instance numbers. -/
def Obligations.StepRunsTheQueue : Prop :=
  (∀ (c : Instr) (rest : List Instr) (s : State), s.pending = c :: rest → step s = exec c { s with pending := rest }) ∧
  (∀ s : State, s.pending = [] → ∃ t, step s = .next t ∧ t = s.tickEdge ∧ (s.powered = false → t = s)) ∧
  (∀ (c : Instr) (s : State), (∃ j ∈ s.pending ++ s.held, actsBefore j c = true) →
    exec c s = .next { s with held := putRanked c s.held }) ∧
  ∀ (c : Instr) (l : List Instr), l.Pairwise (fun i j => actsBefore j i = false) →
    (putRanked c l).Pairwise (fun i j => actsBefore j i = false) ∧ ∀ i, i ∈ putRanked c l ↔ i = c ∨ i ∈ l

/-- R12: after reset every register field reads as its reset value. Memory that nothing has written reads 0 (log entry 4), no command waits,
nothing is poisoned and the module is without power. -/
def Obligations.ResetHoldsResetValues : Prop :=
  (∀ (pg : Page) (f : Field), State.reset.rd pg f = resetOf pg f) ∧
  (∀ a, State.reset.byte a = 0) ∧ State.reset.poison = [] ∧ State.reset.pending = [] ∧ State.reset.powered = false

/-- The reset state is in order. -/
def Obligations.ResetIsCanonical : Prop := State.reset.canonical

/-- Every step keeps the state in order: both memories in their canonical form, the registers listed in rising order, the poisoned granules
in rising order without repeats. -/
def Obligations.StepKeepsCanonical : Prop := ∀ s t : State, s.canonical → step s = .next t → t.canonical

/-- R440: SVN fuses are blown once: no step lowers the fused SVN. -/
def Obligations.FusedSvnNeverFalls : Prop := ∀ s t : State, step s = .next t → s.security.fuseSvn ≤ t.security.fuseSvn

/-- A command changes everything but the queue: whatever it does, the commands that wait behind it still wait, in their order. Nor does one
that acts change what is held for the tick edge, but where the module loses its power. -/
def Obligations.CommandsLeaveTheQueue : Prop :=
  ∀ (c : Instr) (s t : State), exec c s = .next t →
    t.pending = s.pending ∧ (t.held = s.held ∨ t.held = [] ∨ t = { s with held := putRanked c s.held })

/-- The commands that store nothing leave every byte of device memory and of host memory, and every poisoned granule, as they were. -/
def Obligations.CommandsThatStoreNothing : Prop :=
  ∀ (c : Instr) (s t : State), storesNothing c = true → exec c s = .next t → SameMemory s t

/-- R364, R365: a single symbol error in a stored codeword, whatever its place and value, is corrected, and none is taken for another. -/
def Obligations.SingleSymbolErrorIsCorrected : Prop :=
  ∀ (u : Upset), u.x ≠ 0 → decodeGranule (upsetError [u]) = .corrected (upsetPlace u.byte) u.x.toNat

/-- R266, R268, R269, R289: NOP issues and completes at once: it counts in its launch and in PROGRESS and increments its signal fence, if
it has one inside the context, by 1. -/
def Obligations.NopCompletesAtIssue : Prop :=
  ∀ (p : PartId) (c : Cmd) (s : State) (l : Launch), s.issueLaunch p.val c = some l →
    s.signalsInside p.val (s.newCmd p.val 0x00 c l .done) →
    ∃ u t, Issued s u p.val 0x00 c l .done ∧ SeqFrame s u p.val (bumpKeys .pmc 1) ∧
      exec (.nop p c) s = .next t ∧ Completed u t p.val (s.newCmd p.val 0x00 c l .done)

/-- R266, R268: STEP_MARK issues, waits for its step boundary and puts the launch's n into THX_SEQ_STEP; nothing else changes. R116, R339,
R396: at the boundary of the earliest step mark the record of the step that ends is written to its place of the ladder map, if one is open
and the map has room, and no other byte of memory changes; the next step's record is begun, the trims have an application point, a
committed hitch becomes idle, and the mark has seen its boundary. -/
def Obligations.StepMarksAndTheirBoundary : Prop :=
  (∀ (p : PartId) (c : Cmd) (s : State) (l : Launch), s.issueLaunch p.val c = some l →
    ∃ t, exec (.stepMark p c) s = .next t ∧ Issued s t p.val 0x01 c l .boundary ∧
      t.rd (.thx p.val) THX_SEQ_STEP_step = l.step % 2 ^ 64 ∧
      SeqFrame s t p.val (regKey (.thx p.val) THX_SEQ_STEP_step :: bumpKeys .pmc 1)) ∧
  (∀ (p : PartId) (s : State) (x : Inflight), s.markWaiting p.val = some x →
    s.boundaryFree p.val (s.stepOf p.val x) = true →
    ∃ t, exec (.stepBoundary p) s = .next t ∧
      (t.part p.val).stepOpen = some (s.stepOf p.val x) ∧ (t.part p.val).rungs = [] ∧ (t.part p.val).trimDue = true ∧
      (∀ y ∈ t.flight p.val, y.id = x.id → y.work = .done) ∧
      (s.hch p.val = hchCommitted → t.hch p.val = hchIdle) ∧
      ∀ a, t.byte a =
        match (s.part p.val).stepOpen with
        | none => s.byte a
        | some n =>
          let depth := s.rd (.lad p.val) LAD_MAP_CFG_depth
          let base := s.mapBase p.val + 0x8000 + n % depth * 32768
          if depth ≠ 0 ∧ s.ownReach p.val base 32768 = true ∧ base ≤ a ∧ a < base + 32768 then (recordBytes (s.recordEntries p.val)).getD (a - base) 0 else s.byte a)

/-- R277: KERNEL places its threads on every cluster its mask names: the lowest-numbered free threads of the physical cluster, each at the
program's first instruction with a0 the argument block, a1 the logical cluster, a2 its rank and every other register 0. Threads
already there, the cluster's other contents and every other cluster stay. -/
def Obligations.KernelPlacesItsThreads : Prop :=
  ∀ (p : PartId) (c : Cmd) (s : State) (l : Launch) (pc arg : Nat),
    let mask := bits c.c.toNat 0 24
    let n := bits c.c.toNat 24 7
    s.issueLaunch p.val c = some l → (c.deferred = true → s.feature 11 = true) →
    s.operandAt p.val c l.step c.a 16 = some pc → cmdAddress c l.step c.b = some arg → isRemote arg = false →
    s.kernelFits p.val mask n = true →
    ∃ t, exec (.kernel p c) s = .next t ∧ Issued s t p.val 0x02 c l .threads ∧ OnlyPart s t p.val ∧
      t = { s with regs := t.regs, sent := t.sent, parts := t.parts, clusters := t.clusters, nDraw := t.nDraw, cycle := t.cycle } ∧
      RegsBut s t (bumpKeys .pmc 1) ∧
      (∀ lc, lc < 24 → bit mask lc = true →
        (∀ lc', lc' < 24 → bit mask lc' = true → s.physCluster p.val lc' = s.physCluster p.val lc → lc' = lc) →
        let x := s.cluster p.val (s.physCluster p.val lc)
        let free := x.freeThreads.take n
        t.cluster p.val (s.physCluster p.val lc) = { x with threads := (t.cluster p.val (s.physCluster p.val lc)).threads } ∧
        (∀ th, th ∉ free → mapFind (t.cluster p.val (s.physCluster p.val lc)).threads th = mapFind x.threads th) ∧
        (∀ r, r < free.length → ∃ y, mapFind (t.cluster p.val (s.physCluster p.val lc)).threads (free.getD r 0) = some y ∧
          y.cmd = s.nextId p.val ∧ y.pc = pc ∧ y.st = .ready ∧ y.deferred = c.deferred ∧
          y.areg 0 = BitVec.ofNat 64 arg ∧ y.areg 1 = BitVec.ofNat 64 lc ∧ y.areg 2 = BitVec.ofNat 64 r ∧
          (∀ k, 2 < k → y.areg k = 0) ∧ ∀ k, y.counter k = 0)) ∧
      ∀ q d, (∀ lc, lc < 24 → bit mask lc = true → clusterKey q d ≠ clusterKey p.val (s.physCluster p.val lc)) →
        t.cluster q d = s.cluster q d

/-- R266, R370: a MOVE inside the module copies its bytes: every byte of the destination reads as the source byte did, every other byte as
before; the granules of the destination are poisoned where the source was (R368), and the command has its work done. The channels that
carried the lines count them (R155). R302, R303: a MOVE whose target lies on another module, with the first port of its route up, leaves
the module's memory as it is: its bytes wait on that port in granules, on the virtual channel that its first hop asks for, and the write
is outstanding until it is acknowledged. -/
def Obligations.MovesCopyOrSendTheirBytes : Prop :=
  (∀ (p : PartId) (c : Cmd) (s : State) (l : Launch) (src dst : Nat),
    let n := bits c.c.toNat 0 40
    s.issueLaunch p.val c = some l → cmdAddress c l.step c.a = some src → cmdAddress c l.step c.b = some dst →
    n % 64 = 0 → n ≠ 0 → isRemote src = false → isRemote dst = false →
    s.reach p.val src n = true → s.reach p.val dst n = true →
    ∃ t, exec (.move p c) s = .next t ∧ Issued s t p.val 0x06 c l .done ∧ OnlyPart s t p.val ∧
      t = { s with
        regs := t.regs, sent := t.sent, parts := t.parts, mem := t.mem, poison := t.poison, nDraw := t.nDraw, cycle := t.cycle } ∧
      (∀ a, t.byte a = if dst ≤ a ∧ a < dst + n then s.byte (src + (a - dst)) else s.byte a) ∧
      (∀ g, g ∈ t.poison ↔ g ∈ s.poisonMoved src dst n ∨ (g ∈ s.poison ∧ ¬(dst ≤ 32 * g ∧ 32 * g + 32 ≤ dst + n))) ∧
      RegsButLines s t (bumpKeys .pmc 1)) ∧
  (∀ (p : PartId) (c : Cmd) (s : State) (l : Launch) (src dst coord addr : Nat) (h : Nat × Bool × Bool),
    let n := bits c.c.toNat 0 40
    s.issueLaunch p.val c = some l → cmdAddress c l.step c.a = some src → cmdAddress c l.step c.b = some dst →
    n % 64 = 0 → n ≠ 0 → isRemote src = false → isRemote dst = true → remoteTarget dst = some (coord, addr) → s.feature 4 = true →
    s.reach p.val src n = true → s.firstHop coord = some h → s.rd (.port (hopPort h)) FAB_PORT_STATE_link = 2 →
    let r : Remote := { id := s.fabric.nextRw, part := p.val, cmd := s.nextId p.val, coord := coord, addr := addr
                        data := s.bytes src n, sent := none }
    ∃ t, exec (.move p c) s = .next t ∧ Issued s t p.val 0x06 c l .remote ∧ SameMemory s t ∧
      t.fabric = { s.fabric with nextRw := s.fabric.nextRw + 1, remotes := s.fabric.remotes ++ [r] } ∧
      (t.port (hopPort h)).txQ = (s.port (hopPort h)).txQ ++ s.writeGranules r (if h.2.2 then 2 else 1) (s.poisonPieces src n) ∧
      (∀ i, i ≠ hopPort h → t.port i = s.port i) ∧ RegsButLines s t (bumpKeys .pmc 1))

/-- R266, R270: an ANALOGUE command whose operands, layer and column group table are in order opens a product of its layer, sources,
sizes and groups; the command is complete when that product closes. No byte of memory changes. -/
def Obligations.AnalogueOpensItsProduct : Prop :=
  ∀ (p : PartId) (c : Cmd) (s : State) (l : Launch) (src dst tab len : Nat) (gs : List Group),
    let tokens := bits c.d.toNat 0 32
    let layer := bits c.d.toNat 32 12
    let kp := bits (s.word tab 8) 0 32
    let n := bits (s.word tab 8) 32 32
    s.issueLaunch p.val c = some l → s.feature 0 = true → bits c.d.toNat 44 20 = 0 → layer < s.layers p.val → tokens ≠ 0 →
    cmdAddress c l.step c.a = some src → cmdAddress c l.step c.b = some dst → cmdAddress c l.step c.c = some tab →
    s.reach p.val tab 8 = true → readGroups (fun i => s.word (tab + 8 * i) 8) 0x20_0000 1 = some (gs, len) →
    layerWide (s.layerEntry p.val layer) = false → tableOk kp n gs = true →
    s.reach p.val tab (8 * len) = true → s.reach p.val src (tokens * kp * 4) = true → s.reach p.val dst (tokens * n * 4) = true →
    s.poisonedIn tab (8 * len) = false → s.poisonedIn (s.mapBase p.val + 8 * layer) 8 = false →
    ∃ t, exec (.analogue p c) s = .next t ∧ Issued s t p.val 0x03 c l (.product (s.part p.val).nextProd) ∧
      SeqFrame s t p.val (bumpKeys .pmc 1) ∧
      (t.part p.val).nextProd = (s.part p.val).nextProd + 1 ∧
      (t.part p.val).products = (s.part p.val).products ++
        [{ id := (s.part p.val).nextProd, layer := layer, src := src, dst := dst, tokens := tokens, kp := kp, n := n, groups := gs
           nonFinite := none, poisoned := false, outputs := [] }]

/-- R266, R271, R147, R148, R518: a RESEAT command whose descriptors are clean and whose ranges lie in the context takes them in order.
Those of other holders are accepted: a commit seat of each one's scale waits under the present commit step, with the layer's seed. An
owner's descriptor is accepted too, after its image is formed; where the commit left its master values as they were, the image is only its
header, marked unchanged, and no byte outside that header changes (R131). A descriptor of a wide layer is refused and counted. -/
def Obligations.ReseatAcceptsItsDescriptors : Prop :=
  ∀ (p : PartId) (c : Cmd) (s : State) (l : Launch) (a : Nat),
    let n := bits c.b.toNat 0 32
    let ds := (List.range n).map (fun i => s.seatDesc (a + 32 * i))
    let commit := s.rd (.hch p.val) HCH_COMMIT_step
    let seat := fun (d : SeatDesc) (i : Nat) =>
      ({ id := (s.part p.val).nextSeat + i, kind := .commit, cmd := some (s.nextId p.val), lw := d.wing, bank := d.bank, ls := d.scale
         pw := 0, ps := 0, under := commit, c := 0, layer := d.layer, seed := layerSeed (s.layerEntry p.val d.layer), k0 := d.k0
         n0 := d.n0, nTotal := d.n, image := d.image, checked := false, rows := [], f := [], rho := 0, stuck := false
         reform := false } : Seat)
    s.issueLaunch p.val c = some l → s.feature 0 = true → s.operandAt p.val c l.step c.a (32 * n) = some a →
    s.poisonedIn a (32 * n) = false →
    (∀ d ∈ ds, d.layer < s.layers p.val ∧ s.reach p.val (s.mapBase p.val + 8 * d.layer) 8 = true ∧ s.seatReach p.val d = true) →
    ((∀ d ∈ ds, d.owner = false ∧ layerWide (s.layerEntry p.val d.layer) = false) →
      ∃ t, exec (.reseat p c) s = .next t ∧ Issued s t p.val 0x04 c l .seats ∧
        SeqFrame s t p.val (regKey (.upd p.val) UPD_RS_EPOCH_step :: bumpKeys .pmc 1) ∧
        (t.part p.val).nextSeat = (s.part p.val).nextSeat + n ∧
        (t.part p.val).seats = (s.part p.val).seats ++ ds.zipIdx.map (fun e => seat e.1 e.2)) ∧
    (∀ d, ds = [d] → d.owner = true → layerWide (s.layerEntry p.val d.layer) = false → s.skipped p.val l.step = false →
      ∃ t, exec (.reseat p c) s = .next t ∧ Issued s t p.val 0x04 c l .seats ∧ OnlyPart s t p.val ∧
        (t.part p.val).seats = (s.part p.val).seats ++ [seat d 0] ∧
        ((s.part p.val).same.contains (commit, d.master) = true → Wrote s t (d.image + imageHead) (imageHeader commit 1))) ∧
    (∀ d, ds = [d] → layerWide (s.layerEntry p.val d.layer) = true →
      ∃ t, exec (.reseat p c) s = .next t ∧ Issued s t p.val 0x04 c l .seats ∧
        SeqFrame s t p.val (bumpKeys (.upd p.val) 45 ++ bumpKeys .pmc 1) ∧ (t.part p.val).seats = (s.part p.val).seats)

/-- R234, R266: an UPDATE command whose descriptors are clean and inside the context begins its pass: it holds the descriptors in order,
UPD_STATUS shows the engine busy in its first phase, and HCH_RECOVER.pass_done clears until the pass has ended. R239, R240, R243: a pass
whose every chunk is done ends, and the engine is idle; where nothing was refused UPD_STEP takes its step and, unless the hitch holds a
refusal, its completion counts for the vote. -/
def Obligations.UpdateBeginsItsPass : Prop :=
  (∀ (p : PartId) (c : Cmd) (s : State) (l : Launch) (a : Nat),
    let n := bits c.b.toNat 0 32
    let ds := (List.range n).map (fun i => readUpdDesc (s.bytes (a + 64 * i) 64))
    s.issueLaunch p.val c = some l → (s.part p.val).pass = none → s.operandAt p.val c l.step c.a (64 * n) = some a →
    s.poisonedIn a (64 * n) = false → (∀ d ∈ ds, d.layer < s.layers p.val) → ((∃ d ∈ ds, d.bf16W = true) → s.feature 7 = true) →
    (∀ d ∈ ds, ∀ r ∈ d.ranges, s.reach p.val r.1 r.2 = true) →
    ∃ t u, exec (.update p c) s = .next t ∧ Issued s t p.val 0x05 c l .pass ∧
      (t.part p.val).pass = some u ∧ u.cmd = s.nextId p.val ∧ u.descs = ds ∧ u.classified = false ∧ u.jobs = [] ∧ u.flying = [] ∧
      t.rd (.upd p.val) UPD_STATUS_busy = 1 ∧ t.rd (.upd p.val) UPD_STATUS_phase = 1 ∧
      t.rd (.hch p.val) HCH_RECOVER_pass_done = 0 ∧
      SeqFrame s t p.val (regKey (.upd p.val) UPD_STATUS_busy :: regKey (.upd p.val) UPD_STATUS_phase ::
        regKey (.hch p.val) HCH_RECOVER_pass_done :: bumpKeys .pmc 1)) ∧
  (∀ (p : PartId) (s : State) (u : UpdPass), (s.part p.val).pass = some u → u.classified = true → u.jobs = [] → u.flying = [] →
    s.reaches p.val (s.passRanges p.val u) →
    ∃ t, exec (.updatePassEnd p) s = .next t ∧ (t.part p.val).pass = none ∧ OnlyPart s t p.val ∧
      t.rd (.upd p.val) UPD_STATUS_busy = 0 ∧
      (u.refused = true → t.rd (.upd p.val) UPD_STEP_step = s.rd (.upd p.val) UPD_STEP_step) ∧
      (u.refused = false → t.rd (.upd p.val) UPD_STEP_step = u.h % 2 ^ 64 ∧ t.rd (.upd p.val) (HDR_INT UPD_INT_pass_done) = 1 ∧
        ((s.part p.val).hitch.refused = false → t.rd (.hch p.val) HCH_RECOVER_pass_done = 1)) ∧
      (((∀ r ∈ u.ratios, r.any = false) ∨ u.stopped = true) → SameMemory s t))

/-- R304, R305, R306: REDUCE_SCATTER, ALL_GATHER and ALL_REDUCE with operands in order run as soon as fewer than 4 collectives of the
partition are in flight and their ports are up: the destination takes the reduced shard, all shards, or all reduced shards, and no other byte
changes but the header of a gradient's buffer (R234, R349; its place is the model's choice, log entry 60). -/
def Obligations.RingCollectivesWriteTheirResult : Prop :=
  ∀ (p : PartId) (c : Cmd) (peers : List Member) (s : State) (l : Launch) (src dst : Nat),
    let x := s.collAxis p.val l.step c
    let len := bits c.c.toNat 0 40
    let op := bits c.c.toNat 46 2
    let m := fun n => membersOf (s.readMember src n) x.k peers
    let r := fun k => x.reduced op len (x.bidir c) (m (x.n * len)) k
    let all := joinAll (len / 32) ((List.range x.n).map r)
    let result := fun (t : State) (head : Prop) (y : Member) => ∀ a,
      (head ∧ dst - 64 ≤ a ∧ a < dst → t.byte a = (gradientHead l.step (if y.poison.isEmpty then 0 else 1)).getD (a - (dst - 64)) 0) ∧
      (dst ≤ a ∧ a < dst + y.data.length → t.byte a = y.data.getD (a - dst) 0) ∧
      (¬(head ∧ dst - 64 ≤ a ∧ a < dst) → ¬(dst ≤ a ∧ a < dst + y.data.length) → t.byte a = s.byte a)
    (s.collectiveRuns p.val c l 1 (x.n * len) len (ringPorts c x) src dst →
      ∃ t, exec (.reduceScatter p c peers) s = .next t ∧ CollFrame s t p.val c l (ringPorts c x) ∧
        result t (bits c.c.toNat 44 2 = 3 ∧ 64 ≤ dst) (r x.k)) ∧
    (s.collectiveRuns p.val c l 2 len (x.n * len) (ringPorts c x) src dst →
      ∃ t, exec (.allGather p c peers) s = .next t ∧ CollFrame s t p.val c l (ringPorts c x) ∧
        Wrote s t dst (joinAll (len / 32) ((List.range x.n).map (fun j => pieceOf (m len j) 0 (len / 32)))).data) ∧
    (s.collectiveRuns p.val c l 3 (x.n * len) (x.n * len) (ringPorts c x) src dst →
      ∃ t, exec (.allReduce p c peers) s = .next t ∧ CollFrame s t p.val c l (ringPorts c x) ∧
        result t (bits c.c.toNat 44 2 = 3 ∧ s.holdsGradient l.step dst = true) all)

/-- R304, R305: SHIFT_UP and SHIFT_DOWN: a member that receives takes the bytes that arrive (its own where it is the axis's one member) at
its destination; one that sends queues its own on its port. On an open axis the ends do not wrap. -/
def Obligations.ShiftsPassBytesOn : Prop :=
  ∀ (p : PartId) (c : Cmd) (received : Member) (s : State) (l : Launch) (src dst : Nat) (up : Bool),
    let x := s.collAxis p.val l.step c
    let len := bits c.c.toNat 0 40
    let o := bit c.d.toNat 0
    let ports := shiftPorts up o x
    let own := s.readMember src len
    s.collectiveRuns p.val c l (if up then 5 else 6) len len ports src dst →
    ∃ t, exec (if up then .shiftUp p c received else .shiftDown p c received) s = .next t ∧ CollFrame s t p.val c l ports ∧
      ((x.shiftEnds up o).2 = true → Wrote s t dst (if x.n < 2 then own else pieceOf received 0 (len / 32)).data) ∧
      ((x.shiftEnds up o).2 = false → ∀ a, t.byte a = s.byte a) ∧
      ((x.shiftEnds up o).1 = true → 1 < x.n → (t.port (x.sendPort up)).txQ = (s.port (x.sendPort up)).txQ ++
        x.granules (s.memberCoord x.axis (x.next up)) own)

/-- R236, R237, R312, R336: FLAG_ROUND issues, unless 4 collectives are in flight, and its partition joins the flag round of its step; where
the stream has raised the flag, the partition's flag is set; the round of the open hitch's step makes the hitch exchanged. R339: HITCH open
at a free boundary completes: HCH_OPEN and UPD_HITCH_STEP take the step, UPD_NF and HCH_RECOVER.exchanged clear, the partition's non-finite
flag clears, and the hitch is open; nothing else changes. At any other boundary it completes and the hitch is held. -/
def Obligations.FlagRoundsAndHitchOpens : Prop :=
  (∀ (p : PartId) (c : Cmd) (raised : Bool) (s : State) (l : Launch), s.issueLaunch p.val c = some l → s.feature 5 = true →
    s.collsOf p.val < 4 →
    ∃ u, Issued s u p.val 7 c l .flagRound ∧
      SeqFrame s u p.val (regKey (.hch p.val) HCH_RECOVER_exchanged :: regKey (.hch p.val) HCH_STATE_state :: bumpKeys .pmc 1) ∧
      (u.part p.val).hitch = { (s.part p.val).hitch with localNf := (s.part p.val).hitch.localNf || raised } ∧
      (l.step = s.rd (.hch p.val) HCH_OPEN_step → u.rd (.hch p.val) HCH_RECOVER_exchanged = 1 ∧
        (s.hch p.val = hchOpen → u.hch p.val = hchExchanged)) ∧
      exec (.flagRound p c raised) s = .next (u.joinRound .flagRound l.step p.val)) ∧
  (∀ (p : PartId) (c : Cmd) (s : State) (l : Launch), s.issueLaunch p.val c = some l →
    s.signalsInside p.val (s.newCmd p.val 8 c l .done) →
    ∃ u v t, Issued s u p.val 8 c l .done ∧ SeqFrame s u p.val (bumpKeys .pmc 1) ∧ Completed u v p.val (s.newCmd p.val 8 c l .done) ∧
      exec (.hitchOpen p c) s = .next t ∧
      t.rd (.upd p.val) UPD_NF_resolved = 0 ∧ t.rd (.upd p.val) UPD_NF_set = 0 ∧ (t.part p.val).owned = [] ∧
      (s.boundaryFree p.val l.step = true →
        t.rd (.hch p.val) HCH_OPEN_step = l.step % 2 ^ 64 ∧ t.rd (.upd p.val) UPD_HITCH_STEP_step = l.step % 2 ^ 64 ∧
        t.rd (.hch p.val) HCH_RECOVER_exchanged = 0 ∧ t.rd (.hch p.val) HCH_RECOVER_pass_done = 1 ∧ t.hch p.val = hchOpen ∧
        t.part p.val = { v.part p.val with owned := [], hitch := { (v.part p.val).hitch with localNf := false, refused := false } } ∧
        SeqFrame v t p.val ([HCH_OPEN_step, HCH_RECOVER_exchanged, HCH_RECOVER_pass_done, HCH_STATE_state].map (regKey (.hch p.val)) ++
          [UPD_NF_resolved, UPD_NF_set, UPD_HITCH_STEP_step].map (regKey (.upd p.val)))) ∧
      (s.boundaryFree p.val l.step = false → t.hch p.val = hchHeld ∧ SameMemory v t))

/-- R341, R345, R349, R352: the phases that read a shard table. COMMIT votes, awaits the headers of the chunks it shares and joins the
commit round; with the flag of a skipped step set it completes and the hitch is idle. PUSH of an invalid entry completes at issue; PUSH as
the sender pushes the entry's stable chunks; as the receiver it begins to receive them. CHECKPOINT stages the chunks that it holds first,
sends its headers, and awaits the others. -/
def Obligations.HitchPhasesReadTheirTable : Prop :=
  ∀ (p : PartId) (c : Cmd) (s : State) (l : Launch) (es : List ShardEntry), s.issueLaunch p.val c = some l →
    let n := bits c.c.toNat 0 16
    let id := s.nextId p.val
    let qs := (es.filter (fun e => e.valid)).flatMap (s.chunksOf id)
    (s.tableReads p.val c l 0 n es → s.rd (.upd p.val) UPD_NF_set = 0 →
      ∃ u, Issued s u p.val 8 c l .commit ∧ (u.part p.val).hitch.roundOpen = true ∧
        (u.part p.val).hitch.awaiting = (s.part p.val).hitch.awaiting ++ qs.map (fun q => (Await.commit, q)) ∧
        u.rd (.hch p.val) HCH_STATE_vote = flag (s.on (.hch p.val) HCH_RECOVER_pass_done) ∧
        SeqFrame s u p.val (regKey (.hch p.val) HCH_STATE_vote :: regKey (.hch p.val) HCH_STATE_state :: bumpKeys .pmc 1) ∧
        exec (.hitchCommit p c) s = .next (u.joinRound .commitRound (s.rd (.hch p.val) HCH_OPEN_step) p.val)) ∧
    (s.tableReads p.val c l 0 n es → s.rd (.upd p.val) UPD_NF_set = 1 → s.signalsInside p.val (s.newCmd p.val 8 c l .done) →
      ∃ u v t, Issued s u p.val 8 c l .done ∧ SeqFrame s u p.val (bumpKeys .pmc 1) ∧ Completed u v p.val (s.newCmd p.val 8 c l .done) ∧
        exec (.hitchCommit p c) s = .next t ∧ OnlyRegs v t [regKey (.hch p.val) HCH_STATE_state] ∧ t.hch p.val = hchIdle) ∧
    (∀ e, s.tableReads p.val c l n 1 [e] →
      (e.valid = false → s.signalsInside p.val (s.newCmd p.val 8 c l .done) →
        ∃ u t, Issued s u p.val 8 c l .done ∧ SeqFrame s u p.val (bumpKeys .pmc 1) ∧ exec (.hitchPush p c) s = .next t ∧
          Completed u t p.val (s.newCmd p.val 8 c l .done)) ∧
      (e.valid = true → ∃ u, Issued s u p.val 8 c l .push ∧ SeqFrame s u p.val (bumpKeys .pmc 1) ∧
        exec (.hitchPush p c) s = .next
          (if bit c.c.toNat 31 then ((s.chunksOf id e).foldl (fun t q => t.beginReceive p.val q) u).hitchArrivals p.val
          else (s.chunksOf id e).foldl (fun t q => if t.hdrSeen (t.headerAt p.val q.k) = 0 then t.pushChunk p.val q else t) u))) ∧
    (s.tableReads p.val c l 0 n es → s.feature 8 = true → (s.part p.val).staged = [] →
      ∃ u v, Issued s u p.val 8 c l .push ∧ SeqFrame s u p.val (bumpKeys .pmc 1) ∧
        v = u.stageAll p.val (s.rd (.hch p.val) HCH_COMMIT_step) ((es.filter (fun e => !e.second)).flatMap (s.chunksOf id)) ∧
        ∃ w, w.rd (.hch p.val) HCH_CKPT_STATUS_pending = (v.part p.val).staged.length % 2 ^ HCH_CKPT_STATUS_pending.width ∧
          w.rd (.hch p.val) HCH_CKPT_STATUS_verify_failed = 0 ∧
          OnlyRegs v w ([HCH_CKPT_STATUS_verify_failed, HCH_CKPT_STATUS_draining, HCH_CKPT_STATUS_pending].map (regKey (.hch p.val))) ∧
          exec (.hitchCheckpoint p c) s = .next
            (((qs.foldl (fun t q => t.sendEntry p.val q) w).modPart p.val (fun x =>
              { x with ckpt := some (s.rd (.hch p.val) HCH_COMMIT_step,
                         (qs.foldl (fun t q => t.sendEntry p.val q) w).rd (.hch p.val) HCH_CKPT_DST_base * 4096)
                       written := 0
                       hitch := { x.hitch with awaiting := x.hitch.awaiting ++ qs.map (fun q => (Await.capture, q)) } })).hitchArrivals
                p.val))

/-- R344, R356: RESUME takes the step and the mode of its command, clears what an earlier resume left and begins the exchange of headers.
RESTORE of one record that authenticates writes its state and then the chunk's header, stable and of the record's step, and HCH_COMMIT
takes that step; the place of the state is a free value (log entry 64). -/
def Obligations.HitchResumesAndRestores : Prop :=
  ∀ (p : PartId) (c : Cmd) (s : State) (l : Launch), s.issueLaunch p.val c = some l →
    (∀ es, s.tableReads p.val c l 0 (bits c.c.toNat 0 16) es →
      ∃ u, Issued s u p.val 8 c l .resume ∧ u.hch p.val = hchResuming ∧
        (u.part p.val).hitch.resumeMode = bits c.c.toNat 16 2 ∧ (u.part p.val).hitch.resumeStep = c.b.toNat ∧
        u.rd (.upd p.val) UPD_HITCH_STEP_step = c.b.toNat ∧ u.rd (.hch p.val) HCH_RECOVER_shard_lost = 0 ∧
        u.rd (.upd p.val) UPD_NF_set = flag (bits c.c.toNat 16 2 = 3) ∧ SameMemory s u ∧
        exec (.hitchResume p c) s = .next
          (let qs := (es.filter (fun e => e.valid)).flatMap (s.chunksOf (s.nextId p.val))
           let t := (qs.foldl (fun t q => t.sendEntry p.val q) u).modHitch p.val (fun h =>
             { h with awaiting := h.awaiting ++ qs.map (fun q => (Await.resume, q)) })
           (if t.on (.hch p.val) HCH_RECOVER_was_reset then t.reloadScales p.val else t).hitchArrivals p.val)) ∧
    (∀ a i k pl, cmdAddress c l.step c.b = some a → s.slotFor p.val 1 = some (i, k) → bits c.c.toNat 0 32 = 1 → s.feature 8 = true →
      s.reach p.val a (128 + (readRecord (s.bytes a 128)).len) = true → s.poisonedIn a 128 = false → s.openRecord k a = some pl →
      let x := readRecord (s.bytes a 128)
      ∃ t, exec (.hitchRestore p c) s = .next t ∧ Issued s t p.val 8 c l .done ∧ OnlyPart s t p.val ∧
        t.bytes (s.headerAt p.val x.k) 64 =
          leBytes 8 x.step ++ leBytes 8 (4 * x.layer) ++ leBytes 8 x.digest ++ List.replicate 40 0 ∧
        t.rd (.hch p.val) HCH_COMMIT_step = x.step % 2 ^ 64 ∧
        RegsBut s t (regKey (.hch p.val) HCH_COMMIT_step :: bumpKeys .pmc 1))

/-- R278, R152: thread instructions that change the thread alone, at the thread whose turn to issue it is: ADDI puts a[rb] + imm64 into
a[ra]; SETC puts imm32 into a counter; LOOP counts down and branches unless the result is 0 (counted from LOOP itself, log entry 21); EXIT
frees the thread; SYNC puts it in engine wait, or leaves it ready where the wait is over. No other thread, register or byte changes. R278:
SETC and LOOP with a counter number above 7 are faults of reason 0x7 that halt the thread. -/
def Obligations.ThreadInstructionsChangeTheirThread : Prop :=
  (∀ (p : PartId) (c : LogicalCluster) (th : ThreadId) (i : TInstr) (s : State) (y : Thread), s.issuing? p.val c.val th.val = some y →
    (∃ t z, exec (.addi p c th i) s = .next t ∧ ThreadBecomes s t p.val c.val th.val (some z) ∧ z = { y with pc := y.pc + 16, a := z.a } ∧
      z.areg i.ra.val = y.areg i.rb.val + i.imm64 ∧ ∀ r, r ≠ i.ra.val → z.areg r = y.areg r) ∧
    (i.ra.val < 8 → ∃ t z, exec (.setc p c th i) s = .next t ∧ ThreadBecomes s t p.val c.val th.val (some z) ∧
      z = { y with pc := y.pc + 16, c := z.c } ∧ z.counter i.ra.val = i.imm32 ∧ ∀ r, r ≠ i.ra.val → z.counter r = y.counter r) ∧
    (i.ra.val < 8 → ∃ t z, exec (.loop p c th i) s = .next t ∧ ThreadBecomes s t p.val c.val th.val (some z) ∧
      z = { y with pc := z.pc, c := z.c } ∧ z.counter i.ra.val = y.counter i.ra.val - 1 ∧
      (∀ r, r ≠ i.ra.val → z.counter r = y.counter r) ∧
      (y.counter i.ra.val = 1 → z.pc = y.pc + 16) ∧
      (y.counter i.ra.val ≠ 1 → (z.pc : Int) = ((y.pc : Int) + 16 * i.imm32.toInt) % 2 ^ 64)) ∧
    (∃ t, exec (.exit p c th i) s = .next t ∧ ThreadBecomes s t p.val c.val th.val none) ∧
    (∃ t z, exec (.sync p c th i) s = .next t ∧ ThreadBecomes s t p.val c.val th.val (some z) ∧ z = { y with pc := y.pc + 16, st := z.st } ∧
      z.st = if (s.cluster p.val (s.physCluster p.val c.val)).waitOver (s.awaits p.val c.val th.val) th.val
          { y with st := .engWait (bits i.f.toNat 0 3) } then .ready else .engWait (bits i.f.toNat 0 3))) ∧
  (∀ (p : PartId) (c : LogicalCluster) (th : ThreadId) (i : TInstr) (s : State) (y : Thread), s.issuing? p.val c.val th.val = some y →
    8 ≤ i.ra.val → ∀ e ∈ [Instr.setc p c th i, Instr.loop p c th i],
    ∃ t, exec e s = .next t ∧ t.rd (.thx p.val) THX_SEQ_FAULT_reason = 7 ∧ t.rd (.thx p.val) THX_SEQ_CTL_run = 0 ∧
      ThreadIs (s.cluster p.val (s.physCluster p.val c.val)) (t.cluster p.val (s.physCluster p.val c.val)) th.val
        (some { y with st := .halted }) ∧ SameMemory s t)

/-- R153, R154, R174, R213, R278: MMA, VEC and the tile mover's MOVE with operands in order and room in their queue put one operation at the
end of it, a block product that finds the queue empty beginning under the γ and the window of now, and the thread goes on to its next
instruction; nothing else changes but the stamps of tagged commands (R471). -/
def Obligations.ThreadOperationsJoinTheirQueue : Prop :=
  ∀ (p : PartId) (c : LogicalCluster) (th : ThreadId) (i : TInstr) (s : State) (y : Thread), s.issuing? p.val c.val th.val = some y →
    let k := s.physCluster p.val c.val
    let x := s.cluster p.val k
    let went := fun (t : State) (z : Cluster) =>
      t = { s with clusters := t.clusters, parts := t.parts } ∧ OnlyStamps s t p.val ∧ OnlyCluster s t p.val k ∧
      t.cluster p.val k = { z with threads := (t.cluster p.val k).threads, last := th.val } ∧
      ThreadIs x (t.cluster p.val k) th.val (some { y with pc := y.pc + 16 })
    (∀ b, blockProd? y i th.val = some b → hasRoom y.deferred x.mmaQ.length = true →
      ∃ t, exec (.mma p c th i) s = .next t ∧ went t { x with mmaQ := if x.mmaQ.isEmpty then [s.begun p.val b] else x.mmaQ ++ [b] }) ∧
    (s.reach p.val (y.areg i.ra.val + i.imm64).toNat 128 = true → hasRoom y.deferred x.vecQueued = true →
      ∃ t, exec (.vec p c th i) s = .next t ∧ went t
        { x with vecQ := x.vecQ ++ [{ addr := (y.areg i.ra.val + i.imm64).toNat, thread := th.val, ran := false }] }) ∧
    (∀ r, moverReq? y i x.nextReq th.val = some r → (r.conv = 0 ∨ s.feature 6 = true) →
      s.reach p.val r.device r.deviceLen = true → x.moverRoom th.val = true →
      ∃ t, exec (.tileMoverRequest p c th i) s = .next t ∧ went t { x with mover := x.mover ++ [r], nextReq := x.nextReq + 1 })

/-- R154, R163, R190, R237, R248, R253–R256: a tile mover request ends with its data in place, once the errors that its reads found are dealt
with (R164, R178). Outward, device memory takes the bytes of the tile buffers, the read-out of the accumulators or their raw words, exported
where the request converts, and a request that clears leaves zeros behind; a read-out that is not finite raises the partition's flag.
Inward, the tile buffers take the bytes, the accumulators add the values, or their raw words take them. No byte outside the destination
changes. -/
def Obligations.TileMoverMovesItsBytes : Prop :=
  ∀ (p : PartId) (c : LogicalCluster) (id : Nat) (errs : List ReadError) (s : State) (r : MoverReq) (sp : Space) (off : Nat),
    let k := s.physCluster p.val c.val
    let v := s.findErrors p.val k errs
    let x := v.cluster p.val k
    let blocks := r.bytes / mxBlock r.half
    (s.cluster p.val k).mover.find? (fun q => q.id == id) = some r → localPlace r.side = some (sp, off) →
    ∃ t, exec (.tileMoverComplete p c id errs) s = .next t ∧ OnlyCluster v t p.val k ∧ OnlyPart v t p.val ∧
      t = { v with regs := t.regs, parts := t.parts, mem := t.mem, poison := t.poison, clusters := t.clusters } ∧
      t.part p.val = { v.part p.val with hitch := { (v.part p.val).hitch with
        localNf := (v.part p.val).hitch.localNf || (r.out && sp == .wide && x.wideNonFinite off r.bytes) } } ∧
      (t.cluster p.val k).mover = x.mover.filter (fun q => q.id != id) ∧ (t.cluster p.val k).mmaQ = x.mmaQ ∧
      (r.out = true →
        Wrote v t r.dst (if r.conv = 0 then v.inBytes p.val k sp off r.bytes
          else exportBlocks r.half r.conv blocks (v.inBytes p.val k sp off r.bytes)) ∧
        (sp = .tile → (t.cluster p.val k).wide = x.wide ∧
          TileWrote x (t.cluster p.val k) off (if r.clear then List.replicate r.bytes 0 else [])) ∧
        (sp = .wide → (t.cluster p.val k).tile = x.tile ∧
          (off < wideSize → ∀ i, mapGet 0 (t.cluster p.val k).wide i =
            if r.clear = true ∧ off / 4 ≤ i ∧ i < (off + r.bytes) / 4 then 0 else mapGet 0 x.wide i) ∧
          (wideSize ≤ off → RawWrote x (t.cluster p.val k) (off - wideSize) (if r.clear then List.replicate r.bytes 0 else [])))) ∧
      (r.out = false →
        let l := if r.conv = 0 then v.bytes r.src r.deviceLen else importBlocks r.half r.conv blocks (v.bytes r.src r.deviceLen)
        (∀ a, t.byte a = v.byte a) ∧ t.poison = v.poison ∧
        (sp = .tile → (t.cluster p.val k).wide = x.wide ∧ TileWrote x (t.cluster p.val k) off l) ∧
        (sp = .wide → (t.cluster p.val k).tile = x.tile ∧
          (off < wideSize → WideAdded x (t.cluster p.val k) (off / 4) (wordsOf l)) ∧
          (wideSize ≤ off → RawWrote x (t.cluster p.val k) (off - wideSize) l))) ∧
      RegsButLines v t [regKey (.cluster p.val k) HDR_PROGRESS]

/-- R158, R159, R167, R168, R170, R174, R374: the block product at the head of the matrix engine's queue ends, after the errors that its
reads found are dealt with (R178). One that passes its check, under the γ with which it began, is written to its destination, and a copy
waits for an audit where its number is selected; one that fails is not written, is counted and reported, and a copy with its operands waits
for recompute. The next block begins. -/
def Obligations.BlockProductIsCheckedThenWritten : Prop :=
  ∀ (p : PartId) (c : LogicalCluster) (flips : List Flip) (errs : List ReadError) (s : State) (b : BlockProd) (rest : List BlockProd),
    let k := s.physCluster p.val c.val
    let v := s.findErrors p.val k errs
    let x := v.cluster p.val k
    let pr := b.product x flips
    let bad := v.blockPoisoned p.val k b
    let sel := v.auditSelects p.val x.blocks
    let r : Recompute := { source := c.val, prod := b, tile := x.tile, bad := bad, select := sel, audit := false, orig := [] }
    (s.cluster p.val k).mmaQ = b :: rest → s.destPending p.val c.val b = false →
    ∃ t, exec (.blockProductEnd p c flips errs) s = .next t ∧ OnlyCluster v t p.val k ∧ OnlyPart v t p.val ∧ SameMemory v t ∧
      (t.cluster p.val k).mmaQ = v.beginFirst p.val rest ∧ (t.cluster p.val k).blocks = x.blocks + 1 ∧
      (b.mismatch x pr = false →
        BlockWritten x (t.cluster p.val k) b pr ∧
        (t.part p.val).recompute = (v.part p.val).recompute ++ (if sel then [{ r with audit := true, orig := pr }] else []) ∧
        RegsBut v t [regKey (.cluster p.val k) HDR_PROGRESS]) ∧
      (b.mismatch x pr = true →
        (t.cluster p.val k).tile = x.tile ∧ (t.cluster p.val k).wide = x.wide ∧
        (t.part p.val).recompute = (v.part p.val).recompute ++ [r] ∧
        RegsBut v t (regKey (.cluster p.val k) HDR_PROGRESS :: bumpKeys (.thx p.val) 0 ++ bumpKeys (.cluster p.val k) 0 ++
          raiseKeys (.thx p.val) THX_INT_mismatch ++ raiseKeys (.cluster p.val k) CLU_INT_mismatch))

/-- R170, R171, R374: another cluster recomputes the oldest block that waits. A recompute that passes is written and is a counted
detection of the cluster that mismatched; one that fails is written poisoned and reported. An audit that agrees bit for bit only counts;
one that differs is reported. R172, R173: the retirement of a drained cluster none of whose blocks awaits its
recompute ends, after the errors that the copy's reads found are dealt with: the spare serves the logical cluster with its queues,
tile buffers and wide buffer, the old cluster is cleared and retired in the field, and no byte of device memory changes. -/
def Obligations.BlocksAndClustersAreReplaced : Prop :=
  (∀ (p : PartId) (flips flips3 : List Flip) (s : State) (r : Recompute) (lc : Nat), s.nextCluster p.val r.source = some lc →
    let k := s.physCluster p.val r.source
    let pr := r.prod.product r.operands flips
    ((s.part p.val).recompute.find? (fun q => !q.audit) = some r →
      ∃ u, (u.part p.val).recompute = (s.part p.val).recompute.eraseP (fun q => !q.audit) ++
          (if r.prod.mismatch r.operands pr = false ∧ r.select = true then [{ r with audit := true, orig := pr }] else []) ∧
        BlockWritten (s.cluster p.val k) (u.cluster p.val k) r.prod pr ∧ OnlyCluster s u p.val k ∧ OnlyPart s u p.val ∧ SameMemory s u ∧
        exec (.blockRecompute p flips) s = .next
          ((if r.prod.mismatch r.operands pr then u else u.countDetection p.val r.source r.prod).wake p.val r.source)) ∧
    ((s.part p.val).recompute.find? (fun q => q.audit) = some r → pr = r.orig →
      ∃ t, exec (.auditRecompute p flips flips3) s = .next t ∧
        (t.part p.val).recompute = (s.part p.val).recompute.eraseP (fun q => q.audit) ∧
        t = { s with regs := t.regs, sent := t.sent, parts := t.parts } ∧ OnlyPart s t p.val ∧
        RegsBut s t (bumpKeys (.cluster p.val (s.physCluster p.val lc)) 2 ++
          regKey (.cluster p.val (s.physCluster p.val lc)) HDR_PROGRESS :: bumpKeys (.saf p.val) 2))) ∧
  (∀ (p : PartId) (errs : List ReadError) (s : State) (r : Retirement),
    let k := s.physCluster p.val r.logical
    let v := s.findErrors p.val k errs
    let old := v.cluster p.val k
    let new := v.cluster p.val r.spare
    (s.part p.val).retiring.find? (fun q => s.drained p.val q.logical) = some r →
    r.logical < 24 → r.spare < 26 → k < 26 → r.spare ≠ k →
    ∃ t, exec (.clusterTakeover p errs) s = .next t ∧ SameMemory v t ∧ OnlyPart v t p.val ∧
      t.physCluster p.val r.logical = r.spare ∧ t.rd (.cluster p.val r.spare) THX_STATE_role = r.logical ∧
      t.rd (.cluster p.val k) THX_STATE_role = 0x1E ∧
      t.cluster p.val r.spare = { old with
        detections := new.detections, blocks := new.blocks, sweepTick := new.sweepTick, threads := (t.cluster p.val r.spare).threads } ∧
      t.cluster p.val k = { Cluster.reset with detections := old.detections, blocks := old.blocks, sweepTick := old.sweepTick } ∧
      (∀ q d, clusterKey q d ≠ clusterKey p.val k → clusterKey q d ≠ clusterKey p.val r.spare → t.cluster q d = v.cluster q d) ∧
      (t.part p.val).retiring = (s.part p.val).retiring.filter (fun q => q.logical != r.logical))

/-- R182, R185, R189, R193: the vector engine runs the first waiting descriptor that is clean and in order: the descriptor is marked as run,
the errors that its reads find are dealt with (R164, R178), and its elements are formed; where it has one element in device memory and
neither reduction nor fill, that element's bytes hold the operation's result, rounded once to the mode's precision and stored in the
destination's type, and no other byte changes. R193: the oldest descriptor of a cluster's vector queue that has run leaves the queue, and
the cluster's PROGRESS counts it. -/
def Obligations.VectorOperationsStoreTheirResult : Prop :=
  (∀ (p : PartId) (c : LogicalCluster) (errs : List ReadError) (s : State) (v : VecItem),
    let k := s.physCluster p.val c.val
    let x := s.cluster p.val k
    let d := readDesc (s.bytes v.addr 128)
    let ix := d.index 0 0
    x.vecQ.find? (fun q => !q.ran) = some v → s.clusterHeld p.val c.val = false → s.poisonedIn v.addr 128 = false →
    s.refuses p.val v.addr d = 0 →
    ∀ e ∈ [(1, Instr.add p c errs), (2, .mul p c errs), (3, .fma p c errs), (4, .cmp p c errs), (5, .select p c errs), (6, .min p c errs),
        (7, .max p c errs)], d.op = e.1 →
      ∃ u w t, u = { s with clusters := u.clusters, parts := u.parts } ∧ OnlyStamps s u p.val ∧ OnlyCluster s u p.val k ∧
        u.cluster p.val k = { x with vecQ := markRan x.vecQ } ∧ w = u.findErrors p.val k errs ∧
        exec e.2 s = .next t ∧ t = w.runDesc p.val k d ∧ (d.empty = true → t = w) ∧
        (d.empty = false → d.rows = 1 → d.e 0 = 1 → d.reduce = 0 → d.tail ≠ 1 → d.d.space? = some .device →
          Wrote w t (d.d.at_ ix).toNat (leBytes (elemSize d.d.type) (storeElem d.d.type d.sat
            (d.round (vecOp e.1 d.pred (w.slotValue p.val k d.x ix) (w.slotValue p.val k d.y ix) (w.slotValue p.val k d.z ix))))))) ∧
  (∀ (p : PartId) (c : LogicalCluster) (s : State) (v : VecItem) (rest : List VecItem),
    let k := s.physCluster p.val c.val
    (s.cluster p.val k).vecQ = v :: rest → v.ran = true →
    ∃ t, exec (.vecDescriptorComplete p c) s = .next t ∧ t = { s with regs := t.regs, clusters := t.clusters } ∧ OnlyCluster s t p.val k ∧
      t.cluster p.val k = { s.cluster p.val k with vecQ := rest, threads := (t.cluster p.val k).threads } ∧
      (∀ th y, (s.cluster p.val k).thread? th = some y → ∃ z, (t.cluster p.val k).thread? th = some z ∧ z = { y with st := z.st }) ∧
      t.rd (.cluster p.val k) HDR_PROGRESS = (s.rd (.cluster p.val k) HDR_PROGRESS + 1) % 2 ^ 32 ∧
      RegsBut s t [regKey (.cluster p.val k) HDR_PROGRESS])

/-- R49, R50, R101: a logical wing takes the next segment of its link, or one written to it directly, of an open product, and decodes its
granules. A well-formed one is kept for the tiles that drive it; a malformed one is counted and reported and starts no operation; the note
that a segment cannot be built sends its tiles to L3. Every tile that it feeds and whose output is not written exists afterwards, and no
byte of memory changes. -/
def Obligations.SegmentsReachTheirTiles : Prop :=
  ∀ (p : PartId) (w : Fin 8) (direct : Option WireSegment) (s v : State) (u : UpSegment) (pw : Nat) (d : Product),
    let g := segmentOf u.wire
    (direct = some u.wire ∧ u.overflow = false ∧ v = s ∨ direct = none ∧ s.nextUp p.val w.val = some (u, v)) →
    s.physWing? p.val w.val = some pw → s.product? p.val g.product = some d →
    ∃ t, exec (.activationSegment p w direct) s = .next t ∧ OnlyWing s t p.val pw ∧ SameMemory s t ∧
      (∀ e ∈ d.fedBy w.val g.rowBlock, d.written g.token e.1 = false →
        ((t.wing p.val pw).tileOf d.id g.token e.1 e.2).isSome = true) ∧
      (u.overflow = false → malformed g = false → (t.wing p.val pw).segs = (s.wing p.val pw).segs ++ [g] ∧
        t.part p.val = v.part p.val ∧ RegsBut s t (bumpKeys (.lad p.val) 5)) ∧
      (u.overflow = false → malformed g = true → (t.wing p.val pw).segs = (s.wing p.val pw).segs ∧
        (∀ o ∈ (t.wing p.val pw).waiting, o ∈ (s.wing p.val pw).waiting) ∧ t.part p.val = v.part p.val ∧
        RegsBut s t (bumpKeys (.wing p.val pw) 3 ++ raiseKeys (.wing p.val pw) WNG_INT_segment_malformed ++ wingStatusKeys p.val pw)) ∧
      (u.overflow = true → (t.wing p.val pw).segs = (s.wing p.val pw).segs ∧
        ∀ e ∈ d.fedBy w.val g.rowBlock, d.written g.token e.1 = false → (s.wing p.val pw).tileOf d.id g.token e.1 e.2 = none →
          ∃ z, (t.wing p.val pw).tileOf d.id g.token e.1 e.2 = some z ∧ z.closed = true ∧ (d.nonFinite ≠ some true → z.rung = 3))

/-- R51, R55, R59, R76, R79, R109: the front operation of a wing that may issue, on a bank with no restore due (R72), runs at its rung's gain:
it leaves the queue and holds a token; an operation whose rows are all zero is skipped without one. -/
def Obligations.ScaleOperationsIssue : Prop :=
  ∀ (p : PartId) (w : Fin 8) (s : State) (pw sc : Nat) (o : ScaleOp) (ops : List ScaleOp) (tl : Tile) (d : Product) (g : Segment),
    (s.wing p.val pw).waiting = o :: ops → s.opReady p.val w.val pw o tl d g sc →
    let x := s.scale p.val pw tl.bank sc
    let gain := s.opGain p.val x d tl
    (driven g o.pass.lo o.pass.hi ≠ [] → s.restoreDue p.val pw tl.bank = false → s.mayIssue p.val pw sc d tl = true →
      ∃ t, exec (.scaleOperation p w) s = .next t ∧ SameMemory s t ∧ OnlyStamps s t p.val ∧ OnlyWing s t p.val pw ∧
        OnlyScale s t p.val pw tl.bank sc ∧ (t.wing p.val pw).waiting = ops ∧
        (t.wing p.val pw).running = (s.wing p.val pw).running ++ [{ o with gain := gain, bank := tl.bank, sc := sc }] ∧
        t.tile? p.val pw tl.id = some { tl with ran := true, gain := gain, normal := s.tileMode p.val tl } ∧
        t.scale p.val pw tl.bank sc = { x with gain := gain, managed := x.managed && tl.rung != 0 } ∧
        (t.wing p.val pw).openGroups.contains (d.id, tl.token, tl.group) = true ∧
        t.rd (.wing p.val pw) WNG_TOKENS_in_flight = ((s.wing p.val pw).running.length + 1) % 2 ^ WNG_TOKENS_in_flight.width ∧
        RegsBut s t (wingStatusKeys p.val pw)) ∧
    (driven g o.pass.lo o.pass.hi = [] → 2 ≤ tl.left →
      ∃ t, exec (.scaleOperation p w) s = .next t ∧ SameMemory s t ∧ OnlyPart s t p.val ∧ OnlyWing s t p.val pw ∧
        (t.wing p.val pw).waiting = ops ∧ (t.wing p.val pw).running = (s.wing p.val pw).running ∧ t.scales = s.scales ∧
        t.tile? p.val pw tl.id = some { tl with left := tl.left - 1 } ∧ RegsBut s t (wingStatusKeys p.val pw))

/-- R51, R56, R62, R95, R97, R103, R108: an operation ends in its turn, with no management action waiting: it frees its token, draws its 258
conversions, enters its scale's monitor and is counted. Where no check fails in the last pass of an L0 tile, the tile closes with the term of
its codes; one that saturates in normal service escalates its tile to the next rung, whose codes are discarded. The draws are free values
(log entry 7). -/
def Obligations.ScaleOperationsEnd : Prop :=
  ∀ (p : PartId) (w : Fin 8) (id : Nat) (s : State) (pw : Nat) (o : ScaleOp) (tl : Tile) (d : Product) (g : Segment),
    s.inTurn (.scaleOperationEnd p w id) = true → (s.part p.val).actions = [] → s.opEnds p.val w.val pw id o tl d g → tl.closed = false →
    let x := s.scale p.val pw o.bank o.sc
    let rows := driven g o.pass.lo o.pass.hi
    let m := readScale x o.gain s.nDraw rows
    let y := x.observe o.gain (s.monWindow p.val) rows m
    ∃ t, exec (.scaleOperationEnd p w id) s = .next t ∧ SameMemory s t ∧ OnlyWing s t p.val pw ∧ t.nDraw = s.nDraw + 258 ∧
      (t.wing p.val pw).running = (s.wing p.val pw).running.filter (fun r => r.id != id) ∧
      t.rd (.wing p.val pw) HDR_PROGRESS = (s.rd (.wing p.val pw) HDR_PROGRESS + 1) % 2 ^ 32 ∧
      (t.scale p.val pw o.bank o.sc).mon = y.mon ∧
      (m.saturated = false → s.disagrees p.val x o.gain rows m = false → tl.rung = 0 → o.pass.kind = .a4 → tl.left = 1 → tl.need = 0 →
        tl.acc = [] → tl.bank = o.bank → s.tileScale? p.val pw tl = some o.sc → y.mon.due = false →
        ∃ z, t.tile? p.val pw tl.id = some z ∧ z.closed = true ∧ z.left = 0 ∧
          z.acc = m.codes.map (fun c => (o.pass.weight : Int) * c.1) ∧
          z.term = (m.codes.map (fun c => (o.pass.weight : Int) * c.1)).zipIdx.map (fun e =>
            fmul (fmul (f32OfInt (e.1 * (unitsPerStep tl.gain : Int))) (rne32 (opScale g)))
              (rne32 (fp16.decode (mapGet 0 x.f e.2).toNat)))) ∧
      (m.saturated = true → tl.normal = true → tl.rung = 0 →
        ∃ z, t.tile? p.val pw tl.id = some z ∧ z.closed = false ∧ z.rung = 1 ∧ z.acc = [] ∧ z.escal = true)

/-- R87, R211, R331: where no engine reset stops the rotation unit, a block of an open product is rotated once, with the seed of its layer,
and kept; a transpose rotation writes the rotated 256 values to its destination and no other byte, and counts in PROGRESS. -/
def Obligations.RotationsAreFormed : Prop :=
  ∀ (p : PartId) (s : State), s.stopped (isRotation p.val) = false →
    (∀ (product token block : Nat) (d : Product), s.product? p.val product = some d → token < d.tokens → block < d.kp / 256 →
      s.rotated? p.val product token block = none →
      ∃ t, exec (.rotateBlock p (.forward product token block)) s = .next t ∧ SameMemory s t ∧ OnlyPart s t p.val ∧
        (t.part p.val).rot = (s.part p.val).rot ++ 
          [{ product := product, token := token, block := block,
             x := rotate (layerSeed (s.layerEntry p.val d.layer)) (s.inputBlock d token block) }]) ∧
    (∀ (layer : Nat) (src dst : W64), layer < s.layers p.val → s.reach p.val src.toNat 1024 = true → s.reach p.val dst.toNat 1024 = true →
      ∃ t, exec (.rotateBlock p (.transpose layer src dst)) s = .next t ∧
        Wrote s t dst.toNat ((rotateT (layerSeed (s.layerEntry p.val layer)) (s.words32 src.toNat 256)).flatMap (leBytes 4)) ∧
        t = { s with regs := t.regs, mem := t.mem, poison := t.poison } ∧ RegsBut s t [regKey (.lad p.val) HDR_PROGRESS] ∧
        t.rd (.lad p.val) HDR_PROGRESS = (s.rd (.lad p.val) HDR_PROGRESS + 1) % 2 ^ 32)

/-- R104, R106, R137, R368: a tile that runs at L3, and waits for no epoch, gets the exact term of its 256 columns against the level mirror as
it stood when the tile opened and the f of its side record, and is marked bad where what it reads is poisoned; nothing else changes. R61,
R66, R92, R105: once the vertical link has brought every group of a column block down, its outputs are written to their place in the
output array and no other byte changes; the product closes with its last block, and otherwise remembers the block. -/
def Obligations.TermsAndOutputsAreFormed : Prop :=
  (∀ (p : PartId) (w : Fin 8) (tile : Nat) (s : State) (pw : Nat) (tl : Tile) (d : Product) (qs : List (List Nat)),
    s.physWing? p.val w.val = some pw → s.tile? p.val pw tile = some tl → s.product? p.val tl.product = some d →
    s.quarters? p.val d tl.token (d.gscale tl).rows = some qs → tl.rung = 3 → tl.closed = true → tl.l3 = [] →
    (tl.held = true → s.scaleHeld p.val w.val tl.bank tl.scale = false) →
    s.reaches p.val (s.scaleRanges p.val w.val tl.bank tl.scale) →
    let a := s.mirrorAt p.val w.val tl.bank tl.scale
    ∃ t, exec (.l3Tile p w tile) s = .next t ∧ t = { s with wings := t.wings } ∧ OnlyWing s t p.val pw ∧
      t.wing p.val pw = { s.wing p.val pw with tiles := (t.wing p.val pw).tiles } ∧
      t.tile? p.val pw tile = some { tl with
        l3 := (List.range 256).map (fun j => l3Term qs ((List.range 1024).map (fun r => levelOf (s.tileLevel a tl r j)))
          (s.sideF p.val w.val tl.bank tl.scale j))
        bad := s.poisonedIn a 131072 || s.poisonedIn (s.sideAt p.val w.val tl.bank tl.scale + 0x200) 512 }) ∧
  (∀ (p : PartId) (product token group : Nat) (s : State) (d : Product),
    let col := (d.groups.getD group ⟨[], 0⟩).col
    let gis := (List.range d.groups.length).filter (fun gi => (d.groups.getD gi ⟨[], 0⟩).col == col)
    let v := s.deliver p.val d.id token gis (s.linkLoad p.val)
    s.product? p.val product = some d → group < d.groups.length → token < d.tokens → d.outputs.contains (token, col) = false →
    (∀ gi ∈ gis, v.groupReady p.val d token gi = true ∧ v.reaches p.val (v.correctionRanges p.val d token gi)) →
    ∃ t, exec (.productOutput p product token group) s = .next t ∧ OnlyPart s t p.val ∧
      Wrote s t (d.dst + 4 * (token * d.n + 256 * col)) (((List.range (min 256 (d.n - 256 * col))).map (fun j =>
        if d.nonFinite == some true then fp32.nan else v.columnOutput p.val d token gis j)).flatMap (leBytes 4)) ∧
      (d.outputs.length + 1 ≠ d.tokens * d.cols.length →
        t.product? p.val product = some { d with outputs := d.outputs ++ [(token, col)] }) ∧
      (d.outputs.length + 1 = d.tokens * d.cols.length → t.product? p.val product = none) ∧
      ∀ pg f, (∀ w, regKey pg f ∉ wingStatusKeys p.val w) → t.rd pg f = s.rd pg f)

/-- R98, R99, R110, R117: a full monitor window is evaluated and cleared. Without a deviation, and with no tile open on the scale, nothing
else happens; a deviation in normal service pins the scale. A run of storm steps of the set length begins a ladder storm, a run of others
ends it, each with its interrupt, and the grants follow (R419). -/
def Obligations.MonitorAndStormsFollowTheirRuns : Prop :=
  ∀ (p : PartId) (s : State),
    (∀ (w : WingId) (b : BankId) (sc : ScaleId), let x := s.scale p.val w.val b.val sc.val
      let deviates := x.mon.deviates (s.rd (.lad p.val) LAD_MON_CTL_drift_lim)
      (x.mon.due = true ∨ s.monWindow p.val ≤ x.mon.n) →
      ∃ t, exec (.monitorWindowEvaluation p w b sc) s = .next t ∧ SameMemory s t ∧
        (t.scale p.val w.val b.val sc.val).mon = { Monitor.reset with since := (s.part p.val).boundaries } ∧
        (∀ q v a c, scaleKey q v a c ≠ scaleKey p.val w.val b.val sc.val → (t.scale q v a c).mon = (s.scale q v a c).mon) ∧
        (deviates = false → (∀ tl ∈ (s.wing p.val w.val).tiles, tl.begunOn b.val x.logical = true → tl.closed = true) →
          t = { s with scales := t.scales } ∧ OnlyScale s t p.val w.val b.val sc.val ∧
          t.scale p.val w.val b.val sc.val = { x with mon := (t.scale p.val w.val b.val sc.val).mon }) ∧
        (deviates = true → s.normalService p.val = true → (t.scale p.val w.val b.val sc.val).pinned = true)) ∧
    (s.inStorm p.val = false → s.stormSteps p.val ≤ s.rd (.lad p.val) LAD_STATUS_storm_run →
      ∃ u, OnlyRegs s u (regKey (.lad p.val) LAD_STATUS_storm :: raiseKeys (.lad p.val) LAD_INT_storm_raised) ∧
        u.rd (.lad p.val) LAD_STATUS_storm = 1 ∧ exec (.ladderStormRaised p) s = .next u.applyPower ∧
        u.applyPower = { u with regs := u.applyPower.regs }) ∧
    (s.inStorm p.val = true → s.stormSteps p.val ≤ s.rd (.lad p.val) LAD_STATUS_clear_run →
      ∃ u, OnlyRegs s u (regKey (.lad p.val) LAD_STATUS_storm :: raiseKeys (.lad p.val) LAD_INT_storm_cleared) ∧
        u.rd (.lad p.val) LAD_STATUS_storm = 0 ∧ exec (.ladderStormCleared p) s = .next u.applyPower ∧
        u.applyPower = { u with regs := u.applyPower.regs })

/-- R70, R71, R72, R74, R80, R83, R84: a row that falls due is restored in a powered wing: the sweep goes on to the next row, a cell that was
off its level takes the level it snaps to unless a re-seat write of the row stands for the restore, and a restore more than 1 µs late is
reported. A full output queue reports its stall. A debug row read is taken up, and served once no other work of its scale goes before it,
or refused. -/
def Obligations.RowsAreRestoredAndRead : Prop :=
  ∀ (p : PartId) (w : WingId) (s : State),
    let pg : Page := .scl p.val w.val
    (∀ (b : BankId) (lateNs : Nat) (found : List CellFound), s.mayRestore p.val w.val b.val = true →
      let bk : Page := .bank p.val w.val (b.val / 4)
      let r := s.rd bk (WNG_BK_SWEEP_next_row (b.val % 4))
      ∃ t, exec (.rowRestore p w b lateNs found) s = .next t ∧ SameMemory s t ∧
        t = { s with regs := t.regs, sent := t.sent, scales := t.scales, wings := t.wings } ∧ OnlyWing s t p.val w.val ∧
        t.rd bk (WNG_BK_SWEEP_next_row (b.val % 4)) = (r + 1) % 1024 ∧
        (1000 < lateNs → t.rd (.wing p.val w.val) (HDR_INT WNG_INT_restore_late) = 1) ∧
        ∀ c, found = [c] → (s.scale p.val w.val b.val c.scale.val).restored = true →
          (s.scale p.val w.val b.val c.scale.val).colmap.all (fun e => e.1 != 2) = true →
          (s.scale p.val w.val b.val c.scale.val).disabled.contains (r * 264 + c.column.val) = false →
          s.reseatsRow p.val w.val b.val c.scale.val r = false →
          (t.scale p.val w.val b.val c.scale.val).cell r c.column.val = c.code.toNat) ∧
    ((s.wing p.val w.val).outFull = true →
      ∃ t, exec (.linkStall p w) s = .next t ∧ t.rd (.wing p.val w.val) (HDR_INT WNG_INT_link_stall) = 1 ∧
        OnlyRegs s t (raiseKeys (.wing p.val w.val) WNG_INT_link_stall)) ∧
    (∀ row : BitVec 10, s.resetting.contains p.val = false →
      ∃ t, exec (.debugRowReadRequest p w row) s = .next t ∧ t.rd pg SCL_ROW_CTL_go = 1 ∧ t.rd pg SCL_ROW_CTL_done = 0 ∧
        t.rd pg SCL_ROW_CTL_row = row.toNat ∧
        OnlyRegs s t ([SCL_ROW_CTL_go, SCL_ROW_CTL_done, SCL_ROW_CTL_refused, SCL_ROW_CTL_row].map (regKey pg))) ∧
    (s.rd pg SCL_ROW_CTL_go = 1 → (∀ b sc, s.sensed? p.val w.val = some (b, sc) → s.sensingWaits p.val w.val b sc = false) →
      ∃ t, exec (.debugRowRead p w) s = .next t ∧ t.rd pg SCL_ROW_CTL_go = 0 ∧ t.rd pg SCL_ROW_CTL_done = 1 ∧
        OnlyRegs s t ([SCL_ROW_CTL_go, SCL_ROW_CTL_done, SCL_ROW_CTL_refused].map (regKey pg) ++
          (List.range 264).map (fun c => regKey pg (SCL_ROW_DATA_cell c))) ∧
        (∀ b sc, s.selected? p.val w.val = some (b, sc) → s.on .sec SEC_MODE_confidential = false →
          (s.scale p.val w.val b sc).restored = true →
          t.rd pg SCL_ROW_CTL_refused = 0 ∧
          ∀ c, c < 264 → t.rd pg (SCL_ROW_DATA_cell c) = (s.scale p.val w.val b sc).cell (s.rd pg SCL_ROW_CTL_row) c) ∧
        (s.sensed? p.val w.val = none → t.rd pg SCL_ROW_CTL_refused = 1 ∧
          ∀ c, c < 264 → t.rd pg (SCL_ROW_DATA_cell c) = 0))

/-- R106, R133, R137, R204, R369: an accepted descriptor's image has arrived at a scale that no tile, no product of an earlier step and no
load keeps busy. One of another commit step is counted and dropped; one marked unchanged or refused ends with its epoch in the side record;
any other has its rows checked, and those that differ are queued for writing. Nothing is written into the scale itself, and of memory only
the scale's mirror and side record change. R134–R137, R140–R144: a queued row that nothing goes before is written: with no cell that fails
its verification, every cell of the row that is not disabled takes its level and the wear counts one write; a verification that fails once
is counted, and the row is written again. A seating whose rows have verified installs f and ρ, and its side record takes ρ and the epoch; a
load that ends lets its scale serve, a spare load with its own ρ and the epoch of the side record. -/
def Obligations.SeatingsTakeImagesAndComplete : Prop :=
  (∀ (p : PartId) (seat : Nat) (s : State) (tl : Seat) (pw ps : Nat),
    let head := tl.image + imageHead
    let side := s.sideAt p.val tl.lw tl.bank tl.ls
    let mirror := s.mirrorAt p.val tl.lw tl.bank tl.ls
    let c := s.word head 8
    let n := (s.imagePoison tl.image).getD 1024
    s.seat? p.val seat = some tl → tl.kind = .commit → tl.checked = false → s.openTile p.val tl.lw tl.bank tl.ls = false →
    s.mirrorPending p.val tl.under = false → s.physWing? p.val tl.lw = some pw → s.physScale? p.val pw tl.bank tl.ls = some ps →
    (s.scale p.val pw tl.bank ps).role ≠ 3 → s.reaches p.val ((tl.image, imageSize) :: s.scaleRanges p.val tl.lw tl.bank tl.ls) →
    s.poisonedIn head 64 = false →
    ∃ t, exec (.seatTile p seat) s = .next t ∧ t.scales = s.scales ∧ OnlyPart s t p.val ∧
      RegsBut s t (regKey (.upd p.val) UPD_RS_EPOCH_step :: bumpKeys (.upd p.val) 44) ∧
      (c ≠ s.rd (.hch p.val) HCH_COMMIT_step → SameMemory s t ∧ t.seat? p.val seat = none) ∧
      (c = s.rd (.hch p.val) HCH_COMMIT_step →
        (bit (s.word (head + 8) 4) 0 = true ∨ bit (s.word (head + 8) 4) 1 = true →
          t.word (side + 0x408) 8 = c ∧ t.seat? p.val seat = none ∧
          ∀ a, (a < side + 0x408 ∨ side + 0x414 ≤ a) → t.byte a = s.byte a) ∧
        (bit (s.word (head + 8) 4) 0 = false → bit (s.word (head + 8) 4) 1 = false →
          (∃ z, t.seat? p.val seat = some z ∧ z.c = c ∧ z.checked = true ∧ z.stuck = (s.imagePoison tl.image).isSome ∧ z.pw = pw ∧
            z.ps = ps ∧ z.rows = (List.range n).filter (fun r =>
              (s.seatRow p.val { tl with c := c } (s.scale p.val pw tl.bank ps) r).1)) ∧
          ∀ a, ¬(mirror ≤ a ∧ a < mirror + 131072) → ¬(side ≤ a ∧ a < side + 512) → t.byte a = s.byte a))) ∧
  (∀ (p : PartId) (seat : Nat) (s : State) (tl : Seat), s.seat? p.val seat = some tl →
    let x := s.scale p.val tl.pw tl.bank tl.ps
    let side := s.sideAt p.val tl.lw tl.bank tl.ls
    let mirror := s.mirrorAt p.val tl.lw tl.bank tl.ls
    let wears := fun (y : Scale) (n : Nat) => 1024 * y.wear + y.wearRem = (1024 * x.wear + x.wearRem + n) % (1024 * 2 ^ 32)
    let reads := s.fromMirror p.val tl = true → s.reaches p.val (s.scaleRanges p.val tl.lw tl.bank tl.ls)
    (∀ r rest, tl.rows = r :: rest → s.rowWaits p.val tl r = false → reads →
      let d := (s.loadRow p.val tl r).rowToWrite p.val tl r
      (∃ t y b, exec (.reseatRowWrite p seat []) s = .next t ∧ OnlyPart s t p.val ∧ OnlyScale s t p.val tl.pw tl.bank tl.ps ∧
        t = { s with mem := t.mem, poison := t.poison, parts := t.parts, wings := t.wings, scales := t.scales } ∧
        t.seat? p.val seat = some { tl with rows := rest, reform := b } ∧ t.scale p.val tl.pw tl.bank tl.ps = y ∧
        y = { x with cells := y.cells, wear := y.wear, wearRem := y.wearRem } ∧ wears y 1 ∧
        (∀ q c, c < 264 → y.cell q c =
          if q ≠ r ∨ x.disabled.contains (r * 264 + c) = true then x.cell q c else rowTarget x r d.1 d.2 c % 16) ∧
        (tl.kind = .commit ∨ s.fromMirror p.val tl = false → SameMemory s t ∧ b = tl.reform) ∧
        ∀ a, ¬(mirror + 128 * r ≤ a ∧ a < mirror + 128 * r + 128) → a ≠ side + r / 2 → t.byte a = s.byte a) ∧
      ∀ bad : List (Fin 264), (∃ c ∈ bad, x.disabled.contains (r * 264 + c.val) = false) → (∀ c ∈ bad, x.disabledIn c.val < 8) →
        bit (s.rd (.upd p.val) (HDR_ERRCNT 40)) 31 = false →
        ∃ t, exec (.reseatRowWrite p seat [bad]) s = .next t ∧ wears (t.scale p.val tl.pw tl.bank tl.ps) 2 ∧
          t.rd (.upd p.val) (HDR_ERRCNT 40) = countUp (s.rd (.upd p.val) (HDR_ERRCNT 40))) ∧
    (tl.kind = .commit → tl.checked = true → tl.stuck = false → tl.rows = [] → tl.f.length = 256 → s.loading p.val tl = false →
      (s.wing p.val tl.pw).operates tl.bank tl.ps = false → s.reaches p.val (s.scaleRanges p.val tl.lw tl.bank tl.ls) →
      s.withinLimits p.val tl.pw tl.bank tl.ps →
      let rho := if tl.reform then s.rhoNow p.val tl.lw tl.bank tl.ls else tl.rho
      ∃ t, exec (.seatComplete p seat) s = .next t ∧ OnlyPart s t p.val ∧ OnlyScale s t p.val tl.pw tl.bank tl.ps ∧
        t.scale p.val tl.pw tl.bank tl.ps = { x with f := fMap tl.f, rho := BitVec.ofNat 16 rho, epoch := tl.c } ∧
        t.isSeated p.val tl.lw tl.bank tl.ls = true ∧
        t.seat? p.val seat = none ∧ t.word (side + 0x408) 8 = tl.c % 2 ^ 64 ∧ t.word (side + 0x400) 2 = rho % 2 ^ 16 ∧
        (∀ a, (a < side + 0x200 ∨ side + 0x424 ≤ a) → t.byte a = s.byte a) ∧
        RegsBut s t [regKey (.upd p.val) UPD_RS_EPOCH_step]) ∧
    (tl.kind ≠ .commit → tl.rows = [] → x.role = 3 → reads → (∀ u ∈ (s.part p.val).seats, u.id ≠ seat → ¬u.loads tl) →
      s.withinLimits p.val tl.pw tl.bank tl.ps →
      ∃ t, exec (.spareLoadComplete p seat) s = .next t ∧ OnlyPart s t p.val ∧ OnlyScale s t p.val tl.pw tl.bank tl.ps ∧
        (t.scale p.val tl.pw tl.bank tl.ps).role = 1 ∧ t.seat? p.val seat = none ∧
        (t.scale p.val tl.pw tl.bank tl.ps).cells = x.cells ∧
        (tl.kind = .spareLoad → s.fromMirror p.val tl = true →
          (t.scale p.val tl.pw tl.bank tl.ps).rho = BitVec.ofNat 16 (s.rhoNow p.val tl.lw tl.bank tl.ls) ∧
          (t.scale p.val tl.pw tl.bank tl.ps).epoch = s.word (side + 0x408) 8) ∧
        (∀ a, (a < side + 0x400 ∨ side + 0x402 ≤ a) → t.byte a = s.byte a) ∧
        RegsBut s t [regKey (.upd p.val) UPD_RS_EPOCH_step]))

/-- R234, R237, R238: in its turn, once the flag of its step is resolved, a pass goes on: a set flag skips the step, unless an abort token of
the step waits (R242), and an open or exchanged hitch becomes idle; otherwise every chunk of every descriptor is classified. With good
constants, gradients and headers all of them are queued; any other finding refuses the shard and withholds completion from the hitch.
R232, R235, R239, R241–R243, R371: the chunks of a pass are done in order, two at most in flight. A current one of a shard without images
changes no memory; one that is due or behind ends with its header at the pass's step, in state 00 or 01; where all its groups are frozen it
keeps its digest and no other byte changes. -/
def Obligations.UpdatePassesRunAndEnd : Prop :=
  (∀ (p : PartId) (s : State) (u : UpdPass), s.inTurn (.updatePass p) = true → (s.part p.val).pass = some u → u.classified = false →
    s.rd (.upd p.val) UPD_NF_resolved = 1 →
    let h := s.rd (.upd p.val) UPD_HITCH_STEP_step
    let steps := usedSteps h (u.descs.flatMap (fun d => (s.classify p.val h d).map Prod.snd))
    let good := (∀ c ∈ steps, s.constsOk p.val c = true) ∧
      ∀ d ∈ u.descs, s.gradPresent d h = true ∧ ∀ e ∈ s.classify p.val h d, e.2.isSome = true
    (s.rd (.upd p.val) UPD_NF_set = 1 → s.abortWaits p.val u = false →
      ∃ t, exec (.updatePass p) s = .next t ∧ OnlyPart s t p.val ∧
        (t.part p.val).pass = none ∧ (t.part p.val).owned = [] ∧ SameMemory s t ∧ t.rd (.upd p.val) UPD_STATUS_busy = 0 ∧
        t.rd (.upd p.val) (HDR_INT UPD_INT_step_skipped) = 1 ∧
        t.hch p.val = if s.hch p.val = hchOpen ∨ s.hch p.val = hchExchanged then hchIdle else s.hch p.val) ∧
    (s.rd (.upd p.val) UPD_NF_set = 0 → s.reaches p.val (s.passRanges p.val u) →
      ∃ t v, exec (.updatePass p) s = .next t ∧ OnlyPart s t p.val ∧
        (t.part p.val).pass = some v ∧ v.classified = true ∧ v.h = h ∧ v.descs = u.descs ∧ t.rd (.upd p.val) UPD_STATUS_phase = 2 ∧
        (good → v.refused = u.refused ∧ t.rd (.hch p.val) HCH_RECOVER_pass_done = s.rd (.hch p.val) HCH_RECOVER_pass_done ∧
          v.jobs = u.descs.zipIdx.flatMap (fun e => s.chunkJobs p.val e.2 e.1 (s.classify p.val h e.1))) ∧
        (¬good → v.refused = true ∧ t.rd (.hch p.val) HCH_RECOVER_pass_done = 0))) ∧
  (∀ (p : PartId) (s : State) (u : UpdPass), (s.part p.val).pass = some u → u.classified = true → s.stopped (isUpdate p.val) = false →
    s.reaches p.val (s.passRanges p.val u) →
    ((u.jobs ≠ [] ∨ u.flying ≠ []) →
      ∃ t v, exec (.updateChunk p) s = .next t ∧ OnlyPart s t p.val ∧ (t.part p.val).pass = some v ∧ v.descs = u.descs ∧ v.h = u.h ∧
        v.flying.length ≤ max 2 u.flying.length ∧ t.rd (.upd p.val) UPD_STATUS_phase = 3 ∧
        t.rd (.upd p.val) UPD_STATUS_in_flight = v.flying.length % 2 ^ UPD_STATUS_in_flight.width) ∧
    (∀ j d, u.jobs = [j] → u.flying = [] → u.descs[j.desc]? = some d → d.owners = 0 →
      let a := s.headerAt p.val j.k
      ∃ t v, exec (.updateChunk p) s = .next t ∧ (t.part p.val).pass = some v ∧ v.jobs = [] ∧ v.flying = [] ∧
        (j.cls = .current → SameMemory s t ∧ t = { s with parts := t.parts, regs := t.regs } ∧
          RegsBut s t ([UPD_STATUS_phase, UPD_STATUS_in_flight].map (regKey (.upd p.val)))) ∧
        (j.cls ≠ .current →
          t.rd (.upd p.val) HDR_PROGRESS = (s.rd (.upd p.val) HDR_PROGRESS + 1) % 2 ^ 32 ∧
          ∃ st digest, st ≤ 1 ∧
            t.bytes a 64 = leBytes 8 u.h ++ leBytes 8 (st + 4 * d.layer) ++ leBytes 8 digest ++ List.replicate 40 0 ∧
            (j.frozen = List.range (d.elems / 64) → st = 0 ∧ digest = s.hdrDigest a ∧
              ∀ b, (b < a ∨ a + 64 ≤ b) → t.byte b = s.byte b))))

/-- R295–R298, R300, R301, R321, R457: an up port sends the first frame of a replay as it was transmitted, or a new frame with the next
sequence, its acknowledgement, its first control message and the granules that its credits allow, sealed under the port's key where the
link is encrypted; it waits in the replay buffer. A lane is retired with the first frame sent after its move. A frame with too many symbol
errors or a wrong CRC is nak'ed and not accepted, and so is one that does not authenticate; a good one in sequence is accepted with its
credits and acknowledgement, and then its control message is taken; one ahead of the sequence is nak'ed. A key rollover takes effect 256
frames ahead at both ends; its entropy is a free value (log entry 7). -/
def Obligations.FramesCarryThePort : Prop :=
  ∀ (i : PortId) (s : State),
    let pg : Page := .port i.val
    let x := s.port i.val
    let sends := s.rd pg FAB_PORT_STATE_link = 2 ∧ (s.on .sec SEC_MODE_confidential = true → s.on pg FAB_PORT_STATE_encrypted = true)
    (∀ errs : List (Fin 75 × List Upset), sends →
      (∀ f rest, x.resend = f :: rest →
        ∃ t, exec (.strandFrameSend i errs) s = .next t ∧ OnlyPort s t i.val ∧
          t.port i.val = { x with resend := rest, replay := x.replay.map (fun g => if g.seq = f.seq then { g with times := g.times + 1 } else g) } ∧
          t.sent.getLast? = some (.frame i.val f.wire f.cargo) ∧ RegsBut s t (regKey pg HDR_PROGRESS :: bumpKeys pg 1)) ∧
      (x.resend = [] → x.replay.length < 390 → x.nextKey = none → x.moves = [] →
        let r := fillSlots 75 0 x.txQ x.credits x.out0
        let plain := frameOf (x.txSeq + 1) x.rxSeq x.nakDue false (x.ctrl.headD .idle) x.giveBack (checkSlots (r.took.map TxGranule.slot) errs)
        let f := if s.on pg FAB_PORT_STATE_encrypted then plain.seal x.txKey i.val (x.txSeq + 1) else plain
        ∃ t, exec (.strandFrameSend i errs) s = .next t ∧ t.sent = s.sent ++ [.frame i.val f.wire f.cargo] ∧
          r.took.length ≤ 75 ∧ r.took.length + r.queue.length = x.txQ.length ∧
          { t.port i.val with giveBack := [] } = { x with
            txSeq := x.txSeq + 1, replay := x.replay ++ [⟨x.txSeq + 1, f.wire, f.cargo, 0⟩], nakDue := false, ctrl := x.ctrl.drop 1
            txQ := r.queue, credits := r.credits, out0 := r.out0, giveBack := [] } ∧
          (∀ j, j ≠ i.val → { t.port j with giveBack := [] } = { s.port j with giveBack := [] }) ∧ RegsBut s t [regKey pg HDR_PROGRESS]) ∧
      (∀ m, x.resend = [] → x.replay.length < 390 → x.moves = [m] → m.transmit = true → m.first ≤ x.txSeq + 1 → m.lane < 26 →
        bit (s.rd pg FAB_PORT_TX_RETIRED_lanes) m.lane = false →
        ∃ t, exec (.strandFrameSend i errs) s = .next t ∧ (t.port i.val).moves = [] ∧
          t.rd pg FAB_PORT_TX_RETIRED_lanes = (s.rd pg FAB_PORT_TX_RETIRED_lanes + 2 ^ m.lane) % 2 ^ 26)) ∧
    (∀ (wire : List Byte) (cargo : List (Option Cargo)) (a : Arrival), s.rd pg FAB_PORT_STATE_link = 2 →
      let seq := extendSeq (x.rxSeq + 1) (leAt wire 0 4)
      let nakked := fun (t : State) => (t.port i.val).nakDue = true ∧ (t.port i.val).discarding = true ∧ (t.port i.val).rxSeq = x.rxSeq ∧
        (t.port i.val).rxQ = x.rxQ ∧ (t.port i.val).replay = x.replay ∧ OnlyPort s t i.val ∧ SameMemory s t
      let sound := isCorrectable a = true ∧ crcMatches wire = true
      (isCorrectable a = false ∨ crcMatches wire = false → ∃ t, exec (.strandFrameReceive i wire cargo a) s = .next t ∧ nakked t) ∧
      (sound → s.readFrame? i.val seq wire cargo = none →
        ∃ t, exec (.strandFrameReceive i wire cargo a) s = .next t ∧ nakked t ∧ t.rd pg (HDR_INT PORT_INT_auth_fail) = 1) ∧
      (∀ f, sound → s.readFrame? i.val seq wire cargo = some f →
        (seq = x.rxSeq + 1 → f.slots = [] →
          ∃ u : State, (u.port i.val).rxSeq = seq ∧ (u.port i.val).rxQ = x.rxQ ∧ (u.port i.val).discarding = false ∧ OnlyPort s u i.val ∧
            SameMemory s u ∧ (u.port i.val).replay = x.replay.filter (fun g => decide (extendSeq x.txSeq f.ack < g.seq)) ∧
            (u.port i.val).credits = x.credits.zipIdx.map (fun (c : Nat × Nat) => c.1 + f.credits.getD c.2 0) ∧
            u.rd pg HDR_PROGRESS = (s.rd pg HDR_PROGRESS + 1) % 2 ^ 32 ∧
            exec (.strandFrameReceive i wire cargo a) s = .next (u.takeControl i.val a.phase.toNat f.msg)) ∧
        (x.rxSeq + 1 < seq → x.discarding = false → ∃ t, exec (.strandFrameReceive i wire cargo a) s = .next t ∧ nakked t))) ∧
    (∀ (epoch : W32) (first : W64), s.rd pg FAB_PORT_STATE_encrypted = 1 →
      ∃ t, exec (.keyEpochMessage i epoch first) s = .next t ∧ t = { s with ports := t.ports } ∧ OnlyPort s t i.val ∧
        t.port i.val = { x with rxNextKey := some { epoch := epoch.toNat, first := first.toNat
                                                    key := s.keyFor i.val (s.neighbour i.val) s.here epoch.toNat x.peerR x.ownR } }) ∧
    (s.rd pg FAB_PORT_STATE_encrypted = 1 → x.nextKey = none →
      let epoch := (s.rd pg FAB_PORT_KEY_epoch + 1) % 2 ^ 32
      let first := x.txSeq + x.ctrl.length + 257
      let own := slice (Config.entropy s.nDraw) 0 32
      ∃ t, exec (.linkKeyRollover i) s = .next t ∧ t = { s with ports := t.ports, nDraw := s.nDraw + 1 } ∧ OnlyPort s t i.val ∧
        t.port i.val = { x with
          ownR := own, ctrl := x.ctrl ++ [.keyEpoch (BitVec.ofNat 32 epoch) (BitVec.ofNat 64 first)]
          nextKey := some { epoch := epoch, first := first, key := s.keyFor i.val s.here (s.neighbour i.val) epoch own x.peerR }
          txQ := x.txQ ++ [{ slot := { vc := 3, data := own, poison := false, cargo := .mgmt }, origin := none }] })

/-- R299, R300, R322, R324, R380: a link goes down, in its turn among a tick's events, without a good frame or when a frame has been replayed
as often as its limit; it loses its replay buffer, its partial messages and its credits, and keeps what it had not sent. It trains again
where it is enabled, powered, clocked and the module at Instar 2. A faulty lane is to move to a spare with a coming frame and the other
end is told; with both spares used the port fails. A trained port comes up with its neighbour, keyed in confidential mode. -/
def Obligations.LinksGoDownTrainAndSpareLanes : Prop :=
  ∀ (i : PortId) (s : State),
    let pg : Page := .port i.val
    let x := s.port i.val
    let down := fun (t : State) => t.rd pg FAB_PORT_STATE_link = flag (s.trains i.val) ∧ SameMemory s t ∧
      { t.port i.val with txQ := [], ctrl := [], giveBack := [] } = { x.down with txQ := [], ctrl := [], giveBack := [] } ∧
      (x.writes = [] → (t.port i.val).txQ = x.txQ) ∧ t.rd pg FAB_PORT_DOWN_TICK_tick = s.now
    (∀ byReplay, s.inTurn (.linkDown i byReplay) = true → s.rd pg FAB_PORT_STATE_link = 2 →
      (byReplay = true → x.replay.any (fun f => decide (s.replayLimit i.val ≤ f.times)) = true) →
      ∃ t, exec (.linkDown i byReplay) s = .next t ∧ down t) ∧
    (s.feature 4 = true →
      (s.rd pg FAB_PORT_STATE_link = 2 → ∃ t, exec (.portRetrain i) s = .next t ∧ down t ∧ t.rd pg FAB_PORT_CTL_retrain = flag (!s.trains i.val)) ∧
      (s.rd pg FAB_PORT_STATE_link = 1 → ∃ t, exec (.portRetrain i) s = .next t ∧ t.rd pg FAB_PORT_STATE_link = flag (s.trains i.val) ∧
        t.rd pg FAB_PORT_CTL_retrain = flag (!s.trains i.val) ∧ t = { s with regs := t.regs } ∧
        RegsBut s t ([FAB_PORT_CTL_retrain, FAB_PORT_STATE_link, FAB_PORT_STATE_lanes_up].map (regKey pg))) ∧
      (s.rd pg FAB_PORT_STATE_link = 0 → ∃ t, exec (.portEnable i) s = .next t ∧ t.rd pg FAB_PORT_CTL_enable = 1 ∧
        t.rd pg FAB_PORT_STATE_link = flag (s.portReady i.val) ∧
        OnlyRegs s t ([FAB_PORT_CTL_enable, FAB_PORT_STATE_link, FAB_PORT_CTL_retrain].map (regKey pg)))) ∧
    (∀ (neighbour : Coord) (rtt : BitVec 16) (entropy : List Byte), s.rd pg FAB_PORT_STATE_link = 1 →
      (s.rd .sec SEC_MODE_confidential = 1 → s.rd pg FAB_PORT_CTL_job_member = 1 → s.linkKey = true) →
      let conf := s.on .sec SEC_MODE_confidential
      let own := slice (Config.entropy s.nDraw) 0 32
      let y := x.trained own entropy
      ∃ t, exec (.portTrained i neighbour rtt entropy) s = .next t ∧ t.rd pg FAB_PORT_STATE_link = 2 ∧
        t.port i.val = (if conf then { y with txKey := s.keyFor i.val s.here neighbour.toNat 0 own entropy
                                              rxKey := s.keyFor i.val neighbour.toNat s.here 0 entropy own } else y) ∧
        t.rd pg FAB_PORT_STATE_encrypted = flag conf ∧ t.rd pg FAB_PORT_NBR_valid = 1 ∧
        t.rd pg FAB_PORT_NBR_coord = neighbour.toNat ∧ t.rd pg FAB_PORT_RTT_rtt = rtt.toNat ∧ t.rd pg (HDR_INT PORT_INT_link_up) = 1 ∧
        OnlyPort s t i.val ∧ SameMemory s t ∧
        RegsBut s t ([FAB_PORT_STATE_link, FAB_PORT_STATE_encrypted, FAB_PORT_STATE_lanes_up, FAB_PORT_STATE_nbr_depth, FAB_PORT_NBR_valid,
          FAB_PORT_NBR_coord, FAB_PORT_RTT_rtt, FAB_PORT_KEY_epoch].map (regKey pg) ++ raiseKeys pg PORT_INT_link_up)) ∧
    (∀ (transmit : Bool) (lane : Fin 26), s.rd pg FAB_PORT_STATE_link = 2 →
      (∀ cause, s.laneLeaves i.val transmit lane.val = false → s.laneFaulty i.val transmit lane.val cause = true →
        (s.lanesLeaving i.val transmit < 2 →
          let first := (if transmit then x.txSeq else x.rxSeq) + x.ctrl.length + 65
          ∃ t, exec (.laneSpare i transmit lane cause) s = .next t ∧ t = { s with ports := t.ports } ∧ OnlyPort s t i.val ∧
            t.port i.val = { x with moves := x.moves ++ [⟨transmit, lane.val, first⟩]
                                    ctrl := x.ctrl ++ [.lane transmit lane (BitVec.ofNat 64 first)] }) ∧
        (2 ≤ s.lanesLeaving i.val transmit →
          ∃ t, exec (.laneSpare i transmit lane cause) s = .next t ∧ t.rd pg FAB_PORT_STATE_link = 3 ∧ SameMemory s t)) ∧
      (∀ first : W64, s.laneLeaves i.val (!transmit) lane.val = false → s.lanesLeaving i.val (!transmit) < 2 →
        ∃ t, exec (.laneManagementMessage i transmit lane first) s = .next t ∧ t = { s with ports := t.ports } ∧ OnlyPort s t i.val ∧
          t.port i.val = { x with moves := x.moves ++ [⟨!transmit, lane.val, first.toNat⟩] }))

/-- R303, R312–R315, R341, R380, R519: a remote write of the module's job to partitions that serve it is stored and acknowledged, any other
is counted and refused without a byte changed; a remote write that has waited 100 ms since its last byte was sent ends. A round's message
counts on its axis and direction; one of an aborted step is ignored. An abort token of the job that is new waits for the next tick edge
and goes on to every other job port; software's token goes out on all of them. A token that is acted on stops every bound partition and
discards its step. Messages, tokens and the act come in their turn among the events of a tick. -/
def Obligations.RemoteWritesRoundsAndAborts : Prop :=
  ∀ (s : State),
    (∀ (from_ : Coord) (id : Nat) (job : BitVec 16) (addr : BitVec 41) (data : List Byte) (poison : List Nat),
      (s.remoteOk job.toNat addr.toNat data.length = true →
        ∃ u, Wrote s u addr.toNat data ∧ u = { s with mem := u.mem, poison := u.poison, regs := u.regs } ∧ RegsButLines s u [] ∧
          exec (.remoteWrite from_ id job addr data poison) s = .next ((u.sendReply from_.toNat id .accepted).arrivedAt addr.toNat)) ∧
      (s.remoteOk job.toNat addr.toNat data.length = false →
        ∃ u, OnlyRegs s u (bumpKeys .fabG 2) ∧ exec (.remoteWrite from_ id job addr data poison) s = .next (u.sendReply from_.toNat id .refused))) ∧
    (∀ id r sent, s.fabric.remotes.find? (fun r => r.id == id) = some r → r.sent = some sent → sent + 97657 ≤ s.now →
      ∃ t, exec (.remoteWriteTimeout id) s = .next t ∧ SameMemory s t ∧
        t.fabric.remotes = s.fabric.remotes.filter (fun x => x.id != id) ∧
        ((s.cmd? r.part r.cmd).isSome = true → t.rd (.thx r.part) THX_SEQ_FAULT_reason = 2 ∧ t.cmd? r.part r.cmd = none)) ∧
    (∀ (i : PortId) (kind : RoundKind) (axis : Fin 4) (step : W64) (value : Bool), s.inTurn (.flagRoundMessage i kind axis step value) = true →
      (s.fabric.acted.contains step.toNat = true → exec (.flagRoundMessage i kind axis step value) s = .next s) ∧
      (s.fabric.acted.contains step.toNat = false →
        ∃ u : State, u.round? kind step.toNat = some { s.roundOr kind step.toNat with
            got := (s.roundOr kind step.toNat).got ++ [(axis.val, travelsPlus i.val, value)] } ∧
          u = { s with fabric := { s.fabric with rounds := u.fabric.rounds } } ∧
          exec (.flagRoundMessage i kind axis step value) s = .next (u.runRound kind step.toNat roundFuel))) ∧
    (∀ (i : PortId) (tok : Token), s.inTurn (.abortToken i tok) = true → s.rd .fabG FAB_G_JOB_valid = 1 →
      s.rd .fabG FAB_G_JOB_id = tok.job.toNat → s.jobStep ≤ tok.step.toNat → s.tokenKnown tok.step.toNat = false →
      let t' : Token := { tok with hops := tok.hops + 1 }
      ∃ t, exec (.abortToken i tok) s = .next t ∧ t = { s with ports := t.ports, fabric := { s.fabric with tokens := s.fabric.tokens ++ [t'] } } ∧
        ∀ j, j < 8 → t.port j = if s.jobPort j = true ∧ j ≠ i.val then { s.port j with ctrl := .abort t' :: (s.port j).ctrl } else s.port j) ∧
    (s.feature 4 = true → s.rd .fabG FAB_G_JOB_valid = 1 → s.tokenKnown s.jobStep = false →
      ∃ t, exec .abortGo s = .next t ∧ t.fabric = { s.fabric with tokens := s.fabric.tokens ++ [s.ownToken s.jobStep] } ∧
        t.rd .fabG (HDR_INT FABG_INT_abort_sent) = 1 ∧ SameMemory s t ∧ RegsBut s t (raiseKeys .fabG FABG_INT_abort_sent) ∧
        ∀ j, j < 8 → s.jobPort j = true → t.port j = { s.port j with ctrl := .abort (s.ownToken s.jobStep) :: (s.port j).ctrl }) ∧
    (∀ tok rest, s.inTurn .abortAct = true → s.fabric.tokens = tok :: rest →
      (∀ p ∈ s.boundParts, ∀ u, (s.part p).pass = some u → u.flying = []) →
      ∃ t, exec .abortAct s = .next t ∧ SameMemory s t ∧ t.rd .fabG FAB_G_ABORT_STEP_value = tok.step.toNat ∧
        t.fabric.acted.contains tok.step.toNat = true ∧ (∃ l, t.fabric.tokens = rest ++ l) ∧
        ∀ p ∈ s.boundParts, t.rd (.thx p) THX_SEQ_CTL_run = 0 ∧ (t.part p).products = [] ∧ (t.part p).pass = none ∧
          (t.part p).owned = [] ∧ (s.abortHolds p tok.step.toNat = true → t.hch p = hchHeld))

/-- R317–R320: timing messages go out with the module's depth and tick and are heard as the offset of their sender's time; a depth above 63
makes that neighbour no parent. The parent is the up port of smallest depth, and without one an aligned module enters holdover, which
expires after 1 s. An aligned module slews to its parent; a first alignment and an ordered realignment load the parent's tick in one
step. -/
def Obligations.TheTickFollowsItsParent : Prop :=
  ∀ (s : State),
    let state := s.rd .fabG FAB_G_TIME_STATUS_state
    let parent := s.rd .fabG FAB_G_TIME_STATUS_parent
    (∀ (i : PortId) (phase : BitVec 16), s.rd (.port i.val) FAB_PORT_STATE_link = 2 →
      ∃ t, exec (.timingMessageSend i phase) s = .next t ∧ t = { s with ports := t.ports } ∧ OnlyPort s t i.val ∧
        t.port i.val = { s.port i.val with ctrl := (s.port i.val).ctrl ++ [.timing (BitVec.ofNat 8 s.depth) s.tick phase] }) ∧
    (∀ (i : PortId) (depth : BitVec 8) (tick : W64) (phase arrival : BitVec 16), s.rd (.port i.val) FAB_PORT_STATE_link = 2 →
      let d := s.offsetOf i.val tick.toNat phase.toNat arrival.toNat
      (63 < depth.toNat → ∃ t, exec (.timingMessage i depth tick phase arrival) s = .next t ∧
        t.rd (.port i.val) FAB_PORT_STATE_nbr_depth = depth.toNat ∧
        OnlyRegs s t (regKey (.port i.val) FAB_PORT_STATE_nbr_depth :: bumpKeys .fabG 5)) ∧
      (depth.toNat ≤ 63 → parent ≠ i.val → ∃ t, exec (.timingMessage i depth tick phase arrival) s = .next t ∧
        t.rd (.port i.val) FAB_PORT_STATE_nbr_depth = depth.toNat ∧ t.offsetTo i.val = some d ∧
        t = { s with regs := t.regs, fabric := { s.fabric with heard := t.fabric.heard } } ∧
        RegsBut s t [regKey (.port i.val) FAB_PORT_STATE_nbr_depth]) ∧
      (depth.toNat < 63 → parent = i.val → state = 1 → s.rd .fabG FAB_G_TIME_CTL_realign = 0 →
        ∃ t, exec (.timingMessage i depth tick phase arrival) s = .next t ∧ t.rd .fabG FAB_G_TIME_STATUS_depth = depth.toNat + 1 ∧
          t.fabric.slew = d ∧ t.tick = s.tick)) ∧
    (s.rd .fabG FAB_G_TIME_CTL_root = 0 → s.bestParent = none → state = 1 →
      ∃ t, exec .timingParentSelect s = .next t ∧ t.rd .fabG FAB_G_TIME_STATUS_parent = 0xF ∧
        t.rd .fabG FAB_G_TIME_STATUS_state = 2 ∧ t.fabric.holdFrom = some s.now ∧ SameMemory s t) ∧
    (∀ i, s.rd .fabG FAB_G_TIME_CTL_root = 0 → s.bestParent = some i → s.offsetTo i = none →
      ∃ t, exec .timingParentSelect s = .next t ∧ t.rd .fabG FAB_G_TIME_STATUS_parent = i ∧ t.rd (.port i) FAB_PORT_STATE_parent = 1 ∧
        t.rd .fabG FAB_G_TIME_STATUS_depth = s.rd (.port i) FAB_PORT_STATE_nbr_depth + 1 ∧ t.tick = s.tick) ∧
    (∀ from_, s.fabric.holdFrom = some from_ → state = 2 → from_ + 976563 ≤ s.now →
      ∃ t, exec .holdoverExpired s = .next t ∧ t.rd .fabG FAB_G_TIME_STATUS_state = 3 ∧
        OnlyRegs s t (regKey .fabG FAB_G_TIME_STATUS_state :: raiseKeys .fabG FABG_INT_holdover_expired)) ∧
    (∀ d, s.offsetTo parent = some d →
      let loaded := fun (t : State) => t.tick = BitVec.ofInt 64 (s.now + d / 64000) ∧ t.fabric.shift = s.fabric.shift + d % 64000 ∧
        t.fabric.slew = 0 ∧ t.fabric.heard = [] ∧ t.rd .fabG FAB_G_TIME_STATUS_state = 1 ∧ SameMemory s t
      (s.feature 4 = true → ∃ t, exec .realign s = .next t ∧ loaded t ∧
        t.rd .fabG FAB_G_TIME_STATUS_step_made = 1 ∧ t.rd .fabG FAB_G_TIME_CTL_realign = 0 ∧ t.fabric.holdFrom = none) ∧
      (state = 0 → s.rd .fabG FAB_G_TIME_CTL_root = 0 → ∃ t, exec .tickAligned s = .next t ∧ loaded t ∧
        RegsBut s t (regKey .fabG FAB_G_TIME_STATUS_state :: raiseKeys .fabG FABG_INT_aligned)))

/-- R266, R268, R272, R273, R276: a polled ring takes its index word; the next entry of the command ring begins a launch under the next
ordinal, or is passed over, or faults and then ends with status 0x03 (log entry 24); a command that has completed its work, or whose
remote writes have been answered, ends; and a launch that has a result gets its status byte before the consumer word advances. A ring's
words and entries are accessed where the sequencer may reach them (R165). -/
def Obligations.LaunchesAreFetchedAndWrittenBack : Prop :=
  ∀ (p : PartId) (s : State),
    let r := s.ring p.val 0
    let e := s.readEntry p.val 0 r.fetched
    let host := s.ringHost p.val 0
    (s.mayFetch p.val = true → s.entryReadable p.val 0 r.fetched = true → leAt e 0 1 = 1 → leAt e 0x10 3 ≠ 0 → leAt e 0x20 2 ≠ 0 → leAt e 8 8 % 64 = 0 →
      s.reach p.val (leAt e 8 8) (64 * leAt e 0x10 3) = true →
      ∃ t, exec (.launchEntry p) s = .next t ∧ t = { s with parts := t.parts } ∧ OnlyRings s t p.val ∧
        RingIs s t p.val 0 { r with fetched := r.fetched + 1 } ∧ (t.part p.val).seq.ell = (s.part p.val).seq.ell + 1 ∧
        (t.part p.val).seq.launches = (s.part p.val).seq.launches ++
          [{ ordinal := (s.part p.val).seq.ell, entry := r.fetched, stream := leAt e 8 8, count := leAt e 0x10 3
             step := leAt e 0x18 8, m := leAt e 0x20 2, issued := 0, completed := 0, status := none }]) ∧
    (s.mayFetch p.val = true → s.entryReadable p.val 0 r.fetched = true → s.tokenWaits (leAt e 0x18 8) = false → leAt e 0 1 ≠ 0 →
      (leAt e 0 1 ≠ 1 ∨ leAt e 0x10 3 = 0 ∨ leAt e 0x20 2 = 0 ∨ leAt e 8 8 % 64 ≠ 0 ∨
        s.reach p.val (leAt e 8 8) (64 * leAt e 0x10 3) = false) →
      ∃ t, exec (.launchEntry p) s = .next t ∧ SameMemory s t ∧ RingIs s t p.val 0 { r with fetched := r.fetched + 1 } ∧
        t.rd (.thx p.val) THX_SEQ_FAULT_reason = (if leAt e 0 1 ≠ 1 ∨ leAt e 0x10 3 = 0 then 1 else if leAt e 0x20 2 = 0 then 5 else 2) ∧
        (t.part p.val).seq.ell = (s.part p.val).seq.ell ∧ (∀ q ∈ s.withPeers p.val, t.rd (.thx q) THX_SEQ_CTL_run = 0) ∧
        ∃ l, (t.part p.val).seq.launches.getLast? = some l ∧ l.entry = r.fetched ∧ l.result = some 3) ∧
    (s.mayFetch p.val = true → s.entryReadable p.val 0 r.fetched = true → s.ringAllows p.val 0 [(s.consAddr p.val 0, 8)] →
      leAt e 0 1 = 0 → r.cons = r.fetched → (∀ l ∈ (s.part p.val).seq.launches, l.entry < r.cons) →
      ∃ t, exec (.skipEntry p) s = .next t ∧ t = { s with parts := t.parts, mem := t.mem, hostMem := t.hostMem, poison := t.poison } ∧
        OnlyRings s t p.val ∧ RingIs s t p.val 0 { r with cons := r.cons + 1, fetched := r.fetched + 1 } ∧
        (t.part p.val).seq.launches = (s.part p.val).seq.launches ∧ (t.part p.val).seq.ell = (s.part p.val).seq.ell ∧
        WroteSpace s t host (s.consAddr p.val 0) (leBytes 8 (r.cons + 1))) ∧
    (∀ l rest v, (s.part p.val).seq.launches = l :: rest → l.result = some v → l.entry = r.cons → s.ringWaits p.val 0 = false →
      s.ringAllows p.val 0 [(s.ringEntry p.val 0 l.entry + 0x38, 1), (s.consAddr p.val 0, 8)] →
      ∃ t m, exec (.launchComplete p) s = .next t ∧
        t = { s with parts := t.parts, mem := t.mem, hostMem := t.hostMem, poison := t.poison } ∧ OnlyRings s t p.val ∧
        RingIs s t p.val 0 { r with cons := r.cons + 1 } ∧ (t.part p.val).seq.launches = rest ∧
        (t.part p.val).seq.ell = (s.part p.val).seq.ell ∧
        WroteSpace s m host (s.ringEntry p.val 0 l.entry + 0x38) [BitVec.ofNat 8 v] ∧
        WroteSpace m t host (s.consAddr p.val 0) (leBytes 8 (r.cons + 1))) ∧
    (∀ k : Fin 4, s.rd (.thx p.val) (THX_SEQ_RING_CFG_enable k.val) = 1 → s.ringWaits p.val k.val = false →
      let x := s.ring p.val k.val
      let index := fun (a : Nat) => leNat (s.spaceBytes (s.ringHost p.val k.val) a 8)
      let polled := fun (y : Ring) => ∃ t, exec (.ringPoll p k) s = .next t ∧ t = { s with parts := t.parts } ∧
        OnlyRings s t p.val ∧ RingIs s t p.val k.val y ∧ (t.part p.val).seq.launches = (s.part p.val).seq.launches ∧
        (t.part p.val).seq.ell = (s.part p.val).seq.ell
      (s.isOutRing p.val k.val = true → s.ringPoisoned p.val k.val (s.consAddr p.val k.val) 8 = false →
        s.ringAllows p.val k.val [(s.consAddr p.val k.val, 8)] → polled { x with cons := index (s.consAddr p.val k.val) }) ∧
      (s.isOutRing p.val k.val = false → s.ringPoisoned p.val k.val (s.prodAddr p.val k.val) 8 = false →
        s.ringAllows p.val k.val [(s.prodAddr p.val k.val, 8)] →
        (index (s.prodAddr p.val k.val) ≤ x.cons + 2 ^ s.ringLog p.val k.val → polled { x with prod := index (s.prodAddr p.val k.val) }) ∧
        (x.cons + 2 ^ s.ringLog p.val k.val < index (s.prodAddr p.val k.val) →
          ∃ t, exec (.ringPoll p k) s = .next t ∧ t.rd (.thx p.val) THX_SEQ_FAULT_reason = 6 ∧ SameMemory s t ∧
            ∀ q ∈ s.withPeers p.val, t.rd (.thx q) THX_SEQ_CTL_run = 0))) ∧
    (∀ id x, s.cmd? p.val id = some x → s.signalsInside p.val x →
      (s.workDone p.val x = true → ∃ t, exec (.commandComplete p id) s = .next t ∧ Completed s t p.val x) ∧
      ((x.work = .remote ∧ s.remotesOut p.val id = false) ∨ ((x.work = .commit ∨ x.work = .push) ∧ s.hitchBusy p.val x = false) →
        ∃ t, exec (.commandComplete p id) s = .next t ∧ Completed s t p.val x))

/-- R281, R282, R451–R453: RING_IN and RING_OUT issue and then wait for their ring. An object that authenticates is written in plaintext to
the buffer with its record in the batch table; an embedding is encrypted under a fresh nonce into the egress region, and its entry and
the producer word follow. What a cipher gives is opaque (log entry 9). -/
def Obligations.RingsTakeAndGiveObjects : Prop :=
  ∀ (p : PartId) (c : Cmd) (s : State) (l : Launch),
    let r := c.a.toNat
    let id := s.nextId p.val
    s.issueLaunch p.val c = some l → s.feature 2 = true →
    (∀ buf table, cmdAddress c l.step c.c = some buf → cmdAddress c l.step c.d = some table → s.ringServes p.val r 1 = true →
      let most := c.b.toNat
      (s.ringBatch p.val r most = [] → ∃ t, exec (.ringIn p c) s = .next t ∧ Issued s t p.val 9 c l (.ringIn r most buf table 0) ∧
        SeqFrame s t p.val (bumpKeys .pmc 1)) ∧
      (∀ e text, s.ringBatch p.val r most = [e] → s.openObject p.val e = (0, text) → s.ringWaits p.val r = false →
        s.ringBlocked p.val id r = false → s.entriesPoisoned p.val r (s.ring p.val r).fetched 1 = false →
        s.batchReach p.val buf table [e] = true → s.entryReadable p.val r (s.ring p.val r).fetched = true →
        ∃ t m, exec (.ringIn p c) s = .next t ∧ OnlyPart s t p.val ∧ RegsBut s t (bumpKeys .pmc 1) ∧
          t = { s with regs := t.regs, sent := t.sent, parts := t.parts, mem := t.mem, poison := t.poison, nDraw := t.nDraw, cycle := t.cycle } ∧
          RingIs s t p.val r { s.ring p.val r with fetched := (s.ring p.val r).fetched + 1 } ∧
          (∃ x ∈ t.flight p.val, x.id = id ∧ x.work = .ringIn r most buf table 1) ∧
          Wrote s m buf text ∧ Wrote m t table (batchRecord buf (leAt e 8 8) (leAt e 0x10 8) 0 (leAt e 0x18 1)))) ∧
    (∀ table dst, cmdAddress c l.step c.b = some table → cmdAddress c l.step c.d = some dst → s.ringServes p.val r 2 = true →
      let n := c.c.toNat
      let x := s.ring p.val r
      (2 ^ s.ringLog p.val r < x.prod - x.cons + n → ∃ t, exec (.ringOut p c) s = .next t ∧
        Issued s t p.val 0xA c l (.ringOut r table n dst false) ∧ SeqFrame s t p.val (bumpKeys .pmc 1)) ∧
      (∀ b k ctr, s.batch table n = [b] → s.embeddingStatus p.val b = 0 → s.tenant? p.val (leAt b 0x19 1) = some k →
        ctr = s.rd .sec SEC_NONCE_CTR_value → ctr < s.security.ncTop → x.prod - x.cons + 1 ≤ 2 ^ s.ringLog p.val r →
        s.ringWaits p.val r = false → s.ringBlocked p.val id r = false → s.poisonedIn table (32 * n) = false →
        s.outReach p.val table n dst = true → s.ringAllows p.val r [(s.ringEntry p.val r x.prod, 64), (s.prodAddr p.val r, 8)] →
        let len := leAt b 8 8
        let z := Config.gcmSeal (subkey k 2) (nonceBytes 1 ctr) (leBytes 8 len ++ leBytes 8 (leAt b 0x10 8)) (s.bytes (leAt b 0 8) len)
        let host := s.ringHost p.val r
        ∃ t u v, exec (.ringOut p c) s = .next t ∧ OnlyPart s t p.val ∧ RingIs s t p.val r { x with prod := x.prod + 1 } ∧
          (∃ y ∈ t.flight p.val, y.id = id ∧ y.work = .ringOut r table n dst true) ∧
          t.rd (.thx p.val) THX_SEQ_OBJ_objects = (s.rd (.thx p.val) THX_SEQ_OBJ_objects + 1) % 2 ^ THX_SEQ_OBJ_objects.width ∧
          RegsBut s t (regKey (.thx p.val) THX_SEQ_OBJ_objects :: regKey (.thx p.val) THX_SEQ_RATE_objects :: regKey .sec SEC_NONCE_CTR_value :: bumpKeys .pmc 1) ∧
          Wrote s u (align64 dst) (slice z.1 0 len) ∧ (∀ a, u.hostByte a = s.hostByte a) ∧
          WroteSpace u v host (s.ringEntry p.val r x.prod) (outEntry (align64 dst) len (leAt b 0x10 8) 0 z.2 (nonceBytes 1 ctr)) ∧
          WroteSpace v t host (s.prodAddr p.val r) (leBytes 8 (x.prod + 1))))

/-- R330–R333, R380: a watched block that hangs is reset by itself, in its turn among a tick's events: its listed state is cleared, cause and
tick are recorded, and its reset is under way. With a stable clock it returns to service, a port by training again; a reset that overruns
becomes that of its partition, or of the module where the block is shared. -/
def Obligations.EngineResetsClearTheirBlock : Prop :=
  ∀ (b : Block) (s : State),
    (s.hangs b = true → s.inTurn (.hangTimeout b) = true →
      ∃ t, exec (.hangTimeout b) s = .next t ∧ t.engineResets = s.engineResets ++ [b] ∧ BlockCleared s t b ∧ SameMemory s t ∧
        ∀ p, blockPart? b = some p → t.rd (.hch p) HCH_HANG_TICK_value = s.now ∧ t.rd (.hch p) (HDR_INT HCH_INT_hang) = 1 ∧
          t.rd (.hch p) HCH_RESET_CAUSE_kind = 1 ∧ t.rd (.hch p) HCH_RESET_CAUSE_block = (blockCode b).1 ∧
          t.rd (.hch p) HCH_RESET_CAUSE_instance = (blockCode b).2) ∧
    (s.hangs b = false → s.inTurn (.hangTimeout b) = true → exec (.hangTimeout b) s = .next s) ∧
    (s.engineResets.contains b = true → s.pllStable (blockPll b) = true →
      let left := s.engineResets.filter (fun x => decide (x ≠ b))
      (∃ t, exec (.engineResetComplete b) s = .next t ∧ t = { s with regs := t.regs, engineResets := left } ∧
        match b with
        | .port i => (s.rd (.port i.val) FAB_PORT_STATE_link = 0 →
              t.rd (.port i.val) FAB_PORT_STATE_link = flag ({ s with engineResets := left }.trains i.val)) ∧
            RegsBut s t ([FAB_PORT_STATE_link, FAB_PORT_CTL_retrain].map (regKey (.port i.val)))
        | _ => t.regs = s.regs) ∧
      (∀ p, blockPart? b = some p → s.rd (.part p) MGT_PT_STATE_state ≠ 3 → s.resetting.contains p = false →
        ∃ t, exec (.engineResetTimeout b) s = .next t ∧ t.engineResets.contains b = false ∧ PartReset s t p 2 ∧
          t.rd (.hch p) (HDR_INT HCH_INT_escalated) = 1) ∧
      (blockPart? b = none → ∃ t, exec (.engineResetTimeout b) s = .next t ∧ ModuleCleared s t ∧ t.tick = s.tick))

/-- R331, R334, R335, R441: a partition that runs is reset on request, and runs again once its reset is done, or starts where the module has
not reached Instar 1. An overrun, or software, resets the module, whose tick and per-boot keys stay; a watchdog reset starts it from ROM
with new ones. -/
def Obligations.PartitionsAndModuleAreReset : Prop :=
  ∀ (p : PartId) (s : State),
    (s.running p.val = true → s.resetting.contains p.val = false →
      ∃ t, exec (.partitionResetRequest p) s = .next t ∧ PartReset s t p.val 4 ∧ OnlyPart s t p.val) ∧
    (s.resetting.contains p.val = true → (s.part p.val).heldParts = [] → s.partClocked p = true →
      let st := if 1 ≤ s.rd .pwr PWR_INSTAR_instar then 2 else 1
      (∃ t, exec (.partitionResetDone p) s = .next t ∧
        t = { s with regs := t.regs, sent := t.sent, resetting := s.resetting.filter (fun x => x != p.val) } ∧
        t.rd (.part p.val) MGT_PT_STATE_state = st ∧ t.rd .pwr (PWR_P_STATE_state p.val) = st ∧
        t.rd (.part p.val) (HDR_INT PT_INT_reset_done) = 1 ∧
        RegsBut s t ([regKey (.part p.val) MGT_PT_STATE_state, regKey .pwr (PWR_P_STATE_state p.val)] ++
          raiseKeys (.part p.val) PT_INT_reset_done)) ∧
      (∃ t, exec (.partitionResetTimeout p) s = .next t ∧ ModuleCleared s t ∧ t.tick = s.tick)) ∧
    (s.alive = true → ∃ t, exec .moduleResetRequest s = .next t ∧ ModuleCleared s t ∧ t.tick = s.tick ∧
      t.security.bootKey = s.security.bootKey ∧ t.rd .mgt (HDR_ERRCNT 1) = 1) ∧
    (s.powered = true → ∃ t, exec .watchdogReset s = .next t ∧ ModuleCleared s t ∧ t.tick = 0 ∧
      t.security.bootKey = s.security.bootKey + 1)

/-- R27, R32, R37, R369: a channel that fails fails its partition; a management action sets a grant or a gain or switches a wing, and counts
in PROGRESS; poison that is consumed terminates the context: every sequencer of it stops, its open launches end with status 0x04, and the
point is recorded. An action is applied where its block stands at an operation boundary, and waits for one. -/
def Obligations.FailuresActionsAndPoison : Prop :=
  ∀ (p : PartId) (s : State),
    (∀ ch : ChannelId, s.rd (.part p.val) MGT_PT_STATE_state ≠ 3 →
      ∃ t, exec (.hbmChannelFailure p ch) s = .next t ∧ PartFailed s t p.val 3 ∧ t.rd (.chan p.val ch.val) THX_HBM_STATE_failed = 1) ∧
    (∀ a : MgmtAction, s.alive = true → s.rd (.part p.val) MGT_PT_STATE_state ≠ 3 → (s.part p.val).actions = [] →
      s.atBoundary p.val none a = false →
      ∃ t, exec (.managementAction p a) s = .next t ∧ t = { s with parts := t.parts } ∧ OnlyPart s t p.val ∧
        t.part p.val = { s.part p.val with actions := [a] }) ∧
    (∀ a : MgmtAction, s.alive = true → s.rd (.part p.val) MGT_PT_STATE_state ≠ 3 → (s.part p.val).actions = [] →
      s.atBoundary p.val none a = true →
      ∃ t, exec (.managementAction p a) s = .next t ∧ SameMemory s t ∧
        t.rd (.part p.val) HDR_PROGRESS = (s.rd (.part p.val) HDR_PROGRESS + 1) % 2 ^ 32 ∧
        match a with
        | .grant w g =>
          t.rd (.wing p.val w.val) WNG_TOKENS_grant =
            (if s.rd (.wing p.val w.val) WNG_STATE_role < 8 then max 1 (min 16384 g.toNat) else 0) ∧
          t = { s with regs := t.regs, parts := t.parts } ∧ (∀ q, t.part q = s.part q) ∧
          RegsBut s t [regKey (.part p.val) HDR_PROGRESS, regKey (.wing p.val w.val) WNG_TOKENS_grant]
        | .gain w b sc g =>
          t.scale p.val w.val b.val sc.val = { s.scale p.val w.val b.val sc.val with gain := g.val, managed := true } ∧
          OnlyScale s t p.val w.val b.val sc.val ∧ t = { s with regs := t.regs, scales := t.scales, parts := t.parts } ∧
          (∀ q, t.part q = s.part q) ∧
          RegsBut s t [regKey (.part p.val) HDR_PROGRESS]
        | .wingPower w true =>
          s.rd (.wing p.val w.val) WNG_STATE_power = 0 →
          bit (s.rd .pwr (PWR_DOM_FAULT_domains ((9 * p.val + w.val) / 32))) ((9 * p.val + w.val) % 32) = false →
          t.rd (.wing p.val w.val) WNG_STATE_power = 1 ∧ t.domainOn (9 * p.val + w.val) = true
        | .wingPower w false =>
          s.rd (.wing p.val w.val) WNG_STATE_power ≠ 0 →
          t.rd (.wing p.val w.val) WNG_STATE_power = 0 ∧ t.rd (.wing p.val w.val) WNG_STATE_calibrated = 0 ∧
          (t.wing p.val w.val).tiles = [] ∧ ∀ x ∈ s.wingScales p.val w.val, (t.scale p.val w.val x.1 x.2).cells = []) ∧
    (∀ point : PoisonPoint, s.inTurn (.poisonConsumed p point) = true → (s.ctx? p.val).isSome = true → s.rd (.thx p.val) THX_SEQ_STATUS_state ≠ 3 →
      ∃ t, exec (.poisonConsumed p point) s = .next t ∧ SameMemory s t ∧
        t.rd (.saf p.val) THX_POISON_STATUS_point = pointCode point ∧ t.rd (.saf p.val) THX_POISON_STATUS_terminated = 1 ∧
        t.rd (.saf p.val) (HDR_INT SAF_INT_poison_consumed) = 1 ∧
        (∀ q ∈ s.peers p.val, t.rd (.thx q) THX_SEQ_CTL_run = 0 ∧ t.rd (.thx q) THX_SEQ_STATUS_state = 3 ∧
          t.part q = { s.part q with seq := (s.part q).seq.endAll 4 }) ∧
        ∀ q, q ∉ s.peers p.val → t.part q = s.part q)

/-- R141, R354, R355, R366, R372, R375–R377: a poisoned granule of the level mirror or of a side record is written whole from its scale; a
scrub writes a granule back corrected or poisoned and counts it; a sweep that passes sets its unit's tick, one that fails takes the unit out
of service; the next staged chunk goes to the host as a record; a saturated counter is cleared; every scale's wear count is copied to flash.
-/
def Obligations.MemoryAndUnitsAreKeptSound : Prop :=
  ∀ (p : PartId) (s : State),
    (∀ (granule : W64) g pw ps,
      let a := granule.toNat / 32 * 32
      s.poisonedIn a 32 = true → s.reaches p.val [(a, 32)] → s.mirrorGranule? p.val a = some g →
      (∀ t ∈ (s.part p.val).seats, t.lw = g.lw → t.bank = g.bank → t.ls = g.ls → t.stuck = true) →
      s.physWing? p.val g.lw = some pw → s.physScale? p.val pw g.bank g.ls = some ps →
      ∃ t, exec (.mirrorRebuild p granule) s = .next t ∧ Wrote s t a (s.rebuilt a g (s.scale p.val pw g.bank ps)) ∧
        t = { s with regs := t.regs, sent := t.sent, mem := t.mem, poison := s.poison.filter (fun x => x != a / 32) } ∧
        t.rd (.saf p.val) (HDR_INT SAF_INT_mirror_rebuilt) = 1 ∧
        RegsBut s t (bumpKeys (.saf p.val) (if g.side then 7 else 6) ++ raiseKeys (.saf p.val) SAF_INT_mirror_rebuilt)) ∧
    (∀ (ch : ChannelId) (addr : W64) (us : List Upset),
      let g := addr.toNat / 32
      let n := fun (k : Nat) => s.rd (.chan p.val ch.val) (HDR_ERRCNT k)
      let counts := fun (t : State) (k : Nat) =>
        t.rd (.chan p.val ch.val) (HDR_ERRCNT k) = (if bit (n k) 31 then n k else countUp (n k) % 2 ^ 32) ∧
        RegsBut s t (bumpKeys (.chan p.val ch.val) k)
      s.resetting.contains p.val = false → addr.toNat / hbmSize = p.val → channelOf addr.toNat = ch.val → s.poison.contains g = false →
      (∀ i v, decodeGranule (upsetError us) = .corrected i v →
        (fixSymbol (upsetError us) (some (i, v))) = List.replicate 36 0 →
        ∃ t, exec (.scrub p ch [(addr, us)]) s = .next t ∧ SameMemory s t ∧ counts t 0) ∧
      (decodeGranule (upsetError us) = .uncorrectable →
        ∃ t, exec (.scrub p ch [(addr, us)]) s = .next t ∧ (∀ x, x ∈ t.poison ↔ x = g ∨ x ∈ s.poison) ∧ counts t 1 ∧
          ∀ b, b / 32 ≠ g → t.byte b = s.byte b)) ∧
    (∀ (u : SweepUnit), s.sweepable p.val u = true →
      (∃ t, exec (.patternSweep p u true) s = .next t ∧ SameMemory s t ∧ t.sweepTickOf p.val u = s.now ∧
        t.rd (.saf p.val) THX_SWEEP_TICK_tick = t.earliestSweep p.val % 2 ^ 64 ∧
        RegsBut s t (regKey (.saf p.val) THX_SWEEP_TICK_tick :: bumpKeys (.saf p.val) 4)) ∧
      (∃ t, exec (.patternSweep p u false) s = .next t ∧ SameMemory s t ∧
        match u with
        | .cluster c =>
          24 ≤ s.rd (.cluster p.val c.val) THX_STATE_role → t.rd (.cluster p.val c.val) THX_STATE_role = 0x1E ∧
            t.rd (.saf p.val) THX_SUSPECT_tick = (s.cluster p.val c.val).sweepTick % 2 ^ 64 ∧
            t.rd (.saf p.val) (HDR_INT SAF_INT_sweep_failed) = 1
        | _ => t.rd (.part p.val) MGT_PT_STATE_state = 3 ∧ t.rd (.part p.val) MGT_PT_STATE_cause = 5)) ∧
    (∀ x rest step dst n k,
      let ctr := s.rd .sec SEC_NONCE_CTR_value
      let l := s.record x n k ctr
      (s.part p.val).staged = x :: rest → (s.part p.val).ckpt = some (step, dst) → s.poisonedIn x.addr x.bytes = false →
      s.slotFor p.val 1 = some (n, k) → ctr < s.security.ncTop → s.on (.hch p.val) HCH_CKPT_CTL_peer = false → s.linkUp = true →
      ∃ t, exec (.cocoonRecordWrite p) s = .next t ∧ (t.part p.val).staged = rest ∧
        (t.part p.val).written = (s.part p.val).written + l.length ∧ (∀ b, t.byte b = s.byte b) ∧
        WroteSpace s t true (dst + (s.part p.val).written) l ∧ t.rd (.hch p.val) HCH_CKPT_STATUS_pending = rest.length % 2 ^ 24 ∧
        t.rd .sec SEC_NONCE_CTR_value = (ctr + 1) % 2 ^ SEC_NONCE_CTR_value.width) ∧
    (∀ (off : BitVec 28) pg f, counterAt off.toNat = some (pg, f) →
      (bit (s.rd pg f) 31 = true → ∃ t, exec (.errcntClear off) s = .next t ∧ t.rd pg f = 0 ∧ t = { s with regs := t.regs } ∧
        RegsBut s t [regKey pg f]) ∧
      (bit (s.rd pg f) 31 = false → exec (.errcntClear off) s = .next s)) ∧
    (mapSorted s.scales = true →
      ∃ t, exec .wearCopy s = .next t ∧ t = { s with wearFlash := t.wearFlash } ∧
        (∀ e ∈ s.scales, mapGet 0 t.wearFlash e.1 = e.2.wear) ∧
        ∀ k, (∀ e ∈ s.scales, e.1 ≠ k) → mapGet 0 t.wearFlash k = mapGet 0 s.wearFlash k)

/-- R380, R388–R390, R395, R396, R398, R401, R402: a trigger is held for the wing's next calibration; the calibration takes every held one
and the wing's temperature as it starts, the first one of a cleared wing at a tick edge, and completes with σ_c installed, pins cleared,
count and tick recorded. At an application point every trim moves towards its target, the wing reference by at most 16 LSB. -/
def Obligations.CalibrationsStartAndComplete : Prop :=
  ∀ (p : PartId) (w : WingId) (s : State),
    let y := s.wing p.val w.val
    let takes := fun (v : Nat) (k : TrigKind) => s.rd (.wing p.val v) WNG_STATE_power = 2 ∧ s.rd (.wing p.val v) WNG_STATE_role ≠ 0xE ∧
      (s.wing p.val v).cal.held.contains k = false
    (∀ wings : BitVec 9, s.inTurn (.calibrationCommand p wings) = true → s.resetting.contains p.val = false →
      ∃ t, exec (.calibrationCommand p wings) s = .next t ∧ t = { s with regs := t.regs, sent := t.sent, wings := t.wings } ∧
        t.rd (.cal p.val) CAL_CMD_go = 0 ∧ t.rd (.cal p.val) CAL_CMD_wings = wings.toNat ∧
        ∀ v, v < 9 → (bit wings.toNat v = true → takes v .command →
            t.wing p.val v = { s.wing p.val v with cal := { (s.wing p.val v).cal with held := (s.wing p.val v).cal.held ++ [.command] } } ∧
            bit (t.rd (.cal p.val) CAL_STATUS_pending) v = true) ∧
          (bit wings.toNat v = false → t.wing p.val v = s.wing p.val v)) ∧
    (∀ (b : BankId) (sc : ScaleId),
      let x := s.scale p.val w.val b.val sc.val
      let drifted := s.on (.cal p.val) CAL_CTL_drift_en && decide (s.rd (.cal p.val) CAL_CTL_drift_lim * 1024 < x.driftSum.natAbs)
      s.inTurn (.driftEvaluation p w b sc) = true → 65536 ≤ x.driftN →
      ∃ t, exec (.driftEvaluation p w b sc) s = .next t ∧ SameMemory s t ∧
        t.scale p.val w.val b.val sc.val = { x with driftSum := 0, driftN := 0 } ∧ OnlyScale s t p.val w.val b.val sc.val ∧
        (drifted = true → takes w.val .drift →
          t.wing p.val w.val = { y with cal := { y.cal with held := y.cal.held ++ [.drift] } }) ∧
        (drifted = false → t.wings = s.wings ∧ t.regs = s.regs)) ∧
    (s.rd (.wing p.val w.val) WNG_STATE_calibrated = 0 → s.rd (.wing p.val w.val) WNG_STATE_cleared = 1 → y.cal.running = false →
      takes w.val .first →
      (s.sampleTriggers p.val w.val).wing p.val w.val = { y with cal := { y.cal with held := y.cal.held ++ [.first] } }) ∧
    (s.calDue p.val w.val = true →
      ∃ t, exec (.calibrationStart p w) s = .next t ∧ OnlyWing s t p.val w.val ∧ SameMemory s t ∧
        t.wing p.val w.val = { y with cal :=
          { running := true, trig := if y.cal.again then y.cal.trig else y.cal.held.headD y.cal.trig, held := [], attempts := 0
            begun := s.now, newRef := s.rd (.wing p.val w.val) WNG_TEMP_temp, refDone := false, again := false } } ∧
        t.rd (.cal p.val) (CAL_W_STATE_phase w.val) = 1 ∧ bit (t.rd (.cal p.val) CAL_STATUS_active) w.val = true ∧
        bit (t.rd (.cal p.val) CAL_STATUS_pending) w.val = false ∧
        (∀ e ∈ s.wingScales p.val w.val, (t.scale p.val w.val e.1 e.2).calNext = 0 ∧
          (t.scale p.val w.val e.1 e.2).cells = (s.scale p.val w.val e.1 e.2).cells) ∧
        RegsBut s t ([CAL_W_STATE_phase w.val, CAL_W_COLUMN_column w.val, CAL_STATUS_active, CAL_STATUS_pending, CAL_STATUS_busy].map
          (regKey (.cal p.val)))) ∧
    (s.calFinished p.val w.val = true →
      ∃ t, exec (.calibrationComplete p w) s = .next t ∧ OnlyWing s t p.val w.val ∧ SameMemory s t ∧
        (t.wing p.val w.val).cal.running = false ∧ t.rd (.wing p.val w.val) WNG_STATE_calibrated = 1 ∧
        t.rd (.cal p.val) (CAL_W_TICK_tick w.val) = s.now ∧ t.rd (.cal p.val) (CAL_W_STATE_ref_temp w.val) = y.cal.newRef % 2 ^ 16 ∧
        t.rd (.cal p.val) (CAL_W_STATE_phase w.val) = 0 ∧ t.rd (.cal p.val) (HDR_INT CAL_INT_cal_done) = 1 ∧
        t.rd (.cal p.val) (CAL_W_COUNT_count w.val) = min 0xFFFF_FFFF (s.rd (.cal p.val) (CAL_W_COUNT_count w.val) + 1) ∧
        ∀ (b : BankId) (sc : ScaleId),
          let x := s.scale p.val w.val b.val sc.val
          let z := t.scale p.val w.val b.val sc.val
          x.calibrates = true → z.sigmaC = BitVec.ofNat 16 (x.sigma (scaleKey p.val w.val b.val sc.val)) ∧ z.cells = x.cells ∧
            (x.pinned = true → x.pinCal = true → z.pinned = false)) ∧
    ((s.part p.val).trimDue = true →
      let moved := fun (x z : Trim) => z.target = x.target ∧
        ((x.applied ≤ z.applied ∧ z.applied ≤ x.target) ∨ (x.target ≤ z.applied ∧ z.applied ≤ x.applied))
      ∃ t, exec (.trimApplication p) s = .next t ∧ t.part p.val = { s.part p.val with trimDue := false } ∧ OnlyPart s t p.val ∧
        t = { s with parts := t.parts, wings := t.wings, scales := t.scales } ∧
        (∀ v, v < 9 →
          let a := (s.wing p.val v).refApplied
          let b := (s.wing p.val v).refTarget
          t.wing p.val v = { s.wing p.val v with refApplied := if b < a then max b (a - 16) else min b (a + 16) }) ∧
        ∀ (v b sc : Nat), v < 9 → b < 32 → sc < 528 →
          moved (s.scale p.val v b sc).ladder (t.scale p.val v b sc).ladder ∧
          moved (s.scale p.val v b sc).pulse (t.scale p.val v b sc).pulse ∧
          (t.scale p.val v b sc).cells = (s.scale p.val v b sc).cells)

/-- R390–R394: runs that agree give the wing reference, a ladder, a pulse generator or a converter its trim target, at once where the
scale is calibrated directly; others are repeated. A column is taken over by the highest-numbered free spare, which the coming restores
fill, and given back once its converter is measured. The signs and the formulas of the targets are the model's (log entry 66). -/
def Obligations.MeasurementsSetTheirTrims : Prop :=
  ∀ (p : PartId) (w : WingId) (b : BankId) (sc : ScaleId) (s : State),
    let y := s.wing p.val w.val
    let x := s.scale p.val w.val b.val sc.val
    let d := s.direct p.val w.val b.val sc.val
    let run := fun what r => exec (.measurementRunEnd p w what r) s
    (∀ r : MeasRuns, y.cal.running = true →
      (y.cal.refDone = false → runsAgree r = true →
        let g := clampTrim 12 (trimTarget y.refApplied r.gain1 r.gain2 8)
        ∃ t, run .wingReference r = .next t ∧ (t.wing p.val w.val).refTarget = g ∧ (t.wing p.val w.val).cal.refDone = true ∧
          t.rd (.cal p.val) (CAL_W_STATE_phase w.val) = 2 ∧ OnlyWing s t p.val w.val ∧ t = { s with regs := t.regs, wings := t.wings } ∧
          RegsBut s t [regKey (.cal p.val) (CAL_W_STATE_phase w.val)]) ∧
      (y.cal.refDone = false → runsAgree r = false → y.cal.attempts < 3 →
        ∃ t, run .wingReference r = .next t ∧ t.wing p.val w.val = { y with cal := { y.cal with attempts := y.cal.attempts + 1 } } ∧
          t.rd (.cal p.val) (HDR_INT CAL_INT_retry) = 1 ∧
          RegsBut s t (bumpKeys (.cal p.val) 5 ++ raiseKeys (.cal p.val) CAL_INT_retry)) ∧
      (y.cal.refDone = true → x.calibrates = true → runsAgree r = true →
        (∃ t, run (.ladder b sc) r = .next t ∧ OnlyScale s t p.val w.val b.val sc.val ∧ t = { s with scales := t.scales } ∧
          (t.scale p.val w.val b.val sc.val).ladder =
            x.ladder.aim (clampTrim 10 (trimTarget x.ladder.applied r.gain1 r.gain2 128)) d) ∧
        (∃ t, run (.pulse b sc) r = .next t ∧ OnlyScale s t p.val w.val b.val sc.val ∧ t = { s with scales := t.scales } ∧
          (t.scale p.val w.val b.val sc.val).pulse =
            x.pulse.aim (clampTrim 10 (trimTarget x.pulse.applied r.gain1 r.gain2 32)) d) ∧
        ∀ col : Fin 264, x.measures d col.val = true →
          let o := mapGet Trim.reset x.offsets col.val
          let g := mapGet Trim.reset x.gains col.val
          let ot := trimTarget o.applied r.offset1 r.offset2 32
          let gt := trimTarget g.applied r.gain1 r.gain2 224
          meetsLimits r x col.val ot gt = true →
          ∃ t, run (.converter b sc col) r = .next t ∧ OnlyScale s t p.val w.val b.val sc.val ∧
            t = { s with regs := t.regs, scales := t.scales } ∧ RegsBut s t [regKey (.cal p.val) (CAL_W_STATE_phase w.val)] ∧
            t.rd (.cal p.val) (CAL_W_STATE_phase w.val) = 3 ∧
            mapGet Trim.reset (t.scale p.val w.val b.val sc.val).offsets col.val = o.aim ot d ∧
            mapGet Trim.reset (t.scale p.val w.val b.val sc.val).gains col.val = g.aim gt d ∧
            mapFind (t.scale p.val w.val b.val sc.val).noise col.val = some r.sigma)) ∧
    (∀ n, y.cal.running = true → y.cal.refDone = true → x.role = 1 → d = false → x.calNext ≤ 257 → x.takeover? = none →
      x.lastFree = some n →
      ∃ t, exec (.columnTakeover p w b sc) s = .next t ∧ OnlyScale s t p.val w.val b.val sc.val ∧
        t = { s with regs := t.regs, sent := t.sent, scales := t.scales } ∧
        t.scale p.val w.val b.val sc.val = { x with colmap := x.colmap.set n (2, x.calNext), copied := 0, calDirect := some false } ∧
        RegsBut s t ([CAL_W_STATE_phase w.val, CAL_W_COLUMN_column w.val].map (regKey (.cal p.val)) ++ bumpKeys (.cal p.val) 8)) ∧
    (∀ n j, x.takeover? = some (n, j) → j < x.calNext →
      ∃ t, exec (.takeoverEnd p w b sc) s = .next t ∧ t.scale p.val w.val b.val sc.val = { x with colmap := x.colmap.set n (0, 0) } ∧
        OnlyScale s t p.val w.val b.val sc.val ∧ t = { s with regs := t.regs, scales := t.scales } ∧
        RegsBut s t [regKey (.cal p.val) (CAL_W_COLUMN_column w.val)])

/-- R71, R166, R388, R403–R405, R421: an urgent request is taken at the tick edge: it displaces a scan conversion, which runs again later,
or queues behind an urgent one, or is turned away until the next edge; a conversion's result is written with its tick and the next one
begins, urgent ones first. A thermal reading is held, moves what its sensor moves, and at the threshold starts a throttle of its part. -/
def Obligations.SensorsAndConverters : Prop :=
  ∀ (m : Fin 4) (s : State),
    let c := s.converter m.val
    let others := fun (t : State) => ∀ k, k ≠ m.val → t.converter k = s.converter k
    (∀ (ch : Fin 32) (who : UrgentRequester), s.powered = true → bit (validChannels m.val) ch.val = true →
      ∃ t, exec (.urgentRequest m ch who) s = .next t ∧ t = { s with converters := t.converters } ∧ others t ∧
        t.converter m.val = { c with asked := c.asked ++ [(requesterRank who, ch.val)] }) ∧
    (∀ rank ch, c.asked = [(rank, ch)] → rank < 9 → ch < 32 →
      let t := s.takeUrgent m.val
      others t ∧ SameMemory s t ∧
      (∀ old, c.cur = some (old, false) →
        t.converter m.val = { c with cur := some (ch, true), again := some old, asked := [] } ∧
        t.rd .msr (MSR_M_STATUS_urgent m.val) = 1 ∧ t.rd .msr (MSR_M_STATUS_channel m.val) = ch) ∧
      (∀ old, c.cur = some (old, true) → c.urgent.length < 8 →
        t.converter m.val = { c with urgent := c.urgent ++ [ch], asked := [] } ∧ t.rd .msr (MSR_M_STATUS_queued m.val) = c.urgent.length + 1) ∧
      (c.cur = none → c.urgent = [] → s.rd .clk CLK_PLL_STABLE_measurement = 1 →
        t.converter m.val = { c with cur := some (ch, true), asked := [] }) ∧
      (∀ old, c.cur = some (old, true) → 8 ≤ c.urgent.length →
        t.converter m.val = c ∧ RegsBut s t (bumpKeys .msr 4 ++ raiseKeys .msr MSR_INT_queue_full) ∧
        t.rd .msr (HDR_INT MSR_INT_queue_full) = 1)) ∧
    (∀ (ch : Fin 32) (urgent : Bool) (value : Int), c.cur = some (ch.val, urgent) →
      ∃ t, exec (.measurementConversion m value) s = .next t ∧ others t ∧ SameMemory s t ∧
        t.rd .msr (MSR_DATA_valid (32 * m.val + ch.val)) = 1 ∧ t.rd .msr (MSR_DATA_urgent (32 * m.val + ch.val)) = flag urgent ∧
        t.rd .msr (MSR_TICK_tick (32 * m.val + ch.val)) = s.now ∧
        t.rd .msr (MSR_DATA_code (32 * m.val + ch.val)) = unsigned 24 (max (-8388607) (min 8388607 value)) ∧
        ((8388607 ≤ value ∨ value ≤ -8388607) → t.rd .msr (HDR_INT MSR_INT_overrange) = 1) ∧
        (s.rd .clk CLK_PLL_STABLE_measurement = 1 →
          (∀ u rest, c.urgent = u :: rest → t.converter m.val = { c with cur := some (u, true), urgent := rest }) ∧
          (∀ n, c.urgent = [] → urgent = false → c.stopped = false → c.again = none → s.rd .msr (MSR_M_CFG_en m.val) = 1 →
            s.scanFrom m.val (ch.val + 1) = some n → t.converter m.val = { c with cur := some (n, false) }))) ∧
    (∀ (x : Sensor) (v : BitVec 16), s.powered = true →
      ∃ t, exec (.thermalReading [(x, v)]) s = .next t ∧ SameMemory s t ∧
        t.power.last = (x, v) :: s.power.last.filter (fun e => decide (e.1 ≠ x)) ∧
        (match x with
         | .wingDie p w => t.rd (.wing p.val w.val) WNG_TEMP_temp = v.toNat
         | .channel p ch => t.rd (.chan p.val ch.val) THX_HBM_TEMP_temp = v.toNat ∧
             t.rd (.chan p.val ch.val) THX_HBM_STATE_refresh = flag (1360 < tempOf v)
         | _ => t = { s with regs := t.regs, sent := t.sent, power := t.power }) ∧
        (x ≠ .spinneret → s.throttleTemp ≤ tempOf v → (∀ z ∈ s.power.throttles, z.sensor ≠ partSensor x) →
          t.power.throttles = s.power.throttles ++ [{ sensor := partSensor x, steps := 0, cool := 0, warm := true }] ∧
          t.rd .pwr (HDR_INT PWR_INT_throttle) = 1))

/-- R417–R421, R432: at the end of a control interval the input readings are held, the limiter takes a step, holds or undoes one, each
throttle takes a step or ends, and the effective grants and clocks follow. A power fault switches a domain off and takes out what it
feeds; a fabric pair is switched off only while both its ports are disabled. -/
def Obligations.PowerIsManaged : Prop :=
  ∀ (s : State), s.alive = true →
    (∀ watts volts : BitVec 16,
      let w := watts.toNat
      let steps := if s.budget < w then s.power.steps ++ s.nextLimit.toList
        else if w + 100 < s.budget ∧ 8 ≤ s.power.under + 1 then undoStep s.power.steps else s.power.steps
      let under := if s.budget < w then 0 else if w + 100 < s.budget then s.power.under + 1 else 0
      ∃ t, exec (.controlInterval watts volts) s = .next t ∧ t = { s with regs := t.regs, sent := t.sent, power := t.power } ∧
        t.power = { s.power with
          steps := steps, under := under
          throttles := s.power.throttles.filterMap (fun x =>
            let cool := if x.warm then 0 else x.cool + 1
            if 8 ≤ cool then none else some { x with steps := x.steps + 1, cool := cool, warm := s.partWarm x.sensor }) } ∧
        t.rd .pwr PWR_INPUT_watts = w ∧ t.rd .pwr PWR_INPUT_volts = volts.toNat ∧
        t.rd .pwr PWR_STATUS_limiting = flag (!steps.isEmpty) ∧
        (∀ p, p < 8 → t.rd .pwr (PWR_P_STATE_grant p) = t.effectiveGrant p ∧
          ∀ v, v < 9 → t.rd (.wing p v) WNG_TOKENS_grant = if s.rd (.wing p v) WNG_STATE_role < 8 then t.effectiveGrant p else 0) ∧
        ∀ d, d < 4 → s.rd .clk (thoraxFreq d) ≠ 0 → t.rd .clk (thoraxFreq d) = t.thoraxMHz d / 8) ∧
    (∀ n : Fin 96, s.domainOn n.val = true →
      ∃ t, exec (.domainPowerFault n) s = .next t ∧ SameMemory s t ∧ t.domainOn n.val = false ∧
        bit (t.rd .pwr (PWR_DOM_FAULT_domains (n.val / 32))) (n.val % 32) = true ∧ t.rd .pwr (HDR_INT PWR_INT_dom_fault) = 1 ∧
        (n.val < 72 → s.outranked? (n.val / 9) 0 (n.val % 9) ≠ some (n.val % 9) → t.rd (.wing (n.val / 9) (n.val % 9)) WNG_STATE_role = 0xE ∧
          t.rd (.wing (n.val / 9) (n.val % 9)) WNG_STATE_power = 3) ∧
        (72 ≤ n.val → n.val < 88 → s.rd (.part ((n.val - 72) % 8)) MGT_PT_STATE_state ≠ 3 →
          PartFailed s t ((n.val - 72) % 8) 4) ∧
        (88 ≤ n.val → n.val < 92 → t.rd (.port (2 * (n.val - 88))) FAB_PORT_STATE_link = 3 ∧
          t.rd (.port (2 * (n.val - 88) + 1)) FAB_PORT_STATE_link = 3) ∧
        (92 ≤ n.val → RegsBut s t ([PWR_DOM_STATE_domains 2, PWR_DOM_FAULT_domains 2].map (regKey .pwr) ++ bumpKeys .pwr 3 ++
          raiseKeys .pwr PWR_INT_dom_fault))) ∧
    (∀ (pairs : BitVec 4),
      let busy := fun (x : Nat) => s.on (.port (2 * x)) FAB_PORT_CTL_enable || s.on (.port (2 * x + 1)) FAB_PORT_CTL_enable
      let off := fun (t : State) (x : Nat) => bit (t.rd .pwr PWR_FAB_OFF_off) x
      ∃ t, exec (.fabricPairOff pairs) s = .next t ∧ t = { s with regs := t.regs, ports := t.ports } ∧
        ∀ x, x < 4 →
          (bit pairs.toNat x = true → off s x = false → busy x = false → off t x = true ∧ t.domainOn (88 + x) = false ∧
            t.pairOn (2 * x) = false ∧ t.port (2 * x) = Port.reset ∧ t.port (2 * x + 1) = Port.reset) ∧
          (bit pairs.toNat x = true → off s x = false → busy x = true → off t x = false ∧ t.port (2 * x) = s.port (2 * x) ∧
            t.pairOn (2 * x) = s.pairOn (2 * x)) ∧
          (bit pairs.toNat x = false → off t x = false ∧ t.port (2 * x) = s.port (2 * x) ∧
            (off s x = true → bit (s.rd .pwr (PWR_DOM_FAULT_domains 2)) (24 + x) = false →
              t.domainOn (88 + x) = true ∧ t.pairOn (2 * x) = true)))

/-- R25, R380, R422–R424, R429, R433: in its turn among a tick's events a trip of a part is recorded and resets those of its partitions that
do not hold it yet, which hold the part off until it is cool, and then restart it. A trip of the module switches every domain but 93 to 95
off until its cause is gone, one of those is followed by a start from ROM; while it holds the module another trip only counts. -/
def Obligations.TripsHoldAndRelease : Prop :=
  ∀ (s : State),
    (∀ c : TripCause, s.inTurn (.trip c) = true → s.powered = true → s.tripDue c = true →
      (s.power.tripped = none → ∀ ps, tripParts c = some ps → (∀ p ∈ ps, (s.part p).heldParts.contains c = true) →
        exec (.trip c) s = .next s) ∧
      (s.power.tripped = none → ∀ ps, tripParts c = some ps → (∃ p ∈ ps, (s.part p).heldParts.contains c = false) →
        ∃ t, exec (.trip c) s = .next t ∧ SameMemory s t ∧ t.rd .pwr PWR_TRIP_CAUSE_kind = (tripCode c).1 ∧
          t.rd .pwr PWR_TRIP_CAUSE_instance = (tripCode c).2 ∧ t.rd .pwr PWR_TRIP_TICK_tick = s.now ∧
          t.rd .pwr (HDR_INT PWR_INT_trip) = 1 ∧
          ∀ p ∈ ps, (s.part p).heldParts.contains c = false → s.rd (.part p) MGT_PT_STATE_state ≠ 3 → s.resetting.contains p = false →
            PartReset s t p 3 ∧ (t.part p).heldParts = (s.part p).heldParts ++ [c] ∧
            (∀ q : PartId, c = .wingStack q → ∀ v, v < 9 → t.rd (.wing q.val v) WNG_STATE_power = 0) ∧
            ∀ d : Fin 4, c = .thorax d → t.rd .clk (thoraxFreq d.val) = 0) ∧
      (s.power.tripped = none → c ∈ [TripCause.spinneret, .overcurrent, .undervoltage, .overvoltage, .sharedDomain 0] →
        ∃ t, exec (.trip c) s = .next t ∧ t.power.tripped = some c ∧ t.powered = true ∧ t.alive = false ∧ t.parts = [] ∧ t.mem = [] ∧
          t.hostMem = s.hostMem ∧ t.rd .hif HIF_STATE_state = 3 ∧ t.rd .pwr PWR_TRIP_CAUSE_kind = (tripCode c).1 ∧
          t.rd .pwr PWR_TRIP_TICK_tick = s.now ∧ t.security.slots = []) ∧
      (s.power.tripped = none → (∃ n : Fin 4, n ≠ 0 ∧ c = .sharedDomain n) →
        ∃ t, exec (.trip c) s = .next t ∧ ModuleCleared s t ∧ t.tick = 0) ∧
      (∀ d, s.power.tripped = some d → ∃ t, exec (.trip c) s = .next t ∧
        OnlyRegs s t (bumpKeys .pwr 0 ++ bumpKeys .pwr 1 ++ bumpKeys .pwr 2))) ∧
    (∀ p : PartId,
      ∃ t, exec (.partitionTripRestart p) s = .next t ∧ SameMemory s t ∧ OnlyPart s t p.val ∧
        t.part p.val = { s.part p.val with heldParts := (s.part p.val).heldParts.filter (fun c => !s.partCool c) } ∧
        (∀ d : Fin 4, .thorax d ∈ (s.part p.val).heldParts → s.partCool (.thorax d) = true →
          bit (s.rd .clk CLK_PLL_STABLE_thorax) d.val = true → t.rd .clk (thoraxFreq d.val) = s.thoraxMHz d.val / 8) ∧
        ∀ (q : PartId) (v : WingId), .wingStack q ∈ (s.part p.val).heldParts → s.partCool (.wingStack q) = true →
          bit (s.rd .pwr (PWR_DOM_FAULT_domains ((9 * p.val + v.val) / 32))) ((9 * p.val + v.val) % 32) = false →
          t.rd (.wing p.val v.val) WNG_STATE_power = 1) ∧
    (∀ c, s.power.tripped = some c → s.partCool c = true →
      ∃ t, exec .moduleTripRestart s = .next t ∧ SameMemory s t ∧ t.power = { s.power with tripped := none, running := true } ∧
        t.rd .pwr (PWR_INSTAR_TICK_tick 0) = s.now ∧
        ∀ p, p < 8 → s.rd (.part p) MGT_PT_STATE_state ≠ 3 → t.rd (.part p) MGT_PT_STATE_state = 1)

/-- R284, R416, R425–R428, R442, R446: power-good starts the module from ROM with new per-boot keys and tick 0, domains 93 to 95 on; without
power only fuses and flash keep what they hold. A stage whose conditions hold is reached with its tick, one past its bound stalls. A wing
that is powered clears itself once the wings before it have and its clock is stable. FEATURE_EN is taken until the first binding, and bit 3
begins confidential mode. -/
def Obligations.TheModuleStarts : Prop :=
  ∀ (s : State),
    let dark := fun (t : State) => t.powered = false ∧ t.mem = [] ∧ t.poison = [] ∧ t.regs = [] ∧ t.clusters = [] ∧ t.parts = [] ∧
      t.wings = [] ∧ t.ports = [] ∧ t.records = [] ∧ t.tick = 0 ∧ t.security.slots = [] ∧ t.security.copy0 = s.security.copy0 ∧
      t.security.copy1 = s.security.copy1 ∧ t.security.fuseSvn = s.security.fuseSvn ∧ t.wearFlash = s.wearFlash ∧ t.hostMem = s.hostMem
    (∃ t, exec .powerLoss s = .next t ∧ dark t ∧ t.killLow = false) ∧
    (∃ t, exec .kill s = .next t ∧ dark t ∧ t.killLow = true) ∧
    (∀ (sris : Bool) (addr : Fin 8), s.powered = false →
      ∃ t, exec (.powerGood sris addr) s = .next t ∧ ModuleCleared s t ∧ t.tick = 0 ∧ t.killLow = false ∧
        t.strapSris = sris ∧ t.strapSmb = addr.val ∧ t.security.bootKey = s.security.bootKey + 1 ∧
        t.rd .sec SEC_MODE_engines_ok = 0xF ∧ (∀ n, n < 96 → t.domainOn n = decide (93 ≤ n))) ∧
    (∀ (k : Fin 4) (retries : List (PartId × ChannelId)), s.stageDue k.val = true →
      ∃ t, exec (.instarReached k retries) s = .next t ∧ SameMemory s t ∧ t.rd .pwr (PWR_INSTAR_TICK_tick k.val) = s.now ∧
        (k = 0 → t.power.running = true ∧ t.domainOn 92 = (s.domainOn 92 || !bit (s.rd .pwr (PWR_DOM_FAULT_domains 2)) 28) ∧
          ∀ p ∈ s.workingParts, t.rd (.part p) MGT_PT_STATE_state = 1) ∧
        (k ≠ 0 → t.rd .pwr (HDR_INT PWR_INT_instar_reached) = 1) ∧
        (k = 1 → t.rd .hif HIF_STATE_state = 1 ∧ (s.featWritten = false → t.rd .pwr PWR_INSTAR_instar = 1) ∧
          ∀ p ∈ s.workingParts, s.resetting.contains p = false → t.rd (.part p) MGT_PT_STATE_state = 2 ∧
            ∀ ch, ch < 32 → t.rd (.chan p ch) THX_HBM_STATE_trained = 1) ∧
        (k = 2 → t.rd .pwr PWR_INSTAR_instar = 2) ∧ (k = 3 → t.rd .pwr PWR_INSTAR_instar = 3)) ∧
    (∀ c, s.stallDue c = true →
      ∃ t, exec (.instarStall c) s = .next t ∧ t.rd .pwr PWR_INSTAR_stalled = 1 ∧ t.rd .pwr PWR_INSTAR_cause = stallCode c ∧
        t.rd .hif HIF_STATE_state = 2 ∧ OnlyRegs s t ([PWR_INSTAR_stalled, PWR_INSTAR_cause].map (regKey .pwr) ++
          regKey .hif HIF_STATE_state :: raiseKeys .pwr PWR_INT_instar_stalled)) ∧
    (∀ (p : PartId) (w : WingId), s.rd (.wing p.val w.val) WNG_STATE_power = 1 → bit (s.rd .clk CLK_PLL_STABLE_wing) p.val = true →
      (∀ v, v < w.val → s.rd (.wing p.val v) WNG_STATE_power ≠ 1) →
      ∃ t, exec (.wingClear p w) s = .next t ∧ t.rd (.wing p.val w.val) WNG_STATE_power = 2 ∧
        t.rd (.wing p.val w.val) WNG_STATE_cleared = 1 ∧ t.rd (.cal p.val) (CAL_W_COUNT_count w.val) = 0 ∧
        OnlyWing s t p.val w.val ∧ SameMemory s t ∧ (t.wing p.val w.val).refApplied = 0 ∧
        (t.wing p.val w.val).due = (List.range 32).map (fun b =>
          (b, s.now * 2 ^ 20 + intervalNs (s.rd (.wing p.val w.val) WNG_STATE_restore_row))) ∧
        ∀ e ∈ s.wingScales p.val w.val, (t.scale p.val w.val e.1 e.2).rho = 0 ∧ (t.scale p.val w.val e.1 e.2).f = [] ∧
          (t.scale p.val w.val e.1 e.2).ladder = Trim.reset ∧
          (t.scale p.val w.val e.1 e.2).disabled = (s.scale p.val w.val e.1 e.2).disabled) ∧
    (∀ value : W64,
      (s.bound = true → exec (.featureEnable value) s = .next s) ∧
      (s.bound = false → s.alive = true →
        let v := (value.toNat &&& s.features) ||| (s.rd .mgt HDR_FEATURE_EN &&& 8)
        ∃ t, exec (.featureEnable value) s = .next t ∧ t.rd .mgt HDR_FEATURE_EN = v % 2 ^ 64 ∧ t.featWritten = true ∧ SameMemory s t ∧
          (bit v 3 = true → t.rd .sec SEC_MODE_confidential = 1 ∧ t.rd .sec SEC_MODE_debug_locked = 1) ∧
          (bit v 3 = false → t.rd .sec SEC_MODE_confidential = s.rd .sec SEC_MODE_confidential) ∧
          (s.featWritten = false → s.rd .pwr PWR_INSTAR_instar = 1 → bit v 0 = false → t.rd .pwr PWR_INSTAR_instar = 2)))

/-- R410–R413, R430: a PLL that becomes stable releases what it clocks, one that loses lock stops and resets it; the module reference moves
to the source that its state selects, which is recorded and counted, and to no other; the spread setting takes effect as asked, within its
limits, the Thorax part only with all four Thorax PLLs stable. -/
def Obligations.ClocksFollowTheirSources : Prop :=
  ∀ (s : State), s.powered = true →
    (∀ x : Pll, s.pllStable x = false →
      ∃ t, exec (.pllStable x) s = .next t ∧ t.pllStable x = true ∧ SameMemory s t ∧
        (x = .measurement → ∃ u : State, u.pllStable x = true ∧ u = { s with regs := u.regs } ∧ t = u.startConverters) ∧
        (x ≠ .measurement → t = { s with regs := t.regs, engineResets := s.engineResets.filter (fun b => decide (blockPll b ≠ x)) }) ∧
        (∀ d : Fin 4, x = .thorax d → (s.part (2 * d.val)).heldParts.contains (.thorax d) = false →
          (s.part (2 * d.val + 1)).heldParts.contains (.thorax d) = false → t.rd .clk (thoraxFreq d.val) = s.thoraxMHz d.val / 8)) ∧
    (∀ x : Pll, s.pllStable x = true →
      ∃ t, exec (.pllUnlock x) s = .next t ∧ t.pllStable x = false ∧ SameMemory s t ∧ t.rd .clk (HDR_INT CLK_INT_pll_unlock) = 1 ∧
        (∀ b ∈ clockedBlocks x, s.blockRuns b = true → BlockCleared s t b ∧ t.engineResets.contains b = true) ∧
        (∀ d : Fin 4, x = .thorax d → t.rd .clk (thoraxFreq d.val) = 0) ∧
        (x = .measurement → ∀ m, m < 4 → (t.converter m).cur = none)) ∧
    (∀ (src : RefSource) (lost valid : Bool), s.refChoice valid ≠ refCode src →
      ∃ t, exec (.referenceSourceChange src lost valid) s = .next t ∧ t.rd .clk CLK_REF_STATUS_refclk_valid = flag valid ∧
        t = { s with regs := t.regs } ∧ RegsBut s t [regKey .clk CLK_REF_STATUS_refclk_valid]) ∧
    (∀ (src : RefSource) (lost valid : Bool), s.refChoice valid = refCode src →
      let moved := s.rd .clk CLK_REF_STATUS_source ≠ (refCode src).1 ∨ s.rd .clk CLK_REF_STATUS_port ≠ (refCode src).2
      ∃ t, exec (.referenceSourceChange src lost valid) s = .next t ∧ t.rd .clk CLK_REF_STATUS_source = (refCode src).1 ∧
        t.rd .clk CLK_REF_STATUS_port = (refCode src).2 ∧ t.rd .clk CLK_REF_STATUS_refclk_valid = flag valid ∧
        (lost = true → t.rd .clk (HDR_INT CLK_INT_ref_lost) = 1) ∧ (moved → t.rd .clk (HDR_INT CLK_INT_ref_switched) = 1) ∧
        OnlyRegs s t ([CLK_REF_STATUS_source, CLK_REF_STATUS_port, CLK_REF_STATUS_refclk_valid].map (regKey .clk) ++ bumpKeys .clk 0 ++
          bumpKeys .clk 2 ++ raiseKeys .clk CLK_INT_ref_lost ++ raiseKeys .clk CLK_INT_ref_switched)) ∧
    (∃ t, exec .sscApply s = .next t ∧ t = { s with power := { s.power with ssc := t.power.ssc } } ∧
      bits t.power.ssc 16 8 = min 8 (s.rd .clk CLK_SSC_out_depth) ∧ bits t.power.ssc 24 8 = min 10 (s.rd .clk CLK_SSC_out_rate) ∧
      (s.rd .clk CLK_PLL_STABLE_thorax = 0xF → bits t.power.ssc 0 8 = min 8 (s.rd .clk CLK_SSC_thx_depth) ∧
        bits t.power.ssc 8 8 = min 10 (s.rd .clk CLK_SSC_thx_rate)) ∧
      (s.rd .clk CLK_PLL_STABLE_thorax ≠ 0xF → bits t.power.ssc 0 16 = bits s.power.ssc 0 16))

/-- R269, R279, R280, R288–R291, R449: a stopped sequencer is bound within its grant, which clears fences, ordinal, threads, launches and
rings; it runs unless it was terminated; its fences are cleared only while it is stopped and not terminated; a ring is enabled with both
indices 0 and the word it owns written 0; the count of the last complete window of 2^20 ticks is shown at its end. -/
def Obligations.SequencerRegistersTakeEffect : Prop :=
  ∀ (p : PartId) (s : State),
    let pg : Page := .thx p.val
    (s.running p.val = true →
      (∀ (valid : Bool) (ctx : Fin 8), s.seqStopped p.val = true → s.featWritten = true →
        (valid = true → s.bindGranted p.val ctx.val = true) →
        ∃ t, exec (.contextBind p valid ctx) s = .next t ∧
          t.ctx? p.val = (if valid then some ctx.val else none) ∧ t.bound = (s.bound || valid) ∧
          t.rd pg THX_SEQ_STATUS_state = 0 ∧ (∀ r, r < 4 → t.rd pg (THX_SEQ_RING_CFG_enable r) = 0) ∧
          (t.part p.val).seq.fences = [] ∧ (t.part p.val).seq.ell = 0 ∧ (t.part p.val).seq.launches = [] ∧
          (t.part p.val).seq.rings = [] ∧ (t.part p.val).seq.inflight = [] ∧ (∀ c, c < 26 → (t.cluster p.val c).threads = []) ∧
          OnlyPart s t p.val ∧ SameMemory s t) ∧
      (∀ (valid : Bool) (ctx : Fin 8),
        (s.seqStopped p.val = false ∨ s.featWritten = false ∨ (valid = true ∧ s.bindGranted p.val ctx.val = false)) →
        ∃ t, exec (.contextBind p valid ctx) s = .next t ∧ t.rd pg THX_SEQ_STATUS_bind_refused = 1 ∧
          OnlyRegs s t [regKey pg THX_SEQ_STATUS_bind_refused]) ∧
      (∀ run : Bool, (run = true → s.rd pg THX_SEQ_STATUS_state ≠ 3) →
        ∃ t, exec (.sequencerRun p run) s = .next t ∧ t.rd pg THX_SEQ_CTL_run = flag run ∧
          OnlyRegs s t [regKey pg THX_SEQ_CTL_run]) ∧
      (s.rd pg THX_SEQ_STATUS_state = 3 → exec (.sequencerRun p true) s = .next s) ∧
      (s.seqStopped p.val = true → s.rd pg THX_SEQ_STATUS_state ≠ 3 →
        ∃ t, exec (.fenceClear p) s = .next t ∧ t = { s with parts := t.parts } ∧ OnlyPart s t p.val ∧
          t.part p.val = { s.part p.val with seq := { (s.part p.val).seq with fences := [], ell := 0 } }) ∧
      (s.seqStopped p.val = false ∨ s.rd pg THX_SEQ_STATUS_state = 3 →
        ∃ t, exec (.fenceClear p) s = .next t ∧ t.rd pg THX_SEQ_STATUS_bind_refused = 1 ∧
          OnlyRegs s t [regKey pg THX_SEQ_STATUS_bind_refused]) ∧
      (∀ (r : Fin 4) (cfg : W32),
        let v := cfg.toNat
        let kind := if r.val = 0 then 0 else bits v 28 2
        let host := decide (s.feature 10 = true ∧ bit v 30 = true)
        let keys := [THX_SEQ_RING_CFG_enable r.val, THX_SEQ_RING_CFG_host r.val, THX_SEQ_RING_CFG_kind r.val,
          THX_SEQ_RING_CFG_log2_size r.val].map (regKey pg)
        let word := if kind = 2 then s.prodAddr p.val r.val else s.consAddr p.val r.val
        (bit v 31 = true → (r.val ≠ 0 → kind = 1 ∨ kind = 2) → (host = true ∨ s.ringReach p.val word 8 = true) →
          ∃ t, exec (.ringEnable p r cfg) s = .next t ∧ t.rd pg (THX_SEQ_RING_CFG_enable r.val) = 1 ∧
            t.rd pg (THX_SEQ_RING_CFG_kind r.val) = kind ∧ t.ringHost p.val r.val = host ∧
            t.rd pg (THX_SEQ_RING_CFG_log2_size r.val) = bits v 0 5 ∧ RingIs s t p.val r.val Ring.reset ∧
            WroteSpace s t host word (leBytes 8 0) ∧ RegsBut s t keys ∧
            OnlyPart s t p.val) ∧
        (bit v 31 = true → r.val ≠ 0 → kind ≠ 1 → kind ≠ 2 → exec (.ringEnable p r cfg) s = .next s) ∧
        (bit v 31 = false → (s.part p.val).seq.inflight = [] →
          ∃ t, exec (.ringEnable p r cfg) s = .next t ∧ t.rd pg (THX_SEQ_RING_CFG_enable r.val) = 0 ∧ OnlyRegs s t keys))) ∧
    (let q := (s.part p.val).seq
      let n := s.now / 2 ^ 20
      (n = q.windowNo → exec (.rateWindow p) s = .next s) ∧
      (n ≠ q.windowNo → ∃ t, exec (.rateWindow p) s = .next t ∧
        t.rd pg THX_SEQ_RATE_objects = (if n = q.windowNo + 1 then q.window else 0) % 2 ^ THX_SEQ_RATE_objects.width ∧
        t = { s with regs := t.regs, parts := t.parts } ∧ OnlyPart s t p.val ∧
        t.part p.val = { s.part p.val with seq := { q with window := 0, windowNo := n } } ∧ RegsBut s t [regKey pg THX_SEQ_RATE_objects]))

/-- R463–R474: a slot that is configured starts at 0 at the next tick edge where its configuration binds, and is refused otherwise; a counting
slot adds what its source added and marks its wraps; a live read answers the low word and holds the high one; a snapshot is asked for and
latches every counting slot; clear-all clears every slot; a drain empties the record buffer. -/
def Obligations.MonitorCountsAndLatches : Prop :=
  ∀ (s : State),
    let st := fun (t : State) (n : Nat) => t.rd .pmc (PMC_SLOT_STATUS_state n)
    let count := fun (t : State) (n added : Nat) =>
      let v := (s.counter n).value.toNat + added
      t.counter n = { s.counter n with value := BitVec.ofNat 48 v
                                       wraps := if 2 ^ 48 ≤ v then min 255 ((s.counter n).wraps + 1) else (s.counter n).wraps } ∧
      (∀ m, m ≠ n → t.counter m = s.counter m) ∧
      (2 ^ 48 ≤ v → t.rd .pmc (PMC_SLOT_STATUS_wrapped n) = 1 ∧ t.rd .pmc (HDR_INT PMC_INT_wrap) = 1) ∧
      RegsBut s t (if 2 ^ 48 ≤ v then regKey .pmc (PMC_SLOT_STATUS_wrapped n) :: raiseKeys .pmc PMC_INT_wrap else [])
    (s.alive = true →
      (∀ (n : Fin 64) (cfg : W32), ∃ t, exec (.slotConfigure n cfg) s = .next t ∧
        t.rd .pmc (PMC_SLOT_CFG_type n.val) = bits cfg.toNat 28 4 ∧ t.rd .pmc (PMC_SLOT_CFG_partition n.val) = bits cfg.toNat 25 3 ∧
        t.rd .pmc (PMC_SLOT_CFG_instance n.val) = bits cfg.toNat 16 9 ∧ t.rd .pmc (PMC_SLOT_CFG_event n.val) = bits cfg.toNat 8 8 ∧
        t.rd .pmc (PMC_SLOT_CFG_mode n.val) = bits cfg.toNat 6 2 ∧ t.rd .pmc (PMC_SLOT_CFG_user n.val) = bits cfg.toNat 5 1 ∧
        (t.counter n.val).value = 0 ∧ (t.counter n.val).wraps = 0 ∧ SameMemory s t ∧ (∀ m, m ≠ n.val → t.counter m = s.counter m) ∧
        (bit cfg.toNat 0 = true → t.slotOk n.val = true → st t n.val = 0 ∧ (t.counter n.val).starting = true) ∧
        (bit cfg.toNat 0 = true → t.slotOk n.val = false → st t n.val = 2 ∧ (t.counter n.val).starting = false) ∧
        (bit cfg.toNat 0 = false → st t n.val = 0 ∧ (t.counter n.val).starting = false)) ∧
      (∃ t, exec .snapshot s = .next t ∧ t.rd .pmc PMC_SNAP_go = 1 ∧ t.rd .pmc PMC_SNAP_done = 0 ∧
        OnlyRegs s t ([PMC_SNAP_go, PMC_SNAP_done].map (regKey .pmc))) ∧
      (s.feature 12 = true → s.rd .pmc PMC_CTL_user_en = 1 → ∃ t, exec .userSnapshot s = .next t ∧ t.rd .pmc PMC_SNAP_go = 1 ∧ t.userGo = true ∧
        t.rd .pmc PMC_SNAP_done = 0 ∧ SameMemory s t) ∧
      (s.feature 12 = false ∨ s.rd .pmc PMC_CTL_user_en ≠ 1 → exec .userSnapshot s = .next s) ∧
      (∃ t, exec .clearAll s = .next t ∧ t.rd .pmc PMC_CTL_clear_all = 0 ∧ SameMemory s t ∧
        ∀ n, n < 64 → (t.counter n).value = 0 ∧ (t.counter n).wraps = 0 ∧
          (s.rd .pmc (PMC_SLOT_CFG_en n) ≠ 1 → st t n = 0 ∧ (t.counter n).starting = false)) ∧
      (∃ t, exec .tagDrain s = .next t ∧ t.records = [] ∧ t.rd .pmc PMC_TAG_STATUS_count = 0 ∧ t.rd .pmc PMC_TAG_STATUS_full = 0 ∧
        t = { s with regs := t.regs, records := [] } ∧
        RegsBut s t ([PMC_TAG_STATUS_count, PMC_TAG_STATUS_full, PMC_TAG_CTL_drain].map (regKey .pmc)))) ∧
    (∀ (n : Fin 64) (added : BitVec 48), st s n.val = 1 → s.rd .pmc PMC_CTL_en = 1 →
      (s.inTurn (.counterWrap n added) = true → ∃ t, exec (.counterWrap n added) s = .next t ∧ count t n.val added.toNat ∧ SameMemory s t) ∧
      ∀ req, s.hostReach = true → ∃ t, exec (.liveRead req n added) s = .next t ∧ count t n.val added.toNat ∧ SameMemory s t ∧
        t.answer = leBytes 4 ((t.counter n.val).value.toNat) ∧
        t.latch64.head? = some (req, regKey .pmc (PMC_SLOT_VAL_value n.val), (t.counter n.val).value.toNat / 2 ^ 32)) ∧
    (∀ added : List (Fin 64 × BitVec 48), s.rd .pmc PMC_SNAP_go = 1 →
      ∃ t, exec (.snapshotLatch added) s = .next t ∧ t.rd .pmc PMC_SNAP_TICK_tick = s.now ∧ t.rd .pmc PMC_SNAP_go = 0 ∧
        t.rd .pmc PMC_SNAP_done = 1 ∧ t.userGo = false ∧ t.rd .pmc (HDR_INT PMC_INT_snap_done) = 1 ∧ SameMemory s t ∧
        ∀ n, n < 64 →
          (st s n = 1 → (t.counter n).snap = (t.counter n).value ∧ (t.counter n).snapWraps = (t.counter n).wraps) ∧
          (st s n ≠ 1 → t.counter n = s.counter n) ∧
          ((∀ e ∈ added, e.1.val ≠ n) → (t.counter n).value = (s.counter n).value))

/-- R440, R443–R445, R448–R450, R454: a report over the challenge is signed with the attestation key and written to the host, one signature
fewer left; a release that authenticates against a report installs its key and its context's grant; a sealed load writes its plaintext
where it may; a slot is cleared; the image SVN is committed to the fuses. What signs and encrypts is opaque (log entry 9). -/
def Obligations.ReportsKeysAndLoadsAreServed : Prop :=
  ∀ (s : State), s.alive = true →
    (s.linkUp = true → 0 < s.rd .sec SEC_RPT_CTL_att_left →
      let l := s.reportBytes s.challenge
      ∃ t, exec .reportRequest s = .next t ∧ l.length = 7216 ∧ WroteSpace s t true (s.rd .sec SEC_RPT_ADDR_value) l ∧
        t.rd .sec SEC_RPT_CTL_done = 1 ∧ t.rd .sec SEC_RPT_CTL_go = 0 ∧ t.rd .sec (HDR_INT SEC_INT_report_done) = 1 ∧
        t.rd .sec SEC_RPT_CTL_att_left = (s.rd .sec SEC_RPT_CTL_att_left - 1) % 2 ^ SEC_RPT_CTL_att_left.width ∧
        t.security.rptSeq = s.security.rptSeq + 1 ∧
        t.security.reports.getLast? = some (s.security.rptSeq, slice (Config.shake256 l 32) 0 32)) ∧
    (s.linkUp = false → ∃ t, exec .reportRequest s = .next t ∧ t.rd .sec SEC_RPT_CTL_go = 1 ∧
      OnlyRegs s t [regKey .sec SEC_RPT_CTL_go]) ∧
    (bit s.features 3 = true → s.linkUp = true →
      let l := s.hostBytes (s.rd .sec SEC_KR_ADDR_value) 1680
      let r := readRelease l
      (∀ key, s.unwrapKey l = (0, key) → (s.grant? r.ctx = some r.grant ∨ (s.grant? r.ctx = none ∧ grantOk r.grant = true)) →
        (∀ k, s.slot? r.slot = some k → k.ctx = r.ctx) →
        ∃ t, exec .keyRelease s = .next t ∧ t.slot? r.slot = some { usage := r.usage, ctx := r.ctx, key := key } ∧
          t.grant? r.ctx = some r.grant ∧ t.slotEpoch r.slot = s.slotEpoch r.slot + 1 ∧ t.rd .sec SEC_KR_CTL_result = 0 ∧
          t.rd .sec SEC_KR_CTL_done = 1 ∧ t.rd .sec SEC_KR_CTL_slot = r.slot % 2 ^ 8 ∧
          t.rd .sec (HDR_INT SEC_INT_release_done) = 1 ∧ SameMemory s t ∧
          (∀ n, n ≠ r.slot → t.slot? n = s.slot? n) ∧ ∀ c, c ≠ r.ctx → t.grant? c = s.grant? c) ∧
      (∀ v, s.unwrapKey l = (v, []) → v ≠ 0 → ∃ t, exec .keyRelease s = .next t ∧ t.security = s.security ∧
        t.rd .sec SEC_KR_CTL_result = v % 2 ^ 4 ∧ t.rd .sec SEC_KR_CTL_done = 1 ∧ SameMemory s t)) ∧
    (∀ (slot : BitVec 8) k g text,
      let src := s.rd .sec SEC_LOAD_SRC_value
      let h := s.bytes src 64
      let dst := leAt h 0 8
      let len := leAt h 8 8
      s.slot? slot.toNat = some k → k.usage = 3 → s.grant? k.ctx = some g → inside src 64 g.inBase g.inSize = true →
      inside (src + 64) len g.inBase g.inSize = true → 0 < len → len % 64 = 0 → len ≤ 32 * 2 ^ 20 → dst % 64 = 0 →
      rangeIn (s.partsOf k.ctx) dst len = true → overlaps dst len g.inBase g.inSize = false →
      overlaps dst len g.outBase g.outSize = false → s.poisonedIn src 64 = false → s.poisonedIn (src + 64) len = false →
      Config.gcmOpen k.key (slice h 0x10 12) (slice h 0 16) (s.bytes (src + 64) len) (slice h 0x20 16) = some text →
      ∃ t, exec (.sealedLoad slot) s = .next t ∧ Wrote s t dst (slice text 0 len) ∧ t.rd .sec SEC_LOAD_CTL_result = 0 ∧
        t.rd .sec SEC_LOAD_CTL_done = 1 ∧ t.rd .sec SEC_LOAD_CTL_slot = slot.toNat ∧
        t.rd .sec (HDR_INT SEC_INT_load_done) = 1 ∧
        t = { s with regs := t.regs, sent := t.sent, mem := t.mem, poison := t.poison }) ∧
    (∀ slot : BitVec 8, s.slot? slot.toNat = none →
      ∃ t, exec (.sealedLoad slot) s = .next t ∧ t.rd .sec SEC_LOAD_CTL_result = 1 ∧ t.rd .sec SEC_LOAD_CTL_done = 1 ∧ SameMemory s t) ∧
    (∀ slot : BitVec 8, ∃ t, exec (.slotClear slot) s = .next t ∧ t.slot? slot.toNat = none ∧
      (∀ n, n ≠ slot.toNat → t.slot? n = s.slot? n) ∧
      t = { s with regs := t.regs, security := { s.security with slots := t.security.slots } } ∧
      RegsBut s t ([SEC_SLOT_CLR_go, SEC_SLOT_CLR_slot].map (regKey .sec))) ∧
    (let v := max s.security.fuseSvn (s.rd .sec SEC_FW_image_svn)
      ∃ t, exec .commitSvn s = .next t ∧ t.security = { s.security with fuseSvn := v } ∧ t.rd .sec SEC_FW_fused_svn = v % 2 ^ 8 ∧
        t = { s with regs := t.regs, security := t.security } ∧
        RegsBut s t ([SEC_FW_fused_svn, SEC_FW_commit_svn].map (regKey .sec)))

/-- R367, R436, R458, R459, R493, R495, R502, R503: host traffic that is admitted reads or writes device memory, other traffic touches
nothing; a unit that fails its self-test leaves service; an IDE message sets the stream's key; the link comes up and goes down, PERST_N
holds it down, and a function-level reset changes nothing else. -/
def Obligations.HostTrafficAndItsLink : Prop :=
  ∀ (s : State),
    (s.hostReach = true →
      (∀ (addr : BitVec 41) (data : List Byte) (poisoned : Bool),
        let a := addr.toNat
        let n := data.length
        (s.dmaAllowed true a n = true → s.dmaMapped a n = true →
          ∃ t, exec (.hostDma true addr data poisoned) s = .next t ∧ Wrote s t a data ∧ (∀ b, t.hostByte b = s.hostByte b) ∧
            (poisoned = true → (∀ g ∈ granules a n, g ∈ t.poison) ∧ t.rd .hif (HDR_INT HIF_INT_poison_rx) = 1) ∧
            (poisoned = false → ∀ g, g ∈ t.poison ↔ g ∈ s.poison ∧ ¬(a ≤ 32 * g ∧ 32 * g + 32 ≤ a + n))) ∧
        (s.dmaAllowed false a n = true → s.dmaMapped a n = true →
          ∃ t, exec (.hostDma false addr data poisoned) s = .next t ∧ t.answer = s.bytes a n ∧ SameMemory s t ∧
            RegsBut s t (regKey .hif HDR_PROGRESS :: bumpKeys .hif 1)) ∧
        ∀ write, s.dmaAllowed write a n = false →
          ∃ t, exec (.hostDma write addr data poisoned) s = .next t ∧ t.answer = [] ∧ SameMemory s t ∧
            t.rd .sec (HDR_INT SEC_INT_dma_refused) = 1) ∧
      (∀ body, s.feature 9 = true → ∃ t, exec (.ideKmMessage body) s = .next t ∧
        t = { s with regs := t.regs, security := { s.security with ideKey := true } } ∧ t.rd .sec SEC_MODE_ide = 1 ∧
        t.rd .hif HIF_LINK_ide = 1 ∧ RegsBut s t [regKey .sec SEC_MODE_ide, regKey .hif HIF_LINK_ide])) ∧
    (s.alive = true →
      (∀ (pairs : BitVec 4) (ports : BitVec 8),
        ∃ t, exec (.selfTest pairs ports) s = .next t ∧ SameMemory s t ∧
          (pairs = 0xF → ports = 0xFF → t = s) ∧
          (∀ k, k < 4 → bit (t.rd .sec SEC_MODE_engines_ok) k = (bit (s.rd .sec SEC_MODE_engines_ok) k && bit pairs.toNat k)) ∧
          (∀ k p, k < 4 → bit pairs.toNat k = false → bit (s.rd .sec SEC_MODE_engines_ok) k = true → (p = 2 * k ∨ p = 2 * k + 1) →
            (s.ctx? p).isSome = true → t.rd (.thx p) THX_SEQ_STATUS_state = 3) ∧
          ∀ i, i < 8 → t.rd (.port i) FAB_PORT_STATE_link = if bit ports.toNat i then s.rd (.port i) FAB_PORT_STATE_link else 3) ∧
      (∃ t, exec .pcieCompletionTimeout s = .next t ∧ OnlyRegs s t (bumpKeys .hif 3) ∧
        (bit (s.rd .hif (HDR_ERRCNT 3)) 31 = false → t.rd .hif HDR_MOVED = 1 ∧
          t.rd .hif (HDR_ERRCNT 3) = countUp (s.rd .hif (HDR_ERRCNT 3)) % 2 ^ 32)) ∧
      (∀ (speed : Fin 7) (width : Fin 17) (retrain : Bool), s.perstLow = false → linkOk speed.val width.val = true →
        ∃ t, exec (.pcieLinkUp speed width retrain) s = .next t ∧ t.rd .hif HIF_LINK_speed = speed.val ∧
          t.rd .hif HIF_LINK_width = width.val ∧ (speed = 6 → t.rd .hif HIF_LINK_flit = 1) ∧ t.linkUp = true ∧
          t.rd .hif (HDR_INT HIF_INT_link_up) = 1 ∧ SameMemory s t) ∧
      (s.rd .hif HIF_LINK_speed ≠ 0 →
        ∃ t, exec .pcieLinkDown s = .next t ∧ t.linkUp = false ∧ t.rd .hif (HDR_INT HIF_INT_link_down) = 1 ∧
          t = { s with regs := t.regs, sent := t.sent, security := { s.security with ideKey := false } })) ∧
    (∃ t, exec .perstAssert s = .next t ∧ t.linkUp = false ∧ t.rd .hif HIF_LINK_width = 0 ∧
      t = { s with regs := t.regs, sent := t.sent, security := { s.security with ideKey := false }, perstLow := true } ∧
      RegsBut s t ([HIF_LINK_speed, HIF_LINK_width, HIF_LINK_flit, HIF_LINK_ide].map (regKey .hif) ++
        regKey .sec SEC_MODE_ide :: raiseKeys .hif HIF_INT_link_down)) ∧
    (∃ t, exec .perstRelease s = .next t ∧ t = { s with perstLow := false }) ∧
    exec .functionLevelReset s = .next s

/-- R13, R284, R478–R481, R484, R485, R489, R494, R506, R507: a read and a write of a register by the host or over SMBus, an access of a wrong
alignment, which touches nothing and is counted, and SMBus outside its pages in confidential mode. A rearmed vector that still pends sends
at once. SMBus reads a report and asks for one over a challenge of its own. -/
def Obligations.RegistersAreReadAndWritten : Prop :=
  ∀ (s : State),
    let fault := fun (t : State) => t.rd .mgt (HDR_INT MGT_INT_access_fault) = 1 ∧
      RegsBut s t (bumpKeys .mgt 0 ++ raiseKeys .mgt MGT_INT_access_fault) ∧ SameMemory s t
    (s.hostReach = true →
      (∀ (req : Nat) (off : BitVec 28),
        (off.toNat % 4 = 0 → ∃ t, exec (.lowerWordRead req off) s = .next t ∧ RegisterRead s t req off.toNat) ∧
        (off.toNat % 4 ≠ 0 → ∃ t, exec (.lowerWordRead req off) s = .next t ∧ t.answer = [0, 0, 0, 0] ∧ fault t)) ∧
      (∀ (req : Nat) (off : BitVec 28) (data : List Byte),
        (data.length = 4 → off.toNat % 4 = 0 →
          ∃ t, exec (.registerWrite req off data) s = .next t ∧ RegisterWritten s t off.toNat (leAt data 0 4)) ∧
        (data.length = 8 → off.toNat % 8 = 0 →
          ∃ t u, exec (.registerWrite req off data) s = .next t ∧ RegisterWritten s u off.toNat (leAt data 0 4) ∧
            RegisterWritten u t (off.toNat + 4) (leAt data 4 4)) ∧
        (data.length ≤ 8 → ¬(data.length = 4 ∧ off.toNat % 4 = 0) → ¬(data.length = 8 ∧ off.toNat % 8 = 0) →
          ∃ t, exec (.registerWrite req off data) s = .next t ∧ fault t)) ∧
      (∀ vectors : BitVec 16,
        let due := fun (v : Nat) => bit vectors.toNat v && s.pendCount v != 0
        let masked := fun (v : Nat) => s.on .hif (HIF_MSIX (4 * v + 3))
        ∃ t l, exec (.intRearm vectors) s = .next t ∧ t = { s with regs := t.regs, sent := s.sent ++ l } ∧
          (∀ v, v < 16 → (.msix v ∈ l ↔ due v = true ∧ masked v = false)) ∧
          (∀ v, v < 16 → due v = true → masked v = true → t.rd .hif (HIF_PBA v) = 1) ∧
          RegsBut s t ((List.range 16).map (fun v => regKey .hif (HIF_PBA v))))) ∧
    (s.smbusUp = true →
      (∀ (off : BitVec 28),
        (s.smbusReach off.toNat = true → off.toNat % 4 = 0 →
          ∃ t, exec (.smbusRegisterRead off) s = .next t ∧ RegisterRead s t smbusReq off.toNat) ∧
        (s.smbusReach off.toNat = false →
          ∃ t, exec (.smbusRegisterRead off) s = .next t ∧ t.answer = [0, 0, 0, 0] ∧ RegsBut s t (bumpKeys .mgt 2) ∧ SameMemory s t) ∧
        (∀ v : W32, s.smbusReach off.toNat = true → off.toNat % 4 = 0 →
          ∃ t, exec (.smbusRegisterWrite off v) s = .next t ∧ RegisterWritten s t off.toNat v.toNat) ∧
        ∀ v : W32, s.smbusReach off.toNat = false →
          ∃ t, exec (.smbusRegisterWrite off v) s = .next t ∧ OnlyRegs s t (bumpKeys .mgt 2)) ∧
      (∀ piece : BitVec 16, ∃ t, exec (.smbusReportRead piece) s = .next t ∧
        t = { s with answer := (((if bit piece.toNat 15 then Config.identityCertificate else s.security.smbReport).drop
          (240 * (piece.toNat % 2 ^ 15))).take 240) }) ∧
      (∀ challenge : List Byte, 0 < s.rd .sec SEC_RPT_CTL_att_left →
        ∃ t, exec (.smbusChallenge challenge) s = .next t ∧ t.security.smbReport = s.reportBytes challenge ∧
          t.security.rptSeq = s.security.rptSeq + 1 ∧ SameMemory s t ∧
          RegsBut s t (regKey .sec SEC_RPT_CTL_att_left :: bumpKeys .sec 0)))

/-- R183: the predicates 000 to 110 of cmp are eq, ne, lt, le, gt, ge and unord, and 111 is refused. With a NaN every predicate is false but
ne and unord. The values −0 and +0 compare equal. -/
def Obligations.PredicatesOfCmp : Prop :=
  (∀ x y : Machine.Num, x.isNaN = false → y.isNaN = false →
    (vecPred 0 x y = true ↔ numSame x y) ∧ (vecPred 1 x y = true ↔ ¬ numSame x y) ∧ (vecPred 2 x y = true ↔ numBelow x y) ∧
    (vecPred 3 x y = true ↔ numBelow x y ∨ numSame x y) ∧ (vecPred 4 x y = true ↔ numBelow y x) ∧
    (vecPred 5 x y = true ↔ numBelow y x ∨ numSame x y) ∧ vecPred 6 x y = false) ∧
  (∀ (x y : Machine.Num) (pred : Nat), pred < 7 → x.isNaN = true ∨ y.isNaN = true → (vecPred pred x y = true ↔ pred = 1 ∨ pred = 6)) ∧
  (∀ e d, vecPred 0 (.fin true 0 e) (.fin false 0 d) = true ∧ vecPred 0 (.fin false 0 d) (.fin true 0 e) = true) ∧
  ∀ (s : State) (p a : Nat) (d : VecDesc), d.op = 4 → d.pred = 7 → s.refuses p a d = 1

/-- R162: the W48 add of an FP32 value, with the sum s in bits 31–0 and the BF16 compensation c in bits 47–32, and the read-out. -/
def Obligations.CompensatedAdd : Prop :=
  ∀ (a : BitVec 48) (v : Nat),
    let s := bits a.toNat 0 32
    let c := bf16to32 (bits a.toNat 32 16)
    let y := rne32 ((f32 v).sub (f32 c))
    let t := rne32 ((f32 s).add (f32 y))
    bits (w48Add a v).toNat 0 32 = t ∧
    bits (w48Add a v).toNat 32 16 =
      (if (f32 t).isFinite then bf16.encode (f32 (rne32 ((f32 (rne32 ((f32 t).sub (f32 s)))).sub (f32 y)))) else 0) ∧
    w48Read a = if (f32 s).isFinite then rne32 ((f32 s).sub (f32 c)) else s

/-- R184: the special values of the native operations. NaN inputs, 0 × ±∞ and opposite infinities give NaN. An exact zero sum of opposite
signs is +0 and one of two negative zeros −0, for fma with its product as the first addend. min takes −0 and max +0. Subnormals are loaded,
rounded and stored as they are. A result at or beyond half a unit above the largest finite value of the mode becomes infinite. Every NaN is
written as the canonical one of its type, one that select passes on too. -/
def Obligations.SpecialValues : Prop :=
  (∀ (op pred : Nat) (x y z : Machine.Num),
    let u := if op = 3 then vecOp 2 pred x y z else x
    let w := if op = 3 then z else y
    (op = 1 ∨ op = 2 ∨ op = 3 ∨ op = 6 ∨ op = 7 → x.isNaN = true ∨ y.isNaN = true → vecOp op pred x y z = .nan) ∧
    (op = 3 → z.isNaN = true → vecOp op pred x y z = .nan) ∧
    (op = 2 ∨ op = 3 → (∃ n, x.isZero = true ∧ y = .inf n ∨ x = .inf n ∧ y.isZero = true) → vecOp op pred x y z = .nan) ∧
    (op = 1 ∨ op = 3 →
      (∀ n, u = .inf n → w = .inf (!n) → vecOp op pred x y z = .nan) ∧
      (u.isFinite = true → w.isFinite = true → u.isNeg ≠ w.isNeg → numSame u w.neg → vecOp op pred x y z = .fin false 0 0) ∧
      (u.isZero = true → w.isZero = true → u.isNeg = true → w.isNeg = true → vecOp op pred x y z = .fin true 0 0)) ∧
    (x.isZero = true → y.isZero = true → x.isNeg ≠ y.isNeg →
      ((vecOp 6 pred x y z).isZero = true ∧ (vecOp 6 pred x y z).isNeg = true) ∧
      ((vecOp 7 pred x y z).isZero = true ∧ (vecOp 7 pred x y z).isNeg = false)) ∧
    (x.isZero = false → x.isNaN = false → y.isNaN = true → vecOp 5 pred x y z = .nan) ∧
    (x.isZero = true ∨ x.isNaN = true → z.isNaN = true → vecOp 5 pred x y z = .nan)) ∧
  (∀ e ∈ [(0, fp32), (1, bf16), (2, fp16), (3, e4m3), (4, e5m2)], ∀ v, v < 2 ^ (e.2.ebits + e.2.mbits + 1) →
    bits v e.2.mbits e.2.ebits = 0 →
    loadElem e.1 v = .fin (bit v (e.2.ebits + e.2.mbits)) (bits v 0 e.2.mbits) (1 - (e.2.bias : Int) - e.2.mbits) ∧
    ∀ (x : Machine.Num) (sat : Bool), numSame x (loadElem e.1 v) → x.isNeg = bit v (e.2.ebits + e.2.mbits) → storeElem e.1 sat x = v) ∧
  (∀ (d : VecDesc) (x : Machine.Num),
    let f := if d.bf16 then Machine.bf16 else fp32
    (∀ v, v < 2 ^ (f.ebits + f.mbits + 1) → bits v f.mbits f.ebits = 0 → numSame x (f.decode v) → x.isNeg = bit v (f.ebits + f.mbits) →
      d.round x = f.decode v) ∧
    (x.isNaN = false → ¬ numBelow x.abs (.fin false (2 ^ (f.mbits + 2) - 1) (126 - f.mbits)) → d.round x = .inf x.isNeg) ∧
    d.round .nan = .nan) ∧
  ∀ sat : Bool, storeElem 0 sat .nan = 0x7FC0_0000 ∧ storeElem 1 sat .nan = 0x7FC0 ∧ storeElem 2 sat .nan = 0x7E00 ∧
    storeElem 3 sat .nan = 0x7F ∧ storeElem 4 sat .nan = 0x7E
end

