-- ==== Sys2Proof/Laws/SMap.lean ====
section
/-! SUPPORT. Laws of sparse maps and sets: lookups after changes, and that changes keep the canonical form. -/
namespace Sys2Proof.Machine

variable {β : Type}

@[simp] theorem mapFind_nil (k : Nat) : mapFind ([] : List (Nat × β)) k = none := rfl

theorem mapFind_cons (e : Nat × β) (m : List (Nat × β)) (k : Nat) :
    mapFind (e :: m) k = if e.1 = k then some e.2 else mapFind m k := rfl

/-- A key reads as what was listed under it; every other key as before. -/
theorem mapFind_ins (m : List (Nat × β)) (k : Nat) (v : β) (j : Nat) :
    mapFind (mapIns m k v) j = if k = j then some v else mapFind m j := by
  induction m with
  | nil => simp [mapIns, mapFind]
  | cons e m ih =>
    simp only [mapIns]
    split
    · simp [mapFind_cons]
    · split
      · rename_i h1 h2
        subst h2
        simp only [mapFind_cons]
        split <;> simp_all
      · simp only [mapFind_cons, ih]
        split <;> split <;> simp_all

theorem mapFind_del (m : List (Nat × β)) (k j : Nat) :
    mapFind (mapDel m k) j = if k = j then none else mapFind m j := by
  induction m with
  | nil => simp [mapDel, mapFind]
  | cons e m ih =>
    simp only [mapDel] at ih
    simp only [mapDel, List.filter_cons]
    by_cases h1 : e.1 = k <;> by_cases h2 : k = j <;> by_cases h3 : e.1 = j <;> simp_all [mapFind_cons]

@[simp] theorem mapFind_ins_same (m : List (Nat × β)) (k : Nat) (v : β) : mapFind (mapIns m k v) k = some v := by
  simp [mapFind_ins]

/-- Read after write. -/
theorem mapGet_set [DecidableEq β] (d : β) (m : List (Nat × β)) (k : Nat) (v : β) (j : Nat) :
    mapGet d (mapSet d m k v) j = if k = j then v else mapGet d m j := by
  simp only [mapGet, mapSet]
  split
  · rename_i h
    simp only [mapFind_del]
    split <;> simp_all
  · simp only [mapFind_ins]
    split <;> simp_all

@[simp] theorem mapGet_set_same [DecidableEq β] (d : β) (m : List (Nat × β)) (k : Nat) (v : β) :
    mapGet d (mapSet d m k v) k = v := by simp [mapGet_set]

theorem mapGet_set_ne [DecidableEq β] (d : β) (m : List (Nat × β)) (k j : Nat) (v : β) (h : k ≠ j) :
    mapGet d (mapSet d m k v) j = mapGet d m j := by simp [mapGet_set, h]

/-- A lookup of another key ignores which value an unlisted key reads as. -/
theorem mapFind_set_ne [DecidableEq β] (d : β) (m : List (Nat × β)) (k j : Nat) (v : β) (h : k ≠ j) :
    mapFind (mapSet d m k v) j = mapFind m j := by
  simp only [mapSet]
  split <;> simp [mapFind_del, mapFind_ins, h]

/-! Canonical form -/

theorem mapSorted_iff (m : List (Nat × β)) : mapSorted m = true ↔ m.Pairwise (fun a b => a.1 < b.1) := by
  induction m with
  | nil => simp [mapSorted]
  | cons e m ih =>
    cases m with
    | nil => simp [mapSorted]
    | cons e' m =>
      simp only [mapSorted, Bool.and_eq_true, decide_eq_true_eq, ih, List.pairwise_cons]
      constructor
      · rintro ⟨h1, h2, h3⟩
        refine ⟨?_, h2, h3⟩
        intro a ha
        rcases List.mem_cons.1 ha with rfl | ha
        · exact h1
        · exact Nat.lt_trans h1 (h2 a ha)
      · rintro ⟨h1, h2, h3⟩
        exact ⟨h1 _ (List.mem_cons_self ..), h2, h3⟩

theorem mem_mapIns (m : List (Nat × β)) (k : Nat) (v : β) (e : Nat × β) (h : e ∈ mapIns m k v) : e = (k, v) ∨ e ∈ m := by
  induction m with
  | nil => simp_all [mapIns]
  | cons x m ih =>
    simp only [mapIns] at h
    split at h
    · simp_all
    · split at h
      · rcases List.mem_cons.1 h with h | h <;> simp [h]
      · rcases List.mem_cons.1 h with h | h
        · simp [h]
        · rcases ih h with h | h <;> simp [h]

theorem mapSorted_ins (m : List (Nat × β)) (k : Nat) (v : β) (h : mapSorted m = true) : mapSorted (mapIns m k v) = true := by
  rw [mapSorted_iff] at *
  induction m with
  | nil => simp [mapIns]
  | cons e m ih =>
    obtain ⟨h1, h2⟩ := List.pairwise_cons.1 h
    simp only [mapIns]
    split
    · rename_i hk
      refine List.pairwise_cons.2 ⟨?_, h⟩
      intro a ha
      rcases List.mem_cons.1 ha with rfl | ha
      · exact hk
      · exact Nat.lt_trans hk (h1 a ha)
    · split
      · rename_i hk
        exact List.pairwise_cons.2 ⟨fun a ha => hk ▸ h1 a ha, h2⟩
      · rename_i hk hk'
        refine List.pairwise_cons.2 ⟨?_, ih h2⟩
        intro a ha
        rcases mem_mapIns m k v a ha with rfl | ha
        · show e.1 < k
          omega
        · exact h1 a ha

theorem mapSorted_filter (m : List (Nat × β)) (q : Nat × β → Bool) (h : mapSorted m = true) :
    mapSorted (m.filter q) = true := by
  rw [mapSorted_iff] at *
  exact h.filter q

theorem mapSorted_del (m : List (Nat × β)) (k : Nat) (h : mapSorted m = true) : mapSorted (mapDel m k) = true :=
  mapSorted_filter m _ h

theorem mapSorted_set [DecidableEq β] (d : β) (m : List (Nat × β)) (k : Nat) (v : β) (h : mapSorted m = true) :
    mapSorted (mapSet d m k v) = true := by
  simp only [mapSet]
  split
  · exact mapSorted_del m k h
  · exact mapSorted_ins m k v h

/-- Making a key read as a value keeps the canonical form. -/
theorem mapWf_set [DecidableEq β] (d : β) (m : List (Nat × β)) (k : Nat) (v : β) (h : mapWf d m = true) :
    mapWf d (mapSet d m k v) = true := by
  simp only [mapWf, Bool.and_eq_true, List.all_eq_true, decide_eq_true_eq] at *
  refine ⟨mapSorted_set d m k v h.1, ?_⟩
  intro e he
  simp only [mapSet] at he
  split at he
  · exact h.2 e (List.mem_filter.1 he).1
  · rename_i hv
    rcases mem_mapIns m k v e he with rfl | he
    · exact hv
    · exact h.2 e he

theorem mapWf_filter [DecidableEq β] (d : β) (m : List (Nat × β)) (q : Nat × β → Bool) (h : mapWf d m = true) :
    mapWf d (m.filter q) = true := by
  simp only [mapWf, Bool.and_eq_true, List.all_eq_true, decide_eq_true_eq] at *
  exact ⟨mapSorted_filter m q h.1, fun e he => h.2 e (List.mem_filter.1 he).1⟩

/-! Sets -/

theorem mem_setIns (m : List Nat) (k j : Nat) : j ∈ setIns m k ↔ j = k ∨ j ∈ m := by
  induction m with
  | nil => simp [setIns]
  | cons e m ih =>
    simp only [setIns]
    split
    · simp
    · split
      · rename_i h
        subst h
        simp
      · simp only [List.mem_cons, ih]
        constructor
        · rintro (h | h | h) <;> simp [h]
        · rintro (h | h | h) <;> simp [h]

theorem mem_setDel (m : List Nat) (k j : Nat) : j ∈ setDel m k ↔ j ≠ k ∧ j ∈ m := by
  simp only [setDel, List.mem_filter, bne_iff_ne, ne_eq]
  exact And.comm

theorem setIns_pairwise (m : List Nat) (k : Nat) (h : m.Pairwise (· < ·)) : (setIns m k).Pairwise (· < ·) := by
  induction m with
  | nil => simp [setIns]
  | cons e m ih =>
    obtain ⟨h1, h2⟩ := List.pairwise_cons.1 h
    simp only [setIns]
    split
    · rename_i hk
      refine List.pairwise_cons.2 ⟨?_, h⟩
      intro a ha
      rcases List.mem_cons.1 ha with rfl | ha
      · exact hk
      · exact Nat.lt_trans hk (h1 a ha)
    · split
      · exact h
      · rename_i hk hk'
        refine List.pairwise_cons.2 ⟨?_, ih h2⟩
        intro a ha
        rcases (mem_setIns m k a).1 ha with rfl | ha
        · omega
        · exact h1 a ha

end Sys2Proof.Machine
end

