-- ==== Sys2Proof/Laws/State.lean ====
section
/-! SUPPORT. One law for each field, and each accessor, under each update of the state: what an update does not name is as before. -/
namespace Sys2Proof.Machine

variable (s : State)

/-! `State.wr` changes regs alone. -/
@[simp] theorem State.wr_pending (pg : Page) (f : Field) (v : Nat) : (s.wr pg f v).pending = s.pending := rfl
@[simp] theorem State.wr_held (pg : Page) (f : Field) (v : Nat) : (s.wr pg f v).held = s.held := rfl
@[simp] theorem State.wr_cycle (pg : Page) (f : Field) (v : Nat) : (s.wr pg f v).cycle = s.cycle := rfl
@[simp] theorem State.wr_moved (pg : Page) (f : Field) (v : Nat) : (s.wr pg f v).moved = s.moved := rfl
@[simp] theorem State.wr_answer (pg : Page) (f : Field) (v : Nat) : (s.wr pg f v).answer = s.answer := rfl
@[simp] theorem State.wr_sent (pg : Page) (f : Field) (v : Nat) : (s.wr pg f v).sent = s.sent := rfl
@[simp] theorem State.wr_nDraw (pg : Page) (f : Field) (v : Nat) : (s.wr pg f v).nDraw = s.nDraw := rfl
@[simp] theorem State.wr_tick (pg : Page) (f : Field) (v : Nat) : (s.wr pg f v).tick = s.tick := rfl
@[simp] theorem State.wr_held64 (pg : Page) (f : Field) (v : Nat) : (s.wr pg f v).held64 = s.held64 := rfl
@[simp] theorem State.wr_latch64 (pg : Page) (f : Field) (v : Nat) : (s.wr pg f v).latch64 = s.latch64 := rfl
@[simp] theorem State.wr_mem (pg : Page) (f : Field) (v : Nat) : (s.wr pg f v).mem = s.mem := rfl
@[simp] theorem State.wr_poison (pg : Page) (f : Field) (v : Nat) : (s.wr pg f v).poison = s.poison := rfl
@[simp] theorem State.wr_hostMem (pg : Page) (f : Field) (v : Nat) : (s.wr pg f v).hostMem = s.hostMem := rfl
@[simp] theorem State.wr_clusters (pg : Page) (f : Field) (v : Nat) : (s.wr pg f v).clusters = s.clusters := rfl
@[simp] theorem State.wr_parts (pg : Page) (f : Field) (v : Nat) : (s.wr pg f v).parts = s.parts := rfl
@[simp] theorem State.wr_wings (pg : Page) (f : Field) (v : Nat) : (s.wr pg f v).wings = s.wings := rfl
@[simp] theorem State.wr_scales (pg : Page) (f : Field) (v : Nat) : (s.wr pg f v).scales = s.scales := rfl
@[simp] theorem State.wr_ports (pg : Page) (f : Field) (v : Nat) : (s.wr pg f v).ports = s.ports := rfl
@[simp] theorem State.wr_fabric (pg : Page) (f : Field) (v : Nat) : (s.wr pg f v).fabric = s.fabric := rfl
@[simp] theorem State.wr_power (pg : Page) (f : Field) (v : Nat) : (s.wr pg f v).power = s.power := rfl
@[simp] theorem State.wr_security (pg : Page) (f : Field) (v : Nat) : (s.wr pg f v).security = s.security := rfl
@[simp] theorem State.wr_counters (pg : Page) (f : Field) (v : Nat) : (s.wr pg f v).counters = s.counters := rfl
@[simp] theorem State.wr_records (pg : Page) (f : Field) (v : Nat) : (s.wr pg f v).records = s.records := rfl
@[simp] theorem State.wr_converters (pg : Page) (f : Field) (v : Nat) : (s.wr pg f v).converters = s.converters := rfl
@[simp] theorem State.wr_userGo (pg : Page) (f : Field) (v : Nat) : (s.wr pg f v).userGo = s.userGo := rfl
@[simp] theorem State.wr_resetting (pg : Page) (f : Field) (v : Nat) : (s.wr pg f v).resetting = s.resetting := rfl
@[simp] theorem State.wr_engineResets (pg : Page) (f : Field) (v : Nat) : (s.wr pg f v).engineResets = s.engineResets := rfl
@[simp] theorem State.wr_wearFlash (pg : Page) (f : Field) (v : Nat) : (s.wr pg f v).wearFlash = s.wearFlash := rfl
@[simp] theorem State.wr_strapSris (pg : Page) (f : Field) (v : Nat) : (s.wr pg f v).strapSris = s.strapSris := rfl
@[simp] theorem State.wr_strapSmb (pg : Page) (f : Field) (v : Nat) : (s.wr pg f v).strapSmb = s.strapSmb := rfl
@[simp] theorem State.wr_perstLow (pg : Page) (f : Field) (v : Nat) : (s.wr pg f v).perstLow = s.perstLow := rfl
@[simp] theorem State.wr_killLow (pg : Page) (f : Field) (v : Nat) : (s.wr pg f v).killLow = s.killLow := rfl
@[simp] theorem State.wr_powered (pg : Page) (f : Field) (v : Nat) : (s.wr pg f v).powered = s.powered := rfl
@[simp] theorem State.wr_bound (pg : Page) (f : Field) (v : Nat) : (s.wr pg f v).bound = s.bound := rfl
@[simp] theorem State.wr_featWritten (pg : Page) (f : Field) (v : Nat) : (s.wr pg f v).featWritten = s.featWritten := rfl
@[simp] theorem State.wr_acc_byte (pg : Page) (f : Field) (v : Nat) (a' : Nat) : (s.wr pg f v).byte a' = s.byte a' := rfl
@[simp] theorem State.wr_acc_hostByte (pg : Page) (f : Field) (v : Nat) (a' : Nat) : (s.wr pg f v).hostByte a' = s.hostByte a' := rfl
@[simp] theorem State.wr_acc_part (pg : Page) (f : Field) (v : Nat) (q : Nat) : (s.wr pg f v).part q = s.part q := rfl
@[simp] theorem State.wr_acc_cluster (pg : Page) (f : Field) (v : Nat) (q d : Nat) : (s.wr pg f v).cluster q d = s.cluster q d := rfl
@[simp] theorem State.wr_acc_wing (pg : Page) (f : Field) (v : Nat) (q d : Nat) : (s.wr pg f v).wing q d = s.wing q d := rfl
@[simp] theorem State.wr_acc_scale (pg : Page) (f : Field) (v : Nat) (q d e g' : Nat) : (s.wr pg f v).scale q d e g' = s.scale q d e g' := rfl
@[simp] theorem State.wr_acc_port (pg : Page) (f : Field) (v : Nat) (q : Nat) : (s.wr pg f v).port q = s.port q := rfl
@[simp] theorem State.wr_acc_counter (pg : Page) (f : Field) (v : Nat) (q : Nat) : (s.wr pg f v).counter q = s.counter q := rfl
@[simp] theorem State.wr_acc_converter (pg : Page) (f : Field) (v : Nat) (q : Nat) : (s.wr pg f v).converter q = s.converter q := rfl

/-! `State.setByte` changes mem alone. -/
@[simp] theorem State.setByte_pending (a : Nat) (v : Byte) : (s.setByte a v).pending = s.pending := rfl
@[simp] theorem State.setByte_held (a : Nat) (v : Byte) : (s.setByte a v).held = s.held := rfl
@[simp] theorem State.setByte_cycle (a : Nat) (v : Byte) : (s.setByte a v).cycle = s.cycle := rfl
@[simp] theorem State.setByte_moved (a : Nat) (v : Byte) : (s.setByte a v).moved = s.moved := rfl
@[simp] theorem State.setByte_answer (a : Nat) (v : Byte) : (s.setByte a v).answer = s.answer := rfl
@[simp] theorem State.setByte_sent (a : Nat) (v : Byte) : (s.setByte a v).sent = s.sent := rfl
@[simp] theorem State.setByte_nDraw (a : Nat) (v : Byte) : (s.setByte a v).nDraw = s.nDraw := rfl
@[simp] theorem State.setByte_tick (a : Nat) (v : Byte) : (s.setByte a v).tick = s.tick := rfl
@[simp] theorem State.setByte_regs (a : Nat) (v : Byte) : (s.setByte a v).regs = s.regs := rfl
@[simp] theorem State.setByte_held64 (a : Nat) (v : Byte) : (s.setByte a v).held64 = s.held64 := rfl
@[simp] theorem State.setByte_latch64 (a : Nat) (v : Byte) : (s.setByte a v).latch64 = s.latch64 := rfl
@[simp] theorem State.setByte_poison (a : Nat) (v : Byte) : (s.setByte a v).poison = s.poison := rfl
@[simp] theorem State.setByte_hostMem (a : Nat) (v : Byte) : (s.setByte a v).hostMem = s.hostMem := rfl
@[simp] theorem State.setByte_clusters (a : Nat) (v : Byte) : (s.setByte a v).clusters = s.clusters := rfl
@[simp] theorem State.setByte_parts (a : Nat) (v : Byte) : (s.setByte a v).parts = s.parts := rfl
@[simp] theorem State.setByte_wings (a : Nat) (v : Byte) : (s.setByte a v).wings = s.wings := rfl
@[simp] theorem State.setByte_scales (a : Nat) (v : Byte) : (s.setByte a v).scales = s.scales := rfl
@[simp] theorem State.setByte_ports (a : Nat) (v : Byte) : (s.setByte a v).ports = s.ports := rfl
@[simp] theorem State.setByte_fabric (a : Nat) (v : Byte) : (s.setByte a v).fabric = s.fabric := rfl
@[simp] theorem State.setByte_power (a : Nat) (v : Byte) : (s.setByte a v).power = s.power := rfl
@[simp] theorem State.setByte_security (a : Nat) (v : Byte) : (s.setByte a v).security = s.security := rfl
@[simp] theorem State.setByte_counters (a : Nat) (v : Byte) : (s.setByte a v).counters = s.counters := rfl
@[simp] theorem State.setByte_records (a : Nat) (v : Byte) : (s.setByte a v).records = s.records := rfl
@[simp] theorem State.setByte_converters (a : Nat) (v : Byte) : (s.setByte a v).converters = s.converters := rfl
@[simp] theorem State.setByte_userGo (a : Nat) (v : Byte) : (s.setByte a v).userGo = s.userGo := rfl
@[simp] theorem State.setByte_resetting (a : Nat) (v : Byte) : (s.setByte a v).resetting = s.resetting := rfl
@[simp] theorem State.setByte_engineResets (a : Nat) (v : Byte) : (s.setByte a v).engineResets = s.engineResets := rfl
@[simp] theorem State.setByte_wearFlash (a : Nat) (v : Byte) : (s.setByte a v).wearFlash = s.wearFlash := rfl
@[simp] theorem State.setByte_strapSris (a : Nat) (v : Byte) : (s.setByte a v).strapSris = s.strapSris := rfl
@[simp] theorem State.setByte_strapSmb (a : Nat) (v : Byte) : (s.setByte a v).strapSmb = s.strapSmb := rfl
@[simp] theorem State.setByte_perstLow (a : Nat) (v : Byte) : (s.setByte a v).perstLow = s.perstLow := rfl
@[simp] theorem State.setByte_killLow (a : Nat) (v : Byte) : (s.setByte a v).killLow = s.killLow := rfl
@[simp] theorem State.setByte_powered (a : Nat) (v : Byte) : (s.setByte a v).powered = s.powered := rfl
@[simp] theorem State.setByte_bound (a : Nat) (v : Byte) : (s.setByte a v).bound = s.bound := rfl
@[simp] theorem State.setByte_featWritten (a : Nat) (v : Byte) : (s.setByte a v).featWritten = s.featWritten := rfl
@[simp] theorem State.setByte_acc_rd (a : Nat) (v : Byte) (pg' : Page) (f' : Field) : (s.setByte a v).rd pg' f' = s.rd pg' f' := rfl
@[simp] theorem State.setByte_acc_hostByte (a : Nat) (v : Byte) (a' : Nat) : (s.setByte a v).hostByte a' = s.hostByte a' := rfl
@[simp] theorem State.setByte_acc_part (a : Nat) (v : Byte) (q : Nat) : (s.setByte a v).part q = s.part q := rfl
@[simp] theorem State.setByte_acc_cluster (a : Nat) (v : Byte) (q d : Nat) : (s.setByte a v).cluster q d = s.cluster q d := rfl
@[simp] theorem State.setByte_acc_wing (a : Nat) (v : Byte) (q d : Nat) : (s.setByte a v).wing q d = s.wing q d := rfl
@[simp] theorem State.setByte_acc_scale (a : Nat) (v : Byte) (q d e g' : Nat) : (s.setByte a v).scale q d e g' = s.scale q d e g' := rfl
@[simp] theorem State.setByte_acc_port (a : Nat) (v : Byte) (q : Nat) : (s.setByte a v).port q = s.port q := rfl
@[simp] theorem State.setByte_acc_counter (a : Nat) (v : Byte) (q : Nat) : (s.setByte a v).counter q = s.counter q := rfl
@[simp] theorem State.setByte_acc_converter (a : Nat) (v : Byte) (q : Nat) : (s.setByte a v).converter q = s.converter q := rfl

/-! `State.setPart` changes parts alone. -/
@[simp] theorem State.setPart_pending (p : Nat) (x : Part) : (s.setPart p x).pending = s.pending := rfl
@[simp] theorem State.setPart_held (p : Nat) (x : Part) : (s.setPart p x).held = s.held := rfl
@[simp] theorem State.setPart_cycle (p : Nat) (x : Part) : (s.setPart p x).cycle = s.cycle := rfl
@[simp] theorem State.setPart_moved (p : Nat) (x : Part) : (s.setPart p x).moved = s.moved := rfl
@[simp] theorem State.setPart_answer (p : Nat) (x : Part) : (s.setPart p x).answer = s.answer := rfl
@[simp] theorem State.setPart_sent (p : Nat) (x : Part) : (s.setPart p x).sent = s.sent := rfl
@[simp] theorem State.setPart_nDraw (p : Nat) (x : Part) : (s.setPart p x).nDraw = s.nDraw := rfl
@[simp] theorem State.setPart_tick (p : Nat) (x : Part) : (s.setPart p x).tick = s.tick := rfl
@[simp] theorem State.setPart_regs (p : Nat) (x : Part) : (s.setPart p x).regs = s.regs := rfl
@[simp] theorem State.setPart_held64 (p : Nat) (x : Part) : (s.setPart p x).held64 = s.held64 := rfl
@[simp] theorem State.setPart_latch64 (p : Nat) (x : Part) : (s.setPart p x).latch64 = s.latch64 := rfl
@[simp] theorem State.setPart_mem (p : Nat) (x : Part) : (s.setPart p x).mem = s.mem := rfl
@[simp] theorem State.setPart_poison (p : Nat) (x : Part) : (s.setPart p x).poison = s.poison := rfl
@[simp] theorem State.setPart_hostMem (p : Nat) (x : Part) : (s.setPart p x).hostMem = s.hostMem := rfl
@[simp] theorem State.setPart_clusters (p : Nat) (x : Part) : (s.setPart p x).clusters = s.clusters := rfl
@[simp] theorem State.setPart_wings (p : Nat) (x : Part) : (s.setPart p x).wings = s.wings := rfl
@[simp] theorem State.setPart_scales (p : Nat) (x : Part) : (s.setPart p x).scales = s.scales := rfl
@[simp] theorem State.setPart_ports (p : Nat) (x : Part) : (s.setPart p x).ports = s.ports := rfl
@[simp] theorem State.setPart_fabric (p : Nat) (x : Part) : (s.setPart p x).fabric = s.fabric := rfl
@[simp] theorem State.setPart_power (p : Nat) (x : Part) : (s.setPart p x).power = s.power := rfl
@[simp] theorem State.setPart_security (p : Nat) (x : Part) : (s.setPart p x).security = s.security := rfl
@[simp] theorem State.setPart_counters (p : Nat) (x : Part) : (s.setPart p x).counters = s.counters := rfl
@[simp] theorem State.setPart_records (p : Nat) (x : Part) : (s.setPart p x).records = s.records := rfl
@[simp] theorem State.setPart_converters (p : Nat) (x : Part) : (s.setPart p x).converters = s.converters := rfl
@[simp] theorem State.setPart_userGo (p : Nat) (x : Part) : (s.setPart p x).userGo = s.userGo := rfl
@[simp] theorem State.setPart_resetting (p : Nat) (x : Part) : (s.setPart p x).resetting = s.resetting := rfl
@[simp] theorem State.setPart_engineResets (p : Nat) (x : Part) : (s.setPart p x).engineResets = s.engineResets := rfl
@[simp] theorem State.setPart_wearFlash (p : Nat) (x : Part) : (s.setPart p x).wearFlash = s.wearFlash := rfl
@[simp] theorem State.setPart_strapSris (p : Nat) (x : Part) : (s.setPart p x).strapSris = s.strapSris := rfl
@[simp] theorem State.setPart_strapSmb (p : Nat) (x : Part) : (s.setPart p x).strapSmb = s.strapSmb := rfl
@[simp] theorem State.setPart_perstLow (p : Nat) (x : Part) : (s.setPart p x).perstLow = s.perstLow := rfl
@[simp] theorem State.setPart_killLow (p : Nat) (x : Part) : (s.setPart p x).killLow = s.killLow := rfl
@[simp] theorem State.setPart_powered (p : Nat) (x : Part) : (s.setPart p x).powered = s.powered := rfl
@[simp] theorem State.setPart_bound (p : Nat) (x : Part) : (s.setPart p x).bound = s.bound := rfl
@[simp] theorem State.setPart_featWritten (p : Nat) (x : Part) : (s.setPart p x).featWritten = s.featWritten := rfl
@[simp] theorem State.setPart_acc_rd (p : Nat) (x : Part) (pg' : Page) (f' : Field) : (s.setPart p x).rd pg' f' = s.rd pg' f' := rfl
@[simp] theorem State.setPart_acc_byte (p : Nat) (x : Part) (a' : Nat) : (s.setPart p x).byte a' = s.byte a' := rfl
@[simp] theorem State.setPart_acc_hostByte (p : Nat) (x : Part) (a' : Nat) : (s.setPart p x).hostByte a' = s.hostByte a' := rfl
@[simp] theorem State.setPart_acc_cluster (p : Nat) (x : Part) (q d : Nat) : (s.setPart p x).cluster q d = s.cluster q d := rfl
@[simp] theorem State.setPart_acc_wing (p : Nat) (x : Part) (q d : Nat) : (s.setPart p x).wing q d = s.wing q d := rfl
@[simp] theorem State.setPart_acc_scale (p : Nat) (x : Part) (q d e g' : Nat) : (s.setPart p x).scale q d e g' = s.scale q d e g' := rfl
@[simp] theorem State.setPart_acc_port (p : Nat) (x : Part) (q : Nat) : (s.setPart p x).port q = s.port q := rfl
@[simp] theorem State.setPart_acc_counter (p : Nat) (x : Part) (q : Nat) : (s.setPart p x).counter q = s.counter q := rfl
@[simp] theorem State.setPart_acc_converter (p : Nat) (x : Part) (q : Nat) : (s.setPart p x).converter q = s.converter q := rfl

/-! `State.setCluster` changes clusters alone. -/
@[simp] theorem State.setCluster_pending (p c : Nat) (x : Cluster) : (s.setCluster p c x).pending = s.pending := rfl
@[simp] theorem State.setCluster_held (p c : Nat) (x : Cluster) : (s.setCluster p c x).held = s.held := rfl
@[simp] theorem State.setCluster_cycle (p c : Nat) (x : Cluster) : (s.setCluster p c x).cycle = s.cycle := rfl
@[simp] theorem State.setCluster_moved (p c : Nat) (x : Cluster) : (s.setCluster p c x).moved = s.moved := rfl
@[simp] theorem State.setCluster_answer (p c : Nat) (x : Cluster) : (s.setCluster p c x).answer = s.answer := rfl
@[simp] theorem State.setCluster_sent (p c : Nat) (x : Cluster) : (s.setCluster p c x).sent = s.sent := rfl
@[simp] theorem State.setCluster_nDraw (p c : Nat) (x : Cluster) : (s.setCluster p c x).nDraw = s.nDraw := rfl
@[simp] theorem State.setCluster_tick (p c : Nat) (x : Cluster) : (s.setCluster p c x).tick = s.tick := rfl
@[simp] theorem State.setCluster_regs (p c : Nat) (x : Cluster) : (s.setCluster p c x).regs = s.regs := rfl
@[simp] theorem State.setCluster_held64 (p c : Nat) (x : Cluster) : (s.setCluster p c x).held64 = s.held64 := rfl
@[simp] theorem State.setCluster_latch64 (p c : Nat) (x : Cluster) : (s.setCluster p c x).latch64 = s.latch64 := rfl
@[simp] theorem State.setCluster_mem (p c : Nat) (x : Cluster) : (s.setCluster p c x).mem = s.mem := rfl
@[simp] theorem State.setCluster_poison (p c : Nat) (x : Cluster) : (s.setCluster p c x).poison = s.poison := rfl
@[simp] theorem State.setCluster_hostMem (p c : Nat) (x : Cluster) : (s.setCluster p c x).hostMem = s.hostMem := rfl
@[simp] theorem State.setCluster_parts (p c : Nat) (x : Cluster) : (s.setCluster p c x).parts = s.parts := rfl
@[simp] theorem State.setCluster_wings (p c : Nat) (x : Cluster) : (s.setCluster p c x).wings = s.wings := rfl
@[simp] theorem State.setCluster_scales (p c : Nat) (x : Cluster) : (s.setCluster p c x).scales = s.scales := rfl
@[simp] theorem State.setCluster_ports (p c : Nat) (x : Cluster) : (s.setCluster p c x).ports = s.ports := rfl
@[simp] theorem State.setCluster_fabric (p c : Nat) (x : Cluster) : (s.setCluster p c x).fabric = s.fabric := rfl
@[simp] theorem State.setCluster_power (p c : Nat) (x : Cluster) : (s.setCluster p c x).power = s.power := rfl
@[simp] theorem State.setCluster_security (p c : Nat) (x : Cluster) : (s.setCluster p c x).security = s.security := rfl
@[simp] theorem State.setCluster_counters (p c : Nat) (x : Cluster) : (s.setCluster p c x).counters = s.counters := rfl
@[simp] theorem State.setCluster_records (p c : Nat) (x : Cluster) : (s.setCluster p c x).records = s.records := rfl
@[simp] theorem State.setCluster_converters (p c : Nat) (x : Cluster) : (s.setCluster p c x).converters = s.converters := rfl
@[simp] theorem State.setCluster_userGo (p c : Nat) (x : Cluster) : (s.setCluster p c x).userGo = s.userGo := rfl
@[simp] theorem State.setCluster_resetting (p c : Nat) (x : Cluster) : (s.setCluster p c x).resetting = s.resetting := rfl
@[simp] theorem State.setCluster_engineResets (p c : Nat) (x : Cluster) : (s.setCluster p c x).engineResets = s.engineResets := rfl
@[simp] theorem State.setCluster_wearFlash (p c : Nat) (x : Cluster) : (s.setCluster p c x).wearFlash = s.wearFlash := rfl
@[simp] theorem State.setCluster_strapSris (p c : Nat) (x : Cluster) : (s.setCluster p c x).strapSris = s.strapSris := rfl
@[simp] theorem State.setCluster_strapSmb (p c : Nat) (x : Cluster) : (s.setCluster p c x).strapSmb = s.strapSmb := rfl
@[simp] theorem State.setCluster_perstLow (p c : Nat) (x : Cluster) : (s.setCluster p c x).perstLow = s.perstLow := rfl
@[simp] theorem State.setCluster_killLow (p c : Nat) (x : Cluster) : (s.setCluster p c x).killLow = s.killLow := rfl
@[simp] theorem State.setCluster_powered (p c : Nat) (x : Cluster) : (s.setCluster p c x).powered = s.powered := rfl
@[simp] theorem State.setCluster_bound (p c : Nat) (x : Cluster) : (s.setCluster p c x).bound = s.bound := rfl
@[simp] theorem State.setCluster_featWritten (p c : Nat) (x : Cluster) : (s.setCluster p c x).featWritten = s.featWritten := rfl
@[simp] theorem State.setCluster_acc_rd (p c : Nat) (x : Cluster) (pg' : Page) (f' : Field) : (s.setCluster p c x).rd pg' f' = s.rd pg' f' := rfl
@[simp] theorem State.setCluster_acc_byte (p c : Nat) (x : Cluster) (a' : Nat) : (s.setCluster p c x).byte a' = s.byte a' := rfl
@[simp] theorem State.setCluster_acc_hostByte (p c : Nat) (x : Cluster) (a' : Nat) : (s.setCluster p c x).hostByte a' = s.hostByte a' := rfl
@[simp] theorem State.setCluster_acc_part (p c : Nat) (x : Cluster) (q : Nat) : (s.setCluster p c x).part q = s.part q := rfl
@[simp] theorem State.setCluster_acc_wing (p c : Nat) (x : Cluster) (q d : Nat) : (s.setCluster p c x).wing q d = s.wing q d := rfl
@[simp] theorem State.setCluster_acc_scale (p c : Nat) (x : Cluster) (q d e g' : Nat) : (s.setCluster p c x).scale q d e g' = s.scale q d e g' := rfl
@[simp] theorem State.setCluster_acc_port (p c : Nat) (x : Cluster) (q : Nat) : (s.setCluster p c x).port q = s.port q := rfl
@[simp] theorem State.setCluster_acc_counter (p c : Nat) (x : Cluster) (q : Nat) : (s.setCluster p c x).counter q = s.counter q := rfl
@[simp] theorem State.setCluster_acc_converter (p c : Nat) (x : Cluster) (q : Nat) : (s.setCluster p c x).converter q = s.converter q := rfl

/-! `State.setWing` changes wings alone. -/
@[simp] theorem State.setWing_pending (p w : Nat) (x : Wing) : (s.setWing p w x).pending = s.pending := rfl
@[simp] theorem State.setWing_held (p w : Nat) (x : Wing) : (s.setWing p w x).held = s.held := rfl
@[simp] theorem State.setWing_cycle (p w : Nat) (x : Wing) : (s.setWing p w x).cycle = s.cycle := rfl
@[simp] theorem State.setWing_moved (p w : Nat) (x : Wing) : (s.setWing p w x).moved = s.moved := rfl
@[simp] theorem State.setWing_answer (p w : Nat) (x : Wing) : (s.setWing p w x).answer = s.answer := rfl
@[simp] theorem State.setWing_sent (p w : Nat) (x : Wing) : (s.setWing p w x).sent = s.sent := rfl
@[simp] theorem State.setWing_nDraw (p w : Nat) (x : Wing) : (s.setWing p w x).nDraw = s.nDraw := rfl
@[simp] theorem State.setWing_tick (p w : Nat) (x : Wing) : (s.setWing p w x).tick = s.tick := rfl
@[simp] theorem State.setWing_regs (p w : Nat) (x : Wing) : (s.setWing p w x).regs = s.regs := rfl
@[simp] theorem State.setWing_held64 (p w : Nat) (x : Wing) : (s.setWing p w x).held64 = s.held64 := rfl
@[simp] theorem State.setWing_latch64 (p w : Nat) (x : Wing) : (s.setWing p w x).latch64 = s.latch64 := rfl
@[simp] theorem State.setWing_mem (p w : Nat) (x : Wing) : (s.setWing p w x).mem = s.mem := rfl
@[simp] theorem State.setWing_poison (p w : Nat) (x : Wing) : (s.setWing p w x).poison = s.poison := rfl
@[simp] theorem State.setWing_hostMem (p w : Nat) (x : Wing) : (s.setWing p w x).hostMem = s.hostMem := rfl
@[simp] theorem State.setWing_clusters (p w : Nat) (x : Wing) : (s.setWing p w x).clusters = s.clusters := rfl
@[simp] theorem State.setWing_parts (p w : Nat) (x : Wing) : (s.setWing p w x).parts = s.parts := rfl
@[simp] theorem State.setWing_scales (p w : Nat) (x : Wing) : (s.setWing p w x).scales = s.scales := rfl
@[simp] theorem State.setWing_ports (p w : Nat) (x : Wing) : (s.setWing p w x).ports = s.ports := rfl
@[simp] theorem State.setWing_fabric (p w : Nat) (x : Wing) : (s.setWing p w x).fabric = s.fabric := rfl
@[simp] theorem State.setWing_power (p w : Nat) (x : Wing) : (s.setWing p w x).power = s.power := rfl
@[simp] theorem State.setWing_security (p w : Nat) (x : Wing) : (s.setWing p w x).security = s.security := rfl
@[simp] theorem State.setWing_counters (p w : Nat) (x : Wing) : (s.setWing p w x).counters = s.counters := rfl
@[simp] theorem State.setWing_records (p w : Nat) (x : Wing) : (s.setWing p w x).records = s.records := rfl
@[simp] theorem State.setWing_converters (p w : Nat) (x : Wing) : (s.setWing p w x).converters = s.converters := rfl
@[simp] theorem State.setWing_userGo (p w : Nat) (x : Wing) : (s.setWing p w x).userGo = s.userGo := rfl
@[simp] theorem State.setWing_resetting (p w : Nat) (x : Wing) : (s.setWing p w x).resetting = s.resetting := rfl
@[simp] theorem State.setWing_engineResets (p w : Nat) (x : Wing) : (s.setWing p w x).engineResets = s.engineResets := rfl
@[simp] theorem State.setWing_wearFlash (p w : Nat) (x : Wing) : (s.setWing p w x).wearFlash = s.wearFlash := rfl
@[simp] theorem State.setWing_strapSris (p w : Nat) (x : Wing) : (s.setWing p w x).strapSris = s.strapSris := rfl
@[simp] theorem State.setWing_strapSmb (p w : Nat) (x : Wing) : (s.setWing p w x).strapSmb = s.strapSmb := rfl
@[simp] theorem State.setWing_perstLow (p w : Nat) (x : Wing) : (s.setWing p w x).perstLow = s.perstLow := rfl
@[simp] theorem State.setWing_killLow (p w : Nat) (x : Wing) : (s.setWing p w x).killLow = s.killLow := rfl
@[simp] theorem State.setWing_powered (p w : Nat) (x : Wing) : (s.setWing p w x).powered = s.powered := rfl
@[simp] theorem State.setWing_bound (p w : Nat) (x : Wing) : (s.setWing p w x).bound = s.bound := rfl
@[simp] theorem State.setWing_featWritten (p w : Nat) (x : Wing) : (s.setWing p w x).featWritten = s.featWritten := rfl
@[simp] theorem State.setWing_acc_rd (p w : Nat) (x : Wing) (pg' : Page) (f' : Field) : (s.setWing p w x).rd pg' f' = s.rd pg' f' := rfl
@[simp] theorem State.setWing_acc_byte (p w : Nat) (x : Wing) (a' : Nat) : (s.setWing p w x).byte a' = s.byte a' := rfl
@[simp] theorem State.setWing_acc_hostByte (p w : Nat) (x : Wing) (a' : Nat) : (s.setWing p w x).hostByte a' = s.hostByte a' := rfl
@[simp] theorem State.setWing_acc_part (p w : Nat) (x : Wing) (q : Nat) : (s.setWing p w x).part q = s.part q := rfl
@[simp] theorem State.setWing_acc_cluster (p w : Nat) (x : Wing) (q d : Nat) : (s.setWing p w x).cluster q d = s.cluster q d := rfl
@[simp] theorem State.setWing_acc_scale (p w : Nat) (x : Wing) (q d e g' : Nat) : (s.setWing p w x).scale q d e g' = s.scale q d e g' := rfl
@[simp] theorem State.setWing_acc_port (p w : Nat) (x : Wing) (q : Nat) : (s.setWing p w x).port q = s.port q := rfl
@[simp] theorem State.setWing_acc_counter (p w : Nat) (x : Wing) (q : Nat) : (s.setWing p w x).counter q = s.counter q := rfl
@[simp] theorem State.setWing_acc_converter (p w : Nat) (x : Wing) (q : Nat) : (s.setWing p w x).converter q = s.converter q := rfl

/-! `State.setScale` changes scales alone. -/
@[simp] theorem State.setScale_pending (p w b sc : Nat) (x : Scale) : (s.setScale p w b sc x).pending = s.pending := rfl
@[simp] theorem State.setScale_held (p w b sc : Nat) (x : Scale) : (s.setScale p w b sc x).held = s.held := rfl
@[simp] theorem State.setScale_cycle (p w b sc : Nat) (x : Scale) : (s.setScale p w b sc x).cycle = s.cycle := rfl
@[simp] theorem State.setScale_moved (p w b sc : Nat) (x : Scale) : (s.setScale p w b sc x).moved = s.moved := rfl
@[simp] theorem State.setScale_answer (p w b sc : Nat) (x : Scale) : (s.setScale p w b sc x).answer = s.answer := rfl
@[simp] theorem State.setScale_sent (p w b sc : Nat) (x : Scale) : (s.setScale p w b sc x).sent = s.sent := rfl
@[simp] theorem State.setScale_nDraw (p w b sc : Nat) (x : Scale) : (s.setScale p w b sc x).nDraw = s.nDraw := rfl
@[simp] theorem State.setScale_tick (p w b sc : Nat) (x : Scale) : (s.setScale p w b sc x).tick = s.tick := rfl
@[simp] theorem State.setScale_regs (p w b sc : Nat) (x : Scale) : (s.setScale p w b sc x).regs = s.regs := rfl
@[simp] theorem State.setScale_held64 (p w b sc : Nat) (x : Scale) : (s.setScale p w b sc x).held64 = s.held64 := rfl
@[simp] theorem State.setScale_latch64 (p w b sc : Nat) (x : Scale) : (s.setScale p w b sc x).latch64 = s.latch64 := rfl
@[simp] theorem State.setScale_mem (p w b sc : Nat) (x : Scale) : (s.setScale p w b sc x).mem = s.mem := rfl
@[simp] theorem State.setScale_poison (p w b sc : Nat) (x : Scale) : (s.setScale p w b sc x).poison = s.poison := rfl
@[simp] theorem State.setScale_hostMem (p w b sc : Nat) (x : Scale) : (s.setScale p w b sc x).hostMem = s.hostMem := rfl
@[simp] theorem State.setScale_clusters (p w b sc : Nat) (x : Scale) : (s.setScale p w b sc x).clusters = s.clusters := rfl
@[simp] theorem State.setScale_parts (p w b sc : Nat) (x : Scale) : (s.setScale p w b sc x).parts = s.parts := rfl
@[simp] theorem State.setScale_wings (p w b sc : Nat) (x : Scale) : (s.setScale p w b sc x).wings = s.wings := rfl
@[simp] theorem State.setScale_ports (p w b sc : Nat) (x : Scale) : (s.setScale p w b sc x).ports = s.ports := rfl
@[simp] theorem State.setScale_fabric (p w b sc : Nat) (x : Scale) : (s.setScale p w b sc x).fabric = s.fabric := rfl
@[simp] theorem State.setScale_power (p w b sc : Nat) (x : Scale) : (s.setScale p w b sc x).power = s.power := rfl
@[simp] theorem State.setScale_security (p w b sc : Nat) (x : Scale) : (s.setScale p w b sc x).security = s.security := rfl
@[simp] theorem State.setScale_counters (p w b sc : Nat) (x : Scale) : (s.setScale p w b sc x).counters = s.counters := rfl
@[simp] theorem State.setScale_records (p w b sc : Nat) (x : Scale) : (s.setScale p w b sc x).records = s.records := rfl
@[simp] theorem State.setScale_converters (p w b sc : Nat) (x : Scale) : (s.setScale p w b sc x).converters = s.converters := rfl
@[simp] theorem State.setScale_userGo (p w b sc : Nat) (x : Scale) : (s.setScale p w b sc x).userGo = s.userGo := rfl
@[simp] theorem State.setScale_resetting (p w b sc : Nat) (x : Scale) : (s.setScale p w b sc x).resetting = s.resetting := rfl
@[simp] theorem State.setScale_engineResets (p w b sc : Nat) (x : Scale) : (s.setScale p w b sc x).engineResets = s.engineResets := rfl
@[simp] theorem State.setScale_wearFlash (p w b sc : Nat) (x : Scale) : (s.setScale p w b sc x).wearFlash = s.wearFlash := rfl
@[simp] theorem State.setScale_strapSris (p w b sc : Nat) (x : Scale) : (s.setScale p w b sc x).strapSris = s.strapSris := rfl
@[simp] theorem State.setScale_strapSmb (p w b sc : Nat) (x : Scale) : (s.setScale p w b sc x).strapSmb = s.strapSmb := rfl
@[simp] theorem State.setScale_perstLow (p w b sc : Nat) (x : Scale) : (s.setScale p w b sc x).perstLow = s.perstLow := rfl
@[simp] theorem State.setScale_killLow (p w b sc : Nat) (x : Scale) : (s.setScale p w b sc x).killLow = s.killLow := rfl
@[simp] theorem State.setScale_powered (p w b sc : Nat) (x : Scale) : (s.setScale p w b sc x).powered = s.powered := rfl
@[simp] theorem State.setScale_bound (p w b sc : Nat) (x : Scale) : (s.setScale p w b sc x).bound = s.bound := rfl
@[simp] theorem State.setScale_featWritten (p w b sc : Nat) (x : Scale) : (s.setScale p w b sc x).featWritten = s.featWritten := rfl
@[simp] theorem State.setScale_acc_rd (p w b sc : Nat) (x : Scale) (pg' : Page) (f' : Field) : (s.setScale p w b sc x).rd pg' f' = s.rd pg' f' := rfl
@[simp] theorem State.setScale_acc_byte (p w b sc : Nat) (x : Scale) (a' : Nat) : (s.setScale p w b sc x).byte a' = s.byte a' := rfl
@[simp] theorem State.setScale_acc_hostByte (p w b sc : Nat) (x : Scale) (a' : Nat) : (s.setScale p w b sc x).hostByte a' = s.hostByte a' := rfl
@[simp] theorem State.setScale_acc_part (p w b sc : Nat) (x : Scale) (q : Nat) : (s.setScale p w b sc x).part q = s.part q := rfl
@[simp] theorem State.setScale_acc_cluster (p w b sc : Nat) (x : Scale) (q d : Nat) : (s.setScale p w b sc x).cluster q d = s.cluster q d := rfl
@[simp] theorem State.setScale_acc_wing (p w b sc : Nat) (x : Scale) (q d : Nat) : (s.setScale p w b sc x).wing q d = s.wing q d := rfl
@[simp] theorem State.setScale_acc_port (p w b sc : Nat) (x : Scale) (q : Nat) : (s.setScale p w b sc x).port q = s.port q := rfl
@[simp] theorem State.setScale_acc_counter (p w b sc : Nat) (x : Scale) (q : Nat) : (s.setScale p w b sc x).counter q = s.counter q := rfl
@[simp] theorem State.setScale_acc_converter (p w b sc : Nat) (x : Scale) (q : Nat) : (s.setScale p w b sc x).converter q = s.converter q := rfl

/-! `State.setPort` changes ports alone. -/
@[simp] theorem State.setPort_pending (i : Nat) (x : Port) : (s.setPort i x).pending = s.pending := rfl
@[simp] theorem State.setPort_held (i : Nat) (x : Port) : (s.setPort i x).held = s.held := rfl
@[simp] theorem State.setPort_cycle (i : Nat) (x : Port) : (s.setPort i x).cycle = s.cycle := rfl
@[simp] theorem State.setPort_moved (i : Nat) (x : Port) : (s.setPort i x).moved = s.moved := rfl
@[simp] theorem State.setPort_answer (i : Nat) (x : Port) : (s.setPort i x).answer = s.answer := rfl
@[simp] theorem State.setPort_sent (i : Nat) (x : Port) : (s.setPort i x).sent = s.sent := rfl
@[simp] theorem State.setPort_nDraw (i : Nat) (x : Port) : (s.setPort i x).nDraw = s.nDraw := rfl
@[simp] theorem State.setPort_tick (i : Nat) (x : Port) : (s.setPort i x).tick = s.tick := rfl
@[simp] theorem State.setPort_regs (i : Nat) (x : Port) : (s.setPort i x).regs = s.regs := rfl
@[simp] theorem State.setPort_held64 (i : Nat) (x : Port) : (s.setPort i x).held64 = s.held64 := rfl
@[simp] theorem State.setPort_latch64 (i : Nat) (x : Port) : (s.setPort i x).latch64 = s.latch64 := rfl
@[simp] theorem State.setPort_mem (i : Nat) (x : Port) : (s.setPort i x).mem = s.mem := rfl
@[simp] theorem State.setPort_poison (i : Nat) (x : Port) : (s.setPort i x).poison = s.poison := rfl
@[simp] theorem State.setPort_hostMem (i : Nat) (x : Port) : (s.setPort i x).hostMem = s.hostMem := rfl
@[simp] theorem State.setPort_clusters (i : Nat) (x : Port) : (s.setPort i x).clusters = s.clusters := rfl
@[simp] theorem State.setPort_parts (i : Nat) (x : Port) : (s.setPort i x).parts = s.parts := rfl
@[simp] theorem State.setPort_wings (i : Nat) (x : Port) : (s.setPort i x).wings = s.wings := rfl
@[simp] theorem State.setPort_scales (i : Nat) (x : Port) : (s.setPort i x).scales = s.scales := rfl
@[simp] theorem State.setPort_fabric (i : Nat) (x : Port) : (s.setPort i x).fabric = s.fabric := rfl
@[simp] theorem State.setPort_power (i : Nat) (x : Port) : (s.setPort i x).power = s.power := rfl
@[simp] theorem State.setPort_security (i : Nat) (x : Port) : (s.setPort i x).security = s.security := rfl
@[simp] theorem State.setPort_counters (i : Nat) (x : Port) : (s.setPort i x).counters = s.counters := rfl
@[simp] theorem State.setPort_records (i : Nat) (x : Port) : (s.setPort i x).records = s.records := rfl
@[simp] theorem State.setPort_converters (i : Nat) (x : Port) : (s.setPort i x).converters = s.converters := rfl
@[simp] theorem State.setPort_userGo (i : Nat) (x : Port) : (s.setPort i x).userGo = s.userGo := rfl
@[simp] theorem State.setPort_resetting (i : Nat) (x : Port) : (s.setPort i x).resetting = s.resetting := rfl
@[simp] theorem State.setPort_engineResets (i : Nat) (x : Port) : (s.setPort i x).engineResets = s.engineResets := rfl
@[simp] theorem State.setPort_wearFlash (i : Nat) (x : Port) : (s.setPort i x).wearFlash = s.wearFlash := rfl
@[simp] theorem State.setPort_strapSris (i : Nat) (x : Port) : (s.setPort i x).strapSris = s.strapSris := rfl
@[simp] theorem State.setPort_strapSmb (i : Nat) (x : Port) : (s.setPort i x).strapSmb = s.strapSmb := rfl
@[simp] theorem State.setPort_perstLow (i : Nat) (x : Port) : (s.setPort i x).perstLow = s.perstLow := rfl
@[simp] theorem State.setPort_killLow (i : Nat) (x : Port) : (s.setPort i x).killLow = s.killLow := rfl
@[simp] theorem State.setPort_powered (i : Nat) (x : Port) : (s.setPort i x).powered = s.powered := rfl
@[simp] theorem State.setPort_bound (i : Nat) (x : Port) : (s.setPort i x).bound = s.bound := rfl
@[simp] theorem State.setPort_featWritten (i : Nat) (x : Port) : (s.setPort i x).featWritten = s.featWritten := rfl
@[simp] theorem State.setPort_acc_rd (i : Nat) (x : Port) (pg' : Page) (f' : Field) : (s.setPort i x).rd pg' f' = s.rd pg' f' := rfl
@[simp] theorem State.setPort_acc_byte (i : Nat) (x : Port) (a' : Nat) : (s.setPort i x).byte a' = s.byte a' := rfl
@[simp] theorem State.setPort_acc_hostByte (i : Nat) (x : Port) (a' : Nat) : (s.setPort i x).hostByte a' = s.hostByte a' := rfl
@[simp] theorem State.setPort_acc_part (i : Nat) (x : Port) (q : Nat) : (s.setPort i x).part q = s.part q := rfl
@[simp] theorem State.setPort_acc_cluster (i : Nat) (x : Port) (q d : Nat) : (s.setPort i x).cluster q d = s.cluster q d := rfl
@[simp] theorem State.setPort_acc_wing (i : Nat) (x : Port) (q d : Nat) : (s.setPort i x).wing q d = s.wing q d := rfl
@[simp] theorem State.setPort_acc_scale (i : Nat) (x : Port) (q d e g' : Nat) : (s.setPort i x).scale q d e g' = s.scale q d e g' := rfl
@[simp] theorem State.setPort_acc_counter (i : Nat) (x : Port) (q : Nat) : (s.setPort i x).counter q = s.counter q := rfl
@[simp] theorem State.setPort_acc_converter (i : Nat) (x : Port) (q : Nat) : (s.setPort i x).converter q = s.converter q := rfl

/-! `State.setCounter` changes counters alone. -/
@[simp] theorem State.setCounter_pending (n : Nat) (x : Counter) : (s.setCounter n x).pending = s.pending := rfl
@[simp] theorem State.setCounter_held (n : Nat) (x : Counter) : (s.setCounter n x).held = s.held := rfl
@[simp] theorem State.setCounter_cycle (n : Nat) (x : Counter) : (s.setCounter n x).cycle = s.cycle := rfl
@[simp] theorem State.setCounter_moved (n : Nat) (x : Counter) : (s.setCounter n x).moved = s.moved := rfl
@[simp] theorem State.setCounter_answer (n : Nat) (x : Counter) : (s.setCounter n x).answer = s.answer := rfl
@[simp] theorem State.setCounter_sent (n : Nat) (x : Counter) : (s.setCounter n x).sent = s.sent := rfl
@[simp] theorem State.setCounter_nDraw (n : Nat) (x : Counter) : (s.setCounter n x).nDraw = s.nDraw := rfl
@[simp] theorem State.setCounter_tick (n : Nat) (x : Counter) : (s.setCounter n x).tick = s.tick := rfl
@[simp] theorem State.setCounter_regs (n : Nat) (x : Counter) : (s.setCounter n x).regs = s.regs := rfl
@[simp] theorem State.setCounter_held64 (n : Nat) (x : Counter) : (s.setCounter n x).held64 = s.held64 := rfl
@[simp] theorem State.setCounter_latch64 (n : Nat) (x : Counter) : (s.setCounter n x).latch64 = s.latch64 := rfl
@[simp] theorem State.setCounter_mem (n : Nat) (x : Counter) : (s.setCounter n x).mem = s.mem := rfl
@[simp] theorem State.setCounter_poison (n : Nat) (x : Counter) : (s.setCounter n x).poison = s.poison := rfl
@[simp] theorem State.setCounter_hostMem (n : Nat) (x : Counter) : (s.setCounter n x).hostMem = s.hostMem := rfl
@[simp] theorem State.setCounter_clusters (n : Nat) (x : Counter) : (s.setCounter n x).clusters = s.clusters := rfl
@[simp] theorem State.setCounter_parts (n : Nat) (x : Counter) : (s.setCounter n x).parts = s.parts := rfl
@[simp] theorem State.setCounter_wings (n : Nat) (x : Counter) : (s.setCounter n x).wings = s.wings := rfl
@[simp] theorem State.setCounter_scales (n : Nat) (x : Counter) : (s.setCounter n x).scales = s.scales := rfl
@[simp] theorem State.setCounter_ports (n : Nat) (x : Counter) : (s.setCounter n x).ports = s.ports := rfl
@[simp] theorem State.setCounter_fabric (n : Nat) (x : Counter) : (s.setCounter n x).fabric = s.fabric := rfl
@[simp] theorem State.setCounter_power (n : Nat) (x : Counter) : (s.setCounter n x).power = s.power := rfl
@[simp] theorem State.setCounter_security (n : Nat) (x : Counter) : (s.setCounter n x).security = s.security := rfl
@[simp] theorem State.setCounter_records (n : Nat) (x : Counter) : (s.setCounter n x).records = s.records := rfl
@[simp] theorem State.setCounter_converters (n : Nat) (x : Counter) : (s.setCounter n x).converters = s.converters := rfl
@[simp] theorem State.setCounter_userGo (n : Nat) (x : Counter) : (s.setCounter n x).userGo = s.userGo := rfl
@[simp] theorem State.setCounter_resetting (n : Nat) (x : Counter) : (s.setCounter n x).resetting = s.resetting := rfl
@[simp] theorem State.setCounter_engineResets (n : Nat) (x : Counter) : (s.setCounter n x).engineResets = s.engineResets := rfl
@[simp] theorem State.setCounter_wearFlash (n : Nat) (x : Counter) : (s.setCounter n x).wearFlash = s.wearFlash := rfl
@[simp] theorem State.setCounter_strapSris (n : Nat) (x : Counter) : (s.setCounter n x).strapSris = s.strapSris := rfl
@[simp] theorem State.setCounter_strapSmb (n : Nat) (x : Counter) : (s.setCounter n x).strapSmb = s.strapSmb := rfl
@[simp] theorem State.setCounter_perstLow (n : Nat) (x : Counter) : (s.setCounter n x).perstLow = s.perstLow := rfl
@[simp] theorem State.setCounter_killLow (n : Nat) (x : Counter) : (s.setCounter n x).killLow = s.killLow := rfl
@[simp] theorem State.setCounter_powered (n : Nat) (x : Counter) : (s.setCounter n x).powered = s.powered := rfl
@[simp] theorem State.setCounter_bound (n : Nat) (x : Counter) : (s.setCounter n x).bound = s.bound := rfl
@[simp] theorem State.setCounter_featWritten (n : Nat) (x : Counter) : (s.setCounter n x).featWritten = s.featWritten := rfl
@[simp] theorem State.setCounter_acc_rd (n : Nat) (x : Counter) (pg' : Page) (f' : Field) : (s.setCounter n x).rd pg' f' = s.rd pg' f' := rfl
@[simp] theorem State.setCounter_acc_byte (n : Nat) (x : Counter) (a' : Nat) : (s.setCounter n x).byte a' = s.byte a' := rfl
@[simp] theorem State.setCounter_acc_hostByte (n : Nat) (x : Counter) (a' : Nat) : (s.setCounter n x).hostByte a' = s.hostByte a' := rfl
@[simp] theorem State.setCounter_acc_part (n : Nat) (x : Counter) (q : Nat) : (s.setCounter n x).part q = s.part q := rfl
@[simp] theorem State.setCounter_acc_cluster (n : Nat) (x : Counter) (q d : Nat) : (s.setCounter n x).cluster q d = s.cluster q d := rfl
@[simp] theorem State.setCounter_acc_wing (n : Nat) (x : Counter) (q d : Nat) : (s.setCounter n x).wing q d = s.wing q d := rfl
@[simp] theorem State.setCounter_acc_scale (n : Nat) (x : Counter) (q d e g' : Nat) : (s.setCounter n x).scale q d e g' = s.scale q d e g' := rfl
@[simp] theorem State.setCounter_acc_port (n : Nat) (x : Counter) (q : Nat) : (s.setCounter n x).port q = s.port q := rfl
@[simp] theorem State.setCounter_acc_converter (n : Nat) (x : Counter) (q : Nat) : (s.setCounter n x).converter q = s.converter q := rfl

/-! `State.setConverter` changes converters alone. -/
@[simp] theorem State.setConverter_pending (m : Nat) (x : Converter) : (s.setConverter m x).pending = s.pending := rfl
@[simp] theorem State.setConverter_held (m : Nat) (x : Converter) : (s.setConverter m x).held = s.held := rfl
@[simp] theorem State.setConverter_cycle (m : Nat) (x : Converter) : (s.setConverter m x).cycle = s.cycle := rfl
@[simp] theorem State.setConverter_moved (m : Nat) (x : Converter) : (s.setConverter m x).moved = s.moved := rfl
@[simp] theorem State.setConverter_answer (m : Nat) (x : Converter) : (s.setConverter m x).answer = s.answer := rfl
@[simp] theorem State.setConverter_sent (m : Nat) (x : Converter) : (s.setConverter m x).sent = s.sent := rfl
@[simp] theorem State.setConverter_nDraw (m : Nat) (x : Converter) : (s.setConverter m x).nDraw = s.nDraw := rfl
@[simp] theorem State.setConverter_tick (m : Nat) (x : Converter) : (s.setConverter m x).tick = s.tick := rfl
@[simp] theorem State.setConverter_regs (m : Nat) (x : Converter) : (s.setConverter m x).regs = s.regs := rfl
@[simp] theorem State.setConverter_held64 (m : Nat) (x : Converter) : (s.setConverter m x).held64 = s.held64 := rfl
@[simp] theorem State.setConverter_latch64 (m : Nat) (x : Converter) : (s.setConverter m x).latch64 = s.latch64 := rfl
@[simp] theorem State.setConverter_mem (m : Nat) (x : Converter) : (s.setConverter m x).mem = s.mem := rfl
@[simp] theorem State.setConverter_poison (m : Nat) (x : Converter) : (s.setConverter m x).poison = s.poison := rfl
@[simp] theorem State.setConverter_hostMem (m : Nat) (x : Converter) : (s.setConverter m x).hostMem = s.hostMem := rfl
@[simp] theorem State.setConverter_clusters (m : Nat) (x : Converter) : (s.setConverter m x).clusters = s.clusters := rfl
@[simp] theorem State.setConverter_parts (m : Nat) (x : Converter) : (s.setConverter m x).parts = s.parts := rfl
@[simp] theorem State.setConverter_wings (m : Nat) (x : Converter) : (s.setConverter m x).wings = s.wings := rfl
@[simp] theorem State.setConverter_scales (m : Nat) (x : Converter) : (s.setConverter m x).scales = s.scales := rfl
@[simp] theorem State.setConverter_ports (m : Nat) (x : Converter) : (s.setConverter m x).ports = s.ports := rfl
@[simp] theorem State.setConverter_fabric (m : Nat) (x : Converter) : (s.setConverter m x).fabric = s.fabric := rfl
@[simp] theorem State.setConverter_power (m : Nat) (x : Converter) : (s.setConverter m x).power = s.power := rfl
@[simp] theorem State.setConverter_security (m : Nat) (x : Converter) : (s.setConverter m x).security = s.security := rfl
@[simp] theorem State.setConverter_counters (m : Nat) (x : Converter) : (s.setConverter m x).counters = s.counters := rfl
@[simp] theorem State.setConverter_records (m : Nat) (x : Converter) : (s.setConverter m x).records = s.records := rfl
@[simp] theorem State.setConverter_userGo (m : Nat) (x : Converter) : (s.setConverter m x).userGo = s.userGo := rfl
@[simp] theorem State.setConverter_resetting (m : Nat) (x : Converter) : (s.setConverter m x).resetting = s.resetting := rfl
@[simp] theorem State.setConverter_engineResets (m : Nat) (x : Converter) : (s.setConverter m x).engineResets = s.engineResets := rfl
@[simp] theorem State.setConverter_wearFlash (m : Nat) (x : Converter) : (s.setConverter m x).wearFlash = s.wearFlash := rfl
@[simp] theorem State.setConverter_strapSris (m : Nat) (x : Converter) : (s.setConverter m x).strapSris = s.strapSris := rfl
@[simp] theorem State.setConverter_strapSmb (m : Nat) (x : Converter) : (s.setConverter m x).strapSmb = s.strapSmb := rfl
@[simp] theorem State.setConverter_perstLow (m : Nat) (x : Converter) : (s.setConverter m x).perstLow = s.perstLow := rfl
@[simp] theorem State.setConverter_killLow (m : Nat) (x : Converter) : (s.setConverter m x).killLow = s.killLow := rfl
@[simp] theorem State.setConverter_powered (m : Nat) (x : Converter) : (s.setConverter m x).powered = s.powered := rfl
@[simp] theorem State.setConverter_bound (m : Nat) (x : Converter) : (s.setConverter m x).bound = s.bound := rfl
@[simp] theorem State.setConverter_featWritten (m : Nat) (x : Converter) : (s.setConverter m x).featWritten = s.featWritten := rfl
@[simp] theorem State.setConverter_acc_rd (m : Nat) (x : Converter) (pg' : Page) (f' : Field) : (s.setConverter m x).rd pg' f' = s.rd pg' f' := rfl
@[simp] theorem State.setConverter_acc_byte (m : Nat) (x : Converter) (a' : Nat) : (s.setConverter m x).byte a' = s.byte a' := rfl
@[simp] theorem State.setConverter_acc_hostByte (m : Nat) (x : Converter) (a' : Nat) : (s.setConverter m x).hostByte a' = s.hostByte a' := rfl
@[simp] theorem State.setConverter_acc_part (m : Nat) (x : Converter) (q : Nat) : (s.setConverter m x).part q = s.part q := rfl
@[simp] theorem State.setConverter_acc_cluster (m : Nat) (x : Converter) (q d : Nat) : (s.setConverter m x).cluster q d = s.cluster q d := rfl
@[simp] theorem State.setConverter_acc_wing (m : Nat) (x : Converter) (q d : Nat) : (s.setConverter m x).wing q d = s.wing q d := rfl
@[simp] theorem State.setConverter_acc_scale (m : Nat) (x : Converter) (q d e g' : Nat) : (s.setConverter m x).scale q d e g' = s.scale q d e g' := rfl
@[simp] theorem State.setConverter_acc_port (m : Nat) (x : Converter) (q : Nat) : (s.setConverter m x).port q = s.port q := rfl
@[simp] theorem State.setConverter_acc_counter (m : Nat) (x : Converter) (q : Nat) : (s.setConverter m x).counter q = s.counter q := rfl

/-! `State.modFabric` changes fabric alone. -/
@[simp] theorem State.modFabric_pending (g : Fabric → Fabric) : (s.modFabric g).pending = s.pending := rfl
@[simp] theorem State.modFabric_held (g : Fabric → Fabric) : (s.modFabric g).held = s.held := rfl
@[simp] theorem State.modFabric_cycle (g : Fabric → Fabric) : (s.modFabric g).cycle = s.cycle := rfl
@[simp] theorem State.modFabric_moved (g : Fabric → Fabric) : (s.modFabric g).moved = s.moved := rfl
@[simp] theorem State.modFabric_answer (g : Fabric → Fabric) : (s.modFabric g).answer = s.answer := rfl
@[simp] theorem State.modFabric_sent (g : Fabric → Fabric) : (s.modFabric g).sent = s.sent := rfl
@[simp] theorem State.modFabric_nDraw (g : Fabric → Fabric) : (s.modFabric g).nDraw = s.nDraw := rfl
@[simp] theorem State.modFabric_tick (g : Fabric → Fabric) : (s.modFabric g).tick = s.tick := rfl
@[simp] theorem State.modFabric_regs (g : Fabric → Fabric) : (s.modFabric g).regs = s.regs := rfl
@[simp] theorem State.modFabric_held64 (g : Fabric → Fabric) : (s.modFabric g).held64 = s.held64 := rfl
@[simp] theorem State.modFabric_latch64 (g : Fabric → Fabric) : (s.modFabric g).latch64 = s.latch64 := rfl
@[simp] theorem State.modFabric_mem (g : Fabric → Fabric) : (s.modFabric g).mem = s.mem := rfl
@[simp] theorem State.modFabric_poison (g : Fabric → Fabric) : (s.modFabric g).poison = s.poison := rfl
@[simp] theorem State.modFabric_hostMem (g : Fabric → Fabric) : (s.modFabric g).hostMem = s.hostMem := rfl
@[simp] theorem State.modFabric_clusters (g : Fabric → Fabric) : (s.modFabric g).clusters = s.clusters := rfl
@[simp] theorem State.modFabric_parts (g : Fabric → Fabric) : (s.modFabric g).parts = s.parts := rfl
@[simp] theorem State.modFabric_wings (g : Fabric → Fabric) : (s.modFabric g).wings = s.wings := rfl
@[simp] theorem State.modFabric_scales (g : Fabric → Fabric) : (s.modFabric g).scales = s.scales := rfl
@[simp] theorem State.modFabric_ports (g : Fabric → Fabric) : (s.modFabric g).ports = s.ports := rfl
@[simp] theorem State.modFabric_power (g : Fabric → Fabric) : (s.modFabric g).power = s.power := rfl
@[simp] theorem State.modFabric_security (g : Fabric → Fabric) : (s.modFabric g).security = s.security := rfl
@[simp] theorem State.modFabric_counters (g : Fabric → Fabric) : (s.modFabric g).counters = s.counters := rfl
@[simp] theorem State.modFabric_records (g : Fabric → Fabric) : (s.modFabric g).records = s.records := rfl
@[simp] theorem State.modFabric_converters (g : Fabric → Fabric) : (s.modFabric g).converters = s.converters := rfl
@[simp] theorem State.modFabric_userGo (g : Fabric → Fabric) : (s.modFabric g).userGo = s.userGo := rfl
@[simp] theorem State.modFabric_resetting (g : Fabric → Fabric) : (s.modFabric g).resetting = s.resetting := rfl
@[simp] theorem State.modFabric_engineResets (g : Fabric → Fabric) : (s.modFabric g).engineResets = s.engineResets := rfl
@[simp] theorem State.modFabric_wearFlash (g : Fabric → Fabric) : (s.modFabric g).wearFlash = s.wearFlash := rfl
@[simp] theorem State.modFabric_strapSris (g : Fabric → Fabric) : (s.modFabric g).strapSris = s.strapSris := rfl
@[simp] theorem State.modFabric_strapSmb (g : Fabric → Fabric) : (s.modFabric g).strapSmb = s.strapSmb := rfl
@[simp] theorem State.modFabric_perstLow (g : Fabric → Fabric) : (s.modFabric g).perstLow = s.perstLow := rfl
@[simp] theorem State.modFabric_killLow (g : Fabric → Fabric) : (s.modFabric g).killLow = s.killLow := rfl
@[simp] theorem State.modFabric_powered (g : Fabric → Fabric) : (s.modFabric g).powered = s.powered := rfl
@[simp] theorem State.modFabric_bound (g : Fabric → Fabric) : (s.modFabric g).bound = s.bound := rfl
@[simp] theorem State.modFabric_featWritten (g : Fabric → Fabric) : (s.modFabric g).featWritten = s.featWritten := rfl
@[simp] theorem State.modFabric_acc_rd (g : Fabric → Fabric) (pg' : Page) (f' : Field) : (s.modFabric g).rd pg' f' = s.rd pg' f' := rfl
@[simp] theorem State.modFabric_acc_byte (g : Fabric → Fabric) (a' : Nat) : (s.modFabric g).byte a' = s.byte a' := rfl
@[simp] theorem State.modFabric_acc_hostByte (g : Fabric → Fabric) (a' : Nat) : (s.modFabric g).hostByte a' = s.hostByte a' := rfl
@[simp] theorem State.modFabric_acc_part (g : Fabric → Fabric) (q : Nat) : (s.modFabric g).part q = s.part q := rfl
@[simp] theorem State.modFabric_acc_cluster (g : Fabric → Fabric) (q d : Nat) : (s.modFabric g).cluster q d = s.cluster q d := rfl
@[simp] theorem State.modFabric_acc_wing (g : Fabric → Fabric) (q d : Nat) : (s.modFabric g).wing q d = s.wing q d := rfl
@[simp] theorem State.modFabric_acc_scale (g : Fabric → Fabric) (q d e g' : Nat) : (s.modFabric g).scale q d e g' = s.scale q d e g' := rfl
@[simp] theorem State.modFabric_acc_port (g : Fabric → Fabric) (q : Nat) : (s.modFabric g).port q = s.port q := rfl
@[simp] theorem State.modFabric_acc_counter (g : Fabric → Fabric) (q : Nat) : (s.modFabric g).counter q = s.counter q := rfl
@[simp] theorem State.modFabric_acc_converter (g : Fabric → Fabric) (q : Nat) : (s.modFabric g).converter q = s.converter q := rfl

/-! `State.modPower` changes power alone. -/
@[simp] theorem State.modPower_pending (g : Power → Power) : (s.modPower g).pending = s.pending := rfl
@[simp] theorem State.modPower_held (g : Power → Power) : (s.modPower g).held = s.held := rfl
@[simp] theorem State.modPower_cycle (g : Power → Power) : (s.modPower g).cycle = s.cycle := rfl
@[simp] theorem State.modPower_moved (g : Power → Power) : (s.modPower g).moved = s.moved := rfl
@[simp] theorem State.modPower_answer (g : Power → Power) : (s.modPower g).answer = s.answer := rfl
@[simp] theorem State.modPower_sent (g : Power → Power) : (s.modPower g).sent = s.sent := rfl
@[simp] theorem State.modPower_nDraw (g : Power → Power) : (s.modPower g).nDraw = s.nDraw := rfl
@[simp] theorem State.modPower_tick (g : Power → Power) : (s.modPower g).tick = s.tick := rfl
@[simp] theorem State.modPower_regs (g : Power → Power) : (s.modPower g).regs = s.regs := rfl
@[simp] theorem State.modPower_held64 (g : Power → Power) : (s.modPower g).held64 = s.held64 := rfl
@[simp] theorem State.modPower_latch64 (g : Power → Power) : (s.modPower g).latch64 = s.latch64 := rfl
@[simp] theorem State.modPower_mem (g : Power → Power) : (s.modPower g).mem = s.mem := rfl
@[simp] theorem State.modPower_poison (g : Power → Power) : (s.modPower g).poison = s.poison := rfl
@[simp] theorem State.modPower_hostMem (g : Power → Power) : (s.modPower g).hostMem = s.hostMem := rfl
@[simp] theorem State.modPower_clusters (g : Power → Power) : (s.modPower g).clusters = s.clusters := rfl
@[simp] theorem State.modPower_parts (g : Power → Power) : (s.modPower g).parts = s.parts := rfl
@[simp] theorem State.modPower_wings (g : Power → Power) : (s.modPower g).wings = s.wings := rfl
@[simp] theorem State.modPower_scales (g : Power → Power) : (s.modPower g).scales = s.scales := rfl
@[simp] theorem State.modPower_ports (g : Power → Power) : (s.modPower g).ports = s.ports := rfl
@[simp] theorem State.modPower_fabric (g : Power → Power) : (s.modPower g).fabric = s.fabric := rfl
@[simp] theorem State.modPower_security (g : Power → Power) : (s.modPower g).security = s.security := rfl
@[simp] theorem State.modPower_counters (g : Power → Power) : (s.modPower g).counters = s.counters := rfl
@[simp] theorem State.modPower_records (g : Power → Power) : (s.modPower g).records = s.records := rfl
@[simp] theorem State.modPower_converters (g : Power → Power) : (s.modPower g).converters = s.converters := rfl
@[simp] theorem State.modPower_userGo (g : Power → Power) : (s.modPower g).userGo = s.userGo := rfl
@[simp] theorem State.modPower_resetting (g : Power → Power) : (s.modPower g).resetting = s.resetting := rfl
@[simp] theorem State.modPower_engineResets (g : Power → Power) : (s.modPower g).engineResets = s.engineResets := rfl
@[simp] theorem State.modPower_wearFlash (g : Power → Power) : (s.modPower g).wearFlash = s.wearFlash := rfl
@[simp] theorem State.modPower_strapSris (g : Power → Power) : (s.modPower g).strapSris = s.strapSris := rfl
@[simp] theorem State.modPower_strapSmb (g : Power → Power) : (s.modPower g).strapSmb = s.strapSmb := rfl
@[simp] theorem State.modPower_perstLow (g : Power → Power) : (s.modPower g).perstLow = s.perstLow := rfl
@[simp] theorem State.modPower_killLow (g : Power → Power) : (s.modPower g).killLow = s.killLow := rfl
@[simp] theorem State.modPower_powered (g : Power → Power) : (s.modPower g).powered = s.powered := rfl
@[simp] theorem State.modPower_bound (g : Power → Power) : (s.modPower g).bound = s.bound := rfl
@[simp] theorem State.modPower_featWritten (g : Power → Power) : (s.modPower g).featWritten = s.featWritten := rfl
@[simp] theorem State.modPower_acc_rd (g : Power → Power) (pg' : Page) (f' : Field) : (s.modPower g).rd pg' f' = s.rd pg' f' := rfl
@[simp] theorem State.modPower_acc_byte (g : Power → Power) (a' : Nat) : (s.modPower g).byte a' = s.byte a' := rfl
@[simp] theorem State.modPower_acc_hostByte (g : Power → Power) (a' : Nat) : (s.modPower g).hostByte a' = s.hostByte a' := rfl
@[simp] theorem State.modPower_acc_part (g : Power → Power) (q : Nat) : (s.modPower g).part q = s.part q := rfl
@[simp] theorem State.modPower_acc_cluster (g : Power → Power) (q d : Nat) : (s.modPower g).cluster q d = s.cluster q d := rfl
@[simp] theorem State.modPower_acc_wing (g : Power → Power) (q d : Nat) : (s.modPower g).wing q d = s.wing q d := rfl
@[simp] theorem State.modPower_acc_scale (g : Power → Power) (q d e g' : Nat) : (s.modPower g).scale q d e g' = s.scale q d e g' := rfl
@[simp] theorem State.modPower_acc_port (g : Power → Power) (q : Nat) : (s.modPower g).port q = s.port q := rfl
@[simp] theorem State.modPower_acc_counter (g : Power → Power) (q : Nat) : (s.modPower g).counter q = s.counter q := rfl
@[simp] theorem State.modPower_acc_converter (g : Power → Power) (q : Nat) : (s.modPower g).converter q = s.converter q := rfl

/-! `State.modSecurity` changes security alone. -/
@[simp] theorem State.modSecurity_pending (g : Security → Security) : (s.modSecurity g).pending = s.pending := rfl
@[simp] theorem State.modSecurity_held (g : Security → Security) : (s.modSecurity g).held = s.held := rfl
@[simp] theorem State.modSecurity_cycle (g : Security → Security) : (s.modSecurity g).cycle = s.cycle := rfl
@[simp] theorem State.modSecurity_moved (g : Security → Security) : (s.modSecurity g).moved = s.moved := rfl
@[simp] theorem State.modSecurity_answer (g : Security → Security) : (s.modSecurity g).answer = s.answer := rfl
@[simp] theorem State.modSecurity_sent (g : Security → Security) : (s.modSecurity g).sent = s.sent := rfl
@[simp] theorem State.modSecurity_nDraw (g : Security → Security) : (s.modSecurity g).nDraw = s.nDraw := rfl
@[simp] theorem State.modSecurity_tick (g : Security → Security) : (s.modSecurity g).tick = s.tick := rfl
@[simp] theorem State.modSecurity_regs (g : Security → Security) : (s.modSecurity g).regs = s.regs := rfl
@[simp] theorem State.modSecurity_held64 (g : Security → Security) : (s.modSecurity g).held64 = s.held64 := rfl
@[simp] theorem State.modSecurity_latch64 (g : Security → Security) : (s.modSecurity g).latch64 = s.latch64 := rfl
@[simp] theorem State.modSecurity_mem (g : Security → Security) : (s.modSecurity g).mem = s.mem := rfl
@[simp] theorem State.modSecurity_poison (g : Security → Security) : (s.modSecurity g).poison = s.poison := rfl
@[simp] theorem State.modSecurity_hostMem (g : Security → Security) : (s.modSecurity g).hostMem = s.hostMem := rfl
@[simp] theorem State.modSecurity_clusters (g : Security → Security) : (s.modSecurity g).clusters = s.clusters := rfl
@[simp] theorem State.modSecurity_parts (g : Security → Security) : (s.modSecurity g).parts = s.parts := rfl
@[simp] theorem State.modSecurity_wings (g : Security → Security) : (s.modSecurity g).wings = s.wings := rfl
@[simp] theorem State.modSecurity_scales (g : Security → Security) : (s.modSecurity g).scales = s.scales := rfl
@[simp] theorem State.modSecurity_ports (g : Security → Security) : (s.modSecurity g).ports = s.ports := rfl
@[simp] theorem State.modSecurity_fabric (g : Security → Security) : (s.modSecurity g).fabric = s.fabric := rfl
@[simp] theorem State.modSecurity_power (g : Security → Security) : (s.modSecurity g).power = s.power := rfl
@[simp] theorem State.modSecurity_counters (g : Security → Security) : (s.modSecurity g).counters = s.counters := rfl
@[simp] theorem State.modSecurity_records (g : Security → Security) : (s.modSecurity g).records = s.records := rfl
@[simp] theorem State.modSecurity_converters (g : Security → Security) : (s.modSecurity g).converters = s.converters := rfl
@[simp] theorem State.modSecurity_userGo (g : Security → Security) : (s.modSecurity g).userGo = s.userGo := rfl
@[simp] theorem State.modSecurity_resetting (g : Security → Security) : (s.modSecurity g).resetting = s.resetting := rfl
@[simp] theorem State.modSecurity_engineResets (g : Security → Security) : (s.modSecurity g).engineResets = s.engineResets := rfl
@[simp] theorem State.modSecurity_wearFlash (g : Security → Security) : (s.modSecurity g).wearFlash = s.wearFlash := rfl
@[simp] theorem State.modSecurity_strapSris (g : Security → Security) : (s.modSecurity g).strapSris = s.strapSris := rfl
@[simp] theorem State.modSecurity_strapSmb (g : Security → Security) : (s.modSecurity g).strapSmb = s.strapSmb := rfl
@[simp] theorem State.modSecurity_perstLow (g : Security → Security) : (s.modSecurity g).perstLow = s.perstLow := rfl
@[simp] theorem State.modSecurity_killLow (g : Security → Security) : (s.modSecurity g).killLow = s.killLow := rfl
@[simp] theorem State.modSecurity_powered (g : Security → Security) : (s.modSecurity g).powered = s.powered := rfl
@[simp] theorem State.modSecurity_bound (g : Security → Security) : (s.modSecurity g).bound = s.bound := rfl
@[simp] theorem State.modSecurity_featWritten (g : Security → Security) : (s.modSecurity g).featWritten = s.featWritten := rfl
@[simp] theorem State.modSecurity_acc_rd (g : Security → Security) (pg' : Page) (f' : Field) : (s.modSecurity g).rd pg' f' = s.rd pg' f' := rfl
@[simp] theorem State.modSecurity_acc_byte (g : Security → Security) (a' : Nat) : (s.modSecurity g).byte a' = s.byte a' := rfl
@[simp] theorem State.modSecurity_acc_hostByte (g : Security → Security) (a' : Nat) : (s.modSecurity g).hostByte a' = s.hostByte a' := rfl
@[simp] theorem State.modSecurity_acc_part (g : Security → Security) (q : Nat) : (s.modSecurity g).part q = s.part q := rfl
@[simp] theorem State.modSecurity_acc_cluster (g : Security → Security) (q d : Nat) : (s.modSecurity g).cluster q d = s.cluster q d := rfl
@[simp] theorem State.modSecurity_acc_wing (g : Security → Security) (q d : Nat) : (s.modSecurity g).wing q d = s.wing q d := rfl
@[simp] theorem State.modSecurity_acc_scale (g : Security → Security) (q d e g' : Nat) : (s.modSecurity g).scale q d e g' = s.scale q d e g' := rfl
@[simp] theorem State.modSecurity_acc_port (g : Security → Security) (q : Nat) : (s.modSecurity g).port q = s.port q := rfl
@[simp] theorem State.modSecurity_acc_counter (g : Security → Security) (q : Nat) : (s.modSecurity g).counter q = s.counter q := rfl
@[simp] theorem State.modSecurity_acc_converter (g : Security → Security) (q : Nat) : (s.modSecurity g).converter q = s.converter q := rfl

/-! `State.emit` changes sent alone. -/
@[simp] theorem State.emit_pending (x : Sent) : (s.emit x).pending = s.pending := rfl
@[simp] theorem State.emit_held (x : Sent) : (s.emit x).held = s.held := rfl
@[simp] theorem State.emit_cycle (x : Sent) : (s.emit x).cycle = s.cycle := rfl
@[simp] theorem State.emit_moved (x : Sent) : (s.emit x).moved = s.moved := rfl
@[simp] theorem State.emit_answer (x : Sent) : (s.emit x).answer = s.answer := rfl
@[simp] theorem State.emit_nDraw (x : Sent) : (s.emit x).nDraw = s.nDraw := rfl
@[simp] theorem State.emit_tick (x : Sent) : (s.emit x).tick = s.tick := rfl
@[simp] theorem State.emit_regs (x : Sent) : (s.emit x).regs = s.regs := rfl
@[simp] theorem State.emit_held64 (x : Sent) : (s.emit x).held64 = s.held64 := rfl
@[simp] theorem State.emit_latch64 (x : Sent) : (s.emit x).latch64 = s.latch64 := rfl
@[simp] theorem State.emit_mem (x : Sent) : (s.emit x).mem = s.mem := rfl
@[simp] theorem State.emit_poison (x : Sent) : (s.emit x).poison = s.poison := rfl
@[simp] theorem State.emit_hostMem (x : Sent) : (s.emit x).hostMem = s.hostMem := rfl
@[simp] theorem State.emit_clusters (x : Sent) : (s.emit x).clusters = s.clusters := rfl
@[simp] theorem State.emit_parts (x : Sent) : (s.emit x).parts = s.parts := rfl
@[simp] theorem State.emit_wings (x : Sent) : (s.emit x).wings = s.wings := rfl
@[simp] theorem State.emit_scales (x : Sent) : (s.emit x).scales = s.scales := rfl
@[simp] theorem State.emit_ports (x : Sent) : (s.emit x).ports = s.ports := rfl
@[simp] theorem State.emit_fabric (x : Sent) : (s.emit x).fabric = s.fabric := rfl
@[simp] theorem State.emit_power (x : Sent) : (s.emit x).power = s.power := rfl
@[simp] theorem State.emit_security (x : Sent) : (s.emit x).security = s.security := rfl
@[simp] theorem State.emit_counters (x : Sent) : (s.emit x).counters = s.counters := rfl
@[simp] theorem State.emit_records (x : Sent) : (s.emit x).records = s.records := rfl
@[simp] theorem State.emit_converters (x : Sent) : (s.emit x).converters = s.converters := rfl
@[simp] theorem State.emit_userGo (x : Sent) : (s.emit x).userGo = s.userGo := rfl
@[simp] theorem State.emit_resetting (x : Sent) : (s.emit x).resetting = s.resetting := rfl
@[simp] theorem State.emit_engineResets (x : Sent) : (s.emit x).engineResets = s.engineResets := rfl
@[simp] theorem State.emit_wearFlash (x : Sent) : (s.emit x).wearFlash = s.wearFlash := rfl
@[simp] theorem State.emit_strapSris (x : Sent) : (s.emit x).strapSris = s.strapSris := rfl
@[simp] theorem State.emit_strapSmb (x : Sent) : (s.emit x).strapSmb = s.strapSmb := rfl
@[simp] theorem State.emit_perstLow (x : Sent) : (s.emit x).perstLow = s.perstLow := rfl
@[simp] theorem State.emit_killLow (x : Sent) : (s.emit x).killLow = s.killLow := rfl
@[simp] theorem State.emit_powered (x : Sent) : (s.emit x).powered = s.powered := rfl
@[simp] theorem State.emit_bound (x : Sent) : (s.emit x).bound = s.bound := rfl
@[simp] theorem State.emit_featWritten (x : Sent) : (s.emit x).featWritten = s.featWritten := rfl
@[simp] theorem State.emit_acc_rd (x : Sent) (pg' : Page) (f' : Field) : (s.emit x).rd pg' f' = s.rd pg' f' := rfl
@[simp] theorem State.emit_acc_byte (x : Sent) (a' : Nat) : (s.emit x).byte a' = s.byte a' := rfl
@[simp] theorem State.emit_acc_hostByte (x : Sent) (a' : Nat) : (s.emit x).hostByte a' = s.hostByte a' := rfl
@[simp] theorem State.emit_acc_part (x : Sent) (q : Nat) : (s.emit x).part q = s.part q := rfl
@[simp] theorem State.emit_acc_cluster (x : Sent) (q d : Nat) : (s.emit x).cluster q d = s.cluster q d := rfl
@[simp] theorem State.emit_acc_wing (x : Sent) (q d : Nat) : (s.emit x).wing q d = s.wing q d := rfl
@[simp] theorem State.emit_acc_scale (x : Sent) (q d e g' : Nat) : (s.emit x).scale q d e g' = s.scale q d e g' := rfl
@[simp] theorem State.emit_acc_port (x : Sent) (q : Nat) : (s.emit x).port q = s.port q := rfl
@[simp] theorem State.emit_acc_counter (x : Sent) (q : Nat) : (s.emit x).counter q = s.counter q := rfl
@[simp] theorem State.emit_acc_converter (x : Sent) (q : Nat) : (s.emit x).converter q = s.converter q := rfl

/-! What was written is what is read; another instance reads as before. -/

theorem State.part_setPart (p q : Nat) (x : Part) : (s.setPart p x).part q = if p = q then x else s.part q := by
  simp [State.part, State.setPart, mapGet_set]
@[simp] theorem State.part_setPart_same (p : Nat) (x : Part) : (s.setPart p x).part p = x := by simp [State.part_setPart]
theorem State.part_setPart_ne (p q : Nat) (x : Part) (h : q ≠ p) : (s.setPart p x).part q = s.part q := by
  simp [State.part_setPart, Ne.symm h]
theorem State.port_setPort (i j : Nat) (x : Port) : (s.setPort i x).port j = if i = j then x else s.port j := by
  simp [State.port, State.setPort, mapGet_set]
@[simp] theorem State.port_setPort_same (i : Nat) (x : Port) : (s.setPort i x).port i = x := by simp [State.port_setPort]
theorem State.counter_setCounter (i j : Nat) (x : Counter) : (s.setCounter i x).counter j = if i = j then x else s.counter j := by
  simp [State.counter, State.setCounter, mapGet_set]
@[simp] theorem State.counter_setCounter_same (i : Nat) (x : Counter) : (s.setCounter i x).counter i = x := by
  simp [State.counter_setCounter]
theorem State.converter_setConverter (i j : Nat) (x : Converter) :
    (s.setConverter i x).converter j = if i = j then x else s.converter j := by
  simp [State.converter, State.setConverter, mapGet_set]
@[simp] theorem State.converter_setConverter_same (i : Nat) (x : Converter) : (s.setConverter i x).converter i = x := by
  simp [State.converter_setConverter]
@[simp] theorem State.cluster_setCluster_same (p c : Nat) (x : Cluster) : (s.setCluster p c x).cluster p c = x := by
  simp [State.cluster, State.setCluster, mapGet_set]
/-- Another cluster, of the 26 of a partition (R150), reads as before. -/
theorem State.cluster_setCluster_ne (p c q d : Nat) (x : Cluster) (hc : c < 26) (hd : d < 26) (h : (q, d) ≠ (p, c)) :
    (s.setCluster p c x).cluster q d = s.cluster q d := by
  have : clusterKey p c ≠ clusterKey q d := by
    simp only [clusterKey, ne_eq, Prod.mk.injEq] at *
    omega
  simp [State.cluster, State.setCluster, mapGet_set, this]
@[simp] theorem State.wing_setWing_same (p w : Nat) (x : Wing) : (s.setWing p w x).wing p w = x := by
  simp [State.wing, State.setWing, mapGet_set]
/-- Another wing, of the 9 of a stack (R42), reads as before. -/
theorem State.wing_setWing_ne (p w q d : Nat) (x : Wing) (hw : w < 9) (hd : d < 9) (h : (q, d) ≠ (p, w)) :
    (s.setWing p w x).wing q d = s.wing q d := by
  have : wingKey p w ≠ wingKey q d := by
    simp only [wingKey, ne_eq, Prod.mk.injEq] at *
    omega
  simp [State.wing, State.setWing, mapGet_set, this]
@[simp] theorem State.scale_setScale_same (p w b sc : Nat) (x : Scale) : (s.setScale p w b sc x).scale p w b sc = x := by
  simp [State.scale, State.setScale, mapGet_set]
/-- Another scale, of the 528 of a bank (R42), reads as before. -/
theorem State.scale_setScale_ne (p w b sc q d e g : Nat) (x : Scale) (h : scaleKey p w b sc ≠ scaleKey q d e g) :
    (s.setScale p w b sc x).scale q d e g = s.scale q d e g := by
  simp [State.scale, State.setScale, mapGet, mapFind_set_ne _ _ _ _ _ h]

@[simp] theorem State.modPart_eq (p : Nat) (f : Part → Part) : s.modPart p f = s.setPart p (f (s.part p)) := rfl
@[simp] theorem State.modSeq_eq (p : Nat) (f : Seq → Seq) :
    s.modSeq p f = s.setPart p { s.part p with seq := f (s.part p).seq } := rfl
@[simp] theorem State.modHitch_eq (p : Nat) (f : Hitch → Hitch) :
    s.modHitch p f = s.setPart p { s.part p with hitch := f (s.part p).hitch } := rfl
@[simp] theorem State.modCluster_eq (p c : Nat) (f : Cluster → Cluster) :
    s.modCluster p c f = s.setCluster p c (f (s.cluster p c)) := rfl
@[simp] theorem State.modWing_eq (p w : Nat) (f : Wing → Wing) : s.modWing p w f = s.setWing p w (f (s.wing p w)) := rfl
@[simp] theorem State.modCal_eq (p w : Nat) (f : WingCal → WingCal) :
    s.modCal p w f = s.setWing p w { s.wing p w with cal := f (s.wing p w).cal } := rfl
@[simp] theorem State.modScale_eq (p w b sc : Nat) (f : Scale → Scale) :
    s.modScale p w b sc f = s.setScale p w b sc (f (s.scale p w b sc)) := rfl
@[simp] theorem State.modPort_eq (i : Nat) (f : Port → Port) : s.modPort i f = s.setPort i (f (s.port i)) := rfl
@[simp] theorem State.modCounter_eq (n : Nat) (f : Counter → Counter) :
    s.modCounter n f = s.setCounter n (f (s.counter n)) := rfl
@[simp] theorem State.modFabric_fabric (g : Fabric → Fabric) : (s.modFabric g).fabric = g s.fabric := rfl
@[simp] theorem State.modPower_power (g : Power → Power) : (s.modPower g).power = g s.power := rfl
@[simp] theorem State.modSecurity_security (g : Security → Security) : (s.modSecurity g).security = g s.security := rfl
@[simp] theorem State.emit_sent (x : Sent) : (s.emit x).sent = s.sent ++ [x] := rfl

end Sys2Proof.Machine
end

