-- ==== Sys2Proof/Laws/Ops.lean ====
section
/-! SUPPORT. What the shared operations do, said once: registers, memory, interrupt bits, error counters. -/
namespace Sys2Proof.Machine

/-! Registers -/

/-- A written field reads as what was written, cut to its width. -/
@[simp] theorem State.rd_wr_same (s : State) (pg : Page) (f : Field) (v : Nat) : (s.wr pg f v).rd pg f = v % 2 ^ f.width := by
  simp [State.rd, State.wr]

/-- A field at another place reads as before. -/
theorem State.rd_wr_ne (s : State) (pg pg' : Page) (f f' : Field) (v : Nat) (h : regKey pg f ≠ regKey pg' f') :
    (s.wr pg f v).rd pg' f' = s.rd pg' f' := by
  simp only [State.rd, State.wr, mapGet, mapFind_set_ne _ _ _ _ _ h]

/-! Frames -/

theorem RegsBut.refl (s : State) (ks : List Nat) : RegsBut s s ks := fun _ _ _ => rfl

theorem RegsBut.trans {s t u : State} {ks ks' : List Nat} (h : RegsBut s t ks) (h' : RegsBut t u ks') : RegsBut s u (ks ++ ks') := by
  intro pg f hn
  simp only [List.mem_append, not_or] at hn
  rw [h' pg f hn.2, h pg f hn.1]

theorem RegsBut.mono {s t : State} {ks ks' : List Nat} (h : RegsBut s t ks) (hs : ∀ k ∈ ks, k ∈ ks') : RegsBut s t ks' :=
  fun pg f hn => h pg f (fun hk => hn (hs _ hk))

theorem OnlyRegs.refl (s : State) (ks : List Nat) : OnlyRegs s s ks := ⟨rfl, RegsBut.refl s ks⟩

theorem OnlyRegs.trans {s t u : State} {ks ks' : List Nat} (h : OnlyRegs s t ks) (h' : OnlyRegs t u ks') :
    OnlyRegs s u (ks ++ ks') := by
  refine ⟨?_, h.2.trans h'.2⟩
  rw [h'.1, h.1]

theorem OnlyRegs.mono {s t : State} {ks ks' : List Nat} (h : OnlyRegs s t ks) (hs : ∀ k ∈ ks, k ∈ ks') : OnlyRegs s t ks' :=
  ⟨h.1, h.2.mono hs⟩

theorem OnlyRegs.sameMemory {s t : State} {ks : List Nat} (h : OnlyRegs s t ks) : SameMemory s t := by
  rw [h.1]
  exact ⟨fun _ => rfl, fun _ => rfl, rfl⟩

/-! What such a change leaves as it was. -/

theorem OnlyRegs.answer {s t : State} {ks : List Nat} (h : OnlyRegs s t ks) : t.answer = s.answer := by rw [h.1]
theorem OnlyRegs.nDraw {s t : State} {ks : List Nat} (h : OnlyRegs s t ks) : t.nDraw = s.nDraw := by rw [h.1]
theorem OnlyRegs.tick {s t : State} {ks : List Nat} (h : OnlyRegs s t ks) : t.tick = s.tick := by rw [h.1]
theorem OnlyRegs.held64 {s t : State} {ks : List Nat} (h : OnlyRegs s t ks) : t.held64 = s.held64 := by rw [h.1]
theorem OnlyRegs.latch64 {s t : State} {ks : List Nat} (h : OnlyRegs s t ks) : t.latch64 = s.latch64 := by rw [h.1]
theorem OnlyRegs.mem {s t : State} {ks : List Nat} (h : OnlyRegs s t ks) : t.mem = s.mem := by rw [h.1]
theorem OnlyRegs.poison {s t : State} {ks : List Nat} (h : OnlyRegs s t ks) : t.poison = s.poison := by rw [h.1]
theorem OnlyRegs.hostMem {s t : State} {ks : List Nat} (h : OnlyRegs s t ks) : t.hostMem = s.hostMem := by rw [h.1]
theorem OnlyRegs.clusters {s t : State} {ks : List Nat} (h : OnlyRegs s t ks) : t.clusters = s.clusters := by rw [h.1]
theorem OnlyRegs.parts {s t : State} {ks : List Nat} (h : OnlyRegs s t ks) : t.parts = s.parts := by rw [h.1]
theorem OnlyRegs.wings {s t : State} {ks : List Nat} (h : OnlyRegs s t ks) : t.wings = s.wings := by rw [h.1]
theorem OnlyRegs.scales {s t : State} {ks : List Nat} (h : OnlyRegs s t ks) : t.scales = s.scales := by rw [h.1]
theorem OnlyRegs.ports {s t : State} {ks : List Nat} (h : OnlyRegs s t ks) : t.ports = s.ports := by rw [h.1]
theorem OnlyRegs.fabric {s t : State} {ks : List Nat} (h : OnlyRegs s t ks) : t.fabric = s.fabric := by rw [h.1]
theorem OnlyRegs.power {s t : State} {ks : List Nat} (h : OnlyRegs s t ks) : t.power = s.power := by rw [h.1]
theorem OnlyRegs.security {s t : State} {ks : List Nat} (h : OnlyRegs s t ks) : t.security = s.security := by rw [h.1]
theorem OnlyRegs.counters {s t : State} {ks : List Nat} (h : OnlyRegs s t ks) : t.counters = s.counters := by rw [h.1]
theorem OnlyRegs.records {s t : State} {ks : List Nat} (h : OnlyRegs s t ks) : t.records = s.records := by rw [h.1]
theorem OnlyRegs.converters {s t : State} {ks : List Nat} (h : OnlyRegs s t ks) : t.converters = s.converters := by rw [h.1]
theorem OnlyRegs.userGo {s t : State} {ks : List Nat} (h : OnlyRegs s t ks) : t.userGo = s.userGo := by rw [h.1]
theorem OnlyRegs.resetting {s t : State} {ks : List Nat} (h : OnlyRegs s t ks) : t.resetting = s.resetting := by rw [h.1]
theorem OnlyRegs.engineResets {s t : State} {ks : List Nat} (h : OnlyRegs s t ks) : t.engineResets = s.engineResets := by rw [h.1]
theorem OnlyRegs.pending {s t : State} {ks : List Nat} (h : OnlyRegs s t ks) : t.pending = s.pending := by rw [h.1]
theorem OnlyRegs.acc_byte {s t : State} {ks : List Nat} (h : OnlyRegs s t ks) (a : Nat) : t.byte a = s.byte a := by rw [h.1]; rfl
theorem OnlyRegs.acc_hostByte {s t : State} {ks : List Nat} (h : OnlyRegs s t ks) (a : Nat) : t.hostByte a = s.hostByte a := by rw [h.1]; rfl
theorem OnlyRegs.acc_part {s t : State} {ks : List Nat} (h : OnlyRegs s t ks) (q : Nat) : t.part q = s.part q := by rw [h.1]; rfl
theorem OnlyRegs.acc_cluster {s t : State} {ks : List Nat} (h : OnlyRegs s t ks) (q d : Nat) : t.cluster q d = s.cluster q d := by rw [h.1]; rfl
theorem OnlyRegs.acc_wing {s t : State} {ks : List Nat} (h : OnlyRegs s t ks) (q d : Nat) : t.wing q d = s.wing q d := by rw [h.1]; rfl
theorem OnlyRegs.acc_scale {s t : State} {ks : List Nat} (h : OnlyRegs s t ks) (q d e g : Nat) : t.scale q d e g = s.scale q d e g := by rw [h.1]; rfl
theorem OnlyRegs.acc_port {s t : State} {ks : List Nat} (h : OnlyRegs s t ks) (q : Nat) : t.port q = s.port q := by rw [h.1]; rfl
theorem OnlyRegs.acc_counter {s t : State} {ks : List Nat} (h : OnlyRegs s t ks) (q : Nat) : t.counter q = s.counter q := by rw [h.1]; rfl
theorem OnlyRegs.acc_converter {s t : State} {ks : List Nat} (h : OnlyRegs s t ks) (q : Nat) : t.converter q = s.converter q := by rw [h.1]; rfl

theorem State.wr_only (s : State) (pg : Page) (f : Field) (v : Nat) : OnlyRegs s (s.wr pg f v) [regKey pg f] := by
  refine ⟨rfl, ?_⟩
  intro pg' f' hn
  simp only [List.mem_singleton] at hn
  exact s.rd_wr_ne pg pg' f f' v (fun h => hn h.symm)

theorem State.addReg_only (s : State) (pg : Page) (f : Field) (n : Nat) : OnlyRegs s (s.addReg pg f n) [regKey pg f] := s.wr_only pg f _

theorem State.wrAll_only (s : State) (pg : Page) (l : List (Field × Nat)) :
    OnlyRegs s (s.wrAll pg l) (l.map (fun x => regKey pg x.1)) := by
  induction l generalizing s with
  | nil => exact OnlyRegs.refl s _
  | cons x l ih => exact ((s.wr_only pg x.1 x.2).trans (ih (s.wr pg x.1 x.2))).mono (by simp)

theorem State.emit_only (s : State) (x : Sent) : OnlyRegs s (s.emit x) [] := ⟨rfl, fun _ _ _ => rfl⟩

/-! Interrupt bits (R489, R494) -/

theorem State.sendVector_only (s : State) (v : Nat) : OnlyRegs s (s.sendVector v) [regKey .hif (HIF_PBA v)] := by
  unfold State.sendVector
  split
  · exact s.wr_only _ _ _
  · exact (s.emit_only _).mono (by simp)

theorem State.raise_only (s : State) (pg : Page) (b : Nat) : OnlyRegs s (s.raise pg b) (raiseKeys pg b) := by
  unfold State.raise State.signalFrom State.signalFrom
  split
  · exact ((s.wr_only pg (HDR_INT b) 1).trans (State.sendVector_only _ _)).mono (by simp [raiseKeys])
  · exact (s.wr_only pg (HDR_INT b) 1).mono (by simp [raiseKeys])

/-! Pages lie apart (R477) -/

/-- Offset, place and size of a page are such that a field of one is no field of another within the page's first 4 KiB. -/
theorem Page.base_mod (pg : Page) : pg.base % 0x1000 = 0 := by
  cases pg <;> simp only [Page.base] <;> omega

/-- A field's key gives the page's base and the field's place in the page. -/
theorem regKey_split (pg pg' : Page) (f f' : Field) (hf : 8 * f.off + f.lo < 0x8000) (hf' : 8 * f'.off + f'.lo < 0x8000)
    (h : regKey pg f = regKey pg' f') : pg.base = pg'.base ∧ 8 * f.off + f.lo = 8 * f'.off + f'.lo := by
  have := Page.base_mod pg
  have := Page.base_mod pg'
  simp only [regKey] at h
  omega

/-- Fields at different places of their pages are different fields, whatever the pages. -/
theorem regKey_ne_of_place (pg pg' : Page) (f f' : Field) (hf : 8 * f.off + f.lo < 0x8000) (hf' : 8 * f'.off + f'.lo < 0x8000)
    (h : 8 * f.off + f.lo ≠ 8 * f'.off + f'.lo) : regKey pg f ≠ regKey pg' f' :=
  fun hk => h (regKey_split pg pg' f f' hf hf' hk).2

/-- Fields of different pages are different fields. -/
theorem regKey_ne_of_base (pg pg' : Page) (f f' : Field) (hf : 8 * f.off + f.lo < 0x8000) (hf' : 8 * f'.off + f'.lo < 0x8000)
    (h : pg.base ≠ pg'.base) : regKey pg f ≠ regKey pg' f' :=
  fun hk => h (regKey_split pg pg' f f' hf hf' hk).1

/-- INT_STATUS bits are no pending bits of the MSI-X table. -/
theorem int_ne_pba (pg : Page) (b v : Nat) (hb : b < 32) (hv : v < 16) : regKey pg (HDR_INT b) ≠ regKey .hif (HIF_PBA v) := by
  intro h
  have := (regKey_split pg .hif (HDR_INT b) (HIF_PBA v) (by simp [HDR_INT]; omega) (by simp [HIF_PBA]; omega) h).2
  simp [HDR_INT, HIF_PBA] at this
  omega

/-- A raised bit reads 1. -/
theorem State.rd_raise (s : State) (pg : Page) (b : Nat) (hb : b < 32) (hv : pg.vector < 16) :
    (s.raise pg b).rd pg (HDR_INT b) = 1 := by
  have h0 : ((s.wr pg (HDR_INT b) 1)).rd pg (HDR_INT b) = 1 := by simp [HDR_INT]
  unfold State.raise State.signalFrom State.signalFrom
  split
  · rw [(State.sendVector_only _ _).2 pg (HDR_INT b) (by simpa using int_ne_pba pg b _ hb hv), h0]
  · exact h0

/-! Error counters (R377, R378) -/

theorem State.markMap_only (s : State) (pg : Page) :
    OnlyRegs s (s.markMap pg) (regKey .mgt (MGT_ERR_MAP_pages (pg.mapIndex / 32)) :: raiseKeys .mgt MGT_INT_map_moved) := by
  unfold State.markMap
  dsimp only
  split
  · exact OnlyRegs.refl s _
  · exact ((s.wr_only _ _ _).trans (State.raise_only _ _ _)).mono (by simp)

theorem State.bump_only (s : State) (pg : Page) (n : Nat) : OnlyRegs s (s.bump pg n) (bumpKeys pg n) := by
  unfold State.bump
  dsimp only
  split
  · exact OnlyRegs.refl s _
  · split
    · exact ((((s.wr_only _ _ _).trans (State.wr_only _ _ _ _)).trans (State.wr_only _ _ _ _)).trans (State.markMap_only _ _)).mono
        (by simp [bumpKeys])
    · exact (((s.wr_only _ _ _).trans (State.wr_only _ _ _ _)).trans (State.markMap_only _ _)).mono (by simp +contextual [bumpKeys])

theorem State.progress_only (s : State) (pg : Page) : OnlyRegs s (s.progress pg) [regKey pg HDR_PROGRESS] := s.addReg_only _ _ _

end Sys2Proof.Machine
end

