-- ==== Sys2Proof/Laws/Issue.lean ====
section
/-! SUPPORT. What issuing and completing a sequencer command do, said once (R268, R269, R470, R471). -/
namespace Sys2Proof.Machine

/-! Frames of sequencer commands -/

theorem SeqFrame.refl (s : State) (p : Nat) (ks : List Nat) : SeqFrame s s p ks := ⟨rfl, fun _ _ => rfl, RegsBut.refl s ks⟩

theorem SeqFrame.trans {s t u : State} {p : Nat} {ks ks' : List Nat} (h : SeqFrame s t p ks) (h' : SeqFrame t u p ks') :
    SeqFrame s u p (ks ++ ks') := by
  refine ⟨by rw [h'.1, h.1], ?_, h.2.2.trans h'.2.2⟩
  intro q hq
  rw [h'.2.1 q hq, h.2.1 q hq]

theorem SeqFrame.mono {s t : State} {p : Nat} {ks ks' : List Nat} (h : SeqFrame s t p ks) (hs : ∀ k ∈ ks, k ∈ ks') :
    SeqFrame s t p ks' := ⟨h.1, h.2.1, h.2.2.mono hs⟩

theorem OnlyRegs.seqFrame {s t : State} {ks : List Nat} (h : OnlyRegs s t ks) (p : Nat) : SeqFrame s t p ks := by
  refine ⟨?_, fun q _ => h.acc_part q, h.2⟩
  rw [h.1]

theorem State.setPart_frame (s : State) (p : Nat) (x : Part) : SeqFrame s (s.setPart p x) p [] :=
  ⟨rfl, fun q hq => s.part_setPart_ne p q x hq, fun _ _ _ => rfl⟩

theorem SeqFrame.sameMemory {s t : State} {p : Nat} {ks : List Nat} (h : SeqFrame s t p ks) : SameMemory s t := by
  rw [h.1]
  exact ⟨fun _ => rfl, fun _ => rfl, rfl⟩

/-! Stamps -/

@[simp] theorem State.toCycle_part (s : State) (q : Nat) : s.toCycle.part q = s.part q := rfl
@[simp] theorem State.toCycle_acc_rd (s : State) (pg : Page) (f : Field) : s.toCycle.rd pg f = s.rd pg f := rfl

theorem State.toCycle_frame (s : State) (p : Nat) : SeqFrame s s.toCycle p [] := ⟨rfl, fun _ _ => rfl, fun _ _ _ => rfl⟩

/-! Issue -/

theorem State.issue_regs (s : State) (p op : Nat) (c : Cmd) (l : Launch) (w : Work) :
    ∃ u, OnlyRegs s.toCycle u (bumpKeys .pmc 1) ∧ s.issue p op c l w = u.setPart p { s.part p with seq :=
      { (s.part p).seq with
        nextId := s.nextId p + 1, issuedN := (s.part p).seq.issuedN + 1, launches := s.launchesIssued p l
        inflight := (s.part p).seq.inflight ++ [s.toCycle.newCmd p op c l w] } } := by
  unfold State.issue
  generalize ht : s.toCycle = t
  have hs : s.part p = t.part p := by rw [← ht]; rfl
  simp only [State.nextId, State.launchesIssued, hs]
  by_cases hb : (t.tagSelects p (t.part p).seq.issuedN && !t.tagRoom p) = true
  · refine ⟨t.bump .pmc 1, t.bump_only _ _, ?_⟩
    simp only [hb, if_true, State.modSeq_eq, (t.bump_only .pmc 1).acc_part]
  · refine ⟨t, OnlyRegs.refl t _, ?_⟩
    simp only [hb]
    rfl

theorem State.issue_frame (s : State) (p op : Nat) (c : Cmd) (l : Launch) (w : Work) :
    SeqFrame s (s.issue p op c l w) p (bumpKeys .pmc 1) := by
  obtain ⟨u, hu, h⟩ := s.issue_regs p op c l w
  rw [h]
  exact (((s.toCycle_frame p).trans (hu.seqFrame p)).trans (u.setPart_frame p _)).mono (by simp)

theorem State.issue_part (s : State) (p op : Nat) (c : Cmd) (l : Launch) (w : Work) :
    (s.issue p op c l w).part p = { s.part p with seq :=
      { (s.part p).seq with
        nextId := s.nextId p + 1, issuedN := (s.part p).seq.issuedN + 1, launches := s.launchesIssued p l
        inflight := (s.part p).seq.inflight ++ [s.toCycle.newCmd p op c l w] } } := by
  obtain ⟨u, _, h⟩ := s.issue_regs p op c l w
  rw [h, State.part_setPart_same]

theorem State.issue_issued (s : State) (p op : Nat) (c : Cmd) (l : Launch) (w : Work) : Issued s (s.issue p op c l w) p op c l w := by
  simp [Issued, State.flight, State.nextId, State.issue_part, State.newCmd]

theorem State.tagStart_part (s : State) (p id : Nat) :
    ∃ f : Inflight → Inflight, (∀ x, { f x with tag := none } = ({ x with tag := none } : Inflight)) ∧
      (s.tagStart p id).part p = { s.part p with seq := { (s.part p).seq with inflight := (s.part p).seq.inflight.map f } } := by
  refine ⟨fun x => if x.id = id then
    { x with tag := x.tag.map (fun t => if t.started = 0 then { t with started := s.toCycle.nowNs } else t) } else x, ?_, ?_⟩
  · intro x
    dsimp only
    split <;> rfl
  · simp [State.tagStart, State.modTag]

theorem State.tagStart_frame (s : State) (p id : Nat) : SeqFrame s (s.tagStart p id) p [] := by
  simp only [State.tagStart, State.modTag, State.modSeq_eq]
  exact (s.toCycle_frame p).trans (s.toCycle.setPart_frame p _)

theorem State.tagStart_flight (s : State) (p id : Nat) : (s.tagStart p id).flight p = s.flight p := by
  obtain ⟨f, hf, h⟩ := s.tagStart_part p id
  simp [State.flight, h, Function.comp_def, hf]

theorem Issued.tagStart {s t : State} {p op : Nat} {c : Cmd} {l : Launch} {w : Work} (h : Issued s t p op c l w) (id : Nat) :
    Issued s (t.tagStart p id) p op c l w := by
  obtain ⟨f, _, hp⟩ := t.tagStart_part p id
  obtain ⟨h1, h2, h3, h4⟩ := h
  refine ⟨by rw [State.tagStart_flight, h1], ?_, ?_, ?_⟩
  · simpa [State.nextId, hp] using h2
  · simpa [hp] using h3
  · simpa [hp] using h4

/-- A change that leaves the partition's sequencer as it was leaves what has issued. -/
theorem Issued.of_seq {s t u : State} {p op : Nat} {c : Cmd} {l : Launch} {w : Work} (h : Issued s t p op c l w)
    (hu : (u.part p).seq = (t.part p).seq) : Issued s u p op c l w := by
  simpa [Issued, State.flight, State.nextId, hu] using h

theorem Issued.of_regs {s t u : State} {ks : List Nat} {p op : Nat} {c : Cmd} {l : Launch} {w : Work} (h : Issued s t p op c l w)
    (hu : OnlyRegs t u ks) : Issued s u p op c l w := h.of_seq (by rw [hu.acc_part])

/-! Completion -/

theorem State.tagEnd_frame (s : State) (p stop : Nat) (x : Inflight) : SeqFrame s (s.tagEnd p stop x) p tagKeys := by
  unfold State.tagEnd
  split
  · exact SeqFrame.refl s p _
  · split
    · dsimp only
      have h0 : ∀ r, SeqFrame s { s.toCycle with records := r } p [] := fun r => ⟨rfl, fun _ _ => rfl, fun _ _ _ => rfl⟩
      split
      · exact ((h0 _).trans ((((State.wr_only _ _ _ _).trans (State.wr_only _ _ _ _)).trans (State.raise_only _ _ _)).seqFrame p)).mono
          (by simp +contextual [tagKeys])
      · exact ((h0 _).trans ((State.wr_only _ _ _ _).seqFrame p)).mono (by simp [tagKeys])
    · exact SeqFrame.refl s p _

theorem State.tagEnd_part (s : State) (p stop : Nat) (x : Inflight) (q : Nat) : (s.tagEnd p stop x).part q = s.part q := by
  unfold State.tagEnd
  split
  · rfl
  · split
    · dsimp only
      split
      · rw [(State.raise_only _ _ _).acc_part]
        rfl
      · rfl
    · rfl

/-! Registers that tagging does not touch -/

theorem tagKeys_small : ∀ k ∈ tagKeys, k < 0x800_0000 := by
  unfold tagKeys
  decide

/-- No field of a partition page is among the fields that tagging changes. -/
theorem part_notin_tagKeys (pg : Page) (f : Field) (hp : 0x100_0000 ≤ pg.base) : regKey pg f ∉ tagKeys := by
  intro h
  have := tagKeys_small _ h
  simp only [regKey] at this
  omega

theorem thx_base (p : Nat) : 0x100_0000 ≤ (Page.thx p).base := by simp [Page.base]; omega

/-- A change of registers that keeps every partition's binding keeps the contexts. -/
theorem RegsBut.peers {s t : State} {ks : List Nat} (h : RegsBut s t ks)
    (hk : ∀ q, regKey (.thx q) THX_SEQ_CTX_valid ∉ ks ∧ regKey (.thx q) THX_SEQ_CTX_ctx ∉ ks) (p : Nat) : t.peers p = s.peers p := by
  have hc : ∀ q, t.ctx? q = s.ctx? q := by
    intro q
    simp only [State.ctx?, State.on, h _ _ (hk q).1, h _ _ (hk q).2]
    rfl
  simp only [State.peers, hc]

theorem State.fence_setPart (s : State) (p q n : Nat) (x : Part) (h : x.seq.fences = (s.part p).seq.fences) :
    (s.setPart p x).fence q n = s.fence q n := by
  simp only [State.fence, State.part_setPart]
  split
  · rename_i hq
    rw [h, hq]
  · rfl

theorem State.dropCmd_frame (s : State) (p id : Nat) :
    s.dropCmd p id = { s with parts := (s.dropCmd p id).parts, fabric := { s.fabric with colls := (s.dropCmd p id).fabric.colls } } ∧
    OnlyPart s (s.dropCmd p id) p ∧
    ((s.dropCmd p id).part p).seq = { (s.part p).seq with inflight := (s.part p).seq.inflight.filter (fun x => x.id != id) } := by
  refine ⟨rfl, ?_, ?_⟩
  · intro q hq
    simp [State.dropCmd, State.part_setPart_ne _ _ _ _ hq]
  · simp [State.dropCmd]

@[simp] theorem State.dropCmd_rd (s : State) (p id : Nat) (pg : Page) (f : Field) : (s.dropCmd p id).rd pg f = s.rd pg f := by
  simp [State.dropCmd]

/-- R268, R269: what completing a command does where the fence it signals lies in its context. -/
theorem State.complete_completed (s : State) (p : Nat) (x : Inflight) (hx : s.signalsInside p x) : Completed s (s.complete p x) p x := by
  obtain ⟨d1, d2, d3⟩ := s.dropCmd_frame p x.id
  generalize hd : s.dropCmd p x.id = d at d1 d2 d3
  generalize hm : d.modSeq p (fun q =>
    { q with launches := q.launches.map (fun l => if l.entry = x.launch then { l with completed := l.completed + 1 } else l) }) = m
  have m1 : m = d.setPart p { d.part p with seq := { (d.part p).seq with launches := d.launchesCompleted p x } } := by
    rw [← hm]
    rfl
  generalize he : m.tagEnd p 0 x = e
  have e1 := m.tagEnd_frame p 0 x
  have e2 := m.tagEnd_part p 0 x
  rw [he] at e1 e2
  generalize hg : e.progress (.thx p) = g
  have g1 := e.progress_only (.thx p)
  rw [hg] at g1
  have hc : s.complete p x = match x.sig with
    | none => g
    | some (q, n) => if (g.peers p).contains q then g.incFence q n else g := by
    have ho : s.signalsOutside p x = false := by
      unfold State.signalsOutside
      cases h : x.sig with
      | none => rfl
      | some e => simp only [hx e.1 e.2 h, Bool.not_true]
    simp only [State.complete, ho, Bool.false_eq_true, if_false, hd, hm, he, hg] <;> rfl
  have gr : RegsBut s g (tagKeys ++ [regKey (.thx p) HDR_PROGRESS]) := by
    intro pg f hn
    rw [List.mem_append, not_or] at hn
    rw [g1.2 pg f hn.2, e1.2.2 pg f hn.1, m1, State.setPart_acc_rd, ← hd, State.dropCmd_rd]
  have hrd : e.rd (.thx p) HDR_PROGRESS = s.rd (.thx p) HDR_PROGRESS := by
    rw [e1.2.2 _ _ (part_notin_tagKeys _ _ (thx_base p)), m1, State.setPart_acc_rd, ← hd, State.dropCmd_rd]
  have gp : g.rd (.thx p) HDR_PROGRESS = (s.rd (.thx p) HDR_PROGRESS + 1) % 2 ^ 32 := by
    rw [← hg, State.progress, State.addReg, State.rd_wr_same, hrd, show HDR_PROGRESS.width = 32 from rfl]
  have gpart : ∀ q, g.part q = m.part q := fun q => by rw [g1.acc_part, e2]
  have gseq : (g.part p).seq = { (s.part p).seq with
      inflight := (s.part p).seq.inflight.filter (fun y => y.id != x.id)
      launches := s.launchesCompleted p x } := by
    rw [gpart, m1, State.part_setPart_same]
    simp only [d3, State.launchesCompleted]
  have gother : ∀ q, q ≠ p → g.part q = s.part q := by
    intro q hq
    rw [gpart, m1, State.part_setPart_ne _ _ _ _ hq, d2 q hq]
  have gf : ∀ q n, g.fence q n = s.fence q n := by
    intro q n
    by_cases hq : q = p
    · subst hq
      simp only [State.fence, gseq]
    · simp only [State.fence, gother q hq]
  have gall : g = { s with regs := g.regs, sent := g.sent, parts := g.parts, records := g.records, nDraw := g.nDraw, cycle := g.cycle
                           fabric := { s.fabric with colls := g.fabric.colls } } := by
    rw [g1.1, e1.1, m1, d1]
    rfl
  have gflight : g.flight p = (s.flight p).filter (fun y => y.id != x.id) := by
    simp only [State.flight, gseq, List.filter_map]
    rfl
  have keys : RegsBut s g (regKey (.thx p) HDR_PROGRESS :: tagKeys) := by
    intro pg f hn
    refine gr pg f ?_
    simp only [List.mem_cons, List.mem_append, not_or, List.not_mem_nil, not_false_eq_true, and_true] at hn ⊢
    exact And.comm.1 hn
  rw [hc]
  cases hs : x.sig with
  | none =>
    exact ⟨gflight, by rw [gseq], gp, fun q n => by simp [hs, gf], gall, keys⟩
  | some e =>
    obtain ⟨q, n⟩ := e
    have hpe : g.peers p = s.peers p := keys.peers (by
      intro q
      have h1 := part_notin_tagKeys (.thx q) THX_SEQ_CTX_valid (thx_base q)
      have h2 := part_notin_tagKeys (.thx q) THX_SEQ_CTX_ctx (thx_base q)
      simp only [List.mem_cons, not_or]
      exact ⟨⟨regKey_ne_of_place _ _ _ _ (by decide) (by decide) (by decide), h1⟩,
        ⟨regKey_ne_of_place _ _ _ _ (by decide) (by decide) (by decide), h2⟩⟩) p
    have hin : (g.peers p).contains q = true := by
      rw [hpe]
      exact hx q n hs
    simp only [hin, if_true, State.incFence, State.modSeq_eq]
    refine ⟨?_, ?_, ?_, ?_, ?_, ?_⟩
    · by_cases hq : q = p
      · subst hq
        simpa [State.flight] using gflight
      · simpa [State.flight, State.part_setPart_ne _ _ _ _ (Ne.symm hq)] using gflight
    · by_cases hq : q = p
      · subst hq
        simp [gseq]
      · simp [State.part_setPart_ne _ _ _ _ (Ne.symm hq), gseq]
    · rw [State.setPart_acc_rd]
      exact gp
    · intro q' n'
      by_cases hq : q = q'
      · subst hq
        simp only [State.fence, State.part_setPart_same, mapGet_set, hs, Option.some.injEq, Prod.mk.injEq, true_and]
        have h0 := gf q
        simp only [State.fence] at h0
        by_cases hn : n = n'
        · subst hn
          rw [if_pos rfl, if_pos rfl, BitVec.toNat_add, h0, show (1 : BitVec 64).toNat = 1 from by decide]
        · rw [if_neg hn, if_neg hn, h0]
      · have hne : ¬(x.sig = some (q', n')) := by
          rw [hs]
          intro h
          exact hq (by injection h with h; exact (Prod.mk.inj h).1)
        rw [if_neg hne, ← gf q' n']
        simp only [State.fence, State.part_setPart_ne _ _ _ _ (Ne.symm hq)]
    · rw [gall]
      rfl
    · intro pg f hn
      rw [State.setPart_acc_rd]
      exact keys pg f hn

end Sys2Proof.Machine
end

