-- ==== Sys2Proof/Laws/Keeps.lean ====
section
/-! SUPPORT. What every command can do to the contents that outlast it, said once: a property of states that a short list of changes keeps is
kept by every command. The files KeepsX give one lemma for each operation of Machine/X. -/
namespace Sys2Proof.Machine

/-- The parts of a state that the list of changes below speaks of. -/
def State.kept (s : State) : List Instr × List Instr × List (Nat × Nat) × List Host.Cell × List Nat × List Host.Cell × Nat :=
  (s.pending, s.held, s.regs, s.mem, s.poison, s.hostMem, s.security.fuseSvn)

/-- A property that every change of registers, records and queues keeps. -/
structure ClosedRegs (P : State → Prop) : Prop where
  /-- It rests on the queue, the held events, registers, memories, poison and SVN fuses alone. -/
  other : ∀ s t : State, t.kept = s.kept → P s → P t
  wr : ∀ (s : State) (pg : Page) (f : Field) (v : Nat), P s → P (s.wr pg f v)
  fuse : ∀ s t : State, t.kept = (s.pending, s.held, s.regs, s.mem, s.poison, s.hostMem, t.security.fuseSvn) →
    s.security.fuseSvn ≤ t.security.fuseSvn → P s → P t
  /-- Registers may return to reset. -/
  drop : ∀ (s t : State) (q : Nat × Nat → Bool), t.kept = (s.pending, s.held, s.regs.filter q, s.mem, s.poison, s.hostMem, s.security.fuseSvn) →
    P s → P t

/-- A property that every change of the model's primitive operations keeps, those of memory among them. -/
structure Closed (P : State → Prop) : Prop extends ClosedRegs P where
  byte : ∀ (s : State) (a : Nat) (v : Byte), P s → P (s.setByte a v)
  host : ∀ (s : State) (a : Nat) (v : Byte), P s → P { s with hostMem := mapSet 0 s.hostMem a v }
  poison : ∀ (s : State) (l : List Nat), (s.poison.Pairwise (· < ·) → l.Pairwise (· < ·)) → P s → P { s with poison := l }
  /-- A power-off empties memory and forgets the held events. -/
  wipe : ∀ (s t : State) (q : Nat × Nat → Bool), t.kept = (s.pending, [], s.regs.filter q, [], [], s.hostMem, s.security.fuseSvn) →
    P s → P t

/-- A property of the state that a command answers. -/
def After (P : State → Prop) (o : Host.Outcome State Fault Refusal) : Prop := ∀ t, o = .next t → P t

@[simp] theorem After_next (P : State → Prop) (s : State) : After P (.next s) ↔ P s := by
  simp [After]

/-- Changes of the fields that `State.kept` does not show. -/
theorem fields_keeps {P : State → Prop} (hP : ClosedRegs P) {s : State}
    {answer : List Byte} {sent : List Sent} {nDraw cycle : Nat} {moved : List (Nat × Nat × Nat)} {tick : BitVec 64} {held64 : List (Nat × Nat)} {latch64 : List
    (Nat × Nat × Nat)} {clusters : List (Nat × Cluster)} {parts : List (Nat × Part)} {wings : List (Nat × Wing)} {scales
    : List (Nat × Scale)} {ports : List (Nat × Port)} {fabric : Fabric} {power : Power} {counters : List (Nat ×
    Counter)} {records : List (List Nat)} {converters : List (Nat × Converter)} {userGo : Bool} {resetting : List Nat}
    {engineResets : List Block} {wearFlash : List (Nat × Nat)} {strapSris : Bool} {strapSmb : Nat} {perstLow : Bool}
    {killLow : Bool} {powered : Bool} {bound : Bool} {featWritten : Bool}
    {security : Security} (hs : security.fuseSvn = s.security.fuseSvn) (h : P s) :
    P { s with
      answer := answer, sent := sent, nDraw := nDraw, cycle := cycle, moved := moved, tick := tick, held64 := held64, latch64 := latch64, clusters :=
      clusters, parts := parts, wings := wings, scales := scales, ports := ports, fabric := fabric, power := power,
      counters := counters, records := records, converters := converters, userGo := userGo, resetting := resetting,
      engineResets := engineResets, wearFlash := wearFlash, strapSris := strapSris, strapSmb := strapSmb, perstLow :=
      perstLow, killLow := killLow, powered := powered, bound := bound, featWritten := featWritten,
      security := security } :=
  hP.other s _ (by simp [State.kept, hs]) h

theorem foldl_keeps {α β : Type} {Q : α → Prop} (f : α → β → α) (l : List β) (a : α) (h : Q a) (hf : ∀ a b, Q a → Q (f a b)) :
    Q (l.foldl f a) := by
  induction l generalizing a with
  | nil => exact h
  | cons b l ih => exact ih _ (hf a b h)

theorem ite_keeps {α : Type} {Q : α → Prop} (c : Prop) [Decidable c] (a b : α) (ha : Q a) (hb : Q b) : Q (if c then a else b) := by
  split <;> assumption

end Sys2Proof.Machine
end

