-- ==== Sys2Proof/Laws/KeepsOps.lean ====
section
/-! SUPPORT. Each operation of Machine/Ops keeps every property that the primitive changes keep (Laws/Keeps). -/
namespace Sys2Proof.Machine

theorem State.wr_keeps {P : State → Prop} (hP : ClosedRegs P) (s : State) (pg : Page) (f : Field) (v : Nat) (h : P s) : P (s.wr pg f v) := hP.wr s pg f v h

theorem State.wrInt_keeps {P : State → Prop} (hP : ClosedRegs P) (s : State) (pg : Page) (f : Field) (v : Int) (hs_ : P s) :
    P (State.wrInt s pg f v) := by
  unfold State.wrInt
  repeat' (first | (intro _) | with_reducible assumption | with_reducible apply ite_keeps (Q := P)
                 | with_reducible apply State.wr_keeps hP | with_reducible refine foldl_keeps (Q := P) _ _ _ ?_ ?_
                 | split | rfl | dsimp only | with_reducible refine fields_keeps hP ?_ ?_)

theorem State.addReg_keeps {P : State → Prop} (hP : ClosedRegs P) (s : State) (pg : Page) (f : Field) (n : Nat) (hs_ : P s) :
    P (State.addReg s pg f n) := by
  unfold State.addReg
  repeat' (first | (intro _) | with_reducible assumption | with_reducible apply ite_keeps (Q := P)
                 | with_reducible apply State.wr_keeps hP | with_reducible refine foldl_keeps (Q := P) _ _ _ ?_ ?_
                 | split | rfl | dsimp only | with_reducible refine fields_keeps hP ?_ ?_)

theorem State.wrAll_keeps {P : State → Prop} (hP : ClosedRegs P) (s : State) (pg : Page) (l : List (Field × Nat)) (h : P s) : P (s.wrAll pg l) := by
  induction l generalizing s with
  | nil => exact h
  | cons x xs ih => exact ih _ (hP.wr s pg x.1 x.2 h)

theorem State.dropRegs_keeps {P : State → Prop} (hP : ClosedRegs P) (s : State) (which : Page → Nat → Bool) (h : P s) : P (s.dropRegs which) :=
  hP.drop s _ _ rfl h

theorem State.each_keeps {P : State → Prop} (_hP : ClosedRegs P) (s : State) (l : List Nat) (f : State → Nat → State) (h : P s)
    (hf : ∀ t n, P t → P (f t n)) : P (s.each l f) := foldl_keeps f l s h hf

theorem State.setByte_keeps {P : State → Prop} (hP : Closed P) (s : State) (a : Nat) (v : Byte) (h : P s) : P (s.setByte a v) := hP.byte s a v h

theorem State.setBytes_keeps {P : State → Prop} (hP : Closed P) (s : State) (a : Nat) (l : List Byte) (h : P s) : P (s.setBytes a l) := by
  induction l generalizing s a with
  | nil => exact h
  | cons v vs ih => exact ih _ _ (hP.byte s a v h)

theorem State.poisonAll_keeps {P : State → Prop} (hP : Closed P) (s : State) (gs : List Nat) (h : P s) : P (s.poisonAll gs) :=
  hP.poison s _ (fun hs => foldl_keeps setIns gs s.poison hs (fun m k => setIns_pairwise m k)) h

theorem State.settle_keeps {P : State → Prop} (hP : Closed P) (s : State) (a n : Nat) (bad : List Nat) (h : P s) : P (s.settle a n bad) :=
  State.poisonAll_keeps hP _ bad (hP.poison s _ (fun hs => hs.filter _) h)

theorem State.store_keeps {P : State → Prop} (hP : Closed P) (s : State) (a : Nat) (l : List Byte) (bad : List Nat) (hs_ : P s) :
    P (State.store s a l bad) := by
  unfold State.store
  repeat' (first | (intro _) | with_reducible assumption | with_reducible apply ite_keeps (Q := P)
                 | with_reducible apply State.settle_keeps hP | with_reducible apply State.setBytes_keeps hP
                 | with_reducible refine foldl_keeps (Q := P) _ _ _ ?_ ?_ | split | rfl | dsimp only
                 | with_reducible refine fields_keeps hP.toClosedRegs ?_ ?_)

theorem State.put_keeps {P : State → Prop} (hP : Closed P) (s : State) (a : Nat) (l : List Byte) (hs_ : P s) :
    P (State.put s a l) := by
  unfold State.put
  repeat' (first | (intro _) | with_reducible assumption | with_reducible apply ite_keeps (Q := P)
                 | with_reducible apply State.store_keeps hP | with_reducible refine foldl_keeps (Q := P) _ _ _ ?_ ?_
                 | split | rfl | dsimp only | with_reducible refine fields_keeps hP.toClosedRegs ?_ ?_)

theorem State.putWord_keeps {P : State → Prop} (hP : Closed P) (s : State) (a n v : Nat) (hs_ : P s) :
    P (State.putWord s a n v) := by
  unfold State.putWord
  repeat' (first | (intro _) | with_reducible assumption | with_reducible apply ite_keeps (Q := P)
                 | with_reducible apply State.put_keeps hP | with_reducible refine foldl_keeps (Q := P) _ _ _ ?_ ?_
                 | split | rfl | dsimp only | with_reducible refine fields_keeps hP.toClosedRegs ?_ ?_)

theorem State.putWords32_keeps {P : State → Prop} (hP : Closed P) (s : State) (a : Nat) (l : List Nat) (bad : List Nat) (hs_ : P s) :
    P (State.putWords32 s a l bad) := by
  unfold State.putWords32
  repeat' (first | (intro _) | with_reducible assumption | with_reducible apply ite_keeps (Q := P)
                 | with_reducible apply State.store_keeps hP | with_reducible refine foldl_keeps (Q := P) _ _ _ ?_ ?_
                 | split | rfl | dsimp only | with_reducible refine fields_keeps hP.toClosedRegs ?_ ?_)

theorem State.copy_keeps {P : State → Prop} (hP : Closed P) (s : State) (src dst n : Nat) (hs_ : P s) :
    P (State.copy s src dst n) := by
  unfold State.copy
  repeat' (first | (intro _) | with_reducible assumption | with_reducible apply ite_keeps (Q := P)
                 | with_reducible apply State.store_keeps hP | with_reducible refine foldl_keeps (Q := P) _ _ _ ?_ ?_
                 | split | rfl | dsimp only | with_reducible refine fields_keeps hP.toClosedRegs ?_ ?_)

theorem State.setHostBytes_keeps {P : State → Prop} (hP : Closed P) (s : State) (a : Nat) (l : List Byte) (h : P s) : P (s.setHostBytes a l) := by
  induction l generalizing s a with
  | nil => exact h
  | cons v vs ih => exact ih _ _ (hP.host s a v h)

theorem State.putSpace_keeps {P : State → Prop} (hP : Closed P) (s : State) (host : Bool) (a : Nat) (l : List Byte) (hs_ : P s) :
    P (State.putSpace s host a l) := by
  unfold State.putSpace
  repeat' (first | (intro _) | with_reducible assumption | with_reducible apply ite_keeps (Q := P)
                 | with_reducible apply State.setHostBytes_keeps hP | with_reducible apply State.put_keeps hP
                 | with_reducible refine foldl_keeps (Q := P) _ _ _ ?_ ?_ | split | rfl | dsimp only
                 | with_reducible refine fields_keeps hP.toClosedRegs ?_ ?_)

theorem State.setPart_keeps {P : State → Prop} (hP : ClosedRegs P) (s : State) (p : Nat) (x : Part) (h : P s) : P (State.setPart s p x) := hP.other s _ rfl h

theorem State.modPart_keeps {P : State → Prop} (hP : ClosedRegs P) (s : State) (p : Nat) (f : Part → Part) (hs_ : P s) :
    P (State.modPart s p f) := by
  unfold State.modPart
  repeat' (first | (intro _) | with_reducible assumption | with_reducible apply ite_keeps (Q := P)
                 | with_reducible apply State.setPart_keeps hP
                 | with_reducible refine foldl_keeps (Q := P) _ _ _ ?_ ?_ | split | rfl | dsimp only
                 | with_reducible refine fields_keeps hP ?_ ?_)

theorem State.modSeq_keeps {P : State → Prop} (hP : ClosedRegs P) (s : State) (p : Nat) (f : Seq → Seq) (hs_ : P s) :
    P (State.modSeq s p f) := by
  unfold State.modSeq
  repeat' (first | (intro _) | with_reducible assumption | with_reducible apply ite_keeps (Q := P)
                 | with_reducible apply State.modPart_keeps hP
                 | with_reducible refine foldl_keeps (Q := P) _ _ _ ?_ ?_ | split | rfl | dsimp only
                 | with_reducible refine fields_keeps hP ?_ ?_)

theorem State.modHitch_keeps {P : State → Prop} (hP : ClosedRegs P) (s : State) (p : Nat) (f : Hitch → Hitch) (hs_ : P s) :
    P (State.modHitch s p f) := by
  unfold State.modHitch
  repeat' (first | (intro _) | with_reducible assumption | with_reducible apply ite_keeps (Q := P)
                 | with_reducible apply State.modPart_keeps hP
                 | with_reducible refine foldl_keeps (Q := P) _ _ _ ?_ ?_ | split | rfl | dsimp only
                 | with_reducible refine fields_keeps hP ?_ ?_)

theorem State.setCluster_keeps {P : State → Prop} (hP : ClosedRegs P) (s : State) (p c : Nat) (x : Cluster) (h : P s) : P (State.setCluster s p c x) := hP.other s _ rfl h

theorem State.modCluster_keeps {P : State → Prop} (hP : ClosedRegs P) (s : State) (p c : Nat) (f : Cluster → Cluster) (hs_ : P s) :
    P (State.modCluster s p c f) := by
  unfold State.modCluster
  repeat' (first | (intro _) | with_reducible assumption | with_reducible apply ite_keeps (Q := P)
                 | with_reducible apply State.setCluster_keeps hP
                 | with_reducible refine foldl_keeps (Q := P) _ _ _ ?_ ?_ | split | rfl | dsimp only
                 | with_reducible refine fields_keeps hP ?_ ?_)

theorem State.setWing_keeps {P : State → Prop} (hP : ClosedRegs P) (s : State) (p w : Nat) (x : Wing) (h : P s) : P (State.setWing s p w x) := hP.other s _ rfl h

theorem State.modWing_keeps {P : State → Prop} (hP : ClosedRegs P) (s : State) (p w : Nat) (f : Wing → Wing) (hs_ : P s) :
    P (State.modWing s p w f) := by
  unfold State.modWing
  repeat' (first | (intro _) | with_reducible assumption | with_reducible apply ite_keeps (Q := P)
                 | with_reducible apply State.setWing_keeps hP
                 | with_reducible refine foldl_keeps (Q := P) _ _ _ ?_ ?_ | split | rfl | dsimp only
                 | with_reducible refine fields_keeps hP ?_ ?_)

theorem State.modCal_keeps {P : State → Prop} (hP : ClosedRegs P) (s : State) (p w : Nat) (f : WingCal → WingCal) (hs_ : P s) :
    P (State.modCal s p w f) := by
  unfold State.modCal
  repeat' (first | (intro _) | with_reducible assumption | with_reducible apply ite_keeps (Q := P)
                 | with_reducible apply State.modWing_keeps hP
                 | with_reducible refine foldl_keeps (Q := P) _ _ _ ?_ ?_ | split | rfl | dsimp only
                 | with_reducible refine fields_keeps hP ?_ ?_)

theorem State.setScale_keeps {P : State → Prop} (hP : ClosedRegs P) (s : State) (p w b sc : Nat) (x : Scale) (h : P s) : P (State.setScale s p w b sc x) := hP.other s _ rfl h

theorem State.modScale_keeps {P : State → Prop} (hP : ClosedRegs P) (s : State) (p w b sc : Nat) (f : Scale → Scale) (hs_ : P s) :
    P (State.modScale s p w b sc f) := by
  unfold State.modScale
  repeat' (first | (intro _) | with_reducible assumption | with_reducible apply ite_keeps (Q := P)
                 | with_reducible apply State.setScale_keeps hP
                 | with_reducible refine foldl_keeps (Q := P) _ _ _ ?_ ?_ | split | rfl | dsimp only
                 | with_reducible refine fields_keeps hP ?_ ?_)

theorem State.setPort_keeps {P : State → Prop} (hP : ClosedRegs P) (s : State) (i : Nat) (x : Port) (h : P s) : P (State.setPort s i x) := hP.other s _ rfl h

theorem State.modPort_keeps {P : State → Prop} (hP : ClosedRegs P) (s : State) (i : Nat) (f : Port → Port) (hs_ : P s) :
    P (State.modPort s i f) := by
  unfold State.modPort
  repeat' (first | (intro _) | with_reducible assumption | with_reducible apply ite_keeps (Q := P)
                 | with_reducible apply State.setPort_keeps hP
                 | with_reducible refine foldl_keeps (Q := P) _ _ _ ?_ ?_ | split | rfl | dsimp only
                 | with_reducible refine fields_keeps hP ?_ ?_)

theorem State.setCounter_keeps {P : State → Prop} (hP : ClosedRegs P) (s : State) (n : Nat) (x : Counter) (h : P s) : P (State.setCounter s n x) := hP.other s _ rfl h

theorem State.modCounter_keeps {P : State → Prop} (hP : ClosedRegs P) (s : State) (n : Nat) (f : Counter → Counter) (hs_ : P s) :
    P (State.modCounter s n f) := by
  unfold State.modCounter
  repeat' (first | (intro _) | with_reducible assumption | with_reducible apply ite_keeps (Q := P)
                 | with_reducible apply State.setCounter_keeps hP
                 | with_reducible refine foldl_keeps (Q := P) _ _ _ ?_ ?_ | split | rfl | dsimp only
                 | with_reducible refine fields_keeps hP ?_ ?_)

theorem State.setConverter_keeps {P : State → Prop} (hP : ClosedRegs P) (s : State) (m : Nat) (x : Converter) (h : P s) : P (State.setConverter s m x) := hP.other s _ rfl h

theorem State.modFabric_keeps {P : State → Prop} (hP : ClosedRegs P) (s : State) (f : Fabric → Fabric) (h : P s) : P (State.modFabric s f) := hP.other s _ rfl h

theorem State.modPower_keeps {P : State → Prop} (hP : ClosedRegs P) (s : State) (f : Power → Power) (h : P s) : P (State.modPower s f) := hP.other s _ rfl h

theorem State.modSecurity_keeps {P : State → Prop} (hP : ClosedRegs P) (s : State) (f : Security → Security) (hf : (f s.security).fuseSvn = s.security.fuseSvn)
    (h : P s) : P (s.modSecurity f) := hP.other s _ (by simp [State.kept, State.modSecurity, hf]) h

theorem State.drawn_keeps {P : State → Prop} (hP : ClosedRegs P) (s : State)  (h : P s) : P (State.drawn s ) := hP.other s _ rfl h

theorem State.emit_keeps {P : State → Prop} (hP : ClosedRegs P) (s : State) (x : Sent) (h : P s) : P (State.emit s x) := hP.other s _ rfl h

theorem State.toCycle_keeps {P : State → Prop} (hP : ClosedRegs P) (s : State) (hs_ : P s) :
    P (State.toCycle s) := by
  unfold State.toCycle
  repeat' (first | (intro _) | with_reducible assumption | with_reducible apply ite_keeps (Q := P)
                 | with_reducible refine foldl_keeps (Q := P) _ _ _ ?_ ?_ | split | rfl | dsimp only
                 | with_reducible refine fields_keeps hP ?_ ?_)

end Sys2Proof.Machine
end

