-- ==== Sys2Proof/Laws/KeepsPrecedence.lean ====
section
/-! SUPPORT. Each operation of Machine/Precedence keeps every property that the primitive changes keep (Laws/Keeps). -/
namespace Sys2Proof.Machine

theorem State.ranked_keeps {P : State → Prop} {s : State} {i : Instr} (hr : P { s with held := putRanked i s.held }) (t : State) (h : P t) :
    P (s.ranked i t) := by
  unfold State.ranked
  exact ite_keeps _ _ _ h hr

end Sys2Proof.Machine
end

