-- ==== Sys2Proof/Laws/KeepsFlags.lean ====
section
/-! SUPPORT. Each operation of Machine/Flags keeps every property that the primitive changes keep (Laws/Keeps). -/
namespace Sys2Proof.Machine

theorem State.sendVector_keeps {P : State → Prop} (hP : ClosedRegs P) (s : State) (v : Nat) (h : P s) : P (s.sendVector v) := by
  unfold State.sendVector
  split
  · exact hP.wr _ _ _ _ h
  · exact State.emit_keeps hP s _ h

theorem State.signalFrom_keeps {P : State → Prop} (hP : ClosedRegs P) (old s : State) (l : List Nat) (h : P s) : P (State.signalFrom old s l) := by
  induction l generalizing s with
  | nil => exact h
  | cons v vs ih =>
    refine ih _ ?_
    split
    · exact State.sendVector_keeps hP s v h
    · exact h

theorem State.raise_keeps {P : State → Prop} (hP : ClosedRegs P) (s : State) (pg : Page) (b : Nat) (hs_ : P s) :
    P (State.raise s pg b) := by
  unfold State.raise
  repeat' (first | (intro _) | with_reducible assumption | with_reducible apply ite_keeps (Q := P)
                 | with_reducible apply State.signalFrom_keeps hP | with_reducible apply State.wr_keeps hP
                 | with_reducible refine foldl_keeps (Q := P) _ _ _ ?_ ?_ | split | rfl | dsimp only
                 | with_reducible refine fields_keeps hP ?_ ?_)

theorem State.markMap_keeps {P : State → Prop} (hP : ClosedRegs P) (s : State) (pg : Page) (hs_ : P s) :
    P (State.markMap s pg) := by
  unfold State.markMap
  repeat' (first | (intro _) | with_reducible assumption | with_reducible apply ite_keeps (Q := P)
                 | with_reducible apply State.raise_keeps hP | with_reducible apply State.wr_keeps hP
                 | with_reducible refine foldl_keeps (Q := P) _ _ _ ?_ ?_ | split | rfl | dsimp only
                 | with_reducible refine fields_keeps hP ?_ ?_)

theorem State.bump_keeps {P : State → Prop} (hP : ClosedRegs P) (s : State) (pg : Page) (n : Nat) (hs_ : P s) :
    P (State.bump s pg n) := by
  unfold State.bump
  repeat' (first | (intro _) | with_reducible assumption | with_reducible apply ite_keeps (Q := P)
                 | with_reducible apply State.markMap_keeps hP | with_reducible apply State.wr_keeps hP
                 | with_reducible refine foldl_keeps (Q := P) _ _ _ ?_ ?_ | split | rfl | dsimp only
                 | with_reducible refine fields_keeps hP ?_ ?_)

theorem State.bumpN_keeps {P : State → Prop} (hP : ClosedRegs P) (s : State) (pg : Page) (n k : Nat) (h : P s) : P (s.bumpN pg n k) := by
  induction k generalizing s with
  | zero => exact h
  | succ k ih => exact ih _ (State.bump_keeps hP s pg n h)

theorem State.bumpReg_keeps {P : State → Prop} (hP : ClosedRegs P) (s : State) (pg : Page) (f : Field) (hs_ : P s) :
    P (State.bumpReg s pg f) := by
  unfold State.bumpReg
  repeat' (first | (intro _) | with_reducible assumption | with_reducible apply ite_keeps (Q := P)
                 | with_reducible apply State.wr_keeps hP | with_reducible refine foldl_keeps (Q := P) _ _ _ ?_ ?_
                 | split | rfl | dsimp only | with_reducible refine fields_keeps hP ?_ ?_)

theorem State.clearCount_keeps {P : State → Prop} (hP : ClosedRegs P) (s : State) (pg : Page) (f : Field) (hs_ : P s) :
    P (State.clearCount s pg f) := by
  unfold State.clearCount
  repeat' (first | (intro _) | with_reducible assumption | with_reducible apply ite_keeps (Q := P)
                 | with_reducible apply State.wr_keeps hP | with_reducible refine foldl_keeps (Q := P) _ _ _ ?_ ?_
                 | split | rfl | dsimp only | with_reducible refine fields_keeps hP ?_ ?_)

theorem State.guarded_keeps {P : State → Prop} (hP : ClosedRegs P) (s : State) (p : Nat) (rs : List (Nat × Nat)) (t : State) (hs_ : P s) (ht_ : P t) :
    P (State.guarded s p rs t) := by
  unfold State.guarded
  repeat' (first | (intro _) | with_reducible assumption | with_reducible apply ite_keeps (Q := P)
                 | with_reducible apply State.bump_keeps hP | with_reducible refine foldl_keeps (Q := P) _ _ _ ?_ ?_
                 | split | rfl | dsimp only | with_reducible refine fields_keeps hP ?_ ?_)

theorem State.progress_keeps {P : State → Prop} (hP : ClosedRegs P) (s : State) (pg : Page) (hs_ : P s) :
    P (State.progress s pg) := by
  unfold State.progress
  repeat' (first | (intro _) | with_reducible assumption | with_reducible apply ite_keeps (Q := P)
                 | with_reducible apply State.addReg_keeps hP | with_reducible refine foldl_keeps (Q := P) _ _ _ ?_ ?_
                 | split | rfl | dsimp only | with_reducible refine fields_keeps hP ?_ ?_)

end Sys2Proof.Machine
end

