-- ==== Sys2Proof/Laws/KeepsGrants.lean ====
section
/-! SUPPORT. Each operation of Machine/Grants keeps every property that the primitive changes keep (Laws/Keeps). -/
namespace Sys2Proof.Machine

theorem State.applyGrant_keeps {P : State → Prop} (hP : ClosedRegs P) (s : State) (p : Nat) (hs_ : P s) :
    P (State.applyGrant s p) := by
  unfold State.applyGrant
  repeat' (first | (intro _) | with_reducible assumption | with_reducible apply ite_keeps (Q := P)
                 | with_reducible apply State.each_keeps hP | with_reducible apply State.wrAll_keeps hP
                 | with_reducible apply State.wr_keeps hP | with_reducible refine foldl_keeps (Q := P) _ _ _ ?_ ?_
                 | split | rfl | dsimp only | with_reducible refine fields_keeps hP ?_ ?_)

theorem State.applyPower_keeps {P : State → Prop} (hP : ClosedRegs P) (s : State) (hs_ : P s) :
    P (State.applyPower s) := by
  unfold State.applyPower
  repeat' (first | (intro _) | with_reducible assumption | with_reducible apply ite_keeps (Q := P)
                 | with_reducible apply State.applyGrant_keeps hP | with_reducible apply State.each_keeps hP
                 | with_reducible apply State.wr_keeps hP | with_reducible refine foldl_keeps (Q := P) _ _ _ ?_ ?_
                 | split | rfl | dsimp only | with_reducible refine fields_keeps hP ?_ ?_)

end Sys2Proof.Machine
end

