-- ==== Sys2Proof/Laws/KeepsJob.lean ====
section
/-! SUPPORT. Each operation of Machine/Job keeps every property that the primitive changes keep (Laws/Keeps). -/
namespace Sys2Proof.Machine

theorem State.sendCtrlFirst_keeps {P : State → Prop} (hP : ClosedRegs P) (s : State) (i : Nat) (m : CtrlMsg) (hs_ : P s) :
    P (State.sendCtrlFirst s i m) := by
  unfold State.sendCtrlFirst
  repeat' (first | (intro _) | with_reducible assumption | with_reducible apply ite_keeps (Q := P)
                 | with_reducible apply State.modPort_keeps hP
                 | with_reducible refine foldl_keeps (Q := P) _ _ _ ?_ ?_ | split | rfl | dsimp only
                 | with_reducible refine fields_keeps hP ?_ ?_)

theorem State.sendCtrl_keeps {P : State → Prop} (hP : ClosedRegs P) (s : State) (i : Nat) (m : CtrlMsg) (hs_ : P s) :
    P (State.sendCtrl s i m) := by
  unfold State.sendCtrl
  repeat' (first | (intro _) | with_reducible assumption | with_reducible apply ite_keeps (Q := P)
                 | with_reducible apply State.modPort_keeps hP
                 | with_reducible refine foldl_keeps (Q := P) _ _ _ ?_ ?_ | split | rfl | dsimp only
                 | with_reducible refine fields_keeps hP ?_ ?_)

theorem State.forwardToken_keeps {P : State → Prop} (hP : ClosedRegs P) (s : State) (t : Token) (except : Option Nat) (hs_ : P s) :
    P (State.forwardToken s t except) := by
  unfold State.forwardToken
  repeat' (first | (intro _) | with_reducible assumption | with_reducible apply ite_keeps (Q := P)
                 | with_reducible apply State.sendCtrlFirst_keeps hP | with_reducible apply State.each_keeps hP
                 | with_reducible refine foldl_keeps (Q := P) _ _ _ ?_ ?_ | split | rfl | dsimp only
                 | with_reducible refine fields_keeps hP ?_ ?_)

theorem State.emitToken_keeps {P : State → Prop} (hP : ClosedRegs P) (s : State) (step : Nat) (hs_ : P s) :
    P (State.emitToken s step) := by
  unfold State.emitToken
  repeat' (first | (intro _) | with_reducible assumption | with_reducible apply ite_keeps (Q := P)
                 | with_reducible apply State.forwardToken_keeps hP | with_reducible apply State.raise_keeps hP
                 | with_reducible apply State.modFabric_keeps hP
                 | with_reducible refine foldl_keeps (Q := P) _ _ _ ?_ ?_ | split | rfl | dsimp only
                 | with_reducible refine fields_keeps hP ?_ ?_)

theorem State.emitFor_keeps {P : State → Prop} (hP : ClosedRegs P) (s : State) (p : Nat) (hs_ : P s) :
    P (State.emitFor s p) := by
  unfold State.emitFor
  repeat' (first | (intro _) | with_reducible assumption | with_reducible apply ite_keeps (Q := P)
                 | with_reducible apply State.emitToken_keeps hP
                 | with_reducible refine foldl_keeps (Q := P) _ _ _ ?_ ?_ | split | rfl | dsimp only
                 | with_reducible refine fields_keeps hP ?_ ?_)

theorem State.stopSeq_keeps {P : State → Prop} (hP : ClosedRegs P) (s : State) (p : Nat) (hs_ : P s) :
    P (State.stopSeq s p) := by
  unfold State.stopSeq
  repeat' (first | (intro _) | with_reducible assumption | with_reducible apply ite_keeps (Q := P)
                 | with_reducible apply State.wr_keeps hP | with_reducible refine foldl_keeps (Q := P) _ _ _ ?_ ?_
                 | split | rfl | dsimp only | with_reducible refine fields_keeps hP ?_ ?_)

theorem State.seqFault_keeps {P : State → Prop} (hP : ClosedRegs P) (s : State) (p reason index : Nat) (hs_ : P s) :
    P (State.seqFault s p reason index) := by
  unfold State.seqFault
  repeat' (first | (intro _) | with_reducible assumption | with_reducible apply ite_keeps (Q := P)
                 | with_reducible apply State.stopSeq_keeps hP | with_reducible apply State.modSeq_keeps hP
                 | with_reducible apply State.each_keeps hP | with_reducible apply State.wr_keeps hP
                 | with_reducible refine foldl_keeps (Q := P) _ _ _ ?_ ?_ | split | rfl | dsimp only
                 | with_reducible refine fields_keeps hP ?_ ?_)

theorem State.terminate_keeps {P : State → Prop} (hP : ClosedRegs P) (s : State) (p point : Nat) (hs_ : P s) :
    P (State.terminate s p point) := by
  unfold State.terminate
  repeat' (first | (intro _) | with_reducible assumption | with_reducible apply ite_keeps (Q := P)
                 | with_reducible apply State.stopSeq_keeps hP | with_reducible apply State.emitFor_keeps hP
                 | with_reducible apply State.bump_keeps hP | with_reducible apply State.raise_keeps hP
                 | with_reducible apply State.modSeq_keeps hP | with_reducible apply State.each_keeps hP
                 | with_reducible apply State.wr_keeps hP | with_reducible refine foldl_keeps (Q := P) _ _ _ ?_ ?_
                 | split | rfl | dsimp only | with_reducible refine fields_keeps hP ?_ ?_)

theorem State.raiseNf_keeps {P : State → Prop} (hP : ClosedRegs P) (s : State) (p : Nat) (hs_ : P s) :
    P (State.raiseNf s p) := by
  unfold State.raiseNf
  repeat' (first | (intro _) | with_reducible assumption | with_reducible apply ite_keeps (Q := P)
                 | with_reducible apply State.modHitch_keeps hP
                 | with_reducible refine foldl_keeps (Q := P) _ _ _ ?_ ?_ | split | rfl | dsimp only
                 | with_reducible refine fields_keeps hP ?_ ?_)

theorem State.setHch_keeps {P : State → Prop} (hP : ClosedRegs P) (s : State) (p st : Nat) (hs_ : P s) :
    P (State.setHch s p st) := by
  unfold State.setHch
  repeat' (first | (intro _) | with_reducible assumption | with_reducible apply ite_keeps (Q := P)
                 | with_reducible apply State.wr_keeps hP | with_reducible refine foldl_keeps (Q := P) _ _ _ ?_ ?_
                 | split | rfl | dsimp only | with_reducible refine fields_keeps hP ?_ ?_)

theorem State.hold_keeps {P : State → Prop} (hP : ClosedRegs P) (s : State) (p : Nat) (hs_ : P s) :
    P (State.hold s p) := by
  unfold State.hold
  repeat' (first | (intro _) | with_reducible assumption | with_reducible apply ite_keeps (Q := P)
                 | with_reducible apply State.setHch_keeps hP | with_reducible apply State.raise_keeps hP
                 | with_reducible refine foldl_keeps (Q := P) _ _ _ ?_ ?_ | split | rfl | dsimp only
                 | with_reducible refine fields_keeps hP ?_ ?_)

theorem State.syncWing_keeps {P : State → Prop} (hP : ClosedRegs P) (s : State) (p w : Nat) (hs_ : P s) :
    P (State.syncWing s p w) := by
  unfold State.syncWing
  repeat' (first | (intro _) | with_reducible assumption | with_reducible apply ite_keeps (Q := P)
                 | with_reducible apply State.wrAll_keeps hP | with_reducible refine foldl_keeps (Q := P) _ _ _ ?_ ?_
                 | split | rfl | dsimp only | with_reducible refine fields_keeps hP ?_ ?_)

theorem State.clearWing_keeps {P : State → Prop} (hP : ClosedRegs P) (s : State) (p w : Nat) (hs_ : P s) :
    P (State.clearWing s p w) := by
  unfold State.clearWing
  repeat' (first | (intro _) | with_reducible assumption | with_reducible apply ite_keeps (Q := P)
                 | with_reducible apply State.syncWing_keeps hP | with_reducible apply State.modWing_keeps hP
                 | with_reducible refine foldl_keeps (Q := P) _ _ _ ?_ ?_ | split | rfl | dsimp only
                 | with_reducible refine fields_keeps hP ?_ ?_)

theorem State.claim_keeps {P : State → Prop} (hP : ClosedRegs P) (s : State) (p parent inst spare : Nat) (hs_ : P s) :
    P (State.claim s p parent inst spare) := by
  unfold State.claim
  repeat' (first | (intro _) | with_reducible assumption | with_reducible apply ite_keeps (Q := P)
                 | with_reducible apply State.modPart_keeps hP
                 | with_reducible refine foldl_keeps (Q := P) _ _ _ ?_ ?_ | split | rfl | dsimp only
                 | with_reducible refine fields_keeps hP ?_ ?_)

theorem State.interruptSlots_keeps {P : State → Prop} (hP : ClosedRegs P) (s : State) (hit : Nat → Nat → Bool) (hs_ : P s) :
    P (State.interruptSlots s hit) := by
  unfold State.interruptSlots
  repeat' (first | (intro _) | with_reducible assumption | with_reducible apply ite_keeps (Q := P)
                 | with_reducible apply State.each_keeps hP | with_reducible apply State.wr_keeps hP
                 | with_reducible refine foldl_keeps (Q := P) _ _ _ ?_ ?_ | split | rfl | dsimp only
                 | with_reducible refine fields_keeps hP ?_ ?_)

theorem State.interruptPart_keeps {P : State → Prop} (hP : ClosedRegs P) (s : State) (p : Nat) (hit : Nat → Nat → Bool) (hs_ : P s) :
    P (State.interruptPart s p hit) := by
  unfold State.interruptPart
  repeat' (first | (intro _) | with_reducible assumption | with_reducible apply ite_keeps (Q := P)
                 | with_reducible apply State.each_keeps hP | with_reducible apply State.wr_keeps hP
                 | with_reducible refine foldl_keeps (Q := P) _ _ _ ?_ ?_ | split | rfl | dsimp only
                 | with_reducible refine fields_keeps hP ?_ ?_)

theorem State.discardWork_keeps {P : State → Prop} (hP : ClosedRegs P) (s : State) (p : Nat) (hs_ : P s) :
    P (State.discardWork s p) := by
  unfold State.discardWork
  repeat' (first | (intro _) | with_reducible assumption | with_reducible apply ite_keeps (Q := P)
                 | with_reducible apply State.clearWing_keeps hP | with_reducible apply State.modFabric_keeps hP
                 | with_reducible apply State.modCal_keeps hP | with_reducible apply State.setCluster_keeps hP
                 | with_reducible apply State.modPart_keeps hP | with_reducible apply State.each_keeps hP
                 | with_reducible apply State.wr_keeps hP | with_reducible refine foldl_keeps (Q := P) _ _ _ ?_ ?_
                 | split | rfl | dsimp only | with_reducible refine fields_keeps hP ?_ ?_)

theorem State.endTrims_keeps {P : State → Prop} (hP : ClosedRegs P) (s : State) (p : Nat) (hs_ : P s) :
    P (State.endTrims s p) := by
  unfold State.endTrims
  repeat' (first | (intro _) | with_reducible assumption | with_reducible apply ite_keeps (Q := P)
                 | with_reducible apply State.modWing_keeps hP | with_reducible apply State.each_keeps hP
                 | with_reducible apply State.wrAll_keeps hP | with_reducible refine foldl_keeps (Q := P) _ _ _ ?_ ?_
                 | split | rfl | dsimp only | with_reducible refine fields_keeps hP ?_ ?_)

theorem State.refuseReads_keeps {P : State → Prop} (hP : ClosedRegs P) (s : State) (p : Nat) (ws : List Nat) (hs_ : P s) :
    P (State.refuseReads s p ws) := by
  unfold State.refuseReads
  repeat' (first | (intro _) | with_reducible assumption | with_reducible apply ite_keeps (Q := P)
                 | with_reducible apply State.each_keeps hP | with_reducible apply State.wrAll_keeps hP
                 | with_reducible refine foldl_keeps (Q := P) _ _ _ ?_ ?_ | split | rfl | dsimp only
                 | with_reducible refine fields_keeps hP ?_ ?_)

theorem State.resetLogic_keeps {P : State → Prop} (hP : ClosedRegs P) (s : State) (p : Nat) (hs_ : P s) :
    P (State.resetLogic s p) := by
  unfold State.resetLogic
  repeat' (first | (intro _) | with_reducible assumption | with_reducible apply ite_keeps (Q := P)
                 | with_reducible apply State.refuseReads_keeps hP | with_reducible apply State.endTrims_keeps hP
                 | with_reducible apply State.discardWork_keeps hP | with_reducible apply State.hold_keeps hP
                 | with_reducible apply State.applyGrant_keeps hP | with_reducible apply State.dropRegs_keeps hP
                 | with_reducible apply State.wr_keeps hP | with_reducible refine foldl_keeps (Q := P) _ _ _ ?_ ?_
                 | split | rfl | dsimp only | with_reducible refine fields_keeps hP ?_ ?_)

theorem State.beginPartReset_keeps {P : State → Prop} (hP : ClosedRegs P) (s : State) (p kind : Nat) (hs_ : P s) :
    P (State.beginPartReset s p kind) := by
  unfold State.beginPartReset
  repeat' (first | (intro _) | with_reducible assumption | with_reducible apply ite_keeps (Q := P)
                 | with_reducible apply State.resetLogic_keeps hP | with_reducible apply State.interruptPart_keeps hP
                 | with_reducible apply State.emitFor_keeps hP | with_reducible apply State.bump_keeps hP
                 | with_reducible apply State.wrAll_keeps hP | with_reducible apply State.wr_keeps hP
                 | with_reducible refine foldl_keeps (Q := P) _ _ _ ?_ ?_ | split | rfl | dsimp only
                 | with_reducible refine fields_keeps hP ?_ ?_)

theorem State.failPart_keeps {P : State → Prop} (hP : ClosedRegs P) (s : State) (p cause : Nat) (hs_ : P s) :
    P (State.failPart s p cause) := by
  unfold State.failPart
  repeat' (first | (intro _) | with_reducible assumption | with_reducible apply ite_keeps (Q := P)
                 | with_reducible apply State.resetLogic_keeps hP | with_reducible apply State.interruptPart_keeps hP
                 | with_reducible apply State.emitFor_keeps hP | with_reducible apply State.bump_keeps hP
                 | with_reducible apply State.raise_keeps hP | with_reducible apply State.modPart_keeps hP
                 | with_reducible apply State.wrAll_keeps hP | with_reducible apply State.wr_keeps hP
                 | with_reducible refine foldl_keeps (Q := P) _ _ _ ?_ ?_ | split | rfl | dsimp only
                 | with_reducible refine fields_keeps hP ?_ ?_)

end Sys2Proof.Machine
end

