-- ==== Sys2Proof/Laws/KeepsIssue.lean ====
section
/-! SUPPORT. Each operation of Machine/Issue keeps every property that the primitive changes keep (Laws/Keeps). -/
namespace Sys2Proof.Machine

theorem State.incFence_keeps {P : State → Prop} (hP : ClosedRegs P) (s : State) (p n : Nat) (hs_ : P s) :
    P (State.incFence s p n) := by
  unfold State.incFence
  repeat' (first | (intro _) | with_reducible assumption | with_reducible apply ite_keeps (Q := P)
                 | with_reducible apply State.modSeq_keeps hP | with_reducible refine foldl_keeps (Q := P) _ _ _ ?_ ?_
                 | split | rfl | dsimp only | with_reducible refine fields_keeps hP ?_ ?_)

theorem State.issue_keeps {P : State → Prop} (hP : ClosedRegs P) (s : State) (p op : Nat) (c : Cmd) (l : Launch) (w : Work) (hs_ : P s) :
    P (State.issue s p op c l w) := by
  unfold State.issue
  repeat' (first | (intro _) | with_reducible assumption | with_reducible apply ite_keeps (Q := P)
                 | with_reducible apply State.bump_keeps hP | with_reducible apply State.toCycle_keeps hP
                 | with_reducible apply State.modSeq_keeps hP | with_reducible refine foldl_keeps (Q := P) _ _ _ ?_ ?_
                 | split | rfl | dsimp only | with_reducible refine fields_keeps hP ?_ ?_)

theorem State.setWork_keeps {P : State → Prop} (hP : ClosedRegs P) (s : State) (p id : Nat) (w : Work) (hs_ : P s) :
    P (State.setWork s p id w) := by
  unfold State.setWork
  repeat' (first | (intro _) | with_reducible assumption | with_reducible apply ite_keeps (Q := P)
                 | with_reducible apply State.modSeq_keeps hP | with_reducible refine foldl_keeps (Q := P) _ _ _ ?_ ?_
                 | split | rfl | dsimp only | with_reducible refine fields_keeps hP ?_ ?_)

theorem State.modTag_keeps {P : State → Prop} (hP : ClosedRegs P) (s : State) (p id : Nat) (f : Tag → Tag) (hs_ : P s) :
    P (State.modTag s p id f) := by
  unfold State.modTag
  repeat' (first | (intro _) | with_reducible assumption | with_reducible apply ite_keeps (Q := P)
                 | with_reducible apply State.modSeq_keeps hP | with_reducible refine foldl_keeps (Q := P) _ _ _ ?_ ?_
                 | split | rfl | dsimp only | with_reducible refine fields_keeps hP ?_ ?_)

theorem State.tagStart_keeps {P : State → Prop} (hP : ClosedRegs P) (s : State) (p id : Nat) (hs_ : P s) :
    P (State.tagStart s p id) := by
  unfold State.tagStart
  repeat' (first | (intro _) | with_reducible assumption | with_reducible apply ite_keeps (Q := P)
                 | with_reducible apply State.modTag_keeps hP | with_reducible apply State.toCycle_keeps hP
                 | with_reducible refine foldl_keeps (Q := P) _ _ _ ?_ ?_ | split | rfl | dsimp only
                 | with_reducible refine fields_keeps hP ?_ ?_)

theorem State.tagEnd_keeps {P : State → Prop} (hP : ClosedRegs P) (s : State) (p stop : Nat) (x : Inflight) (hs_ : P s) :
    P (State.tagEnd s p stop x) := by
  unfold State.tagEnd
  repeat' (first | (intro _) | with_reducible assumption | with_reducible apply ite_keeps (Q := P)
                 | with_reducible apply State.raise_keeps hP | with_reducible apply State.toCycle_keeps hP
                 | with_reducible apply State.wr_keeps hP | with_reducible refine foldl_keeps (Q := P) _ _ _ ?_ ?_
                 | split | rfl | dsimp only | with_reducible refine fields_keeps hP ?_ ?_)

theorem State.dropCmd_keeps {P : State → Prop} (hP : ClosedRegs P) (s : State) (p id : Nat) (hs_ : P s) :
    P (State.dropCmd s p id) := by
  unfold State.dropCmd
  repeat' (first | (intro _) | with_reducible assumption | with_reducible apply ite_keeps (Q := P)
                 | with_reducible apply State.modFabric_keeps hP | with_reducible apply State.modHitch_keeps hP
                 | with_reducible apply State.modSeq_keeps hP | with_reducible refine foldl_keeps (Q := P) _ _ _ ?_ ?_
                 | split | rfl | dsimp only | with_reducible refine fields_keeps hP ?_ ?_)

theorem State.complete_keeps {P : State → Prop} (hP : ClosedRegs P) (s : State) (p : Nat) (x : Inflight) (hs_ : P s) :
    P (State.complete s p x) := by
  unfold State.complete
  repeat' (first | (intro _) | with_reducible assumption | with_reducible apply ite_keeps (Q := P)
                 | with_reducible apply State.dropCmd_keeps hP | with_reducible apply State.tagEnd_keeps hP
                 | with_reducible apply State.incFence_keeps hP | with_reducible apply State.seqFault_keeps hP
                 | with_reducible apply State.progress_keeps hP | with_reducible apply State.modSeq_keeps hP
                 | with_reducible refine foldl_keeps (Q := P) _ _ _ ?_ ?_ | split | rfl | dsimp only
                 | with_reducible refine fields_keeps hP ?_ ?_)

theorem State.abandon_keeps {P : State → Prop} (hP : ClosedRegs P) (s : State) (p stop : Nat) (x : Inflight) (hs_ : P s) :
    P (State.abandon s p stop x) := by
  unfold State.abandon
  repeat' (first | (intro _) | with_reducible assumption | with_reducible apply ite_keeps (Q := P)
                 | with_reducible apply State.dropCmd_keeps hP | with_reducible apply State.tagEnd_keeps hP
                 | with_reducible refine foldl_keeps (Q := P) _ _ _ ?_ ?_ | split | rfl | dsimp only
                 | with_reducible refine fields_keeps hP ?_ ?_)

theorem State.abandonAll_keeps {P : State → Prop} (hP : ClosedRegs P) (s : State) (p stop : Nat) (which : Inflight → Bool) (hs_ : P s) :
    P (State.abandonAll s p stop which) := by
  unfold State.abandonAll
  repeat' (first | (intro _) | with_reducible assumption | with_reducible apply ite_keeps (Q := P)
                 | with_reducible apply State.abandon_keeps hP
                 | with_reducible refine foldl_keeps (Q := P) _ _ _ ?_ ?_ | split | rfl | dsimp only
                 | with_reducible refine fields_keeps hP ?_ ?_)

theorem State.issueDone_keeps {P : State → Prop} (hP : ClosedRegs P) (s : State) (p op : Nat) (c : Cmd) (l : Launch) (hs_ : P s) :
    P (State.issueDone s p op c l) := by
  unfold State.issueDone
  repeat' (first | (intro _) | with_reducible assumption | with_reducible apply ite_keeps (Q := P)
                 | with_reducible apply State.complete_keeps hP | with_reducible apply State.issue_keeps hP
                 | with_reducible apply State.toCycle_keeps hP
                 | with_reducible refine foldl_keeps (Q := P) _ _ _ ?_ ?_ | split | rfl | dsimp only
                 | with_reducible refine fields_keeps hP ?_ ?_)

theorem State.issueFault_keeps {P : State → Prop} (hP : ClosedRegs P) (s : State) (p : Nat) (l : Launch) (reason : Nat) (hs_ : P s) :
    P (State.issueFault s p l reason) := by
  unfold State.issueFault
  repeat' (first | (intro _) | with_reducible assumption | with_reducible apply ite_keeps (Q := P)
                 | with_reducible apply State.seqFault_keeps hP
                 | with_reducible refine foldl_keeps (Q := P) _ _ _ ?_ ?_ | split | rfl | dsimp only
                 | with_reducible refine fields_keeps hP ?_ ?_)

theorem State.issueWith_keeps {P : State → Prop} (_hP : ClosedRegs P) (s : State) (p : Nat) (c : Cmd) (f : Launch → State) (h : P s) (hf : ∀ l, P (f l)) :
    P (s.issueWith p c f) := by
  unfold State.issueWith
  split
  · exact hf _
  · exact h

theorem State.issueNeeding_keeps {P : State → Prop} (hP : ClosedRegs P) (s : State) (p : Nat) (c : Cmd) (feat : Nat) (f : Launch → State) (h : P s)
    (hf : ∀ l, P (f l)) : P (s.issueNeeding p c feat f) := by
  refine State.issueWith_keeps hP _ _ _ _ h (fun l => ?_)
  split
  · exact hf l
  · exact State.issueFault_keeps hP s p l 3 h

end Sys2Proof.Machine
end

