-- ==== Sys2Proof/Laws/KeepsOperands.lean ====
section
/-! SUPPORT. Each operation of Machine/Operands keeps every property that the primitive changes keep (Laws/Keeps). -/
namespace Sys2Proof.Machine

theorem State.setRing_keeps {P : State → Prop} (hP : ClosedRegs P) (s : State) (p r : Nat) (x : Ring) (hs_ : P s) :
    P (State.setRing s p r x) := by
  unfold State.setRing
  repeat' (first | (intro _) | with_reducible assumption | with_reducible apply ite_keeps (Q := P)
                 | with_reducible apply State.modSeq_keeps hP | with_reducible refine foldl_keeps (Q := P) _ _ _ ?_ ?_
                 | split | rfl | dsimp only | with_reducible refine fields_keeps hP ?_ ?_)

theorem State.guardRing_keeps {P : State → Prop} (hP : ClosedRegs P) (s : State) (p r : Nat) (rs : List (Nat × Nat)) (t : State) (hs_ : P s) (ht_ : P t) :
    P (State.guardRing s p r rs t) := by
  unfold State.guardRing
  repeat' (first | (intro _) | with_reducible assumption | with_reducible apply ite_keeps (Q := P)
                 | with_reducible apply State.bump_keeps hP | with_reducible refine foldl_keeps (Q := P) _ _ _ ?_ ?_
                 | split | rfl | dsimp only | with_reducible refine fields_keeps hP ?_ ?_)

theorem State.writeCons_keeps {P : State → Prop} (hP : Closed P) (s : State) (p r v : Nat) (hs_ : P s) :
    P (State.writeCons s p r v) := by
  unfold State.writeCons
  repeat' (first | (intro _) | with_reducible assumption | with_reducible apply ite_keeps (Q := P)
                 | with_reducible apply State.guardRing_keeps hP.toClosedRegs
                 | with_reducible apply State.putSpace_keeps hP
                 | with_reducible refine foldl_keeps (Q := P) _ _ _ ?_ ?_ | split | rfl | dsimp only
                 | with_reducible refine fields_keeps hP.toClosedRegs ?_ ?_)

theorem State.writeProd_keeps {P : State → Prop} (hP : Closed P) (s : State) (p r v : Nat) (hs_ : P s) :
    P (State.writeProd s p r v) := by
  unfold State.writeProd
  repeat' (first | (intro _) | with_reducible assumption | with_reducible apply ite_keeps (Q := P)
                 | with_reducible apply State.guardRing_keeps hP.toClosedRegs
                 | with_reducible apply State.putSpace_keeps hP
                 | with_reducible refine foldl_keeps (Q := P) _ _ _ ?_ ?_ | split | rfl | dsimp only
                 | with_reducible refine fields_keeps hP.toClosedRegs ?_ ?_)

theorem State.writeEntry_keeps {P : State → Prop} (hP : Closed P) (s : State) (p r i off : Nat) (l : List Byte) (hs_ : P s) :
    P (State.writeEntry s p r i off l) := by
  unfold State.writeEntry
  repeat' (first | (intro _) | with_reducible assumption | with_reducible apply ite_keeps (Q := P)
                 | with_reducible apply State.guardRing_keeps hP.toClosedRegs
                 | with_reducible apply State.putSpace_keeps hP
                 | with_reducible refine foldl_keeps (Q := P) _ _ _ ?_ ?_ | split | rfl | dsimp only
                 | with_reducible refine fields_keeps hP.toClosedRegs ?_ ?_)

end Sys2Proof.Machine
end

