-- ==== Sys2Proof/Laws/KeepsSequencer.lean ====
section
/-! SUPPORT. Each operation of Machine/Sequencer keeps every property that the primitive changes keep (Laws/Keeps). -/
namespace Sys2Proof.Machine

theorem execNop_keeps {P : State → Prop} (hP : ClosedRegs P) (p : PartId) (c : Cmd) (s : State) (hs_ : P s) :
    After P (execNop p c s) := by
  simp only [execNop, After_next]
  repeat' (first | (intro _) | with_reducible assumption | with_reducible apply ite_keeps (Q := P)
                 | with_reducible apply State.issueWith_keeps hP | with_reducible apply State.issueDone_keeps hP
                 | with_reducible refine foldl_keeps (Q := P) _ _ _ ?_ ?_ | split | rfl | dsimp only
                 | with_reducible refine fields_keeps hP ?_ ?_)

theorem execStepMark_keeps {P : State → Prop} (hP : ClosedRegs P) (p : PartId) (c : Cmd) (s : State) (hs_ : P s) :
    After P (execStepMark p c s) := by
  simp only [execStepMark, After_next]
  repeat' (first | (intro _) | with_reducible assumption | with_reducible apply ite_keeps (Q := P)
                 | with_reducible apply State.issueWith_keeps hP | with_reducible apply State.issue_keeps hP
                 | with_reducible apply State.wr_keeps hP | with_reducible refine foldl_keeps (Q := P) _ _ _ ?_ ?_
                 | split | rfl | dsimp only | with_reducible refine fields_keeps hP ?_ ?_)

theorem State.placeThreads_keeps {P : State → Prop} (hP : ClosedRegs P) (s : State) (p cmd pc arg lc n : Nat) (deferred : Bool) (hs_ : P s) :
    P (State.placeThreads s p cmd pc arg lc n deferred) := by
  unfold State.placeThreads
  repeat' (first | (intro _) | with_reducible assumption | with_reducible apply ite_keeps (Q := P)
                 | with_reducible apply State.modCluster_keeps hP
                 | with_reducible refine foldl_keeps (Q := P) _ _ _ ?_ ?_ | split | rfl | dsimp only
                 | with_reducible refine fields_keeps hP ?_ ?_)

theorem State.operandFault_keeps {P : State → Prop} (hP : ClosedRegs P) (s : State) (p : Nat) (c : Cmd) (l : Launch) (vs : List W64) (hs_ : P s) :
    P (State.operandFault s p c l vs) := by
  unfold State.operandFault
  repeat' (first | (intro _) | with_reducible assumption | with_reducible apply ite_keeps (Q := P)
                 | with_reducible apply State.issueFault_keeps hP | with_reducible apply State.bump_keeps hP
                 | with_reducible refine foldl_keeps (Q := P) _ _ _ ?_ ?_ | split | rfl | dsimp only
                 | with_reducible refine fields_keeps hP ?_ ?_)

theorem execKernel_keeps {P : State → Prop} (hP : ClosedRegs P) (p : PartId) (c : Cmd) (s : State) (hs_ : P s) :
    After P (execKernel p c s) := by
  simp only [execKernel, After_next]
  repeat' (first | (intro _) | with_reducible assumption | with_reducible apply ite_keeps (Q := P)
                 | with_reducible apply State.operandFault_keeps hP | with_reducible apply State.placeThreads_keeps hP
                 | with_reducible apply State.issueWith_keeps hP | with_reducible apply State.issueFault_keeps hP
                 | with_reducible apply State.tagStart_keeps hP | with_reducible apply State.issue_keeps hP
                 | with_reducible apply State.each_keeps hP | with_reducible refine foldl_keeps (Q := P) _ _ _ ?_ ?_
                 | split | rfl | dsimp only | with_reducible refine fields_keeps hP ?_ ?_)

theorem State.queueTx_keeps {P : State → Prop} (hP : ClosedRegs P) (s : State) (i : Nat) (l : List TxGranule) (hs_ : P s) :
    P (State.queueTx s i l) := by
  unfold State.queueTx
  repeat' (first | (intro _) | with_reducible assumption | with_reducible apply ite_keeps (Q := P)
                 | with_reducible apply State.modPort_keeps hP
                 | with_reducible refine foldl_keeps (Q := P) _ _ _ ?_ ?_ | split | rfl | dsimp only
                 | with_reducible refine fields_keeps hP ?_ ?_)

theorem State.returnCredit_keeps {P : State → Prop} (hP : ClosedRegs P) (s : State) (i v : Nat) (hs_ : P s) :
    P (State.returnCredit s i v) := by
  unfold State.returnCredit
  repeat' (first | (intro _) | with_reducible assumption | with_reducible apply ite_keeps (Q := P)
                 | with_reducible apply State.modPort_keeps hP
                 | with_reducible refine foldl_keeps (Q := P) _ _ _ ?_ ?_ | split | rfl | dsimp only
                 | with_reducible refine fields_keeps hP ?_ ?_)

theorem State.returnOrigin_keeps {P : State → Prop} (hP : ClosedRegs P) (s : State) (g : TxGranule) (hs_ : P s) :
    P (State.returnOrigin s g) := by
  unfold State.returnOrigin
  repeat' (first | (intro _) | with_reducible assumption | with_reducible apply ite_keeps (Q := P)
                 | with_reducible apply State.returnCredit_keeps hP
                 | with_reducible refine foldl_keeps (Q := P) _ _ _ ?_ ?_ | split | rfl | dsimp only
                 | with_reducible refine fields_keeps hP ?_ ?_)

theorem State.routeGranule_keeps {P : State → Prop} (hP : ClosedRegs P) (s : State) (coord : Nat) (g : Slot) (origin : Option (Nat × Nat))
    (h : P s) : ∀ t, s.routeGranule coord g origin = some t → P t := by
  intro t
  unfold State.routeGranule
  split
  · split
    · rintro ⟨⟩
      exact State.queueTx_keeps hP s _ _ h
    · exact nofun
  · exact nofun

theorem State.routeGranuleOr_keeps {P : State → Prop} (hP : ClosedRegs P) (s : State) (coord : Nat) (g : Slot) (origin : Option (Nat × Nat))
    (u : State) (h : P s) (hu : P u) : P ((s.routeGranule coord g origin).getD u) := by
  cases hr : s.routeGranule coord g origin with
  | none => exact hu
  | some t => exact State.routeGranule_keeps hP s coord g origin h t hr

theorem State.dropRemote_keeps {P : State → Prop} (hP : ClosedRegs P) (s : State) (id : Nat) (hs_ : P s) :
    P (State.dropRemote s id) := by
  unfold State.dropRemote
  repeat' (first | (intro _) | with_reducible assumption | with_reducible apply ite_keeps (Q := P)
                 | with_reducible apply State.modFabric_keeps hP
                 | with_reducible refine foldl_keeps (Q := P) _ _ _ ?_ ?_ | split | rfl | dsimp only
                 | with_reducible refine fields_keeps hP ?_ ?_)

theorem State.loseCheckpoint_keeps {P : State → Prop} (hP : ClosedRegs P) (s : State) (p : Nat) (hs_ : P s) :
    P (State.loseCheckpoint s p) := by
  unfold State.loseCheckpoint
  repeat' (first | (intro _) | with_reducible assumption | with_reducible apply ite_keeps (Q := P)
                 | with_reducible apply State.modPart_keeps hP | with_reducible apply State.wrAll_keeps hP
                 | with_reducible refine foldl_keeps (Q := P) _ _ _ ?_ ?_ | split | rfl | dsimp only
                 | with_reducible refine fields_keeps hP ?_ ?_)

theorem State.refuseRemote_keeps {P : State → Prop} (hP : ClosedRegs P) (s : State) (r : Remote) (hs_ : P s) :
    P (State.refuseRemote s r) := by
  unfold State.refuseRemote
  repeat' (first | (intro _) | with_reducible assumption | with_reducible apply ite_keeps (Q := P)
                 | with_reducible apply State.loseCheckpoint_keeps hP | with_reducible apply State.dropRemote_keeps hP
                 | with_reducible apply State.abandon_keeps hP | with_reducible apply State.seqFault_keeps hP
                 | with_reducible refine foldl_keeps (Q := P) _ _ _ ?_ ?_ | split | rfl | dsimp only
                 | with_reducible refine fields_keeps hP ?_ ?_)

theorem State.endRemote_keeps {P : State → Prop} (hP : ClosedRegs P) (s : State) (r : Remote) (hs_ : P s) :
    P (State.endRemote s r) := by
  unfold State.endRemote
  repeat' (first | (intro _) | with_reducible assumption | with_reducible apply ite_keeps (Q := P)
                 | with_reducible apply State.refuseRemote_keeps hP | with_reducible apply State.bump_keeps hP
                 | with_reducible refine foldl_keeps (Q := P) _ _ _ ?_ ?_ | split | rfl | dsimp only
                 | with_reducible refine fields_keeps hP ?_ ?_)

theorem State.takeReply_keeps {P : State → Prop} (hP : ClosedRegs P) (s : State) (id : Nat) (x : RemoteResult) (hs_ : P s) :
    P (State.takeReply s id x) := by
  unfold State.takeReply
  repeat' (first | (intro _) | with_reducible assumption | with_reducible apply ite_keeps (Q := P)
                 | with_reducible apply State.endRemote_keeps hP | with_reducible apply State.refuseRemote_keeps hP
                 | with_reducible apply State.dropRemote_keeps hP
                 | with_reducible refine foldl_keeps (Q := P) _ _ _ ?_ ?_ | split | rfl | dsimp only
                 | with_reducible refine fields_keeps hP ?_ ?_)

theorem State.sendReply_keeps {P : State → Prop} (hP : Closed P) (s : State) (to_ id : Nat) (x : RemoteResult) (hs_ : P s) :
    P (State.sendReply s to_ id x) := by
  unfold State.sendReply
  repeat' (first | (intro _) | with_reducible assumption | with_reducible apply ite_keeps (Q := P)
                 | with_reducible apply State.takeReply_keeps hP.toClosedRegs
                 | with_reducible apply State.routeGranuleOr_keeps hP.toClosedRegs
                 | exact State.routeGranule_keeps hP.toClosedRegs _ _ _ _ (by assumption) _ (by assumption)
                 | with_reducible refine foldl_keeps (Q := P) _ _ _ ?_ ?_ | split | rfl | dsimp only
                 | with_reducible refine fields_keeps hP.toClosedRegs ?_ ?_)

theorem State.transferred_keeps {P : State → Prop} (hP : ClosedRegs P) (s : State) (a n : Nat) (hs_ : P s) :
    P (State.transferred s a n) := by
  unfold State.transferred
  repeat' (first | (intro _) | with_reducible assumption | with_reducible apply ite_keeps (Q := P)
                 | with_reducible apply State.progress_keeps hP | with_reducible apply State.each_keeps hP
                 | with_reducible refine foldl_keeps (Q := P) _ _ _ ?_ ?_ | split | rfl | dsimp only
                 | with_reducible refine fields_keeps hP ?_ ?_)

theorem State.takeRemote_keeps {P : State → Prop} (hP : Closed P) (s : State) (job addr : Nat) (data : List Byte) (pieces : List Nat) (hs_ : P s) :
    P (State.takeRemote s job addr data pieces) := by
  unfold State.takeRemote
  repeat' (first | (intro _) | with_reducible assumption | with_reducible apply ite_keeps (Q := P)
                 | with_reducible apply State.transferred_keeps hP.toClosedRegs
                 | with_reducible apply State.bump_keeps hP.toClosedRegs | with_reducible apply State.store_keeps hP
                 | with_reducible refine foldl_keeps (Q := P) _ _ _ ?_ ?_ | split | rfl | dsimp only
                 | with_reducible refine fields_keeps hP.toClosedRegs ?_ ?_)

theorem State.sendRemote_keeps {P : State → Prop} (hP : Closed P) (s : State) (p cmd coord addr : Nat) (data : List Byte) (poison : List Bool) (hs_ : P s) :
    P (State.sendRemote s p cmd coord addr data poison) := by
  unfold State.sendRemote
  repeat' (first | (intro _) | with_reducible assumption | with_reducible apply ite_keeps (Q := P)
                 | with_reducible apply State.takeRemote_keeps hP
                 | with_reducible apply State.endRemote_keeps hP.toClosedRegs
                 | with_reducible apply State.refuseRemote_keeps hP.toClosedRegs
                 | with_reducible apply State.dropRemote_keeps hP.toClosedRegs
                 | with_reducible apply State.queueTx_keeps hP.toClosedRegs
                 | with_reducible apply State.modFabric_keeps hP.toClosedRegs
                 | with_reducible refine foldl_keeps (Q := P) _ _ _ ?_ ?_ | split | rfl | dsimp only
                 | with_reducible refine fields_keeps hP.toClosedRegs ?_ ?_)

theorem execMove_keeps {P : State → Prop} (hP : Closed P) (p : PartId) (c : Cmd) (s : State) (hs_ : P s) :
    After P (execMove p c s) := by
  simp only [execMove, After_next]
  repeat' (first | (intro _) | with_reducible assumption | with_reducible apply ite_keeps (Q := P)
                 | with_reducible apply State.sendRemote_keeps hP
                 | with_reducible apply State.transferred_keeps hP.toClosedRegs
                 | with_reducible apply State.operandFault_keeps hP.toClosedRegs
                 | with_reducible apply State.issueWith_keeps hP.toClosedRegs
                 | with_reducible apply State.issueFault_keeps hP.toClosedRegs
                 | with_reducible apply State.issueDone_keeps hP.toClosedRegs
                 | with_reducible apply State.tagStart_keeps hP.toClosedRegs
                 | with_reducible apply State.issue_keeps hP.toClosedRegs | with_reducible apply State.copy_keeps hP
                 | with_reducible refine foldl_keeps (Q := P) _ _ _ ?_ ?_ | split | rfl | dsimp only
                 | with_reducible refine fields_keeps hP.toClosedRegs ?_ ?_)

theorem execLaunchComplete_keeps {P : State → Prop} (hP : Closed P) (p : PartId) (s : State) (hs_ : P s) :
    After P (execLaunchComplete p s) := by
  simp only [execLaunchComplete, After_next]
  repeat' (first | (intro _) | with_reducible assumption | with_reducible apply ite_keeps (Q := P)
                 | with_reducible apply State.writeEntry_keeps hP | with_reducible apply State.writeCons_keeps hP
                 | with_reducible apply State.setRing_keeps hP.toClosedRegs
                 | with_reducible apply State.modSeq_keeps hP.toClosedRegs
                 | with_reducible refine foldl_keeps (Q := P) _ _ _ ?_ ?_ | split | rfl | dsimp only
                 | with_reducible refine fields_keeps hP.toClosedRegs ?_ ?_)

theorem execRingPoll_keeps {P : State → Prop} (hP : ClosedRegs P) (p : PartId) (r : Fin 4) (s : State) (hs_ : P s) :
    After P (execRingPoll p r s) := by
  simp only [execRingPoll, After_next]
  repeat' (first | (intro _) | with_reducible assumption | with_reducible apply ite_keeps (Q := P)
                 | with_reducible apply State.guardRing_keeps hP | with_reducible apply State.setRing_keeps hP
                 | with_reducible apply State.seqFault_keeps hP
                 | with_reducible refine foldl_keeps (Q := P) _ _ _ ?_ ?_ | split | rfl | dsimp only
                 | with_reducible refine fields_keeps hP ?_ ?_)

theorem State.takeLaunch_keeps {P : State → Prop} (hP : ClosedRegs P) (s : State) (p ell : Nat) (l : Launch) (hs_ : P s) :
    P (State.takeLaunch s p ell l) := by
  unfold State.takeLaunch
  repeat' (first | with_reducible assumption | with_reducible apply State.modSeq_keeps hP | with_reducible apply State.setRing_keeps hP
                 | dsimp only)

theorem execLaunchEntry_keeps {P : State → Prop} (hP : ClosedRegs P) (p : PartId) (s : State) (hs_ : P s) :
    After P (execLaunchEntry p s) := by
  simp only [execLaunchEntry, After_next]
  repeat' (first | (intro _) | with_reducible assumption | with_reducible apply ite_keeps (Q := P)
                 | with_reducible apply State.takeLaunch_keeps hP | with_reducible apply State.seqFault_keeps hP
                 | with_reducible apply State.bump_keeps hP | with_reducible refine foldl_keeps (Q := P) _ _ _ ?_ ?_
                 | split | rfl | dsimp only | with_reducible refine fields_keeps hP ?_ ?_)

theorem State.consumeSkip_keeps {P : State → Prop} (hP : Closed P) (s : State) (p : Nat) (hs_ : P s) :
    P (State.consumeSkip s p) := by
  unfold State.consumeSkip
  repeat' (first | (intro _) | with_reducible assumption | with_reducible apply ite_keeps (Q := P)
                 | with_reducible apply State.writeCons_keeps hP
                 | with_reducible apply State.setRing_keeps hP.toClosedRegs
                 | with_reducible refine foldl_keeps (Q := P) _ _ _ ?_ ?_ | split | rfl | dsimp only
                 | with_reducible refine fields_keeps hP.toClosedRegs ?_ ?_)

theorem execSkipEntry_keeps {P : State → Prop} (hP : Closed P) (p : PartId) (s : State) (hs_ : P s) :
    After P (execSkipEntry p s) := by
  simp only [execSkipEntry, After_next]
  repeat' (first | (intro _) | with_reducible assumption | with_reducible apply ite_keeps (Q := P)
                 | with_reducible apply State.consumeSkip_keeps hP
                 | with_reducible apply State.setRing_keeps hP.toClosedRegs
                 | with_reducible refine foldl_keeps (Q := P) _ _ _ ?_ ?_ | split | rfl | dsimp only
                 | with_reducible refine fields_keeps hP.toClosedRegs ?_ ?_)

theorem State.bindTo_keeps {P : State → Prop} (hP : ClosedRegs P) (s : State) (p : Nat) (valid : Bool) (ctx : Nat) (hs_ : P s) :
    P (State.bindTo s p valid ctx) := by
  unfold State.bindTo
  repeat' (first | (intro _) | with_reducible assumption | with_reducible apply ite_keeps (Q := P)
                 | with_reducible apply State.abandon_keeps hP | with_reducible apply State.modCluster_keeps hP
                 | with_reducible apply State.modSeq_keeps hP | with_reducible apply State.each_keeps hP
                 | with_reducible apply State.wrAll_keeps hP | with_reducible apply State.wr_keeps hP
                 | with_reducible refine foldl_keeps (Q := P) _ _ _ ?_ ?_ | split | rfl | dsimp only
                 | with_reducible refine fields_keeps hP ?_ ?_)

theorem execContextBind_keeps {P : State → Prop} (hP : ClosedRegs P) (p : PartId) (valid : Bool) (ctx : Fin 8) (s : State) (hs_ : P s) :
    After P (execContextBind p valid ctx s) := by
  simp only [execContextBind, After_next]
  repeat' (first | (intro _) | with_reducible assumption | with_reducible apply ite_keeps (Q := P)
                 | with_reducible apply State.bindTo_keeps hP | with_reducible apply State.wr_keeps hP
                 | with_reducible refine foldl_keeps (Q := P) _ _ _ ?_ ?_ | split | rfl | dsimp only
                 | with_reducible refine fields_keeps hP ?_ ?_)

theorem State.writeRun_keeps {P : State → Prop} (hP : ClosedRegs P) (s : State) (p : Nat) (run : Bool) (hs_ : P s) :
    P (State.writeRun s p run) := by
  unfold State.writeRun
  repeat' (first | (intro _) | with_reducible assumption | with_reducible apply ite_keeps (Q := P)
                 | with_reducible apply State.wr_keeps hP | with_reducible refine foldl_keeps (Q := P) _ _ _ ?_ ?_
                 | split | rfl | dsimp only | with_reducible refine fields_keeps hP ?_ ?_)

theorem execSequencerRun_keeps {P : State → Prop} (hP : ClosedRegs P) (p : PartId) (run : Bool) (s : State) (hs_ : P s) :
    After P (execSequencerRun p run s) := by
  simp only [execSequencerRun, After_next]
  repeat' (first | (intro _) | with_reducible assumption | with_reducible apply ite_keeps (Q := P)
                 | with_reducible apply State.writeRun_keeps hP
                 | with_reducible refine foldl_keeps (Q := P) _ _ _ ?_ ?_ | split | rfl | dsimp only
                 | with_reducible refine fields_keeps hP ?_ ?_)

theorem State.clearFences_keeps {P : State → Prop} (hP : ClosedRegs P) (s : State) (p : Nat) (hs_ : P s) :
    P (State.clearFences s p) := by
  unfold State.clearFences
  repeat' (first | (intro _) | with_reducible assumption | with_reducible apply ite_keeps (Q := P)
                 | with_reducible apply State.modSeq_keeps hP | with_reducible apply State.wr_keeps hP
                 | with_reducible refine foldl_keeps (Q := P) _ _ _ ?_ ?_ | split | rfl | dsimp only
                 | with_reducible refine fields_keeps hP ?_ ?_)

theorem execFenceClear_keeps {P : State → Prop} (hP : ClosedRegs P) (p : PartId) (s : State) (hs_ : P s) :
    After P (execFenceClear p s) := by
  simp only [execFenceClear, After_next]
  repeat' (first | (intro _) | with_reducible assumption | with_reducible apply ite_keeps (Q := P)
                 | with_reducible apply State.clearFences_keeps hP
                 | with_reducible refine foldl_keeps (Q := P) _ _ _ ?_ ?_ | split | rfl | dsimp only
                 | with_reducible refine fields_keeps hP ?_ ?_)

theorem State.faultWaiting_keeps {P : State → Prop} (hP : ClosedRegs P) (s : State) (p r : Nat) (hs_ : P s) :
    P (State.faultWaiting s p r) := by
  unfold State.faultWaiting
  repeat' (first | (intro _) | with_reducible assumption | with_reducible apply ite_keeps (Q := P)
                 | with_reducible apply State.abandon_keeps hP | with_reducible apply State.seqFault_keeps hP
                 | with_reducible refine foldl_keeps (Q := P) _ _ _ ?_ ?_ | split | rfl | dsimp only
                 | with_reducible refine fields_keeps hP ?_ ?_)

theorem State.writeRingCfg_keeps {P : State → Prop} (hP : Closed P) (s : State) (p r v : Nat) (hs_ : P s) :
    P (State.writeRingCfg s p r v) := by
  unfold State.writeRingCfg
  repeat' (first | (intro _) | with_reducible assumption | with_reducible apply ite_keeps (Q := P)
                 | with_reducible apply State.faultWaiting_keeps hP.toClosedRegs
                 | with_reducible apply State.writeProd_keeps hP | with_reducible apply State.writeCons_keeps hP
                 | with_reducible apply State.setRing_keeps hP.toClosedRegs
                 | with_reducible apply State.modSeq_keeps hP.toClosedRegs
                 | with_reducible apply State.wrAll_keeps hP.toClosedRegs
                 | with_reducible refine foldl_keeps (Q := P) _ _ _ ?_ ?_ | split | rfl | dsimp only
                 | with_reducible refine fields_keeps hP.toClosedRegs ?_ ?_)

theorem execRingEnable_keeps {P : State → Prop} (hP : Closed P) (p : PartId) (r : Fin 4) (cfg : W32) (s : State) (hs_ : P s) :
    After P (execRingEnable p r cfg s) := by
  simp only [execRingEnable, After_next]
  repeat' (first | (intro _) | with_reducible assumption | with_reducible apply ite_keeps (Q := P)
                 | with_reducible apply State.writeRingCfg_keeps hP
                 | with_reducible refine foldl_keeps (Q := P) _ _ _ ?_ ?_ | split | rfl | dsimp only
                 | with_reducible refine fields_keeps hP.toClosedRegs ?_ ?_)

theorem State.rollWindow_keeps {P : State → Prop} (hP : ClosedRegs P) (s : State) (p : Nat) (hs_ : P s) :
    P (State.rollWindow s p) := by
  unfold State.rollWindow
  repeat' (first | (intro _) | with_reducible assumption | with_reducible apply ite_keeps (Q := P)
                 | with_reducible apply State.modSeq_keeps hP | with_reducible apply State.wr_keeps hP
                 | with_reducible refine foldl_keeps (Q := P) _ _ _ ?_ ?_ | split | rfl | dsimp only
                 | with_reducible refine fields_keeps hP ?_ ?_)

theorem State.countObjects_keeps {P : State → Prop} (hP : ClosedRegs P) (s : State) (p n : Nat) (hs_ : P s) :
    P (State.countObjects s p n) := by
  unfold State.countObjects
  repeat' (first | (intro _) | with_reducible assumption | with_reducible apply ite_keeps (Q := P)
                 | with_reducible apply State.rollWindow_keeps hP | with_reducible apply State.modSeq_keeps hP
                 | with_reducible apply State.addReg_keeps hP | with_reducible refine foldl_keeps (Q := P) _ _ _ ?_ ?_
                 | split | rfl | dsimp only | with_reducible refine fields_keeps hP ?_ ?_)

theorem execRateWindow_keeps {P : State → Prop} (hP : ClosedRegs P) (p : PartId) (s : State) (hs_ : P s) :
    After P (execRateWindow p s) := by
  simp only [execRateWindow, After_next]
  repeat' (first | (intro _) | with_reducible assumption | with_reducible apply ite_keeps (Q := P)
                 | with_reducible apply State.rollWindow_keeps hP
                 | with_reducible refine foldl_keeps (Q := P) _ _ _ ?_ ?_ | split | rfl | dsimp only
                 | with_reducible refine fields_keeps hP ?_ ?_)

end Sys2Proof.Machine
end

