-- ==== Sys2Proof/Laws/KeepsLink.lean ====
section
/-! SUPPORT. Each operation of Machine/Link keeps every property that the primitive changes keep (Laws/Keeps). -/
namespace Sys2Proof.Machine

theorem State.purge_keeps {P : State → Prop} (hP : ClosedRegs P) (s : State) (drop : Slot → Bool) (hs_ : P s) :
    P (State.purge s drop) := by
  unfold State.purge
  repeat' (first | (intro _) | with_reducible assumption | with_reducible apply ite_keeps (Q := P)
                 | with_reducible apply State.returnOrigin_keeps hP | with_reducible apply State.modPort_keeps hP
                 | with_reducible apply State.each_keeps hP | with_reducible refine foldl_keeps (Q := P) _ _ _ ?_ ?_
                 | split | rfl | dsimp only | with_reducible refine fields_keeps hP ?_ ?_)

theorem State.breakWrite_keeps {P : State → Prop} (hP : Closed P) (s : State) (w : Nat × Nat) (hs_ : P s) :
    P (State.breakWrite s w) := by
  unfold State.breakWrite
  repeat' (first | (intro _) | with_reducible assumption | with_reducible apply ite_keeps (Q := P)
                 | with_reducible apply State.purge_keeps hP.toClosedRegs
                 | with_reducible apply State.sendReply_keeps hP
                 | with_reducible apply State.endRemote_keeps hP.toClosedRegs
                 | with_reducible apply State.modFabric_keeps hP.toClosedRegs
                 | with_reducible refine foldl_keeps (Q := P) _ _ _ ?_ ?_ | split | rfl | dsimp only
                 | with_reducible refine fields_keeps hP.toClosedRegs ?_ ?_)

theorem State.portDown_keeps {P : State → Prop} (hP : Closed P) (s : State) (i link : Nat) (hs_ : P s) :
    P (State.portDown s i link) := by
  unfold State.portDown
  repeat' (first | (intro _) | with_reducible assumption | with_reducible apply ite_keeps (Q := P)
                 | with_reducible apply State.breakWrite_keeps hP
                 | with_reducible apply State.emitToken_keeps hP.toClosedRegs
                 | with_reducible apply State.bump_keeps hP.toClosedRegs
                 | with_reducible apply State.raise_keeps hP.toClosedRegs
                 | with_reducible apply State.modPort_keeps hP.toClosedRegs
                 | with_reducible apply State.wrAll_keeps hP.toClosedRegs
                 | with_reducible apply State.wr_keeps hP.toClosedRegs
                 | with_reducible refine foldl_keeps (Q := P) _ _ _ ?_ ?_ | split | rfl | dsimp only
                 | with_reducible refine fields_keeps hP.toClosedRegs ?_ ?_)

theorem State.clearBlock_keeps {P : State → Prop} (hP : Closed P) (s : State) (x_ : Block) (hs_ : P s) :
    P (State.clearBlock s x_) := by
  cases x_ <;> unfold State.clearBlock <;>
  repeat' (first | (intro _) | with_reducible assumption | with_reducible apply ite_keeps (Q := P)
                 | with_reducible apply State.portDown_keeps hP
                 | with_reducible apply State.abandonAll_keeps hP.toClosedRegs
                 | with_reducible apply State.clearWing_keeps hP.toClosedRegs
                 | with_reducible apply State.modCluster_keeps hP.toClosedRegs
                 | with_reducible apply State.modSeq_keeps hP.toClosedRegs
                 | with_reducible apply State.modPart_keeps hP.toClosedRegs
                 | with_reducible apply State.wr_keeps hP.toClosedRegs
                 | with_reducible refine foldl_keeps (Q := P) _ _ _ ?_ ?_ | split | rfl | dsimp only
                 | with_reducible refine fields_keeps hP.toClosedRegs ?_ ?_)

theorem State.interruptBlock_keeps {P : State → Prop} (hP : ClosedRegs P) (s : State) (x_ : Block) (hs_ : P s) :
    P (State.interruptBlock s x_) := by
  cases x_ <;> unfold State.interruptBlock <;>
  repeat' (first | (intro _) | with_reducible assumption | with_reducible apply ite_keeps (Q := P)
                 | with_reducible apply State.interruptPart_keeps hP
                 | with_reducible apply State.interruptSlots_keeps hP
                 | with_reducible refine foldl_keeps (Q := P) _ _ _ ?_ ?_ | split | rfl | dsimp only
                 | with_reducible refine fields_keeps hP ?_ ?_)

theorem State.engineReset_keeps {P : State → Prop} (hP : Closed P) (s : State) (b : Block) (hs_ : P s) :
    P (State.engineReset s b) := by
  unfold State.engineReset
  repeat' (first | (intro _) | with_reducible assumption | with_reducible apply ite_keeps (Q := P)
                 | with_reducible apply State.interruptBlock_keeps hP.toClosedRegs
                 | with_reducible apply State.clearBlock_keeps hP
                 | with_reducible apply State.emitToken_keeps hP.toClosedRegs
                 | with_reducible apply State.bump_keeps hP.toClosedRegs
                 | with_reducible apply State.wrAll_keeps hP.toClosedRegs
                 | with_reducible refine foldl_keeps (Q := P) _ _ _ ?_ ?_ | split | rfl | dsimp only
                 | with_reducible refine fields_keeps hP.toClosedRegs ?_ ?_)

end Sys2Proof.Machine
end

