-- ==== Sys2Proof/Laws/KeepsRepair.lean ====
section
/-! SUPPORT. Each operation of Machine/Repair keeps every property that the primitive changes keep (Laws/Keeps). -/
namespace Sys2Proof.Machine

theorem State.setBit_keeps {P : State → Prop} (hP : ClosedRegs P) (s : State) (pg : Page) (f : Field) (i : Nat) (v : Bool) (hs_ : P s) :
    P (State.setBit s pg f i v) := by
  unfold State.setBit
  repeat' (first | (intro _) | with_reducible assumption | with_reducible apply ite_keeps (Q := P)
                 | with_reducible apply State.wr_keeps hP | with_reducible refine foldl_keeps (Q := P) _ _ _ ?_ ?_
                 | split | rfl | dsimp only | with_reducible refine fields_keeps hP ?_ ?_)

theorem State.trigger_keeps {P : State → Prop} (hP : ClosedRegs P) (s : State) (p w : Nat) (k : TrigKind) (hs_ : P s) :
    P (State.trigger s p w k) := by
  unfold State.trigger
  repeat' (first | (intro _) | with_reducible assumption | with_reducible apply ite_keeps (Q := P)
                 | with_reducible apply State.setBit_keeps hP | with_reducible apply State.bump_keeps hP
                 | with_reducible apply State.modCal_keeps hP | with_reducible refine foldl_keeps (Q := P) _ _ _ ?_ ?_
                 | split | rfl | dsimp only | with_reducible refine fields_keeps hP ?_ ?_)

theorem State.triggerState_keeps {P : State → Prop} (hP : ClosedRegs P) (s : State) (p w : Nat) (k : TrigKind) (hs_ : P s) :
    P (State.triggerState s p w k) := by
  unfold State.triggerState
  repeat' (first | (intro _) | with_reducible assumption | with_reducible apply ite_keeps (Q := P)
                 | with_reducible apply State.trigger_keeps hP
                 | with_reducible refine foldl_keeps (Q := P) _ _ _ ?_ ?_ | split | rfl | dsimp only
                 | with_reducible refine fields_keeps hP ?_ ?_)

theorem State.queueLoad_keeps {P : State → Prop} (hP : ClosedRegs P) (s : State) (p : Nat) (kind : SeatKind) (lw b ls pw ps : Nat) (hs_ : P s) :
    P (State.queueLoad s p kind lw b ls pw ps) := by
  unfold State.queueLoad
  repeat' (first | (intro _) | with_reducible assumption | with_reducible apply ite_keeps (Q := P)
                 | with_reducible apply State.modPart_keeps hP
                 | with_reducible refine foldl_keeps (Q := P) _ _ _ ?_ ?_ | split | rfl | dsimp only
                 | with_reducible refine fields_keeps hP ?_ ?_)

theorem State.dropLoads_keeps {P : State → Prop} (hP : ClosedRegs P) (s : State) (p pw b ps : Nat) (hs_ : P s) :
    P (State.dropLoads s p pw b ps) := by
  unfold State.dropLoads
  repeat' (first | (intro _) | with_reducible assumption | with_reducible apply ite_keeps (Q := P)
                 | with_reducible apply State.modPart_keeps hP
                 | with_reducible refine foldl_keeps (Q := P) _ _ _ ?_ ?_ | split | rfl | dsimp only
                 | with_reducible refine fields_keeps hP ?_ ?_)

theorem State.countRetired_keeps {P : State → Prop} (hP : ClosedRegs P) (s : State) (p w b : Nat) (hs_ : P s) :
    P (State.countRetired s p w b) := by
  unfold State.countRetired
  repeat' (first | (intro _) | with_reducible assumption | with_reducible apply ite_keeps (Q := P)
                 | with_reducible apply State.bump_keeps hP | with_reducible apply State.raise_keeps hP
                 | with_reducible apply State.addReg_keeps hP | with_reducible apply State.wr_keeps hP
                 | with_reducible refine foldl_keeps (Q := P) _ _ _ ?_ ?_ | split | rfl | dsimp only
                 | with_reducible refine fields_keeps hP ?_ ?_)

theorem State.endCal_keeps {P : State → Prop} (hP : ClosedRegs P) (s : State) (p w : Nat) (hs_ : P s) :
    P (State.endCal s p w) := by
  unfold State.endCal
  repeat' (first | (intro _) | with_reducible assumption | with_reducible apply ite_keeps (Q := P)
                 | with_reducible apply State.setBit_keeps hP | with_reducible apply State.modCal_keeps hP
                 | with_reducible apply State.wr_keeps hP | with_reducible refine foldl_keeps (Q := P) _ _ _ ?_ ?_
                 | split | rfl | dsimp only | with_reducible refine fields_keeps hP ?_ ?_)

end Sys2Proof.Machine
end

