-- ==== Sys2Proof/Laws/KeepsTiles.lean ====
section
/-! SUPPORT. Each operation of Machine/Tiles keeps every property that the primitive changes keep (Laws/Keeps). -/
namespace Sys2Proof.Machine

theorem State.modProduct_keeps {P : State → Prop} (hP : ClosedRegs P) (s : State) (p id : Nat) (f : Product → Product) (hs_ : P s) :
    P (State.modProduct s p id f) := by
  unfold State.modProduct
  repeat' (first | (intro _) | with_reducible assumption | with_reducible apply ite_keeps (Q := P)
                 | with_reducible apply State.modPart_keeps hP
                 | with_reducible refine foldl_keeps (Q := P) _ _ _ ?_ ?_ | split | rfl | dsimp only
                 | with_reducible refine fields_keeps hP ?_ ?_)

theorem State.tagProduct_keeps {P : State → Prop} (hP : ClosedRegs P) (s : State) (p product : Nat) (f : Tag → Tag) (hs_ : P s) :
    P (State.tagProduct s p product f) := by
  unfold State.tagProduct
  repeat' (first | (intro _) | with_reducible assumption | with_reducible apply ite_keeps (Q := P)
                 | with_reducible apply State.modTag_keeps hP | with_reducible refine foldl_keeps (Q := P) _ _ _ ?_ ?_
                 | split | rfl | dsimp only | with_reducible refine fields_keeps hP ?_ ?_)

theorem State.flagTrouble_keeps {P : State → Prop} (hP : ClosedRegs P) (s : State) (p : Nat) (f : Field) (hs_ : P s) :
    P (State.flagTrouble s p f) := by
  unfold State.flagTrouble
  repeat' (first | (intro _) | with_reducible assumption | with_reducible apply ite_keeps (Q := P)
                 | with_reducible apply State.raise_keeps hP | with_reducible apply State.wr_keeps hP
                 | with_reducible refine foldl_keeps (Q := P) _ _ _ ?_ ?_ | split | rfl | dsimp only
                 | with_reducible refine fields_keeps hP ?_ ?_)

theorem State.signalTrouble_keeps {P : State → Prop} (hP : ClosedRegs P) (s : State) (p n : Nat) (f : Field) (hs_ : P s) :
    P (State.signalTrouble s p n f) := by
  unfold State.signalTrouble
  repeat' (first | (intro _) | with_reducible assumption | with_reducible apply ite_keeps (Q := P)
                 | with_reducible apply State.flagTrouble_keeps hP | with_reducible apply State.bump_keeps hP
                 | with_reducible refine foldl_keeps (Q := P) _ _ _ ?_ ?_ | split | rfl | dsimp only
                 | with_reducible refine fields_keeps hP ?_ ?_)

theorem State.modTile_keeps {P : State → Prop} (hP : ClosedRegs P) (s : State) (p w id : Nat) (f : Tile → Tile) (hs_ : P s) :
    P (State.modTile s p w id f) := by
  unfold State.modTile
  repeat' (first | (intro _) | with_reducible assumption | with_reducible apply ite_keeps (Q := P)
                 | with_reducible apply State.modWing_keeps hP
                 | with_reducible refine foldl_keeps (Q := P) _ _ _ ?_ ?_ | split | rfl | dsimp only
                 | with_reducible refine fields_keeps hP ?_ ?_)

theorem State.feedTile_keeps {P : State → Prop} (hP : ClosedRegs P) (s : State) (p w id rung : Nat) (g : Segment) (hs_ : P s) :
    P (State.feedTile s p w id rung g) := by
  unfold State.feedTile
  repeat' (first | (intro _) | with_reducible assumption | with_reducible apply ite_keeps (Q := P)
                 | with_reducible apply State.modTile_keeps hP | with_reducible apply State.modWing_keeps hP
                 | with_reducible refine foldl_keeps (Q := P) _ _ _ ?_ ?_ | split | rfl | dsimp only
                 | with_reducible refine fields_keeps hP ?_ ?_)

theorem State.recordRung_keeps {P : State → Prop} (hP : ClosedRegs P) (s : State) (p lw : Nat) (t : Tile) (hs_ : P s) :
    P (State.recordRung s p lw t) := by
  unfold State.recordRung
  repeat' (first | (intro _) | with_reducible assumption | with_reducible apply ite_keeps (Q := P)
                 | with_reducible apply State.modPart_keeps hP
                 | with_reducible refine foldl_keeps (Q := P) _ _ _ ?_ ?_ | split | rfl | dsimp only
                 | with_reducible refine fields_keeps hP ?_ ?_)

theorem State.queueGroup_keeps {P : State → Prop} (hP : ClosedRegs P) (s : State) (p w product token gi : Nat) (ts : List (List Nat)) (hs_ : P s) :
    P (State.queueGroup s p w product token gi ts) := by
  unfold State.queueGroup
  repeat' (first | (intro _) | with_reducible assumption | with_reducible apply ite_keeps (Q := P)
                 | with_reducible apply State.syncWing_keeps hP | with_reducible apply State.modWing_keeps hP
                 | with_reducible refine foldl_keeps (Q := P) _ _ _ ?_ ?_ | split | rfl | dsimp only
                 | with_reducible refine fields_keeps hP ?_ ?_)

theorem State.finishGroup_keeps {P : State → Prop} (hP : ClosedRegs P) (s : State) (p w : Nat) (d : Product) (token gi : Nat) (hs_ : P s) :
    P (State.finishGroup s p w d token gi) := by
  unfold State.finishGroup
  repeat' (first | (intro _) | with_reducible assumption | with_reducible apply ite_keeps (Q := P)
                 | with_reducible apply State.queueGroup_keeps hP | with_reducible apply State.modWing_keeps hP
                 | with_reducible refine foldl_keeps (Q := P) _ _ _ ?_ ?_ | split | rfl | dsimp only
                 | with_reducible refine fields_keeps hP ?_ ?_)

theorem State.flushGroups_keeps {P : State → Prop} (hP : ClosedRegs P) (s : State) (p w n : Nat) (h : P s) : P (s.flushGroups p w n) := by
  induction n generalizing s with
  | zero => exact h
  | succ n ih =>
    unfold State.flushGroups
    split
    · refine ite_keeps _ _ _ h ?_
      have hm := fun f => State.modWing_keeps hP s p w f h
      dsimp only
      split
      · exact ih _ (State.queueGroup_keeps hP _ _ _ _ _ _ _ (hm _))
      · exact ih _ (hm _)
    · exact h

theorem State.deliverOne_keeps {P : State → Prop} (hP : ClosedRegs P) (s : State) (p : Nat) (hs_ : P s) :
    P (State.deliverOne s p) := by
  unfold State.deliverOne
  repeat' (first | (intro _) | with_reducible assumption | with_reducible apply ite_keeps (Q := P)
                 | with_reducible apply State.flushGroups_keeps hP | with_reducible apply State.syncWing_keeps hP
                 | with_reducible apply State.modWing_keeps hP | with_reducible apply State.modPart_keeps hP
                 | with_reducible refine foldl_keeps (Q := P) _ _ _ ?_ ?_ | split | rfl | dsimp only
                 | with_reducible refine fields_keeps hP ?_ ?_)

theorem State.deliver_keeps {P : State → Prop} (hP : ClosedRegs P) (s : State) (p product token : Nat) (gis : List Nat) (n : Nat) (h : P s) :
    P (s.deliver p product token gis n) := by
  induction n generalizing s with
  | zero => exact h
  | succ n ih =>
    unfold State.deliver
    exact ite_keeps _ _ _ h (ih _ (State.deliverOne_keeps hP s p h))

theorem State.restoreGain_keeps {P : State → Prop} (hP : ClosedRegs P) (s : State) (p w : Nat) (d : Product) (t : Tile) (hs_ : P s) :
    P (State.restoreGain s p w d t) := by
  unfold State.restoreGain
  repeat' (first | (intro _) | with_reducible assumption | with_reducible apply ite_keeps (Q := P)
                 | with_reducible apply State.modScale_keeps hP
                 | with_reducible refine foldl_keeps (Q := P) _ _ _ ?_ ?_ | split | rfl | dsimp only
                 | with_reducible refine fields_keeps hP ?_ ?_)

theorem State.settleTile_keeps {P : State → Prop} (hP : ClosedRegs P) (s : State) (p lw w : Nat) (d : Product) (id : Nat) (hs_ : P s) :
    P (State.settleTile s p lw w d id) := by
  unfold State.settleTile
  repeat' (first | (intro _) | with_reducible assumption | with_reducible apply ite_keeps (Q := P)
                 | with_reducible apply State.finishGroup_keeps hP | with_reducible apply State.recordRung_keeps hP
                 | with_reducible refine foldl_keeps (Q := P) _ _ _ ?_ ?_ | split | rfl | dsimp only
                 | with_reducible refine fields_keeps hP ?_ ?_)

theorem State.sendToL3_keeps {P : State → Prop} (hP : ClosedRegs P) (s : State) (p lw w : Nat) (d : Product) (id : Nat) (hs_ : P s) :
    P (State.sendToL3 s p lw w d id) := by
  unfold State.sendToL3
  repeat' (first | (intro _) | with_reducible assumption | with_reducible apply ite_keeps (Q := P)
                 | with_reducible apply State.settleTile_keeps hP | with_reducible apply State.restoreGain_keeps hP
                 | with_reducible apply State.modTile_keeps hP | with_reducible apply State.modWing_keeps hP
                 | with_reducible refine foldl_keeps (Q := P) _ _ _ ?_ ?_ | split | rfl | dsimp only
                 | with_reducible refine fields_keeps hP ?_ ?_)

theorem State.closeTile_keeps {P : State → Prop} (hP : ClosedRegs P) (s : State) (p lw w : Nat) (d : Product) (id : Nat) (hs_ : P s) :
    P (State.closeTile s p lw w d id) := by
  unfold State.closeTile
  repeat' (first | (intro _) | with_reducible assumption | with_reducible apply ite_keeps (Q := P)
                 | with_reducible apply State.settleTile_keeps hP | with_reducible apply State.restoreGain_keeps hP
                 | with_reducible apply State.modTile_keeps hP
                 | with_reducible refine foldl_keeps (Q := P) _ _ _ ?_ ?_ | split | rfl | dsimp only
                 | with_reducible refine fields_keeps hP ?_ ?_)

theorem State.sendUp_keeps {P : State → Prop} (hP : ClosedRegs P) (s : State) (p w : Nat) (gs : List (Segment × Bool)) (hs_ : P s) :
    P (State.sendUp s p w gs) := by
  unfold State.sendUp
  repeat' (first | (intro _) | with_reducible assumption | with_reducible apply ite_keeps (Q := P)
                 | with_reducible apply State.modPart_keeps hP
                 | with_reducible refine foldl_keeps (Q := P) _ _ _ ?_ ?_ | split | rfl | dsimp only
                 | with_reducible refine fields_keeps hP ?_ ?_)

theorem State.sendDigits_keeps {P : State → Prop} (hP : ClosedRegs P) (s : State) (p w : Nat) (d : Product) (token rb : Nat) (qs : List (List Nat)) (hs_ : P s) :
    P (State.sendDigits s p w d token rb qs) := by
  unfold State.sendDigits
  repeat' (first | (intro _) | with_reducible assumption | with_reducible apply ite_keeps (Q := P)
                 | with_reducible apply State.sendUp_keeps hP | with_reducible refine foldl_keeps (Q := P) _ _ _ ?_ ?_
                 | split | rfl | dsimp only | with_reducible refine fields_keeps hP ?_ ?_)

theorem State.escalate_keeps {P : State → Prop} (hP : ClosedRegs P) (s : State) (p lw w : Nat) (d : Product) (t : Tile) (hs_ : P s) :
    P (State.escalate s p lw w d t) := by
  unfold State.escalate
  repeat' (first | (intro _) | with_reducible assumption | with_reducible apply ite_keeps (Q := P)
                 | with_reducible apply State.sendDigits_keeps hP | with_reducible apply State.sendToL3_keeps hP
                 | with_reducible apply State.feedTile_keeps hP | with_reducible apply State.modTile_keeps hP
                 | with_reducible apply State.bump_keeps hP | with_reducible apply State.modWing_keeps hP
                 | with_reducible refine foldl_keeps (Q := P) _ _ _ ?_ ?_ | split | rfl | dsimp only
                 | with_reducible refine fields_keeps hP ?_ ?_)

end Sys2Proof.Machine
end

