-- ==== Sys2Proof/Laws/KeepsRetire.lean ====
section
/-! SUPPORT. Each operation of Machine/Retire keeps every property that the primitive changes keep (Laws/Keeps). -/
namespace Sys2Proof.Machine

theorem State.tilesToL3_keeps {P : State → Prop} (hP : ClosedRegs P) (s : State) (p lw w : Nat) (hit : Tile → Bool) (hs_ : P s) :
    P (State.tilesToL3 s p lw w hit) := by
  unfold State.tilesToL3
  repeat' (first | (intro _) | with_reducible assumption | with_reducible apply ite_keeps (Q := P)
                 | with_reducible apply State.sendToL3_keeps hP
                 | with_reducible refine foldl_keeps (Q := P) _ _ _ ?_ ?_ | split | rfl | dsimp only
                 | with_reducible refine fields_keeps hP ?_ ?_)

theorem State.takeOverWing_keeps {P : State → Prop} (hP : ClosedRegs P) (s : State) (p w lw v : Nat) (hs_ : P s) :
    P (State.takeOverWing s p w lw v) := by
  unfold State.takeOverWing
  repeat' (first | (intro _) | with_reducible assumption | with_reducible apply ite_keeps (Q := P)
                 | with_reducible apply State.tilesToL3_keeps hP | with_reducible apply State.queueLoad_keeps hP
                 | with_reducible apply State.syncWing_keeps hP | with_reducible apply State.raise_keeps hP
                 | with_reducible apply State.modScale_keeps hP | with_reducible apply State.modWing_keeps hP
                 | with_reducible apply State.modPart_keeps hP | with_reducible apply State.each_keeps hP
                 | with_reducible apply State.wr_keeps hP | with_reducible refine foldl_keeps (Q := P) _ _ _ ?_ ?_
                 | split | rfl | dsimp only | with_reducible refine fields_keeps hP ?_ ?_)

theorem State.failWing_keeps {P : State → Prop} (hP : ClosedRegs P) (s : State) (p w : Nat) (hs_ : P s) :
    P (State.failWing s p w) := by
  unfold State.failWing
  repeat' (first | (intro _) | with_reducible assumption | with_reducible apply ite_keeps (Q := P)
                 | with_reducible apply State.takeOverWing_keeps hP | with_reducible apply State.endCal_keeps hP
                 | with_reducible apply State.failPart_keeps hP | with_reducible apply State.interruptPart_keeps hP
                 | with_reducible apply State.claim_keeps hP | with_reducible apply State.syncWing_keeps hP
                 | with_reducible apply State.raise_keeps hP | with_reducible apply State.setWing_keeps hP
                 | with_reducible apply State.modPart_keeps hP | with_reducible apply State.wr_keeps hP
                 | with_reducible refine foldl_keeps (Q := P) _ _ _ ?_ ?_ | split | rfl | dsimp only
                 | with_reducible refine fields_keeps hP ?_ ?_)

theorem State.retireScale_keeps {P : State → Prop} (hP : ClosedRegs P) (s : State) (p w b sc : Nat) (hs_ : P s) :
    P (State.retireScale s p w b sc) := by
  unfold State.retireScale
  repeat' (first | (intro _) | with_reducible assumption | with_reducible apply ite_keeps (Q := P)
                 | with_reducible apply State.failWing_keeps hP | with_reducible apply State.tilesToL3_keeps hP
                 | with_reducible apply State.countRetired_keeps hP | with_reducible apply State.dropLoads_keeps hP
                 | with_reducible apply State.queueLoad_keeps hP | with_reducible apply State.claim_keeps hP
                 | with_reducible apply State.modScale_keeps hP | with_reducible apply State.modPart_keeps hP
                 | with_reducible refine foldl_keeps (Q := P) _ _ _ ?_ ?_ | split | rfl | dsimp only
                 | with_reducible refine fields_keeps hP ?_ ?_)

theorem State.columnFault_keeps {P : State → Prop} (hP : ClosedRegs P) (s : State) (p w b sc col : Nat) (hs_ : P s) :
    P (State.columnFault s p w b sc col) := by
  unfold State.columnFault
  repeat' (first | (intro _) | with_reducible assumption | with_reducible apply ite_keeps (Q := P)
                 | with_reducible apply State.retireScale_keeps hP | with_reducible apply State.tilesToL3_keeps hP
                 | with_reducible apply State.queueLoad_keeps hP | with_reducible apply State.bump_keeps hP
                 | with_reducible apply State.setScale_keeps hP
                 | with_reducible refine foldl_keeps (Q := P) _ _ _ ?_ ?_ | split | rfl | dsimp only
                 | with_reducible refine fields_keeps hP ?_ ?_)

theorem State.wingFault_keeps {P : State → Prop} (hP : ClosedRegs P) (s : State) (p w : Nat) (hs_ : P s) :
    P (State.wingFault s p w) := by
  unfold State.wingFault
  repeat' (first | (intro _) | with_reducible assumption | with_reducible apply ite_keeps (Q := P)
                 | with_reducible apply State.failWing_keeps hP | with_reducible apply State.wr_keeps hP
                 | with_reducible refine foldl_keeps (Q := P) _ _ _ ?_ ?_ | split | rfl | dsimp only
                 | with_reducible refine fields_keeps hP ?_ ?_)

end Sys2Proof.Machine
end

