-- ==== Sys2Proof/Laws/KeepsAnalogue.lean ====
section
/-! SUPPORT. Each operation of Machine/Analogue keeps every property that the primitive changes keep (Laws/Keeps). -/
namespace Sys2Proof.Machine

theorem State.openProduct_keeps {P : State → Prop} (hP : ClosedRegs P) (s : State) (p layer src dst tokens kp n : Nat) (gs : List Group) (hs_ : P s) :
    P (State.openProduct s p layer src dst tokens kp n gs) := by
  unfold State.openProduct
  repeat' (first | (intro _) | with_reducible assumption | with_reducible apply ite_keeps (Q := P)
                 | with_reducible apply State.modPart_keeps hP
                 | with_reducible refine foldl_keeps (Q := P) _ _ _ ?_ ?_ | split | rfl | dsimp only
                 | with_reducible refine fields_keeps hP ?_ ?_)

theorem execAnalogue_keeps {P : State → Prop} (hP : ClosedRegs P) (p : PartId) (c : Cmd) (s : State) (hs_ : P s) :
    After P (execAnalogue p c s) := by
  simp only [execAnalogue, After_next]
  repeat' (first | (intro _) | with_reducible assumption | with_reducible apply ite_keeps (Q := P)
                 | with_reducible apply State.openProduct_keeps hP | with_reducible apply State.operandFault_keeps hP
                 | with_reducible apply State.issueNeeding_keeps hP | with_reducible apply State.issueFault_keeps hP
                 | with_reducible apply State.issue_keeps hP | with_reducible refine foldl_keeps (Q := P) _ _ _ ?_ ?_
                 | split | rfl | dsimp only | with_reducible refine fields_keeps hP ?_ ?_)

theorem State.examine_keeps {P : State → Prop} (hP : ClosedRegs P) (s : State) (p : Nat) (d : Product) (seed : Nat) (hs_ : P s) :
    P (State.examine s p d seed) := by
  unfold State.examine
  repeat' (first | (intro _) | with_reducible assumption | with_reducible apply ite_keeps (Q := P)
                 | with_reducible apply State.modProduct_keeps hP | with_reducible apply State.raiseNf_keeps hP
                 | with_reducible apply State.bump_keeps hP | with_reducible refine foldl_keeps (Q := P) _ _ _ ?_ ?_
                 | split | rfl | dsimp only | with_reducible refine fields_keeps hP ?_ ?_)

theorem State.sendSegments_keeps {P : State → Prop} (hP : ClosedRegs P) (s : State) (p : Nat) (d : Product) (token rb : Nat) (qs : List (List Nat)) (hs_ : P s) :
    P (State.sendSegments s p d token rb qs) := by
  unfold State.sendSegments
  repeat' (first | (intro _) | with_reducible assumption | with_reducible apply ite_keeps (Q := P)
                 | with_reducible apply State.sendDigits_keeps hP | with_reducible apply State.sendUp_keeps hP
                 | with_reducible apply State.signalTrouble_keeps hP | with_reducible apply State.modPart_keeps hP
                 | with_reducible apply State.each_keeps hP | with_reducible refine foldl_keeps (Q := P) _ _ _ ?_ ?_
                 | split | rfl | dsimp only | with_reducible refine fields_keeps hP ?_ ?_)

theorem execRotateBlock_keeps {P : State → Prop} (hP : Closed P) (p : PartId) (job : RotJob) (s : State) (hs_ : P s) :
    After P (execRotateBlock p job s) := by
  simp only [execRotateBlock, After_next]
  repeat' (first | (intro _) | with_reducible assumption | with_reducible apply ite_keeps (Q := P)
                 | with_reducible apply State.sendSegments_keeps hP.toClosedRegs
                 | with_reducible apply State.examine_keeps hP.toClosedRegs
                 | with_reducible apply State.progress_keeps hP.toClosedRegs
                 | with_reducible apply State.bump_keeps hP.toClosedRegs
                 | with_reducible apply State.modPart_keeps hP.toClosedRegs
                 | with_reducible apply State.putWords32_keeps hP
                 | with_reducible refine foldl_keeps (Q := P) _ _ _ ?_ ?_ | split | rfl | dsimp only
                 | with_reducible refine fields_keeps hP.toClosedRegs ?_ ?_)

theorem State.addTile_keeps {P : State → Prop} (hP : ClosedRegs P) (s : State) (p lw w : Nat) (d : Product) (g : Segment) (gi pos rung : Nat) (hs_ : P s) :
    P (State.addTile s p lw w d g gi pos rung) := by
  unfold State.addTile
  repeat' (first | (intro _) | with_reducible assumption | with_reducible apply ite_keeps (Q := P)
                 | with_reducible apply State.modWing_keeps hP
                 | with_reducible refine foldl_keeps (Q := P) _ _ _ ?_ ?_ | split | rfl | dsimp only
                 | with_reducible refine fields_keeps hP ?_ ?_)

theorem State.refuseSegment_keeps {P : State → Prop} (hP : ClosedRegs P) (s : State) (p lw w : Nat) (d : Product) (g : Segment) (hs_ : P s) :
    P (State.refuseSegment s p lw w d g) := by
  unfold State.refuseSegment
  repeat' (first | (intro _) | with_reducible assumption | with_reducible apply ite_keeps (Q := P)
                 | with_reducible apply State.addTile_keeps hP | with_reducible apply State.finishGroup_keeps hP
                 | with_reducible apply State.modTile_keeps hP | with_reducible apply State.modWing_keeps hP
                 | with_reducible refine foldl_keeps (Q := P) _ _ _ ?_ ?_ | split | rfl | dsimp only
                 | with_reducible refine fields_keeps hP ?_ ?_)

theorem State.takeNote_keeps {P : State → Prop} (hP : ClosedRegs P) (s : State) (p lw w : Nat) (d : Product) (g : Segment) (hs_ : P s) :
    P (State.takeNote s p lw w d g) := by
  unfold State.takeNote
  repeat' (first | (intro _) | with_reducible assumption | with_reducible apply ite_keeps (Q := P)
                 | with_reducible apply State.addTile_keeps hP | with_reducible apply State.sendToL3_keeps hP
                 | with_reducible apply State.flagTrouble_keeps hP | with_reducible apply State.bump_keeps hP
                 | with_reducible refine foldl_keeps (Q := P) _ _ _ ?_ ?_ | split | rfl | dsimp only
                 | with_reducible refine fields_keeps hP ?_ ?_)

theorem State.takeSegment_keeps {P : State → Prop} (hP : ClosedRegs P) (s : State) (p lw w : Nat) (d : Product) (g : Segment) (hs_ : P s) :
    P (State.takeSegment s p lw w d g) := by
  unfold State.takeSegment
  repeat' (first | (intro _) | with_reducible assumption | with_reducible apply ite_keeps (Q := P)
                 | with_reducible apply State.addTile_keeps hP | with_reducible apply State.feedTile_keeps hP
                 | with_reducible apply State.bump_keeps hP | with_reducible apply State.modWing_keeps hP
                 | with_reducible refine foldl_keeps (Q := P) _ _ _ ?_ ?_ | split | rfl | dsimp only
                 | with_reducible refine fields_keeps hP ?_ ?_)

theorem State.nextUp_keeps {P : State → Prop} (hP : ClosedRegs P) {s t : State} {p lw : Nat} {u : UpSegment} (hu : s.nextUp p lw = some (u, t)) (h : P s) :
    P t := by
  unfold State.nextUp at hu
  split at hu
  · simp only [Option.some.injEq, Prod.mk.injEq] at hu
    exact hu.2 ▸ State.modPart_keeps hP s p _ h
  · cases hu

theorem execActivationSegment_keeps {P : State → Prop} (hP : ClosedRegs P) (p : PartId) (w : Fin 8) (direct : Option WireSegment) (s : State)
    (hs_ : P s) : After P (execActivationSegment p w direct s) := by
  simp only [execActivationSegment, After_next]
  split
  · rename_i u t pw h1 h2
    have ht : P t := by
      cases direct with
      | some g =>
        simp only [Option.some.injEq, Prod.mk.injEq] at h1
        exact h1.2 ▸ hs_
      | none => exact State.nextUp_keeps hP h1 hs_
    repeat' (first | with_reducible assumption | with_reducible apply ite_keeps (Q := P) | with_reducible apply State.refuseSegment_keeps hP
                   | with_reducible apply State.takeNote_keeps hP | with_reducible apply State.takeSegment_keeps hP
                   | with_reducible apply State.raise_keeps hP | with_reducible apply State.bump_keeps hP | split)
  · exact hs_

theorem State.popOp_keeps {P : State → Prop} (hP : ClosedRegs P) (s : State) (p w : Nat) (hs_ : P s) :
    P (State.popOp s p w) := by
  unfold State.popOp
  repeat' (first | (intro _) | with_reducible assumption | with_reducible apply ite_keeps (Q := P)
                 | with_reducible apply State.modWing_keeps hP
                 | with_reducible refine foldl_keeps (Q := P) _ _ _ ?_ ?_ | split | rfl | dsimp only
                 | with_reducible refine fields_keeps hP ?_ ?_)

theorem State.startOp_keeps {P : State → Prop} (hP : ClosedRegs P) (s : State) (p w sc : Nat) (d : Product) (t : Tile) (o : ScaleOp) (hs_ : P s) :
    P (State.startOp s p w sc d t o) := by
  unfold State.startOp
  repeat' (first | (intro _) | with_reducible assumption | with_reducible apply ite_keeps (Q := P)
                 | with_reducible apply State.modTile_keeps hP | with_reducible apply State.tagProduct_keeps hP
                 | with_reducible apply State.syncWing_keeps hP | with_reducible apply State.toCycle_keeps hP
                 | with_reducible apply State.modScale_keeps hP | with_reducible apply State.modWing_keeps hP
                 | with_reducible refine foldl_keeps (Q := P) _ _ _ ?_ ?_ | split | rfl | dsimp only
                 | with_reducible refine fields_keeps hP ?_ ?_)

theorem State.sendDigital_keeps {P : State → Prop} (hP : ClosedRegs P) (s : State) (p lw w : Nat) (d : Product) (t : Tile) (x : Scale) (hs_ : P s) :
    P (State.sendDigital s p lw w d t x) := by
  unfold State.sendDigital
  repeat' (first | (intro _) | with_reducible assumption | with_reducible apply ite_keeps (Q := P)
                 | with_reducible apply State.sendToL3_keeps hP | with_reducible apply State.bump_keeps hP
                 | with_reducible refine foldl_keeps (Q := P) _ _ _ ?_ ?_ | split | rfl | dsimp only
                 | with_reducible refine fields_keeps hP ?_ ?_)

theorem execScaleOperation_keeps {P : State → Prop} (hP : ClosedRegs P) (p : PartId) (w : Fin 8) (s : State) (hs_ : P s) :
    After P (execScaleOperation p w s) := by
  simp only [execScaleOperation, After_next]
  repeat' (first | (intro _) | with_reducible assumption | with_reducible apply ite_keeps (Q := P)
                 | with_reducible apply State.sendDigital_keeps hP | with_reducible apply State.startOp_keeps hP
                 | with_reducible apply State.popOp_keeps hP | with_reducible apply State.closeTile_keeps hP
                 | with_reducible apply State.sendToL3_keeps hP | with_reducible apply State.modTile_keeps hP
                 | with_reducible apply State.syncWing_keeps hP
                 | with_reducible refine foldl_keeps (Q := P) _ _ _ ?_ ?_ | split | rfl | dsimp only
                 | with_reducible refine fields_keeps hP ?_ ?_)

theorem State.opSignals_keeps {P : State → Prop} (hP : ClosedRegs P) (s : State) (p : Nat) (normal sat chk : Bool) (hs_ : P s) :
    P (State.opSignals s p normal sat chk) := by
  unfold State.opSignals
  repeat' (first | (intro _) | with_reducible assumption | with_reducible apply ite_keeps (Q := P)
                 | with_reducible apply State.flagTrouble_keeps hP | with_reducible apply State.bump_keeps hP
                 | with_reducible refine foldl_keeps (Q := P) _ _ _ ?_ ?_ | split | rfl | dsimp only
                 | with_reducible refine fields_keeps hP ?_ ?_)

theorem State.endOp_keeps {P : State → Prop} (hP : ClosedRegs P) (s : State) (p lw w : Nat) (d : Product) (t : Tile) (o : ScaleOp) (g : Segment) (hs_ : P s) :
    P (State.endOp s p lw w d t o g) := by
  unfold State.endOp
  repeat' (first | (intro _) | with_reducible assumption | with_reducible apply ite_keeps (Q := P)
                 | with_reducible apply State.opSignals_keeps hP | with_reducible apply State.sendDigital_keeps hP
                 | with_reducible apply State.escalate_keeps hP | with_reducible apply State.closeTile_keeps hP
                 | with_reducible apply State.modTile_keeps hP | with_reducible apply State.bump_keeps hP
                 | with_reducible apply State.setScale_keeps hP
                 | with_reducible refine foldl_keeps (Q := P) _ _ _ ?_ ?_ | split | rfl | dsimp only
                 | with_reducible refine fields_keeps hP ?_ ?_)

theorem State.endRunning_keeps {P : State → Prop} (hP : ClosedRegs P) (s : State) (p lw w : Nat) (o : ScaleOp) (hs_ : P s) :
    P (State.endRunning s p lw w o) := by
  unfold State.endRunning
  repeat' (first | (intro _) | with_reducible assumption | with_reducible apply ite_keeps (Q := P)
                 | with_reducible apply State.endOp_keeps hP | with_reducible apply State.syncWing_keeps hP
                 | with_reducible apply State.progress_keeps hP | with_reducible apply State.modWing_keeps hP
                 | with_reducible refine foldl_keeps (Q := P) _ _ _ ?_ ?_ | split | rfl | dsimp only
                 | with_reducible refine fields_keeps hP ?_ ?_)

theorem State.endOperation_keeps {P : State → Prop} (hP : ClosedRegs P) (s : State) (p lw w id : Nat) (hs_ : P s) :
    P (State.endOperation s p lw w id) := by
  unfold State.endOperation
  repeat' (first | (intro _) | with_reducible assumption | with_reducible apply ite_keeps (Q := P)
                 | with_reducible apply State.endRunning_keeps hP
                 | with_reducible refine foldl_keeps (Q := P) _ _ _ ?_ ?_ | split | rfl | dsimp only
                 | with_reducible refine fields_keeps hP ?_ ?_)

theorem execL3Tile_keeps {P : State → Prop} (hP : ClosedRegs P) (p : PartId) (w : Fin 8) (tile : Nat) (s : State) (hs_ : P s) :
    After P (execL3Tile p w tile s) := by
  simp only [execL3Tile, After_next]
  repeat' (first | (intro _) | with_reducible assumption | with_reducible apply ite_keeps (Q := P)
                 | with_reducible apply State.modTile_keeps hP | with_reducible apply State.guarded_keeps hP
                 | with_reducible refine foldl_keeps (Q := P) _ _ _ ?_ ?_ | split | rfl | dsimp only
                 | with_reducible refine fields_keeps hP ?_ ?_)

theorem State.dropGroup_keeps {P : State → Prop} (hP : ClosedRegs P) (s : State) (p : Nat) (d : Product) (token gi : Nat) (hs_ : P s) :
    P (State.dropGroup s p d token gi) := by
  unfold State.dropGroup
  repeat' (first | (intro _) | with_reducible assumption | with_reducible apply ite_keeps (Q := P)
                 | with_reducible apply State.modWing_keeps hP | with_reducible apply State.modPart_keeps hP
                 | with_reducible refine foldl_keeps (Q := P) _ _ _ ?_ ?_ | split | rfl | dsimp only
                 | with_reducible refine fields_keeps hP ?_ ?_)

theorem State.closeProduct_keeps {P : State → Prop} (hP : ClosedRegs P) (s : State) (p id : Nat) (hs_ : P s) :
    P (State.closeProduct s p id) := by
  unfold State.closeProduct
  repeat' (first | (intro _) | with_reducible assumption | with_reducible apply ite_keeps (Q := P)
                 | with_reducible apply State.modWing_keeps hP | with_reducible apply State.modPart_keeps hP
                 | with_reducible apply State.each_keeps hP | with_reducible refine foldl_keeps (Q := P) _ _ _ ?_ ?_
                 | split | rfl | dsimp only | with_reducible refine fields_keeps hP ?_ ?_)

theorem State.writeOutput_keeps {P : State → Prop} (hP : Closed P) (s : State) (p : Nat) (d : Product) (token col : Nat) (gis : List Nat) (hs_ : P s) :
    P (State.writeOutput s p d token col gis) := by
  unfold State.writeOutput
  repeat' (first | (intro _) | with_reducible assumption | with_reducible apply ite_keeps (Q := P)
                 | with_reducible apply State.closeProduct_keeps hP.toClosedRegs
                 | with_reducible apply State.dropGroup_keeps hP.toClosedRegs
                 | with_reducible apply State.modProduct_keeps hP.toClosedRegs
                 | with_reducible apply State.putWords32_keeps hP
                 | with_reducible refine foldl_keeps (Q := P) _ _ _ ?_ ?_ | split | rfl | dsimp only
                 | with_reducible refine fields_keeps hP.toClosedRegs ?_ ?_)

theorem execProductOutput_keeps {P : State → Prop} (hP : Closed P) (p : PartId) (product token group : Nat) (s : State) (hs_ : P s) :
    After P (execProductOutput p product token group s) := by
  simp only [execProductOutput, After_next]
  repeat' (first | (intro _) | with_reducible assumption | with_reducible apply ite_keeps (Q := P)
                 | with_reducible apply State.writeOutput_keeps hP
                 | with_reducible apply State.deliver_keeps hP.toClosedRegs
                 | with_reducible apply State.guarded_keeps hP.toClosedRegs
                 | with_reducible refine foldl_keeps (Q := P) _ _ _ ?_ ?_ | split | rfl | dsimp only
                 | with_reducible refine fields_keeps hP.toClosedRegs ?_ ?_)

end Sys2Proof.Machine
end

