-- ==== Sys2Proof/Laws/KeepsSteps.lean ====
section
/-! SUPPORT. Each operation of Machine/Steps keeps every property that the primitive changes keep (Laws/Keeps). -/
namespace Sys2Proof.Machine

theorem State.pinScale_keeps {P : State → Prop} (hP : ClosedRegs P) (s : State) (p w b sc : Nat) (hs_ : P s) :
    P (State.pinScale s p w b sc) := by
  unfold State.pinScale
  repeat' (first | (intro _) | with_reducible assumption | with_reducible apply ite_keeps (Q := P)
                 | with_reducible apply State.trigger_keeps hP | with_reducible apply State.raise_keeps hP
                 | with_reducible apply State.modScale_keeps hP | with_reducible apply State.addReg_keeps hP
                 | with_reducible refine foldl_keeps (Q := P) _ _ _ ?_ ?_ | split | rfl | dsimp only
                 | with_reducible refine fields_keeps hP ?_ ?_)

theorem State.afterEvaluation_keeps {P : State → Prop} (hP : ClosedRegs P) (s : State) (p w b sc : Nat) (deviation : Bool) (hs_ : P s) :
    P (State.afterEvaluation s p w b sc deviation) := by
  unfold State.afterEvaluation
  repeat' (first | (intro _) | with_reducible assumption | with_reducible apply ite_keeps (Q := P)
                 | with_reducible apply State.closeTile_keeps hP | with_reducible apply State.sendToL3_keeps hP
                 | with_reducible apply State.bump_keeps hP | with_reducible refine foldl_keeps (Q := P) _ _ _ ?_ ?_
                 | split | rfl | dsimp only | with_reducible refine fields_keeps hP ?_ ?_)

theorem State.evaluate_keeps {P : State → Prop} (hP : ClosedRegs P) (s : State) (p w b sc : Nat) (hs_ : P s) :
    P (State.evaluate s p w b sc) := by
  unfold State.evaluate
  repeat' (first | (intro _) | with_reducible assumption | with_reducible apply ite_keeps (Q := P)
                 | with_reducible apply State.afterEvaluation_keeps hP | with_reducible apply State.pinScale_keeps hP
                 | with_reducible apply State.flagTrouble_keeps hP | with_reducible apply State.bump_keeps hP
                 | with_reducible apply State.modScale_keeps hP
                 | with_reducible refine foldl_keeps (Q := P) _ _ _ ?_ ?_ | split | rfl | dsimp only
                 | with_reducible refine fields_keeps hP ?_ ?_)

theorem execMonitorWindowEvaluation_keeps {P : State → Prop} (hP : ClosedRegs P) (p : PartId) (w : WingId) (b : BankId) (sc : ScaleId) (s : State) (hs_ : P s) :
    After P (execMonitorWindowEvaluation p w b sc s) := by
  simp only [execMonitorWindowEvaluation, After_next]
  repeat' (first | (intro _) | with_reducible assumption | with_reducible apply ite_keeps (Q := P)
                 | with_reducible apply State.evaluate_keeps hP
                 | with_reducible refine foldl_keeps (Q := P) _ _ _ ?_ ?_ | split | rfl | dsimp only
                 | with_reducible refine fields_keeps hP ?_ ?_)

theorem State.evaluateDue_keeps {P : State → Prop} (hP : ClosedRegs P) (s : State) (p : Nat) (hs_ : P s) :
    P (State.evaluateDue s p) := by
  unfold State.evaluateDue
  repeat' (first | (intro _) | with_reducible assumption | with_reducible apply ite_keeps (Q := P)
                 | with_reducible apply State.evaluate_keeps hP
                 | with_reducible refine foldl_keeps (Q := P) _ _ _ ?_ ?_ | split | rfl | dsimp only
                 | with_reducible refine fields_keeps hP ?_ ?_)

theorem State.countStorm_keeps {P : State → Prop} (hP : ClosedRegs P) (s : State) (p : Nat) (hs_ : P s) :
    P (State.countStorm s p) := by
  unfold State.countStorm
  repeat' (first | (intro _) | with_reducible assumption | with_reducible apply ite_keeps (Q := P)
                 | with_reducible apply State.bump_keeps hP | with_reducible apply State.wrAll_keeps hP
                 | with_reducible refine foldl_keeps (Q := P) _ _ _ ?_ ?_ | split | rfl | dsimp only
                 | with_reducible refine fields_keeps hP ?_ ?_)

theorem State.writeRecord_keeps {P : State → Prop} (hP : Closed P) (s : State) (p : Nat) (hs_ : P s) :
    P (State.writeRecord s p) := by
  unfold State.writeRecord
  repeat' (first | (intro _) | with_reducible assumption | with_reducible apply ite_keeps (Q := P)
                 | with_reducible apply State.countStorm_keeps hP.toClosedRegs
                 | with_reducible apply State.guarded_keeps hP.toClosedRegs | with_reducible apply State.put_keeps hP
                 | with_reducible apply State.wrAll_keeps hP.toClosedRegs
                 | with_reducible refine foldl_keeps (Q := P) _ _ _ ?_ ?_ | split | rfl | dsimp only
                 | with_reducible refine fields_keeps hP.toClosedRegs ?_ ?_)

theorem State.changeMode_keeps {P : State → Prop} (hP : ClosedRegs P) (s : State) (p : Nat) (hs_ : P s) :
    P (State.changeMode s p) := by
  unfold State.changeMode
  repeat' (first | (intro _) | with_reducible assumption | with_reducible apply ite_keeps (Q := P)
                 | with_reducible apply State.raise_keeps hP | with_reducible apply State.wr_keeps hP
                 | with_reducible refine foldl_keeps (Q := P) _ _ _ ?_ ?_ | split | rfl | dsimp only
                 | with_reducible refine fields_keeps hP ?_ ?_)

theorem execStepBoundary_keeps {P : State → Prop} (hP : Closed P) (p : PartId) (s : State) (hs_ : P s) :
    After P (execStepBoundary p s) := by
  simp only [execStepBoundary, After_next]
  repeat' (first | (intro _) | with_reducible assumption | with_reducible apply ite_keeps (Q := P)
                 | with_reducible apply State.changeMode_keeps hP.toClosedRegs
                 | with_reducible apply State.writeRecord_keeps hP
                 | with_reducible apply State.evaluateDue_keeps hP.toClosedRegs
                 | with_reducible apply State.setWork_keeps hP.toClosedRegs
                 | with_reducible apply State.setHch_keeps hP.toClosedRegs
                 | with_reducible apply State.modPart_keeps hP.toClosedRegs
                 | with_reducible refine foldl_keeps (Q := P) _ _ _ ?_ ?_ | split | rfl | dsimp only
                 | with_reducible refine fields_keeps hP.toClosedRegs ?_ ?_)

theorem execLadderStormRaised_keeps {P : State → Prop} (hP : ClosedRegs P) (p : PartId) (s : State) (hs_ : P s) :
    After P (execLadderStormRaised p s) := by
  simp only [execLadderStormRaised, After_next]
  repeat' (first | (intro _) | with_reducible assumption | with_reducible apply ite_keeps (Q := P)
                 | with_reducible apply State.applyPower_keeps hP | with_reducible apply State.raise_keeps hP
                 | with_reducible apply State.wr_keeps hP | with_reducible refine foldl_keeps (Q := P) _ _ _ ?_ ?_
                 | split | rfl | dsimp only | with_reducible refine fields_keeps hP ?_ ?_)

theorem execLadderStormCleared_keeps {P : State → Prop} (hP : ClosedRegs P) (p : PartId) (s : State) (hs_ : P s) :
    After P (execLadderStormCleared p s) := by
  simp only [execLadderStormCleared, After_next]
  repeat' (first | (intro _) | with_reducible assumption | with_reducible apply ite_keeps (Q := P)
                 | with_reducible apply State.applyPower_keeps hP | with_reducible apply State.raise_keeps hP
                 | with_reducible apply State.wr_keeps hP | with_reducible refine foldl_keeps (Q := P) _ _ _ ?_ ?_
                 | split | rfl | dsimp only | with_reducible refine fields_keeps hP ?_ ?_)

end Sys2Proof.Machine
end

