-- ==== Sys2Proof/Laws/KeepsRestore.lean ====
section
/-! SUPPORT. Each operation of Machine/Restore keeps every property that the primitive changes keep (Laws/Keeps). -/
namespace Sys2Proof.Machine

theorem State.setRestoreRow_keeps {P : State → Prop} (hP : ClosedRegs P) (s : State) (p w : Nat) (hs_ : P s) :
    P (State.setRestoreRow s p w) := by
  unfold State.setRestoreRow
  repeat' (first | (intro _) | with_reducible assumption | with_reducible apply ite_keeps (Q := P)
                 | with_reducible apply State.modWing_keeps hP | with_reducible apply State.wr_keeps hP
                 | with_reducible refine foldl_keeps (Q := P) _ _ _ ?_ ?_ | split | rfl | dsimp only
                 | with_reducible refine fields_keeps hP ?_ ?_)

theorem State.snapCell_keeps {P : State → Prop} (hP : ClosedRegs P) (s : State) (p w b r : Nat) (c : CellFound) (hs_ : P s) :
    P (State.snapCell s p w b r c) := by
  unfold State.snapCell
  repeat' (first | (intro _) | with_reducible assumption | with_reducible apply ite_keeps (Q := P)
                 | with_reducible apply State.bump_keeps hP | with_reducible apply State.modScale_keeps hP
                 | with_reducible refine foldl_keeps (Q := P) _ _ _ ?_ ?_ | split | rfl | dsimp only
                 | with_reducible refine fields_keeps hP ?_ ?_)

theorem State.sweepOn_keeps {P : State → Prop} (hP : ClosedRegs P) (s : State) (p w b r : Nat) (hs_ : P s) :
    P (State.sweepOn s p w b r) := by
  unfold State.sweepOn
  repeat' (first | (intro _) | with_reducible assumption | with_reducible apply ite_keeps (Q := P)
                 | with_reducible apply State.modWing_keeps hP | with_reducible apply State.wr_keeps hP
                 | with_reducible refine foldl_keeps (Q := P) _ _ _ ?_ ?_ | split | rfl | dsimp only
                 | with_reducible refine fields_keeps hP ?_ ?_)

theorem execRowRestore_keeps {P : State → Prop} (hP : ClosedRegs P) (p : PartId) (w : WingId) (b : BankId) (lateNs : Nat) (found : List CellFound) (s : State) (hs_ : P s) :
    After P (execRowRestore p w b lateNs found s) := by
  simp only [execRowRestore, After_next]
  repeat' (first | (intro _) | with_reducible assumption | with_reducible apply ite_keeps (Q := P)
                 | with_reducible apply State.sweepOn_keeps hP | with_reducible apply State.snapCell_keeps hP
                 | with_reducible apply State.setRestoreRow_keeps hP | with_reducible apply State.bump_keeps hP
                 | with_reducible apply State.raise_keeps hP | with_reducible apply State.modScale_keeps hP
                 | with_reducible refine foldl_keeps (Q := P) _ _ _ ?_ ?_ | split | rfl | dsimp only
                 | with_reducible refine fields_keeps hP ?_ ?_)

theorem execLinkStall_keeps {P : State → Prop} (hP : ClosedRegs P) (p : PartId) (w : WingId) (s : State) (hs_ : P s) :
    After P (execLinkStall p w s) := by
  simp only [execLinkStall, After_next]
  repeat' (first | (intro _) | with_reducible assumption | with_reducible apply ite_keeps (Q := P)
                 | with_reducible apply State.raise_keeps hP | with_reducible refine foldl_keeps (Q := P) _ _ _ ?_ ?_
                 | split | rfl | dsimp only | with_reducible refine fields_keeps hP ?_ ?_)

theorem State.requestRow_keeps {P : State → Prop} (hP : ClosedRegs P) (s : State) (p w row : Nat) (hs_ : P s) :
    P (State.requestRow s p w row) := by
  unfold State.requestRow
  repeat' (first | (intro _) | with_reducible assumption | with_reducible apply ite_keeps (Q := P)
                 | with_reducible apply State.wrAll_keeps hP | with_reducible refine foldl_keeps (Q := P) _ _ _ ?_ ?_
                 | split | rfl | dsimp only | with_reducible refine fields_keeps hP ?_ ?_)

theorem execDebugRowReadRequest_keeps {P : State → Prop} (hP : ClosedRegs P) (p : PartId) (w : WingId) (row : BitVec 10) (s : State) (hs_ : P s) :
    After P (execDebugRowReadRequest p w row s) := by
  simp only [execDebugRowReadRequest, After_next]
  repeat' (first | (intro _) | with_reducible assumption | with_reducible apply ite_keeps (Q := P)
                 | with_reducible apply State.requestRow_keeps hP
                 | with_reducible refine foldl_keeps (Q := P) _ _ _ ?_ ?_ | split | rfl | dsimp only
                 | with_reducible refine fields_keeps hP ?_ ?_)

theorem execDebugRowRead_keeps {P : State → Prop} (hP : ClosedRegs P) (p : PartId) (w : WingId) (s : State) (hs_ : P s) :
    After P (execDebugRowRead p w s) := by
  simp only [execDebugRowRead, After_next]
  repeat' (first | (intro _) | with_reducible assumption | with_reducible apply ite_keeps (Q := P)
                 | with_reducible apply State.wrAll_keeps hP | with_reducible refine foldl_keeps (Q := P) _ _ _ ?_ ?_
                 | split | rfl | dsimp only | with_reducible refine fields_keeps hP ?_ ?_)

end Sys2Proof.Machine
end

