-- ==== Sys2Proof/Laws/KeepsImage.lean ====
section
/-! SUPPORT. Each operation of Machine/Image keeps every property that the primitive changes keep (Laws/Keeps). -/
namespace Sys2Proof.Machine

theorem State.writeHeader_keeps {P : State → Prop} (hP : Closed P) (s : State) (image c flags : Nat) (hs_ : P s) :
    P (State.writeHeader s image c flags) := by
  unfold State.writeHeader
  repeat' (first | (intro _) | with_reducible assumption | with_reducible apply ite_keeps (Q := P)
                 | with_reducible apply State.put_keeps hP | with_reducible refine foldl_keeps (Q := P) _ _ _ ?_ ?_
                 | split | rfl | dsimp only | with_reducible refine fields_keeps hP.toClosedRegs ?_ ?_)

theorem State.formImage_keeps {P : State → Prop} (hP : Closed P) (s : State) (p image : Nat) (k : ImageKey) (vals : Nat → Nat) (hs_ : P s) :
    P (State.formImage s p image k vals) := by
  unfold State.formImage
  repeat' (first | (intro _) | with_reducible assumption | with_reducible apply ite_keeps (Q := P)
                 | with_reducible apply State.writeHeader_keeps hP
                 | with_reducible apply State.bumpN_keeps hP.toClosedRegs
                 | with_reducible apply State.bump_keeps hP.toClosedRegs | with_reducible apply State.put_keeps hP
                 | with_reducible apply State.addReg_keeps hP.toClosedRegs
                 | with_reducible refine foldl_keeps (Q := P) _ _ _ ?_ ?_ | split | rfl | dsimp only
                 | with_reducible refine fields_keeps hP.toClosedRegs ?_ ?_)

end Sys2Proof.Machine
end

