-- ==== Sys2Proof/Laws/KeepsReseat.lean ====
section
/-! SUPPORT. Each operation of Machine/Reseat keeps every property that the primitive changes keep (Laws/Keeps). -/
namespace Sys2Proof.Machine

theorem State.setEpoch_keeps {P : State → Prop} (hP : ClosedRegs P) (s : State) (p : Nat) (hs_ : P s) :
    P (State.setEpoch s p) := by
  unfold State.setEpoch
  repeat' (first | (intro _) | with_reducible assumption | with_reducible apply ite_keeps (Q := P)
                 | with_reducible apply State.wr_keeps hP | with_reducible refine foldl_keeps (Q := P) _ _ _ ?_ ?_
                 | split | rfl | dsimp only | with_reducible refine fields_keeps hP ?_ ?_)

theorem State.acceptSeat_keeps {P : State → Prop} (hP : ClosedRegs P) (s : State) (p : Nat) (cmd : Option Nat) (d : SeatDesc) (hs_ : P s) :
    P (State.acceptSeat s p cmd d) := by
  unfold State.acceptSeat
  repeat' (first | (intro _) | with_reducible assumption | with_reducible apply ite_keeps (Q := P)
                 | with_reducible apply State.setEpoch_keeps hP | with_reducible apply State.modPart_keeps hP
                 | with_reducible refine foldl_keeps (Q := P) _ _ _ ?_ ?_ | split | rfl | dsimp only
                 | with_reducible refine fields_keeps hP ?_ ?_)

theorem State.ownerImage_keeps {P : State → Prop} (hP : Closed P) (s : State) (p : Nat) (d : SeatDesc) (hs_ : P s) :
    P (State.ownerImage s p d) := by
  unfold State.ownerImage
  repeat' (first | (intro _) | with_reducible assumption | with_reducible apply ite_keeps (Q := P)
                 | with_reducible apply State.formImage_keeps hP | with_reducible apply State.writeHeader_keeps hP
                 | with_reducible refine foldl_keeps (Q := P) _ _ _ ?_ ?_ | split | rfl | dsimp only
                 | with_reducible refine fields_keeps hP.toClosedRegs ?_ ?_)

theorem State.takeSeatDesc_keeps {P : State → Prop} (hP : Closed P) (s : State) (p cmd step : Nat) (d : SeatDesc) (hs_ : P s) :
    P (State.takeSeatDesc s p cmd step d) := by
  unfold State.takeSeatDesc
  repeat' (first | (intro _) | with_reducible assumption | with_reducible apply ite_keeps (Q := P)
                 | with_reducible apply State.ownerImage_keeps hP
                 | with_reducible apply State.acceptSeat_keeps hP.toClosedRegs
                 | with_reducible apply State.bump_keeps hP.toClosedRegs
                 | with_reducible refine foldl_keeps (Q := P) _ _ _ ?_ ?_ | split | rfl | dsimp only
                 | with_reducible refine fields_keeps hP.toClosedRegs ?_ ?_)

theorem execReseat_keeps {P : State → Prop} (hP : Closed P) (p : PartId) (c : Cmd) (s : State) (hs_ : P s) :
    After P (execReseat p c s) := by
  simp only [execReseat, After_next]
  repeat' (first | (intro _) | with_reducible assumption | with_reducible apply ite_keeps (Q := P)
                 | with_reducible apply State.takeSeatDesc_keeps hP
                 | with_reducible apply State.operandFault_keeps hP.toClosedRegs
                 | with_reducible apply State.issueNeeding_keeps hP.toClosedRegs
                 | with_reducible apply State.issueFault_keeps hP.toClosedRegs
                 | with_reducible apply State.tagStart_keeps hP.toClosedRegs
                 | with_reducible apply State.issue_keeps hP.toClosedRegs
                 | with_reducible refine foldl_keeps (Q := P) _ _ _ ?_ ?_ | split | rfl | dsimp only
                 | with_reducible refine fields_keeps hP.toClosedRegs ?_ ?_)

theorem State.modSeat_keeps {P : State → Prop} (hP : ClosedRegs P) (s : State) (p id : Nat) (f : Seat → Seat) (hs_ : P s) :
    P (State.modSeat s p id f) := by
  unfold State.modSeat
  repeat' (first | (intro _) | with_reducible assumption | with_reducible apply ite_keeps (Q := P)
                 | with_reducible apply State.modPart_keeps hP
                 | with_reducible refine foldl_keeps (Q := P) _ _ _ ?_ ?_ | split | rfl | dsimp only
                 | with_reducible refine fields_keeps hP ?_ ?_)

theorem State.dropSeat_keeps {P : State → Prop} (hP : ClosedRegs P) (s : State) (p id : Nat) (hs_ : P s) :
    P (State.dropSeat s p id) := by
  unfold State.dropSeat
  repeat' (first | (intro _) | with_reducible assumption | with_reducible apply ite_keeps (Q := P)
                 | with_reducible apply State.setEpoch_keeps hP | with_reducible apply State.modPart_keeps hP
                 | with_reducible refine foldl_keeps (Q := P) _ _ _ ?_ ?_ | split | rfl | dsimp only
                 | with_reducible refine fields_keeps hP ?_ ?_)

theorem State.endSeat_keeps {P : State → Prop} (hP : Closed P) (s : State) (p : Nat) (t : Seat) (hs_ : P s) :
    P (State.endSeat s p t) := by
  unfold State.endSeat
  repeat' (first | (intro _) | with_reducible assumption | with_reducible apply ite_keeps (Q := P)
                 | with_reducible apply State.dropSeat_keeps hP.toClosedRegs
                 | with_reducible apply State.modPart_keeps hP.toClosedRegs
                 | with_reducible apply State.putWord_keeps hP
                 | with_reducible refine foldl_keeps (Q := P) _ _ _ ?_ ?_ | split | rfl | dsimp only
                 | with_reducible refine fields_keeps hP.toClosedRegs ?_ ?_)

theorem State.putChk_keeps {P : State → Prop} (hP : Closed P) (s : State) (side r : Nat) (v : Int) (hs_ : P s) :
    P (State.putChk s side r v) := by
  unfold State.putChk
  repeat' (first | (intro _) | with_reducible assumption | with_reducible apply ite_keeps (Q := P)
                 | with_reducible apply State.put_keeps hP | with_reducible refine foldl_keeps (Q := P) _ _ _ ?_ ?_
                 | split | rfl | dsimp only | with_reducible refine fields_keeps hP.toClosedRegs ?_ ?_)

theorem State.seatRows_keeps {P : State → Prop} (hP : Closed P) (s : State) (p : Nat) (t : Seat) (pw ps : Nat) (hs_ : P s) :
    P (State.seatRows s p t pw ps) := by
  unfold State.seatRows
  repeat' (first | (intro _) | with_reducible assumption | with_reducible apply ite_keeps (Q := P)
                 | with_reducible apply State.modSeat_keeps hP.toClosedRegs | with_reducible apply State.put_keeps hP
                 | with_reducible refine foldl_keeps (Q := P) _ _ _ ?_ ?_ | split | rfl | dsimp only
                 | with_reducible refine fields_keeps hP.toClosedRegs ?_ ?_)

theorem State.seatImage_keeps {P : State → Prop} (hP : Closed P) (s : State) (p pw ps : Nat) (t : Seat) (hs_ : P s) :
    P (State.seatImage s p pw ps t) := by
  unfold State.seatImage
  repeat' (first | (intro _) | with_reducible assumption | with_reducible apply ite_keeps (Q := P)
                 | with_reducible apply State.seatRows_keeps hP | with_reducible apply State.endSeat_keeps hP
                 | with_reducible apply State.dropSeat_keeps hP.toClosedRegs
                 | with_reducible apply State.modSeat_keeps hP.toClosedRegs
                 | with_reducible apply State.bump_keeps hP.toClosedRegs | with_reducible apply State.putWord_keeps hP
                 | with_reducible refine foldl_keeps (Q := P) _ _ _ ?_ ?_ | split | rfl | dsimp only
                 | with_reducible refine fields_keeps hP.toClosedRegs ?_ ?_)

theorem execSeatTile_keeps {P : State → Prop} (hP : Closed P) (p : PartId) (seat : Nat) (s : State) (hs_ : P s) :
    After P (execSeatTile p seat s) := by
  simp only [execSeatTile, After_next]
  repeat' (first | (intro _) | with_reducible assumption | with_reducible apply ite_keeps (Q := P)
                 | with_reducible apply State.seatImage_keeps hP
                 | with_reducible apply State.guarded_keeps hP.toClosedRegs
                 | with_reducible refine foldl_keeps (Q := P) _ _ _ ?_ ?_ | split | rfl | dsimp only
                 | with_reducible refine fields_keeps hP.toClosedRegs ?_ ?_)

theorem State.checkColumn_keeps {P : State → Prop} (hP : ClosedRegs P) (s : State) (p w b sc col : Nat) (hs_ : P s) :
    P (State.checkColumn s p w b sc col) := by
  unfold State.checkColumn
  repeat' (first | (intro _) | with_reducible assumption | with_reducible apply ite_keeps (Q := P)
                 | with_reducible apply State.columnFault_keeps hP
                 | with_reducible refine foldl_keeps (Q := P) _ _ _ ?_ ?_ | split | rfl | dsimp only
                 | with_reducible refine fields_keeps hP ?_ ?_)

theorem State.putMirrorRow_keeps {P : State → Prop} (hP : Closed P) (s : State) (p : Nat) (t : Seat) (r : Nat) (new : List Nat) (hs_ : P s) :
    P (State.putMirrorRow s p t r new) := by
  unfold State.putMirrorRow
  repeat' (first | (intro _) | with_reducible assumption | with_reducible apply ite_keeps (Q := P)
                 | with_reducible apply State.modWing_keeps hP.toClosedRegs
                 | with_reducible apply State.store_keeps hP | with_reducible refine foldl_keeps (Q := P) _ _ _ ?_ ?_
                 | split | rfl | dsimp only | with_reducible refine fields_keeps hP.toClosedRegs ?_ ?_)

theorem State.reformRow_keeps {P : State → Prop} (hP : Closed P) (s : State) (p : Nat) (t : Seat) (r : Nat) (hs_ : P s) :
    P (State.reformRow s p t r) := by
  unfold State.reformRow
  repeat' (first | (intro _) | with_reducible assumption | with_reducible apply ite_keeps (Q := P)
                 | with_reducible apply State.putMirrorRow_keeps hP | with_reducible apply State.putChk_keeps hP
                 | with_reducible apply State.modPart_keeps hP.toClosedRegs
                 | with_reducible refine foldl_keeps (Q := P) _ _ _ ?_ ?_ | split | rfl | dsimp only
                 | with_reducible refine fields_keeps hP.toClosedRegs ?_ ?_)

theorem State.loadRow_keeps {P : State → Prop} (hP : Closed P) (s : State) (p : Nat) (t : Seat) (r : Nat) (hs_ : P s) :
    P (State.loadRow s p t r) := by
  unfold State.loadRow
  repeat' (first | (intro _) | with_reducible assumption | with_reducible apply ite_keeps (Q := P)
                 | with_reducible apply State.reformRow_keeps hP
                 | with_reducible refine foldl_keeps (Q := P) _ _ _ ?_ ?_ | split | rfl | dsimp only
                 | with_reducible refine fields_keeps hP.toClosedRegs ?_ ?_)

theorem State.disableCells_keeps {P : State → Prop} (hP : Closed P) (s : State) (p : Nat) (t : Seat) (r : Nat) (cols : List Nat) (hs_ : P s) :
    P (State.disableCells s p t r cols) := by
  unfold State.disableCells
  repeat' (first | (intro _) | with_reducible assumption | with_reducible apply ite_keeps (Q := P)
                 | with_reducible apply State.reformRow_keeps hP
                 | with_reducible apply State.bumpN_keeps hP.toClosedRegs
                 | with_reducible apply State.setScale_keeps hP.toClosedRegs
                 | with_reducible refine foldl_keeps (Q := P) _ _ _ ?_ ?_ | split | rfl | dsimp only
                 | with_reducible refine fields_keeps hP.toClosedRegs ?_ ?_)

theorem State.writeVerify_keeps {P : State → Prop} (hP : Closed P) (s : State) (p : Nat) (t : Seat) (r tries : Nat) (verify : List (List (Fin 264)))
    (h : P s) : P (s.writeVerify p t r tries verify) := by
  induction verify generalizing s tries with
  | nil => exact State.setScale_keeps hP.toClosedRegs s _ _ _ _ _ h
  | cons bad rest ih =>
    unfold State.writeVerify
    have h1 : ∀ x, P (s.setScale p t.pw t.bank t.ps x) := fun x => State.setScale_keeps hP.toClosedRegs s _ _ _ _ _ h
    dsimp only
    refine ite_keeps _ _ _ (h1 _) (ite_keeps _ _ _ (ih _ _ ?_) (ih _ _ ?_))
    · exact State.bump_keeps hP.toClosedRegs _ _ _ (h1 _)
    · exact State.disableCells_keeps hP _ _ _ _ _ (h1 _)

theorem State.countRestore_keeps {P : State → Prop} (hP : ClosedRegs P) (s : State) (p : Nat) (t : Seat) (r : Nat) (hs_ : P s) :
    P (State.countRestore s p t r) := by
  unfold State.countRestore
  repeat' (first | (intro _) | with_reducible assumption | with_reducible apply ite_keeps (Q := P)
                 | with_reducible apply State.modWing_keeps hP
                 | with_reducible refine foldl_keeps (Q := P) _ _ _ ?_ ?_ | split | rfl | dsimp only
                 | with_reducible refine fields_keeps hP ?_ ?_)

theorem State.writeSeatRow_keeps {P : State → Prop} (hP : Closed P) (s : State) (p : Nat) (t : Seat) (r : Nat) (rest : List Nat) (verify : List (List (Fin 264))) (hs_ : P s) :
    P (State.writeSeatRow s p t r rest verify) := by
  unfold State.writeSeatRow
  repeat' (first | (intro _) | with_reducible assumption | with_reducible apply ite_keeps (Q := P)
                 | with_reducible apply State.countRestore_keeps hP.toClosedRegs
                 | with_reducible apply State.writeVerify_keeps hP | with_reducible apply State.loadRow_keeps hP
                 | with_reducible apply State.checkColumn_keeps hP.toClosedRegs
                 | with_reducible apply State.modSeat_keeps hP.toClosedRegs
                 | with_reducible refine foldl_keeps (Q := P) _ _ _ ?_ ?_ | split | rfl | dsimp only
                 | with_reducible refine fields_keeps hP.toClosedRegs ?_ ?_)

theorem execReseatRowWrite_keeps {P : State → Prop} (hP : Closed P) (p : PartId) (seat : Nat) (verify : List (List (Fin 264))) (s : State) (hs_ : P s) :
    After P (execReseatRowWrite p seat verify s) := by
  simp only [execReseatRowWrite, After_next]
  repeat' (first | (intro _) | with_reducible assumption | with_reducible apply ite_keeps (Q := P)
                 | with_reducible apply State.writeSeatRow_keeps hP
                 | with_reducible apply State.guarded_keeps hP.toClosedRegs
                 | with_reducible refine foldl_keeps (Q := P) _ _ _ ?_ ?_ | split | rfl | dsimp only
                 | with_reducible refine fields_keeps hP.toClosedRegs ?_ ?_)

theorem State.checkLimits_keeps {P : State → Prop} (hP : ClosedRegs P) (s : State) (p w b sc : Nat) (hs_ : P s) :
    P (State.checkLimits s p w b sc) := by
  unfold State.checkLimits
  repeat' (first | (intro _) | with_reducible assumption | with_reducible apply ite_keeps (Q := P)
                 | with_reducible apply State.retireScale_keeps hP
                 | with_reducible refine foldl_keeps (Q := P) _ _ _ ?_ ?_ | split | rfl | dsimp only
                 | with_reducible refine fields_keeps hP ?_ ?_)

theorem State.install_keeps {P : State → Prop} (hP : Closed P) (s : State) (p : Nat) (t : Seat) (hs_ : P s) :
    P (State.install s p t) := by
  unfold State.install
  repeat' (first | (intro _) | with_reducible assumption | with_reducible apply ite_keeps (Q := P)
                 | with_reducible apply State.checkLimits_keeps hP.toClosedRegs
                 | with_reducible apply State.endSeat_keeps hP
                 | with_reducible apply State.modScale_keeps hP.toClosedRegs
                 | with_reducible apply State.modPart_keeps hP.toClosedRegs
                 | with_reducible apply State.putWord_keeps hP | with_reducible apply State.put_keeps hP
                 | with_reducible refine foldl_keeps (Q := P) _ _ _ ?_ ?_ | split | rfl | dsimp only
                 | with_reducible refine fields_keeps hP.toClosedRegs ?_ ?_)

theorem execSeatComplete_keeps {P : State → Prop} (hP : Closed P) (p : PartId) (seat : Nat) (s : State) (hs_ : P s) :
    After P (execSeatComplete p seat s) := by
  simp only [execSeatComplete, After_next]
  repeat' (first | (intro _) | with_reducible assumption | with_reducible apply ite_keeps (Q := P)
                 | with_reducible apply State.install_keeps hP
                 | with_reducible apply State.guarded_keeps hP.toClosedRegs
                 | with_reducible refine foldl_keeps (Q := P) _ _ _ ?_ ?_ | split | rfl | dsimp only
                 | with_reducible refine fields_keeps hP.toClosedRegs ?_ ?_)

theorem State.installLoad_keeps {P : State → Prop} (hP : Closed P) (s : State) (p : Nat) (t : Seat) (hs_ : P s) :
    P (State.installLoad s p t) := by
  unfold State.installLoad
  repeat' (first | (intro _) | with_reducible assumption | with_reducible apply ite_keeps (Q := P)
                 | with_reducible apply State.modScale_keeps hP.toClosedRegs
                 | with_reducible apply State.putWord_keeps hP | with_reducible apply State.put_keeps hP
                 | with_reducible refine foldl_keeps (Q := P) _ _ _ ?_ ?_ | split | rfl | dsimp only
                 | with_reducible refine fields_keeps hP.toClosedRegs ?_ ?_)

theorem State.endLoad_keeps {P : State → Prop} (hP : Closed P) (s : State) (p : Nat) (t : Seat) (hs_ : P s) :
    P (State.endLoad s p t) := by
  unfold State.endLoad
  repeat' (first | (intro _) | with_reducible assumption | with_reducible apply ite_keeps (Q := P)
                 | with_reducible apply State.installLoad_keeps hP
                 | with_reducible apply State.checkLimits_keeps hP.toClosedRegs
                 | with_reducible apply State.dropSeat_keeps hP.toClosedRegs
                 | with_reducible apply State.modScale_keeps hP.toClosedRegs
                 | with_reducible refine foldl_keeps (Q := P) _ _ _ ?_ ?_ | split | rfl | dsimp only
                 | with_reducible refine fields_keeps hP.toClosedRegs ?_ ?_)

theorem execSpareLoadComplete_keeps {P : State → Prop} (hP : Closed P) (p : PartId) (seat : Nat) (s : State) (hs_ : P s) :
    After P (execSpareLoadComplete p seat s) := by
  simp only [execSpareLoadComplete, After_next]
  repeat' (first | (intro _) | with_reducible assumption | with_reducible apply ite_keeps (Q := P)
                 | with_reducible apply State.endLoad_keeps hP
                 | with_reducible apply State.guarded_keeps hP.toClosedRegs
                 | with_reducible refine foldl_keeps (Q := P) _ _ _ ?_ ?_ | split | rfl | dsimp only
                 | with_reducible refine fields_keeps hP.toClosedRegs ?_ ?_)

theorem execWearCopy_keeps {P : State → Prop} (hP : ClosedRegs P) (s : State) (hs_ : P s) :
    After P (execWearCopy s) := by
  simp only [execWearCopy, After_next]
  repeat' (first | (intro _) | with_reducible assumption | with_reducible apply ite_keeps (Q := P)
                 | with_reducible refine foldl_keeps (Q := P) _ _ _ ?_ ?_ | split | rfl | dsimp only
                 | with_reducible refine fields_keeps hP ?_ ?_)

end Sys2Proof.Machine
end

