-- ==== Sys2Proof/Laws/KeepsLocal.lean ====
section
/-! SUPPORT. Each operation of Machine/Local keeps every property that the primitive changes keep (Laws/Keeps). -/
namespace Sys2Proof.Machine

theorem State.outBytes_keeps {P : State → Prop} (hP : Closed P) (s : State) (p c : Nat) (sp : Space) (a : Nat) (l : List Byte) (bad : List Nat) (hs_ : P s) :
    P (State.outBytes s p c sp a l bad) := by
  unfold State.outBytes
  repeat' (first | (intro _) | with_reducible assumption | with_reducible apply ite_keeps (Q := P)
                 | with_reducible apply State.modCluster_keeps hP.toClosedRegs
                 | with_reducible apply State.store_keeps hP | with_reducible refine foldl_keeps (Q := P) _ _ _ ?_ ?_
                 | split | rfl | dsimp only | with_reducible refine fields_keeps hP.toClosedRegs ?_ ?_)

theorem flips_mem (s : State) (l : List Nat) (a : Nat → Nat) (v : List Host.Cell → Nat → Byte) :
    ({ s with mem := l.foldl (fun m i => mapSet 0 m (a i) (v m i)) s.mem } : State) =
      l.foldl (fun s i => s.setByte (a i) (v s.mem i)) s := by
  induction l generalizing s with
  | nil => rfl
  | cons i l ih => exact ih (s.setByte (a i) (v s.mem i))

theorem State.flipData_keeps {P : State → Prop} (hP : Closed P) (s : State) (g : Nat) (e : List Nat) (h : P s) : P (s.flipData g e) := by
  unfold State.flipData
  rw [flips_mem s (List.range 32) (fun i => 32 * g + i)
    (fun m i => mapGet 0 m (32 * g + i) ^^^ BitVec.ofNat 8 (e.getD (i + 4) 0))]
  exact foldl_keeps (Q := P) _ _ _ h (fun t _ ht => hP.byte t _ _ ht)

theorem State.flipDel_keeps {P : State → Prop} (hP : Closed P) (s : State) (g : Nat) (h : P s) : P { s with poison := setDel s.poison g } :=
  hP.poison s _ (fun hs => hs.filter _) h

theorem State.flipIns_keeps {P : State → Prop} (hP : Closed P) (s : State) (g : Nat) (h : P s) : P { s with poison := setIns s.poison g } :=
  hP.poison s _ (fun hs => setIns_pairwise _ g hs) h

theorem State.readGranule_keeps {P : State → Prop} (hP : Closed P) (s : State) (pg : Option Page) (g : Nat) (e : List Nat) (h : P s) :
    P (s.readGranule pg g e) := by
  have hf : ∀ w (b : Bool), P { s.flipData g w with poison := if b then setIns s.poison g else setDel s.poison g } := by
    intro w b
    have hw := State.flipData_keeps hP s g w h
    cases b
    · exact State.flipDel_keeps hP _ g hw
    · exact State.flipIns_keeps hP _ g hw
  unfold State.readGranule
  dsimp only
  split
  · exact State.bump_keeps hP.toClosedRegs _ _ _ (hf _ _)
  · exact hf _ _

theorem State.countLocal_keeps {P : State → Prop} (hP : ClosedRegs P) (s : State) (p k : Nat) (r : GranuleRead) (hs_ : P s) :
    P (State.countLocal s p k r) := by
  unfold State.countLocal
  repeat' (first | (intro _) | with_reducible assumption | with_reducible apply ite_keeps (Q := P)
                 | with_reducible apply State.bump_keeps hP | with_reducible refine foldl_keeps (Q := P) _ _ _ ?_ ?_
                 | split | rfl | dsimp only | with_reducible refine fields_keeps hP ?_ ?_)

theorem State.findError_keeps {P : State → Prop} (hP : Closed P) (s : State) (p k : Nat) (e : ReadError) (hs_ : P s) :
    P (State.findError s p k e) := by
  unfold State.findError
  repeat' (first | (intro _) | with_reducible assumption | with_reducible apply ite_keeps (Q := P)
                 | with_reducible apply State.countLocal_keeps hP.toClosedRegs
                 | with_reducible apply State.readGranule_keeps hP
                 | with_reducible apply State.modCluster_keeps hP.toClosedRegs
                 | with_reducible refine foldl_keeps (Q := P) _ _ _ ?_ ?_ | split | rfl | dsimp only
                 | with_reducible refine fields_keeps hP.toClosedRegs ?_ ?_)

theorem State.findErrors_keeps {P : State → Prop} (hP : Closed P) (s : State) (p k : Nat) (es : List ReadError) (hs_ : P s) :
    P (State.findErrors s p k es) := by
  unfold State.findErrors
  repeat' (first | (intro _) | with_reducible assumption | with_reducible apply ite_keeps (Q := P)
                 | with_reducible apply State.findError_keeps hP
                 | with_reducible refine foldl_keeps (Q := P) _ _ _ ?_ ?_ | split | rfl | dsimp only
                 | with_reducible refine fields_keeps hP.toClosedRegs ?_ ?_)

theorem State.wake_keeps {P : State → Prop} (hP : ClosedRegs P) (s : State) (p lc : Nat) (hs_ : P s) :
    P (State.wake s p lc) := by
  unfold State.wake
  repeat' (first | (intro _) | with_reducible assumption | with_reducible apply ite_keeps (Q := P)
                 | with_reducible apply State.modCluster_keeps hP
                 | with_reducible refine foldl_keeps (Q := P) _ _ _ ?_ ?_ | split | rfl | dsimp only
                 | with_reducible refine fields_keeps hP ?_ ?_)

theorem State.modThread_keeps {P : State → Prop} (hP : ClosedRegs P) (s : State) (p lc t : Nat) (f : Thread → Thread) (hs_ : P s) :
    P (State.modThread s p lc t f) := by
  unfold State.modThread
  repeat' (first | (intro _) | with_reducible assumption | with_reducible apply ite_keeps (Q := P)
                 | with_reducible apply State.modCluster_keeps hP
                 | with_reducible refine foldl_keeps (Q := P) _ _ _ ?_ ?_ | split | rfl | dsimp only
                 | with_reducible refine fields_keeps hP ?_ ?_)

theorem State.threadFault_keeps {P : State → Prop} (hP : ClosedRegs P) (s : State) (p lc t reason : Nat) (y : Thread) (hs_ : P s) :
    P (State.threadFault s p lc t reason y) := by
  unfold State.threadFault
  repeat' (first | (intro _) | with_reducible assumption | with_reducible apply ite_keeps (Q := P)
                 | with_reducible apply State.modThread_keeps hP | with_reducible apply State.seqFault_keeps hP
                 | with_reducible refine foldl_keeps (Q := P) _ _ _ ?_ ?_ | split | rfl | dsimp only
                 | with_reducible refine fields_keeps hP ?_ ?_)

theorem State.countTag_keeps {P : State → Prop} (hP : ClosedRegs P) (s : State) (p id : Nat) (f : Tag → Tag) (hs_ : P s) :
    P (State.countTag s p id f) := by
  unfold State.countTag
  repeat' (first | (intro _) | with_reducible assumption | with_reducible apply ite_keeps (Q := P)
                 | with_reducible apply State.modTag_keeps hP | with_reducible refine foldl_keeps (Q := P) _ _ _ ?_ ?_
                 | split | rfl | dsimp only | with_reducible refine fields_keeps hP ?_ ?_)

theorem State.issued_keeps {P : State → Prop} (hP : ClosedRegs P) (s : State) (p lc t : Nat) (hs_ : P s) :
    P (State.issued s p lc t) := by
  unfold State.issued
  repeat' (first | (intro _) | with_reducible assumption | with_reducible apply ite_keeps (Q := P)
                 | with_reducible apply State.modCluster_keeps hP
                 | with_reducible refine foldl_keeps (Q := P) _ _ _ ?_ ?_ | split | rfl | dsimp only
                 | with_reducible refine fields_keeps hP ?_ ?_)

theorem State.onThread_keeps {P : State → Prop} (hP : ClosedRegs P) (s : State) (p lc t : Nat) (f : State → Thread → State) (h : P s)
    (hf : ∀ u y, P u → P (f u y)) : P (s.onThread p lc t f) := by
  unfold State.onThread
  split
  · exact hf _ _ (State.issued_keeps hP s p lc t h)
  · exact h

end Sys2Proof.Machine
end

