-- ==== Sys2Proof/Laws/KeepsMover.lean ====
section
/-! SUPPORT. Each operation of Machine/Mover keeps every property that the primitive changes keep (Laws/Keeps). -/
namespace Sys2Proof.Machine

theorem execTileMoverRequest_keeps {P : State → Prop} (hP : ClosedRegs P) (p : PartId) (c : LogicalCluster) (t : ThreadId) (i : TInstr) (s : State) (hs_ : P s) :
    After P (execTileMoverRequest p c t i s) := by
  simp only [execTileMoverRequest, After_next]
  repeat' (first | (intro _) | with_reducible assumption | with_reducible apply ite_keeps (Q := P)
                 | with_reducible apply State.onThread_keeps hP | with_reducible apply State.countTag_keeps hP
                 | with_reducible apply State.threadFault_keeps hP | with_reducible apply State.modThread_keeps hP
                 | with_reducible apply State.bump_keeps hP | with_reducible apply State.modCluster_keeps hP
                 | with_reducible refine foldl_keeps (Q := P) _ _ _ ?_ ?_ | split | rfl | dsimp only
                 | with_reducible refine fields_keeps hP ?_ ?_)

theorem State.moveData_keeps {P : State → Prop} (hP : Closed P) (s : State) (p c : Nat) (r : MoverReq) (hs_ : P s) :
    P (State.moveData s p c r) := by
  unfold State.moveData
  repeat' (first | (intro _) | with_reducible assumption | with_reducible apply ite_keeps (Q := P)
                 | with_reducible apply State.outBytes_keeps hP
                 | with_reducible apply State.raiseNf_keeps hP.toClosedRegs
                 | with_reducible apply State.modCluster_keeps hP.toClosedRegs
                 | with_reducible apply State.store_keeps hP | with_reducible refine foldl_keeps (Q := P) _ _ _ ?_ ?_
                 | split | rfl | dsimp only | with_reducible refine fields_keeps hP.toClosedRegs ?_ ?_)

theorem execTileMoverComplete_keeps {P : State → Prop} (hP : Closed P) (p : PartId) (c : LogicalCluster) (id : Nat) (errs : List ReadError) (s : State) (hs_ : P s) :
    After P (execTileMoverComplete p c id errs s) := by
  simp only [execTileMoverComplete, After_next]
  repeat' (first | (intro _) | with_reducible assumption | with_reducible apply ite_keeps (Q := P)
                 | with_reducible apply State.moveData_keeps hP
                 | with_reducible apply State.wake_keeps hP.toClosedRegs
                 | with_reducible apply State.findErrors_keeps hP
                 | with_reducible apply State.transferred_keeps hP.toClosedRegs
                 | with_reducible apply State.progress_keeps hP.toClosedRegs
                 | with_reducible apply State.modCluster_keeps hP.toClosedRegs
                 | with_reducible refine foldl_keeps (Q := P) _ _ _ ?_ ?_ | split | rfl | dsimp only
                 | with_reducible refine fields_keeps hP.toClosedRegs ?_ ?_)

end Sys2Proof.Machine
end

