-- ==== Sys2Proof/Laws/KeepsThreads.lean ====
section
/-! SUPPORT. Each operation of Machine/Threads keeps every property that the primitive changes keep (Laws/Keeps). -/
namespace Sys2Proof.Machine

theorem execMma_keeps {P : State → Prop} (hP : ClosedRegs P) (p : PartId) (c : LogicalCluster) (t : ThreadId) (i : TInstr) (s : State) (hs_ : P s) :
    After P (execMma p c t i s) := by
  simp only [execMma, After_next]
  repeat' (first | (intro _) | with_reducible assumption | with_reducible apply ite_keeps (Q := P)
                 | with_reducible apply State.onThread_keeps hP | with_reducible apply State.countTag_keeps hP
                 | with_reducible apply State.threadFault_keeps hP | with_reducible apply State.modThread_keeps hP
                 | with_reducible apply State.modCluster_keeps hP
                 | with_reducible refine foldl_keeps (Q := P) _ _ _ ?_ ?_ | split | rfl | dsimp only
                 | with_reducible refine fields_keeps hP ?_ ?_)

theorem execVec_keeps {P : State → Prop} (hP : ClosedRegs P) (p : PartId) (c : LogicalCluster) (t : ThreadId) (i : TInstr) (s : State) (hs_ : P s) :
    After P (execVec p c t i s) := by
  simp only [execVec, After_next]
  repeat' (first | (intro _) | with_reducible assumption | with_reducible apply ite_keeps (Q := P)
                 | with_reducible apply State.onThread_keeps hP | with_reducible apply State.threadFault_keeps hP
                 | with_reducible apply State.modThread_keeps hP | with_reducible apply State.bump_keeps hP
                 | with_reducible apply State.modCluster_keeps hP
                 | with_reducible refine foldl_keeps (Q := P) _ _ _ ?_ ?_ | split | rfl | dsimp only
                 | with_reducible refine fields_keeps hP ?_ ?_)

theorem execSync_keeps {P : State → Prop} (hP : ClosedRegs P) (p : PartId) (c : LogicalCluster) (t : ThreadId) (i : TInstr) (s : State) (hs_ : P s) :
    After P (execSync p c t i s) := by
  simp only [execSync, After_next]
  repeat' (first | (intro _) | with_reducible assumption | with_reducible apply ite_keeps (Q := P)
                 | with_reducible apply State.onThread_keeps hP | with_reducible apply State.modThread_keeps hP
                 | with_reducible refine foldl_keeps (Q := P) _ _ _ ?_ ?_ | split | rfl | dsimp only
                 | with_reducible refine fields_keeps hP ?_ ?_)

theorem execAddi_keeps {P : State → Prop} (hP : ClosedRegs P) (p : PartId) (c : LogicalCluster) (t : ThreadId) (i : TInstr) (s : State) (hs_ : P s) :
    After P (execAddi p c t i s) := by
  simp only [execAddi, After_next]
  repeat' (first | (intro _) | with_reducible assumption | with_reducible apply ite_keeps (Q := P)
                 | with_reducible apply State.onThread_keeps hP | with_reducible apply State.modThread_keeps hP
                 | with_reducible refine foldl_keeps (Q := P) _ _ _ ?_ ?_ | split | rfl | dsimp only
                 | with_reducible refine fields_keeps hP ?_ ?_)

theorem execSetc_keeps {P : State → Prop} (hP : ClosedRegs P) (p : PartId) (c : LogicalCluster) (t : ThreadId) (i : TInstr) (s : State) (hs_ : P s) :
    After P (execSetc p c t i s) := by
  simp only [execSetc, After_next]
  repeat' (first | (intro _) | with_reducible assumption | with_reducible apply ite_keeps (Q := P)
                 | with_reducible apply State.onThread_keeps hP | with_reducible apply State.threadFault_keeps hP
                 | with_reducible apply State.modThread_keeps hP
                 | with_reducible refine foldl_keeps (Q := P) _ _ _ ?_ ?_ | split | rfl | dsimp only
                 | with_reducible refine fields_keeps hP ?_ ?_)

theorem execLoop_keeps {P : State → Prop} (hP : ClosedRegs P) (p : PartId) (c : LogicalCluster) (t : ThreadId) (i : TInstr) (s : State) (hs_ : P s) :
    After P (execLoop p c t i s) := by
  simp only [execLoop, After_next]
  repeat' (first | (intro _) | with_reducible assumption | with_reducible apply ite_keeps (Q := P)
                 | with_reducible apply State.onThread_keeps hP | with_reducible apply State.threadFault_keeps hP
                 | with_reducible apply State.modThread_keeps hP
                 | with_reducible refine foldl_keeps (Q := P) _ _ _ ?_ ?_ | split | rfl | dsimp only
                 | with_reducible refine fields_keeps hP ?_ ?_)

theorem execExit_keeps {P : State → Prop} (hP : ClosedRegs P) (p : PartId) (c : LogicalCluster) (t : ThreadId) (_i : TInstr) (s : State) (hs_ : P s) :
    After P (execExit p c t _i s) := by
  simp only [execExit, After_next]
  repeat' (first | (intro _) | with_reducible assumption | with_reducible apply ite_keeps (Q := P)
                 | with_reducible apply State.onThread_keeps hP | with_reducible apply State.modCluster_keeps hP
                 | with_reducible refine foldl_keeps (Q := P) _ _ _ ?_ ?_ | split | rfl | dsimp only
                 | with_reducible refine fields_keeps hP ?_ ?_)

end Sys2Proof.Machine
end

