-- ==== Sys2Proof/Laws/KeepsMatrix.lean ====
section
/-! SUPPORT. Each operation of Machine/Matrix keeps every property that the primitive changes keep (Laws/Keeps). -/
namespace Sys2Proof.Machine

theorem State.writeBlock_keeps {P : State → Prop} (hP : Closed P) (s : State) (p c : Nat) (b : BlockProd) (pr : List Nat) (bad : Bool) (hs_ : P s) :
    P (State.writeBlock s p c b pr bad) := by
  unfold State.writeBlock
  repeat' (first | (intro _) | with_reducible assumption | with_reducible apply ite_keeps (Q := P)
                 | with_reducible apply State.outBytes_keeps hP
                 | with_reducible refine foldl_keeps (Q := P) _ _ _ ?_ ?_ | split | rfl | dsimp only
                 | with_reducible refine fields_keeps hP.toClosedRegs ?_ ?_)

theorem State.poisonBlock_keeps {P : State → Prop} (hP : ClosedRegs P) (s : State) (p c : Nat) (b : BlockProd) (hs_ : P s) :
    P (State.poisonBlock s p c b) := by
  unfold State.poisonBlock
  repeat' (first | (intro _) | with_reducible assumption | with_reducible apply ite_keeps (Q := P)
                 | with_reducible apply State.modCluster_keeps hP
                 | with_reducible refine foldl_keeps (Q := P) _ _ _ ?_ ?_ | split | rfl | dsimp only
                 | with_reducible refine fields_keeps hP ?_ ?_)

theorem State.queueRecompute_keeps {P : State → Prop} (hP : ClosedRegs P) (s : State) (p : Nat) (r : Recompute) (hs_ : P s) :
    P (State.queueRecompute s p r) := by
  unfold State.queueRecompute
  repeat' (first | (intro _) | with_reducible assumption | with_reducible apply ite_keeps (Q := P)
                 | with_reducible apply State.modPart_keeps hP
                 | with_reducible refine foldl_keeps (Q := P) _ _ _ ?_ ?_ | split | rfl | dsimp only
                 | with_reducible refine fields_keeps hP ?_ ?_)

theorem State.dropRecompute_keeps {P : State → Prop} (hP : ClosedRegs P) (s : State) (p : Nat) (which : Recompute → Bool) (hs_ : P s) :
    P (State.dropRecompute s p which) := by
  unfold State.dropRecompute
  repeat' (first | (intro _) | with_reducible assumption | with_reducible apply ite_keeps (Q := P)
                 | with_reducible apply State.modPart_keeps hP
                 | with_reducible refine foldl_keeps (Q := P) _ _ _ ?_ ?_ | split | rfl | dsimp only
                 | with_reducible refine fields_keeps hP ?_ ?_)

theorem execBlockProductEnd_keeps {P : State → Prop} (hP : Closed P) (p : PartId) (c : LogicalCluster) (flips : List Flip) (errs : List ReadError) (s : State) (hs_ : P s) :
    After P (execBlockProductEnd p c flips errs s) := by
  simp only [execBlockProductEnd, After_next]
  repeat' (first | (intro _) | with_reducible assumption | with_reducible apply ite_keeps (Q := P)
                 | with_reducible apply State.queueRecompute_keeps hP.toClosedRegs
                 | with_reducible apply State.writeBlock_keeps hP
                 | with_reducible apply State.wake_keeps hP.toClosedRegs
                 | with_reducible apply State.findErrors_keeps hP
                 | with_reducible apply State.progress_keeps hP.toClosedRegs
                 | with_reducible apply State.bump_keeps hP.toClosedRegs
                 | with_reducible apply State.raise_keeps hP.toClosedRegs
                 | with_reducible apply State.modCluster_keeps hP.toClosedRegs
                 | with_reducible refine foldl_keeps (Q := P) _ _ _ ?_ ?_ | split | rfl | dsimp only
                 | with_reducible refine fields_keeps hP.toClosedRegs ?_ ?_)

theorem State.beginRetire_keeps {P : State → Prop} (hP : ClosedRegs P) (s : State) (p lc : Nat) (hs_ : P s) :
    P (State.beginRetire s p lc) := by
  unfold State.beginRetire
  repeat' (first | (intro _) | with_reducible assumption | with_reducible apply ite_keeps (Q := P)
                 | with_reducible apply State.failPart_keeps hP | with_reducible apply State.raise_keeps hP
                 | with_reducible apply State.modPart_keeps hP | with_reducible apply State.wr_keeps hP
                 | with_reducible refine foldl_keeps (Q := P) _ _ _ ?_ ?_ | split | rfl | dsimp only
                 | with_reducible refine fields_keeps hP ?_ ?_)

theorem State.countDetection_keeps {P : State → Prop} (hP : ClosedRegs P) (s : State) (p lc : Nat) (b : BlockProd) (hs_ : P s) :
    P (State.countDetection s p lc b) := by
  unfold State.countDetection
  repeat' (first | (intro _) | with_reducible assumption | with_reducible apply ite_keeps (Q := P)
                 | with_reducible apply State.beginRetire_keeps hP | with_reducible apply State.bump_keeps hP
                 | with_reducible apply State.raise_keeps hP | with_reducible apply State.modCluster_keeps hP
                 | with_reducible apply State.wr_keeps hP | with_reducible refine foldl_keeps (Q := P) _ _ _ ?_ ?_
                 | split | rfl | dsimp only | with_reducible refine fields_keeps hP ?_ ?_)

theorem State.ranFor_keeps {P : State → Prop} (hP : ClosedRegs P) (s : State) (p lc : Nat) (hs_ : P s) :
    P (State.ranFor s p lc) := by
  unfold State.ranFor
  repeat' (first | (intro _) | with_reducible assumption | with_reducible apply ite_keeps (Q := P)
                 | with_reducible apply State.progress_keeps hP | with_reducible apply State.bump_keeps hP
                 | with_reducible refine foldl_keeps (Q := P) _ _ _ ?_ ?_ | split | rfl | dsimp only
                 | with_reducible refine fields_keeps hP ?_ ?_)

theorem execBlockRecompute_keeps {P : State → Prop} (hP : Closed P) (p : PartId) (flips : List Flip) (s : State) (hs_ : P s) :
    After P (execBlockRecompute p flips s) := by
  simp only [execBlockRecompute, After_next]
  repeat' (first | (intro _) | with_reducible assumption | with_reducible apply ite_keeps (Q := P)
                 | with_reducible apply State.ranFor_keeps hP.toClosedRegs
                 | with_reducible apply State.countDetection_keeps hP.toClosedRegs
                 | with_reducible apply State.dropRecompute_keeps hP.toClosedRegs
                 | with_reducible apply State.queueRecompute_keeps hP.toClosedRegs
                 | with_reducible apply State.writeBlock_keeps hP
                 | with_reducible apply State.wake_keeps hP.toClosedRegs
                 | with_reducible apply State.bump_keeps hP.toClosedRegs
                 | with_reducible apply State.raise_keeps hP.toClosedRegs
                 | with_reducible refine foldl_keeps (Q := P) _ _ _ ?_ ?_ | split | rfl | dsimp only
                 | with_reducible refine fields_keeps hP.toClosedRegs ?_ ?_)

theorem execAuditRecompute_keeps {P : State → Prop} (hP : ClosedRegs P) (p : PartId) (flips2 flips3 : List Flip) (s : State) (hs_ : P s) :
    After P (execAuditRecompute p flips2 flips3 s) := by
  simp only [execAuditRecompute, After_next]
  repeat' (first | (intro _) | with_reducible assumption | with_reducible apply ite_keeps (Q := P)
                 | with_reducible apply State.ranFor_keeps hP | with_reducible apply State.countDetection_keeps hP
                 | with_reducible apply State.dropRecompute_keeps hP | with_reducible apply State.poisonBlock_keeps hP
                 | with_reducible apply State.bump_keeps hP | with_reducible apply State.raise_keeps hP
                 | with_reducible refine foldl_keeps (Q := P) _ _ _ ?_ ?_ | split | rfl | dsimp only
                 | with_reducible refine fields_keeps hP ?_ ?_)

theorem execClusterTakeover_keeps {P : State → Prop} (hP : Closed P) (p : PartId) (errs : List ReadError) (s : State) (hs_ : P s) :
    After P (execClusterTakeover p errs s) := by
  simp only [execClusterTakeover, After_next]
  repeat' (first | (intro _) | with_reducible assumption | with_reducible apply ite_keeps (Q := P)
                 | with_reducible apply State.wake_keeps hP.toClosedRegs
                 | with_reducible apply State.findErrors_keeps hP
                 | with_reducible apply State.interruptPart_keeps hP.toClosedRegs
                 | with_reducible apply State.bump_keeps hP.toClosedRegs
                 | with_reducible apply State.raise_keeps hP.toClosedRegs
                 | with_reducible apply State.modCluster_keeps hP.toClosedRegs
                 | with_reducible apply State.modPart_keeps hP.toClosedRegs
                 | with_reducible apply State.wrAll_keeps hP.toClosedRegs
                 | with_reducible apply State.wr_keeps hP.toClosedRegs
                 | with_reducible refine foldl_keeps (Q := P) _ _ _ ?_ ?_ | split | rfl | dsimp only
                 | with_reducible refine fields_keeps hP.toClosedRegs ?_ ?_)

end Sys2Proof.Machine
end

