-- ==== Sys2Proof/Laws/KeepsVector.lean ====
section
/-! SUPPORT. Each operation of Machine/Vector keeps every property that the primitive changes keep (Laws/Keeps). -/
namespace Sys2Proof.Machine

theorem State.putElem_keeps {P : State → Prop} (hP : Closed P) (s : State) (p c : Nat) (o : VecSlot) (a v : Nat) (hs_ : P s) :
    P (State.putElem s p c o a v) := by
  unfold State.putElem
  repeat' (first | (intro _) | with_reducible assumption | with_reducible apply ite_keeps (Q := P)
                 | with_reducible apply State.modCluster_keeps hP.toClosedRegs
                 | with_reducible apply State.setBytes_keeps hP
                 | with_reducible refine foldl_keeps (Q := P) _ _ _ ?_ ?_ | split | rfl | dsimp only
                 | with_reducible refine fields_keeps hP.toClosedRegs ?_ ?_)

theorem settlePoison_sorted (old : List Nat) (ws bad : List Int) (sz : Nat) (h : old.Pairwise (· < ·)) :
    (settlePoison old ws bad sz).Pairwise (· < ·) :=
  foldl_keeps (Q := fun l : List Nat => l.Pairwise (· < ·)) setIns _ _ (h.filter _) (fun m k => setIns_pairwise m k)

theorem State.settleDest_keeps {P : State → Prop} (hP : Closed P) (s : State) (p c : Nat) (o : VecSlot) (ws bad : List Int) (h : P s) :
    P (s.settleDest p c o ws bad) := by
  unfold State.settleDest
  dsimp only
  split
  · exact hP.poison s _ (fun hs => settlePoison_sorted _ ws bad _ hs) h
  · exact State.modCluster_keeps hP.toClosedRegs s p c _ h
  · exact State.modCluster_keeps hP.toClosedRegs s p c _ h
  · exact h

theorem State.vecRow_keeps {P : State → Prop} (hP : Closed P) (s : State) (p c : Nat) (d : VecDesc) (r : Nat) (hs_ : P s) :
    P (State.vecRow s p c d r) := by
  unfold State.vecRow
  repeat' (first | (intro _) | with_reducible assumption | with_reducible apply ite_keeps (Q := P)
                 | with_reducible apply State.putElem_keeps hP | with_reducible apply State.each_keeps hP.toClosedRegs
                 | with_reducible refine foldl_keeps (Q := P) _ _ _ ?_ ?_ | split | rfl | dsimp only
                 | with_reducible refine fields_keeps hP.toClosedRegs ?_ ?_)

theorem State.vecReduce_keeps {P : State → Prop} (hP : Closed P) (s : State) (p c : Nat) (d : VecDesc) (r : Nat) (hs_ : P s) :
    P (State.vecReduce s p c d r) := by
  unfold State.vecReduce
  repeat' (first | (intro _) | with_reducible assumption | with_reducible apply ite_keeps (Q := P)
                 | with_reducible apply State.putElem_keeps hP
                 | with_reducible refine foldl_keeps (Q := P) _ _ _ ?_ ?_ | split | rfl | dsimp only
                 | with_reducible refine fields_keeps hP.toClosedRegs ?_ ?_)

theorem State.runDesc_keeps {P : State → Prop} (hP : Closed P) (s : State) (p c : Nat) (d : VecDesc) (hs_ : P s) :
    P (State.runDesc s p c d) := by
  unfold State.runDesc
  repeat' (first | (intro _) | with_reducible assumption | with_reducible apply ite_keeps (Q := P)
                 | with_reducible apply State.vecReduce_keeps hP | with_reducible apply State.vecRow_keeps hP
                 | with_reducible apply State.settleDest_keeps hP
                 | with_reducible apply State.bumpReg_keeps hP.toClosedRegs
                 | with_reducible apply State.each_keeps hP.toClosedRegs
                 | with_reducible apply State.wr_keeps hP.toClosedRegs
                 | with_reducible refine foldl_keeps (Q := P) _ _ _ ?_ ?_ | split | rfl | dsimp only
                 | with_reducible refine fields_keeps hP.toClosedRegs ?_ ?_)

theorem State.refuseDesc_keeps {P : State → Prop} (hP : ClosedRegs P) (s : State) (p c thread reason : Nat) (hs_ : P s) :
    P (State.refuseDesc s p c thread reason) := by
  unfold State.refuseDesc
  repeat' (first | (intro _) | with_reducible assumption | with_reducible apply ite_keeps (Q := P)
                 | with_reducible apply State.modThread_keeps hP | with_reducible apply State.bumpReg_keeps hP
                 | with_reducible apply State.modCluster_keeps hP | with_reducible apply State.wrAll_keeps hP
                 | with_reducible refine foldl_keeps (Q := P) _ _ _ ?_ ?_ | split | rfl | dsimp only
                 | with_reducible refine fields_keeps hP ?_ ?_)

theorem State.vecRun_keeps {P : State → Prop} (hP : Closed P) (s : State) (p lc op : Nat) (errs : List ReadError) (hs_ : P s) :
    P (State.vecRun s p lc op errs) := by
  unfold State.vecRun
  repeat' (first | (intro _) | with_reducible assumption | with_reducible apply ite_keeps (Q := P)
                 | with_reducible apply State.refuseDesc_keeps hP.toClosedRegs
                 | with_reducible apply State.runDesc_keeps hP
                 | with_reducible apply State.countTag_keeps hP.toClosedRegs
                 | with_reducible apply State.findErrors_keeps hP
                 | with_reducible apply State.bump_keeps hP.toClosedRegs
                 | with_reducible apply State.modCluster_keeps hP.toClosedRegs
                 | with_reducible refine foldl_keeps (Q := P) _ _ _ ?_ ?_ | split | rfl | dsimp only
                 | with_reducible refine fields_keeps hP.toClosedRegs ?_ ?_)

theorem execAdd_keeps {P : State → Prop} (hP : Closed P) (p : PartId) (c : LogicalCluster) (errs : List ReadError) (s : State) (hs_ : P s) :
    After P (execAdd p c errs s) := by
  simp only [execAdd, After_next]
  repeat' (first | (intro _) | with_reducible assumption | with_reducible apply ite_keeps (Q := P)
                 | with_reducible apply State.vecRun_keeps hP | with_reducible refine foldl_keeps (Q := P) _ _ _ ?_ ?_
                 | split | rfl | dsimp only | with_reducible refine fields_keeps hP.toClosedRegs ?_ ?_)

theorem execMul_keeps {P : State → Prop} (hP : Closed P) (p : PartId) (c : LogicalCluster) (errs : List ReadError) (s : State) (hs_ : P s) :
    After P (execMul p c errs s) := by
  simp only [execMul, After_next]
  repeat' (first | (intro _) | with_reducible assumption | with_reducible apply ite_keeps (Q := P)
                 | with_reducible apply State.vecRun_keeps hP | with_reducible refine foldl_keeps (Q := P) _ _ _ ?_ ?_
                 | split | rfl | dsimp only | with_reducible refine fields_keeps hP.toClosedRegs ?_ ?_)

theorem execFma_keeps {P : State → Prop} (hP : Closed P) (p : PartId) (c : LogicalCluster) (errs : List ReadError) (s : State) (hs_ : P s) :
    After P (execFma p c errs s) := by
  simp only [execFma, After_next]
  repeat' (first | (intro _) | with_reducible assumption | with_reducible apply ite_keeps (Q := P)
                 | with_reducible apply State.vecRun_keeps hP | with_reducible refine foldl_keeps (Q := P) _ _ _ ?_ ?_
                 | split | rfl | dsimp only | with_reducible refine fields_keeps hP.toClosedRegs ?_ ?_)

theorem execCmp_keeps {P : State → Prop} (hP : Closed P) (p : PartId) (c : LogicalCluster) (errs : List ReadError) (s : State) (hs_ : P s) :
    After P (execCmp p c errs s) := by
  simp only [execCmp, After_next]
  repeat' (first | (intro _) | with_reducible assumption | with_reducible apply ite_keeps (Q := P)
                 | with_reducible apply State.vecRun_keeps hP | with_reducible refine foldl_keeps (Q := P) _ _ _ ?_ ?_
                 | split | rfl | dsimp only | with_reducible refine fields_keeps hP.toClosedRegs ?_ ?_)

theorem execSelect_keeps {P : State → Prop} (hP : Closed P) (p : PartId) (c : LogicalCluster) (errs : List ReadError) (s : State) (hs_ : P s) :
    After P (execSelect p c errs s) := by
  simp only [execSelect, After_next]
  repeat' (first | (intro _) | with_reducible assumption | with_reducible apply ite_keeps (Q := P)
                 | with_reducible apply State.vecRun_keeps hP | with_reducible refine foldl_keeps (Q := P) _ _ _ ?_ ?_
                 | split | rfl | dsimp only | with_reducible refine fields_keeps hP.toClosedRegs ?_ ?_)

theorem execMin_keeps {P : State → Prop} (hP : Closed P) (p : PartId) (c : LogicalCluster) (errs : List ReadError) (s : State) (hs_ : P s) :
    After P (execMin p c errs s) := by
  simp only [execMin, After_next]
  repeat' (first | (intro _) | with_reducible assumption | with_reducible apply ite_keeps (Q := P)
                 | with_reducible apply State.vecRun_keeps hP | with_reducible refine foldl_keeps (Q := P) _ _ _ ?_ ?_
                 | split | rfl | dsimp only | with_reducible refine fields_keeps hP.toClosedRegs ?_ ?_)

theorem execMax_keeps {P : State → Prop} (hP : Closed P) (p : PartId) (c : LogicalCluster) (errs : List ReadError) (s : State) (hs_ : P s) :
    After P (execMax p c errs s) := by
  simp only [execMax, After_next]
  repeat' (first | (intro _) | with_reducible assumption | with_reducible apply ite_keeps (Q := P)
                 | with_reducible apply State.vecRun_keeps hP | with_reducible refine foldl_keeps (Q := P) _ _ _ ?_ ?_
                 | split | rfl | dsimp only | with_reducible refine fields_keeps hP.toClosedRegs ?_ ?_)

theorem execVecDescriptorComplete_keeps {P : State → Prop} (hP : ClosedRegs P) (p : PartId) (c : LogicalCluster) (s : State) (hs_ : P s) :
    After P (execVecDescriptorComplete p c s) := by
  simp only [execVecDescriptorComplete, After_next]
  repeat' (first | (intro _) | with_reducible assumption | with_reducible apply ite_keeps (Q := P)
                 | with_reducible apply State.wake_keeps hP | with_reducible apply State.progress_keeps hP
                 | with_reducible apply State.modCluster_keeps hP
                 | with_reducible refine foldl_keeps (Q := P) _ _ _ ?_ ?_ | split | rfl | dsimp only
                 | with_reducible refine fields_keeps hP ?_ ?_)

end Sys2Proof.Machine
end

