-- ==== Sys2Proof/Laws/KeepsUpdate.lean ====
section
/-! SUPPORT. Each operation of Machine/Update keeps every property that the primitive changes keep (Laws/Keeps). -/
namespace Sys2Proof.Machine

theorem State.putHeader_keeps {P : State → Prop} (hP : Closed P) (s : State) (a step state layer digest : Nat) (hs_ : P s) :
    P (State.putHeader s a step state layer digest) := by
  unfold State.putHeader
  repeat' (first | (intro _) | with_reducible assumption | with_reducible apply ite_keeps (Q := P)
                 | with_reducible apply State.put_keeps hP | with_reducible refine foldl_keeps (Q := P) _ _ _ ?_ ?_
                 | split | rfl | dsimp only | with_reducible refine fields_keeps hP.toClosedRegs ?_ ?_)

theorem State.updateElem_keeps {P : State → Prop} (hP : Closed P) (x : ChunkCtx) (t : State × ChunkSum) (e : Nat) (h : P t.1) :
    P (State.updateElem x t e).1 := by
  have h3 : ∀ (c : Prop) [Decidable c] (a b d : Nat) (u v w : List Byte),
      P (if c then ((t.1.setBytes a u).setBytes b v).setBytes d w else (t.1.setBytes a u).setBytes b v) := by
    intro c _ a b d u v w
    have h2 := State.setBytes_keeps hP _ b v (State.setBytes_keeps hP _ a u h)
    exact ite_keeps c _ _ (State.setBytes_keeps hP _ d w h2) h2
  unfold State.updateElem
  dsimp only
  refine ite_keeps (Q := fun r : State × ChunkSum => P r.1) _ _ _ h
    (ite_keeps (Q := fun r : State × ChunkSum => P r.1) _ _ _ h (h3 _ _ _ _ _ _ _))

theorem State.putImage_keeps {P : State → Prop} (hP : Closed P) (s : State) (p h : Nat) (o : SeatDesc) (m : Nat) (d : UpdDesc) (changed : Bool) (hs_ : P s) :
    P (State.putImage s p h o m d changed) := by
  unfold State.putImage
  repeat' (first | (intro _) | with_reducible assumption | with_reducible apply ite_keeps (Q := P)
                 | with_reducible apply State.formImage_keeps hP | with_reducible apply State.writeHeader_keeps hP
                 | with_reducible apply State.poisonAll_keeps hP
                 | with_reducible refine foldl_keeps (Q := P) _ _ _ ?_ ?_ | split | rfl | dsimp only
                 | with_reducible refine fields_keeps hP.toClosedRegs ?_ ?_)

theorem State.tileImage_keeps {P : State → Prop} (hP : Closed P) (s : State) (p h : Nat) (o : SeatDesc) (m : Nat) (d : UpdDesc) (changed : Bool) (hs_ : P s) :
    P (State.tileImage s p h o m d changed) := by
  unfold State.tileImage
  repeat' (first | (intro _) | with_reducible assumption | with_reducible apply ite_keeps (Q := P)
                 | with_reducible apply State.putImage_keeps hP
                 | with_reducible apply State.guarded_keeps hP.toClosedRegs
                 | with_reducible apply State.bump_keeps hP.toClosedRegs
                 | with_reducible apply State.modPart_keeps hP.toClosedRegs
                 | with_reducible refine foldl_keeps (Q := P) _ _ _ ?_ ?_ | split | rfl | dsimp only
                 | with_reducible refine fields_keeps hP.toClosedRegs ?_ ?_)

theorem State.chunkImages_keeps {P : State → Prop} (hP : Closed P) (s : State) (p h : Nat) (d : UpdDesc) (i : Nat) (old : State) (hs_ : P s) (hold_ : P old) :
    P (State.chunkImages s p h d i old) := by
  unfold State.chunkImages
  repeat' (first | (intro _) | with_reducible assumption | with_reducible apply ite_keeps (Q := P)
                 | with_reducible apply State.tileImage_keeps hP
                 | with_reducible apply State.each_keeps hP.toClosedRegs
                 | with_reducible refine foldl_keeps (Q := P) _ _ _ ?_ ?_ | split | rfl | dsimp only
                 | with_reducible refine fields_keeps hP.toClosedRegs ?_ ?_)

theorem State.recordSame_keeps {P : State → Prop} (hP : ClosedRegs P) (s : State) (p h : Nat) (d : UpdDesc) (i : Nat) (old : State) (hs_ : P s) (hold_ : P old) :
    P (State.recordSame s p h d i old) := by
  unfold State.recordSame
  repeat' (first | (intro _) | with_reducible assumption | with_reducible apply ite_keeps (Q := P)
                 | with_reducible apply State.modPart_keeps hP
                 | with_reducible refine foldl_keeps (Q := P) _ _ _ ?_ ?_ | split | rfl | dsimp only
                 | with_reducible refine fields_keeps hP ?_ ?_)

theorem State.updateElems_keeps {P : State → Prop} (hP : Closed P) (s : State) (x : ChunkCtx) (frozen : List Nat) (h : P s) :
    P (s.updateElems x frozen).1 :=
  State.poisonAll_keeps hP _ _ (foldl_keeps (Q := fun r : State × ChunkSum => P r.1) _ _ _ h
    (fun r e hr => State.updateElem_keeps hP x r e hr))

theorem State.modPass_keeps {P : State → Prop} (hP : ClosedRegs P) (s : State) (p : Nat) (f : UpdPass → UpdPass) (hs_ : P s) :
    P (State.modPass s p f) := by
  unfold State.modPass
  repeat' (first | (intro _) | with_reducible assumption | with_reducible apply ite_keeps (Q := P)
                 | with_reducible apply State.modPart_keeps hP
                 | with_reducible refine foldl_keeps (Q := P) _ _ _ ?_ ?_ | split | rfl | dsimp only
                 | with_reducible refine fields_keeps hP ?_ ?_)

theorem State.refuseShard_keeps {P : State → Prop} (hP : ClosedRegs P) (s : State) (p reason chunk : Nat) (hs_ : P s) :
    P (State.refuseShard s p reason chunk) := by
  unfold State.refuseShard
  repeat' (first | (intro _) | with_reducible assumption | with_reducible apply ite_keeps (Q := P)
                 | with_reducible apply State.modPass_keeps hP | with_reducible apply State.raise_keeps hP
                 | with_reducible apply State.modHitch_keeps hP | with_reducible apply State.wrAll_keeps hP
                 | with_reducible apply State.wr_keeps hP | with_reducible refine foldl_keeps (Q := P) _ _ _ ?_ ?_
                 | split | rfl | dsimp only | with_reducible refine fields_keeps hP ?_ ?_)

theorem State.endChunk_keeps {P : State → Prop} (hP : Closed P) (s : State) (p h : Nat) (d : UpdDesc) (j : ChunkJob) (bad : Nat) (hs_ : P s) :
    P (State.endChunk s p h d j bad) := by
  unfold State.endChunk
  repeat' (first | (intro _) | with_reducible assumption | with_reducible apply ite_keeps (Q := P)
                 | with_reducible apply State.putHeader_keeps hP
                 | with_reducible refine foldl_keeps (Q := P) _ _ _ ?_ ?_ | split | rfl | dsimp only
                 | with_reducible refine fields_keeps hP.toClosedRegs ?_ ?_)

theorem State.writeChunk_keeps {P : State → Prop} (hP : Closed P) (s : State) (p : Nat) (u : UpdPass) (d : UpdDesc) (j : ChunkJob) (hs_ : P s) :
    P (State.writeChunk s p u d j) := by
  unfold State.writeChunk
  repeat' (first | (intro _) | with_reducible assumption | with_reducible apply ite_keeps (Q := P)
                 | with_reducible apply State.endChunk_keeps hP
                 | with_reducible apply State.refuseShard_keeps hP.toClosedRegs
                 | with_reducible apply State.modPass_keeps hP.toClosedRegs
                 | with_reducible apply State.updateElems_keeps hP
                 | with_reducible apply State.recordSame_keeps hP.toClosedRegs
                 | with_reducible apply State.chunkImages_keeps hP
                 | with_reducible apply State.bumpReg_keeps hP.toClosedRegs
                 | with_reducible apply State.bumpN_keeps hP.toClosedRegs
                 | with_reducible apply State.raise_keeps hP.toClosedRegs
                 | with_reducible apply State.each_keeps hP.toClosedRegs
                 | with_reducible refine foldl_keeps (Q := P) _ _ _ ?_ ?_ | split | rfl | dsimp only
                 | with_reducible refine fields_keeps hP.toClosedRegs ?_ ?_)

theorem State.markWriting_keeps {P : State → Prop} (hP : Closed P) (s : State) (p : Nat) (d : UpdDesc) (k : Nat) (hs_ : P s) :
    P (State.markWriting s p d k) := by
  unfold State.markWriting
  repeat' (first | (intro _) | with_reducible assumption | with_reducible apply ite_keeps (Q := P)
                 | with_reducible apply State.putHeader_keeps hP
                 | with_reducible refine foldl_keeps (Q := P) _ _ _ ?_ ?_ | split | rfl | dsimp only
                 | with_reducible refine fields_keeps hP.toClosedRegs ?_ ?_)

theorem State.startChunks_keeps {P : State → Prop} (hP : Closed P) (p : Nat) (u : UpdPass) (l fl : List ChunkJob) (s : State) (h : P s) :
    P (State.startChunks p u l fl s).1 := by
  induction l generalizing fl s with
  | nil => exact h
  | cons j r ih =>
    unfold State.startChunks
    split
    · exact h
    · split
      · exact ih _ _ h
      · split
        · exact ih _ _ (State.chunkImages_keeps hP _ _ _ _ _ _ h h)
        · exact ih _ _ (State.markWriting_keeps hP _ _ _ _ h)

theorem State.beginChunks_keeps {P : State → Prop} (hP : Closed P) (s : State) (p : Nat) (hs_ : P s) :
    P (State.beginChunks s p) := by
  unfold State.beginChunks
  repeat' (first | (intro _) | with_reducible assumption | with_reducible apply ite_keeps (Q := P)
                 | with_reducible apply State.startChunks_keeps hP
                 | with_reducible apply State.modPass_keeps hP.toClosedRegs
                 | with_reducible apply State.wrAll_keeps hP.toClosedRegs
                 | with_reducible refine foldl_keeps (Q := P) _ _ _ ?_ ?_ | split | rfl | dsimp only
                 | with_reducible refine fields_keeps hP.toClosedRegs ?_ ?_)

theorem State.chunkTransfers_keeps {P : State → Prop} (hP : ClosedRegs P) (s : State) (u : UpdPass) (d : UpdDesc) (j : ChunkJob) (hs_ : P s) :
    P (State.chunkTransfers s u d j) := by
  unfold State.chunkTransfers
  repeat' (first | (intro _) | with_reducible assumption | with_reducible apply ite_keeps (Q := P)
                 | with_reducible apply State.transferred_keeps hP
                 | with_reducible refine foldl_keeps (Q := P) _ _ _ ?_ ?_ | split | rfl | dsimp only
                 | with_reducible refine fields_keeps hP ?_ ?_)

theorem State.finishChunk_keeps {P : State → Prop} (hP : Closed P) (s : State) (p : Nat) (hs_ : P s) :
    P (State.finishChunk s p) := by
  unfold State.finishChunk
  repeat' (first | (intro _) | with_reducible assumption | with_reducible apply ite_keeps (Q := P)
                 | with_reducible apply State.chunkTransfers_keeps hP.toClosedRegs
                 | with_reducible apply State.writeChunk_keeps hP
                 | with_reducible apply State.modPass_keeps hP.toClosedRegs
                 | with_reducible apply State.progress_keeps hP.toClosedRegs
                 | with_reducible refine foldl_keeps (Q := P) _ _ _ ?_ ?_ | split | rfl | dsimp only
                 | with_reducible refine fields_keeps hP.toClosedRegs ?_ ?_)

theorem State.landChunks_keeps {P : State → Prop} (hP : Closed P) (s : State) (p : Nat) (hs_ : P s) :
    P (State.landChunks s p) := by
  unfold State.landChunks
  repeat' (first | (intro _) | with_reducible assumption | with_reducible apply ite_keeps (Q := P)
                 | with_reducible apply State.finishChunk_keeps hP
                 | with_reducible apply State.guarded_keeps hP.toClosedRegs
                 | with_reducible refine foldl_keeps (Q := P) _ _ _ ?_ ?_ | split | rfl | dsimp only
                 | with_reducible refine fields_keeps hP.toClosedRegs ?_ ?_)

theorem execUpdateChunk_keeps {P : State → Prop} (hP : Closed P) (p : PartId) (s : State) (hs_ : P s) :
    After P (execUpdateChunk p s) := by
  simp only [execUpdateChunk, After_next]
  repeat' (first | (intro _) | with_reducible assumption | with_reducible apply ite_keeps (Q := P)
                 | with_reducible apply State.finishChunk_keeps hP | with_reducible apply State.beginChunks_keeps hP
                 | with_reducible apply State.guarded_keeps hP.toClosedRegs
                 | with_reducible refine foldl_keeps (Q := P) _ _ _ ?_ ?_ | split | rfl | dsimp only
                 | with_reducible refine fields_keeps hP.toClosedRegs ?_ ?_)

theorem execUpdate_keeps {P : State → Prop} (hP : ClosedRegs P) (p : PartId) (c : Cmd) (s : State) (hs_ : P s) :
    After P (execUpdate p c s) := by
  simp only [execUpdate, After_next]
  repeat' (first | (intro _) | with_reducible assumption | with_reducible apply ite_keeps (Q := P)
                 | with_reducible apply State.operandFault_keeps hP | with_reducible apply State.issueWith_keeps hP
                 | with_reducible apply State.issueFault_keeps hP | with_reducible apply State.tagStart_keeps hP
                 | with_reducible apply State.issue_keeps hP | with_reducible apply State.modPart_keeps hP
                 | with_reducible apply State.wrAll_keeps hP | with_reducible apply State.wr_keeps hP
                 | with_reducible refine foldl_keeps (Q := P) _ _ _ ?_ ?_ | split | rfl | dsimp only
                 | with_reducible refine fields_keeps hP ?_ ?_)

theorem State.clearSums_keeps {P : State → Prop} (hP : Closed P) (s : State) (p layer : Nat) (hs_ : P s) :
    P (State.clearSums s p layer) := by
  unfold State.clearSums
  repeat' (first | (intro _) | with_reducible assumption | with_reducible apply ite_keeps (Q := P)
                 | with_reducible apply State.put_keeps hP | with_reducible refine foldl_keeps (Q := P) _ _ _ ?_ ?_
                 | split | rfl | dsimp only | with_reducible refine fields_keeps hP.toClosedRegs ?_ ?_)

theorem State.endPass_keeps {P : State → Prop} (hP : ClosedRegs P) (s : State) (p : Nat) (hs_ : P s) :
    P (State.endPass s p) := by
  unfold State.endPass
  repeat' (first | (intro _) | with_reducible assumption | with_reducible apply ite_keeps (Q := P)
                 | with_reducible apply State.modPart_keeps hP | with_reducible apply State.wrAll_keeps hP
                 | with_reducible refine foldl_keeps (Q := P) _ _ _ ?_ ?_ | split | rfl | dsimp only
                 | with_reducible refine fields_keeps hP ?_ ?_)

theorem State.skipPass_keeps {P : State → Prop} (hP : ClosedRegs P) (s : State) (p : Nat) (hs_ : P s) :
    P (State.skipPass s p) := by
  unfold State.skipPass
  repeat' (first | (intro _) | with_reducible assumption | with_reducible apply ite_keeps (Q := P)
                 | with_reducible apply State.endPass_keeps hP | with_reducible apply State.setHch_keeps hP
                 | with_reducible apply State.bumpReg_keeps hP | with_reducible apply State.raise_keeps hP
                 | with_reducible apply State.modPart_keeps hP
                 | with_reducible refine foldl_keeps (Q := P) _ _ _ ?_ ?_ | split | rfl | dsimp only
                 | with_reducible refine fields_keeps hP ?_ ?_)

theorem State.classifyPass_keeps {P : State → Prop} (hP : Closed P) (s : State) (p : Nat) (u : UpdPass) (hs_ : P s) :
    P (State.classifyPass s p u) := by
  unfold State.classifyPass
  repeat' (first | (intro _) | with_reducible assumption | with_reducible apply ite_keeps (Q := P)
                 | with_reducible apply State.clearSums_keeps hP
                 | with_reducible apply State.refuseShard_keeps hP.toClosedRegs
                 | with_reducible apply State.modPass_keeps hP.toClosedRegs
                 | with_reducible apply State.bumpN_keeps hP.toClosedRegs
                 | with_reducible apply State.bump_keeps hP.toClosedRegs
                 | with_reducible apply State.modPart_keeps hP.toClosedRegs
                 | with_reducible apply State.each_keeps hP.toClosedRegs
                 | with_reducible apply State.wr_keeps hP.toClosedRegs
                 | with_reducible refine foldl_keeps (Q := P) _ _ _ ?_ ?_ | split | rfl | dsimp only
                 | with_reducible refine fields_keeps hP.toClosedRegs ?_ ?_)

theorem execUpdatePass_keeps {P : State → Prop} (hP : Closed P) (p : PartId) (s : State) (hs_ : P s) (hr : P { s with held := putRanked (.updatePass p) s.held }) :
    After P (execUpdatePass p s) := by
  simp only [execUpdatePass, After_next]
  repeat' (first | (intro _) | with_reducible assumption | with_reducible apply ite_keeps (Q := P)
                 | with_reducible apply State.classifyPass_keeps hP
                 | with_reducible apply State.skipPass_keeps hP.toClosedRegs
                 | with_reducible apply State.guarded_keeps hP.toClosedRegs
                 | with_reducible apply State.ranked_keeps hr | with_reducible refine foldl_keeps (Q := P) _ _ _ ?_ ?_
                 | split | rfl | dsimp only | with_reducible refine fields_keeps hP.toClosedRegs ?_ ?_)

theorem State.checkLayer_keeps {P : State → Prop} (hP : Closed P) (s : State) (p layer : Nat) (hs_ : P s) :
    P (State.checkLayer s p layer) := by
  unfold State.checkLayer
  repeat' (first | (intro _) | with_reducible assumption | with_reducible apply ite_keeps (Q := P)
                 | with_reducible apply State.bump_keeps hP.toClosedRegs
                 | with_reducible apply State.raise_keeps hP.toClosedRegs | with_reducible apply State.put_keeps hP
                 | with_reducible refine foldl_keeps (Q := P) _ _ _ ?_ ?_ | split | rfl | dsimp only
                 | with_reducible refine fields_keeps hP.toClosedRegs ?_ ?_)

theorem State.addSums_keeps {P : State → Prop} (hP : Closed P) (s : State) (p : Nat) (r : Ratio) (hs_ : P s) :
    P (State.addSums s p r) := by
  unfold State.addSums
  repeat' (first | (intro _) | with_reducible assumption | with_reducible apply ite_keeps (Q := P)
                 | with_reducible apply State.put_keeps hP | with_reducible refine foldl_keeps (Q := P) _ _ _ ?_ ?_
                 | split | rfl | dsimp only | with_reducible refine fields_keeps hP.toClosedRegs ?_ ?_)

theorem State.watch_keeps {P : State → Prop} (hP : Closed P) (s : State) (p : Nat) (rs : List Ratio) (hs_ : P s) :
    P (State.watch s p rs) := by
  unfold State.watch
  repeat' (first | (intro _) | with_reducible assumption | with_reducible apply ite_keeps (Q := P)
                 | with_reducible apply State.addSums_keeps hP | with_reducible apply State.checkLayer_keeps hP
                 | with_reducible apply State.each_keeps hP.toClosedRegs
                 | with_reducible refine foldl_keeps (Q := P) _ _ _ ?_ ?_ | split | rfl | dsimp only
                 | with_reducible refine fields_keeps hP.toClosedRegs ?_ ?_)

theorem execUpdatePassEnd_keeps {P : State → Prop} (hP : Closed P) (p : PartId) (s : State) (hs_ : P s) :
    After P (execUpdatePassEnd p s) := by
  simp only [execUpdatePassEnd, After_next]
  repeat' (first | (intro _) | with_reducible assumption | with_reducible apply ite_keeps (Q := P)
                 | with_reducible apply State.watch_keeps hP
                 | with_reducible apply State.endPass_keeps hP.toClosedRegs
                 | with_reducible apply State.guarded_keeps hP.toClosedRegs
                 | with_reducible apply State.raise_keeps hP.toClosedRegs
                 | with_reducible apply State.wr_keeps hP.toClosedRegs
                 | with_reducible refine foldl_keeps (Q := P) _ _ _ ?_ ?_ | split | rfl | dsimp only
                 | with_reducible refine fields_keeps hP.toClosedRegs ?_ ?_)

end Sys2Proof.Machine
end

