-- ==== Sys2Proof/Laws/KeepsCollect.lean ====
section
/-! SUPPORT. Each operation of Machine/Collect keeps every property that the primitive changes keep (Laws/Keeps). -/
namespace Sys2Proof.Machine

theorem State.queueVc0_keeps {P : State → Prop} (hP : ClosedRegs P) (s : State) (x : CollAxis) (plus : Bool) (m : Member) (hs_ : P s) :
    P (State.queueVc0 s x plus m) := by
  unfold State.queueVc0
  repeat' (first | (intro _) | with_reducible assumption | with_reducible apply ite_keeps (Q := P)
                 | with_reducible apply State.queueTx_keeps hP
                 | with_reducible refine foldl_keeps (Q := P) _ _ _ ?_ ?_ | split | rfl | dsimp only
                 | with_reducible refine fields_keeps hP ?_ ?_)

theorem State.sendBoth_keeps {P : State → Prop} (hP : ClosedRegs P) (s : State) (x : CollAxis) (plus minus : List Member) (hs_ : P s) :
    P (State.sendBoth s x plus minus) := by
  unfold State.sendBoth
  repeat' (first | (intro _) | with_reducible assumption | with_reducible apply ite_keeps (Q := P)
                 | with_reducible apply State.queueVc0_keeps hP
                 | with_reducible refine foldl_keeps (Q := P) _ _ _ ?_ ?_ | split | rfl | dsimp only
                 | with_reducible refine fields_keeps hP ?_ ?_)

theorem State.sendPartials_keeps {P : State → Prop} (hP : ClosedRegs P) (s : State) (x : CollAxis) (op len : Nat) (bidir : Bool) (m : Nat → Member) (hs_ : P s) :
    P (State.sendPartials s x op len bidir m) := by
  unfold State.sendPartials
  repeat' (first | (intro _) | with_reducible assumption | with_reducible apply ite_keeps (Q := P)
                 | with_reducible apply State.sendBoth_keeps hP
                 | with_reducible refine foldl_keeps (Q := P) _ _ _ ?_ ?_ | split | rfl | dsimp only
                 | with_reducible refine fields_keeps hP ?_ ?_)

theorem State.sendShards_keeps {P : State → Prop} (hP : ClosedRegs P) (s : State) (x : CollAxis) (len : Nat) (bidir : Bool) (m : Nat → Member) (hs_ : P s) :
    P (State.sendShards s x len bidir m) := by
  unfold State.sendShards
  repeat' (first | (intro _) | with_reducible assumption | with_reducible apply ite_keeps (Q := P)
                 | with_reducible apply State.sendBoth_keeps hP
                 | with_reducible refine foldl_keeps (Q := P) _ _ _ ?_ ?_ | split | rfl | dsimp only
                 | with_reducible refine fields_keeps hP ?_ ?_)

theorem State.writeMember_keeps {P : State → Prop} (hP : Closed P) (s : State) (a : Nat) (m : Member) (hs_ : P s) :
    P (State.writeMember s a m) := by
  unfold State.writeMember
  repeat' (first | (intro _) | with_reducible assumption | with_reducible apply ite_keeps (Q := P)
                 | with_reducible apply State.transferred_keeps hP.toClosedRegs
                 | with_reducible apply State.store_keeps hP | with_reducible refine foldl_keeps (Q := P) _ _ _ ?_ ?_
                 | split | rfl | dsimp only | with_reducible refine fields_keeps hP.toClosedRegs ?_ ?_)

theorem State.freeVc0_keeps {P : State → Prop} (hP : ClosedRegs P) (s : State) (i : Nat) (drop : Slot → Bool) (hs_ : P s) :
    P (State.freeVc0 s i drop) := by
  unfold State.freeVc0
  repeat' (first | (intro _) | with_reducible assumption | with_reducible apply ite_keeps (Q := P)
                 | with_reducible apply State.modPort_keeps hP
                 | with_reducible refine foldl_keeps (Q := P) _ _ _ ?_ ?_ | split | rfl | dsimp only
                 | with_reducible refine fields_keeps hP ?_ ?_)

theorem State.collect_keeps {P : State → Prop} (hP : ClosedRegs P) (s : State) (p : Nat) (c : Cmd) (kind : Nat) (srcN dstN : Nat → Nat)
    (ports : CollAxis → List Nat) (f : CollAxis → Nat → Nat → Nat → State → State) (h : P s)
    (hf : ∀ x len src dst t, P t → P (f x len src dst t)) : P (s.collect p c kind srcN dstN ports f) := by
  refine State.issueNeeding_keeps hP _ _ _ _ _ h (fun l => ?_)
  dsimp only
  refine ite_keeps _ _ _ (State.issueFault_keeps hP s p l 2 h) ?_
  split
  · refine ite_keeps _ _ _ (State.transferred_keeps hP _ _ _ ?_) h
    refine hf _ _ _ _ _ (foldl_keeps (Q := P) _ _ _ ?_ (fun t i ht => State.freeVc0_keeps hP t i _ ht))
    exact State.modFabric_keeps hP _ _ (State.tagStart_keeps hP _ p _ (State.issue_keeps hP s p 7 c l _ h))
  · exact State.operandFault_keeps hP s p c l _ h

theorem State.gradientHeader_keeps {P : State → Prop} (hP : Closed P) (s : State) (c : Cmd) (step dst : Nat) (m : Member) (hs_ : P s) :
    P (State.gradientHeader s c step dst m) := by
  unfold State.gradientHeader
  repeat' (first | (intro _) | with_reducible assumption | with_reducible apply ite_keeps (Q := P)
                 | with_reducible apply State.putHeader_keeps hP
                 | with_reducible refine foldl_keeps (Q := P) _ _ _ ?_ ?_ | split | rfl | dsimp only
                 | with_reducible refine fields_keeps hP.toClosedRegs ?_ ?_)

theorem execReduceScatter_keeps {P : State → Prop} (hP : Closed P) (p : PartId) (c : Cmd) (peers : List Member) (s : State) (hs_ : P s) :
    After P (execReduceScatter p c peers s) := by
  simp only [execReduceScatter, After_next]
  repeat' (first | (intro _) | with_reducible assumption | with_reducible apply ite_keeps (Q := P)
                 | with_reducible apply State.gradientHeader_keeps hP
                 | with_reducible apply State.collect_keeps hP.toClosedRegs
                 | with_reducible apply State.writeMember_keeps hP
                 | with_reducible apply State.sendPartials_keeps hP.toClosedRegs
                 | with_reducible refine foldl_keeps (Q := P) _ _ _ ?_ ?_ | split | rfl | dsimp only
                 | with_reducible refine fields_keeps hP.toClosedRegs ?_ ?_)

theorem execAllGather_keeps {P : State → Prop} (hP : Closed P) (p : PartId) (c : Cmd) (peers : List Member) (s : State) (hs_ : P s) :
    After P (execAllGather p c peers s) := by
  simp only [execAllGather, After_next]
  repeat' (first | (intro _) | with_reducible assumption | with_reducible apply ite_keeps (Q := P)
                 | with_reducible apply State.collect_keeps hP.toClosedRegs
                 | with_reducible apply State.writeMember_keeps hP
                 | with_reducible apply State.sendShards_keeps hP.toClosedRegs
                 | with_reducible refine foldl_keeps (Q := P) _ _ _ ?_ ?_ | split | rfl | dsimp only
                 | with_reducible refine fields_keeps hP.toClosedRegs ?_ ?_)

theorem execAllReduce_keeps {P : State → Prop} (hP : Closed P) (p : PartId) (c : Cmd) (peers : List Member) (s : State) (hs_ : P s) :
    After P (execAllReduce p c peers s) := by
  simp only [execAllReduce, After_next]
  repeat' (first | (intro _) | with_reducible assumption | with_reducible apply ite_keeps (Q := P)
                 | with_reducible apply State.gradientHeader_keeps hP
                 | with_reducible apply State.collect_keeps hP.toClosedRegs
                 | with_reducible apply State.writeMember_keeps hP
                 | with_reducible apply State.sendShards_keeps hP.toClosedRegs
                 | with_reducible apply State.sendPartials_keeps hP.toClosedRegs
                 | with_reducible refine foldl_keeps (Q := P) _ _ _ ?_ ?_ | split | rfl | dsimp only
                 | with_reducible refine fields_keeps hP.toClosedRegs ?_ ?_)

theorem State.shift_keeps {P : State → Prop} (hP : Closed P) (plus : Bool) (isOpen : Bool) (received : Member) (x : CollAxis) (len src dst : Nat) (t : State) (hs_ : P t) :
    P (State.shift plus isOpen received x len src dst t) := by
  unfold State.shift
  repeat' (first | (intro _) | with_reducible assumption | with_reducible apply ite_keeps (Q := P)
                 | with_reducible apply State.writeMember_keeps hP
                 | with_reducible apply State.queueVc0_keeps hP.toClosedRegs
                 | with_reducible refine foldl_keeps (Q := P) _ _ _ ?_ ?_ | split | rfl | dsimp only
                 | with_reducible refine fields_keeps hP.toClosedRegs ?_ ?_)

theorem execShiftUp_keeps {P : State → Prop} (hP : Closed P) (p : PartId) (c : Cmd) (received : Member) (s : State) (hs_ : P s) :
    After P (execShiftUp p c received s) := by
  simp only [execShiftUp, After_next]
  repeat' (first | (intro _) | with_reducible assumption | with_reducible apply ite_keeps (Q := P)
                 | with_reducible apply State.shift_keeps hP
                 | with_reducible apply State.collect_keeps hP.toClosedRegs
                 | with_reducible refine foldl_keeps (Q := P) _ _ _ ?_ ?_ | split | rfl | dsimp only
                 | with_reducible refine fields_keeps hP.toClosedRegs ?_ ?_)

theorem execShiftDown_keeps {P : State → Prop} (hP : Closed P) (p : PartId) (c : Cmd) (received : Member) (s : State) (hs_ : P s) :
    After P (execShiftDown p c received s) := by
  simp only [execShiftDown, After_next]
  repeat' (first | (intro _) | with_reducible assumption | with_reducible apply ite_keeps (Q := P)
                 | with_reducible apply State.shift_keeps hP
                 | with_reducible apply State.collect_keeps hP.toClosedRegs
                 | with_reducible refine foldl_keeps (Q := P) _ _ _ ?_ ?_ | split | rfl | dsimp only
                 | with_reducible refine fields_keeps hP.toClosedRegs ?_ ?_)

end Sys2Proof.Machine
end

