-- ==== Sys2Proof/Laws/KeepsHitch.lean ====
section
/-! SUPPORT. Each operation of Machine/Hitch keeps every property that the primitive changes keep (Laws/Keeps). -/
namespace Sys2Proof.Machine

theorem State.withTable_keeps {P : State → Prop} (hP : ClosedRegs P) (s : State) (p : Nat) (c : Cmd) (l : Launch) (lo n : Nat) (f : List ShardEntry → State)
    (h : P s) (hf : ∀ es, P (f es)) : P (s.withTable p c l lo n f) := by
  unfold State.withTable
  split
  · exact State.operandFault_keeps hP s p c l _ h
  · exact ite_keeps _ _ _ h (ite_keeps _ _ _ (State.operandFault_keeps hP s p c l _ h) (hf _))

theorem State.sendEntry_keeps {P : State → Prop} (hP : Closed P) (s : State) (p : Nat) (q : Peer) (hs_ : P s) :
    P (State.sendEntry s p q) := by
  unfold State.sendEntry
  repeat' (first | (intro _) | with_reducible assumption | with_reducible apply ite_keeps (Q := P)
                 | with_reducible apply State.sendRemote_keeps hP
                 | with_reducible apply State.guarded_keeps hP.toClosedRegs
                 | with_reducible refine foldl_keeps (Q := P) _ _ _ ?_ ?_ | split | rfl | dsimp only
                 | with_reducible refine fields_keeps hP.toClosedRegs ?_ ?_)

theorem State.setHeader_keeps {P : State → Prop} (hP : Closed P) (s : State) (p : Nat) (q : Peer) (step st digest : Nat) (hs_ : P s) :
    P (State.setHeader s p q step st digest) := by
  unfold State.setHeader
  repeat' (first | (intro _) | with_reducible assumption | with_reducible apply ite_keeps (Q := P)
                 | with_reducible apply State.putHeader_keeps hP
                 | with_reducible apply State.guarded_keeps hP.toClosedRegs
                 | with_reducible refine foldl_keeps (Q := P) _ _ _ ?_ ?_ | split | rfl | dsimp only
                 | with_reducible refine fields_keeps hP.toClosedRegs ?_ ?_)

theorem State.pushChunk_keeps {P : State → Prop} (hP : Closed P) (s : State) (p : Nat) (q : Peer) (hs_ : P s) :
    P (State.pushChunk s p q) := by
  unfold State.pushChunk
  repeat' (first | (intro _) | with_reducible assumption | with_reducible apply ite_keeps (Q := P)
                 | with_reducible apply State.sendEntry_keeps hP | with_reducible apply State.sendRemote_keeps hP
                 | with_reducible apply State.transferred_keeps hP.toClosedRegs
                 | with_reducible refine foldl_keeps (Q := P) _ _ _ ?_ ?_ | split | rfl | dsimp only
                 | with_reducible refine fields_keeps hP.toClosedRegs ?_ ?_)

theorem State.beginReceive_keeps {P : State → Prop} (hP : Closed P) (s : State) (p : Nat) (q : Peer) (hs_ : P s) :
    P (State.beginReceive s p q) := by
  unfold State.beginReceive
  repeat' (first | (intro _) | with_reducible assumption | with_reducible apply ite_keeps (Q := P)
                 | with_reducible apply State.setHeader_keeps hP
                 | with_reducible apply State.modHitch_keeps hP.toClosedRegs
                 | with_reducible refine foldl_keeps (Q := P) _ _ _ ?_ ?_ | split | rfl | dsimp only
                 | with_reducible refine fields_keeps hP.toClosedRegs ?_ ?_)

theorem State.acceptChunk_keeps {P : State → Prop} (hP : Closed P) (s : State) (p : Nat) (q : Peer) (step digest : Nat) (hs_ : P s) :
    P (State.acceptChunk s p q step digest) := by
  unfold State.acceptChunk
  repeat' (first | (intro _) | with_reducible assumption | with_reducible apply ite_keeps (Q := P)
                 | with_reducible apply State.setHeader_keeps hP
                 | with_reducible apply State.bump_keeps hP.toClosedRegs
                 | with_reducible apply State.raise_keeps hP.toClosedRegs
                 | with_reducible refine foldl_keeps (Q := P) _ _ _ ?_ ?_ | split | rfl | dsimp only
                 | with_reducible refine fields_keeps hP.toClosedRegs ?_ ?_)

theorem State.divergent_keeps {P : State → Prop} (hP : ClosedRegs P) (s : State) (p : Nat) (q : Peer) (hs_ : P s) :
    P (State.divergent s p q) := by
  unfold State.divergent
  repeat' (first | (intro _) | with_reducible assumption | with_reducible apply ite_keeps (Q := P)
                 | with_reducible apply State.emitToken_keeps hP | with_reducible apply State.bump_keeps hP
                 | with_reducible apply State.raise_keeps hP | with_reducible refine foldl_keeps (Q := P) _ _ _ ?_ ?_
                 | split | rfl | dsimp only | with_reducible refine fields_keeps hP ?_ ?_)

theorem State.repair_keeps {P : State → Prop} (hP : Closed P) (s : State) (p : Nat) (q : Peer) (other : Nat) (hs_ : P s) :
    P (State.repair s p q other) := by
  unfold State.repair
  repeat' (first | (intro _) | with_reducible assumption | with_reducible apply ite_keeps (Q := P)
                 | with_reducible apply State.beginReceive_keeps hP | with_reducible apply State.pushChunk_keeps hP
                 | with_reducible apply State.raise_keeps hP.toClosedRegs
                 | with_reducible apply State.wr_keeps hP.toClosedRegs
                 | with_reducible refine foldl_keeps (Q := P) _ _ _ ?_ ?_ | split | rfl | dsimp only
                 | with_reducible refine fields_keeps hP.toClosedRegs ?_ ?_)

theorem State.takeEntry_keeps {P : State → Prop} (hP : Closed P) (s : State) (p : Nat) (e : Await × Peer) (hs_ : P s) :
    P (State.takeEntry s p e) := by
  unfold State.takeEntry
  repeat' (first | (intro _) | with_reducible assumption | with_reducible apply ite_keeps (Q := P)
                 | with_reducible apply State.repair_keeps hP
                 | with_reducible apply State.divergent_keeps hP.toClosedRegs
                 | with_reducible apply State.acceptChunk_keeps hP
                 | with_reducible apply State.modHitch_keeps hP.toClosedRegs | with_reducible apply State.put_keeps hP
                 | with_reducible apply State.wr_keeps hP.toClosedRegs
                 | with_reducible refine foldl_keeps (Q := P) _ _ _ ?_ ?_ | split | rfl | dsimp only
                 | with_reducible refine fields_keeps hP.toClosedRegs ?_ ?_)

theorem State.verifyCheckpoint_keeps {P : State → Prop} (hP : ClosedRegs P) (s : State) (p : Nat) (hs_ : P s) :
    P (State.verifyCheckpoint s p) := by
  unfold State.verifyCheckpoint
  repeat' (first | (intro _) | with_reducible assumption | with_reducible apply ite_keeps (Q := P)
                 | with_reducible apply State.raise_keeps hP | with_reducible apply State.modPart_keeps hP
                 | with_reducible apply State.wr_keeps hP | with_reducible refine foldl_keeps (Q := P) _ _ _ ?_ ?_
                 | split | rfl | dsimp only | with_reducible refine fields_keeps hP ?_ ?_)

theorem State.hitchArrivals_keeps {P : State → Prop} (hP : Closed P) (s : State) (p : Nat) (hs_ : P s) :
    P (State.hitchArrivals s p) := by
  unfold State.hitchArrivals
  repeat' (first | (intro _) | with_reducible assumption | with_reducible apply ite_keeps (Q := P)
                 | with_reducible apply State.verifyCheckpoint_keeps hP.toClosedRegs
                 | with_reducible apply State.takeEntry_keeps hP | with_reducible apply State.wr_keeps hP.toClosedRegs
                 | with_reducible refine foldl_keeps (Q := P) _ _ _ ?_ ?_ | split | rfl | dsimp only
                 | with_reducible refine fields_keeps hP.toClosedRegs ?_ ?_)

theorem State.seatOwned_keeps {P : State → Prop} (hP : ClosedRegs P) (s : State) (p : Nat) (hs_ : P s) :
    P (State.seatOwned s p) := by
  unfold State.seatOwned
  repeat' (first | (intro _) | with_reducible assumption | with_reducible apply ite_keeps (Q := P)
                 | with_reducible apply State.acceptSeat_keeps hP | with_reducible apply State.modPart_keeps hP
                 | with_reducible refine foldl_keeps (Q := P) _ _ _ ?_ ?_ | split | rfl | dsimp only
                 | with_reducible refine fields_keeps hP ?_ ?_)

theorem State.commitResult_keeps {P : State → Prop} (hP : Closed P) (s : State) (p step : Nat) (yes : Bool) (hs_ : P s) :
    P (State.commitResult s p step yes) := by
  unfold State.commitResult
  repeat' (first | (intro _) | with_reducible assumption | with_reducible apply ite_keeps (Q := P)
                 | with_reducible apply State.seatOwned_keeps hP.toClosedRegs
                 | with_reducible apply State.hitchArrivals_keeps hP | with_reducible apply State.sendEntry_keeps hP
                 | with_reducible apply State.hold_keeps hP.toClosedRegs
                 | with_reducible apply State.setHch_keeps hP.toClosedRegs
                 | with_reducible apply State.emitToken_keeps hP.toClosedRegs
                 | with_reducible apply State.bump_keeps hP.toClosedRegs
                 | with_reducible apply State.raise_keeps hP.toClosedRegs
                 | with_reducible apply State.modHitch_keeps hP.toClosedRegs
                 | with_reducible apply State.wr_keeps hP.toClosedRegs
                 | with_reducible refine foldl_keeps (Q := P) _ _ _ ?_ ?_ | split | rfl | dsimp only
                 | with_reducible refine fields_keeps hP.toClosedRegs ?_ ?_)

theorem State.flagResult_keeps {P : State → Prop} (hP : ClosedRegs P) (s : State) (p step : Nat) (set : Bool) (hs_ : P s) :
    P (State.flagResult s p step set) := by
  unfold State.flagResult
  repeat' (first | (intro _) | with_reducible assumption | with_reducible apply ite_keeps (Q := P)
                 | with_reducible apply State.setWork_keeps hP | with_reducible apply State.each_keeps hP
                 | with_reducible apply State.wrAll_keeps hP | with_reducible refine foldl_keeps (Q := P) _ _ _ ?_ ?_
                 | split | rfl | dsimp only | with_reducible refine fields_keeps hP ?_ ?_)

theorem State.modRound_keeps {P : State → Prop} (hP : ClosedRegs P) (s : State) (kind : RoundKind) (step : Nat) (f : Round → Round) (hs_ : P s) :
    P (State.modRound s kind step f) := by
  unfold State.modRound
  repeat' (first | (intro _) | with_reducible assumption | with_reducible apply ite_keeps (Q := P)
                 | with_reducible apply State.modFabric_keeps hP
                 | with_reducible refine foldl_keeps (Q := P) _ _ _ ?_ ?_ | split | rfl | dsimp only
                 | with_reducible refine fields_keeps hP ?_ ?_)

theorem State.sendRound_keeps {P : State → Prop} (hP : ClosedRegs P) (s : State) (r : Round) (a : Nat) (plus v : Bool) (hs_ : P s) :
    P (State.sendRound s r a plus v) := by
  unfold State.sendRound
  repeat' (first | (intro _) | with_reducible assumption | with_reducible apply ite_keeps (Q := P)
                 | with_reducible apply State.modRound_keeps hP | with_reducible apply State.sendCtrl_keeps hP
                 | with_reducible refine foldl_keeps (Q := P) _ _ _ ?_ ?_ | split | rfl | dsimp only
                 | with_reducible refine fields_keeps hP ?_ ?_)

theorem State.endRound_keeps {P : State → Prop} (hP : Closed P) (s : State) (r : Round) (hs_ : P s) :
    P (State.endRound s r) := by
  unfold State.endRound
  repeat' (first | (intro _) | with_reducible assumption | with_reducible apply ite_keeps (Q := P)
                 | with_reducible apply State.flagResult_keeps hP.toClosedRegs
                 | with_reducible apply State.commitResult_keeps hP
                 | with_reducible apply State.modFabric_keeps hP.toClosedRegs
                 | with_reducible apply State.each_keeps hP.toClosedRegs
                 | with_reducible refine foldl_keeps (Q := P) _ _ _ ?_ ?_ | split | rfl | dsimp only
                 | with_reducible refine fields_keeps hP.toClosedRegs ?_ ?_)

theorem State.runRound_keeps {P : State → Prop} (hP : Closed P) (s : State) (kind : RoundKind) (step fuel : Nat) (h : P s) :
    P (s.runRound kind step fuel) := by
  induction fuel generalizing s with
  | zero => exact h
  | succ fuel ih =>
    unfold State.runRound
    have hr : ∀ r a plus v, P (s.sendRound r a plus v) := fun r a plus v => State.sendRound_keeps hP.toClosedRegs s r a plus v h
    split
    · exact h
    · refine ite_keeps _ _ _ h ?_
      split
      · exact State.endRound_keeps hP s _ h
      · dsimp only
        split
        · exact ih _ (hr _ _ _ _)
        · exact ih _ (hr _ _ _ _)
        · exact ite_keeps _ _ _ (ih _ (State.modRound_keeps hP.toClosedRegs s _ _ _ h)) h

theorem State.joinRound_keeps {P : State → Prop} (hP : Closed P) (s : State) (kind : RoundKind) (step p : Nat) (hs_ : P s) :
    P (State.joinRound s kind step p) := by
  unfold State.joinRound
  repeat' (first | (intro _) | with_reducible assumption | with_reducible apply ite_keeps (Q := P)
                 | with_reducible apply State.runRound_keeps hP
                 | with_reducible apply State.modRound_keeps hP.toClosedRegs
                 | with_reducible refine foldl_keeps (Q := P) _ _ _ ?_ ?_ | split | rfl | dsimp only
                 | with_reducible refine fields_keeps hP.toClosedRegs ?_ ?_)

theorem execFlagRound_keeps {P : State → Prop} (hP : Closed P) (p : PartId) (c : Cmd) (raised : Bool) (s : State) (hs_ : P s) :
    After P (execFlagRound p c raised s) := by
  simp only [execFlagRound, After_next]
  repeat' (first | (intro _) | with_reducible assumption | with_reducible apply ite_keeps (Q := P)
                 | with_reducible apply State.joinRound_keeps hP
                 | with_reducible apply State.issueNeeding_keeps hP.toClosedRegs
                 | with_reducible apply State.tagStart_keeps hP.toClosedRegs
                 | with_reducible apply State.issue_keeps hP.toClosedRegs
                 | with_reducible apply State.setHch_keeps hP.toClosedRegs
                 | with_reducible apply State.raiseNf_keeps hP.toClosedRegs
                 | with_reducible apply State.wr_keeps hP.toClosedRegs
                 | with_reducible refine foldl_keeps (Q := P) _ _ _ ?_ ?_ | split | rfl | dsimp only
                 | with_reducible refine fields_keeps hP.toClosedRegs ?_ ?_)

theorem State.roundMessage_keeps {P : State → Prop} (hP : Closed P) (s : State) (kind : RoundKind) (axis : Nat) (plus : Bool) (step : Nat) (value : Bool) (hs_ : P s) :
    P (State.roundMessage s kind axis plus step value) := by
  unfold State.roundMessage
  repeat' (first | (intro _) | with_reducible assumption | with_reducible apply ite_keeps (Q := P)
                 | with_reducible apply State.runRound_keeps hP
                 | with_reducible apply State.modRound_keeps hP.toClosedRegs
                 | with_reducible refine foldl_keeps (Q := P) _ _ _ ?_ ?_ | split | rfl | dsimp only
                 | with_reducible refine fields_keeps hP.toClosedRegs ?_ ?_)

theorem execFlagRoundMessage_keeps {P : State → Prop} (hP : Closed P) (i : PortId) (kind : RoundKind) (axis : Fin 4) (step : W64) (value : Bool) (s : State) (hs_ : P s) (hr : P { s with held := putRanked (.flagRoundMessage i kind axis step value) s.held }) :
    After P (execFlagRoundMessage i kind axis step value s) := by
  simp only [execFlagRoundMessage, After_next]
  repeat' (first | (intro _) | with_reducible assumption | with_reducible apply ite_keeps (Q := P)
                 | with_reducible apply State.roundMessage_keeps hP | with_reducible apply State.ranked_keeps hr
                 | with_reducible refine foldl_keeps (Q := P) _ _ _ ?_ ?_ | split | rfl | dsimp only
                 | with_reducible refine fields_keeps hP.toClosedRegs ?_ ?_)

theorem State.clearNf_keeps {P : State → Prop} (hP : ClosedRegs P) (s : State) (p : Nat) (hs_ : P s) :
    P (State.clearNf s p) := by
  unfold State.clearNf
  repeat' (first | (intro _) | with_reducible assumption | with_reducible apply ite_keeps (Q := P)
                 | with_reducible apply State.wrAll_keeps hP | with_reducible refine foldl_keeps (Q := P) _ _ _ ?_ ?_
                 | split | rfl | dsimp only | with_reducible refine fields_keeps hP ?_ ?_)

theorem execHitchOpen_keeps {P : State → Prop} (hP : ClosedRegs P) (p : PartId) (c : Cmd) (s : State) (hs_ : P s) :
    After P (execHitchOpen p c s) := by
  simp only [execHitchOpen, After_next]
  repeat' (first | (intro _) | with_reducible assumption | with_reducible apply ite_keeps (Q := P)
                 | with_reducible apply State.clearNf_keeps hP | with_reducible apply State.issueWith_keeps hP
                 | with_reducible apply State.issueDone_keeps hP | with_reducible apply State.hold_keeps hP
                 | with_reducible apply State.setHch_keeps hP | with_reducible apply State.emitFor_keeps hP
                 | with_reducible apply State.modHitch_keeps hP | with_reducible apply State.modPart_keeps hP
                 | with_reducible apply State.wrAll_keeps hP | with_reducible apply State.wr_keeps hP
                 | with_reducible refine foldl_keeps (Q := P) _ _ _ ?_ ?_ | split | rfl | dsimp only
                 | with_reducible refine fields_keeps hP ?_ ?_)

theorem execHitchCommit_keeps {P : State → Prop} (hP : Closed P) (p : PartId) (c : Cmd) (s : State) (hs_ : P s) :
    After P (execHitchCommit p c s) := by
  simp only [execHitchCommit, After_next]
  repeat' (first | (intro _) | with_reducible assumption | with_reducible apply ite_keeps (Q := P)
                 | with_reducible apply State.joinRound_keeps hP
                 | with_reducible apply State.withTable_keeps hP.toClosedRegs
                 | with_reducible apply State.issueWith_keeps hP.toClosedRegs
                 | with_reducible apply State.issueDone_keeps hP.toClosedRegs
                 | with_reducible apply State.tagStart_keeps hP.toClosedRegs
                 | with_reducible apply State.issue_keeps hP.toClosedRegs
                 | with_reducible apply State.setHch_keeps hP.toClosedRegs
                 | with_reducible apply State.modHitch_keeps hP.toClosedRegs
                 | with_reducible apply State.wr_keeps hP.toClosedRegs
                 | with_reducible refine foldl_keeps (Q := P) _ _ _ ?_ ?_ | split | rfl | dsimp only
                 | with_reducible refine fields_keeps hP.toClosedRegs ?_ ?_)

theorem execHitchPush_keeps {P : State → Prop} (hP : Closed P) (p : PartId) (c : Cmd) (s : State) (hs_ : P s) :
    After P (execHitchPush p c s) := by
  simp only [execHitchPush, After_next]
  repeat' (first | (intro _) | with_reducible assumption | with_reducible apply ite_keeps (Q := P)
                 | with_reducible apply State.hitchArrivals_keeps hP
                 | with_reducible apply State.beginReceive_keeps hP | with_reducible apply State.pushChunk_keeps hP
                 | with_reducible apply State.withTable_keeps hP.toClosedRegs
                 | with_reducible apply State.issueWith_keeps hP.toClosedRegs
                 | with_reducible apply State.issueDone_keeps hP.toClosedRegs
                 | with_reducible apply State.tagStart_keeps hP.toClosedRegs
                 | with_reducible apply State.issue_keeps hP.toClosedRegs
                 | with_reducible refine foldl_keeps (Q := P) _ _ _ ?_ ?_ | split | rfl | dsimp only
                 | with_reducible refine fields_keeps hP.toClosedRegs ?_ ?_)

theorem State.reloadScales_keeps {P : State → Prop} (hP : ClosedRegs P) (s : State) (p : Nat) (hs_ : P s) :
    P (State.reloadScales s p) := by
  unfold State.reloadScales
  repeat' (first | (intro _) | with_reducible assumption | with_reducible apply ite_keeps (Q := P)
                 | with_reducible apply State.dropLoads_keeps hP | with_reducible apply State.queueLoad_keeps hP
                 | with_reducible apply State.modScale_keeps hP
                 | with_reducible refine foldl_keeps (Q := P) _ _ _ ?_ ?_ | split | rfl | dsimp only
                 | with_reducible refine fields_keeps hP ?_ ?_)

theorem execHitchResume_keeps {P : State → Prop} (hP : Closed P) (p : PartId) (c : Cmd) (s : State) (hs_ : P s) :
    After P (execHitchResume p c s) := by
  simp only [execHitchResume, After_next]
  repeat' (first | (intro _) | with_reducible assumption | with_reducible apply ite_keeps (Q := P)
                 | with_reducible apply State.reloadScales_keeps hP.toClosedRegs
                 | with_reducible apply State.hitchArrivals_keeps hP | with_reducible apply State.sendEntry_keeps hP
                 | with_reducible apply State.withTable_keeps hP.toClosedRegs
                 | with_reducible apply State.issueWith_keeps hP.toClosedRegs
                 | with_reducible apply State.tagStart_keeps hP.toClosedRegs
                 | with_reducible apply State.issue_keeps hP.toClosedRegs
                 | with_reducible apply State.setHch_keeps hP.toClosedRegs
                 | with_reducible apply State.modHitch_keeps hP.toClosedRegs
                 | with_reducible apply State.wrAll_keeps hP.toClosedRegs
                 | with_reducible apply State.wr_keeps hP.toClosedRegs
                 | with_reducible refine foldl_keeps (Q := P) _ _ _ ?_ ?_ | split | rfl | dsimp only
                 | with_reducible refine fields_keeps hP.toClosedRegs ?_ ?_)

theorem State.finishResume_keeps {P : State → Prop} (hP : ClosedRegs P) (s : State) (p : Nat) (hs_ : P s) :
    P (State.finishResume s p) := by
  unfold State.finishResume
  repeat' (first | (intro _) | with_reducible assumption | with_reducible apply ite_keeps (Q := P)
                 | with_reducible apply State.hold_keeps hP | with_reducible apply State.setHch_keeps hP
                 | with_reducible apply State.bump_keeps hP | with_reducible apply State.modFabric_keeps hP
                 | with_reducible apply State.modHitch_keeps hP | with_reducible apply State.wrAll_keeps hP
                 | with_reducible apply State.wr_keeps hP | with_reducible refine foldl_keeps (Q := P) _ _ _ ?_ ?_
                 | split | rfl | dsimp only | with_reducible refine fields_keeps hP ?_ ?_)

theorem State.stageChunk_keeps {P : State → Prop} (hP : Closed P) (s : State) (p : Nat) (q : Peer) (at_ : Nat) (h : P s) : P (s.stageChunk p q at_) := by
  refine State.guarded_keeps hP.toClosedRegs s _ _ _ h (foldl_keeps (Q := fun e : State × Nat => P e.1) _ _ _ (State.copy_keeps hP s _ at_ 64 h) ?_)
  intro e _ he
  exact State.transferred_keeps hP.toClosedRegs _ _ _ (State.transferred_keeps hP.toClosedRegs _ _ _ (State.copy_keeps hP e.1 _ _ _ he))

theorem State.stageAll_keeps {P : State → Prop} (hP : Closed P) (s : State) (p step : Nat) (qs : List Peer) (h : P s) : P (s.stageAll p step qs) := by
  unfold State.stageAll
  refine State.modPart_keeps hP.toClosedRegs _ p _ ?_
  exact foldl_keeps (Q := fun e : State × Nat × List (Nat × Staged) => P e.1) _ _ _ h
    (fun e q he => State.stageChunk_keeps hP e.1 p q _ he)

theorem execHitchCheckpoint_keeps {P : State → Prop} (hP : Closed P) (p : PartId) (c : Cmd) (s : State) (hs_ : P s) :
    After P (execHitchCheckpoint p c s) := by
  simp only [execHitchCheckpoint, After_next]
  repeat' (first | (intro _) | with_reducible assumption | with_reducible apply ite_keeps (Q := P)
                 | with_reducible apply State.stageAll_keeps hP | with_reducible apply State.hitchArrivals_keeps hP
                 | with_reducible apply State.sendEntry_keeps hP
                 | with_reducible apply State.withTable_keeps hP.toClosedRegs
                 | with_reducible apply State.issueNeeding_keeps hP.toClosedRegs
                 | with_reducible apply State.tagStart_keeps hP.toClosedRegs
                 | with_reducible apply State.issue_keeps hP.toClosedRegs
                 | with_reducible apply State.modPart_keeps hP.toClosedRegs
                 | with_reducible apply State.wrAll_keeps hP.toClosedRegs
                 | with_reducible refine foldl_keeps (Q := P) _ _ _ ?_ ?_ | split | rfl | dsimp only
                 | with_reducible refine fields_keeps hP.toClosedRegs ?_ ?_)

end Sys2Proof.Machine
end

