-- ==== Sys2Proof/Laws/KeepsFabric.lean ====
section
/-! SUPPORT. Each operation of Machine/Fabric keeps every property that the primitive changes keep (Laws/Keeps). -/
namespace Sys2Proof.Machine

theorem State.startTraining_keeps {P : State → Prop} (hP : ClosedRegs P) (s : State) (i : Nat) (hs_ : P s) :
    P (State.startTraining s i) := by
  unfold State.startTraining
  repeat' (first | (intro _) | with_reducible assumption | with_reducible apply ite_keeps (Q := P)
                 | with_reducible apply State.wrAll_keeps hP | with_reducible refine foldl_keeps (Q := P) _ _ _ ?_ ?_
                 | split | rfl | dsimp only | with_reducible refine fields_keeps hP ?_ ?_)

theorem execPortEnable_keeps {P : State → Prop} (hP : ClosedRegs P) (i : PortId) (s : State) (hs_ : P s) :
    After P (execPortEnable i s) := by
  simp only [execPortEnable, After_next]
  repeat' (first | (intro _) | with_reducible assumption | with_reducible apply ite_keeps (Q := P)
                 | with_reducible apply State.startTraining_keeps hP | with_reducible apply State.wr_keeps hP
                 | with_reducible refine foldl_keeps (Q := P) _ _ _ ?_ ?_ | split | rfl | dsimp only
                 | with_reducible refine fields_keeps hP ?_ ?_)

theorem State.retrain_keeps {P : State → Prop} (hP : Closed P) (s : State) (i : Nat) (hs_ : P s) :
    P (State.retrain s i) := by
  unfold State.retrain
  repeat' (first | (intro _) | with_reducible assumption | with_reducible apply ite_keeps (Q := P)
                 | with_reducible apply State.startTraining_keeps hP.toClosedRegs
                 | with_reducible apply State.portDown_keeps hP | with_reducible apply State.wr_keeps hP.toClosedRegs
                 | with_reducible refine foldl_keeps (Q := P) _ _ _ ?_ ?_ | split | rfl | dsimp only
                 | with_reducible refine fields_keeps hP.toClosedRegs ?_ ?_)

theorem execPortRetrain_keeps {P : State → Prop} (hP : Closed P) (i : PortId) (s : State) (hs_ : P s) :
    After P (execPortRetrain i s) := by
  simp only [execPortRetrain, After_next]
  repeat' (first | (intro _) | with_reducible assumption | with_reducible apply ite_keeps (Q := P)
                 | with_reducible apply State.retrain_keeps hP
                 | with_reducible refine foldl_keeps (Q := P) _ _ _ ?_ ?_ | split | rfl | dsimp only
                 | with_reducible refine fields_keeps hP.toClosedRegs ?_ ?_)

theorem execPortTrained_keeps {P : State → Prop} (hP : ClosedRegs P) (i : PortId) (neighbour : Coord) (rtt : BitVec 16) (entropy : List Byte) (s : State) (hs_ : P s) :
    After P (execPortTrained i neighbour rtt entropy s) := by
  simp only [execPortTrained, After_next]
  repeat' (first | (intro _) | with_reducible assumption | with_reducible apply ite_keeps (Q := P)
                 | with_reducible apply State.raise_keeps hP | with_reducible apply State.drawn_keeps hP
                 | with_reducible apply State.modPort_keeps hP | with_reducible apply State.wrAll_keeps hP
                 | with_reducible refine foldl_keeps (Q := P) _ _ _ ?_ ?_ | split | rfl | dsimp only
                 | with_reducible refine fields_keeps hP ?_ ?_)

theorem execLinkDown_keeps {P : State → Prop} (hP : Closed P) (i : PortId) (byReplay : Bool) (s : State) (hs_ : P s) (hr : P { s with held := putRanked (.linkDown i byReplay) s.held }) :
    After P (execLinkDown i byReplay s) := by
  simp only [execLinkDown, After_next]
  repeat' (first | (intro _) | with_reducible assumption | with_reducible apply ite_keeps (Q := P)
                 | with_reducible apply State.startTraining_keeps hP.toClosedRegs
                 | with_reducible apply State.portDown_keeps hP
                 | with_reducible apply State.raise_keeps hP.toClosedRegs | with_reducible apply State.ranked_keeps hr
                 | with_reducible refine foldl_keeps (Q := P) _ _ _ ?_ ?_ | split | rfl | dsimp only
                 | with_reducible refine fields_keeps hP.toClosedRegs ?_ ?_)

theorem State.retireLane_keeps {P : State → Prop} (hP : ClosedRegs P) (s : State) (i : Nat) (transmit : Bool) (lane : Nat) (hs_ : P s) :
    P (State.retireLane s i transmit lane) := by
  unfold State.retireLane
  repeat' (first | (intro _) | with_reducible assumption | with_reducible apply ite_keeps (Q := P)
                 | with_reducible apply State.setBit_keeps hP | with_reducible apply State.bump_keeps hP
                 | with_reducible apply State.raise_keeps hP | with_reducible apply State.wrAll_keeps hP
                 | with_reducible refine foldl_keeps (Q := P) _ _ _ ?_ ?_ | split | rfl | dsimp only
                 | with_reducible refine fields_keeps hP ?_ ?_)

theorem State.turnLanes_keeps {P : State → Prop} (hP : ClosedRegs P) (s : State) (i : Nat) (transmit : Bool) (seq : Nat) (hs_ : P s) :
    P (State.turnLanes s i transmit seq) := by
  unfold State.turnLanes
  repeat' (first | (intro _) | with_reducible assumption | with_reducible apply ite_keeps (Q := P)
                 | with_reducible apply State.retireLane_keeps hP | with_reducible apply State.modPort_keeps hP
                 | with_reducible refine foldl_keeps (Q := P) _ _ _ ?_ ?_ | split | rfl | dsimp only
                 | with_reducible refine fields_keeps hP ?_ ?_)

theorem execLaneSpare_keeps {P : State → Prop} (hP : Closed P) (i : PortId) (transmit : Bool) (lane : Fin 26) (cause : LaneCause) (s : State) (hs_ : P s) :
    After P (execLaneSpare i transmit lane cause s) := by
  simp only [execLaneSpare, After_next]
  repeat' (first | (intro _) | with_reducible assumption | with_reducible apply ite_keeps (Q := P)
                 | with_reducible apply State.portDown_keeps hP
                 | with_reducible apply State.sendCtrl_keeps hP.toClosedRegs
                 | with_reducible apply State.modPort_keeps hP.toClosedRegs
                 | with_reducible refine foldl_keeps (Q := P) _ _ _ ?_ ?_ | split | rfl | dsimp only
                 | with_reducible refine fields_keeps hP.toClosedRegs ?_ ?_)

theorem State.laneMessage_keeps {P : State → Prop} (hP : ClosedRegs P) (s : State) (i : Nat) (transmit : Bool) (lane first : Nat) (hs_ : P s) :
    P (State.laneMessage s i transmit lane first) := by
  unfold State.laneMessage
  repeat' (first | (intro _) | with_reducible assumption | with_reducible apply ite_keeps (Q := P)
                 | with_reducible apply State.modPort_keeps hP
                 | with_reducible refine foldl_keeps (Q := P) _ _ _ ?_ ?_ | split | rfl | dsimp only
                 | with_reducible refine fields_keeps hP ?_ ?_)

theorem execLaneManagementMessage_keeps {P : State → Prop} (hP : ClosedRegs P) (i : PortId) (transmit : Bool) (lane : Fin 26) (first : W64) (s : State) (hs_ : P s) :
    After P (execLaneManagementMessage i transmit lane first s) := by
  simp only [execLaneManagementMessage, After_next]
  repeat' (first | (intro _) | with_reducible assumption | with_reducible apply ite_keeps (Q := P)
                 | with_reducible apply State.laneMessage_keeps hP
                 | with_reducible refine foldl_keeps (Q := P) _ _ _ ?_ ?_ | split | rfl | dsimp only
                 | with_reducible refine fields_keeps hP ?_ ?_)

theorem State.arrivedAt_keeps {P : State → Prop} (hP : Closed P) (s : State) (addr : Nat) (hs_ : P s) :
    P (State.arrivedAt s addr) := by
  unfold State.arrivedAt
  repeat' (first | (intro _) | with_reducible assumption | with_reducible apply ite_keeps (Q := P)
                 | with_reducible apply State.hitchArrivals_keeps hP
                 | with_reducible refine foldl_keeps (Q := P) _ _ _ ?_ ?_ | split | rfl | dsimp only
                 | with_reducible refine fields_keeps hP.toClosedRegs ?_ ?_)

theorem execRemoteWrite_keeps {P : State → Prop} (hP : Closed P) (from_ : Coord) (id : Nat) (job : BitVec 16) (addr : BitVec 41) (data : List Byte) (poison : List Nat) (s : State) (hs_ : P s) :
    After P (execRemoteWrite from_ id job addr data poison s) := by
  simp only [execRemoteWrite, After_next]
  repeat' (first | (intro _) | with_reducible assumption | with_reducible apply ite_keeps (Q := P)
                 | with_reducible apply State.arrivedAt_keeps hP | with_reducible apply State.takeRemote_keeps hP
                 | with_reducible apply State.sendReply_keeps hP
                 | with_reducible refine foldl_keeps (Q := P) _ _ _ ?_ ?_ | split | rfl | dsimp only
                 | with_reducible refine fields_keeps hP.toClosedRegs ?_ ?_)

theorem execRemoteWriteTimeout_keeps {P : State → Prop} (hP : ClosedRegs P) (id : Nat) (s : State) (hs_ : P s) :
    After P (execRemoteWriteTimeout id s) := by
  simp only [execRemoteWriteTimeout, After_next]
  repeat' (first | (intro _) | with_reducible assumption | with_reducible apply ite_keeps (Q := P)
                 | with_reducible apply State.endRemote_keeps hP
                 | with_reducible refine foldl_keeps (Q := P) _ _ _ ?_ ?_ | split | rfl | dsimp only
                 | with_reducible refine fields_keeps hP ?_ ?_)

theorem execTimingMessageSend_keeps {P : State → Prop} (hP : ClosedRegs P) (i : PortId) (phase : BitVec 16) (s : State) (hs_ : P s) :
    After P (execTimingMessageSend i phase s) := by
  simp only [execTimingMessageSend, After_next]
  repeat' (first | (intro _) | with_reducible assumption | with_reducible apply ite_keeps (Q := P)
                 | with_reducible apply State.sendCtrl_keeps hP
                 | with_reducible refine foldl_keeps (Q := P) _ _ _ ?_ ?_ | split | rfl | dsimp only
                 | with_reducible refine fields_keeps hP ?_ ?_)

theorem State.loadTick_keeps {P : State → Prop} (hP : Closed P) (s : State) (d : Int) (hs_ : P s) :
    P (State.loadTick s d) := by
  unfold State.loadTick
  repeat' (first | (intro _) | with_reducible assumption | with_reducible apply ite_keeps (Q := P)
                 | with_reducible apply State.shift_keeps hP
                 | with_reducible apply State.modFabric_keeps hP.toClosedRegs
                 | with_reducible apply State.modWing_keeps hP.toClosedRegs
                 | with_reducible apply State.each_keeps hP.toClosedRegs
                 | with_reducible refine foldl_keeps (Q := P) _ _ _ ?_ ?_ | split | rfl | dsimp only
                 | with_reducible refine fields_keeps hP.toClosedRegs ?_ ?_)

theorem State.doRealign_keeps {P : State → Prop} (hP : Closed P) (s : State) (i : Nat) (hs_ : P s) :
    P (State.doRealign s i) := by
  unfold State.doRealign
  repeat' (first | (intro _) | with_reducible assumption | with_reducible apply ite_keeps (Q := P)
                 | with_reducible apply State.loadTick_keeps hP
                 | with_reducible apply State.raise_keeps hP.toClosedRegs
                 | with_reducible apply State.modFabric_keeps hP.toClosedRegs
                 | with_reducible apply State.wrAll_keeps hP.toClosedRegs
                 | with_reducible refine foldl_keeps (Q := P) _ _ _ ?_ ?_ | split | rfl | dsimp only
                 | with_reducible refine fields_keeps hP.toClosedRegs ?_ ?_)

theorem State.follow_keeps {P : State → Prop} (hP : ClosedRegs P) (s : State) (i : Nat) (hs_ : P s) :
    P (State.follow s i) := by
  unfold State.follow
  repeat' (first | (intro _) | with_reducible assumption | with_reducible apply ite_keeps (Q := P)
                 | with_reducible apply State.raise_keeps hP | with_reducible apply State.modFabric_keeps hP
                 | with_reducible apply State.wr_keeps hP | with_reducible refine foldl_keeps (Q := P) _ _ _ ?_ ?_
                 | split | rfl | dsimp only | with_reducible refine fields_keeps hP ?_ ?_)

theorem State.timingMessage_keeps {P : State → Prop} (hP : Closed P) (s : State) (i depth tick phase arrival : Nat) (hs_ : P s) :
    P (State.timingMessage s i depth tick phase arrival) := by
  unfold State.timingMessage
  repeat' (first | (intro _) | with_reducible assumption | with_reducible apply ite_keeps (Q := P)
                 | with_reducible apply State.follow_keeps hP.toClosedRegs
                 | with_reducible apply State.doRealign_keeps hP
                 | with_reducible apply State.bump_keeps hP.toClosedRegs
                 | with_reducible apply State.modFabric_keeps hP.toClosedRegs
                 | with_reducible apply State.wr_keeps hP.toClosedRegs
                 | with_reducible refine foldl_keeps (Q := P) _ _ _ ?_ ?_ | split | rfl | dsimp only
                 | with_reducible refine fields_keeps hP.toClosedRegs ?_ ?_)

theorem execTimingMessage_keeps {P : State → Prop} (hP : Closed P) (i : PortId) (depth : BitVec 8) (tick : W64) (phase arrival : BitVec 16) (s : State) (hs_ : P s) :
    After P (execTimingMessage i depth tick phase arrival s) := by
  simp only [execTimingMessage, After_next]
  repeat' (first | (intro _) | with_reducible assumption | with_reducible apply ite_keeps (Q := P)
                 | with_reducible apply State.timingMessage_keeps hP
                 | with_reducible refine foldl_keeps (Q := P) _ _ _ ?_ ?_ | split | rfl | dsimp only
                 | with_reducible refine fields_keeps hP.toClosedRegs ?_ ?_)

theorem State.setParent_keeps {P : State → Prop} (hP : ClosedRegs P) (s : State) (m : Option Nat) (hs_ : P s) :
    P (State.setParent s m) := by
  unfold State.setParent
  repeat' (first | (intro _) | with_reducible assumption | with_reducible apply ite_keeps (Q := P)
                 | with_reducible apply State.each_keeps hP | with_reducible apply State.wrAll_keeps hP
                 | with_reducible apply State.wr_keeps hP | with_reducible refine foldl_keeps (Q := P) _ _ _ ?_ ?_
                 | split | rfl | dsimp only | with_reducible refine fields_keeps hP ?_ ?_)

theorem execTimingParentSelect_keeps {P : State → Prop} (hP : Closed P) (s : State) (hs_ : P s) :
    After P (execTimingParentSelect s) := by
  simp only [execTimingParentSelect, After_next]
  repeat' (first | (intro _) | with_reducible assumption | with_reducible apply ite_keeps (Q := P)
                 | with_reducible apply State.setParent_keeps hP.toClosedRegs
                 | with_reducible apply State.follow_keeps hP.toClosedRegs
                 | with_reducible apply State.doRealign_keeps hP
                 | with_reducible apply State.bump_keeps hP.toClosedRegs
                 | with_reducible apply State.raise_keeps hP.toClosedRegs
                 | with_reducible apply State.modFabric_keeps hP.toClosedRegs
                 | with_reducible apply State.wr_keeps hP.toClosedRegs
                 | with_reducible refine foldl_keeps (Q := P) _ _ _ ?_ ?_ | split | rfl | dsimp only
                 | with_reducible refine fields_keeps hP.toClosedRegs ?_ ?_)

theorem execHoldoverExpired_keeps {P : State → Prop} (hP : ClosedRegs P) (s : State) (hs_ : P s) :
    After P (execHoldoverExpired s) := by
  simp only [execHoldoverExpired, After_next]
  repeat' (first | (intro _) | with_reducible assumption | with_reducible apply ite_keeps (Q := P)
                 | with_reducible apply State.raise_keeps hP | with_reducible apply State.wr_keeps hP
                 | with_reducible refine foldl_keeps (Q := P) _ _ _ ?_ ?_ | split | rfl | dsimp only
                 | with_reducible refine fields_keeps hP ?_ ?_)

theorem State.realign_keeps {P : State → Prop} (hP : Closed P) (s : State) (hs_ : P s) :
    P (State.realign s) := by
  unfold State.realign
  repeat' (first | (intro _) | with_reducible assumption | with_reducible apply ite_keeps (Q := P)
                 | with_reducible apply State.doRealign_keeps hP | with_reducible apply State.wr_keeps hP.toClosedRegs
                 | with_reducible refine foldl_keeps (Q := P) _ _ _ ?_ ?_ | split | rfl | dsimp only
                 | with_reducible refine fields_keeps hP.toClosedRegs ?_ ?_)

theorem execRealign_keeps {P : State → Prop} (hP : Closed P) (s : State) (hs_ : P s) :
    After P (execRealign s) := by
  simp only [execRealign, After_next]
  repeat' (first | (intro _) | with_reducible assumption | with_reducible apply ite_keeps (Q := P)
                 | with_reducible apply State.realign_keeps hP
                 | with_reducible refine foldl_keeps (Q := P) _ _ _ ?_ ?_ | split | rfl | dsimp only
                 | with_reducible refine fields_keeps hP.toClosedRegs ?_ ?_)

theorem execTickAligned_keeps {P : State → Prop} (hP : Closed P) (s : State) (hs_ : P s) :
    After P (execTickAligned s) := by
  simp only [execTickAligned, After_next]
  repeat' (first | (intro _) | with_reducible assumption | with_reducible apply ite_keeps (Q := P)
                 | with_reducible apply State.loadTick_keeps hP
                 | with_reducible apply State.raise_keeps hP.toClosedRegs
                 | with_reducible apply State.wr_keeps hP.toClosedRegs
                 | with_reducible refine foldl_keeps (Q := P) _ _ _ ?_ ?_ | split | rfl | dsimp only
                 | with_reducible refine fields_keeps hP.toClosedRegs ?_ ?_)

theorem State.keyEpochMessage_keeps {P : State → Prop} (hP : ClosedRegs P) (s : State) (i epoch first : Nat) (hs_ : P s) :
    P (State.keyEpochMessage s i epoch first) := by
  unfold State.keyEpochMessage
  repeat' (first | (intro _) | with_reducible assumption | with_reducible apply ite_keeps (Q := P)
                 | with_reducible apply State.modPort_keeps hP
                 | with_reducible refine foldl_keeps (Q := P) _ _ _ ?_ ?_ | split | rfl | dsimp only
                 | with_reducible refine fields_keeps hP ?_ ?_)

theorem execKeyEpochMessage_keeps {P : State → Prop} (hP : ClosedRegs P) (i : PortId) (epoch : W32) (first : W64) (s : State) (hs_ : P s) :
    After P (execKeyEpochMessage i epoch first s) := by
  simp only [execKeyEpochMessage, After_next]
  repeat' (first | (intro _) | with_reducible assumption | with_reducible apply ite_keeps (Q := P)
                 | with_reducible apply State.keyEpochMessage_keeps hP
                 | with_reducible refine foldl_keeps (Q := P) _ _ _ ?_ ?_ | split | rfl | dsimp only
                 | with_reducible refine fields_keeps hP ?_ ?_)

theorem execLinkKeyRollover_keeps {P : State → Prop} (hP : Closed P) (i : PortId) (s : State) (hs_ : P s) :
    After P (execLinkKeyRollover i s) := by
  simp only [execLinkKeyRollover, After_next]
  repeat' (first | (intro _) | with_reducible assumption | with_reducible apply ite_keeps (Q := P)
                 | with_reducible apply State.queueTx_keeps hP.toClosedRegs
                 | with_reducible apply State.sendCtrl_keeps hP.toClosedRegs
                 | with_reducible apply State.drawn_keeps hP.toClosedRegs
                 | with_reducible apply State.modPort_keeps hP.toClosedRegs
                 | with_reducible refine foldl_keeps (Q := P) _ _ _ ?_ ?_ | split | rfl | dsimp only
                 | with_reducible refine fields_keeps hP.toClosedRegs ?_ ?_)

end Sys2Proof.Machine
end

