-- ==== Sys2Proof/Laws/KeepsFrames.lean ====
section
/-! SUPPORT. Each operation of Machine/Frames keeps every property that the primitive changes keep (Laws/Keeps). -/
namespace Sys2Proof.Machine

theorem State.tokenArrives_keeps {P : State → Prop} (hP : ClosedRegs P) (s : State) (i : Nat) (t : Token) (hs_ : P s) :
    P (State.tokenArrives s i t) := by
  unfold State.tokenArrives
  repeat' (first | (intro _) | with_reducible assumption | with_reducible apply ite_keeps (Q := P)
                 | with_reducible apply State.forwardToken_keeps hP | with_reducible apply State.bump_keeps hP
                 | with_reducible apply State.modFabric_keeps hP
                 | with_reducible refine foldl_keeps (Q := P) _ _ _ ?_ ?_ | split | rfl | dsimp only
                 | with_reducible refine fields_keeps hP ?_ ?_)

theorem execAbortToken_keeps {P : State → Prop} (hP : ClosedRegs P) (i : PortId) (t : Token) (s : State) (hs_ : P s) (hr : P { s with held := putRanked (.abortToken i t) s.held }) :
    After P (execAbortToken i t s) := by
  simp only [execAbortToken, After_next]
  repeat' (first | (intro _) | with_reducible assumption | with_reducible apply ite_keeps (Q := P)
                 | with_reducible apply State.tokenArrives_keeps hP | with_reducible apply State.ranked_keeps hr
                 | with_reducible refine foldl_keeps (Q := P) _ _ _ ?_ ?_ | split | rfl | dsimp only
                 | with_reducible refine fields_keeps hP ?_ ?_)

theorem execAbortGo_keeps {P : State → Prop} (hP : ClosedRegs P) (s : State) (hs_ : P s) :
    After P (execAbortGo s) := by
  simp only [execAbortGo, After_next]
  repeat' (first | (intro _) | with_reducible assumption | with_reducible apply ite_keeps (Q := P)
                 | with_reducible apply State.emitToken_keeps hP
                 | with_reducible refine foldl_keeps (Q := P) _ _ _ ?_ ?_ | split | rfl | dsimp only
                 | with_reducible refine fields_keeps hP ?_ ?_)

theorem State.discardStep_keeps {P : State → Prop} (hP : Closed P) (s : State) (p step : Nat) (hs_ : P s) :
    P (State.discardStep s p step) := by
  unfold State.discardStep
  repeat' (first | (intro _) | with_reducible assumption | with_reducible apply ite_keeps (Q := P)
                 | with_reducible apply State.landChunks_keeps hP
                 | with_reducible apply State.abandonAll_keeps hP.toClosedRegs
                 | with_reducible apply State.clearWing_keeps hP.toClosedRegs
                 | with_reducible apply State.modCluster_keeps hP.toClosedRegs
                 | with_reducible apply State.modPart_keeps hP.toClosedRegs
                 | with_reducible apply State.each_keeps hP.toClosedRegs
                 | with_reducible apply State.wrAll_keeps hP.toClosedRegs
                 | with_reducible refine foldl_keeps (Q := P) _ _ _ ?_ ?_ | split | rfl | dsimp only
                 | with_reducible refine fields_keeps hP.toClosedRegs ?_ ?_)

theorem State.chase_keeps {P : State → Prop} (hP : ClosedRegs P) (s : State) (p step : Nat) (hs_ : P s) :
    P (State.chase s p step) := by
  unfold State.chase
  repeat' (first | (intro _) | with_reducible assumption | with_reducible apply ite_keeps (Q := P)
                 | with_reducible apply State.emitToken_keeps hP | with_reducible apply State.bump_keeps hP
                 | with_reducible apply State.raise_keeps hP | with_reducible refine foldl_keeps (Q := P) _ _ _ ?_ ?_
                 | split | rfl | dsimp only | with_reducible refine fields_keeps hP ?_ ?_)

theorem State.abortPart_keeps {P : State → Prop} (hP : Closed P) (s : State) (p step : Nat) (hs_ : P s) :
    P (State.abortPart s p step) := by
  unfold State.abortPart
  repeat' (first | (intro _) | with_reducible assumption | with_reducible apply ite_keeps (Q := P)
                 | with_reducible apply State.chase_keeps hP.toClosedRegs
                 | with_reducible apply State.discardStep_keeps hP
                 | with_reducible apply State.hold_keeps hP.toClosedRegs
                 | with_reducible apply State.stopSeq_keeps hP.toClosedRegs
                 | with_reducible apply State.modHitch_keeps hP.toClosedRegs
                 | with_reducible apply State.modSeq_keeps hP.toClosedRegs
                 | with_reducible apply State.wr_keeps hP.toClosedRegs
                 | with_reducible refine foldl_keeps (Q := P) _ _ _ ?_ ?_ | split | rfl | dsimp only
                 | with_reducible refine fields_keeps hP.toClosedRegs ?_ ?_)

theorem State.discardVc0_keeps {P : State → Prop} (hP : ClosedRegs P) (s : State) (step : Nat) (hs_ : P s) :
    P (State.discardVc0 s step) := by
  unfold State.discardVc0
  repeat' (first | (intro _) | with_reducible assumption | with_reducible apply ite_keeps (Q := P)
                 | with_reducible apply State.freeVc0_keeps hP | with_reducible apply State.purge_keeps hP
                 | with_reducible apply State.bumpN_keeps hP | with_reducible apply State.each_keeps hP
                 | with_reducible refine foldl_keeps (Q := P) _ _ _ ?_ ?_ | split | rfl | dsimp only
                 | with_reducible refine fields_keeps hP ?_ ?_)

theorem State.actOn_keeps {P : State → Prop} (hP : Closed P) (s : State) (step : Nat) (hs_ : P s) :
    P (State.actOn s step) := by
  unfold State.actOn
  repeat' (first | (intro _) | with_reducible assumption | with_reducible apply ite_keeps (Q := P)
                 | with_reducible apply State.discardVc0_keeps hP.toClosedRegs
                 | with_reducible apply State.abortPart_keeps hP
                 | with_reducible apply State.bump_keeps hP.toClosedRegs
                 | with_reducible apply State.raise_keeps hP.toClosedRegs
                 | with_reducible apply State.modFabric_keeps hP.toClosedRegs
                 | with_reducible apply State.each_keeps hP.toClosedRegs
                 | with_reducible apply State.wrAll_keeps hP.toClosedRegs
                 | with_reducible refine foldl_keeps (Q := P) _ _ _ ?_ ?_ | split | rfl | dsimp only
                 | with_reducible refine fields_keeps hP.toClosedRegs ?_ ?_)

theorem execAbortAct_keeps {P : State → Prop} (hP : Closed P) (s : State) (hs_ : P s) (hr : P { s with held := putRanked (.abortAct) s.held }) :
    After P (execAbortAct s) := by
  simp only [execAbortAct, After_next]
  repeat' (first | (intro _) | with_reducible assumption | with_reducible apply ite_keeps (Q := P)
                 | with_reducible apply State.actOn_keeps hP | with_reducible apply State.ranked_keeps hr
                 | with_reducible apply State.modFabric_keeps hP.toClosedRegs
                 | with_reducible refine foldl_keeps (Q := P) _ _ _ ?_ ?_ | split | rfl | dsimp only
                 | with_reducible refine fields_keeps hP.toClosedRegs ?_ ?_)

theorem State.turnKey_keeps {P : State → Prop} (hP : ClosedRegs P) (s : State) (i : Nat) (hs_ : P s) :
    P (State.turnKey s i) := by
  unfold State.turnKey
  repeat' (first | (intro _) | with_reducible assumption | with_reducible apply ite_keeps (Q := P)
                 | with_reducible apply State.modPort_keeps hP | with_reducible apply State.wr_keeps hP
                 | with_reducible refine foldl_keeps (Q := P) _ _ _ ?_ ?_ | split | rfl | dsimp only
                 | with_reducible refine fields_keeps hP ?_ ?_)

theorem State.markSent_keeps {P : State → Prop} (hP : ClosedRegs P) (s : State) (g : Slot) (hs_ : P s) :
    P (State.markSent s g) := by
  unfold State.markSent
  repeat' (first | (intro _) | with_reducible assumption | with_reducible apply ite_keeps (Q := P)
                 | with_reducible apply State.modFabric_keeps hP
                 | with_reducible refine foldl_keeps (Q := P) _ _ _ ?_ ?_ | split | rfl | dsimp only
                 | with_reducible refine fields_keeps hP ?_ ?_)

theorem State.sendFrame_keeps {P : State → Prop} (hP : ClosedRegs P) (s : State) (i : Nat) (errs : List (Fin 75 × List Upset)) (hs_ : P s) :
    P (State.sendFrame s i errs) := by
  unfold State.sendFrame
  repeat' (first | (intro _) | with_reducible assumption | with_reducible apply ite_keeps (Q := P)
                 | with_reducible apply State.markSent_keeps hP | with_reducible apply State.turnKey_keeps hP
                 | with_reducible apply State.turnLanes_keeps hP | with_reducible apply State.returnOrigin_keeps hP
                 | with_reducible apply State.progress_keeps hP | with_reducible apply State.emit_keeps hP
                 | with_reducible apply State.setPort_keeps hP
                 | with_reducible refine foldl_keeps (Q := P) _ _ _ ?_ ?_ | split | rfl | dsimp only
                 | with_reducible refine fields_keeps hP ?_ ?_)

theorem State.resendFrame_keeps {P : State → Prop} (hP : ClosedRegs P) (s : State) (i : Nat) (f : SentFrame) (rest : List SentFrame) (hs_ : P s) :
    P (State.resendFrame s i f rest) := by
  unfold State.resendFrame
  repeat' (first | (intro _) | with_reducible assumption | with_reducible apply ite_keeps (Q := P)
                 | with_reducible apply State.progress_keeps hP | with_reducible apply State.bump_keeps hP
                 | with_reducible apply State.emit_keeps hP | with_reducible apply State.modPort_keeps hP
                 | with_reducible refine foldl_keeps (Q := P) _ _ _ ?_ ?_ | split | rfl | dsimp only
                 | with_reducible refine fields_keeps hP ?_ ?_)

theorem execStrandFrameSend_keeps {P : State → Prop} (hP : ClosedRegs P) (i : PortId) (errs : List (Fin 75 × List Upset)) (s : State) (hs_ : P s) :
    After P (execStrandFrameSend i errs s) := by
  simp only [execStrandFrameSend, After_next]
  repeat' (first | (intro _) | with_reducible assumption | with_reducible apply ite_keeps (Q := P)
                 | with_reducible apply State.resendFrame_keeps hP | with_reducible apply State.sendFrame_keeps hP
                 | with_reducible refine foldl_keeps (Q := P) _ _ _ ?_ ?_ | split | rfl | dsimp only
                 | with_reducible refine fields_keeps hP ?_ ?_)

theorem State.countLanes_keeps {P : State → Prop} (hP : ClosedRegs P) (s : State) (i : Nat) (a : Arrival) (hs_ : P s) :
    P (State.countLanes s i a) := by
  unfold State.countLanes
  repeat' (first | (intro _) | with_reducible assumption | with_reducible apply ite_keeps (Q := P)
                 | with_reducible apply State.modPort_keeps hP
                 | with_reducible refine foldl_keeps (Q := P) _ _ _ ?_ ?_ | split | rfl | dsimp only
                 | with_reducible refine fields_keeps hP ?_ ?_)

theorem State.badFrame_keeps {P : State → Prop} (hP : ClosedRegs P) (s : State) (i : Nat) (a : Arrival) (hs_ : P s) :
    P (State.badFrame s i a) := by
  unfold State.badFrame
  repeat' (first | (intro _) | with_reducible assumption | with_reducible apply ite_keeps (Q := P)
                 | with_reducible apply State.bump_keeps hP | with_reducible apply State.modPort_keeps hP
                 | with_reducible refine foldl_keeps (Q := P) _ _ _ ?_ ?_ | split | rfl | dsimp only
                 | with_reducible refine fields_keeps hP ?_ ?_)

theorem State.forgedFrame_keeps {P : State → Prop} (hP : ClosedRegs P) (s : State) (i : Nat) (a : Arrival) (hs_ : P s) :
    P (State.forgedFrame s i a) := by
  unfold State.forgedFrame
  repeat' (first | (intro _) | with_reducible assumption | with_reducible apply ite_keeps (Q := P)
                 | with_reducible apply State.badFrame_keeps hP | with_reducible apply State.bump_keeps hP
                 | with_reducible apply State.raise_keeps hP | with_reducible refine foldl_keeps (Q := P) _ _ _ ?_ ?_
                 | split | rfl | dsimp only | with_reducible refine fields_keeps hP ?_ ?_)

theorem State.takeColl_keeps {P : State → Prop} (hP : ClosedRegs P) (s : State) (i : Nat) (g : Slot) (job step part tag to_ : Nat) (hs_ : P s) :
    P (State.takeColl s i g job step part tag to_) := by
  unfold State.takeColl
  repeat' (first | (intro _) | with_reducible assumption | with_reducible apply ite_keeps (Q := P)
                 | with_reducible apply State.returnCredit_keeps hP | with_reducible apply State.queueTx_keeps hP
                 | with_reducible apply State.bump_keeps hP | with_reducible apply State.modPort_keeps hP
                 | with_reducible refine foldl_keeps (Q := P) _ _ _ ?_ ?_ | split | rfl | dsimp only
                 | with_reducible refine fields_keeps hP ?_ ?_)

theorem State.forgetWrite_keeps {P : State → Prop} (hP : ClosedRegs P) (s : State) (w : Nat × Nat) (last : Bool) (hs_ : P s) :
    P (State.forgetWrite s w last) := by
  unfold State.forgetWrite
  repeat' (first | (intro _) | with_reducible assumption | with_reducible apply ite_keeps (Q := P)
                 | with_reducible apply State.modFabric_keeps hP
                 | with_reducible refine foldl_keeps (Q := P) _ _ _ ?_ ?_ | split | rfl | dsimp only
                 | with_reducible refine fields_keeps hP ?_ ?_)

theorem State.takeWrite_keeps {P : State → Prop} (hP : Closed P) (s : State) (i : Nat) (g : Slot) (job from_ to_ id addr len index : Nat) (hs_ : P s) :
    P (State.takeWrite s i g job from_ to_ id addr len index) := by
  unfold State.takeWrite
  repeat' (first | (intro _) | with_reducible assumption | with_reducible apply ite_keeps (Q := P)
                 | with_reducible apply State.forgetWrite_keeps hP.toClosedRegs
                 | with_reducible apply State.arrivedAt_keeps hP | with_reducible apply State.breakWrite_keeps hP
                 | with_reducible apply State.transferred_keeps hP.toClosedRegs
                 | with_reducible apply State.sendReply_keeps hP
                 | with_reducible apply State.routeGranuleOr_keeps hP.toClosedRegs
                 | exact State.routeGranule_keeps hP.toClosedRegs _ _ _ _ (by assumption) _ (by assumption)
                 | with_reducible apply State.returnCredit_keeps hP.toClosedRegs
                 | with_reducible apply State.bump_keeps hP.toClosedRegs
                 | with_reducible apply State.modFabric_keeps hP.toClosedRegs
                 | with_reducible apply State.store_keeps hP | with_reducible refine foldl_keeps (Q := P) _ _ _ ?_ ?_
                 | split | rfl | dsimp only | with_reducible refine fields_keeps hP.toClosedRegs ?_ ?_)

theorem State.verifyAll_keeps {P : State → Prop} (hP : ClosedRegs P) (s : State) (hs_ : P s) :
    P (State.verifyAll s) := by
  unfold State.verifyAll
  repeat' (first | (intro _) | with_reducible assumption | with_reducible apply ite_keeps (Q := P)
                 | with_reducible apply State.verifyCheckpoint_keeps hP | with_reducible apply State.each_keeps hP
                 | with_reducible refine foldl_keeps (Q := P) _ _ _ ?_ ?_ | split | rfl | dsimp only
                 | with_reducible refine fields_keeps hP ?_ ?_)

theorem State.takeGranule_keeps {P : State → Prop} (hP : Closed P) (s : State) (i : Nat) (g : Slot) (hs_ : P s) :
    P (State.takeGranule s i g) := by
  unfold State.takeGranule
  repeat' (first | (intro _) | with_reducible assumption | with_reducible apply ite_keeps (Q := P)
                 | with_reducible apply State.verifyAll_keeps hP.toClosedRegs
                 | with_reducible apply State.takeWrite_keeps hP
                 | with_reducible apply State.takeColl_keeps hP.toClosedRegs
                 | with_reducible apply State.takeReply_keeps hP.toClosedRegs
                 | with_reducible apply State.routeGranuleOr_keeps hP.toClosedRegs
                 | exact State.routeGranule_keeps hP.toClosedRegs _ _ _ _ (by assumption) _ (by assumption)
                 | with_reducible apply State.returnCredit_keeps hP.toClosedRegs
                 | with_reducible apply State.modPort_keeps hP.toClosedRegs
                 | with_reducible refine foldl_keeps (Q := P) _ _ _ ?_ ?_ | split | rfl | dsimp only
                 | with_reducible refine fields_keeps hP.toClosedRegs ?_ ?_)

theorem State.takeControl_keeps {P : State → Prop} (hP : Closed P) (s : State) (i arrival : Nat) (x_ : CtrlMsg) (hs_ : P s) :
    P (State.takeControl s i arrival x_) := by
  cases x_ <;> unfold State.takeControl <;>
  repeat' (first | (intro _) | with_reducible assumption | with_reducible apply ite_keeps (Q := P)
                 | with_reducible apply State.tokenArrives_keeps hP.toClosedRegs
                 | with_reducible apply State.keyEpochMessage_keeps hP.toClosedRegs
                 | with_reducible apply State.timingMessage_keeps hP
                 | with_reducible apply State.laneMessage_keeps hP.toClosedRegs
                 | with_reducible apply State.roundMessage_keeps hP
                 | with_reducible refine foldl_keeps (Q := P) _ _ _ ?_ ?_ | split | rfl | dsimp only
                 | with_reducible refine fields_keeps hP.toClosedRegs ?_ ?_)

theorem State.acceptFrame_keeps {P : State → Prop} (hP : Closed P) (s : State) (i seq arrival : Nat) (f : Frame) (hs_ : P s) :
    P (State.acceptFrame s i seq arrival f) := by
  unfold State.acceptFrame
  repeat' (first | (intro _) | with_reducible assumption | with_reducible apply ite_keeps (Q := P)
                 | with_reducible apply State.takeControl_keeps hP | with_reducible apply State.takeGranule_keeps hP
                 | with_reducible apply State.turnLanes_keeps hP.toClosedRegs
                 | with_reducible apply State.progress_keeps hP.toClosedRegs
                 | with_reducible apply State.modPort_keeps hP.toClosedRegs
                 | with_reducible refine foldl_keeps (Q := P) _ _ _ ?_ ?_ | split | rfl | dsimp only
                 | with_reducible refine fields_keeps hP.toClosedRegs ?_ ?_)

theorem State.goodFrame_keeps {P : State → Prop} (hP : Closed P) (s : State) (i seq arrival : Nat) (f : Frame) (hs_ : P s) :
    P (State.goodFrame s i seq arrival f) := by
  unfold State.goodFrame
  repeat' (first | (intro _) | with_reducible assumption | with_reducible apply ite_keeps (Q := P)
                 | with_reducible apply State.acceptFrame_keeps hP
                 | with_reducible apply State.modPort_keeps hP.toClosedRegs
                 | with_reducible refine foldl_keeps (Q := P) _ _ _ ?_ ?_ | split | rfl | dsimp only
                 | with_reducible refine fields_keeps hP.toClosedRegs ?_ ?_)

theorem execStrandFrameReceive_keeps {P : State → Prop} (hP : Closed P) (i : PortId) (wire : List Byte) (cargo : List (Option Cargo)) (a : Arrival) (s : State) (hs_ : P s) :
    After P (execStrandFrameReceive i wire cargo a s) := by
  simp only [execStrandFrameReceive, After_next]
  repeat' (first | (intro _) | with_reducible assumption | with_reducible apply ite_keeps (Q := P)
                 | with_reducible apply State.goodFrame_keeps hP
                 | with_reducible apply State.forgedFrame_keeps hP.toClosedRegs
                 | with_reducible apply State.badFrame_keeps hP.toClosedRegs
                 | with_reducible apply State.countLanes_keeps hP.toClosedRegs
                 | with_reducible apply State.bumpN_keeps hP.toClosedRegs
                 | with_reducible refine foldl_keeps (Q := P) _ _ _ ?_ ?_ | split | rfl | dsimp only
                 | with_reducible refine fields_keeps hP.toClosedRegs ?_ ?_)

end Sys2Proof.Machine
end

