-- ==== Sys2Proof/Laws/KeepsMeasure.lean ====
section
/-! SUPPORT. Each operation of Machine/Measure keeps every property that the primitive changes keep (Laws/Keeps). -/
namespace Sys2Proof.Machine

theorem State.showConverter_keeps {P : State → Prop} (hP : ClosedRegs P) (s : State) (m : Nat) (hs_ : P s) :
    P (State.showConverter s m) := by
  unfold State.showConverter
  repeat' (first | (intro _) | with_reducible assumption | with_reducible apply ite_keeps (Q := P)
                 | with_reducible apply State.wrAll_keeps hP | with_reducible refine foldl_keeps (Q := P) _ _ _ ?_ ?_
                 | split | rfl | dsimp only | with_reducible refine fields_keeps hP ?_ ?_)

theorem State.putConverter_keeps {P : State → Prop} (hP : ClosedRegs P) (s : State) (m : Nat) (x : Converter) (hs_ : P s) :
    P (State.putConverter s m x) := by
  unfold State.putConverter
  repeat' (first | (intro _) | with_reducible assumption | with_reducible apply ite_keeps (Q := P)
                 | with_reducible apply State.showConverter_keeps hP
                 | with_reducible apply State.setConverter_keeps hP
                 | with_reducible refine foldl_keeps (Q := P) _ _ _ ?_ ?_ | split | rfl | dsimp only
                 | with_reducible refine fields_keeps hP ?_ ?_)

theorem State.startScan_keeps {P : State → Prop} (hP : ClosedRegs P) (s : State) (m : Nat) (last : Option Nat) (hs_ : P s) :
    P (State.startScan s m last) := by
  unfold State.startScan
  repeat' (first | (intro _) | with_reducible assumption | with_reducible apply ite_keeps (Q := P)
                 | with_reducible apply State.putConverter_keeps hP | with_reducible apply State.raise_keeps hP
                 | with_reducible refine foldl_keeps (Q := P) _ _ _ ?_ ?_ | split | rfl | dsimp only
                 | with_reducible refine fields_keeps hP ?_ ?_)

theorem State.startNext_keeps {P : State → Prop} (hP : ClosedRegs P) (s : State) (m : Nat) (last : Option Nat) (hs_ : P s) :
    P (State.startNext s m last) := by
  unfold State.startNext
  repeat' (first | (intro _) | with_reducible assumption | with_reducible apply ite_keeps (Q := P)
                 | with_reducible apply State.startScan_keeps hP | with_reducible apply State.putConverter_keeps hP
                 | with_reducible apply State.showConverter_keeps hP
                 | with_reducible refine foldl_keeps (Q := P) _ _ _ ?_ ?_ | split | rfl | dsimp only
                 | with_reducible refine fields_keeps hP ?_ ?_)

theorem State.startConverters_keeps {P : State → Prop} (hP : ClosedRegs P) (s : State) (hs_ : P s) :
    P (State.startConverters s) := by
  unfold State.startConverters
  repeat' (first | (intro _) | with_reducible assumption | with_reducible apply ite_keeps (Q := P)
                 | with_reducible apply State.startNext_keeps hP | with_reducible apply State.each_keeps hP
                 | with_reducible refine foldl_keeps (Q := P) _ _ _ ?_ ?_ | split | rfl | dsimp only
                 | with_reducible refine fields_keeps hP ?_ ?_)

theorem State.stopConverters_keeps {P : State → Prop} (hP : ClosedRegs P) (s : State) (hs_ : P s) :
    P (State.stopConverters s) := by
  unfold State.stopConverters
  repeat' (first | (intro _) | with_reducible assumption | with_reducible apply ite_keeps (Q := P)
                 | with_reducible apply State.putConverter_keeps hP | with_reducible apply State.each_keeps hP
                 | with_reducible refine foldl_keeps (Q := P) _ _ _ ?_ ?_ | split | rfl | dsimp only
                 | with_reducible refine fields_keeps hP ?_ ?_)

theorem State.rescan_keeps {P : State → Prop} (hP : ClosedRegs P) (s : State) (m : Nat) (hs_ : P s) :
    P (State.rescan s m) := by
  unfold State.rescan
  repeat' (first | (intro _) | with_reducible assumption | with_reducible apply ite_keeps (Q := P)
                 | with_reducible apply State.startNext_keeps hP | with_reducible apply State.setConverter_keeps hP
                 | with_reducible refine foldl_keeps (Q := P) _ _ _ ?_ ?_ | split | rfl | dsimp only
                 | with_reducible refine fields_keeps hP ?_ ?_)

theorem execUrgentRequest_keeps {P : State → Prop} (hP : ClosedRegs P) (m : Fin 4) (ch : Fin 32) (requester : UrgentRequester) (s : State) (hs_ : P s) :
    After P (execUrgentRequest m ch requester s) := by
  simp only [execUrgentRequest, After_next]
  repeat' (first | (intro _) | with_reducible assumption | with_reducible apply ite_keeps (Q := P)
                 | with_reducible apply State.setConverter_keeps hP
                 | with_reducible refine foldl_keeps (Q := P) _ _ _ ?_ ?_ | split | rfl | dsimp only
                 | with_reducible refine fields_keeps hP ?_ ?_)

theorem State.serveUrgent_keeps {P : State → Prop} (hP : ClosedRegs P) (s : State) (m : Nat) (e : Nat × Nat) (hs_ : P s) :
    P (State.serveUrgent s m e) := by
  unfold State.serveUrgent
  repeat' (first | (intro _) | with_reducible assumption | with_reducible apply ite_keeps (Q := P)
                 | with_reducible apply State.startNext_keeps hP | with_reducible apply State.putConverter_keeps hP
                 | with_reducible apply State.bump_keeps hP | with_reducible apply State.raise_keeps hP
                 | with_reducible apply State.setConverter_keeps hP
                 | with_reducible refine foldl_keeps (Q := P) _ _ _ ?_ ?_ | split | rfl | dsimp only
                 | with_reducible refine fields_keeps hP ?_ ?_)

theorem State.takeUrgent_keeps {P : State → Prop} (hP : ClosedRegs P) (s : State) (m : Nat) (hs_ : P s) :
    P (State.takeUrgent s m) := by
  unfold State.takeUrgent
  repeat' (first | (intro _) | with_reducible assumption | with_reducible apply ite_keeps (Q := P)
                 | with_reducible apply State.serveUrgent_keeps hP | with_reducible apply State.setConverter_keeps hP
                 | with_reducible refine foldl_keeps (Q := P) _ _ _ ?_ ?_ | split | rfl | dsimp only
                 | with_reducible refine fields_keeps hP ?_ ?_)

theorem State.putResult_keeps {P : State → Prop} (hP : ClosedRegs P) (s : State) (m ch : Nat) (urgent : Bool) (value : Int) (hs_ : P s) :
    P (State.putResult s m ch urgent value) := by
  unfold State.putResult
  repeat' (first | (intro _) | with_reducible assumption | with_reducible apply ite_keeps (Q := P)
                 | with_reducible apply State.bump_keeps hP | with_reducible apply State.raise_keeps hP
                 | with_reducible apply State.wrAll_keeps hP | with_reducible apply State.wrInt_keeps hP
                 | with_reducible refine foldl_keeps (Q := P) _ _ _ ?_ ?_ | split | rfl | dsimp only
                 | with_reducible refine fields_keeps hP ?_ ?_)

theorem execMeasurementConversion_keeps {P : State → Prop} (hP : ClosedRegs P) (m : Fin 4) (value : Int) (s : State) (hs_ : P s) :
    After P (execMeasurementConversion m value s) := by
  simp only [execMeasurementConversion, After_next]
  repeat' (first | (intro _) | with_reducible assumption | with_reducible apply ite_keeps (Q := P)
                 | with_reducible apply State.putResult_keeps hP | with_reducible apply State.startNext_keeps hP
                 | with_reducible apply State.setConverter_keeps hP
                 | with_reducible refine foldl_keeps (Q := P) _ _ _ ?_ ?_ | split | rfl | dsimp only
                 | with_reducible refine fields_keeps hP ?_ ?_)

end Sys2Proof.Machine
end

