-- ==== Sys2Proof/Laws/KeepsStart.lean ====
section
/-! SUPPORT. Each operation of Machine/Start keeps every property that the primitive changes keep (Laws/Keeps). -/
namespace Sys2Proof.Machine

@[simp] theorem Security.putCopy_fuseSvn (x : Security) (r : Reservation) : (x.putCopy r).fuseSvn = x.fuseSvn := by
  unfold Security.putCopy
  split <;> rfl

theorem State.cold_keeps {P : State → Prop} (hP : Closed P) (s : State) (h : P s) : P s.cold :=
  hP.wipe s _ (fun _ => false) (by simp [State.kept, State.cold, State.reset]) h

theorem State.setDomain_keeps {P : State → Prop} (hP : ClosedRegs P) (s : State) (n : Nat) (on : Bool) (hs_ : P s) :
    P (State.setDomain s n on) := by
  unfold State.setDomain
  repeat' (first | (intro _) | with_reducible assumption | with_reducible apply ite_keeps (Q := P)
                 | with_reducible apply State.setBit_keeps hP | with_reducible refine foldl_keeps (Q := P) _ _ _ ?_ ?_
                 | split | rfl | dsimp only | with_reducible refine fields_keeps hP ?_ ?_)

theorem State.reserveId_keeps {P : State → Prop} (hP : ClosedRegs P) (s : State) (h : P s) : P s.reserveId := by
  unfold State.reserveId
  refine ite_keeps _ _ _ (State.wr_keeps hP _ _ _ _ h) (State.bump_keeps hP _ _ _ (State.modSecurity_keeps hP s _ ?_ h))
  simp

theorem State.reserveNonce_keeps {P : State → Prop} (hP : ClosedRegs P) (s : State) (h : P s) : P s.reserveNonce := by
  unfold State.reserveNonce
  refine ite_keeps _ _ _ (State.wr_keeps hP _ _ _ _ h) (State.bump_keeps hP _ _ _ (State.modSecurity_keeps hP s _ ?_ h))
  simp

theorem State.reserveBoth_keeps {P : State → Prop} (hP : ClosedRegs P) (s : State) (h : P s) : P s.reserveBoth := by
  unfold State.reserveBoth
  refine ite_keeps _ _ _ (State.wrAll_keeps hP _ _ _ (State.modSecurity_keeps hP s _ ?_ h)) ?_
  · rfl
  refine State.bump_keeps hP _ _ _ (State.bump_keeps hP _ _ _ (State.wrAll_keeps hP _ _ _ (State.modSecurity_keeps hP s _ ?_ h)))
  simp

theorem State.takeId_keeps {P : State → Prop} (hP : ClosedRegs P) {s t : State} {n : Nat} (ht : s.takeId = some (n, t)) (h : P s) : P t := by
  have hu : P (if s.rd .sec SEC_ID_INDEX_next < s.security.idTop then s else s.reserveId) :=
    ite_keeps _ _ _ h (State.reserveId_keeps hP s h)
  simp only [State.takeId, Option.ite_none_right_eq_some, Option.some.injEq, Prod.mk.injEq] at ht
  exact ht.2.2 ▸ State.wr_keeps hP _ _ _ _ hu

theorem State.takeNonce_keeps {P : State → Prop} (hP : ClosedRegs P) {s t : State} {n : Nat} (ht : s.takeNonce = some (n, t)) (h : P s) : P t := by
  have hu : P (if s.rd .sec SEC_NONCE_CTR_value < s.security.ncTop then s else s.reserveNonce) :=
    ite_keeps _ _ _ h (State.reserveNonce_keeps hP s h)
  simp only [State.takeNonce, Option.ite_none_right_eq_some, Option.some.injEq, Prod.mk.injEq] at ht
  exact ht.2.2 ▸ State.wr_keeps hP _ _ _ _ hu

theorem State.mintKey_keeps {P : State → Prop} (hP : ClosedRegs P) {s t : State} (ht : s.mintKey = some t) (h : P s) : P t := by
  simp only [State.mintKey, Option.map_eq_some_iff] at ht
  obtain ⟨⟨n, u⟩, hu, rfl⟩ := ht
  exact State.wr_keeps hP _ _ _ _ (State.modSecurity_keeps hP u _ rfl (State.takeId_keeps hP hu h))

theorem State.startSecurity_keeps {P : State → Prop} (hP : ClosedRegs P) (s : State) (h : P s) : P s.startSecurity := by
  have hu := State.modSecurity_keeps hP _ (fun x => { x with bootKey := x.bootKey + 1 }) rfl (State.reserveBoth_keeps hP _
    (State.wrAll_keeps hP s .sec [(SEC_MODE_engines_ok, 0xF), (SEC_FW_fused_svn, s.security.fuseSvn)] h))
  unfold State.startSecurity
  dsimp only
  cases hm : State.mintKey _ with
  | none => exact State.wr_keeps hP _ _ _ _ hu
  | some t => exact State.mintKey_keeps hP hm hu

theorem State.fromPowerGood_keeps {P : State → Prop} (hP : Closed P) (s : State) (hs_ : P s) :
    P (State.fromPowerGood s) := by
  unfold State.fromPowerGood
  repeat' (first | (intro _) | with_reducible assumption | with_reducible apply ite_keeps (Q := P)
                 | with_reducible apply State.startSecurity_keeps hP.toClosedRegs
                 | with_reducible apply State.setDomain_keeps hP.toClosedRegs
                 | with_reducible apply State.cold_keeps hP | with_reducible apply State.each_keeps hP.toClosedRegs
                 | with_reducible refine foldl_keeps (Q := P) _ _ _ ?_ ?_ | split | rfl | dsimp only
                 | with_reducible refine fields_keeps hP.toClosedRegs ?_ ?_)

theorem State.beginInstar1_keeps {P : State → Prop} (hP : ClosedRegs P) (s : State) (hs_ : P s) :
    P (State.beginInstar1 s) := by
  unfold State.beginInstar1
  repeat' (first | (intro _) | with_reducible assumption | with_reducible apply ite_keeps (Q := P)
                 | with_reducible apply State.setDomain_keeps hP | with_reducible apply State.each_keeps hP
                 | with_reducible apply State.wr_keeps hP | with_reducible refine foldl_keeps (Q := P) _ _ _ ?_ ?_
                 | split | rfl | dsimp only | with_reducible refine fields_keeps hP ?_ ?_)

theorem State.reachInstar0_keeps {P : State → Prop} (hP : ClosedRegs P) (s : State) (hs_ : P s) :
    P (State.reachInstar0 s) := by
  unfold State.reachInstar0
  repeat' (first | (intro _) | with_reducible assumption | with_reducible apply ite_keeps (Q := P)
                 | with_reducible apply State.beginInstar1_keeps hP | with_reducible apply State.setDomain_keeps hP
                 | with_reducible apply State.modPower_keeps hP | with_reducible apply State.wrAll_keeps hP
                 | with_reducible apply State.wr_keeps hP | with_reducible refine foldl_keeps (Q := P) _ _ _ ?_ ?_
                 | split | rfl | dsimp only | with_reducible refine fields_keeps hP ?_ ?_)

theorem State.reach__keeps {P : State → Prop} (hP : ClosedRegs P) (s : State) (k : Nat) (hs_ : P s) :
    P (State.reach_ s k) := by
  unfold State.reach_
  repeat' (first | (intro _) | with_reducible assumption | with_reducible apply ite_keeps (Q := P)
                 | with_reducible apply State.raise_keeps hP | with_reducible apply State.wrAll_keeps hP
                 | with_reducible refine foldl_keeps (Q := P) _ _ _ ?_ ?_ | split | rfl | dsimp only
                 | with_reducible refine fields_keeps hP ?_ ?_)

theorem State.reachInstar2_keeps {P : State → Prop} (hP : ClosedRegs P) (s : State) (hs_ : P s) :
    P (State.reachInstar2 s) := by
  unfold State.reachInstar2
  repeat' (first | (intro _) | with_reducible assumption | with_reducible apply ite_keeps (Q := P)
                 | with_reducible apply State.reach__keeps hP | with_reducible apply State.startTraining_keeps hP
                 | with_reducible apply State.each_keeps hP | with_reducible refine foldl_keeps (Q := P) _ _ _ ?_ ?_
                 | split | rfl | dsimp only | with_reducible refine fields_keeps hP ?_ ?_)

theorem State.powerWing_keeps {P : State → Prop} (hP : ClosedRegs P) (s : State) (p w : Nat) (hs_ : P s) :
    P (State.powerWing s p w) := by
  unfold State.powerWing
  repeat' (first | (intro _) | with_reducible assumption | with_reducible apply ite_keeps (Q := P)
                 | with_reducible apply State.setDomain_keeps hP | with_reducible apply State.wr_keeps hP
                 | with_reducible refine foldl_keeps (Q := P) _ _ _ ?_ ?_ | split | rfl | dsimp only
                 | with_reducible refine fields_keeps hP ?_ ?_)

theorem State.beginInstar2_keeps {P : State → Prop} (hP : ClosedRegs P) (s : State) (hs_ : P s) :
    P (State.beginInstar2 s) := by
  unfold State.beginInstar2
  repeat' (first | (intro _) | with_reducible assumption | with_reducible apply ite_keeps (Q := P)
                 | with_reducible apply State.powerWing_keeps hP | with_reducible apply State.reachInstar2_keeps hP
                 | with_reducible apply State.each_keeps hP | with_reducible refine foldl_keeps (Q := P) _ _ _ ?_ ?_
                 | split | rfl | dsimp only | with_reducible refine fields_keeps hP ?_ ?_)

theorem State.reachInstar1_keeps {P : State → Prop} (hP : ClosedRegs P) (s : State) (hs_ : P s) :
    P (State.reachInstar1 s) := by
  unfold State.reachInstar1
  repeat' (first | (intro _) | with_reducible assumption | with_reducible apply ite_keeps (Q := P)
                 | with_reducible apply State.beginInstar2_keeps hP | with_reducible apply State.reach__keeps hP
                 | with_reducible apply State.applyPower_keeps hP | with_reducible apply State.each_keeps hP
                 | with_reducible apply State.wr_keeps hP | with_reducible refine foldl_keeps (Q := P) _ _ _ ?_ ?_
                 | split | rfl | dsimp only | with_reducible refine fields_keeps hP ?_ ?_)

theorem execInstarReached_keeps {P : State → Prop} (hP : ClosedRegs P) (k : Fin 4) (retries : List (PartId × ChannelId)) (s : State) (hs_ : P s) :
    After P (execInstarReached k retries s) := by
  simp only [execInstarReached, After_next]
  repeat' (first | (intro _) | with_reducible assumption | with_reducible apply ite_keeps (Q := P)
                 | with_reducible apply State.reachInstar1_keeps hP | with_reducible apply State.reachInstar2_keeps hP
                 | with_reducible apply State.reach__keeps hP | with_reducible apply State.reachInstar0_keeps hP
                 | with_reducible apply State.bump_keeps hP | with_reducible refine foldl_keeps (Q := P) _ _ _ ?_ ?_
                 | split | rfl | dsimp only | with_reducible refine fields_keeps hP ?_ ?_)

theorem execInstarStall_keeps {P : State → Prop} (hP : ClosedRegs P) (c : StallCause) (s : State) (hs_ : P s) :
    After P (execInstarStall c s) := by
  simp only [execInstarStall, After_next]
  repeat' (first | (intro _) | with_reducible assumption | with_reducible apply ite_keeps (Q := P)
                 | with_reducible apply State.raise_keeps hP | with_reducible apply State.wrAll_keeps hP
                 | with_reducible apply State.wr_keeps hP | with_reducible refine foldl_keeps (Q := P) _ _ _ ?_ ?_
                 | split | rfl | dsimp only | with_reducible refine fields_keeps hP ?_ ?_)

theorem State.writeFeatures_keeps {P : State → Prop} (hP : ClosedRegs P) (s : State) (v : Nat) (hs_ : P s) :
    P (State.writeFeatures s v) := by
  unfold State.writeFeatures
  repeat' (first | (intro _) | with_reducible assumption | with_reducible apply ite_keeps (Q := P)
                 | with_reducible apply State.beginInstar2_keeps hP | with_reducible apply State.wrAll_keeps hP
                 | with_reducible apply State.wr_keeps hP | with_reducible refine foldl_keeps (Q := P) _ _ _ ?_ ?_
                 | split | rfl | dsimp only | with_reducible refine fields_keeps hP ?_ ?_)

theorem execFeatureEnable_keeps {P : State → Prop} (hP : ClosedRegs P) (value : W64) (s : State) (hs_ : P s) :
    After P (execFeatureEnable value s) := by
  simp only [execFeatureEnable, After_next]
  repeat' (first | (intro _) | with_reducible assumption | with_reducible apply ite_keeps (Q := P)
                 | with_reducible apply State.writeFeatures_keeps hP
                 | with_reducible refine foldl_keeps (Q := P) _ _ _ ?_ ?_ | split | rfl | dsimp only
                 | with_reducible refine fields_keeps hP ?_ ?_)

theorem execWingClear_keeps {P : State → Prop} (hP : ClosedRegs P) (p : PartId) (w : WingId) (s : State) (hs_ : P s) :
    After P (execWingClear p w s) := by
  simp only [execWingClear, After_next]
  repeat' (first | (intro _) | with_reducible assumption | with_reducible apply ite_keeps (Q := P)
                 | with_reducible apply State.modScale_keeps hP | with_reducible apply State.modWing_keeps hP
                 | with_reducible apply State.wrAll_keeps hP | with_reducible apply State.wr_keeps hP
                 | with_reducible refine foldl_keeps (Q := P) _ _ _ ?_ ?_ | split | rfl | dsimp only
                 | with_reducible refine fields_keeps hP ?_ ?_)

theorem execPowerGood_keeps {P : State → Prop} (hP : Closed P) (sris : Bool) (smbAddr : Fin 8) (s : State) (hs_ : P s) :
    After P (execPowerGood sris smbAddr s) := by
  simp only [execPowerGood, After_next]
  repeat' (first | (intro _) | with_reducible assumption | with_reducible apply ite_keeps (Q := P)
                 | with_reducible apply State.fromPowerGood_keeps hP
                 | with_reducible refine foldl_keeps (Q := P) _ _ _ ?_ ?_ | split | rfl | dsimp only
                 | with_reducible refine fields_keeps hP.toClosedRegs ?_ ?_)

theorem execPowerLoss_keeps {P : State → Prop} (hP : Closed P) (s : State) (hs_ : P s) :
    After P (execPowerLoss s) := by
  simp only [execPowerLoss, After_next]
  repeat' (first | (intro _) | with_reducible assumption | with_reducible apply ite_keeps (Q := P)
                 | with_reducible apply State.cold_keeps hP | with_reducible refine foldl_keeps (Q := P) _ _ _ ?_ ?_
                 | split | rfl | dsimp only | with_reducible refine fields_keeps hP.toClosedRegs ?_ ?_)

theorem execKill_keeps {P : State → Prop} (hP : Closed P) (s : State) (hs_ : P s) :
    After P (execKill s) := by
  simp only [execKill, After_next]
  repeat' (first | (intro _) | with_reducible assumption | with_reducible apply ite_keeps (Q := P)
                 | with_reducible apply State.cold_keeps hP | with_reducible refine foldl_keeps (Q := P) _ _ _ ?_ ?_
                 | split | rfl | dsimp only | with_reducible refine fields_keeps hP.toClosedRegs ?_ ?_)

theorem State.moduleDown_keeps {P : State → Prop} (hP : Closed P) (s : State) (h : P s) : P s.moduleDown := by
  unfold State.moduleDown
  refine State.each_keeps hP.toClosedRegs _ _ _ ?_ (fun t n ht => State.setDomain_keeps hP.toClosedRegs t n true ht)
  refine State.wrAll_keeps hP.toClosedRegs _ _ _ ?_
  exact hP.wipe s _ _ rfl h

theorem State.startClock_keeps {P : State → Prop} (hP : ClosedRegs P) (s : State) (t : Nat) (hs_ : P s) :
    P (State.startClock s t) := by
  unfold State.startClock
  repeat' (first | (intro _) | with_reducible assumption | with_reducible apply ite_keeps (Q := P)
                 | with_reducible apply State.wr_keeps hP | with_reducible refine foldl_keeps (Q := P) _ _ _ ?_ ?_
                 | split | rfl | dsimp only | with_reducible refine fields_keeps hP ?_ ?_)

theorem State.restartModule_keeps {P : State → Prop} (hP : ClosedRegs P) (s : State) (hs_ : P s) :
    P (State.restartModule s) := by
  unfold State.restartModule
  repeat' (first | (intro _) | with_reducible assumption | with_reducible apply ite_keeps (Q := P)
                 | with_reducible apply State.startClock_keeps hP | with_reducible apply State.reachInstar0_keeps hP
                 | with_reducible apply State.startConverters_keeps hP | with_reducible apply State.modPower_keeps hP
                 | with_reducible apply State.each_keeps hP | with_reducible refine foldl_keeps (Q := P) _ _ _ ?_ ?_
                 | split | rfl | dsimp only | with_reducible refine fields_keeps hP ?_ ?_)

theorem State.moduleReset_keeps {P : State → Prop} (hP : Closed P) (s : State) (hs_ : P s) :
    P (State.moduleReset s) := by
  unfold State.moduleReset
  repeat' (first | (intro _) | with_reducible assumption | with_reducible apply ite_keeps (Q := P)
                 | with_reducible apply State.restartModule_keeps hP.toClosedRegs
                 | with_reducible apply State.moduleDown_keeps hP
                 | with_reducible refine foldl_keeps (Q := P) _ _ _ ?_ ?_ | split | rfl | dsimp only
                 | with_reducible refine fields_keeps hP.toClosedRegs ?_ ?_)

theorem State.watchdog_keeps {P : State → Prop} (hP : Closed P) (s : State) (hs_ : P s) :
    P (State.watchdog s) := by
  unfold State.watchdog
  repeat' (first | (intro _) | with_reducible assumption | with_reducible apply ite_keeps (Q := P)
                 | with_reducible apply State.fromPowerGood_keeps hP
                 | with_reducible refine foldl_keeps (Q := P) _ _ _ ?_ ?_ | split | rfl | dsimp only
                 | with_reducible refine fields_keeps hP.toClosedRegs ?_ ?_)

theorem execModuleResetRequest_keeps {P : State → Prop} (hP : Closed P) (s : State) (hs_ : P s) :
    After P (execModuleResetRequest s) := by
  simp only [execModuleResetRequest, After_next]
  repeat' (first | (intro _) | with_reducible assumption | with_reducible apply ite_keeps (Q := P)
                 | with_reducible apply State.moduleReset_keeps hP
                 | with_reducible apply State.bump_keeps hP.toClosedRegs
                 | with_reducible refine foldl_keeps (Q := P) _ _ _ ?_ ?_ | split | rfl | dsimp only
                 | with_reducible refine fields_keeps hP.toClosedRegs ?_ ?_)

theorem execWatchdogReset_keeps {P : State → Prop} (hP : Closed P) (s : State) (hs_ : P s) :
    After P (execWatchdogReset s) := by
  simp only [execWatchdogReset, After_next]
  repeat' (first | (intro _) | with_reducible assumption | with_reducible apply ite_keeps (Q := P)
                 | with_reducible apply State.watchdog_keeps hP
                 | with_reducible refine foldl_keeps (Q := P) _ _ _ ?_ ?_ | split | rfl | dsimp only
                 | with_reducible refine fields_keeps hP.toClosedRegs ?_ ?_)

end Sys2Proof.Machine
end

