-- ==== Sys2Proof/Laws/KeepsPower.lean ====
section
/-! SUPPORT. Each operation of Machine/Power keeps every property that the primitive changes keep (Laws/Keeps). -/
namespace Sys2Proof.Machine

theorem State.putReading_keeps {P : State → Prop} (hP : ClosedRegs P) (s : State) (x : Sensor) (v : BitVec 16) (hs_ : P s) :
    P (State.putReading s x v) := by
  unfold State.putReading
  repeat' (first | (intro _) | with_reducible assumption | with_reducible apply ite_keeps (Q := P)
                 | with_reducible apply State.modPower_keeps hP
                 | with_reducible refine foldl_keeps (Q := P) _ _ _ ?_ ?_ | split | rfl | dsimp only
                 | with_reducible refine fields_keeps hP ?_ ?_)

theorem State.sampleTriggers_keeps {P : State → Prop} (hP : ClosedRegs P) (s : State) (p w : Nat) (hs_ : P s) :
    P (State.sampleTriggers s p w) := by
  unfold State.sampleTriggers
  repeat' (first | (intro _) | with_reducible assumption | with_reducible apply ite_keeps (Q := P)
                 | with_reducible apply State.triggerState_keeps hP
                 | with_reducible refine foldl_keeps (Q := P) _ _ _ ?_ ?_ | split | rfl | dsimp only
                 | with_reducible refine fields_keeps hP ?_ ?_)

theorem State.applyReading_keeps {P : State → Prop} (hP : ClosedRegs P) (s : State) (x : Sensor) (v : BitVec 16) (hs_ : P s) :
    P (State.applyReading s x v) := by
  unfold State.applyReading
  repeat' (first | (intro _) | with_reducible assumption | with_reducible apply ite_keeps (Q := P)
                 | with_reducible apply State.setRestoreRow_keeps hP | with_reducible apply State.wrAll_keeps hP
                 | with_reducible apply State.wr_keeps hP | with_reducible refine foldl_keeps (Q := P) _ _ _ ?_ ?_
                 | split | rfl | dsimp only | with_reducible refine fields_keeps hP ?_ ?_)

theorem State.throttleOn_keeps {P : State → Prop} (hP : ClosedRegs P) (s : State) (x : Sensor) (v : BitVec 16) (hs_ : P s) :
    P (State.throttleOn s x v) := by
  unfold State.throttleOn
  repeat' (first | (intro _) | with_reducible assumption | with_reducible apply ite_keeps (Q := P)
                 | with_reducible apply State.bump_keeps hP | with_reducible apply State.raise_keeps hP
                 | with_reducible apply State.modPower_keeps hP
                 | with_reducible refine foldl_keeps (Q := P) _ _ _ ?_ ?_ | split | rfl | dsimp only
                 | with_reducible refine fields_keeps hP ?_ ?_)

theorem State.takeReading_keeps {P : State → Prop} (hP : ClosedRegs P) (s : State) (x : Sensor) (v : BitVec 16) (hs_ : P s) :
    P (State.takeReading s x v) := by
  unfold State.takeReading
  repeat' (first | (intro _) | with_reducible assumption | with_reducible apply ite_keeps (Q := P)
                 | with_reducible apply State.throttleOn_keeps hP | with_reducible apply State.applyReading_keeps hP
                 | with_reducible apply State.putReading_keeps hP
                 | with_reducible refine foldl_keeps (Q := P) _ _ _ ?_ ?_ | split | rfl | dsimp only
                 | with_reducible refine fields_keeps hP ?_ ?_)

theorem execThermalReading_keeps {P : State → Prop} (hP : ClosedRegs P) (readings : List (Sensor × BitVec 16)) (s : State) (hs_ : P s) :
    After P (execThermalReading readings s) := by
  simp only [execThermalReading, After_next]
  repeat' (first | (intro _) | with_reducible assumption | with_reducible apply ite_keeps (Q := P)
                 | with_reducible apply State.takeReading_keeps hP
                 | with_reducible refine foldl_keeps (Q := P) _ _ _ ?_ ?_ | split | rfl | dsimp only
                 | with_reducible refine fields_keeps hP ?_ ?_)

theorem State.limit_keeps {P : State → Prop} (hP : ClosedRegs P) (s : State) (watts : Nat) (hs_ : P s) :
    P (State.limit s watts) := by
  unfold State.limit
  repeat' (first | (intro _) | with_reducible assumption | with_reducible apply ite_keeps (Q := P)
                 | with_reducible apply State.bump_keeps hP | with_reducible apply State.raise_keeps hP
                 | with_reducible apply State.modPower_keeps hP
                 | with_reducible refine foldl_keeps (Q := P) _ _ _ ?_ ?_ | split | rfl | dsimp only
                 | with_reducible refine fields_keeps hP ?_ ?_)

theorem State.throttleEnd_keeps {P : State → Prop} (hP : ClosedRegs P) (s : State) (hs_ : P s) :
    P (State.throttleEnd s) := by
  unfold State.throttleEnd
  repeat' (first | (intro _) | with_reducible assumption | with_reducible apply ite_keeps (Q := P)
                 | with_reducible apply State.modPower_keeps hP
                 | with_reducible refine foldl_keeps (Q := P) _ _ _ ?_ ?_ | split | rfl | dsimp only
                 | with_reducible refine fields_keeps hP ?_ ?_)

theorem execControlInterval_keeps {P : State → Prop} (hP : ClosedRegs P) (watts : BitVec 16) (volts : BitVec 16) (s : State) (hs_ : P s) :
    After P (execControlInterval watts volts s) := by
  simp only [execControlInterval, After_next]
  repeat' (first | (intro _) | with_reducible assumption | with_reducible apply ite_keeps (Q := P)
                 | with_reducible apply State.throttleEnd_keeps hP | with_reducible apply State.limit_keeps hP
                 | with_reducible apply State.applyPower_keeps hP | with_reducible apply State.wrAll_keeps hP
                 | with_reducible refine foldl_keeps (Q := P) _ _ _ ?_ ?_ | split | rfl | dsimp only
                 | with_reducible refine fields_keeps hP ?_ ?_)

theorem State.countTrip_keeps {P : State → Prop} (hP : ClosedRegs P) (s : State) (c : TripCause) (hs_ : P s) :
    P (State.countTrip s c) := by
  unfold State.countTrip
  repeat' (first | (intro _) | with_reducible assumption | with_reducible apply ite_keeps (Q := P)
                 | with_reducible apply State.bump_keeps hP | with_reducible refine foldl_keeps (Q := P) _ _ _ ?_ ?_
                 | split | rfl | dsimp only | with_reducible refine fields_keeps hP ?_ ?_)

theorem State.recordTrip_keeps {P : State → Prop} (hP : ClosedRegs P) (s : State) (c : TripCause) (hs_ : P s) :
    P (State.recordTrip s c) := by
  unfold State.recordTrip
  repeat' (first | (intro _) | with_reducible assumption | with_reducible apply ite_keeps (Q := P)
                 | with_reducible apply State.raise_keeps hP | with_reducible apply State.wrAll_keeps hP
                 | with_reducible refine foldl_keeps (Q := P) _ _ _ ?_ ?_ | split | rfl | dsimp only
                 | with_reducible refine fields_keeps hP ?_ ?_)

theorem State.wingOff_keeps {P : State → Prop} (hP : ClosedRegs P) (s : State) (p w : Nat) (hs_ : P s) :
    P (State.wingOff s p w) := by
  unfold State.wingOff
  repeat' (first | (intro _) | with_reducible assumption | with_reducible apply ite_keeps (Q := P)
                 | with_reducible apply State.setDomain_keeps hP | with_reducible apply State.endCal_keeps hP
                 | with_reducible apply State.clearWing_keeps hP | with_reducible apply State.modScale_keeps hP
                 | with_reducible apply State.wrAll_keeps hP | with_reducible refine foldl_keeps (Q := P) _ _ _ ?_ ?_
                 | split | rfl | dsimp only | with_reducible refine fields_keeps hP ?_ ?_)

theorem State.stackOff_keeps {P : State → Prop} (hP : ClosedRegs P) (s : State) (p : Nat) (hs_ : P s) :
    P (State.stackOff s p) := by
  unfold State.stackOff
  repeat' (first | (intro _) | with_reducible assumption | with_reducible apply ite_keeps (Q := P)
                 | with_reducible apply State.wingOff_keeps hP | with_reducible apply State.each_keeps hP
                 | with_reducible refine foldl_keeps (Q := P) _ _ _ ?_ ?_ | split | rfl | dsimp only
                 | with_reducible refine fields_keeps hP ?_ ?_)

theorem State.holdPart_keeps {P : State → Prop} (hP : ClosedRegs P) (s : State) (c : TripCause) (p : Nat) (hs_ : P s) :
    P (State.holdPart s c p) := by
  unfold State.holdPart
  repeat' (first | (intro _) | with_reducible assumption | with_reducible apply ite_keeps (Q := P)
                 | with_reducible apply State.stackOff_keeps hP | with_reducible apply State.beginPartReset_keeps hP
                 | with_reducible apply State.modPart_keeps hP | with_reducible apply State.wr_keeps hP
                 | with_reducible refine foldl_keeps (Q := P) _ _ _ ?_ ?_ | split | rfl | dsimp only
                 | with_reducible refine fields_keeps hP ?_ ?_)

theorem State.moduleTrip_keeps {P : State → Prop} (hP : Closed P) (s : State) (c : TripCause) (hs_ : P s) :
    P (State.moduleTrip s c) := by
  unfold State.moduleTrip
  repeat' (first | (intro _) | with_reducible assumption | with_reducible apply ite_keeps (Q := P)
                 | with_reducible apply State.recordTrip_keeps hP.toClosedRegs
                 | with_reducible apply State.watchdog_keeps hP | with_reducible apply State.moduleDown_keeps hP
                 | with_reducible apply State.modPower_keeps hP.toClosedRegs
                 | with_reducible apply State.wr_keeps hP.toClosedRegs
                 | with_reducible refine foldl_keeps (Q := P) _ _ _ ?_ ?_ | split | rfl | dsimp only
                 | with_reducible refine fields_keeps hP.toClosedRegs ?_ ?_)

theorem execTrip_keeps {P : State → Prop} (hP : Closed P) (c : TripCause) (s : State) (hs_ : P s) (hr : P { s with held := putRanked (.trip c) s.held }) :
    After P (execTrip c s) := by
  simp only [execTrip, After_next]
  repeat' (first | (intro _) | with_reducible assumption | with_reducible apply ite_keeps (Q := P)
                 | with_reducible apply State.moduleTrip_keeps hP
                 | with_reducible apply State.holdPart_keeps hP.toClosedRegs
                 | with_reducible apply State.recordTrip_keeps hP.toClosedRegs
                 | with_reducible apply State.countTrip_keeps hP.toClosedRegs
                 | with_reducible apply State.ranked_keeps hr | with_reducible apply State.each_keeps hP.toClosedRegs
                 | with_reducible refine foldl_keeps (Q := P) _ _ _ ?_ ?_ | split | rfl | dsimp only
                 | with_reducible refine fields_keeps hP.toClosedRegs ?_ ?_)

theorem State.reapplyLatches_keeps {P : State → Prop} (hP : ClosedRegs P) (s : State) (p w b sc : Nat) (hs_ : P s) :
    P (State.reapplyLatches s p w b sc) := by
  unfold State.reapplyLatches
  repeat' (first | (intro _) | with_reducible assumption | with_reducible apply ite_keeps (Q := P)
                 | with_reducible apply State.setScale_keeps hP
                 | with_reducible refine foldl_keeps (Q := P) _ _ _ ?_ ?_ | split | rfl | dsimp only
                 | with_reducible refine fields_keeps hP ?_ ?_)

theorem State.wingOn_keeps {P : State → Prop} (hP : ClosedRegs P) (s : State) (p w : Nat) (hs_ : P s) :
    P (State.wingOn s p w) := by
  unfold State.wingOn
  repeat' (first | (intro _) | with_reducible assumption | with_reducible apply ite_keeps (Q := P)
                 | with_reducible apply State.reapplyLatches_keeps hP | with_reducible apply State.powerWing_keeps hP
                 | with_reducible refine foldl_keeps (Q := P) _ _ _ ?_ ?_ | split | rfl | dsimp only
                 | with_reducible refine fields_keeps hP ?_ ?_)

theorem State.stackOn_keeps {P : State → Prop} (hP : ClosedRegs P) (s : State) (p : Nat) (hs_ : P s) :
    P (State.stackOn s p) := by
  unfold State.stackOn
  repeat' (first | (intro _) | with_reducible assumption | with_reducible apply ite_keeps (Q := P)
                 | with_reducible apply State.wingOn_keeps hP | with_reducible apply State.each_keeps hP
                 | with_reducible refine foldl_keeps (Q := P) _ _ _ ?_ ?_ | split | rfl | dsimp only
                 | with_reducible refine fields_keeps hP ?_ ?_)

theorem execPartitionTripRestart_keeps {P : State → Prop} (hP : ClosedRegs P) (p : PartId) (s : State) (hs_ : P s) :
    After P (execPartitionTripRestart p s) := by
  simp only [execPartitionTripRestart, After_next]
  repeat' (first | (intro _) | with_reducible assumption | with_reducible apply ite_keeps (Q := P)
                 | with_reducible apply State.stackOn_keeps hP | with_reducible apply State.startClock_keeps hP
                 | with_reducible apply State.modPart_keeps hP
                 | with_reducible refine foldl_keeps (Q := P) _ _ _ ?_ ?_ | split | rfl | dsimp only
                 | with_reducible refine fields_keeps hP ?_ ?_)

theorem execModuleTripRestart_keeps {P : State → Prop} (hP : ClosedRegs P) (s : State) (hs_ : P s) :
    After P (execModuleTripRestart s) := by
  simp only [execModuleTripRestart, After_next]
  repeat' (first | (intro _) | with_reducible assumption | with_reducible apply ite_keeps (Q := P)
                 | with_reducible apply State.restartModule_keeps hP
                 | with_reducible refine foldl_keeps (Q := P) _ _ _ ?_ ?_ | split | rfl | dsimp only
                 | with_reducible refine fields_keeps hP ?_ ?_)

theorem State.domainFault_keeps {P : State → Prop} (hP : Closed P) (s : State) (n : Nat) (hs_ : P s) :
    P (State.domainFault s n) := by
  unfold State.domainFault
  repeat' (first | (intro _) | with_reducible assumption | with_reducible apply ite_keeps (Q := P)
                 | with_reducible apply State.wingFault_keeps hP.toClosedRegs
                 | with_reducible apply State.setBit_keeps hP.toClosedRegs
                 | with_reducible apply State.portDown_keeps hP
                 | with_reducible apply State.failPart_keeps hP.toClosedRegs
                 | with_reducible refine foldl_keeps (Q := P) _ _ _ ?_ ?_ | split | rfl | dsimp only
                 | with_reducible refine fields_keeps hP.toClosedRegs ?_ ?_)

theorem execDomainPowerFault_keeps {P : State → Prop} (hP : Closed P) (n : Fin 96) (s : State) (hs_ : P s) :
    After P (execDomainPowerFault n s) := by
  simp only [execDomainPowerFault, After_next]
  repeat' (first | (intro _) | with_reducible assumption | with_reducible apply ite_keeps (Q := P)
                 | with_reducible apply State.domainFault_keeps hP
                 | with_reducible apply State.setDomain_keeps hP.toClosedRegs
                 | with_reducible apply State.setBit_keeps hP.toClosedRegs
                 | with_reducible apply State.bump_keeps hP.toClosedRegs
                 | with_reducible apply State.raise_keeps hP.toClosedRegs
                 | with_reducible refine foldl_keeps (Q := P) _ _ _ ?_ ?_ | split | rfl | dsimp only
                 | with_reducible refine fields_keeps hP.toClosedRegs ?_ ?_)

theorem State.pairDown_keeps {P : State → Prop} (hP : ClosedRegs P) (s : State) (x : Nat) (hs_ : P s) :
    P (State.pairDown s x) := by
  unfold State.pairDown
  repeat' (first | (intro _) | with_reducible assumption | with_reducible apply ite_keeps (Q := P)
                 | with_reducible apply State.setDomain_keeps hP | with_reducible apply State.setBit_keeps hP
                 | with_reducible apply State.setPort_keeps hP | with_reducible apply State.each_keeps hP
                 | with_reducible apply State.dropRegs_keeps hP | with_reducible apply State.wrAll_keeps hP
                 | with_reducible refine foldl_keeps (Q := P) _ _ _ ?_ ?_ | split | rfl | dsimp only
                 | with_reducible refine fields_keeps hP ?_ ?_)

theorem State.writePair_keeps {P : State → Prop} (hP : ClosedRegs P) (s : State) (x : Nat) (off : Bool) (hs_ : P s) :
    P (State.writePair s x off) := by
  unfold State.writePair
  repeat' (first | (intro _) | with_reducible assumption | with_reducible apply ite_keeps (Q := P)
                 | with_reducible apply State.pairDown_keeps hP | with_reducible apply State.setDomain_keeps hP
                 | with_reducible apply State.setBit_keeps hP | with_reducible refine foldl_keeps (Q := P) _ _ _ ?_ ?_
                 | split | rfl | dsimp only | with_reducible refine fields_keeps hP ?_ ?_)

theorem State.writePairs_keeps {P : State → Prop} (hP : ClosedRegs P) (s : State) (pairs : Nat) (hs_ : P s) :
    P (State.writePairs s pairs) := by
  unfold State.writePairs
  repeat' (first | (intro _) | with_reducible assumption | with_reducible apply ite_keeps (Q := P)
                 | with_reducible apply State.writePair_keeps hP | with_reducible apply State.each_keeps hP
                 | with_reducible refine foldl_keeps (Q := P) _ _ _ ?_ ?_ | split | rfl | dsimp only
                 | with_reducible refine fields_keeps hP ?_ ?_)

theorem execFabricPairOff_keeps {P : State → Prop} (hP : ClosedRegs P) (pairs : BitVec 4) (s : State) (hs_ : P s) :
    After P (execFabricPairOff pairs s) := by
  simp only [execFabricPairOff, After_next]
  repeat' (first | (intro _) | with_reducible assumption | with_reducible apply ite_keeps (Q := P)
                 | with_reducible apply State.writePairs_keeps hP
                 | with_reducible refine foldl_keeps (Q := P) _ _ _ ?_ ?_ | split | rfl | dsimp only
                 | with_reducible refine fields_keeps hP ?_ ?_)

theorem State.unstop_keeps {P : State → Prop} (hP : ClosedRegs P) (s : State) (x : Pll) (hs_ : P s) :
    P (State.unstop s x) := by
  unfold State.unstop
  repeat' (first | (intro _) | with_reducible assumption | with_reducible apply ite_keeps (Q := P)
                 | with_reducible apply State.startTraining_keeps hP
                 | with_reducible refine foldl_keeps (Q := P) _ _ _ ?_ ?_ | split | rfl | dsimp only
                 | with_reducible refine fields_keeps hP ?_ ?_)

theorem execPllStable_keeps {P : State → Prop} (hP : ClosedRegs P) (x : Pll) (s : State) (hs_ : P s) :
    After P (execPllStable x s) := by
  simp only [execPllStable, After_next]
  repeat' (first | (intro _) | with_reducible assumption | with_reducible apply ite_keeps (Q := P)
                 | with_reducible apply State.unstop_keeps hP | with_reducible apply State.startClock_keeps hP
                 | with_reducible apply State.startConverters_keeps hP | with_reducible apply State.setBit_keeps hP
                 | with_reducible refine foldl_keeps (Q := P) _ _ _ ?_ ?_ | split | rfl | dsimp only
                 | with_reducible refine fields_keeps hP ?_ ?_)

theorem State.stopBlock_keeps {P : State → Prop} (hP : Closed P) (s : State) (b : Block) (hs_ : P s) :
    P (State.stopBlock s b) := by
  unfold State.stopBlock
  repeat' (first | (intro _) | with_reducible assumption | with_reducible apply ite_keeps (Q := P)
                 | with_reducible apply State.engineReset_keeps hP
                 | with_reducible refine foldl_keeps (Q := P) _ _ _ ?_ ?_ | split | rfl | dsimp only
                 | with_reducible refine fields_keeps hP.toClosedRegs ?_ ?_)

theorem execPllUnlock_keeps {P : State → Prop} (hP : Closed P) (x : Pll) (s : State) (hs_ : P s) :
    After P (execPllUnlock x s) := by
  simp only [execPllUnlock, After_next]
  repeat' (first | (intro _) | with_reducible assumption | with_reducible apply ite_keeps (Q := P)
                 | with_reducible apply State.stopBlock_keeps hP
                 | with_reducible apply State.stopConverters_keeps hP.toClosedRegs
                 | with_reducible apply State.setBit_keeps hP.toClosedRegs
                 | with_reducible apply State.bump_keeps hP.toClosedRegs
                 | with_reducible apply State.raise_keeps hP.toClosedRegs
                 | with_reducible apply State.wr_keeps hP.toClosedRegs
                 | with_reducible refine foldl_keeps (Q := P) _ _ _ ?_ ?_ | split | rfl | dsimp only
                 | with_reducible refine fields_keeps hP.toClosedRegs ?_ ?_)

theorem execReferenceSourceChange_keeps {P : State → Prop} (hP : ClosedRegs P) (src : RefSource) (lost : Bool) (refclkValid : Bool) (s : State) (hs_ : P s) :
    After P (execReferenceSourceChange src lost refclkValid s) := by
  simp only [execReferenceSourceChange, After_next]
  repeat' (first | (intro _) | with_reducible assumption | with_reducible apply ite_keeps (Q := P)
                 | with_reducible apply State.bump_keeps hP | with_reducible apply State.raise_keeps hP
                 | with_reducible apply State.wrAll_keeps hP | with_reducible apply State.wr_keeps hP
                 | with_reducible refine foldl_keeps (Q := P) _ _ _ ?_ ?_ | split | rfl | dsimp only
                 | with_reducible refine fields_keeps hP ?_ ?_)

theorem execSscApply_keeps {P : State → Prop} (hP : ClosedRegs P) (s : State) (hs_ : P s) :
    After P (execSscApply s) := by
  simp only [execSscApply, After_next]
  repeat' (first | (intro _) | with_reducible assumption | with_reducible apply ite_keeps (Q := P)
                 | with_reducible apply State.modPower_keeps hP
                 | with_reducible refine foldl_keeps (Q := P) _ _ _ ?_ ?_ | split | rfl | dsimp only
                 | with_reducible refine fields_keeps hP ?_ ?_)

end Sys2Proof.Machine
end

