-- ==== Sys2Proof/Laws/KeepsRecovery.lean ====
section
/-! SUPPORT. Each operation of Machine/Recovery keeps every property that the primitive changes keep (Laws/Keeps). -/
namespace Sys2Proof.Machine

theorem State.sampleProgress_keeps {P : State → Prop} (hP : ClosedRegs P) (s : State) (hs_ : P s) :
    P (State.sampleProgress s) := by
  unfold State.sampleProgress
  repeat' (first | (intro _) | with_reducible assumption | with_reducible apply ite_keeps (Q := P)
                 | with_reducible refine foldl_keeps (Q := P) _ _ _ ?_ ?_ | split | rfl | dsimp only
                 | with_reducible refine fields_keeps hP ?_ ?_)

theorem State.recordHang_keeps {P : State → Prop} (hP : ClosedRegs P) (s : State) (b : Block) (hs_ : P s) :
    P (State.recordHang s b) := by
  unfold State.recordHang
  repeat' (first | (intro _) | with_reducible assumption | with_reducible apply ite_keeps (Q := P)
                 | with_reducible apply State.bump_keeps hP | with_reducible apply State.raise_keeps hP
                 | with_reducible apply State.wr_keeps hP | with_reducible refine foldl_keeps (Q := P) _ _ _ ?_ ?_
                 | split | rfl | dsimp only | with_reducible refine fields_keeps hP ?_ ?_)

theorem execHangTimeout_keeps {P : State → Prop} (hP : Closed P) (b : Block) (s : State) (hs_ : P s) (hr : P { s with held := putRanked (.hangTimeout b) s.held }) :
    After P (execHangTimeout b s) := by
  simp only [execHangTimeout, After_next]
  repeat' (first | (intro _) | with_reducible assumption | with_reducible apply ite_keeps (Q := P)
                 | with_reducible apply State.recordHang_keeps hP.toClosedRegs
                 | with_reducible apply State.engineReset_keeps hP | with_reducible apply State.ranked_keeps hr
                 | with_reducible refine foldl_keeps (Q := P) _ _ _ ?_ ?_ | split | rfl | dsimp only
                 | with_reducible refine fields_keeps hP.toClosedRegs ?_ ?_)

theorem State.endEngineReset_keeps {P : State → Prop} (hP : ClosedRegs P) (s : State) (b : Block) (hs_ : P s) :
    P (State.endEngineReset s b) := by
  unfold State.endEngineReset
  repeat' (first | (intro _) | with_reducible assumption | with_reducible apply ite_keeps (Q := P)
                 | with_reducible refine foldl_keeps (Q := P) _ _ _ ?_ ?_ | split | rfl | dsimp only
                 | with_reducible refine fields_keeps hP ?_ ?_)

theorem execEngineResetComplete_keeps {P : State → Prop} (hP : ClosedRegs P) (b : Block) (s : State) (hs_ : P s) :
    After P (execEngineResetComplete b s) := by
  simp only [execEngineResetComplete, After_next]
  repeat' (first | (intro _) | with_reducible assumption | with_reducible apply ite_keeps (Q := P)
                 | with_reducible apply State.endEngineReset_keeps hP
                 | with_reducible apply State.startTraining_keeps hP
                 | with_reducible refine foldl_keeps (Q := P) _ _ _ ?_ ?_ | split | rfl | dsimp only
                 | with_reducible refine fields_keeps hP ?_ ?_)

theorem State.escalateReset_keeps {P : State → Prop} (hP : Closed P) (s : State) (b : Block) (hs_ : P s) :
    P (State.escalateReset s b) := by
  unfold State.escalateReset
  repeat' (first | (intro _) | with_reducible assumption | with_reducible apply ite_keeps (Q := P)
                 | with_reducible apply State.moduleReset_keeps hP
                 | with_reducible apply State.beginPartReset_keeps hP.toClosedRegs
                 | with_reducible apply State.bump_keeps hP.toClosedRegs
                 | with_reducible apply State.raise_keeps hP.toClosedRegs
                 | with_reducible refine foldl_keeps (Q := P) _ _ _ ?_ ?_ | split | rfl | dsimp only
                 | with_reducible refine fields_keeps hP.toClosedRegs ?_ ?_)

theorem execEngineResetTimeout_keeps {P : State → Prop} (hP : Closed P) (b : Block) (s : State) (hs_ : P s) :
    After P (execEngineResetTimeout b s) := by
  simp only [execEngineResetTimeout, After_next]
  repeat' (first | (intro _) | with_reducible assumption | with_reducible apply ite_keeps (Q := P)
                 | with_reducible apply State.escalateReset_keeps hP
                 | with_reducible apply State.endEngineReset_keeps hP.toClosedRegs
                 | with_reducible refine foldl_keeps (Q := P) _ _ _ ?_ ?_ | split | rfl | dsimp only
                 | with_reducible refine fields_keeps hP.toClosedRegs ?_ ?_)

theorem State.requestPartReset_keeps {P : State → Prop} (hP : ClosedRegs P) (s : State) (p : Nat) (hs_ : P s) :
    P (State.requestPartReset s p) := by
  unfold State.requestPartReset
  repeat' (first | (intro _) | with_reducible assumption | with_reducible apply ite_keeps (Q := P)
                 | with_reducible apply State.beginPartReset_keeps hP
                 | with_reducible refine foldl_keeps (Q := P) _ _ _ ?_ ?_ | split | rfl | dsimp only
                 | with_reducible refine fields_keeps hP ?_ ?_)

theorem execPartitionResetRequest_keeps {P : State → Prop} (hP : ClosedRegs P) (p : PartId) (s : State) (hs_ : P s) :
    After P (execPartitionResetRequest p s) := by
  simp only [execPartitionResetRequest, After_next]
  repeat' (first | (intro _) | with_reducible assumption | with_reducible apply ite_keeps (Q := P)
                 | with_reducible apply State.requestPartReset_keeps hP
                 | with_reducible refine foldl_keeps (Q := P) _ _ _ ?_ ?_ | split | rfl | dsimp only
                 | with_reducible refine fields_keeps hP ?_ ?_)

theorem execPartitionResetDone_keeps {P : State → Prop} (hP : ClosedRegs P) (p : PartId) (s : State) (hs_ : P s) :
    After P (execPartitionResetDone p s) := by
  simp only [execPartitionResetDone, After_next]
  repeat' (first | (intro _) | with_reducible assumption | with_reducible apply ite_keeps (Q := P)
                 | with_reducible apply State.raise_keeps hP | with_reducible apply State.wr_keeps hP
                 | with_reducible refine foldl_keeps (Q := P) _ _ _ ?_ ?_ | split | rfl | dsimp only
                 | with_reducible refine fields_keeps hP ?_ ?_)

theorem execPartitionResetTimeout_keeps {P : State → Prop} (hP : Closed P) (p : PartId) (s : State) (hs_ : P s) :
    After P (execPartitionResetTimeout p s) := by
  simp only [execPartitionResetTimeout, After_next]
  repeat' (first | (intro _) | with_reducible assumption | with_reducible apply ite_keeps (Q := P)
                 | with_reducible apply State.moduleReset_keeps hP
                 | with_reducible refine foldl_keeps (Q := P) _ _ _ ?_ ?_ | split | rfl | dsimp only
                 | with_reducible refine fields_keeps hP.toClosedRegs ?_ ?_)

theorem execHbmChannelFailure_keeps {P : State → Prop} (hP : ClosedRegs P) (p : PartId) (ch : ChannelId) (s : State) (hs_ : P s) :
    After P (execHbmChannelFailure p ch s) := by
  simp only [execHbmChannelFailure, After_next]
  repeat' (first | (intro _) | with_reducible assumption | with_reducible apply ite_keeps (Q := P)
                 | with_reducible apply State.failPart_keeps hP | with_reducible apply State.wr_keeps hP
                 | with_reducible refine foldl_keeps (Q := P) _ _ _ ?_ ?_ | split | rfl | dsimp only
                 | with_reducible refine fields_keeps hP ?_ ?_)

theorem State.manage_keeps {P : State → Prop} (hP : ClosedRegs P) (s : State) (p : Nat) (x_ : MgmtAction) (hs_ : P s) :
    P (State.manage s p x_) := by
  cases x_ <;> unfold State.manage <;>
  repeat' (first | (intro _) | with_reducible assumption | with_reducible apply ite_keeps (Q := P)
                 | with_reducible apply State.wingOn_keeps hP | with_reducible apply State.wingOff_keeps hP
                 | with_reducible apply State.modScale_keeps hP | with_reducible apply State.wr_keeps hP
                 | with_reducible refine foldl_keeps (Q := P) _ _ _ ?_ ?_ | split | rfl | dsimp only
                 | with_reducible refine fields_keeps hP ?_ ?_)

theorem State.applyNext_keeps {P : State → Prop} (hP : ClosedRegs P) (s : State) (p : Nat) (ended : Option Nat) (hs_ : P s) :
    P (State.applyNext s p ended) := by
  unfold State.applyNext
  repeat' (first | (intro _) | with_reducible assumption | with_reducible apply ite_keeps (Q := P)
                 | with_reducible apply State.manage_keeps hP | with_reducible apply State.progress_keeps hP
                 | with_reducible apply State.modPart_keeps hP
                 | with_reducible refine foldl_keeps (Q := P) _ _ _ ?_ ?_ | split | rfl | dsimp only
                 | with_reducible refine fields_keeps hP ?_ ?_)

theorem State.applyActions_keeps {P : State → Prop} (hP : ClosedRegs P) (s : State) (p : Nat) (ended : Option Nat) (hs_ : P s) :
    P (State.applyActions s p ended) := by
  unfold State.applyActions
  repeat' (first | (intro _) | with_reducible assumption | with_reducible apply ite_keeps (Q := P)
                 | with_reducible apply State.applyNext_keeps hP | with_reducible apply State.each_keeps hP
                 | with_reducible refine foldl_keeps (Q := P) _ _ _ ?_ ?_ | split | rfl | dsimp only
                 | with_reducible refine fields_keeps hP ?_ ?_)

theorem execManagementAction_keeps {P : State → Prop} (hP : ClosedRegs P) (p : PartId) (a : MgmtAction) (s : State) (hs_ : P s) :
    After P (execManagementAction p a s) := by
  simp only [execManagementAction, After_next]
  repeat' (first | (intro _) | with_reducible assumption | with_reducible apply ite_keeps (Q := P)
                 | with_reducible apply State.applyActions_keeps hP | with_reducible apply State.modPart_keeps hP
                 | with_reducible refine foldl_keeps (Q := P) _ _ _ ?_ ?_ | split | rfl | dsimp only
                 | with_reducible refine fields_keeps hP ?_ ?_)

theorem execScaleOperationEnd_keeps {P : State → Prop} (hP : ClosedRegs P) (p : PartId) (w : Fin 8) (id : Nat) (s : State) (hs_ : P s) (hr : P { s with held := putRanked (.scaleOperationEnd p w id) s.held }) :
    After P (execScaleOperationEnd p w id s) := by
  simp only [execScaleOperationEnd, After_next]
  repeat' (first | (intro _) | with_reducible assumption | with_reducible apply ite_keeps (Q := P)
                 | with_reducible apply State.applyActions_keeps hP | with_reducible apply State.endOperation_keeps hP
                 | with_reducible apply State.ranked_keeps hr | with_reducible refine foldl_keeps (Q := P) _ _ _ ?_ ?_
                 | split | rfl | dsimp only | with_reducible refine fields_keeps hP ?_ ?_)

end Sys2Proof.Machine
end

