-- ==== Sys2Proof/Laws/KeepsSafety.lean ====
section
/-! SUPPORT. Each operation of Machine/Safety keeps every property that the primitive changes keep (Laws/Keeps). -/
namespace Sys2Proof.Machine

theorem execPoisonConsumed_keeps {P : State → Prop} (hP : ClosedRegs P) (p : PartId) (point : PoisonPoint) (s : State) (hs_ : P s) (hr : P { s with held := putRanked (.poisonConsumed p point) s.held }) :
    After P (execPoisonConsumed p point s) := by
  simp only [execPoisonConsumed, After_next]
  repeat' (first | (intro _) | with_reducible assumption | with_reducible apply ite_keeps (Q := P)
                 | with_reducible apply State.terminate_keeps hP | with_reducible apply State.ranked_keeps hr
                 | with_reducible refine foldl_keeps (Q := P) _ _ _ ?_ ?_ | split | rfl | dsimp only
                 | with_reducible refine fields_keeps hP ?_ ?_)

theorem execMirrorRebuild_keeps {P : State → Prop} (hP : Closed P) (p : PartId) (granule : W64) (s : State) (hs_ : P s) :
    After P (execMirrorRebuild p granule s) := by
  simp only [execMirrorRebuild, After_next]
  repeat' (first | (intro _) | with_reducible assumption | with_reducible apply ite_keeps (Q := P)
                 | with_reducible apply State.guarded_keeps hP.toClosedRegs
                 | with_reducible apply State.bump_keeps hP.toClosedRegs
                 | with_reducible apply State.raise_keeps hP.toClosedRegs | with_reducible apply State.put_keeps hP
                 | with_reducible refine foldl_keeps (Q := P) _ _ _ ?_ ?_ | split | rfl | dsimp only
                 | with_reducible refine fields_keeps hP.toClosedRegs ?_ ?_)

theorem execScrub_keeps {P : State → Prop} (hP : Closed P) (p : PartId) (ch : ChannelId) (found : List (W64 × List Upset)) (s : State) (hs_ : P s) :
    After P (execScrub p ch found s) := by
  simp only [execScrub, After_next]
  repeat' (first | (intro _) | with_reducible assumption | with_reducible apply ite_keeps (Q := P)
                 | with_reducible apply State.readGranule_keeps hP
                 | with_reducible refine foldl_keeps (Q := P) _ _ _ ?_ ?_ | split | rfl | dsimp only
                 | with_reducible refine fields_keeps hP.toClosedRegs ?_ ?_)

theorem State.setSweepTick_keeps {P : State → Prop} (hP : ClosedRegs P) (s : State) (p : Nat) (x_ : SweepUnit) (hs_ : P s) :
    P (State.setSweepTick s p x_) := by
  cases x_ <;> unfold State.setSweepTick <;>
  repeat' (first | (intro _) | with_reducible assumption | with_reducible apply ite_keeps (Q := P)
                 | with_reducible apply State.modCluster_keeps hP | with_reducible apply State.modPart_keeps hP
                 | with_reducible refine foldl_keeps (Q := P) _ _ _ ?_ ?_ | split | rfl | dsimp only
                 | with_reducible refine fields_keeps hP ?_ ?_)

theorem State.retireSpare_keeps {P : State → Prop} (hP : ClosedRegs P) (s : State) (p c : Nat) (hs_ : P s) :
    P (State.retireSpare s p c) := by
  unfold State.retireSpare
  repeat' (first | (intro _) | with_reducible assumption | with_reducible apply ite_keeps (Q := P)
                 | with_reducible apply State.interruptPart_keeps hP | with_reducible apply State.bump_keeps hP
                 | with_reducible apply State.raise_keeps hP | with_reducible apply State.wrAll_keeps hP
                 | with_reducible apply State.wr_keeps hP | with_reducible refine foldl_keeps (Q := P) _ _ _ ?_ ?_
                 | split | rfl | dsimp only | with_reducible refine fields_keeps hP ?_ ?_)

theorem State.sweepFails_keeps {P : State → Prop} (hP : ClosedRegs P) (s : State) (p : Nat) (x_ : SweepUnit) (hs_ : P s) :
    P (State.sweepFails s p x_) := by
  cases x_ <;> unfold State.sweepFails <;>
  repeat' (first | (intro _) | with_reducible assumption | with_reducible apply ite_keeps (Q := P)
                 | with_reducible apply State.retireSpare_keeps hP | with_reducible apply State.beginRetire_keeps hP
                 | with_reducible apply State.failPart_keeps hP
                 | with_reducible refine foldl_keeps (Q := P) _ _ _ ?_ ?_ | split | rfl | dsimp only
                 | with_reducible refine fields_keeps hP ?_ ?_)

theorem execPatternSweep_keeps {P : State → Prop} (hP : ClosedRegs P) (p : PartId) (u : SweepUnit) (passed : Bool) (s : State) (hs_ : P s) :
    After P (execPatternSweep p u passed s) := by
  simp only [execPatternSweep, After_next]
  repeat' (first | (intro _) | with_reducible assumption | with_reducible apply ite_keeps (Q := P)
                 | with_reducible apply State.sweepFails_keeps hP | with_reducible apply State.setSweepTick_keeps hP
                 | with_reducible apply State.emitFor_keeps hP | with_reducible apply State.bump_keeps hP
                 | with_reducible apply State.raise_keeps hP | with_reducible apply State.wr_keeps hP
                 | with_reducible refine foldl_keeps (Q := P) _ _ _ ?_ ?_ | split | rfl | dsimp only
                 | with_reducible refine fields_keeps hP ?_ ?_)

theorem execErrcntClear_keeps {P : State → Prop} (hP : ClosedRegs P) (off : BitVec 28) (s : State) (hs_ : P s) :
    After P (execErrcntClear off s) := by
  simp only [execErrcntClear, After_next]
  repeat' (first | (intro _) | with_reducible assumption | with_reducible apply ite_keeps (Q := P)
                 | with_reducible apply State.clearCount_keeps hP
                 | with_reducible refine foldl_keeps (Q := P) _ _ _ ?_ ?_ | split | rfl | dsimp only
                 | with_reducible refine fields_keeps hP ?_ ?_)

theorem State.unstage_keeps {P : State → Prop} (hP : ClosedRegs P) (s : State) (p : Nat) (hs_ : P s) :
    P (State.unstage s p) := by
  unfold State.unstage
  repeat' (first | (intro _) | with_reducible assumption | with_reducible apply ite_keeps (Q := P)
                 | with_reducible apply State.verifyCheckpoint_keeps hP | with_reducible apply State.modPart_keeps hP
                 | with_reducible apply State.wrAll_keeps hP | with_reducible refine foldl_keeps (Q := P) _ _ _ ?_ ?_
                 | split | rfl | dsimp only | with_reducible refine fields_keeps hP ?_ ?_)

theorem State.sendRecord_keeps {P : State → Prop} (hP : Closed P) {s t : State} {p dst : Nat} {l : List Byte} (ht : s.sendRecord p dst l = some t)
    (h : P s) : P t := by
  have hr := fun coord addr => State.sendRemote_keeps hP s p cocoonCmd coord addr l [] h
  unfold State.sendRecord at ht
  repeat' (first | contradiction | (simp only [Option.some.injEq] at ht; subst ht; first | exact hr _ _ | exact State.setHostBytes_keeps hP s _ _ h)
                 | split at ht)

theorem execCocoonRecordWrite_keeps {P : State → Prop} (hP : Closed P) (p : PartId) (s : State) (hs_ : P s) :
    After P (execCocoonRecordWrite p s) := by
  simp only [execCocoonRecordWrite, After_next]
  repeat' (first | (intro _) | with_reducible assumption | with_reducible apply ite_keeps (Q := P)
                 | with_reducible refine State.sendRecord_keeps hP (by with_reducible assumption) ?_
                 | with_reducible apply State.unstage_keeps hP.toClosedRegs
                 | with_reducible refine State.takeNonce_keeps hP.toClosedRegs (by with_reducible assumption) ?_
                 | with_reducible apply State.bump_keeps hP.toClosedRegs
                 | with_reducible apply State.modPart_keeps hP.toClosedRegs
                 | with_reducible apply State.addReg_keeps hP.toClosedRegs
                 | with_reducible apply State.wr_keeps hP.toClosedRegs
                 | with_reducible refine foldl_keeps (Q := P) _ _ _ ?_ ?_ | split | rfl | dsimp only
                 | with_reducible refine fields_keeps hP.toClosedRegs ?_ ?_)

end Sys2Proof.Machine
end

