-- ==== Sys2Proof/Laws/KeepsCalibration.lean ====
section
/-! SUPPORT. Each operation of Machine/Calibration keeps every property that the primitive changes keep (Laws/Keeps). -/
namespace Sys2Proof.Machine

theorem State.commandCal_keeps {P : State → Prop} (hP : ClosedRegs P) (s : State) (p wings : Nat) (hs_ : P s) :
    P (State.commandCal s p wings) := by
  unfold State.commandCal
  repeat' (first | (intro _) | with_reducible assumption | with_reducible apply ite_keeps (Q := P)
                 | with_reducible apply State.trigger_keeps hP | with_reducible apply State.each_keeps hP
                 | with_reducible apply State.wrAll_keeps hP | with_reducible refine foldl_keeps (Q := P) _ _ _ ?_ ?_
                 | split | rfl | dsimp only | with_reducible refine fields_keeps hP ?_ ?_)

theorem execCalibrationCommand_keeps {P : State → Prop} (hP : ClosedRegs P) (p : PartId) (wings : BitVec 9) (s : State) (hs_ : P s) (hr : P { s with held := putRanked (.calibrationCommand p wings) s.held }) :
    After P (execCalibrationCommand p wings s) := by
  simp only [execCalibrationCommand, After_next]
  repeat' (first | (intro _) | with_reducible assumption | with_reducible apply ite_keeps (Q := P)
                 | with_reducible apply State.commandCal_keeps hP | with_reducible apply State.ranked_keeps hr
                 | with_reducible refine foldl_keeps (Q := P) _ _ _ ?_ ?_ | split | rfl | dsimp only
                 | with_reducible refine fields_keeps hP ?_ ?_)

theorem execDriftEvaluation_keeps {P : State → Prop} (hP : ClosedRegs P) (p : PartId) (w : WingId) (b : BankId) (sc : ScaleId) (s : State) (hs_ : P s) (hr : P { s with held := putRanked (.driftEvaluation p w b sc) s.held }) :
    After P (execDriftEvaluation p w b sc s) := by
  simp only [execDriftEvaluation, After_next]
  repeat' (first | (intro _) | with_reducible assumption | with_reducible apply ite_keeps (Q := P)
                 | with_reducible apply State.trigger_keeps hP | with_reducible apply State.ranked_keeps hr
                 | with_reducible apply State.modScale_keeps hP
                 | with_reducible refine foldl_keeps (Q := P) _ _ _ ?_ ?_ | split | rfl | dsimp only
                 | with_reducible refine fields_keeps hP ?_ ?_)

theorem State.modWingScales_keeps {P : State → Prop} (hP : ClosedRegs P) (s : State) (p w : Nat) (f : Scale → Scale) (hs_ : P s) :
    P (State.modWingScales s p w f) := by
  unfold State.modWingScales
  repeat' (first | (intro _) | with_reducible assumption | with_reducible apply ite_keeps (Q := P)
                 | with_reducible apply State.modScale_keeps hP
                 | with_reducible refine foldl_keeps (Q := P) _ _ _ ?_ ?_ | split | rfl | dsimp only
                 | with_reducible refine fields_keeps hP ?_ ?_)

theorem State.showCal_keeps {P : State → Prop} (hP : ClosedRegs P) (s : State) (p w : Nat) (hs_ : P s) :
    P (State.showCal s p w) := by
  unfold State.showCal
  repeat' (first | (intro _) | with_reducible assumption | with_reducible apply ite_keeps (Q := P)
                 | with_reducible apply State.setBit_keeps hP | with_reducible apply State.wr_keeps hP
                 | with_reducible refine foldl_keeps (Q := P) _ _ _ ?_ ?_ | split | rfl | dsimp only
                 | with_reducible refine fields_keeps hP ?_ ?_)

theorem execCalibrationStart_keeps {P : State → Prop} (hP : ClosedRegs P) (p : PartId) (w : WingId) (s : State) (hs_ : P s) :
    After P (execCalibrationStart p w s) := by
  simp only [execCalibrationStart, After_next]
  repeat' (first | (intro _) | with_reducible assumption | with_reducible apply ite_keeps (Q := P)
                 | with_reducible apply State.showCal_keeps hP | with_reducible apply State.modWingScales_keeps hP
                 | with_reducible apply State.modCal_keeps hP | with_reducible apply State.wrAll_keeps hP
                 | with_reducible refine foldl_keeps (Q := P) _ _ _ ?_ ?_ | split | rfl | dsimp only
                 | with_reducible refine fields_keeps hP ?_ ?_)

theorem State.beginPhase3_keeps {P : State → Prop} (hP : ClosedRegs P) (s : State) (p w b sc : Nat) (hs_ : P s) :
    P (State.beginPhase3 s p w b sc) := by
  unfold State.beginPhase3
  repeat' (first | (intro _) | with_reducible assumption | with_reducible apply ite_keeps (Q := P)
                 | with_reducible apply State.modScale_keeps hP | with_reducible apply State.wr_keeps hP
                 | with_reducible refine foldl_keeps (Q := P) _ _ _ ?_ ?_ | split | rfl | dsimp only
                 | with_reducible refine fields_keeps hP ?_ ?_)

theorem State.retryScale_keeps {P : State → Prop} (hP : ClosedRegs P) (s : State) (p w b sc key : Nat) (hs_ : P s) :
    P (State.retryScale s p w b sc key) := by
  unfold State.retryScale
  repeat' (first | (intro _) | with_reducible assumption | with_reducible apply ite_keeps (Q := P)
                 | with_reducible apply State.retireScale_keeps hP | with_reducible apply State.bump_keeps hP
                 | with_reducible apply State.raise_keeps hP | with_reducible apply State.modScale_keeps hP
                 | with_reducible refine foldl_keeps (Q := P) _ _ _ ?_ ?_ | split | rfl | dsimp only
                 | with_reducible refine fields_keeps hP ?_ ?_)

theorem State.measureReference_keeps {P : State → Prop} (hP : ClosedRegs P) (s : State) (p w : Nat) (r : MeasRuns) (hs_ : P s) :
    P (State.measureReference s p w r) := by
  unfold State.measureReference
  repeat' (first | (intro _) | with_reducible assumption | with_reducible apply ite_keeps (Q := P)
                 | with_reducible apply State.failWing_keeps hP | with_reducible apply State.bump_keeps hP
                 | with_reducible apply State.raise_keeps hP | with_reducible apply State.modCal_keeps hP
                 | with_reducible apply State.modWing_keeps hP | with_reducible apply State.wr_keeps hP
                 | with_reducible refine foldl_keeps (Q := P) _ _ _ ?_ ?_ | split | rfl | dsimp only
                 | with_reducible refine fields_keeps hP ?_ ?_)

theorem State.measureLadder_keeps {P : State → Prop} (hP : ClosedRegs P) (s : State) (p w b sc : Nat) (r : MeasRuns) (hs_ : P s) :
    P (State.measureLadder s p w b sc r) := by
  unfold State.measureLadder
  repeat' (first | (intro _) | with_reducible assumption | with_reducible apply ite_keeps (Q := P)
                 | with_reducible apply State.retryScale_keeps hP | with_reducible apply State.modScale_keeps hP
                 | with_reducible refine foldl_keeps (Q := P) _ _ _ ?_ ?_ | split | rfl | dsimp only
                 | with_reducible refine fields_keeps hP ?_ ?_)

theorem State.measurePulse_keeps {P : State → Prop} (hP : ClosedRegs P) (s : State) (p w b sc : Nat) (r : MeasRuns) (hs_ : P s) :
    P (State.measurePulse s p w b sc r) := by
  unfold State.measurePulse
  repeat' (first | (intro _) | with_reducible assumption | with_reducible apply ite_keeps (Q := P)
                 | with_reducible apply State.retryScale_keeps hP | with_reducible apply State.modScale_keeps hP
                 | with_reducible refine foldl_keeps (Q := P) _ _ _ ?_ ?_ | split | rfl | dsimp only
                 | with_reducible refine fields_keeps hP ?_ ?_)

theorem State.measureConverter_keeps {P : State → Prop} (hP : ClosedRegs P) (s : State) (p w b sc col : Nat) (r : MeasRuns) (hs_ : P s) :
    P (State.measureConverter s p w b sc col r) := by
  unfold State.measureConverter
  repeat' (first | (intro _) | with_reducible assumption | with_reducible apply ite_keeps (Q := P)
                 | with_reducible apply State.retryScale_keeps hP | with_reducible apply State.beginPhase3_keeps hP
                 | with_reducible apply State.columnFault_keeps hP | with_reducible apply State.bump_keeps hP
                 | with_reducible apply State.raise_keeps hP | with_reducible apply State.setScale_keeps hP
                 | with_reducible refine foldl_keeps (Q := P) _ _ _ ?_ ?_ | split | rfl | dsimp only
                 | with_reducible refine fields_keeps hP ?_ ?_)

theorem execMeasurementRunEnd_keeps {P : State → Prop} (hP : ClosedRegs P) (p : PartId) (w : WingId) (what : MeasTarget) (runs : MeasRuns) (s : State) (hs_ : P s) :
    After P (execMeasurementRunEnd p w what runs s) := by
  simp only [execMeasurementRunEnd, After_next]
  repeat' (first | (intro _) | with_reducible assumption | with_reducible apply ite_keeps (Q := P)
                 | with_reducible apply State.measureConverter_keeps hP
                 | with_reducible apply State.measurePulse_keeps hP
                 | with_reducible apply State.measureLadder_keeps hP
                 | with_reducible apply State.measureReference_keeps hP
                 | with_reducible refine foldl_keeps (Q := P) _ _ _ ?_ ?_ | split | rfl | dsimp only
                 | with_reducible refine fields_keeps hP ?_ ?_)

theorem State.showColumn_keeps {P : State → Prop} (hP : ClosedRegs P) (s : State) (p w : Nat) (hs_ : P s) :
    P (State.showColumn s p w) := by
  unfold State.showColumn
  repeat' (first | (intro _) | with_reducible assumption | with_reducible apply ite_keeps (Q := P)
                 | with_reducible apply State.wr_keeps hP | with_reducible refine foldl_keeps (Q := P) _ _ _ ?_ ?_
                 | split | rfl | dsimp only | with_reducible refine fields_keeps hP ?_ ?_)

theorem execColumnTakeover_keeps {P : State → Prop} (hP : ClosedRegs P) (p : PartId) (w : WingId) (b : BankId) (sc : ScaleId) (s : State) (hs_ : P s) :
    After P (execColumnTakeover p w b sc s) := by
  simp only [execColumnTakeover, After_next]
  repeat' (first | (intro _) | with_reducible assumption | with_reducible apply ite_keeps (Q := P)
                 | with_reducible apply State.showColumn_keeps hP | with_reducible apply State.beginPhase3_keeps hP
                 | with_reducible apply State.bump_keeps hP | with_reducible apply State.modScale_keeps hP
                 | with_reducible refine foldl_keeps (Q := P) _ _ _ ?_ ?_ | split | rfl | dsimp only
                 | with_reducible refine fields_keeps hP ?_ ?_)

theorem execTakeoverEnd_keeps {P : State → Prop} (hP : ClosedRegs P) (p : PartId) (w : WingId) (b : BankId) (sc : ScaleId) (s : State) (hs_ : P s) :
    After P (execTakeoverEnd p w b sc s) := by
  simp only [execTakeoverEnd, After_next]
  repeat' (first | (intro _) | with_reducible assumption | with_reducible apply ite_keeps (Q := P)
                 | with_reducible apply State.showColumn_keeps hP | with_reducible apply State.setScale_keeps hP
                 | with_reducible refine foldl_keeps (Q := P) _ _ _ ?_ ?_ | split | rfl | dsimp only
                 | with_reducible refine fields_keeps hP ?_ ?_)

theorem State.finishScale_keeps {P : State → Prop} (hP : ClosedRegs P) (s : State) (p w b sc : Nat) (hs_ : P s) :
    P (State.finishScale s p w b sc) := by
  unfold State.finishScale
  repeat' (first | (intro _) | with_reducible assumption | with_reducible apply ite_keeps (Q := P)
                 | with_reducible apply State.setScale_keeps hP | with_reducible apply State.wr_keeps hP
                 | with_reducible refine foldl_keeps (Q := P) _ _ _ ?_ ?_ | split | rfl | dsimp only
                 | with_reducible refine fields_keeps hP ?_ ?_)

theorem State.finishScales_keeps {P : State → Prop} (hP : ClosedRegs P) (s : State) (p w : Nat) (hs_ : P s) :
    P (State.finishScales s p w) := by
  unfold State.finishScales
  repeat' (first | (intro _) | with_reducible assumption | with_reducible apply ite_keeps (Q := P)
                 | with_reducible apply State.finishScale_keeps hP | with_reducible apply State.each_keeps hP
                 | with_reducible refine foldl_keeps (Q := P) _ _ _ ?_ ?_ | split | rfl | dsimp only
                 | with_reducible refine fields_keeps hP ?_ ?_)

theorem State.recheckHeld_keeps {P : State → Prop} (hP : ClosedRegs P) (s : State) (p w : Nat) (hs_ : P s) :
    P (State.recheckHeld s p w) := by
  unfold State.recheckHeld
  repeat' (first | (intro _) | with_reducible assumption | with_reducible apply ite_keeps (Q := P)
                 | with_reducible apply State.modCal_keeps hP | with_reducible refine foldl_keeps (Q := P) _ _ _ ?_ ?_
                 | split | rfl | dsimp only | with_reducible refine fields_keeps hP ?_ ?_)

theorem execCalibrationComplete_keeps {P : State → Prop} (hP : ClosedRegs P) (p : PartId) (w : WingId) (s : State) (hs_ : P s) :
    After P (execCalibrationComplete p w s) := by
  simp only [execCalibrationComplete, After_next]
  repeat' (first | (intro _) | with_reducible assumption | with_reducible apply ite_keeps (Q := P)
                 | with_reducible apply State.recheckHeld_keeps hP | with_reducible apply State.finishScales_keeps hP
                 | with_reducible apply State.showCal_keeps hP | with_reducible apply State.bump_keeps hP
                 | with_reducible apply State.raise_keeps hP | with_reducible apply State.modCal_keeps hP
                 | with_reducible apply State.wrAll_keeps hP | with_reducible apply State.wr_keeps hP
                 | with_reducible refine foldl_keeps (Q := P) _ _ _ ?_ ?_ | split | rfl | dsimp only
                 | with_reducible refine fields_keeps hP ?_ ?_)

theorem State.moveWing_keeps {P : State → Prop} (hP : ClosedRegs P) (s : State) (p w : Nat) (hs_ : P s) :
    P (State.moveWing s p w) := by
  unfold State.moveWing
  repeat' (first | (intro _) | with_reducible assumption | with_reducible apply ite_keeps (Q := P)
                 | with_reducible apply State.modWingScales_keeps hP | with_reducible apply State.modWing_keeps hP
                 | with_reducible refine foldl_keeps (Q := P) _ _ _ ?_ ?_ | split | rfl | dsimp only
                 | with_reducible refine fields_keeps hP ?_ ?_)

theorem execTrimApplication_keeps {P : State → Prop} (hP : ClosedRegs P) (p : PartId) (s : State) (hs_ : P s) :
    After P (execTrimApplication p s) := by
  simp only [execTrimApplication, After_next]
  repeat' (first | (intro _) | with_reducible assumption | with_reducible apply ite_keeps (Q := P)
                 | with_reducible apply State.moveWing_keeps hP | with_reducible apply State.modPart_keeps hP
                 | with_reducible apply State.each_keeps hP | with_reducible refine foldl_keeps (Q := P) _ _ _ ?_ ?_
                 | split | rfl | dsimp only | with_reducible refine fields_keeps hP ?_ ?_)

end Sys2Proof.Machine
end

