-- ==== Sys2Proof/Laws/KeepsRings.lean ====
section
/-! SUPPORT. Each operation of Machine/Rings keeps every property that the primitive changes keep (Laws/Keeps). -/
namespace Sys2Proof.Machine

theorem State.takeObject_keeps {P : State → Prop} (hP : Closed P) (s : State) (p : Nat) (e : List Byte) (buf table : Nat) (h : P s) :
    P (s.takeObject p e buf table).1 := by
  unfold State.takeObject
  refine ite_keeps (Q := fun r : State × Nat => P r.1) _ _ _ ?_ ?_
  · exact State.put_keeps hP _ _ _ (State.put_keeps hP s _ _ h)
  · exact State.put_keeps hP _ _ _ (ite_keeps _ _ _ (State.bump_keeps hP.toClosedRegs s _ _ h) h)

theorem State.takeObjects_keeps {P : State → Prop} (hP : Closed P) (p : Nat) (l : List (List Byte)) (a : (State × Nat) × Nat) (h : P a.1.1) :
    P (l.foldl (fun (e : (State × Nat) × Nat) o => (e.1.1.takeObject p o e.1.2 e.2, e.2 + 32)) a).1.1 := by
  induction l generalizing a with
  | nil => exact h
  | cons o l ih =>
    rw [List.foldl_cons]
    exact ih _ (State.takeObject_keeps hP a.1.1 p o a.1.2 a.2 h)

theorem State.runRingIn_keeps {P : State → Prop} (hP : Closed P) (s : State) (p id r most buf table : Nat) (h : P s) :
    P (s.runRingIn p id r most buf table) := by
  unfold State.runRingIn
  refine ite_keeps _ _ _ h (ite_keeps _ _ _ ?_ ?_)
  · split
    · exact State.seqFault_keeps hP.toClosedRegs _ _ _ _ (State.bump_keeps hP.toClosedRegs _ _ _ (State.abandon_keeps hP.toClosedRegs s _ _ _ h))
    · exact h
  · exact State.takeObjects_keeps hP p _ _ (State.setWork_keeps hP.toClosedRegs _ _ _ _ (State.setRing_keeps hP.toClosedRegs s _ _ _ h))

theorem State.sealEmbedding_keeps {P : State → Prop} (hP : Closed P) {s t : State} {p : Nat} {rec_ e : List Byte} {dst n : Nat}
    (ht : s.sealEmbedding p rec_ dst = some (t, e, n)) (h : P s) : P t := by
  unfold State.sealEmbedding at ht
  dsimp only at ht
  split at ht
  · simp only [Option.map_eq_some_iff, Prod.mk.injEq] at ht
    obtain ⟨⟨k, u⟩, hu, rfl, _⟩ := ht
    exact State.put_keeps hP _ _ _ (State.takeNonce_keeps hP.toClosedRegs hu h)
  · cases ht
    exact h

theorem State.sealBatch_keeps {P : State → Prop} (hP : Closed P) {s t : State} {p r at_ dst : Nat} {l : List (List Byte)}
    (ht : s.sealBatch p r at_ dst l = some t) (h : P s) : P t := by
  induction l generalizing s at_ dst with
  | nil =>
    cases ht
    exact h
  | cons x xs ih =>
    unfold State.sealBatch at ht
    split at ht
    · rename_i u e n hu
      exact ih ht (State.writeEntry_keeps hP _ _ _ _ _ _ (State.sealEmbedding_keeps hP hu h))
    · cases ht

theorem State.runRingOut_keeps {P : State → Prop} (hP : Closed P) (s : State) (p id r table count dst : Nat) (hs_ : P s) :
    P (State.runRingOut s p id r table count dst) := by
  unfold State.runRingOut
  repeat' (first | (intro _) | with_reducible assumption | with_reducible apply ite_keeps (Q := P)
                 | with_reducible refine State.sealBatch_keeps hP (by with_reducible assumption) ?_
                 | with_reducible apply State.countObjects_keeps hP.toClosedRegs
                 | with_reducible apply State.writeProd_keeps hP
                 | with_reducible apply State.setRing_keeps hP.toClosedRegs
                 | with_reducible apply State.abandon_keeps hP.toClosedRegs
                 | with_reducible apply State.setWork_keeps hP.toClosedRegs
                 | with_reducible apply State.seqFault_keeps hP.toClosedRegs
                 | with_reducible apply State.bump_keeps hP.toClosedRegs
                 | with_reducible refine foldl_keeps (Q := P) _ _ _ ?_ ?_ | split | rfl | dsimp only
                 | with_reducible refine fields_keeps hP.toClosedRegs ?_ ?_)

theorem execRingIn_keeps {P : State → Prop} (hP : Closed P) (p : PartId) (c : Cmd) (s : State) (hs_ : P s) :
    After P (execRingIn p c s) := by
  simp only [execRingIn, After_next]
  repeat' (first | (intro _) | with_reducible assumption | with_reducible apply ite_keeps (Q := P)
                 | with_reducible apply State.runRingIn_keeps hP
                 | with_reducible apply State.operandFault_keeps hP.toClosedRegs
                 | with_reducible apply State.issueNeeding_keeps hP.toClosedRegs
                 | with_reducible apply State.issueFault_keeps hP.toClosedRegs
                 | with_reducible apply State.tagStart_keeps hP.toClosedRegs
                 | with_reducible apply State.issue_keeps hP.toClosedRegs
                 | with_reducible refine foldl_keeps (Q := P) _ _ _ ?_ ?_ | split | rfl | dsimp only
                 | with_reducible refine fields_keeps hP.toClosedRegs ?_ ?_)

theorem execRingOut_keeps {P : State → Prop} (hP : Closed P) (p : PartId) (c : Cmd) (s : State) (hs_ : P s) :
    After P (execRingOut p c s) := by
  simp only [execRingOut, After_next]
  repeat' (first | (intro _) | with_reducible assumption | with_reducible apply ite_keeps (Q := P)
                 | with_reducible apply State.runRingOut_keeps hP
                 | with_reducible apply State.operandFault_keeps hP.toClosedRegs
                 | with_reducible apply State.issueNeeding_keeps hP.toClosedRegs
                 | with_reducible apply State.issueFault_keeps hP.toClosedRegs
                 | with_reducible apply State.tagStart_keeps hP.toClosedRegs
                 | with_reducible apply State.issue_keeps hP.toClosedRegs
                 | with_reducible refine foldl_keeps (Q := P) _ _ _ ?_ ?_ | split | rfl | dsimp only
                 | with_reducible refine fields_keeps hP.toClosedRegs ?_ ?_)

theorem State.restoreRecord_keeps {P : State → Prop} (hP : Closed P) (s : State) (p : Nat) (k : KeySlot) (a : Nat) (h : P s) : P (s.restoreRecord p k a).1 := by
  unfold State.restoreRecord
  dsimp only
  split
  · exact State.putHeader_keeps hP _ _ _ _ _ _ (foldl_keeps (Q := P) _ _ _ h (fun t _ ht => State.put_keeps hP t _ _ ht))
  · exact State.raise_keeps hP.toClosedRegs _ _ _ (State.bump_keeps hP.toClosedRegs _ _ _ (State.putHeader_keeps hP s _ _ _ _ _ h))

theorem State.restoreRecords_keeps {P : State → Prop} (hP : Closed P) (p : Nat) (k : KeySlot) (l : List Nat) (a : State × Bool) (h : P a.1) :
    P (l.foldl (fun (e : State × Bool) a => let x := e.1.restoreRecord p k a; (x.1, e.2 && x.2)) a).1 := by
  induction l generalizing a with
  | nil => exact h
  | cons o l ih =>
    rw [List.foldl_cons]
    refine ih _ ?_
    have h1 := State.restoreRecord_keeps hP a.1 p k o h
    generalize a.1.restoreRecord p k o = x at h1 ⊢
    exact h1

theorem execHitchRestore_keeps {P : State → Prop} (hP : Closed P) (p : PartId) (c : Cmd) (s : State) (hs_ : P s) : After P (execHitchRestore p c s) := by
  simp only [execHitchRestore, After_next]
  refine State.issueNeeding_keeps hP.toClosedRegs _ _ _ _ _ hs_ (fun l => ?_)
  split
  · rename_i a n k ha hk
    have hr : ∀ l' : List Nat, P (l'.foldl (fun (e : State × Bool) a => let x := e.1.restoreRecord p.val k a; (x.1, e.2 && x.2))
        ((s.issue p.val 0x08 c l .done).tagStart p.val (s.nextId p.val), true)).1 := fun l' =>
      State.restoreRecords_keeps hP p.val k l' _ (State.tagStart_keeps hP.toClosedRegs _ _ _ (State.issue_keeps hP.toClosedRegs s _ _ c l _ hs_))
    refine ite_keeps _ _ _ (State.operandFault_keeps hP.toClosedRegs s _ c l _ hs_) (ite_keeps _ _ _ hs_ ?_)
    split
    · exact ite_keeps _ _ _ (State.wr_keeps hP.toClosedRegs _ _ _ _ (hr _)) (hr _)
    · exact hr _
  · exact State.issueFault_keeps hP.toClosedRegs s _ l _ hs_

theorem State.endRingIn_keeps {P : State → Prop} (hP : Closed P) (s : State) (p r taken : Nat) (hs_ : P s) :
    P (State.endRingIn s p r taken) := by
  unfold State.endRingIn
  repeat' (first | (intro _) | with_reducible assumption | with_reducible apply ite_keeps (Q := P)
                 | with_reducible apply State.writeCons_keeps hP
                 | with_reducible apply State.setRing_keeps hP.toClosedRegs
                 | with_reducible refine foldl_keeps (Q := P) _ _ _ ?_ ?_ | split | rfl | dsimp only
                 | with_reducible refine fields_keeps hP.toClosedRegs ?_ ?_)

theorem State.completeRing_keeps {P : State → Prop} (hP : Closed P) (s : State) (p : Nat) (x : Inflight) (hs_ : P s) :
    P (State.completeRing s p x) := by
  unfold State.completeRing
  repeat' (first | (intro _) | with_reducible assumption | with_reducible apply ite_keeps (Q := P)
                 | with_reducible apply State.endRingIn_keeps hP | with_reducible apply State.runRingOut_keeps hP
                 | with_reducible apply State.runRingIn_keeps hP
                 | with_reducible apply State.complete_keeps hP.toClosedRegs
                 | with_reducible refine foldl_keeps (Q := P) _ _ _ ?_ ?_ | split | rfl | dsimp only
                 | with_reducible refine fields_keeps hP.toClosedRegs ?_ ?_)

theorem execCommandComplete_keeps {P : State → Prop} (hP : Closed P) (p : PartId) (id : Nat) (s : State) (hs_ : P s) :
    After P (execCommandComplete p id s) := by
  simp only [execCommandComplete, After_next]
  repeat' (first | (intro _) | with_reducible assumption | with_reducible apply ite_keeps (Q := P)
                 | with_reducible apply State.completeRing_keeps hP
                 | with_reducible apply State.finishResume_keeps hP.toClosedRegs
                 | with_reducible apply State.complete_keeps hP.toClosedRegs
                 | with_reducible refine foldl_keeps (Q := P) _ _ _ ?_ ?_ | split | rfl | dsimp only
                 | with_reducible refine fields_keeps hP.toClosedRegs ?_ ?_)

end Sys2Proof.Machine
end

