-- ==== Sys2Proof/Laws/KeepsSecurity.lean ====
section
/-! SUPPORT. Each operation of Machine/Security keeps every property that the primitive changes keep (Laws/Keeps). -/
namespace Sys2Proof.Machine

theorem State.readyKey_keeps {P : State → Prop} (hP : ClosedRegs P) {s t : State} (ht : s.readyKey = some t) (h : P s) : P t := by
  unfold State.readyKey at ht
  split at ht
  · exact State.mintKey_keeps hP ht h
  · cases ht
    exact h

theorem State.signReport_keeps {P : State → Prop} (hP : ClosedRegs P) {s t : State} {c l : List Byte} (ht : s.signReport c = some (l, t)) (h : P s) : P t := by
  simp only [State.signReport, Option.map_eq_some_iff, Prod.mk.injEq] at ht
  obtain ⟨u, hu, _, rfl⟩ := ht
  refine State.bump_keeps hP _ _ _ (State.modSecurity_keeps hP _ _ rfl (State.wr_keeps hP _ _ _ _ (State.readyKey_keeps hP hu h)))

theorem State.serveReport_keeps {P : State → Prop} (hP : Closed P) (s : State) (hs_ : P s) :
    P (State.serveReport s) := by
  unfold State.serveReport
  repeat' (first | (intro _) | with_reducible assumption | with_reducible apply ite_keeps (Q := P)
                 | with_reducible refine State.signReport_keeps hP.toClosedRegs (by with_reducible assumption) ?_
                 | with_reducible apply State.raise_keeps hP.toClosedRegs
                 | with_reducible apply State.setHostBytes_keeps hP
                 | with_reducible apply State.wrAll_keeps hP.toClosedRegs
                 | with_reducible apply State.wr_keeps hP.toClosedRegs
                 | with_reducible refine foldl_keeps (Q := P) _ _ _ ?_ ?_ | split | rfl | dsimp only
                 | with_reducible refine fields_keeps hP.toClosedRegs ?_ ?_)

theorem execReportRequest_keeps {P : State → Prop} (hP : Closed P) (s : State) (hs_ : P s) :
    After P (execReportRequest s) := by
  simp only [execReportRequest, After_next]
  repeat' (first | (intro _) | with_reducible assumption | with_reducible apply ite_keeps (Q := P)
                 | with_reducible apply State.serveReport_keeps hP
                 | with_reducible refine foldl_keeps (Q := P) _ _ _ ?_ ?_ | split | rfl | dsimp only
                 | with_reducible refine fields_keeps hP.toClosedRegs ?_ ?_)

theorem State.takeGrant_keeps {P : State → Prop} (hP : ClosedRegs P) {s t : State} {r : Release} (ht : s.takeGrant r = some t) (h : P s) : P t := by
  unfold State.takeGrant at ht
  split at ht
  · split at ht
    · cases ht
      exact h
    · cases ht
  · split at ht
    · cases ht
      exact State.wrAll_keeps hP _ _ _ (State.modSecurity_keeps hP s _ rfl h)
    · cases ht

theorem State.installKey_keeps {P : State → Prop} (hP : ClosedRegs P) {s t : State} {r : Release} {key : List Byte} (ht : s.installKey r key = some t) (h : P s) :
    P t := by
  unfold State.installKey at ht
  split at ht
  · cases ht
  · cases ht
    exact State.modSecurity_keeps hP s _ rfl h

theorem State.release_keeps {P : State → Prop} (hP : ClosedRegs P) (s : State) (l : List Byte) (h : P s) : P (s.release l).2 := by
  unfold State.release
  dsimp only
  split
  · exact h
  · split
    · exact h
    · rename_i t ht
      have h1 := State.takeGrant_keeps hP ht h
      split
      · exact h1
      · rename_i u hu
        exact State.wr_keeps hP _ _ _ _ (State.installKey_keeps hP hu h1)

theorem State.serveRelease_keeps {P : State → Prop} (hP : ClosedRegs P) (s : State) (h : P s) : P s.serveRelease := by
  have hr : P (if !bit s.features 3 then (1, s) else if !s.linkUp then (2, s)
      else s.release (s.hostBytes (s.rd .sec SEC_KR_ADDR_value) 1680) : Nat × State).2 := by
    split
    · exact h
    · split
      · exact h
      · exact State.release_keeps hP s _ h
  unfold State.serveRelease
  dsimp only
  refine State.raise_keeps hP _ _ _ (ite_keeps _ _ _ ?_ (State.bump_keeps hP _ _ _ ?_)) <;> exact State.wrAll_keeps hP _ _ _ hr

theorem execKeyRelease_keeps {P : State → Prop} (hP : ClosedRegs P) (s : State) (hs_ : P s) :
    After P (execKeyRelease s) := by
  simp only [execKeyRelease, After_next]
  repeat' (first | (intro _) | with_reducible assumption | with_reducible apply ite_keeps (Q := P)
                 | with_reducible apply State.serveRelease_keeps hP
                 | with_reducible refine foldl_keeps (Q := P) _ _ _ ?_ ?_ | split | rfl | dsimp only
                 | with_reducible refine fields_keeps hP ?_ ?_)

theorem State.loadEnd_keeps {P : State → Prop} (hP : Closed P) (s : State) (o : Option (List Byte)) (dst len : Nat) (h : P s) :
    P (match o with | some l => (0, s.put dst (slice l 0 len)) | none => (4, s) : Nat × State).2 := by
  cases o with
  | none => exact h
  | some l => exact State.put_keeps hP s _ _ h

theorem State.load_keeps {P : State → Prop} (hP : Closed P) (s : State) (slot : Nat) (h : P s) : P (s.load slot).2 := by
  have hi : ∀ (c : Prop) [Decidable c] (n : Nat) (r : Nat × State), P r.2 → P (if c then (n, s) else r).2 :=
    fun c _ n r hr => ite_keeps (Q := fun r : Nat × State => P r.2) c _ _ h hr
  unfold State.load
  split
  · exact h
  · split
    · exact h
    · exact hi _ _ _ (hi _ _ _ (hi _ _ _ (hi _ _ _ (hi _ _ _ (hi _ _ _ (State.loadEnd_keeps hP s _ _ _ h))))))

theorem State.serveLoad_keeps {P : State → Prop} (hP : Closed P) (s : State) (slot : Nat) (h : P s) : P (s.serveLoad slot) := by
  have hr := State.load_keeps hP s slot h
  unfold State.serveLoad
  dsimp only
  refine State.raise_keeps hP.toClosedRegs _ _ _ (ite_keeps _ _ _ ?_ (State.bump_keeps hP.toClosedRegs _ _ _ ?_)) <;> exact State.wrAll_keeps hP.toClosedRegs _ _ _ hr

theorem execSealedLoad_keeps {P : State → Prop} (hP : Closed P) (slot : BitVec 8) (s : State) (hs_ : P s) :
    After P (execSealedLoad slot s) := by
  simp only [execSealedLoad, After_next]
  repeat' (first | (intro _) | with_reducible assumption | with_reducible apply ite_keeps (Q := P)
                 | with_reducible apply State.serveLoad_keeps hP
                 | with_reducible refine foldl_keeps (Q := P) _ _ _ ?_ ?_ | split | rfl | dsimp only
                 | with_reducible refine fields_keeps hP.toClosedRegs ?_ ?_)

theorem State.clearSlot_keeps {P : State → Prop} (hP : ClosedRegs P) (s : State) (slot : Nat) (hs_ : P s) :
    P (State.clearSlot s slot) := by
  unfold State.clearSlot
  repeat' (first | (intro _) | with_reducible assumption | with_reducible apply ite_keeps (Q := P)
                 | with_reducible apply State.modSecurity_keeps hP | with_reducible apply State.wrAll_keeps hP
                 | with_reducible refine foldl_keeps (Q := P) _ _ _ ?_ ?_ | split | rfl | dsimp only
                 | with_reducible refine fields_keeps hP ?_ ?_)

theorem execSlotClear_keeps {P : State → Prop} (hP : ClosedRegs P) (slot : BitVec 8) (s : State) (hs_ : P s) :
    After P (execSlotClear slot s) := by
  simp only [execSlotClear, After_next]
  repeat' (first | (intro _) | with_reducible assumption | with_reducible apply ite_keeps (Q := P)
                 | with_reducible apply State.clearSlot_keeps hP
                 | with_reducible refine foldl_keeps (Q := P) _ _ _ ?_ ?_ | split | rfl | dsimp only
                 | with_reducible refine fields_keeps hP ?_ ?_)

theorem State.commitSvn_keeps {P : State → Prop} (hP : ClosedRegs P) (s : State) (h : P s) : P s.commitSvn := by
  unfold State.commitSvn
  exact State.wrAll_keeps hP _ _ _ (hP.fuse s _ rfl (Nat.le_max_left _ _) h)

theorem execCommitSvn_keeps {P : State → Prop} (hP : ClosedRegs P) (s : State) (hs_ : P s) :
    After P (execCommitSvn s) := by
  simp only [execCommitSvn, After_next]
  repeat' (first | (intro _) | with_reducible assumption | with_reducible apply ite_keeps (Q := P)
                 | with_reducible apply State.commitSvn_keeps hP
                 | with_reducible refine foldl_keeps (Q := P) _ _ _ ?_ ?_ | split | rfl | dsimp only
                 | with_reducible refine fields_keeps hP ?_ ?_)

theorem execHostDma_keeps {P : State → Prop} (hP : Closed P) (write : Bool) (addr : BitVec 41) (data : List Byte) (poisoned : Bool) (s : State) (hs_ : P s) :
    After P (execHostDma write addr data poisoned s) := by
  simp only [execHostDma, After_next]
  repeat' (first | (intro _) | with_reducible assumption | with_reducible apply ite_keeps (Q := P)
                 | with_reducible apply State.progress_keeps hP.toClosedRegs
                 | with_reducible apply State.bump_keeps hP.toClosedRegs
                 | with_reducible apply State.raise_keeps hP.toClosedRegs | with_reducible apply State.store_keeps hP
                 | with_reducible refine foldl_keeps (Q := P) _ _ _ ?_ ?_ | split | rfl | dsimp only
                 | with_reducible refine fields_keeps hP.toClosedRegs ?_ ?_)

theorem State.pairFails_keeps {P : State → Prop} (hP : ClosedRegs P) (s : State) (k : Nat) (hs_ : P s) :
    P (State.pairFails s k) := by
  unfold State.pairFails
  repeat' (first | (intro _) | with_reducible assumption | with_reducible apply ite_keeps (Q := P)
                 | with_reducible apply State.setBit_keeps hP | with_reducible apply State.terminate_keeps hP
                 | with_reducible apply State.bump_keeps hP | with_reducible apply State.raise_keeps hP
                 | with_reducible apply State.modSecurity_keeps hP | with_reducible apply State.each_keeps hP
                 | with_reducible refine foldl_keeps (Q := P) _ _ _ ?_ ?_ | split | rfl | dsimp only
                 | with_reducible refine fields_keeps hP ?_ ?_)

theorem State.cipherFails_keeps {P : State → Prop} (hP : Closed P) (s : State) (i : Nat) (hs_ : P s) :
    P (State.cipherFails s i) := by
  unfold State.cipherFails
  repeat' (first | (intro _) | with_reducible assumption | with_reducible apply ite_keeps (Q := P)
                 | with_reducible apply State.portDown_keeps hP
                 | with_reducible apply State.bump_keeps hP.toClosedRegs
                 | with_reducible apply State.raise_keeps hP.toClosedRegs
                 | with_reducible refine foldl_keeps (Q := P) _ _ _ ?_ ?_ | split | rfl | dsimp only
                 | with_reducible refine fields_keeps hP.toClosedRegs ?_ ?_)

theorem execSelfTest_keeps {P : State → Prop} (hP : Closed P) (pairsOk : BitVec 4) (portsOk : BitVec 8) (s : State) (hs_ : P s) :
    After P (execSelfTest pairsOk portsOk s) := by
  simp only [execSelfTest, After_next]
  repeat' (first | (intro _) | with_reducible assumption | with_reducible apply ite_keeps (Q := P)
                 | with_reducible apply State.cipherFails_keeps hP
                 | with_reducible apply State.pairFails_keeps hP.toClosedRegs
                 | with_reducible apply State.each_keeps hP.toClosedRegs
                 | with_reducible refine foldl_keeps (Q := P) _ _ _ ?_ ?_ | split | rfl | dsimp only
                 | with_reducible refine fields_keeps hP.toClosedRegs ?_ ?_)

theorem execIdeKmMessage_keeps {P : State → Prop} (hP : ClosedRegs P) (_body : List Byte) (s : State) (hs_ : P s) :
    After P (execIdeKmMessage _body s) := by
  simp only [execIdeKmMessage, After_next]
  repeat' (first | (intro _) | with_reducible assumption | with_reducible apply ite_keeps (Q := P)
                 | with_reducible apply State.modSecurity_keeps hP | with_reducible apply State.wr_keeps hP
                 | with_reducible refine foldl_keeps (Q := P) _ _ _ ?_ ?_ | split | rfl | dsimp only
                 | with_reducible refine fields_keeps hP ?_ ?_)

end Sys2Proof.Machine
end

