-- ==== Sys2Proof/Laws/KeepsRegisters.lean ====
section
/-! SUPPORT. Each operation of Machine/Registers keeps every property that the primitive changes keep (Laws/Keeps). -/
namespace Sys2Proof.Machine

theorem State.busRead_keeps {P : State → Prop} (hP : ClosedRegs P) (s : State) (req off : Nat) (hs_ : P s) :
    P (State.busRead s req off) := by
  unfold State.busRead
  repeat' (first | (intro _) | with_reducible assumption | with_reducible apply ite_keeps (Q := P)
                 | with_reducible apply State.latch_keeps hP | with_reducible refine foldl_keeps (Q := P) _ _ _ ?_ ?_
                 | split | rfl | dsimp only | with_reducible refine fields_keeps hP ?_ ?_)

theorem State.accessFault_keeps {P : State → Prop} (hP : ClosedRegs P) (s : State) (hs_ : P s) :
    P (State.accessFault s) := by
  unfold State.accessFault
  repeat' (first | (intro _) | with_reducible assumption | with_reducible apply ite_keeps (Q := P)
                 | with_reducible apply State.bump_keeps hP | with_reducible apply State.raise_keeps hP
                 | with_reducible refine foldl_keeps (Q := P) _ _ _ ?_ ?_ | split | rfl | dsimp only
                 | with_reducible refine fields_keeps hP ?_ ?_)

theorem execLowerWordRead_keeps {P : State → Prop} (hP : ClosedRegs P) (req : Nat) (off : BitVec 28) (s : State) (hs_ : P s) :
    After P (execLowerWordRead req off s) := by
  simp only [execLowerWordRead, After_next]
  repeat' (first | (intro _) | with_reducible assumption | with_reducible apply ite_keeps (Q := P)
                 | with_reducible apply State.accessFault_keeps hP | with_reducible apply State.busRead_keeps hP
                 | with_reducible refine foldl_keeps (Q := P) _ _ _ ?_ ?_ | split | rfl | dsimp only
                 | with_reducible refine fields_keeps hP ?_ ?_)

theorem State.writeField_keeps {P : State → Prop} (hP : ClosedRegs P) (s : State) (pg : Page) (v : Nat) (f : Field) (hs_ : P s) :
    P (State.writeField s pg v f) := by
  unfold State.writeField
  repeat' (first | (intro _) | with_reducible assumption | with_reducible apply ite_keeps (Q := P)
                 | with_reducible apply State.clearCount_keeps hP | with_reducible apply State.wr_keeps hP
                 | with_reducible refine foldl_keeps (Q := P) _ _ _ ?_ ?_ | split | rfl | dsimp only
                 | with_reducible refine fields_keeps hP ?_ ?_)

theorem State.writePlain_keeps {P : State → Prop} (hP : ClosedRegs P) (s : State) (pg : Page) (o v : Nat) (hs_ : P s) :
    P (State.writePlain s pg o v) := by
  unfold State.writePlain
  repeat' (first | (intro _) | with_reducible assumption | with_reducible apply ite_keeps (Q := P)
                 | with_reducible apply State.writeField_keeps hP
                 | with_reducible refine foldl_keeps (Q := P) _ _ _ ?_ ?_ | split | rfl | dsimp only
                 | with_reducible refine fields_keeps hP ?_ ?_)

theorem State.rearm_keeps {P : State → Prop} (hP : ClosedRegs P) (s : State) (vectors : Nat) (hs_ : P s) :
    P (State.rearm s vectors) := by
  unfold State.rearm
  repeat' (first | (intro _) | with_reducible assumption | with_reducible apply ite_keeps (Q := P)
                 | with_reducible apply State.sendVector_keeps hP | with_reducible apply State.each_keeps hP
                 | with_reducible refine foldl_keeps (Q := P) _ _ _ ?_ ?_ | split | rfl | dsimp only
                 | with_reducible refine fields_keeps hP ?_ ?_)

theorem State.writeMsix_keeps {P : State → Prop} (hP : ClosedRegs P) (s : State) (i v : Nat) (hs_ : P s) :
    P (State.writeMsix s i v) := by
  unfold State.writeMsix
  repeat' (first | (intro _) | with_reducible assumption | with_reducible apply ite_keeps (Q := P)
                 | with_reducible apply State.emit_keeps hP | with_reducible apply State.wr_keeps hP
                 | with_reducible refine foldl_keeps (Q := P) _ _ _ ?_ ?_ | split | rfl | dsimp only
                 | with_reducible refine fields_keeps hP ?_ ?_)

theorem State.writePortCtl_keeps {P : State → Prop} (hP : Closed P) (s : State) (i v : Nat) (hs_ : P s) :
    P (State.writePortCtl s i v) := by
  unfold State.writePortCtl
  repeat' (first | (intro _) | with_reducible assumption | with_reducible apply ite_keeps (Q := P)
                 | with_reducible apply State.retrain_keeps hP
                 | with_reducible apply State.startTraining_keeps hP.toClosedRegs
                 | with_reducible apply State.portDown_keeps hP
                 | with_reducible apply State.wrAll_keeps hP.toClosedRegs
                 | with_reducible refine foldl_keeps (Q := P) _ _ _ ?_ ?_ | split | rfl | dsimp only
                 | with_reducible refine fields_keeps hP.toClosedRegs ?_ ?_)

theorem State.writeGlobal_keeps {P : State → Prop} (hP : Closed P) {s t : State} {pg : Page} {o : Nat} {v : Nat}
    (ht : s.writeGlobal pg o v = some t) (h : P s) : P t := by
  unfold State.writeGlobal at ht
  dsimp only at ht
  repeat' (first | contradiction | (simp only [Option.some.injEq] at ht; subst ht) | split at ht)
  all_goals
    (repeat' (first | (intro _) | with_reducible assumption | with_reducible apply ite_keeps (Q := P)
                    | with_reducible apply State.writePortCtl_keeps hP
                    | with_reducible apply State.writeMsix_keeps hP.toClosedRegs
                    | with_reducible apply State.rearm_keeps hP.toClosedRegs
                    | with_reducible apply State.writePlain_keeps hP.toClosedRegs
                    | with_reducible apply State.drainTags_keeps hP.toClosedRegs
                    | with_reducible apply State.clearSlots_keeps hP.toClosedRegs
                    | with_reducible apply State.askUserSnapshot_keeps hP.toClosedRegs
                    | with_reducible apply State.askSnapshot_keeps hP.toClosedRegs
                    | with_reducible apply State.writeSlotCfg_keeps hP.toClosedRegs
                    | with_reducible apply State.commitSvn_keeps hP.toClosedRegs
                    | with_reducible apply State.clearSlot_keeps hP.toClosedRegs
                    | with_reducible apply State.serveLoad_keeps hP
                    | with_reducible apply State.serveRelease_keeps hP.toClosedRegs
                    | with_reducible apply State.serveReport_keeps hP
                    | with_reducible apply State.writePairs_keeps hP.toClosedRegs
                    | with_reducible apply State.moduleReset_keeps hP
                    | with_reducible apply State.rescan_keeps hP.toClosedRegs
                    | with_reducible apply State.realign_keeps hP
                    | with_reducible apply State.setParent_keeps hP.toClosedRegs
                    | with_reducible apply State.emitToken_keeps hP.toClosedRegs
                    | with_reducible apply State.applyPower_keeps hP.toClosedRegs
                    | with_reducible apply State.bump_keeps hP.toClosedRegs
                    | with_reducible refine fields_keeps hP.toClosedRegs ?_ ?_))

theorem State.writePart_keeps {P : State → Prop} (hP : Closed P) {s t : State} {pg : Page} {o : Nat} {v : Nat}
    (ht : s.writePart pg o v = some t) (h : P s) : P t := by
  unfold State.writePart at ht
  dsimp only at ht
  repeat' (first | contradiction | (simp only [Option.some.injEq] at ht; subst ht) | split at ht)
  all_goals
    (repeat' (first | (intro _) | with_reducible assumption | with_reducible apply ite_keeps (Q := P)
                    | with_reducible apply State.writePlain_keeps hP.toClosedRegs
                    | with_reducible apply State.commandCal_keeps hP.toClosedRegs
                    | with_reducible apply State.requestPartReset_keeps hP.toClosedRegs
                    | with_reducible apply State.requestRow_keeps hP.toClosedRegs
                    | with_reducible apply State.setRestoreRow_keeps hP.toClosedRegs
                    | with_reducible apply State.writeRingCfg_keeps hP
                    | with_reducible apply State.clearFences_keeps hP.toClosedRegs
                    | with_reducible apply State.writeRun_keeps hP.toClosedRegs
                    | with_reducible apply State.bindTo_keeps hP.toClosedRegs
                    | with_reducible apply State.wr_keeps hP.toClosedRegs
                    | with_reducible refine fields_keeps hP.toClosedRegs ?_ ?_))

theorem State.writeOwn_keeps {P : State → Prop} (hP : Closed P) (s : State) (pg : Page) (o v : Nat) (h : P s) : P (s.writeOwn pg o v) := by
  have ht : P (match s.writeGlobal pg o v with
      | some t => t
      | none => match s.writePart pg o v with
        | some t => t
        | none => s.writePlain pg o v) := by
    split
    · rename_i hg
      exact State.writeGlobal_keeps hP hg h
    · split
      · rename_i hp
        exact State.writePart_keeps hP hp h
      · exact State.writePlain_keeps hP.toClosedRegs s pg o v h
  unfold State.writeOwn
  exact ite_keeps _ _ _ (State.progress_keeps hP.toClosedRegs _ _ ht) ht

theorem State.writeCommon_keeps {P : State → Prop} (hP : ClosedRegs P) (s : State) (pg : Page) (o v : Nat) (hs_ : P s) :
    P (State.writeCommon s pg o v) := by
  unfold State.writeCommon
  repeat' (first | (intro _) | with_reducible assumption | with_reducible apply ite_keeps (Q := P)
                 | with_reducible apply State.writePlain_keeps hP | with_reducible apply State.signalFrom_keeps hP
                 | with_reducible refine foldl_keeps (Q := P) _ _ _ ?_ ?_ | split | rfl | dsimp only
                 | with_reducible refine fields_keeps hP ?_ ?_)

theorem State.writeWide_keeps {P : State → Prop} (hP : ClosedRegs P) (s : State) (pg : Page) (f : Field) (v : Nat) (hs_ : P s) :
    P (State.writeWide s pg f v) := by
  unfold State.writeWide
  repeat' (first | (intro _) | with_reducible assumption | with_reducible apply ite_keeps (Q := P)
                 | with_reducible apply State.writeFeatures_keeps hP | with_reducible apply State.progress_keeps hP
                 | with_reducible apply State.wr_keeps hP | with_reducible refine foldl_keeps (Q := P) _ _ _ ?_ ?_
                 | split | rfl | dsimp only | with_reducible refine fields_keeps hP ?_ ?_)

theorem State.pageWrite_keeps {P : State → Prop} (hP : Closed P) (s : State) (pg : Page) (o v : Nat) (hs_ : P s) :
    P (State.pageWrite s pg o v) := by
  unfold State.pageWrite
  repeat' (first | (intro _) | with_reducible assumption | with_reducible apply ite_keeps (Q := P)
                 | with_reducible apply State.writeWide_keeps hP.toClosedRegs
                 | with_reducible apply State.writeCommon_keeps hP.toClosedRegs
                 | with_reducible apply State.writeOwn_keeps hP
                 | with_reducible refine foldl_keeps (Q := P) _ _ _ ?_ ?_ | split | rfl | dsimp only
                 | with_reducible refine fields_keeps hP.toClosedRegs ?_ ?_)

theorem State.busWrite_keeps {P : State → Prop} (hP : Closed P) (s : State) (off v : Nat) (hs_ : P s) :
    P (State.busWrite s off v) := by
  unfold State.busWrite
  repeat' (first | (intro _) | with_reducible assumption | with_reducible apply ite_keeps (Q := P)
                 | with_reducible apply State.pageWrite_keeps hP
                 | with_reducible refine foldl_keeps (Q := P) _ _ _ ?_ ?_ | split | rfl | dsimp only
                 | with_reducible refine fields_keeps hP.toClosedRegs ?_ ?_)

theorem State.writePieces_keeps {P : State → Prop} (hP : Closed P) (s : State) (off : Nat) (data : List Byte) (fuel : Nat) (h : P s) :
    P (s.writePieces off data fuel) := by
  induction fuel generalizing s off data with
  | zero => exact h
  | succ fuel ih =>
    unfold State.writePieces
    split
    · exact h
    · split
      · exact ih _ _ _ (State.busWrite_keeps hP _ _ _ (State.busWrite_keeps hP s _ _ h))
      · split
        · exact ih _ _ _ (State.busWrite_keeps hP s _ _ h)
        · exact ih _ _ _ (State.accessFault_keeps hP.toClosedRegs s h)

theorem State.busTransaction_keeps {P : State → Prop} (hP : Closed P) (s : State) (off : Nat) (data : List Byte) (hs_ : P s) :
    P (State.busTransaction s off data) := by
  unfold State.busTransaction
  repeat' (first | (intro _) | with_reducible assumption | with_reducible apply ite_keeps (Q := P)
                 | with_reducible apply State.writePieces_keeps hP | with_reducible apply State.busWrite_keeps hP
                 | with_reducible apply State.accessFault_keeps hP.toClosedRegs
                 | with_reducible refine foldl_keeps (Q := P) _ _ _ ?_ ?_ | split | rfl | dsimp only
                 | with_reducible refine fields_keeps hP.toClosedRegs ?_ ?_)

theorem execRegisterWrite_keeps {P : State → Prop} (hP : Closed P) (_req : Nat) (off : BitVec 28) (data : List Byte) (s : State) (hs_ : P s) :
    After P (execRegisterWrite _req off data s) := by
  simp only [execRegisterWrite, After_next]
  repeat' (first | (intro _) | with_reducible assumption | with_reducible apply ite_keeps (Q := P)
                 | with_reducible apply State.busTransaction_keeps hP
                 | with_reducible refine foldl_keeps (Q := P) _ _ _ ?_ ?_ | split | rfl | dsimp only
                 | with_reducible refine fields_keeps hP.toClosedRegs ?_ ?_)

theorem execIntRearm_keeps {P : State → Prop} (hP : ClosedRegs P) (vectors : BitVec 16) (s : State) (hs_ : P s) :
    After P (execIntRearm vectors s) := by
  simp only [execIntRearm, After_next]
  repeat' (first | (intro _) | with_reducible assumption | with_reducible apply ite_keeps (Q := P)
                 | with_reducible apply State.rearm_keeps hP | with_reducible refine foldl_keeps (Q := P) _ _ _ ?_ ?_
                 | split | rfl | dsimp only | with_reducible refine fields_keeps hP ?_ ?_)

theorem execSmbusRegisterRead_keeps {P : State → Prop} (hP : ClosedRegs P) (off : BitVec 28) (s : State) (hs_ : P s) :
    After P (execSmbusRegisterRead off s) := by
  simp only [execSmbusRegisterRead, After_next]
  repeat' (first | (intro _) | with_reducible assumption | with_reducible apply ite_keeps (Q := P)
                 | with_reducible apply State.accessFault_keeps hP | with_reducible apply State.busRead_keeps hP
                 | with_reducible apply State.bump_keeps hP | with_reducible refine foldl_keeps (Q := P) _ _ _ ?_ ?_
                 | split | rfl | dsimp only | with_reducible refine fields_keeps hP ?_ ?_)

theorem execSmbusRegisterWrite_keeps {P : State → Prop} (hP : Closed P) (off : BitVec 28) (value : W32) (s : State) (hs_ : P s) :
    After P (execSmbusRegisterWrite off value s) := by
  simp only [execSmbusRegisterWrite, After_next]
  repeat' (first | (intro _) | with_reducible assumption | with_reducible apply ite_keeps (Q := P)
                 | with_reducible apply State.busWrite_keeps hP
                 | with_reducible apply State.accessFault_keeps hP.toClosedRegs
                 | with_reducible apply State.bump_keeps hP.toClosedRegs
                 | with_reducible refine foldl_keeps (Q := P) _ _ _ ?_ ?_ | split | rfl | dsimp only
                 | with_reducible refine fields_keeps hP.toClosedRegs ?_ ?_)

theorem execSmbusReportRead_keeps {P : State → Prop} (hP : ClosedRegs P) (piece : BitVec 16) (s : State) (hs_ : P s) :
    After P (execSmbusReportRead piece s) := by
  simp only [execSmbusReportRead, After_next]
  repeat' (first | (intro _) | with_reducible assumption | with_reducible apply ite_keeps (Q := P)
                 | with_reducible refine foldl_keeps (Q := P) _ _ _ ?_ ?_ | split | rfl | dsimp only
                 | with_reducible refine fields_keeps hP ?_ ?_)

theorem execSmbusChallenge_keeps {P : State → Prop} (hP : ClosedRegs P) (challenge : List Byte) (s : State) (hs_ : P s) :
    After P (execSmbusChallenge challenge s) := by
  simp only [execSmbusChallenge, After_next]
  repeat' (first | (intro _) | with_reducible assumption | with_reducible apply ite_keeps (Q := P)
                 | with_reducible refine State.signReport_keeps hP (by with_reducible assumption) ?_
                 | with_reducible apply State.modSecurity_keeps hP
                 | with_reducible refine foldl_keeps (Q := P) _ _ _ ?_ ?_ | split | rfl | dsimp only
                 | with_reducible refine fields_keeps hP ?_ ?_)

end Sys2Proof.Machine
end

