-- ==== Sys2Proof/Laws/KeepsFetch.lean ====
section
/-! SUPPORT. Each operation of Machine/Fetch keeps every property that the primitive changes keep (Laws/Keeps). -/
namespace Sys2Proof.Machine

theorem State.enqueue_keeps {P : State → Prop} (hq : ∀ (s : State) (l : List Instr), P s → P { s with pending := l }) (s : State) (i : Instr) (h : P s) :
    P (s.enqueue i) := hq s _ h

theorem State.fetchNext_keeps {P : State → Prop} (hP : Closed P) (hq : ∀ (s : State) (l : List Instr), P s → P { s with pending := l })
    (s : State) (p : PartId) (h : P s) : P (s.fetchNext p) := by
  unfold State.fetchNext
  dsimp only
  repeat' (first | exact h | exact State.enqueue_keeps hq s _ h | exact State.seqFault_keeps hP.toClosedRegs s _ _ _ h | split)

theorem State.fetchThread_keeps {P : State → Prop} (hP : Closed P) (hq : ∀ (s : State) (l : List Instr), P s → P { s with pending := l })
    (s : State) (p : PartId) (c : LogicalCluster) (t : ThreadId) (h : P s) : P (s.fetchThread p c t) := by
  unfold State.fetchThread
  repeat' (first | exact h | exact State.enqueue_keeps hq s _ h | exact State.threadFault_keeps hP.toClosedRegs s _ _ _ _ _ h
                 | exact State.threadFault_keeps hP.toClosedRegs _ _ _ _ _ _ (State.bump_keeps hP.toClosedRegs s _ _ h) | split)

theorem State.fetchThreads_keeps {P : State → Prop} (hP : Closed P) (hq : ∀ (s : State) (l : List Instr), P s → P { s with pending := l })
    (s : State) (p : PartId) (h : P s) : P (s.fetchThreads p) :=
  State.each_keeps hP.toClosedRegs s _ _ h (fun t _ ht => State.each_keeps hP.toClosedRegs t _ _ ht (fun u _ hu => State.fetchThread_keeps hP hq u p _ _ hu))

theorem State.countFull_keeps {P : State → Prop} (hP : ClosedRegs P) (s : State) (p r : Nat) (hs_ : P s) :
    P (State.countFull s p r) := by
  unfold State.countFull
  repeat' (first | (intro _) | with_reducible assumption | with_reducible apply ite_keeps (Q := P)
                 | with_reducible apply State.wr_keeps hP | with_reducible refine foldl_keeps (Q := P) _ _ _ ?_ ?_
                 | split | rfl | dsimp only | with_reducible refine fields_keeps hP ?_ ?_)

theorem State.trimPoint_keeps {P : State → Prop} (hP : ClosedRegs P) (s : State) (p : Nat) (hs_ : P s) :
    P (State.trimPoint s p) := by
  unfold State.trimPoint
  repeat' (first | (intro _) | with_reducible assumption | with_reducible apply ite_keeps (Q := P)
                 | with_reducible apply State.modPart_keeps hP
                 | with_reducible refine foldl_keeps (Q := P) _ _ _ ?_ ?_ | split | rfl | dsimp only
                 | with_reducible refine fields_keeps hP ?_ ?_)

theorem State.partEdge_keeps {P : State → Prop} (hP : ClosedRegs P) (s : State) (p : Nat) (hs_ : P s) :
    P (State.partEdge s p) := by
  unfold State.partEdge
  repeat' (first | (intro _) | with_reducible assumption | with_reducible apply ite_keeps (Q := P)
                 | with_reducible apply State.trimPoint_keeps hP | with_reducible apply State.countFull_keeps hP
                 | with_reducible apply State.applyActions_keeps hP
                 | with_reducible apply State.sampleTriggers_keeps hP | with_reducible apply State.each_keeps hP
                 | with_reducible refine foldl_keeps (Q := P) _ _ _ ?_ ?_ | split | rfl | dsimp only
                 | with_reducible refine fields_keeps hP ?_ ?_)

theorem State.clockEdge_keeps {P : State → Prop} (hP : ClosedRegs P) (s : State) (hs_ : P s) :
    P (State.clockEdge s) := by
  unfold State.clockEdge
  repeat' (first | (intro _) | with_reducible assumption | with_reducible apply ite_keeps (Q := P)
                 | with_reducible apply State.partEdge_keeps hP | with_reducible apply State.startSlots_keeps hP
                 | with_reducible apply State.sampleProgress_keeps hP | with_reducible apply State.takeUrgent_keeps hP
                 | with_reducible apply State.startTraining_keeps hP | with_reducible apply State.modFabric_keeps hP
                 | with_reducible apply State.each_keeps hP | with_reducible refine foldl_keeps (Q := P) _ _ _ ?_ ?_
                 | split | rfl | dsimp only | with_reducible refine fields_keeps hP ?_ ?_)

theorem State.nextOr_keeps {P : State → Prop} {s : State} {o : Host.Outcome State Fault Refusal} (h : P s) (ho : After P o) : P (s.nextOr o) := by
  unfold State.nextOr
  split
  · exact ho _ rfl
  · exact h

theorem State.actHeld_keeps {P : State → Prop} (hP : Closed P) (hh : ∀ (s : State) (l : List Instr), P s → P { s with held := l })
    (s : State) (i : Instr) (h : P s) : P (s.actHeld i) := by
  cases i with
  | trip c => exact State.nextOr_keeps h (execTrip_keeps hP c s h (hh s _ h))
  | abortToken k t => exact State.nextOr_keeps h (execAbortToken_keeps hP.toClosedRegs k t s h (hh s _ h))
  | linkDown k byReplay => exact State.nextOr_keeps h (execLinkDown_keeps hP k byReplay s h (hh s _ h))
  | abortAct => exact State.nextOr_keeps h (execAbortAct_keeps hP s h (hh s _ h))
  | poisonConsumed p point => exact State.nextOr_keeps h (execPoisonConsumed_keeps hP.toClosedRegs p point s h (hh s _ h))
  | hangTimeout b => exact State.nextOr_keeps h (execHangTimeout_keeps hP b s h (hh s _ h))
  | updatePass p => exact State.nextOr_keeps h (execUpdatePass_keeps hP p s h (hh s _ h))
  | flagRoundMessage k kind axis step value => exact State.nextOr_keeps h (execFlagRoundMessage_keeps hP k kind axis step value s h (hh s _ h))
  | scaleOperationEnd p w id => exact State.nextOr_keeps h (execScaleOperationEnd_keeps hP.toClosedRegs p w id s h (hh s _ h))
  | driftEvaluation p w b sc => exact State.nextOr_keeps h (execDriftEvaluation_keeps hP.toClosedRegs p w b sc s h (hh s _ h))
  | calibrationCommand p wings => exact State.nextOr_keeps h (execCalibrationCommand_keeps hP.toClosedRegs p wings s h (hh s _ h))
  | counterWrap n added => exact State.nextOr_keeps h (execCounterWrap_keeps hP.toClosedRegs n added s h (hh s _ h))
  | _ => exact h

theorem State.actAllHeld_keeps {P : State → Prop} (hP : Closed P) (hh : ∀ (s : State) (l : List Instr), P s → P { s with held := l })
    (s : State) (h : P s) : P s.actAllHeld :=
  foldl_keeps (Q := P) _ _ _ (hh s _ h) (fun t i ht => State.actHeld_keeps hP hh t i ht)

theorem State.tickEdge_keeps {P : State → Prop} (hP : Closed P) (hq : ∀ (s : State) (l : List Instr), P s → P { s with pending := l })
    (hh : ∀ (s : State) (l : List Instr), P s → P { s with held := l }) (s : State) (h : P s) : P s.tickEdge := by
  unfold State.tickEdge
  refine ite_keeps _ _ _ (foldl_keeps (Q := P) _ _ _ (State.clockEdge_keeps hP.toClosedRegs _ (State.actAllHeld_keeps hP hh s h)) (fun t p ht => ?_)) h
  exact ite_keeps _ _ _ (State.fetchThreads_keeps hP hq _ p (State.fetchNext_keeps hP hq t p ht)) ht

end Sys2Proof.Machine
end

