-- ==== Sys2Proof/Laws/KeepsStep.lean ====
section
/-! SUPPORT. Every command, and every step, keeps the properties that the primitive changes keep (Laws/Keeps). -/
namespace Sys2Proof.Machine

/-- Every command keeps a closed property that holding it for the tick edge keeps. -/
theorem exec_keeps {P : State → Prop} (hP : Closed P) (i : Instr) (s : State) (hr : P { s with held := putRanked i s.held }) (h : P s) :
    After P (exec i s) := by
  cases i with
  | nop x0 x1 => exact execNop_keeps hP.toClosedRegs x0 x1 s h
  | stepMark x0 x1 => exact execStepMark_keeps hP.toClosedRegs x0 x1 s h
  | stepBoundary x0 => exact execStepBoundary_keeps hP x0 s h
  | kernel x0 x1 => exact execKernel_keeps hP.toClosedRegs x0 x1 s h
  | analogue x0 x1 => exact execAnalogue_keeps hP.toClosedRegs x0 x1 s h
  | reseat x0 x1 => exact execReseat_keeps hP x0 x1 s h
  | update x0 x1 => exact execUpdate_keeps hP.toClosedRegs x0 x1 s h
  | move x0 x1 => exact execMove_keeps hP x0 x1 s h
  | reduceScatter x0 x1 x2 => exact execReduceScatter_keeps hP x0 x1 x2 s h
  | allGather x0 x1 x2 => exact execAllGather_keeps hP x0 x1 x2 s h
  | allReduce x0 x1 x2 => exact execAllReduce_keeps hP x0 x1 x2 s h
  | flagRound x0 x1 x2 => exact execFlagRound_keeps hP x0 x1 x2 s h
  | shiftUp x0 x1 x2 => exact execShiftUp_keeps hP x0 x1 x2 s h
  | shiftDown x0 x1 x2 => exact execShiftDown_keeps hP x0 x1 x2 s h
  | hitchOpen x0 x1 => exact execHitchOpen_keeps hP.toClosedRegs x0 x1 s h
  | hitchCommit x0 x1 => exact execHitchCommit_keeps hP x0 x1 s h
  | hitchPush x0 x1 => exact execHitchPush_keeps hP x0 x1 s h
  | hitchResume x0 x1 => exact execHitchResume_keeps hP x0 x1 s h
  | hitchCheckpoint x0 x1 => exact execHitchCheckpoint_keeps hP x0 x1 s h
  | hitchRestore x0 x1 => exact execHitchRestore_keeps hP x0 x1 s h
  | ringIn x0 x1 => exact execRingIn_keeps hP x0 x1 s h
  | ringOut x0 x1 => exact execRingOut_keeps hP x0 x1 s h
  | commandComplete x0 x1 => exact execCommandComplete_keeps hP x0 x1 s h
  | launchComplete x0 => exact execLaunchComplete_keeps hP x0 s h
  | ringPoll x0 x1 => exact execRingPoll_keeps hP.toClosedRegs x0 x1 s h
  | launchEntry x0 => exact execLaunchEntry_keeps hP.toClosedRegs x0 s h
  | skipEntry x0 => exact execSkipEntry_keeps hP x0 s h
  | tileMoverRequest x0 x1 x2 x3 => exact execTileMoverRequest_keeps hP.toClosedRegs x0 x1 x2 x3 s h
  | tileMoverComplete x0 x1 x2 x3 => exact execTileMoverComplete_keeps hP x0 x1 x2 x3 s h
  | mma x0 x1 x2 x3 => exact execMma_keeps hP.toClosedRegs x0 x1 x2 x3 s h
  | vec x0 x1 x2 x3 => exact execVec_keeps hP.toClosedRegs x0 x1 x2 x3 s h
  | sync x0 x1 x2 x3 => exact execSync_keeps hP.toClosedRegs x0 x1 x2 x3 s h
  | addi x0 x1 x2 x3 => exact execAddi_keeps hP.toClosedRegs x0 x1 x2 x3 s h
  | setc x0 x1 x2 x3 => exact execSetc_keeps hP.toClosedRegs x0 x1 x2 x3 s h
  | loop x0 x1 x2 x3 => exact execLoop_keeps hP.toClosedRegs x0 x1 x2 x3 s h
  | exit x0 x1 x2 x3 => exact execExit_keeps hP.toClosedRegs x0 x1 x2 x3 s h
  | blockProductEnd x0 x1 x2 x3 => exact execBlockProductEnd_keeps hP x0 x1 x2 x3 s h
  | blockRecompute x0 x1 => exact execBlockRecompute_keeps hP x0 x1 s h
  | clusterTakeover x0 x1 => exact execClusterTakeover_keeps hP x0 x1 s h
  | auditRecompute x0 x1 x2 => exact execAuditRecompute_keeps hP.toClosedRegs x0 x1 x2 s h
  | add x0 x1 x2 => exact execAdd_keeps hP x0 x1 x2 s h
  | mul x0 x1 x2 => exact execMul_keeps hP x0 x1 x2 s h
  | fma x0 x1 x2 => exact execFma_keeps hP x0 x1 x2 s h
  | cmp x0 x1 x2 => exact execCmp_keeps hP x0 x1 x2 s h
  | select x0 x1 x2 => exact execSelect_keeps hP x0 x1 x2 s h
  | min x0 x1 x2 => exact execMin_keeps hP x0 x1 x2 s h
  | max x0 x1 x2 => exact execMax_keeps hP x0 x1 x2 s h
  | vecDescriptorComplete x0 x1 => exact execVecDescriptorComplete_keeps hP.toClosedRegs x0 x1 s h
  | activationSegment x0 x1 x2 => exact execActivationSegment_keeps hP.toClosedRegs x0 x1 x2 s h
  | rotateBlock x0 x1 => exact execRotateBlock_keeps hP x0 x1 s h
  | scaleOperation x0 x1 => exact execScaleOperation_keeps hP.toClosedRegs x0 x1 s h
  | scaleOperationEnd x0 x1 x2 => exact execScaleOperationEnd_keeps hP.toClosedRegs x0 x1 x2 s h hr
  | l3Tile x0 x1 x2 => exact execL3Tile_keeps hP.toClosedRegs x0 x1 x2 s h
  | productOutput x0 x1 x2 x3 => exact execProductOutput_keeps hP x0 x1 x2 x3 s h
  | monitorWindowEvaluation x0 x1 x2 x3 => exact execMonitorWindowEvaluation_keeps hP.toClosedRegs x0 x1 x2 x3 s h
  | ladderStormRaised x0 => exact execLadderStormRaised_keeps hP.toClosedRegs x0 s h
  | ladderStormCleared x0 => exact execLadderStormCleared_keeps hP.toClosedRegs x0 s h
  | rowRestore x0 x1 x2 x3 x4 => exact execRowRestore_keeps hP.toClosedRegs x0 x1 x2 x3 x4 s h
  | linkStall x0 x1 => exact execLinkStall_keeps hP.toClosedRegs x0 x1 s h
  | debugRowReadRequest x0 x1 x2 => exact execDebugRowReadRequest_keeps hP.toClosedRegs x0 x1 x2 s h
  | debugRowRead x0 x1 => exact execDebugRowRead_keeps hP.toClosedRegs x0 x1 s h
  | seatTile x0 x1 => exact execSeatTile_keeps hP x0 x1 s h
  | reseatRowWrite x0 x1 x2 => exact execReseatRowWrite_keeps hP x0 x1 x2 s h
  | seatComplete x0 x1 => exact execSeatComplete_keeps hP x0 x1 s h
  | spareLoadComplete x0 x1 => exact execSpareLoadComplete_keeps hP x0 x1 s h
  | wearCopy => exact execWearCopy_keeps hP.toClosedRegs s h
  | updatePass x0 => exact execUpdatePass_keeps hP x0 s h hr
  | updateChunk x0 => exact execUpdateChunk_keeps hP x0 s h
  | updatePassEnd x0 => exact execUpdatePassEnd_keeps hP x0 s h
  | strandFrameSend x0 x1 => exact execStrandFrameSend_keeps hP.toClosedRegs x0 x1 s h
  | strandFrameReceive x0 x1 x2 x3 => exact execStrandFrameReceive_keeps hP x0 x1 x2 x3 s h
  | linkDown x0 x1 => exact execLinkDown_keeps hP x0 x1 s h hr
  | laneSpare x0 x1 x2 x3 => exact execLaneSpare_keeps hP x0 x1 x2 x3 s h
  | laneManagementMessage x0 x1 x2 x3 => exact execLaneManagementMessage_keeps hP.toClosedRegs x0 x1 x2 x3 s h
  | remoteWrite x0 x1 x2 x3 x4 x5 => exact execRemoteWrite_keeps hP x0 x1 x2 x3 x4 x5 s h
  | remoteWriteTimeout x0 => exact execRemoteWriteTimeout_keeps hP.toClosedRegs x0 s h
  | flagRoundMessage x0 x1 x2 x3 x4 => exact execFlagRoundMessage_keeps hP x0 x1 x2 x3 x4 s h hr
  | abortToken x0 x1 => exact execAbortToken_keeps hP.toClosedRegs x0 x1 s h hr
  | abortAct => exact execAbortAct_keeps hP s h hr
  | abortGo => exact execAbortGo_keeps hP.toClosedRegs s h
  | timingMessageSend x0 x1 => exact execTimingMessageSend_keeps hP.toClosedRegs x0 x1 s h
  | timingMessage x0 x1 x2 x3 x4 => exact execTimingMessage_keeps hP x0 x1 x2 x3 x4 s h
  | timingParentSelect => exact execTimingParentSelect_keeps hP s h
  | holdoverExpired => exact execHoldoverExpired_keeps hP.toClosedRegs s h
  | realign => exact execRealign_keeps hP s h
  | tickAligned => exact execTickAligned_keeps hP s h
  | portEnable x0 => exact execPortEnable_keeps hP.toClosedRegs x0 s h
  | portRetrain x0 => exact execPortRetrain_keeps hP x0 s h
  | portTrained x0 x1 x2 x3 => exact execPortTrained_keeps hP.toClosedRegs x0 x1 x2 x3 s h
  | keyEpochMessage x0 x1 x2 => exact execKeyEpochMessage_keeps hP.toClosedRegs x0 x1 x2 s h
  | linkKeyRollover x0 => exact execLinkKeyRollover_keeps hP x0 s h
  | hangTimeout x0 => exact execHangTimeout_keeps hP x0 s h hr
  | engineResetTimeout x0 => exact execEngineResetTimeout_keeps hP x0 s h
  | partitionResetRequest x0 => exact execPartitionResetRequest_keeps hP.toClosedRegs x0 s h
  | partitionResetDone x0 => exact execPartitionResetDone_keeps hP.toClosedRegs x0 s h
  | partitionResetTimeout x0 => exact execPartitionResetTimeout_keeps hP x0 s h
  | moduleResetRequest => exact execModuleResetRequest_keeps hP s h
  | watchdogReset => exact execWatchdogReset_keeps hP s h
  | hbmChannelFailure x0 x1 => exact execHbmChannelFailure_keeps hP.toClosedRegs x0 x1 s h
  | managementAction x0 x1 => exact execManagementAction_keeps hP.toClosedRegs x0 x1 s h
  | poisonConsumed x0 x1 => exact execPoisonConsumed_keeps hP.toClosedRegs x0 x1 s h hr
  | mirrorRebuild x0 x1 => exact execMirrorRebuild_keeps hP x0 x1 s h
  | scrub x0 x1 x2 => exact execScrub_keeps hP x0 x1 x2 s h
  | patternSweep x0 x1 x2 => exact execPatternSweep_keeps hP.toClosedRegs x0 x1 x2 s h
  | cocoonRecordWrite x0 => exact execCocoonRecordWrite_keeps hP x0 s h
  | errcntClear x0 => exact execErrcntClear_keeps hP.toClosedRegs x0 s h
  | calibrationCommand x0 x1 => exact execCalibrationCommand_keeps hP.toClosedRegs x0 x1 s h hr
  | driftEvaluation x0 x1 x2 x3 => exact execDriftEvaluation_keeps hP.toClosedRegs x0 x1 x2 x3 s h hr
  | calibrationStart x0 x1 => exact execCalibrationStart_keeps hP.toClosedRegs x0 x1 s h
  | measurementRunEnd x0 x1 x2 x3 => exact execMeasurementRunEnd_keeps hP.toClosedRegs x0 x1 x2 x3 s h
  | columnTakeover x0 x1 x2 x3 => exact execColumnTakeover_keeps hP.toClosedRegs x0 x1 x2 x3 s h
  | takeoverEnd x0 x1 x2 x3 => exact execTakeoverEnd_keeps hP.toClosedRegs x0 x1 x2 x3 s h
  | calibrationComplete x0 x1 => exact execCalibrationComplete_keeps hP.toClosedRegs x0 x1 s h
  | trimApplication x0 => exact execTrimApplication_keeps hP.toClosedRegs x0 s h
  | urgentRequest x0 x1 x2 => exact execUrgentRequest_keeps hP.toClosedRegs x0 x1 x2 s h
  | measurementConversion x0 x1 => exact execMeasurementConversion_keeps hP.toClosedRegs x0 x1 s h
  | thermalReading x0 => exact execThermalReading_keeps hP.toClosedRegs x0 s h
  | trip x0 => exact execTrip_keeps hP x0 s h hr
  | partitionTripRestart x0 => exact execPartitionTripRestart_keeps hP.toClosedRegs x0 s h
  | moduleTripRestart => exact execModuleTripRestart_keeps hP.toClosedRegs s h
  | controlInterval x0 x1 => exact execControlInterval_keeps hP.toClosedRegs x0 x1 s h
  | domainPowerFault x0 => exact execDomainPowerFault_keeps hP x0 s h
  | fabricPairOff x0 => exact execFabricPairOff_keeps hP.toClosedRegs x0 s h
  | kill => exact execKill_keeps hP s h
  | powerGood x0 x1 => exact execPowerGood_keeps hP x0 x1 s h
  | instarReached x0 x1 => exact execInstarReached_keeps hP.toClosedRegs x0 x1 s h
  | instarStall x0 => exact execInstarStall_keeps hP.toClosedRegs x0 s h
  | wingClear x0 x1 => exact execWingClear_keeps hP.toClosedRegs x0 x1 s h
  | pllStable x0 => exact execPllStable_keeps hP.toClosedRegs x0 s h
  | pllUnlock x0 => exact execPllUnlock_keeps hP x0 s h
  | referenceSourceChange x0 x1 x2 => exact execReferenceSourceChange_keeps hP.toClosedRegs x0 x1 x2 s h
  | sscApply => exact execSscApply_keeps hP.toClosedRegs s h
  | featureEnable x0 => exact execFeatureEnable_keeps hP.toClosedRegs x0 s h
  | contextBind x0 x1 x2 => exact execContextBind_keeps hP.toClosedRegs x0 x1 x2 s h
  | sequencerRun x0 x1 => exact execSequencerRun_keeps hP.toClosedRegs x0 x1 s h
  | fenceClear x0 => exact execFenceClear_keeps hP.toClosedRegs x0 s h
  | ringEnable x0 x1 x2 => exact execRingEnable_keeps hP x0 x1 x2 s h
  | rateWindow x0 => exact execRateWindow_keeps hP.toClosedRegs x0 s h
  | reportRequest => exact execReportRequest_keeps hP s h
  | keyRelease => exact execKeyRelease_keeps hP.toClosedRegs s h
  | sealedLoad x0 => exact execSealedLoad_keeps hP x0 s h
  | slotClear x0 => exact execSlotClear_keeps hP.toClosedRegs x0 s h
  | commitSvn => exact execCommitSvn_keeps hP.toClosedRegs s h
  | hostDma x0 x1 x2 x3 => exact execHostDma_keeps hP x0 x1 x2 x3 s h
  | selfTest x0 x1 => exact execSelfTest_keeps hP x0 x1 s h
  | slotConfigure x0 x1 => exact execSlotConfigure_keeps hP.toClosedRegs x0 x1 s h
  | counterWrap x0 x1 => exact execCounterWrap_keeps hP.toClosedRegs x0 x1 s h hr
  | liveRead x0 x1 x2 => exact execLiveRead_keeps hP.toClosedRegs x0 x1 x2 s h
  | snapshot => exact execSnapshot_keeps hP.toClosedRegs s h
  | userSnapshot => exact execUserSnapshot_keeps hP.toClosedRegs s h
  | snapshotLatch x0 => exact execSnapshotLatch_keeps hP.toClosedRegs x0 s h
  | clearAll => exact execClearAll_keeps hP.toClosedRegs s h
  | tagDrain => exact execTagDrain_keeps hP.toClosedRegs s h
  | lowerWordRead x0 x1 => exact execLowerWordRead_keeps hP.toClosedRegs x0 x1 s h
  | registerWrite x0 x1 x2 => exact execRegisterWrite_keeps hP x0 x1 x2 s h
  | intRearm x0 => exact execIntRearm_keeps hP.toClosedRegs x0 s h
  | smbusRegisterRead x0 => exact execSmbusRegisterRead_keeps hP.toClosedRegs x0 s h
  | smbusRegisterWrite x0 x1 => exact execSmbusRegisterWrite_keeps hP x0 x1 s h
  | smbusReportRead x0 => exact execSmbusReportRead_keeps hP.toClosedRegs x0 s h
  | smbusChallenge x0 => exact execSmbusChallenge_keeps hP.toClosedRegs x0 s h
  | perstAssert => exact execPerstAssert_keeps hP.toClosedRegs s h
  | perstRelease => exact execPerstRelease_keeps hP.toClosedRegs s h
  | pcieLinkUp x0 x1 x2 => exact execPcieLinkUp_keeps hP.toClosedRegs x0 x1 x2 s h
  | pcieLinkDown => exact execPcieLinkDown_keeps hP.toClosedRegs s h
  | powerLoss => exact execPowerLoss_keeps hP s h
  | engineResetComplete x0 => exact execEngineResetComplete_keeps hP.toClosedRegs x0 s h
  | pcieCompletionTimeout => exact execPcieCompletionTimeout_keeps hP.toClosedRegs s h
  | ideKmMessage x0 => exact execIdeKmMessage_keeps hP.toClosedRegs x0 s h
  | functionLevelReset => exact execFunctionLevelReset_keeps s h

/-- The front command leaves the queue, and what it does keeps a closed property that ignores the queue and the held events. -/
theorem step_keeps {P : State → Prop} (hP : Closed P) (hq : ∀ (s : State) (l : List Instr), P s → P { s with pending := l })
    (hh : ∀ (s : State) (l : List Instr), P s → P { s with held := l }) (s : State) (h : P s) : After P (step s) := by
  unfold step
  split
  · exact exec_keeps hP _ _ (hh _ _ (hq s _ h)) (hq s _ h)
  · rw [After_next]
    exact State.tickEdge_keeps hP hq hh s h

end Sys2Proof.Machine
end

