-- ==== Sys2Proof/Laws/Memory.lean ====
section
/-! SUPPORT. What writes to device memory and host memory do, byte by byte, and which operations leave memory as it was. -/
namespace Sys2Proof.Machine

/-! Bytes -/

theorem State.byte_setByte (s : State) (a b : Nat) (v : Byte) : (s.setByte a v).byte b = if a = b then v else s.byte b := by
  simp [State.byte, State.setByte, mapGet_set]

theorem State.setBytes_other (s : State) (a : Nat) (l : List Byte) : (s.setBytes a l) = { s with mem := (s.setBytes a l).mem } := by
  induction l generalizing s a with
  | nil => rfl
  | cons v vs ih =>
    show (s.setByte a v).setBytes (a + 1) vs = _
    rw [ih]
    rfl

/-- The bytes written, and no others, have changed. -/
theorem State.byte_setBytes (s : State) (a b : Nat) (l : List Byte) :
    (s.setBytes a l).byte b = if a ≤ b ∧ b < a + l.length then l.getD (b - a) 0 else s.byte b := by
  induction l generalizing s a with
  | nil =>
    have h : ¬(a ≤ b ∧ b < a + ([] : List Byte).length) := by simp
    rw [if_neg h]
    rfl
  | cons v vs ih =>
    show ((s.setByte a v).setBytes (a + 1) vs).byte b = _
    rw [ih, State.byte_setByte]
    by_cases h1 : a = b
    · subst h1
      have h2 : ¬(a + 1 ≤ a ∧ a < a + 1 + vs.length) := by omega
      have h3 : a ≤ a ∧ a < a + (v :: vs).length := by simp
      rw [if_neg h2, if_pos h3, if_pos rfl, Nat.sub_self]
      rfl
    · by_cases h2 : a + 1 ≤ b ∧ b < a + 1 + vs.length
      · have h3 : a ≤ b ∧ b < a + (v :: vs).length := by simp; omega
        have h4 : b - a = (b - (a + 1)) + 1 := by omega
        rw [if_pos h2, if_pos h3, h4]
        rfl
      · have h3 : ¬(a ≤ b ∧ b < a + (v :: vs).length) := by simp; omega
        rw [if_neg h2, if_neg h3, if_neg h1]

theorem State.poisonAll_mem (s : State) (gs : List Nat) : (s.poisonAll gs) = { s with poison := (s.poisonAll gs).poison } := rfl

/-- A store changes device memory and its poison alone. -/
theorem State.store_other (s : State) (a : Nat) (l : List Byte) (bad : List Nat) :
    s.store a l bad = { s with mem := (s.store a l bad).mem, poison := (s.store a l bad).poison } := by
  have h := congrArg (fun u : State => { u with poison := (s.store a l bad).poison }) (s.setBytes_other a l)
  exact h

/-- The bytes that a store writes, and no others, have changed. -/
theorem State.byte_store (s : State) (a b : Nat) (l : List Byte) (bad : List Nat) :
    (s.store a l bad).byte b = if a ≤ b ∧ b < a + l.length then l.getD (b - a) 0 else s.byte b := by
  rw [← s.byte_setBytes a b l]
  rfl

@[simp] theorem State.store_rd (s : State) (a : Nat) (l : List Byte) (bad : List Nat) (pg : Page) (f : Field) :
    (s.store a l bad).rd pg f = s.rd pg f := by rw [s.store_other a l bad]; rfl

@[simp] theorem State.store_part (s : State) (a : Nat) (l : List Byte) (bad : List Nat) (p : Nat) :
    (s.store a l bad).part p = s.part p := by rw [s.store_other a l bad]; rfl

@[simp] theorem State.put_rd (s : State) (a : Nat) (l : List Byte) (pg : Page) (f : Field) : (s.put a l).rd pg f = s.rd pg f :=
  s.store_rd a l [] pg f

@[simp] theorem State.put_part (s : State) (a : Nat) (l : List Byte) (p : Nat) : (s.put a l).part p = s.part p := s.store_part a l [] p

theorem State.byte_put (s : State) (a b : Nat) (l : List Byte) :
    (s.put a l).byte b = if a ≤ b ∧ b < a + l.length then l.getD (b - a) 0 else s.byte b := s.byte_store a b l []

theorem mem_setIns_foldl (gs l : List Nat) (g : Nat) : g ∈ gs.foldl setIns l ↔ g ∈ gs ∨ g ∈ l := by
  induction gs generalizing l with
  | nil => simp
  | cons x xs ih =>
    simp only [List.foldl_cons, ih, mem_setIns, List.mem_cons]
    constructor
    · rintro (h | h | h) <;> simp [h]
    · rintro ((h | h) | h) <;> simp [h]

/-- R370: which granules are poisoned after a store. -/
theorem State.mem_poison_store (s : State) (a : Nat) (l : List Byte) (bad : List Nat) (g : Nat) :
    g ∈ (s.store a l bad).poison ↔ g ∈ bad ∨ (g ∈ s.poison ∧ ¬(a ≤ 32 * g ∧ 32 * g + 32 ≤ a + l.length)) := by
  show g ∈ bad.foldl setIns ((s.setBytes a l).poison.filter _) ↔ _
  rw [mem_setIns_foldl, s.setBytes_other a l]
  simp only [List.mem_filter, Bool.not_eq_true', Bool.and_eq_false_iff, decide_eq_false_iff_not]
  constructor
  · rintro (h | ⟨h1, h2⟩)
    · exact .inl h
    · exact .inr ⟨h1, fun h => by rcases h2 with h2 | h2 <;> omega⟩
  · rintro (h | ⟨h1, h2⟩)
    · exact .inl h
    · exact .inr ⟨h1, by omega⟩

/-! Little-endian values -/

@[simp] theorem leBytes_length (n v : Nat) : (leBytes n v).length = n := by
  induction n generalizing v with
  | zero => rfl
  | succ n ih => simp [leBytes, ih]

theorem leNat_leBytes (n v : Nat) : leNat (leBytes n v) = v % 256 ^ n := by
  induction n generalizing v with
  | zero => simp [leBytes, leNat, Nat.mod_one]
  | succ n ih =>
    simp only [leBytes, leNat, ih, BitVec.toNat_ofNat]
    have h : 256 ^ (n + 1) = 256 * 256 ^ n := by rw [Nat.pow_succ, Nat.mul_comm]
    rw [h, Nat.mod_mul]

/-- A word reads as what was written there. -/
theorem State.bytes_put_same (s : State) (a : Nat) (l : List Byte) : (s.put a l).bytes a l.length = l := by
  apply List.ext_getElem
  · simp [State.bytes]
  · intro i h1 h2
    simp [State.bytes, State.byte_put, h2]

@[simp] theorem State.word_putWord (s : State) (a n v : Nat) : (s.putWord a n v).word a n = v % 256 ^ n := by
  have h := s.bytes_put_same a (leBytes n v)
  rw [leBytes_length] at h
  simp [State.word, State.putWord, h, leNat_leBytes]

/-! Operations that store nothing -/

theorem memory_closedRegs (s : State) : ClosedRegs (fun t => t.mem = s.mem ∧ t.poison = s.poison ∧ t.hostMem = s.hostMem) where
  other := by
    intro u t h hu
    simp only [State.kept, Prod.mk.injEq] at h
    simp [h, hu]
  wr := fun u pg f v hu => hu
  fuse := by
    intro u t h _ hu
    simp only [State.kept, Prod.mk.injEq] at h
    simp [h, hu]
  drop := by
    intro u t q h hu
    simp only [State.kept, Prod.mk.injEq] at h
    simp [h, hu]

theorem sameMemory_of_mem {s t : State} (h : t.mem = s.mem ∧ t.poison = s.poison ∧ t.hostMem = s.hostMem) : SameMemory s t := by
  refine ⟨fun a => ?_, fun a => ?_, h.2.1⟩
  · simp [State.byte, h.1]
  · simp [State.hostByte, h.2.2]

theorem SameMemory.refl (s : State) : SameMemory s s := ⟨fun _ => rfl, fun _ => rfl, rfl⟩

theorem SameMemory.trans {s t u : State} (h : SameMemory s t) (h' : SameMemory t u) : SameMemory s u :=
  ⟨fun a => (h'.1 a).trans (h.1 a), fun a => (h'.2.1 a).trans (h.2.1 a), h'.2.2.trans h.2.2⟩

/-! Properties that every change keeps -/

theorem canonical_closed : Closed State.canonical where
  other := by
    intro u t h hu
    simp only [State.kept, Prod.mk.injEq] at h
    simpa [State.canonical, h] using hu
  wr := fun u pg f v hu => ⟨hu.1, hu.2.1, mapSorted_set _ _ _ _ hu.2.2.1, hu.2.2.2⟩
  fuse := by
    intro u t h _ hu
    simp only [State.kept, Prod.mk.injEq] at h
    simpa [State.canonical, h] using hu
  drop := by
    intro u t q h hu
    simp only [State.kept, Prod.mk.injEq] at h
    exact ⟨by simpa [h] using hu.1, by simpa [h] using hu.2.1, by simpa [h] using mapSorted_filter _ q hu.2.2.1,
      by simpa [h] using hu.2.2.2⟩
  byte := fun u a v hu => ⟨mapWf_set _ _ _ _ hu.1, hu.2.1, hu.2.2.1, hu.2.2.2⟩
  host := fun u a v hu => ⟨hu.1, mapWf_set _ _ _ _ hu.2.1, hu.2.2.1, hu.2.2.2⟩
  poison := fun u l hl hu => ⟨hu.1, hu.2.1, hu.2.2.1, hl hu.2.2.2⟩
  wipe := by
    intro u t q h hu
    simp only [State.kept, Prod.mk.injEq] at h
    exact ⟨by simp [Memory.wf, mapWf, mapSorted, h], by simpa [h] using hu.2.1, by simpa [h] using mapSorted_filter _ q hu.2.2.1,
      by simp [h]⟩

end Sys2Proof.Machine
end

