-- ==== Sys2Proof/Laws/Precedence.lean ====
section
/-! SUPPORT. What holding an event for the tick edge does, said once (R381). -/
namespace Sys2Proof.Machine

theorem State.inTurn_iff (s : State) (i : Instr) : s.inTurn i = true ↔ ∀ j ∈ s.pending ++ s.held, actsBefore j i = false := by
  simp only [State.inTurn, List.all_eq_true, Bool.not_eq_true']

/-- An event acts in its turn. -/
theorem State.ranked_inTurn {s : State} {i : Instr} (h : s.inTurn i = true) (t : State) : s.ranked i t = t := by
  simp [State.ranked, h]

/-- Before its turn an event is held, and does nothing else. -/
theorem State.ranked_held {s : State} {i j : Instr} (hj : j ∈ s.pending ++ s.held) (h : actsBefore j i = true) (t : State) :
    s.ranked i t = { s with held := putRanked i s.held } := by
  have hn : ¬ s.inTurn i = true := by
    rw [State.inTurn_iff]
    exact fun ha => by simp [ha j hj] at h
  simp only [State.ranked, hn]
  rfl

/-- A command that is no event of the table is never held back. -/
theorem State.inTurn_of_unranked {i : Instr} (h : eventRank? i = none) (s : State) : s.inTurn i = true := by
  rw [State.inTurn_iff]
  intro j _
  simp only [actsBefore, h]
  cases eventRank? j <;> rfl

/-- The held events are those held before and the new one. -/
theorem mem_putRanked (i j : Instr) (l : List Instr) : j ∈ putRanked i l ↔ j = i ∨ j ∈ l := by
  induction l with
  | nil => simp [putRanked]
  | cons k l ih =>
    unfold putRanked
    split
    · simp
    · simp only [List.mem_cons, ih]
      exact ⟨fun h => h.elim (.inr ∘ .inl) (fun h => h.imp_right .inr), fun h => h.elim (.inr ∘ .inl) (fun h => h.imp_right .inr)⟩

end Sys2Proof.Machine
end

