-- ==== Sys2Proof/Tests/Slice0.lean ====
section
/-! SUPPORT. Tests: a term that each check of well-formedness refuses, small steps, and for every statement a concrete state and operands
that meet its hypotheses together, clause by clause (`witness_<statement>`). -/
namespace Sys2Proof.Tests
open Sys2Proof Sys2Proof.Machine
-- One kernel evaluation at a time: many at once ask for a thread each.
set_option Elab.async false

/-! States and operands to test on -/

/-- A state with register fields held. -/
def held (l : List (Page × Field × Nat)) (s : State) : State := l.foldl (fun s e => s.wr e.1 e.2.1 e.2.2) s

/-- A powered module at Instar 3 with every feature enabled and its link up. -/
def up : State := held [(.pwr, PWR_INSTAR_instar, 3), (.mgt, HDR_FEATURE_EN, 0x1FFF), (.hif, HIF_LINK_speed, 6), (.hif, HIF_LINK_width, 16),
  (.hif, HIF_STATE_state, 1), (.sec, SEC_MODE_engines_ok, 0xF)] { State.reset with powered := true, power := { Power.reset with running := true } }

/-- A launch of four commands of step 1. -/
def launch : Launch :=
  { ordinal := 0, entry := 0, stream := 0x3_0000, count := 4, step := 1, m := 1, issued := 0, completed := 0, status := none }

/-- A partition in normal service (MGT_PT_STATE), bound to context 0, with its sequencer running and its launch open. -/
def busy : State := held [(.part 0, MGT_PT_STATE_state, 2), (.thx 0, THX_SEQ_CTX_valid, 1), (.thx 0, THX_SEQ_CTL_run, 1)]
  { up with parts := [(0, { Part.reset with seq := { Seq.reset with launches := [launch], ell := 1 } })] }

/-- A command with four operands that neither waits nor signals. -/
def cmd (a b c d : Nat) : Cmd :=
  { waitEn := false, waitFence := 0, sigEn := false, sigFence := 0, sigPart := 0, deferred := false, waitStep := 0, waitValue := 0
    strideLin := 0, stridePar := 0, a := BitVec.ofNat 64 a, b := BitVec.ofNat 64 b, c := BitVec.ofNat 64 c, d := BitVec.ofNat 64 d }

/-- A state with its part 0 changed. -/
def withPart (f : Part → Part) (s : State) : State := s.modPart 0 f

/-- A command in flight. -/
def flying (id op : Nat) (w : Work) : Inflight := { id := id, launch := 0, index := 0, op := op, sig := none, work := w, tag := none }

/-- The state after a command. -/
def after (i : Instr) (s : State) : State := match exec i s with | .next t => t | _ => s

/-! Witnesses -/

theorem witness_StepRunsTheQueue :
    ({ State.reset with pending := [.perstAssert, .clearAll] }).pending = .perstAssert :: [.clearAll] ∧
    State.reset.pending = [] ∧ State.reset.powered = false ∧ up.pending = [] ∧ up.powered = true ∧
    (let s := { up with pending := [.abortAct], held := [.linkDown 3 false] }
     (∃ j ∈ s.pending ++ s.held, actsBefore j (.poisonConsumed 0 .command) = true) ∧ s.held.Pairwise (fun i j => actsBefore j i = false)) := by decide +kernel

theorem witness_StepKeepsCanonical : State.reset.canonical ∧ step State.reset = .next State.reset :=
  ⟨⟨rfl, rfl, rfl, List.Pairwise.nil⟩, rfl⟩

theorem witness_FusedSvnNeverFalls : step { State.reset with pending := [.perstRelease] } = .next State.reset := rfl

theorem witness_CommandsLeaveTheQueue : exec .perstRelease State.reset = .next State.reset ∧
    ∃ j ∈ ({ up with pending := [.abortAct] } : State).pending, actsBefore j (.counterWrap 0 0) = true := ⟨rfl, by decide⟩

theorem witness_CommandsThatStoreNothing : storesNothing .perstRelease = true ∧ exec .perstRelease State.reset = .next State.reset := ⟨rfl, rfl⟩

theorem witness_SingleSymbolErrorIsCorrected : (⟨35, 0x80⟩ : Upset).x ≠ 0 ∧ (⟨0, 1⟩ : Upset).x ≠ 0 := by decide

theorem witness_NopCompletesAtIssue : busy.issueLaunch 0 (cmd 0 0 0 0) = some launch ∧
    busy.signalsInside 0 (busy.newCmd 0 0 (cmd 0 0 0 0) launch .done) := ⟨by decide +kernel, by intro _ _ h; cases h⟩

/-- A state whose step mark waits at a boundary that is free, with an open step and a ladder map of depth 2 at 0x10_0000. -/
def atBoundary : State := held [(.lad 0, LAD_MAP_CFG_depth, 2), (.lad 0, LAD_MAP_BASE_base, 0x100)]
  (withPart (fun x => { x with stepOpen := some 0, seq := { x.seq with inflight := [flying 0 1 .boundary] } }) busy)

theorem witness_StepMarksAndTheirBoundary : busy.issueLaunch 0 (cmd 0 0 0 0) = some launch ∧
    atBoundary.markWaiting 0 = some (flying 0 1 .boundary) ∧
    atBoundary.boundaryFree 0 (atBoundary.stepOf 0 (flying 0 1 .boundary)) = true := by decide +kernel

/-- A kernel of 96 threads on logical clusters 0 and 23. -/
def kernelCmd : Cmd := cmd 0x1000 0x2000 (0x80_0001 + 96 * 2 ^ 24) 0

theorem witness_KernelPlacesItsThreads : busy.issueLaunch 0 kernelCmd = some launch ∧ kernelCmd.deferred = false ∧
    busy.operandAt 0 kernelCmd 1 kernelCmd.a 16 = some 0x1000 ∧ cmdAddress kernelCmd 1 kernelCmd.b = some 0x2000 ∧
    busy.kernelFits 0 (bits kernelCmd.c.toNat 0 24) (bits kernelCmd.c.toNat 24 7) = true := by decide +kernel

/-- A job of two modules on axis A, with the ports of that axis up. -/
def jobOf2 (s : State) : State := held [(.fabG, FAB_G_SYS_a, 2), (.fabG, FAB_G_JOB_DIM_a, 2), (.fabG, FAB_G_JOB_valid, 1),
  (.fabG, FAB_G_JOB_id, 7), (.port 0, FAB_PORT_STATE_link, 2), (.port 1, FAB_PORT_STATE_link, 2)] s

/-- A copy of 64 bytes inside the module, and one to the module at coordinate 1. -/
def copyCmd : Cmd := cmd 0x4_0000 0x5_0000 64 0
def sendCmd : Cmd := cmd 0x4_0000 (2 ^ 60 + 2 ^ 41 + 0x5_0000) 64 0

theorem witness_MovesCopyOrSendTheirBytes :
    (busy.issueLaunch 0 copyCmd = some launch ∧ cmdAddress copyCmd 1 copyCmd.a = some 0x4_0000 ∧
      cmdAddress copyCmd 1 copyCmd.b = some 0x5_0000 ∧ isRemote 0x4_0000 = false ∧ isRemote 0x5_0000 = false ∧
      busy.reach 0 0x4_0000 64 = true ∧ busy.reach 0 0x5_0000 64 = true) ∧
    let s := jobOf2 busy
    let dst := 2 ^ 60 + 2 ^ 41 + 0x5_0000
    s.issueLaunch 0 sendCmd = some launch ∧ cmdAddress sendCmd 1 sendCmd.a = some 0x4_0000 ∧ cmdAddress sendCmd 1 sendCmd.b = some dst ∧
      isRemote dst = true ∧ remoteTarget dst = some (1, 0x5_0000) ∧ s.feature 4 = true ∧ s.reach 0 0x4_0000 64 = true ∧
      s.firstHop 1 = some (0, true, false) ∧ s.rd (.port 0) FAB_PORT_STATE_link = 2 := by decide +kernel

/-- A ladder map of one layer with seed 1 at 0x10_0000, and a column group table at 0x2_0000: one group of scale 5 of bank 2 of wing 3,
output column block 0, of a product with K′ 256 and N 3. -/
def mapped (s : State) : State := held [(.lad 0, LAD_MAP_CFG_layers, 1), (.lad 0, LAD_MAP_BASE_base, 0x100)]
  (((s.putWord 0x10_0000 8 1).putWord 0x2_0000 8 (256 + 3 * 2 ^ 32)).putWord 0x2_0008 16 (1 + 2 ^ 64 * (3 + 2 * 8 + 5 * 256)))

def groupList : List Group := [{ scales := [{ wing := 3, bank := 2, scale := 5, rows := 0 }], col := 0 }]

/-- One token of layer 0. -/
def analogueCmd : Cmd := cmd 0x4_0000 0x5_0000 0x2_0000 1

theorem witness_AnalogueOpensItsProduct :
    let s := mapped busy
    s.issueLaunch 0 analogueCmd = some launch ∧ s.feature 0 = true ∧ bits analogueCmd.d.toNat 44 20 = 0 ∧ 0 < s.layers 0 ∧
      bits analogueCmd.d.toNat 0 32 = 1 ∧ bits analogueCmd.d.toNat 32 12 = 0 ∧ cmdAddress analogueCmd 1 analogueCmd.a = some 0x4_0000 ∧
      cmdAddress analogueCmd 1 analogueCmd.b = some 0x5_0000 ∧ cmdAddress analogueCmd 1 analogueCmd.c = some 0x2_0000 ∧
      bits (s.word 0x2_0000 8) 0 32 = 256 ∧ bits (s.word 0x2_0000 8) 32 32 = 3 ∧ s.reach 0 0x2_0000 8 = true ∧
      readGroups (fun i => s.word (0x2_0000 + 8 * i) 8) 0x20_0000 1 = some (groupList, 3) ∧
      layerWide (s.layerEntry 0 0) = false ∧ tableOk 256 3 groupList = true ∧ s.reach 0 0x2_0000 24 = true ∧
      s.reach 0 0x4_0000 1024 = true ∧ s.reach 0 0x5_0000 12 = true ∧ s.poisonedIn 0x2_0000 24 = false ∧
      s.poisonedIn (s.mapBase 0 + 0) 8 = false := by decide +kernel

/-- A seat descriptor of layer 0 for scale 5 of bank 2 of wing 3, image at 0x80_0000, of a matrix of 64 columns, at 0x6_0000. -/
def seatable (s : State) : State :=
  (mapped s).putWord 0x6_0000 32 (0x80_0000 + 2 ^ 64 * (5 * 2 ^ 12 + 2 * 2 ^ 21 + 3 * 2 ^ 26) + 2 ^ 160 * 64)

theorem witness_ReseatAcceptsItsDescriptors :
    let s := seatable busy
    let c := cmd 0x6_0000 1 0 0
    s.issueLaunch 0 c = some launch ∧ s.feature 0 = true ∧ bits c.b.toNat 0 32 = 1 ∧ s.operandAt 0 c 1 c.a (32 * 1) = some 0x6_0000 ∧
      s.poisonedIn 0x6_0000 (32 * 1) = false ∧
      ∀ d ∈ [s.seatDesc 0x6_0000], d.layer < s.layers 0 ∧ d.owner = false ∧ s.reach 0 d.image imageSize = true ∧
        s.reach 0 (s.mapBase 0 + 8 * d.layer) 8 = true ∧ s.seatReach 0 d = true ∧ layerWide (s.layerEntry 0 d.layer) = false := by decide +kernel

/-- The same of an owner's descriptor whose master values the commit left as they were, and of a wide layer. -/
theorem witness_ReseatAcceptsItsDescriptors_owner :
    (let s := withPart (fun x => { x with same := [(0, 0x100_0000)] })
       ((seatable busy).putWord 0x6_0000 32 (0x80_0000 + 2 ^ 64 * (5 * 2 ^ 12 + 2 * 2 ^ 21 + 3 * 2 ^ 26 + 2 ^ 29) + 2 ^ 160 * 64 +
         2 ^ 192 * 0x100_0000))
     let d := s.seatDesc 0x6_0000
     d.owner = true ∧ s.skipped 0 1 = false ∧ s.seatReach 0 d = true ∧ layerWide (s.layerEntry 0 d.layer) = false ∧
       (s.part 0).same.contains (s.rd (.hch 0) HCH_COMMIT_step, d.master) = true) ∧
    let s := (seatable busy).putWord 0x10_0000 8 (2 ^ 36 + 1)
    layerWide (s.layerEntry 0 (s.seatDesc 0x6_0000).layer) = true ∧ s.seatReach 0 (s.seatDesc 0x6_0000) = true := by decide +kernel

/-- An update descriptor of one chunk of layer 0, header index 0, at 0x7_0000. -/
def updatable (s : State) : State := (mapped s).put 0x7_0000
  (leBytes 8 0x100_0000 ++ leBytes 8 0x200_0000 ++ leBytes 8 0x300_0000 ++ leBytes 8 0x400_0000 ++ leBytes 8 0x500_0000 ++
    leBytes 8 0 ++ leBytes 8 0 ++ leBytes 8 (2 ^ 24))

theorem witness_UpdateBeginsItsPass :
    let s := updatable busy
    let c := cmd 0x7_0000 1 0 0
    let d := readUpdDesc (s.bytes 0x7_0000 64)
    s.issueLaunch 0 c = some launch ∧ (s.part 0).pass = none ∧ bits c.b.toNat 0 32 = 1 ∧
      s.operandAt 0 c 1 c.a (64 * 1) = some 0x7_0000 ∧ s.poisonedIn 0x7_0000 (64 * 1) = false ∧ d.layer < s.layers 0 ∧
      d.bf16W = false ∧ d.chunks = 1 ∧ ∀ r ∈ d.ranges, s.reach 0 r.1 r.2 = true := by decide +kernel

/-- Collectives of 32 bytes under tag 9 on axis A: element format 2, and the operation `op`. -/
def collCmd (op : Nat) : Cmd := cmd 0x4_0000 0x5_0000 (32 + 2 * 2 ^ 40 + op * 2 ^ 46 + 9 * 2 ^ 48) 0

theorem witness_RingCollectivesWriteTheirResult :
    let s := jobOf2 busy
    let x : CollAxis := ⟨0, 2, 0, true, 7, 1, 0, 9⟩
    s.collAxis 0 1 (collCmd 0) = x ∧ s.collAxis 0 1 (collCmd 2) = x ∧
    s.collectiveRuns 0 (collCmd 0) launch 1 64 32 (ringPorts (collCmd 0) x) 0x4_0000 0x5_0000 ∧
    s.collectiveRuns 0 (collCmd 2) launch 2 32 64 (ringPorts (collCmd 2) x) 0x4_0000 0x5_0000 ∧
    s.collectiveRuns 0 (collCmd 1) launch 3 64 64 (ringPorts (collCmd 1) x) 0x4_0000 0x5_0000 := by
  unfold State.collectiveRuns; decide +kernel

theorem witness_ShiftsPassBytesOn :
    let s := jobOf2 busy
    let c := cmd 0x4_0000 0x5_0000 (32 + 2 * 2 ^ 40 + 2 * 2 ^ 46) 0
    let x : CollAxis := ⟨0, 2, 0, true, 7, 1, 0, 0⟩
    s.collAxis 0 1 c = x ∧ s.collectiveRuns 0 c launch 5 32 32 (shiftPorts true false x) 0x4_0000 0x5_0000 ∧
    s.collectiveRuns 0 c launch 6 32 32 (shiftPorts false true x) 0x4_0000 0x5_0000 ∧ x.shiftEnds true false = (true, true) ∧
    x.shiftEnds false true = (false, true) ∧ x.shiftEnds true true = (true, false) := by
  unfold State.collectiveRuns; decide +kernel

theorem witness_FlagRoundsAndHitchOpens :
    let c := cmd 0 0 0 0
    busy.issueLaunch 0 c = some launch ∧ busy.feature 5 = true ∧ busy.collsOf 0 < 4 ∧ busy.boundaryFree 0 1 = true ∧
      busy.signalsInside 0 (busy.newCmd 0 8 c launch .done) ∧
    let s := held [(.hch 0, HCH_OPEN_step, 1), (.hch 0, HCH_STATE_state, hchOpen)] busy
    s.issueLaunch 0 c = some launch ∧ s.feature 5 = true ∧ launch.step = s.rd (.hch 0) HCH_OPEN_step ∧ s.hch 0 = hchOpen :=
  ⟨by decide +kernel, by decide +kernel, by decide +kernel, by decide +kernel, (by intro _ _ h; cases h), by decide +kernel⟩

/-- A shard table of one entry at 0x8_0000 whose descriptors lie at 0x7_0000 and 0x7_1000; `w` is its third word. -/
def sharded (w : Nat) (s : State) : State := (updatable s).putWord 0x8_0000 24 (0x7_0000 + 2 ^ 64 * 0x7_1000 + 2 ^ 128 * w)

def entryOf (valid : Bool) : ShardEntry := { loc := 0x7_0000, peer := 0x7_1000, coord := 0, second := false, valid := valid }

theorem witness_HitchPhasesReadTheirTable :
    let s := sharded (2 ^ 31) busy
    let t := sharded 0 busy
    let c := cmd 0 0 1 0x8_0000
    let e := cmd 0 0 0 0x8_0000
    (s.issueLaunch 0 c = some launch ∧ s.tableReads 0 c launch 0 1 [entryOf true] ∧ s.rd (.upd 0) UPD_NF_set = 0 ∧
      s.feature 8 = true ∧ (s.part 0).staged = []) ∧
    (t.issueLaunch 0 e = some launch ∧ t.tableReads 0 e launch 0 1 [entryOf false] ∧
      t.signalsInside 0 (t.newCmd 0 8 e launch .done)) ∧
    s.issueLaunch 0 e = some launch ∧ s.tableReads 0 e launch 0 1 [entryOf true] :=
  ⟨⟨by decide +kernel, ⟨0x8_0000, by decide +kernel⟩, by decide +kernel⟩,
   ⟨by decide +kernel, ⟨0x8_0000, by decide +kernel⟩, by intro _ _ h; cases h⟩, by decide +kernel, ⟨0x8_0000, by decide +kernel⟩⟩

/-- One record of chunk 0 of layer 0 at step 3 at 0x9_0000, and a checkpoint key of context 0. -/
def restorable (s : State) : State :=
  { (updatable s).put 0x9_0000 (leBytes 8 0 ++ leBytes 8 3 ++ leBytes 8 0 ++ leBytes 8 0x20_0000) with
    security := { s.security with slots := [(4, { usage := 1, ctx := 0, key := [] })] } }

theorem witness_HitchResumesAndRestores :
    (let s := sharded (2 ^ 31) busy
     let c := cmd 0 0 (1 + 3 * 2 ^ 16) 0x8_0000
     s.issueLaunch 0 c = some launch ∧ bits c.c.toNat 0 16 = 1 ∧ s.tableReads 0 c launch 0 1 [entryOf true]) ∧
    let s := restorable busy
    let c := cmd 0 0x9_0000 1 0
    s.issueLaunch 0 c = some launch ∧ cmdAddress c 1 c.b = some 0x9_0000 ∧ s.slotFor 0 1 = some (4, ⟨1, 0, []⟩) ∧
      bits c.c.toNat 0 32 = 1 ∧ s.feature 8 = true ∧ (readRecord (s.bytes 0x9_0000 128)).len = 0x20_0000 ∧
      s.reach 0 0x9_0000 (128 + 0x20_0000) = true ∧ s.poisonedIn 0x9_0000 128 = false ∧
      s.poisonedIn (0x9_0000 + 128) 0x20_0000 = false :=
  ⟨⟨by decide +kernel, by decide +kernel, ⟨0x8_0000, by decide +kernel⟩⟩, by decide +kernel⟩

/-- What the record decrypts to is opaque: where its digest is the record's, the restore has its plaintext. -/
theorem witness_HitchRestore_opens (l : List Byte) (k : KeySlot) (s : State) (a : Nat)
    (hp : s.poisonedIn (a + 128) (readRecord (s.bytes a 128)).len = false)
    (hg : Config.gcmOpen k.key (s.bytes (a + 0x28) 12) (s.bytes a 0x38) (s.bytes (a + 128) (readRecord (s.bytes a 128)).len)
      (s.bytes (a + 0x38) 16) = some l)
    (hd : (readRecord (s.bytes a 128)).digestOf l = (readRecord (s.bytes a 128)).digest) : s.openRecord k a = some l := by
  simp only [State.openRecord, hp, hg, hd, Bool.false_eq_true, if_false, if_true]

/-! Threads and clusters -/

/-- A thread that can issue, with address register r holding 0x1000 × r. -/
def thread : Thread :=
  { cmd := 0, pc := 0x100, a := (List.range 15).map (fun r => (r + 1, BitVec.ofNat 64 (0x1000 * (r + 1)))), c := [], st := .ready, deferred := false }

/-- Cluster 0 of partition 0 with the given record beside thread 3. -/
def clustered (f : Cluster → Cluster) (s : State) : State := { s with clusters := [(0, f { Cluster.reset with threads := [(3, thread)] })] }

def tinstr (ra rb : Fin 16) (f imm32 imm64 : Nat) : TInstr :=
  { ra := ra, rb := rb, f := BitVec.ofNat 16 f, imm32 := BitVec.ofNat 32 imm32, imm64 := BitVec.ofNat 64 imm64 }

theorem witness_ThreadInstructionsChangeTheirThread :
    (clustered id busy).issuing? 0 0 3 = some thread ∧ (tinstr 7 0 0 0 0).ra.val < 8 ∧ 8 ≤ (tinstr 8 0 0 0 0).ra.val ∧
      thread.counter 7 ≠ 1 ∧ ({ thread with c := [(7, 1)] } : Thread).counter 7 = 1 := by decide +kernel

/-- A MOVE of 256 bytes inward, 0x2000 in device memory to 0x3000 in the tile buffers. -/
def moveIn : MoverReq := ⟨0, 3, 0x2000, 0x3000, 256, false, 0, false, false⟩

theorem witness_ThreadOperationsJoinTheirQueue :
    let s := clustered id busy
    let x := s.cluster 0 0
    s.physCluster 0 0 = 0 ∧ s.issuing? 0 0 3 = some thread ∧
      (blockProd? thread (tinstr 1 2 0x42 0 0) 3).isSome = true ∧ hasRoom thread.deferred x.mmaQ.length = true ∧
      s.reach 0 (thread.areg 1 + 0x100).toNat 128 = true ∧ hasRoom thread.deferred x.vecQueued = true ∧
      moverReq? thread (tinstr 2 3 255 0 0) x.nextReq 3 = some moveIn ∧
      s.reach 0 moveIn.device moveIn.deviceLen = true ∧ x.moverRoom 3 = true := by decide +kernel

/-- Requests out of the tile buffers, of the wide view and of its raw words, converted and cleared, and inward into each view. -/
def moveOutMx : MoverReq := ⟨1, 3, 0x3000, 0x2000, 256, true, 6, false, true⟩
def moveOutWide : MoverReq := ⟨2, 3, 2 * 2 ^ 61 + 0x4000, 0x2000, 256, true, 0, false, true⟩
def moveInWide : MoverReq := ⟨3, 3, 0x2000, 2 * 2 ^ 61 + 0x4000, 256, false, 0, false, false⟩
def moveOutRaw : MoverReq := ⟨4, 3, 2 * 2 ^ 61 + wideSize, 0x2000, 96, true, 0, false, true⟩
def moveInRaw : MoverReq := ⟨5, 3, 0x2000, 2 * 2 ^ 61 + wideSize, 96, false, 0, false, false⟩

theorem witness_TileMoverMovesItsBytes :
    let x := (clustered (fun x => { x with mover := [moveIn, moveOutMx, moveOutWide, moveInWide, moveOutRaw, moveInRaw] }) busy).cluster 0 0
    (x.mover.find? (fun q => q.id == 0) = some moveIn ∧ localPlace moveIn.side = some (.tile, 0x3000)) ∧
    (x.mover.find? (fun q => q.id == 1) = some moveOutMx ∧ localPlace moveOutMx.side = some (.tile, 0x3000)) ∧
    (x.mover.find? (fun q => q.id == 2) = some moveOutWide ∧ localPlace moveOutWide.side = some (.wide, 0x4000)) ∧
    (x.mover.find? (fun q => q.id == 3) = some moveInWide ∧ localPlace moveInWide.side = some (.wide, 0x4000)) ∧
    (x.mover.find? (fun q => q.id == 4) = some moveOutRaw ∧ localPlace moveOutRaw.side = some (.wide, wideSize)) ∧
    (x.mover.find? (fun q => q.id == 5) = some moveInRaw ∧ localPlace moveInRaw.side = some (.wide, wideSize)) := by decide +kernel

/-- A block product of FP8 operands at 0 and 0x2_0000 of the tile buffers, written as FP32 to tile destination 5. -/
def block : BlockProd := ⟨3, 0, 0x2_0000, 0, 0, 0, 0, 0, 0, 5, false, 0x3F80_0000, 16⟩

theorem witness_BlockProductIsCheckedThenWritten :
    let s := clustered (fun x => { x with mmaQ := [block] }) busy
    (s.cluster 0 (s.physCluster 0 0)).mmaQ = block :: [] ∧ s.destPending 0 0 block = false := by decide +kernel

/-- A block that waits for its recompute, and an audit. -/
def waits : Recompute := { source := 0, prod := block, tile := [], bad := false, select := true, audit := false, orig := [] }
def audited : Recompute := { waits with audit := true, orig := block.product waits.operands [] }

def recomputing : State := { State.reset with parts := [(0, { Part.reset with recompute := [audited, waits] })] }

theorem witness_BlocksAndClustersAreReplaced :
    (recomputing.nextCluster 0 0 = some 1 ∧ (recomputing.part 0).recompute.find? (fun q => !q.audit) = some waits ∧
      (recomputing.part 0).recompute.find? (fun q => q.audit) = some audited ∧
      audited.prod.product audited.operands [] = audited.orig) ∧
    let s := withPart (fun x => { x with retiring := [⟨2, 24⟩] }) busy
    (s.part 0).retiring.find? (fun q => s.drained 0 q.logical) = some ⟨2, 24⟩ ∧ s.physCluster 0 2 = 2 :=
  ⟨⟨by decide +kernel, rfl, rfl, by simp only [audited, waits, Recompute.operands]⟩, by decide +kernel⟩

/-- A descriptor of op `op` at 0xA_0000 with one FP32 element: x at 0x4_0000, y and z immediate 1.0, d at 0x5_0000. -/
def descriptor (op : Nat) : List Byte :=
  leBytes 8 (op + 2 ^ 21 + 2 ^ 22) ++ leBytes 8 0 ++ leBytes 4 1 ++ List.replicate 12 0 ++ leBytes 8 0x4_0000 ++ leBytes 16 0 ++
    leBytes 8 0x3F80_0000 ++ leBytes 16 0 ++ leBytes 8 0x3F80_0000 ++ leBytes 16 0 ++ leBytes 8 0x5_0000 ++ leBytes 16 0

def vecItem : VecItem := { addr := 0xA_0000, thread := 3, ran := false }
def vecState (op : Nat) : State := clustered (fun x => { x with vecQ := [{ vecItem with ran := true }, vecItem] }) (busy.put 0xA_0000 (descriptor op))

theorem witness_VectorOperationsStoreTheirResult :
    (∀ op ∈ [1, 2, 3, 4, 5, 6, 7], let s := vecState op
      let d := readDesc (s.bytes 0xA_0000 128)
      (s.cluster 0 (s.physCluster 0 0)).vecQ.find? (fun q => !q.ran) = some vecItem ∧ s.clusterHeld 0 0 = false ∧
        s.poisonedIn 0xA_0000 128 = false ∧ d.op = op ∧ s.refuses 0 0xA_0000 d = 0 ∧ d.empty = false ∧ d.rows = 1 ∧ d.e 0 = 1 ∧
        d.reduce = 0 ∧ d.tail ≠ 1 ∧ d.d.space? = some .device) ∧
    let s := vecState 1
    (s.cluster 0 (s.physCluster 0 0)).vecQ = { vecItem with ran := true } :: [vecItem] := by decide +kernel

/-! The analogue store -/

/-- A product of one token with K′ 256 and N 3 in one column group, its rotated block, and the segment of its activations. -/
def product : Product := { id := 0, layer := 0, src := 0x4_0000, dst := 0x5_0000, tokens := 1, kp := 256, n := 3, groups := groupList,
                           nonFinite := some false, poisoned := false, outputs := [] }
def rotBlock : RotBlock := { product := 0, token := 0, block := 0, x := List.replicate 256 0x3F80_0000 }
def segment (code : BitVec 4) (scale : BitVec 16) : Segment :=
  { product := 0, token := 0, rowBlock := 0, kind := .a4, codes := List.replicate 1024 code, scales := List.replicate 4 scale }
def upSegment : UpSegment := { wing := 3, wire := wireOf (segment 1 0x3C00), overflow := false }

/-- Its tile in wing 3, at a rung, and an operation of it. -/
def tile (rung left : Nat) : Tile :=
  { newTile 0 0 0 0 0 { wing := 3, bank := 2, scale := 5, rows := 0 } rung true false with left := left, need := 0 }
def operation : ScaleOp :=
  { id := 0, tile := 0, pass := { kind := .a4, lo := 0, hi := 1024, weight := 1 }, rank := 0, gain := 0, bank := 2, sc := 5 }

/-- Partition 0 with that product open and wing 3 powered, calibrated and granted, holding the given record. -/
def analogue (f : Wing → Wing) : State :=
  held [(.wing 0 3, WNG_STATE_power, 2), (.wing 0 3, WNG_STATE_calibrated, 1), (.wing 0 3, WNG_TOKENS_grant, 16)]
    { withPart (fun x => { x with products := [product], nextProd := 1, rot := [rotBlock], up := [upSegment] }) (mapped busy) with
      wings := [(3, f { Wing.reset with due := [(2, 2 ^ 21)] })] }

theorem witness_SegmentsReachTheirTiles :
    let s := analogue id
    (s.physWing? 0 3 = some 3 ∧ s.product? 0 0 = some product ∧ upSegment.overflow = false ∧
      malformed (segmentOf upSegment.wire) = false ∧ malformed (segmentOf (wireOf (segment 1 0x0001))) = true) ∧
    s.nextUp 0 3 = some (upSegment, s.modPart 0 (fun x => { x with up := x.up.erase upSegment })) :=
  ⟨by decide +kernel, rfl⟩

/-- The wing with the operation waiting, its segment and its tile. -/
def issuing (code : BitVec 4) (left : Nat) : State :=
  analogue (fun x => { x with waiting := [operation], tiles := [tile 0 left], segs := [segment code 0x3C00], nextTile := 1, nextOp := 1 })

theorem witness_ScaleOperationsIssue :
    (let s := issuing 1 1
     (s.wing 0 3).waiting = operation :: [] ∧ s.opReady 0 3 3 operation (tile 0 1) product (segment 1 0x3C00) 5 ∧
       (driven (segment 1 0x3C00) 0 1024 ≠ [] ∧ s.restoreDue 0 3 2 = false ∧ s.mayIssue 0 3 5 product (tile 0 1) = true)) ∧
    let s := issuing 0 2
    (s.wing 0 3).waiting = operation :: [] ∧ s.opReady 0 3 3 operation (tile 0 2) product (segment 0 0x3C00) 5 ∧
      (driven (segment 0 0x3C00) 0 1024 = [] ∧ 2 ≤ (tile 0 2).left) := by
  unfold State.opReady; decide +kernel

theorem witness_ScaleOperationsEnd :
    let s := analogue (fun x => { x with running := [operation], tiles := [tile 0 1], segs := [segment 1 0x3C00] })
    s.inTurn (.scaleOperationEnd 0 3 0) = true ∧ (s.part 0).actions = [] ∧
      s.opEnds 0 3 3 0 operation (tile 0 1) product (segment 1 0x3C00) ∧ (tile 0 1).closed = false ∧ (tile 0 1).normal = true ∧
      ((tile 0 1).rung = 0 ∧ operation.pass.kind = .a4 ∧ (tile 0 1).left = 1 ∧ (tile 0 1).need = 0 ∧ (tile 0 1).acc = [] ∧
        (tile 0 1).bank = operation.bank ∧ s.tileScale? 0 3 (tile 0 1) = some operation.sc) := by
  unfold State.opEnds; decide +kernel

/-- What the converters measure is a free value: with no deviation large enough no column saturates and the check holds. -/
theorem witness_ScaleOperationsEnd_checks (h : ∀ n, Config.analogueDeviation n = 0) :
    (readScale (Scale.reset 5) 0 0 []).saturated = false := by
  simp only [readScale, Reading.saturated, h]
  decide +kernel

theorem witness_RotationsAreFormed :
    (mapped busy).stopped (isRotation 0) = false ∧
    (let s := withPart (fun x => { x with products := [product] }) (mapped busy)
     s.product? 0 0 = some product ∧ 0 < product.tokens ∧ 0 < product.kp / 256 ∧ s.rotated? 0 0 0 0 = none) ∧
    let s := mapped busy
    0 < s.layers 0 ∧ s.reach 0 0x4_0000 1024 = true ∧ s.reach 0 0x5_0000 1024 = true := by decide +kernel

/-- A granule of output of the one column group. -/
def outGranule (n : Nat) : OutGranule := { product := 0, token := 0, group := 0, index := n, bits := 0 }

theorem witness_TermsAndOutputsAreFormed :
    (let s := analogue (fun x => { x with tiles := [{ tile 3 0 with closed := true }] })
     let tl := { tile 3 0 with closed := true }
     s.physWing? 0 3 = some 3 ∧ s.tile? 0 3 0 = some tl ∧ s.product? 0 tl.product = some product ∧
       (s.quarters? 0 product tl.token (product.gscale tl).rows).isSome = true ∧ tl.rung = 3 ∧ tl.closed = true ∧ tl.l3 = [] ∧
       tl.held = false ∧ s.reaches 0 (s.scaleRanges 0 3 tl.bank tl.scale)) ∧
    let s := analogue (fun x => { x with tiles := [{ tile 0 0 with closed := true, ran := true }], outQ := (List.range 11).map outGranule })
    let v := s.deliver 0 0 0 [0] (s.linkLoad 0)
    s.product? 0 0 = some product ∧ 0 < product.groups.length ∧ product.outputs.contains (0, 0) = false ∧
      (List.range product.groups.length).filter (fun gi => (product.groups.getD gi ⟨[], 0⟩).col == 0) = [0] ∧
      v.groupReady 0 product 0 0 = true ∧ v.reaches 0 (v.correctionRanges 0 product 0 0) ∧ product.outputs.length + 1 = product.tokens * product.cols.length ∧
      ({ product with tokens := 2 } : Product).outputs.length + 1 ≠ 2 * product.cols.length := by
  unfold State.reaches; decide +kernel

/-- A scale of bank 2 of wing 3 with a full monitor window, without and with a deviation. -/
def monitored (sd : Int) : State :=
  { busy with scales := [(scaleKey 0 3 2 5, { Scale.reset 5 with mon := { Monitor.reset with n := 64, nd := 64, sd := sd } })] }

theorem witness_MonitorAndStormsFollowTheirRuns :
    (∀ e ∈ [((0 : Int), false), (100000, true)], let s := held [(.lad 0, LAD_MON_CTL_window, 6), (.lad 0, LAD_CTL_mode_eff, 0)] (monitored e.1)
      let x := s.scale 0 3 2 5
      s.monWindow 0 ≤ x.mon.n ∧ x.mon.deviates (s.rd (.lad 0) LAD_MON_CTL_drift_lim) = e.2 ∧ (s.wing 0 3).tiles = [] ∧
        s.normalService 0 = true) ∧
    (let s := held [(.lad 0, LAD_STATUS_storm_run, 255)] busy
     s.inStorm 0 = false ∧ s.stormSteps 0 ≤ s.rd (.lad 0) LAD_STATUS_storm_run) ∧
    let s := held [(.lad 0, LAD_STATUS_clear_run, 255), (.lad 0, LAD_STATUS_storm, 1)] busy
    s.inStorm 0 = true ∧ s.stormSteps 0 ≤ s.rd (.lad 0) LAD_STATUS_clear_run := by decide +kernel

theorem witness_RowsAreRestoredAndRead :
    let s := held [(.wing 0 3, WNG_STATE_power, 2), (.scl 0 3, SCL_ROW_CTL_go, 1), (.clk, CLK_PLL_STABLE_wing, 1)] busy
    let x := s.scale 0 3 2 5
    (s.mayRestore 0 3 2 = true ∧ s.reseatsRow 0 3 2 5 0 = false ∧ x.restored = true ∧ x.colmap.all (fun e => e.1 != 2) = true ∧
      x.disabled.contains (0 * 264 + 7) = false) ∧
    s.resetting.contains 0 = false ∧ s.rd (.scl 0 3) SCL_ROW_CTL_go = 1 ∧
    (let u := { s with wings := [(3, { Wing.reset with due := [(0, 2 ^ 21)] })] }
     u.sensed? 0 3 = some (0, 0) ∧ u.sensingWaits 0 3 0 0 = false) ∧
    (s.selected? 0 3 = some (0, 0) ∧ s.on .sec SEC_MODE_confidential = false ∧ (s.scale 0 3 0 0).restored = true) ∧
    (held [(.sec, SEC_MODE_confidential, 1)] s).sensed? 0 3 = none ∧ (held [(.scl 0 3, SCL_SELECT_scale, 600)] s).sensed? 0 3 = none := by
  decide +kernel

/-- An output queue that is full. -/
theorem witness_RowsAreRestoredAndRead_full : ({ Wing.reset with outQ := List.replicate 65526 (outGranule 0) } : Wing).outFull = true := by
  simp only [Wing.outFull, List.length_replicate, decide_eq_true_eq]; omega

/-- A commit seat of scale 5 of bank 2 of wing 3, accepted under step 7, whose image at 0x80_0000 is of that step. -/
def seat : Seat := { id := 0, kind := .commit, cmd := none, lw := 3, bank := 2, ls := 5, pw := 3, ps := 5, under := 7, c := 7, layer := 0, seed := 1
                     k0 := 0, n0 := 0, nTotal := 64, image := 0x80_0000, checked := false, rows := [], f := [], rho := 0, stuck := false
                     reform := false }

/-- The seat in service, with an image of step `c` and flags; the maps lie above it. -/
def seating (t : Seat) (c flags : Nat) : State :=
  held [(.hch 0, HCH_COMMIT_step, 7), (.upd 0, UPD_RS_MIRROR_BASE_base, 0x200), (.upd 0, UPD_RS_SIDE_BASE_base, 0x2_0000),
    (.upd 0, UPD_RS_WEAR_LIM_limit, 0), (.upd 0, UPD_RS_DEFECT_LIM_limit, 2), (.wing 0 3, WNG_STATE_power, 2)]
    { (withPart (fun x => { x with seats := [t], nextSeat := 1 }) busy).putWord (0x80_0000 + imageHead) 12 (c + 2 ^ 64 * flags) with
      wings := [(3, { Wing.reset with due := [(2, 2 ^ 21)] })] }

/-- The same with the scale it writes as `f` makes it. -/
def onScale (f : Scale → Scale) (s : State) : State := { s with scales := [(scaleKey 0 3 2 5, f (Scale.reset 5))] }

theorem withinLimits_seating (s : State) (h : s.rd (.upd 0) UPD_RS_WEAR_LIM_limit = 0 ∧ (s.scale 0 3 2 5).wear < 0xFFFF_FFFF ∧
    (s.scale 0 3 2 5).disabled.length < max 1 (s.rd (.upd 0) UPD_RS_DEFECT_LIM_limit)) : s.withinLimits 0 3 2 5 :=
  ⟨fun _ => h.2.1, fun e => absurd h.1 e, h.2.2⟩

/-- SEAT_TILE: an image of the commit step, one that is marked unchanged, and one of another step. -/
theorem witness_SeatingsTakeImagesAndComplete :
    ∀ e ∈ [(7, 0), (7, 1), (6, 0)], let s := seating seat e.1 e.2
      s.seat? 0 0 = some seat ∧ seat.kind = .commit ∧ seat.checked = false ∧ s.openTile 0 3 2 5 = false ∧ s.mirrorPending 0 7 = false ∧
        s.physWing? 0 3 = some 3 ∧ s.physScale? 0 3 2 5 = some 5 ∧ (s.scale 0 3 2 5).role ≠ 3 ∧
        s.reaches 0 ((0x80_0000, imageSize) :: s.scaleRanges 0 3 2 5) ∧ s.poisonedIn (0x80_0000 + imageHead) 64 = false ∧
        (s.word (0x80_0000 + imageHead) 8 == s.rd (.hch 0) HCH_COMMIT_step) = (e.1 == 7) ∧
        bit (s.word (0x80_0000 + imageHead + 8) 4) 0 = (e.2 == 1) ∧ bit (s.word (0x80_0000 + imageHead + 8) 4) 1 = false := by
  unfold State.reaches; decide +kernel

/-- RESEAT_ROW_WRITE: a row of a commit seat, and of a load of a scale that nothing seats, with a column that fails its first verification. -/
theorem witness_SeatingsTakeImagesAndComplete_rows :
    ∀ t ∈ [{ seat with checked := true, rows := [9, 10], f := List.replicate 256 0x3C00 },
        { seat with kind := .spareLoad, checked := true, rows := [9, 10] }],
      let s := seating t 7 0
      s.seat? 0 0 = some t ∧ t.rows = 9 :: [10] ∧ s.rowWaits 0 t 9 = false ∧ s.reaches 0 (s.scaleRanges 0 3 2 5) ∧
        (s.scale 0 3 2 5).disabled.contains (9 * 264 + 0) = false ∧ (s.scale 0 3 2 5).disabledIn 0 < 8 ∧
        bit (s.rd (.upd 0) (HDR_ERRCNT 40)) 31 = false := by
  unfold State.reaches; decide +kernel

/-- SEAT_COMPLETE and SPARE_LOAD_COMPLETE, the latter of a scale that is seated and of one that is not. -/
theorem witness_SeatingsTakeImagesAndComplete_ends :
    (let t := { seat with checked := true, f := List.replicate 256 0x3C00 }
     let s := seating t 7 0
     (s.seat? 0 0 = some t ∧ t.stuck = false ∧ t.rows = [] ∧ t.f.length = 256 ∧ s.loading 0 t = false ∧
       (s.wing 0 3).operates 2 5 = false ∧ s.reaches 0 (s.scaleRanges 0 3 2 5)) ∧ s.withinLimits 0 3 2 5) ∧
    ∀ b ∈ [true, false],
      let t := { seat with kind := .spareLoad }
      let s := withPart (fun x => { x with seated := if b then [logicalScale 3 2 5] else [] }) (onScale (fun x => { x with role := 3 }) (seating t 7 0))
      (s.seat? 0 0 = some t ∧ t.kind ≠ .commit ∧ t.rows = [] ∧ (s.scale 0 3 2 5).role = 3 ∧ s.fromMirror 0 t = b ∧
        s.reaches 0 (s.scaleRanges 0 3 2 5) ∧ (s.part 0).seats = [t]) ∧ s.withinLimits 0 3 2 5 :=
  ⟨⟨by unfold State.reaches; decide +kernel, withinLimits_seating _ (by decide +kernel)⟩, fun b hb => by
    rcases b with _ | _ <;> exact ⟨by unfold State.reaches; decide +kernel, withinLimits_seating _ (by decide +kernel)⟩⟩

/-! Updates -/

def updateDesc : UpdDesc := readUpdDesc ((updatable State.reset).bytes 0x7_0000 64)

/-- A pass of partition 0 at step 2, with its hitch open and its flag resolved as `nf`; constants (SGD form 4) at 0xB_0000, gradient header
at 0x400_0000 and chunk header at 0xC_0000, whose step is `hdr`. -/
def passing (u : UpdPass) (nf hdr : Nat) : State :=
  held [(.upd 0, UPD_NF_resolved, 1), (.upd 0, UPD_NF_set, nf), (.upd 0, UPD_HITCH_STEP_step, 2), (.upd 0, UPD_CONST_BASE_base, 0xB0),
    (.upd 0, UPD_HDR_BASE_base, 0xC0), (.hch 0, HCH_STATE_state, hchOpen)]
    ((((withPart (fun x => { x with pass := some u }) (updatable busy)).putWord 0xB_0000 16 (2 + 4 * 2 ^ 64)).putWord 0x400_0000 8 2).putWord
      0xC_0000 8 hdr)

def newPass : UpdPass := { cmd := 0, h := 2, descs := [updateDesc], classified := false, jobs := [], flying := [], ratios := [], refused := false, stopped := false
                           consts := [], prevConsts := [] }
def job (cls : ChunkClass) (frozen : List Nat) : ChunkJob := { desc := 0, i := 0, k := 0, cls := cls, frozen := frozen }

theorem witness_UpdatePassesRunAndEnd :
    (∀ nf ∈ [0, 1], let s := passing newPass nf 1
      s.inTurn (.updatePass 0) = true ∧ s.abortWaits 0 newPass = false ∧ s.reaches 0 (s.passRanges 0 newPass) ∧
        (s.part 0).pass = some newPass ∧ newPass.classified = false ∧ s.rd (.upd 0) UPD_NF_resolved = 1 ∧ s.rd (.upd 0) UPD_NF_set = nf ∧
        s.constsOk 0 2 = true ∧ s.gradPresent updateDesc 2 = true ∧ (∀ e ∈ s.classify 0 2 updateDesc, e.2.isSome = true) ∧
        s.hch 0 = hchOpen) ∧
    (passing newPass 0 9).classify 0 2 updateDesc = [(0, none)] ∧
    (∀ j ∈ [job .current [], job .due [], job .behind []],
      let u := { newPass with classified := true, jobs := [j] }
      let s := passing u 0 1
      (s.part 0).pass = some u ∧ s.stopped (isUpdate 0) = false ∧ s.reaches 0 (s.passRanges 0 u) ∧ u.descs[j.desc]? = some updateDesc ∧
        updateDesc.owners = 0 ∧ u.flying = []) := by
  unfold State.reaches; decide +kernel

/-- UPDATE_PASS_END: a pass that was not refused and updated nothing, and one that was refused and stopped. -/
theorem witness_UpdateBeginsItsPass_ends :
    ∀ u ∈ [{ newPass with classified := true }, { newPass with classified := true, refused := true, stopped := true }],
      let s := passing u 0 1
      (s.part 0).pass = some u ∧ u.classified = true ∧ u.jobs = [] ∧ u.flying = [] ∧ s.reaches 0 (s.passRanges 0 u) ∧
        ((∀ r ∈ u.ratios, r.any = false) ∨ u.stopped = true) ∧ (s.part 0).hitch.refused = false := by
  unfold State.reaches; decide +kernel

/-- A chunk all of whose groups are frozen. -/
theorem witness_UpdatePassesRunAndEnd_frozen (l : List Nat) (h : l = List.range (updateDesc.elems / 64)) :
    (job .due l).frozen = List.range (updateDesc.elems / 64) ∧ (job .due l).cls ≠ .current := ⟨h, nofun⟩

/-! Ports -/

/-- A frame with nothing in its slots, and one in the replay buffer, whose bytes do not matter. -/
def frame (seq : Nat) : Frame := frameOf seq 0 false false .idle [0, 0, 0, 0] []
def sentFrame (seq times : Nat) : SentFrame := ⟨seq, [], [], times⟩
def arrival (l : List (Fin 2688)) : Arrival := { errors := l, phase := 0 }

/-- A module whose port 2 is in a state of its link, with the given record. -/
def linked (link : Nat) (x : Port) : State :=
  held [(.port 2, FAB_PORT_STATE_link, link), (.port 2, FAB_PORT_CTL_enable, 1), (.pwr, PWR_STATUS_fab_on, 0xF), (.clk, CLK_PLL_STABLE_serdes, 0xFF)]
    { up with ports := [(2, x)] }

/-- Port 2 that has accepted `n` frames. -/
def receiving (n : Nat) : State := linked 2 { Port.reset with rxSeq := n }

theorem witness_FramesCarryThePort :
    (let s := linked 2 { Port.reset with resend := [sentFrame 1 0], replay := [sentFrame 1 0] }
     s.rd (.port 2) FAB_PORT_STATE_link = 2 ∧ s.on .sec SEC_MODE_confidential = false ∧ (s.port 2).resend = sentFrame 1 0 :: []) ∧
    (let s := linked 2 { Port.reset with ctrl := [.idle], txSeq := 4 }
     (s.port 2).resend = [] ∧ (s.port 2).replay.length < 390 ∧ (s.port 2).nextKey = none ∧ (s.port 2).moves = []) ∧
    (let s := linked 2 { Port.reset with moves := [⟨true, 3, 1⟩] }
     (s.port 2).moves = [⟨true, 3, 1⟩] ∧ 1 ≤ (s.port 2).txSeq + 1 ∧ bit (s.rd (.port 2) FAB_PORT_TX_RETIRED_lanes) 3 = false) ∧
    (isCorrectable (arrival [138, 139]) = false ∧ isCorrectable (arrival []) = true) ∧
    let s := held [(.port 2, FAB_PORT_STATE_encrypted, 1)] (linked 2 Port.reset)
    s.rd (.port 2) FAB_PORT_STATE_encrypted = 1 ∧ (s.port 2).nextKey = none := by decide +kernel

/-- A sound frame, at a port for which it is in sequence and at one for which it is ahead. -/
theorem witness_FramesCarryThePort_receive : let w := (frame 5).wire
    crcMatches w = true ∧ ∀ n ∈ [4, 3], let s := receiving n
      extendSeq ((s.port 2).rxSeq + 1) (leAt w 0 4) = 5 ∧ (s.readFrame? 2 5 w []).map Frame.slots = some [] ∧ (s.port 2).discarding = false := by
  decide +kernel

/-- Whether a frame authenticates is opaque: where it does not open, it is not read. -/
theorem witness_FramesCarryThePort_auth (s : State) (w : List Byte) (c : List (Option Cargo)) (i seq : Nat)
    (he : s.on (.port i) FAB_PORT_STATE_encrypted = true)
    (ho : (readFrame w c).open? w ((s.port i).keyOf seq) (i ^^^ 1) seq = none) : s.readFrame? i seq w c = none := by
  simp only [State.readFrame?, he, ho, if_true]

theorem witness_LinksGoDownTrainAndSpareLanes :
    (let s := linked 2 { Port.reset with replay := [sentFrame 1 255] }
     s.inTurn (.linkDown 2 true) = true ∧ s.rd (.port 2) FAB_PORT_STATE_link = 2 ∧
       (s.port 2).replay.any (fun f => decide (s.replayLimit 2 ≤ f.times)) = true ∧ (s.port 2).writes = [] ∧ s.trains 2 = true ∧
       s.feature 4 = true) ∧
    (linked 1 Port.reset).rd (.port 2) FAB_PORT_STATE_link = 1 ∧ (linked 0 Port.reset).rd (.port 2) FAB_PORT_STATE_link = 0 ∧
    (linked 1 Port.reset).rd .sec SEC_MODE_confidential = 0 ∧
    (held [(.sec, SEC_MODE_confidential, 1)] (linked 1 Port.reset)).rd (.port 2) FAB_PORT_CTL_job_member ≠ 1 ∧
    (let s := linked 2 Port.reset
     s.laneLeaves 2 true 25 = false ∧ s.laneFaulty 2 true 25 .signal = true ∧ s.lanesLeaving 2 true < 2 ∧ s.laneLeaves 2 false 25 = false ∧
       s.lanesLeaving 2 false < 2) ∧
    let s := held [(.port 2, retiredLanes true, 3)] (linked 2 Port.reset)
    s.laneLeaves 2 true 25 = false ∧ 2 ≤ s.lanesLeaving 2 true := by decide +kernel

/-! The fabric -/

def token (step : Nat) : Token := { job := 7, step := BitVec.ofNat 64 step, origin := 1, hops := 0 }

theorem witness_RemoteWritesRoundsAndAborts :
    (let s := jobOf2 busy
     s.remoteOk 7 0x4_0000 64 = true ∧ s.remoteOk 8 0x4_0000 64 = false) ∧
    (let r : Remote := { id := 5, part := 0, cmd := 3, coord := 1, addr := 0x4_0000, data := [], sent := some 0 }
     let s := { withPart (fun x => { x with seq := { x.seq with inflight := [flying 3 6 .remote] } }) busy with
                tick := 97657, fabric := { Fabric.reset with remotes := [r] } }
     s.fabric.remotes.find? (fun r => r.id == 5) = some r ∧ r.sent = some 0 ∧ 0 + 97657 ≤ s.now ∧ (s.cmd? r.part r.cmd).isSome = true) ∧
    (let s := { busy with fabric := { Fabric.reset with acted := [4] } }
     s.inTurn (.flagRoundMessage 2 .flagRound 1 4 true) = true ∧ s.fabric.acted.contains 4 = true ∧ busy.fabric.acted.contains 4 = false) ∧
    (let s := jobOf2 busy
     s.inTurn (.abortToken 2 (token 9)) = true ∧ s.rd .fabG FAB_G_JOB_valid = 1 ∧ s.rd .fabG FAB_G_JOB_id = (token 9).job.toNat ∧
       s.jobStep ≤ 9 ∧ s.tokenKnown 9 = false ∧ s.feature 4 = true ∧ s.tokenKnown s.jobStep = false) ∧
    let s := { jobOf2 busy with fabric := { Fabric.reset with tokens := [token 1] } }
    s.inTurn .abortAct = true ∧ s.fabric.tokens = token 1 :: [] ∧ s.boundParts = [0] ∧ (s.part 0).pass = none ∧ s.abortHolds 0 1 = true := by
  decide +kernel

/-- A module whose port 2 is up and has last heard a neighbour at tick 100. -/
def timed (l : List (Page × Field × Nat)) (h : List (Nat × Int)) : State :=
  held l { linked 2 Port.reset with tick := 100, fabric := { Fabric.reset with heard := h, holdFrom := some 50 } }

theorem witness_TheTickFollowsItsParent :
    (let s := timed [(.fabG, FAB_G_TIME_STATUS_parent, 2), (.fabG, FAB_G_TIME_STATUS_state, 1)] []
     s.rd (.port 2) FAB_PORT_STATE_link = 2 ∧ s.rd .fabG FAB_G_TIME_STATUS_parent = 2 ∧ s.rd .fabG FAB_G_TIME_STATUS_state = 1 ∧
       s.rd .fabG FAB_G_TIME_CTL_realign = 0) ∧
    (timed [(.fabG, FAB_G_TIME_STATUS_parent, 0xF)] []).rd .fabG FAB_G_TIME_STATUS_parent ≠ 2 ∧
    (let s := held [(.fabG, FAB_G_TIME_STATUS_state, 1)] up
     s.rd .fabG FAB_G_TIME_CTL_root = 0 ∧ s.bestParent = none ∧ s.rd .fabG FAB_G_TIME_STATUS_state = 1) ∧
    (let s := timed [(.port 2, FAB_PORT_STATE_nbr_depth, 3)] []
     s.bestParent = some 2 ∧ s.offsetTo 2 = none) ∧
    (let s := { timed [(.fabG, FAB_G_TIME_STATUS_state, 2)] [] with tick := 976613 }
     s.fabric.holdFrom = some 50 ∧ s.rd .fabG FAB_G_TIME_STATUS_state = 2 ∧ 50 + 976563 ≤ s.now) ∧
    let s := timed [(.fabG, FAB_G_TIME_STATUS_parent, 2)] [(2, 64000 * 910 + 7)]
    s.offsetTo 2 = some (64000 * 910 + 7) ∧ s.feature 4 = true ∧ s.rd .fabG FAB_G_TIME_STATUS_state = 0 ∧
      s.rd .fabG FAB_G_TIME_CTL_root = 0 := by decide +kernel

/-! Rings -/

/-- Ring 0 in device memory at 0xD_0000 with its index words at 0xE_0000 and 0xE_0040, and what the next entry holds. -/
def ringed (entry : List Byte) (r : Ring) (f : Seq → Seq) : State :=
  held [(.thx 0, THX_SEQ_RING_CFG_enable 0, 1), (.thx 0, THX_SEQ_RING_CFG_log2_size 0, 4), (.thx 0, THX_SEQ_RING_BASE_base 0, 0xD0),
    (.thx 0, THX_SEQ_RING_PROD_addr 0, 0xE_0000 / 8), (.thx 0, THX_SEQ_RING_CONS_addr 0, 0xE_0040 / 8)]
    ((withPart (fun x => { x with seq := f { x.seq with rings := [(0, r)], launches := [] } }) busy).put (0xD_0000 + 64 * (r.fetched % 16)) entry)

/-- A launch entry of four commands at 0x3_0000, step 1, one micro-batch. -/
def entryBytes : List Byte := leBytes 8 1 ++ leBytes 8 0x3_0000 ++ leBytes 8 4 ++ leBytes 8 1 ++ leBytes 8 1

theorem witness_LaunchesAreFetchedAndWrittenBack :
    (let s := ringed entryBytes ⟨17, 16, 16⟩ id
     let e := s.readEntry 0 0 16
     (s.ring 0 0).fetched = 16 ∧ s.mayFetch 0 = true ∧ s.entryReadable 0 0 16 = true ∧ leAt e 0 1 = 1 ∧ leAt e 0x10 3 ≠ 0 ∧ leAt e 0x20 2 ≠ 0 ∧ leAt e 8 8 % 64 = 0 ∧
       s.reach 0 (leAt e 8 8) (64 * leAt e 0x10 3) = true) ∧
    (let s := ringed (leBytes 8 2) ⟨17, 16, 16⟩ id
     s.mayFetch 0 = true ∧ s.entryReadable 0 0 16 = true ∧ s.tokenWaits (leAt (s.readEntry 0 0 16) 0x18 8) = false ∧
       leAt (s.readEntry 0 0 16) 0 1 = 2) ∧
    (let s := ringed [] ⟨17, 16, 16⟩ id
     s.mayFetch 0 = true ∧ s.ringReach 0 (s.consAddr 0 0) 8 = true ∧ leAt (s.readEntry 0 0 16) 0 1 = 0 ∧ (s.ring 0 0).cons = (s.ring 0 0).fetched ∧
       ∀ l ∈ (s.part 0).seq.launches, l.entry < (s.ring 0 0).cons) ∧
    (let l := { launch with entry := 16, issued := 4, completed := 4 }
     let s := ringed [] ⟨17, 16, 17⟩ (fun q => { q with launches := [l] })
     s.ringReach 0 (s.ringEntry 0 0 l.entry + 0x38) 1 = true ∧ s.ringReach 0 (s.consAddr 0 0) 8 = true ∧
       (s.part 0).seq.launches = l :: [] ∧ l.result = some 1 ∧ l.entry = (s.ring 0 0).cons ∧ s.ringWaits 0 0 = false) ∧
    (let s := (ringed [] ⟨17, 16, 17⟩ id).putWord 0xE_0000 8 32
     s.rd (.thx 0) (THX_SEQ_RING_CFG_enable 0) = 1 ∧ s.ringReach 0 (s.prodAddr 0 0) 8 = true ∧ s.ringWaits 0 0 = false ∧ s.isOutRing 0 0 = false ∧
       s.ringPoisoned 0 0 (s.prodAddr 0 0) 8 = false ∧ leNat (s.spaceBytes (s.ringHost 0 0) (s.prodAddr 0 0) 8) = 32 ∧
       32 ≤ (s.ring 0 0).cons + 2 ^ s.ringLog 0 0 ∧ (s.ring 0 0).cons + 2 ^ s.ringLog 0 0 < 33) ∧
    (let s := held [(.thx 0, THX_SEQ_RING_CFG_kind 0, 2)] (ringed [] ⟨17, 16, 17⟩ id)
     s.isOutRing 0 0 = true ∧ s.ringReach 0 (s.consAddr 0 0) 8 = true ∧ s.ringPoisoned 0 0 (s.consAddr 0 0) 8 = false) ∧
    ∀ x ∈ [flying 0 0 .done, flying 0 6 .remote, flying 0 8 .push],
      let s := ringed [] ⟨17, 16, 17⟩ (fun q => { q with inflight := [x] })
      s.cmd? 0 0 = some x ∧ x.sig = none ∧ (x.work = .done → s.workDone 0 x = true) ∧ s.remotesOut 0 0 = false ∧
        s.hitchBusy 0 x = false := by decide +kernel

/-- An input ring 1 and an output ring 2 beside ring 0, each with one entry's room, a tenant key in slot 9 and a grant of context 0. -/
def tenanted : State :=
  let s := held [(.thx 0, THX_SEQ_RING_CFG_enable 1, 1), (.thx 0, THX_SEQ_RING_CFG_kind 1, 1), (.thx 0, THX_SEQ_RING_BASE_base 1, 0xD1),
    (.thx 0, THX_SEQ_RING_CFG_enable 2, 1), (.thx 0, THX_SEQ_RING_CFG_kind 2, 2), (.thx 0, THX_SEQ_RING_BASE_base 2, 0xD2)]
    (withPart (fun x => { x with seq := { x.seq with rings := [(1, ⟨1, 0, 0⟩)] } }) busy)
  { (s.put 0xD_1000 (leBytes 8 0x4_0000 ++ leBytes 8 32 ++ leBytes 8 77 ++ leBytes 8 9)).put 0xF_0000
      (leBytes 8 0x4_0000 ++ leBytes 8 32 ++ leBytes 8 77 ++ leBytes 8 0x900) with
    security := { Security.reset with slots := [(9, ⟨0, 0, []⟩)], grants := [(0, ⟨1, 0, 0, 0x20_0000, 0x20_0000⟩)], ncTop := 1024 } }

theorem witness_RingsTakeAndGiveObjects :
    let s := tenanted
    (let c := cmd 1 4 0x10_0000 0x11_0000
     s.issueLaunch 0 c = some launch ∧ s.feature 2 = true ∧ cmdAddress c 1 c.c = some 0x10_0000 ∧ cmdAddress c 1 c.d = some 0x11_0000 ∧
       s.ringServes 0 1 1 = true ∧ s.ringBatch 0 1 0 = [] ∧ s.ringBatch 0 1 4 = [s.readEntry 0 1 0] ∧ s.ringWaits 0 1 = false ∧
       s.entryReadable 0 1 0 = true ∧ s.ringBlocked 0 0 1 = false ∧ s.entriesPoisoned 0 1 0 1 = false ∧ s.batchReach 0 0x10_0000 0x11_0000 [s.readEntry 0 1 0] = true ∧
       s.poisonedIn 0x4_0000 32 = false ∧ s.tenant? 0 (leAt (s.readEntry 0 1 0) 0x18 1) = some ⟨0, 0, []⟩) ∧
    let c := cmd 2 0xF_0000 1 0x20_0000
    s.issueLaunch 0 c = some launch ∧ cmdAddress c 1 c.b = some 0xF_0000 ∧ cmdAddress c 1 c.d = some 0x20_0000 ∧
      s.ringServes 0 2 2 = true ∧ 2 ^ s.ringLog 0 2 < (s.ring 0 2).prod - (s.ring 0 2).cons + 17 ∧
      s.batch 0xF_0000 1 = [s.bytes 0xF_0000 32] ∧ s.embeddingStatus 0 (s.bytes 0xF_0000 32) = 0 ∧
      s.tenant? 0 (leAt (s.bytes 0xF_0000 32) 0x19 1) = some ⟨0, 0, []⟩ ∧ s.rd .sec SEC_NONCE_CTR_value < s.security.ncTop ∧
      (s.ring 0 2).prod - (s.ring 0 2).cons + 1 ≤ 2 ^ s.ringLog 0 2 ∧ s.ringWaits 0 2 = false ∧ s.ringBlocked 0 0 2 = false ∧
      s.ringReach 0 (s.ringEntry 0 2 (s.ring 0 2).prod) 64 = true ∧ s.ringReach 0 (s.prodAddr 0 2) 8 = true ∧
      s.poisonedIn 0xF_0000 32 = false ∧ s.outReach 0 0xF_0000 1 0x20_0000 = true := by decide +kernel

/-- What an object decrypts to is opaque: where it authenticates, it opens with its plaintext. -/
theorem witness_RingsTakeAndGiveObjects_opens (s : State) (e l : List Byte) (k : KeySlot) (hp : s.poisonedIn (leAt e 0 8) (leAt e 8 8) = false)
    (hk : s.tenant? 0 (leAt e 0x18 1) = some k)
    (hg : Config.gcmOpen (subkey k 1) (slice e 0x30 12) (slice e 8 24) (s.bytes (leAt e 0 8) (leAt e 8 8)) (slice e 0x20 16) = some l) :
    s.openObject 0 e = (0, slice l 0 (leAt e 8 8)) := by
  simp only [State.openObject, hp, hk, hg, Bool.false_eq_true, if_false]

/-! Resets and failures -/

/-- A module whose oscillator and PLLs are stable. -/
def clocked (s : State) : State := held [(.clk, CLK_REF_STATUS_ref_stable, 1), (.clk, CLK_PLL_STABLE_management, 1),
  (.clk, CLK_PLL_STABLE_measurement, 1), (.clk, CLK_PLL_STABLE_pcie, 1), (.clk, CLK_PLL_STABLE_thorax, 0xF), (.clk, CLK_PLL_STABLE_hbm, 0xFF),
  (.clk, CLK_PLL_STABLE_serdes, 0xFF)] s

/-- Partition 0 in service with hang detection on and a command in flight, port 2 up with a message to send, and its cluster 3 on; all stand
still since tick 0. -/
def watching : State := held [(.hch 0, HCH_CTL_hang_en, 1), (.part 0, MGT_PT_STATE_state, 2), (.thx 0, THX_SEQ_CTL_run, 1)]
  { linked 2 { Port.reset with ctrl := [.idle] } with
    tick := 50000, parts := [(0, { Part.reset with seq := { Seq.reset with inflight := [flying 0 0 .done] } })] }

theorem witness_EngineResetsClearTheirBlock :
    (watching.hangs (.sequencer 0) = true ∧ watching.inTurn (.hangTimeout (.sequencer 0)) = true ∧ watching.hangs (.port 2) = true ∧
      watching.hangs .hostDma = false) ∧
    (let s := held [(.clk, CLK_PLL_STABLE_thorax, 0xF)] { watching with engineResets := [.sequencer 0, .port 2] }
     s.engineResets.contains (.sequencer 0) = true ∧ s.engineResets.contains (.port 2) = true ∧ blockPart? (.sequencer 0) = some 0 ∧
       s.pllStable (blockPll (.sequencer 0)) = true ∧ s.pllStable (blockPll (.port 2)) = true ∧
       s.rd (.part 0) MGT_PT_STATE_state ≠ 3 ∧ s.resetting.contains 0 = false ∧ blockPart? (.port 2) = none) ∧
    (linked 0 Port.reset).rd (.port 2) FAB_PORT_STATE_link = 0 := by decide +kernel

theorem witness_PartitionsAndModuleAreReset :
    (busy.running 0 = true ∧ busy.resetting.contains 0 = false) ∧
    (let s := clocked { busy with resetting := [0] }
     s.resetting.contains 0 = true ∧ (s.part 0).heldParts = [] ∧ s.partClocked 0 = true) ∧ busy.alive = true ∧ busy.powered = true := by decide +kernel

theorem witness_FailuresActionsAndPoison :
    (busy.rd (.part 0) MGT_PT_STATE_state ≠ 3 ∧ busy.alive = true ∧ (busy.part 0).actions = [] ∧
      busy.inTurn (.poisonConsumed 0 .command) = true) ∧
    (∀ a ∈ [MgmtAction.grant 3 1, .gain 3 2 5 1, .wingPower 3 true, .wingPower 3 false],
      (analogue (fun x => { x with running := [operation] })).atBoundary 0 none a = false ∧ busy.atBoundary 0 none a = true) ∧
    (busy.rd (.wing 0 3) WNG_STATE_power = 0 ∧ bit (busy.rd .pwr (PWR_DOM_FAULT_domains 0)) 3 = false ∧
      (held [(.wing 0 3, WNG_STATE_power, 2)] busy).rd (.wing 0 3) WNG_STATE_power ≠ 0) ∧
    (busy.ctx? 0).isSome = true ∧ busy.rd (.thx 0) THX_SEQ_STATUS_state ≠ 3 ∧ busy.peers 0 = [0] := by decide +kernel

/-- One symbol in error, and two in one codeword that no single error explains. -/
def oneUpset : List Upset := [⟨35, 0x80⟩]
def twoUpsets : List Upset := [⟨0, 1⟩, ⟨1, 1⟩]

def staged : Staged := { k := 0, step := 3, addr := 0x100_0000, bytes := 64, layer := 0, bf16W := false, bf16M := false, moments := 2, digest := 0 }

theorem witness_MemoryAndUnitsAreKeptSound :
    (let s := { held [(.upd 0, UPD_RS_MIRROR_BASE_base, 0x200), (.upd 0, UPD_RS_SIDE_BASE_base, 0x2_0000)] busy with poison := [0x4000_0000 / 32, 0x2000_0000 / 32] }
     s.poisonedIn 0x4000_0000 32 = true ∧ s.mirrorGranule? 0 0x4000_0000 = some ⟨false, 0, 0, 0, 0⟩ ∧
       s.poisonedIn 0x2000_0000 32 = true ∧ s.mirrorGranule? 0 0x2000_0000 = some ⟨true, 0, 0, 0, 0⟩ ∧ (s.part 0).seats = [] ∧
       s.ownReach 0 0x4000_0000 32 = true ∧ s.ownReach 0 0x2000_0000 32 = true ∧
       s.physWing? 0 0 = some 0 ∧ s.physScale? 0 0 0 0 = some 0) ∧
    (busy.resetting.contains 0 = false ∧ 0x400 / hbmSize = 0 ∧ channelOf 0x400 = 1 ∧ busy.poison.contains (0x400 / 32) = false ∧
      decodeGranule (upsetError oneUpset) = .corrected (upsetPlace 35) 0x80 ∧
      fixSymbol (upsetError oneUpset) (some (upsetPlace 35, 0x80)) = List.replicate 36 0 ∧
      decodeGranule (upsetError twoUpsets) = .uncorrectable) ∧
    (busy.sweepable 0 (.cluster 24) = true ∧ 24 ≤ busy.rd (.cluster 0 24) THX_STATE_role ∧ busy.sweepable 0 .rotation = true) ∧
    (let s := { withPart (fun x => { x with staged := [staged], ckpt := some (3, 0x9000) }) busy with
                security := { Security.reset with slots := [(4, ⟨1, 0, []⟩)], ncTop := 1024 } }
     (s.part 0).staged = staged :: [] ∧ (s.part 0).ckpt = some (3, 0x9000) ∧ s.poisonedIn staged.addr staged.bytes = false ∧
       s.slotFor 0 1 = some (4, ⟨1, 0, []⟩) ∧ s.rd .sec SEC_NONCE_CTR_value < s.security.ncTop ∧
       s.on (.hch 0) HCH_CKPT_CTL_peer = false ∧ s.linkUp = true) ∧
    let off := (Page.thx 0).base + 0x44
    counterAt off = some (.thx 0, HDR_ERRCNT 1) ∧ bit (busy.rd (.thx 0) (HDR_ERRCNT 1)) 31 = false ∧
      bit ((held [(.thx 0, HDR_ERRCNT 1, 0xFFFF_FFFF)] busy).rd (.thx 0) (HDR_ERRCNT 1)) 31 = true ∧
      mapSorted (monitored 0).scales = true := by decide +kernel

/-! Calibration, sensors and power -/

/-- Partition 0 with wing 3 powered and holding the given calibration, and scale 5 of bank 2 with the given record. -/
def calibrating (c : WingCal) (f : Scale → Scale) : State :=
  held [(.wing 0 3, WNG_STATE_power, 2)]
    { busy with wings := [(3, { Wing.reset with cal := c })], scales := [(scaleKey 0 3 2 5, f (Scale.reset 5))] }

theorem witness_CalibrationsStartAndComplete :
    (let s := calibrating WingCal.reset id
     s.resetting.contains 0 = false ∧ s.rd (.wing 0 3) WNG_STATE_power = 2 ∧ s.rd (.wing 0 3) WNG_STATE_role ≠ 0xE ∧
       (s.wing 0 3).cal.held.contains .command = false ∧ (s.wing 0 3).cal.held.contains .drift = false ∧
       s.inTurn (.calibrationCommand 0 8) = true ∧ s.inTurn (.driftEvaluation 0 3 2 5) = true) ∧
    (let s := held [(.wing 0 3, WNG_STATE_cleared, 1)] (calibrating WingCal.reset id)
     s.rd (.wing 0 3) WNG_STATE_calibrated = 0 ∧ s.rd (.wing 0 3) WNG_STATE_cleared = 1 ∧ (s.wing 0 3).cal.running = false ∧
       (s.wing 0 3).cal.held.contains .first = false) ∧
    (∀ e ∈ [((0 : Int), false), (2 ^ 40, true)],
      let s := held [(.cal 0, CAL_CTL_drift_en, 1)] (calibrating WingCal.reset (fun x => { x with driftN := 65536, driftSum := e.1 }))
      65536 ≤ (s.scale 0 3 2 5).driftN ∧
        (s.on (.cal 0) CAL_CTL_drift_en && decide (s.rd (.cal 0) CAL_CTL_drift_lim * 1024 < (s.scale 0 3 2 5).driftSum.natAbs)) = e.2) ∧
    (calibrating { WingCal.reset with held := [.command] } id).calDue 0 3 = true ∧
    (let s := calibrating { WingCal.reset with running := true, refDone := true } (fun x => { x with pinned := true, pinCal := true })
     s.calFinished 0 3 = true ∧ (s.scale 0 3 2 5).calibrates = true ∧ (s.scale 0 3 2 5).pinned = true ∧ (s.scale 0 3 2 5).pinCal = true) ∧
    ((withPart (fun x => { x with trimDue := true }) busy).part 0).trimDue = true := by decide +kernel

def runs (o2 : Int) : MeasRuns := { offset1 := 0, offset2 := o2, gain1 := 0, gain2 := 0, inl := 0, sigma := 0 }

theorem witness_MeasurementsSetTheirTrims :
    (runsAgree (runs 256) = true ∧ runsAgree (runs 257) = false) ∧
    (let s := calibrating { WingCal.reset with running := true, attempts := 2 } id
     (s.wing 0 3).cal.running = true ∧ (s.wing 0 3).cal.refDone = false ∧ (s.wing 0 3).cal.attempts < 3) ∧
    (∀ f ∈ [id, fun (x : Scale) => { x with role := 2 }],
      let s := calibrating { WingCal.reset with running := true, refDone := true } f
      let x := s.scale 0 3 2 5
      (s.wing 0 3).cal.refDone = true ∧ x.calibrates = true ∧ x.measures (s.direct 0 3 2 5) 263 = true ∧
        meetsLimits (runs 0) x 263 (trimTarget 0 0 0 32) (trimTarget 0 0 0 224) = true) ∧
    (let s := calibrating { WingCal.reset with running := true, refDone := true } (fun x => { x with calDirect := some false })
     let x := s.scale 0 3 2 5
     x.role = 1 ∧ s.direct 0 3 2 5 = false ∧ x.calNext ≤ 257 ∧ x.takeover? = none ∧ x.lastFree = some 5 ∧
       x.disabled.contains (0 * 264 + (258 + 5)) = false) ∧
    let x := (calibrating WingCal.reset (fun x => { x with colmap := (List.replicate 6 (0, 0)).set 5 (2, 7), calNext := 8 })).scale 0 3 2 5
    x.takeover? = some (5, 7) ∧ 7 < x.calNext := by decide +kernel

/-- Converter 1 with the given record, the measurement clock stable and its scan of channel 4 enabled. -/
def converting (c : Converter) : State :=
  held [(.clk, CLK_PLL_STABLE_measurement, 1), (.msr, MSR_M_CFG_en 1, 1), (.msr, MSR_M_SCAN_mask 1, 16)] { up with converters := [(1, c)] }

theorem witness_SensorsAndConverters :
    up.powered = true ∧ bit (validChannels 1) 27 = true ∧
    (converting { Converter.reset with cur := some (3, false) }).converter 1 = { Converter.reset with cur := some (3, false) } ∧
    (let s := converting { Converter.reset with cur := some (3, false), asked := [(0, 27)] }
     (s.converter 1).asked = [(0, 27)] ∧ (s.converter 1).cur = some (3, false)) ∧
    (let s := converting { Converter.reset with cur := some (3, true), urgent := [5], asked := [(0, 27)] }
     (s.converter 1).asked = [(0, 27)] ∧ (s.converter 1).cur = some (3, true) ∧ (s.converter 1).urgent.length < 8 ∧ (s.converter 1).urgent = 5 :: [] ∧
       s.rd .clk CLK_PLL_STABLE_measurement = 1) ∧
    (let s := converting { Converter.reset with cur := some (3, true), urgent := List.replicate 8 5, asked := [(0, 27)] }
     (s.converter 1).cur = some (3, true) ∧ 8 ≤ (s.converter 1).urgent.length) ∧
    (let s := converting { Converter.reset with asked := [(0, 27)] }
     (s.converter 1).cur = none ∧ (s.converter 1).urgent = [] ∧ s.rd .clk CLK_PLL_STABLE_measurement = 1) ∧
    (let s := converting { Converter.reset with cur := some (3, false) }
     (s.converter 1).stopped = false ∧ (s.converter 1).again = none ∧ s.rd .msr (MSR_M_CFG_en 1) = 1 ∧ s.scanFrom 1 4 = some 4) ∧
    ((.stack 0 : Sensor) ≠ .spinneret ∧ up.throttleTemp ≤ tempOf 1664 ∧ up.power.throttles = []) := by decide +kernel

theorem witness_PowerIsManaged :
    up.alive = true ∧
    (up.budget < 4201 ∧ 0 + 100 < up.budget ∧ 8 ≤ ({ up.power with under := 7 } : Power).under + 1) ∧
    up.outranked? 0 0 3 ≠ some 3 ∧
    (∀ n ∈ [0, 71, 72, 87, 88, 91, 92, 95], (held [(.pwr, PWR_DOM_STATE_domains (n / 32), 0xFFFF_FFFF)] up).domainOn n = true) ∧
    (∀ p ∈ [0, 7], up.rd (.part p) MGT_PT_STATE_state ≠ 3) ∧ up.rd .clk (thoraxFreq 0) = 0 ∧
    (held [(.clk, thoraxFreq 0, 250)] up).rd .clk (thoraxFreq 0) ≠ 0 ∧
    bit (up.rd .pwr PWR_FAB_OFF_off) 1 = false ∧ up.on (.port 2) FAB_PORT_CTL_enable = false ∧
    (watching.on (.port 2) FAB_PORT_CTL_enable = true) ∧
    (let s := held [(.pwr, PWR_FAB_OFF_off, 2)] up
     bit (s.rd .pwr PWR_FAB_OFF_off) 1 = true ∧ bit (s.rd .pwr (PWR_DOM_FAULT_domains 2)) (24 + 1) = false) := by decide +kernel

theorem witness_TripsHoldAndRelease :
    (up.inTurn (.trip (.thorax 0)) = true ∧ up.powered = true ∧ up.tripDue (.thorax 0) = true ∧ up.power.tripped = none ∧ tripParts (.thorax 0) = some [0, 1] ∧
      (∀ p ∈ [0, 1], (up.part p).heldParts.contains (.thorax 0) = false) ∧
      (∀ p ∈ [0, 1], up.rd (.part p) MGT_PT_STATE_state ≠ 3 ∧ up.resetting.contains p = false)) ∧
    (let s := { up with parts := [(0, { Part.reset with heldParts := [.thorax 0] }), (1, { Part.reset with heldParts := [.thorax 0] })] }
     s.power.tripped = none ∧ ∀ p ∈ [0, 1], (s.part p).heldParts.contains (.thorax 0) = true) ∧
    (∀ c ∈ [TripCause.spinneret, .overcurrent, .undervoltage, .overvoltage], up.tripDue c = true) ∧
    (∀ n ∈ [(0 : Fin 4), 3], (held [(.pwr, PWR_DOM_FAULT_domains 2, 0xF000_0000)] up).tripDue (.sharedDomain n) = true) ∧
    (let s := { up with power := { up.power with tripped := some .spinneret } }
     s.power.tripped = some .spinneret ∧ s.partCool .spinneret = true) ∧
    (let s := held [(.clk, CLK_PLL_STABLE_thorax, 0xF)] (withPart (fun x => { x with heldParts := [.thorax 0, .wingStack 0] }) up)
     .thorax 0 ∈ (s.part 0).heldParts ∧ s.partCool (.thorax 0) = true ∧ bit (s.rd .clk CLK_PLL_STABLE_thorax) 0 = true ∧
       .wingStack 0 ∈ (s.part 0).heldParts ∧ s.partCool (.wingStack 0) = true ∧ bit (s.rd .pwr (PWR_DOM_FAULT_domains 0)) 3 = false) := by
  decide +kernel

theorem witness_TheModuleStarts :
    State.reset.powered = false ∧
    (let s := held [(.pwr, PWR_INSTAR_instar, 0)] { up with power := Power.reset }
     s.stageDue 0 = true ∧ s.stallDue .firmware = true) ∧
    (let s := clocked (held [(.pwr, PWR_INSTAR_instar, 0)] up)
     s.stageDue 1 = true ∧ 0 ∈ s.workingParts ∧ s.resetting.contains 0 = false ∧ s.featWritten = false) ∧
    (let s := (List.range 8).foldl (fun s p => (List.range 9).foldl (fun s w => s.wr (.wing p w) WNG_STATE_role 0xE) s)
       { held [(.pwr, PWR_INSTAR_instar, 1)] up with featWritten := true }
     s.stageDue 2 = true) ∧
    (held [(.pwr, PWR_INSTAR_instar, 2), (.fabG, FAB_G_TIME_STATUS_state, 1)] up).stageDue 3 = true ∧
    (let s := held [(.wing 0 3, WNG_STATE_power, 1), (.clk, CLK_PLL_STABLE_wing, 1)] up
     s.rd (.wing 0 3) WNG_STATE_power = 1 ∧ bit (s.rd .clk CLK_PLL_STABLE_wing) 0 = true ∧
       ∀ v, v < 3 → s.rd (.wing 0 v) WNG_STATE_power ≠ 1) ∧
    (up.bound = false ∧ up.alive = true ∧ up.featWritten = false ∧ bit ((9 &&& up.features) ||| (up.rd .mgt HDR_FEATURE_EN &&& 8)) 3 = true ∧
      bit ((2 &&& up.features) ||| ((held [(.mgt, HDR_FEATURE_EN, 0)] up).rd .mgt HDR_FEATURE_EN &&& 8)) 0 = false) ∧
    { up with bound := true }.bound = true := by decide +kernel

theorem witness_ClocksFollowTheirSources :
    up.powered = true ∧ up.pllStable (.thorax 1) = false ∧ (clocked up).pllStable (.thorax 1) = true ∧
    (up.part 2).heldParts.contains (.thorax 1) = false ∧ (up.part 3).heldParts.contains (.thorax 1) = false ∧
    up.rd .clk CLK_PLL_STABLE_thorax ≠ 0xF ∧ (clocked up).rd .clk CLK_PLL_STABLE_thorax = 0xF ∧
    (let s := held [(.fabG, FAB_G_TIME_STATUS_state, 1), (.fabG, FAB_G_TIME_STATUS_parent, 2)] up
     s.refChoice true = refCode (.port 2) ∧ s.refChoice true ≠ refCode .crystal ∧
       (s.rd .clk CLK_REF_STATUS_source ≠ (refCode (.port 2)).1 ∨ s.rd .clk CLK_REF_STATUS_port ≠ (refCode (.port 2)).2)) := by decide +kernel

theorem witness_SequencerRegistersTakeEffect :
    busy.running 0 = true ∧
    (let s := { held [(.thx 0, THX_SEQ_CTL_run, 0)] busy with featWritten := true }
     s.running 0 = true ∧ s.seqStopped 0 = true ∧ s.featWritten = true ∧ s.bindGranted 0 5 = true ∧
       (held [(.sec, SEC_MODE_confidential, 1)] s).bindGranted 0 5 = false) ∧
    busy.seqStopped 0 = false ∧ busy.featWritten = false ∧ busy.rd (.thx 0) THX_SEQ_STATUS_state ≠ 3 ∧
    (held [(.thx 0, THX_SEQ_STATUS_state, 3)] busy).rd (.thx 0) THX_SEQ_STATUS_state = 3 ∧ (busy.part 0).seq.inflight = [] ∧
    (∀ e ∈ [(0xD000_000A, 1), (0xE000_000A, 2)], bit e.1 31 = true ∧ bits e.1 28 2 = e.2) ∧
    bit 0xB000_000A 31 = true ∧ bits 0xB000_000A 28 2 = 3 ∧ bit 0x1000_000A 31 = false ∧
    (∀ k ∈ [1, 2], busy.ringReach 0 (if k = 2 then busy.prodAddr 0 k else busy.consAddr 0 k) 8 = true) ∧
    busy.now / 2 ^ 20 = (busy.part 0).seq.windowNo ∧ ({ busy with tick := 2 ^ 20 } : State).now / 2 ^ 20 = (busy.part 0).seq.windowNo + 1 := by
  decide +kernel

theorem witness_MonitorCountsAndLatches :
    up.alive = true ∧ up.hostReach = true ∧
    (let s := held [(.pmc, PMC_SLOT_STATUS_state 9, 1), (.pmc, PMC_CTL_en, 1), (.pmc, PMC_CTL_user_en, 1), (.pmc, PMC_SNAP_go, 1)] up
     s.rd .pmc (PMC_SLOT_STATUS_state 9) = 1 ∧ s.rd .pmc PMC_CTL_en = 1 ∧ s.rd .pmc PMC_CTL_user_en = 1 ∧ s.rd .pmc PMC_SNAP_go = 1 ∧
       s.feature 12 = true ∧ s.inTurn (.counterWrap 9 1) = true ∧
       s.rd .pmc (PMC_SLOT_STATUS_state 8) ≠ 1) ∧
    up.rd .pmc PMC_CTL_user_en ≠ 1 ∧ up.rd .pmc (PMC_SLOT_CFG_en 9) ≠ 1 := by decide +kernel

/-- Slot configurations that bind and that do not. -/
theorem witness_MonitorCountsAndLatches_binds :
    (held [(.pmc, PMC_SLOT_CFG_type 9, 0)] up).slotOk 9 = true ∧ (held [(.pmc, PMC_SLOT_CFG_type 9, 0), (.pmc, PMC_SLOT_CFG_instance 9, 511)] up).slotOk 9 = false := by
  decide +kernel

/-- A sealed load of 64 bytes for context 0, its header at 0x20_0000, its plaintext at 0x100_0000. -/
def loading : State :=
  { (held [(.sec, SEC_LOAD_SRC_value, 0x20_0000)] busy).put 0x20_0000 (leBytes 8 0x100_0000 ++ leBytes 8 64) with
    security := { Security.reset with slots := [(9, ⟨3, 0, []⟩)], grants := [(0, ⟨1, 0x20_0000, 0x20_0000, 0x40_0000, 0x20_0000⟩)], reports := [(0, [])] } }

theorem witness_ReportsKeysAndLoadsAreServed :
    (up.alive = true ∧ up.linkUp = true ∧ 0 < (held [(.sec, SEC_RPT_CTL_att_left, 8)] up).rd .sec SEC_RPT_CTL_att_left) ∧
    { up with perstLow := true }.linkUp = false ∧
    (bit up.features 3 = true ∧
      let r := readRelease (leBytes 8 (2 ^ 48))
      up.grant? r.ctx = none ∧ grantOk r.grant = true ∧ up.slot? r.slot = none ∧ r.seq = 0 ∧ loading.security.reports = [(0, [])]) ∧
    (let s := loading
     s.grant? 0 = some ⟨1, 0x20_0000, 0x20_0000, 0x40_0000, 0x20_0000⟩ ∧ grantOk ⟨1, 0x20_0000, 0x20_0000, 0x40_0000, 0x20_0000⟩ = true) ∧
    (up.unwrapKey [] = (2, []) ∧ (2 : Nat) ≠ 0) ∧
    (let s := loading
     let h := s.bytes 0x20_0000 64
     s.rd .sec SEC_LOAD_SRC_value = 0x20_0000 ∧ s.slot? 9 = some ⟨3, 0, []⟩ ∧ inside 0x20_0000 64 0x20_0000 0x20_0000 = true ∧
       inside (0x20_0000 + 64) (leAt h 8 8) 0x20_0000 0x20_0000 = true ∧ leAt h 8 8 = 64 ∧ leAt h 0 8 = 0x100_0000 ∧
       rangeIn (s.partsOf 0) 0x100_0000 64 = true ∧ overlaps 0x100_0000 64 0x20_0000 0x20_0000 = false ∧
       overlaps 0x100_0000 64 0x40_0000 0x20_0000 = false ∧ s.poisonedIn 0x20_0000 64 = false ∧ s.poisonedIn (0x20_0000 + 64) 64 = false) ∧
    up.slot? 200 = none := by decide +kernel

/-- What a release decrypts to is opaque: where it authenticates against a report, the key is unwrapped. -/
theorem witness_ReportsKeysAndLoadsAreServed_unwraps (s : State) (l h k : List Byte) (n : Nat)
    (hr : s.security.reports.find? (fun e => e.1 == (readRelease l).seq) = some (n, h))
    (hg : Config.gcmOpen (slice (Config.shake256 (Config.mlkemDecaps s.security.bootKey (slice l 0x30 1568) ++ h ++ slice l 0 0x30) 32) 0 32)
      (slice l 0x650 12) (slice l 0 0x30) (slice l 0x660 32) (slice l 0x680 16) = some k) : s.unwrapKey l = (0, slice k 0 32) := by
  simp only [State.unwrapKey, hr, hg]

theorem witness_HostTrafficAndItsLink :
    (busy.hostReach = true ∧ busy.alive = true ∧ busy.feature 9 = true ∧ busy.perstLow = false) ∧
    (busy.dmaAllowed true 0x4_0000 8 = true ∧ busy.dmaAllowed false 0x4_0000 8 = true ∧ busy.dmaMapped 0x4_0000 8 = true ∧
      (held [(.sec, SEC_MODE_confidential, 1)] busy).dmaAllowed true 0x4_0000 8 = false) ∧
    linkOk 6 16 = true ∧ busy.rd .hif HIF_LINK_speed ≠ 0 ∧ bit (busy.rd .hif (HDR_ERRCNT 3)) 31 = false ∧
    bit ((held [(.sec, SEC_MODE_engines_ok, 0xF)] busy).rd .sec SEC_MODE_engines_ok) 0 = true ∧ (busy.ctx? 0).isSome = true := by decide +kernel

theorem witness_RegistersAreReadAndWritten :
    (up.hostReach = true ∧ up.smbusUp = true) ∧
    (let off := (Page.thx 0).base
     off % 4 = 0 ∧ (off + 2) % 4 ≠ 0 ∧ off % 8 = 0 ∧ up.smbusReach off = true ∧ (leBytes 4 7).length = 4 ∧ (leBytes 8 7).length = 8 ∧
       (leBytes 5 7).length ≤ 8 ∧ (held [(.sec, SEC_MODE_confidential, 1)] up).smbusReach off = false) ∧
    0 < (held [(.sec, SEC_RPT_CTL_att_left, 8)] up).rd .sec SEC_RPT_CTL_att_left := by decide +kernel

theorem witness_PredicatesOfCmp : (Num.fin true 1 0).isNaN = false ∧ (fp32.decode 0x7FC0_0000).isNaN = true ∧ (0 : Nat) < 7 := by decide +kernel

/-- One witness for each clause: a NaN, 0 × ∞, opposite infinities of a sum and of fma, 1 − 1, two negative zeros, zeros of both signs, the
smallest subnormal with an exponent of its own, and the least value that overflows FP32. -/
theorem witness_SpecialValues :
    Num.nan.isNaN = true ∧ (Num.fin false 0 3).isZero = true ∧ (vecOp 2 0 (.inf true) (.fin true 1 0) .nan = .inf false) ∧
    ((Num.fin false 2 0).isNeg ≠ (Num.fin true 1 1).isNeg ∧ numSame (.fin false 2 0) (Num.fin true 1 1).neg) ∧
    ((Num.fin true 0 3).isZero = true ∧ (Num.fin true 0 3).isNeg = true ∧ (Num.fin false 0 0).isNeg = false) ∧
    (bits 0x8000_0001 fp32.mbits fp32.ebits = 0 ∧ numSame (.fin true 4 (-151)) (loadElem 0 0x8000_0001) ∧
      (Num.fin true 4 (-151)).isNeg = bit 0x8000_0001 31 ∧ storeElem 0 false (.fin true 4 (-151)) = 0x8000_0001) ∧
    (¬ numBelow (Num.fin true (2 ^ 25 - 1) 103).abs (.fin false (2 ^ (fp32.mbits + 2) - 1) (126 - fp32.mbits)) ∧
      f32 (rne32 (.fin true (2 ^ 25 - 1) 103)) = .inf true) := by
  have h1 : numSame (.fin false 2 0) (Num.fin true 1 1).neg := by
    show ((2 : Int) * 2 ^ (0 - min 0 1 : Int).toNat = 1 * 2 ^ (1 - min 0 1 : Int).toNat)
    decide
  have h2 : numSame (.fin true 4 (-151)) (loadElem 0 0x8000_0001) := by
    show (-(4 : Int) * 2 ^ (-151 - min (-151) (-149) : Int).toNat = -1 * 2 ^ (-149 - min (-151) (-149) : Int).toNat)
    decide
  have h3 : ¬ numBelow (Num.fin true (2 ^ 25 - 1) 103).abs (.fin false (2 ^ (fp32.mbits + 2) - 1) (126 - fp32.mbits)) := by
    show ¬ (((2 ^ 25 - 1 : Nat) : Int) * 2 ^ (103 - min 103 103 : Int).toNat < ((2 ^ 25 - 1 : Nat) : Int) * 2 ^ (103 - min 103 103 : Int).toNat)
    decide
  exact ⟨by decide, by decide, by decide, ⟨by decide, h1⟩, by decide, ⟨by decide, h2, by decide, by decide +kernel⟩, h3, by decide +kernel⟩

/-! Well-formedness: a term that each check refuses -/

theorem test_wf_member : (Instr.reduceScatter 0 (cmd 0 0 0 0) [⟨[0], []⟩]).wf = false ∧
    (Instr.allGather 0 (cmd 0 0 0 0) [⟨List.replicate 32 0, [1]⟩]).wf = false ∧ (Instr.allReduce 0 (cmd 0 0 0 0) [⟨[0], []⟩]).wf = false ∧
    (Instr.shiftUp 0 (cmd 0 0 0 0) ⟨[0], []⟩).wf = false ∧ (Instr.shiftDown 0 (cmd 0 0 0 0) ⟨[0], []⟩).wf = false := by decide
theorem test_wf_flips : (Instr.blockProductEnd 0 0 [⟨0, 0, 0⟩] []).wf = false ∧ (Instr.blockRecompute 0 [⟨0, 0, 1⟩, ⟨0, 0, 2⟩]).wf = false ∧
    (Instr.auditRecompute 0 [] [⟨0, 0, 0⟩]).wf = false := by decide
theorem test_wf_segment : (Instr.activationSegment 0 0 (some ⟨0, 0, 0, .a4, []⟩)).wf = false := by decide
theorem test_wf_errors : ∀ e ∈ [[ReadError.mk .tile 0 [⟨0, 0⟩]], [⟨.tile, 0, []⟩, ⟨.tile, 0, []⟩]],
    ∀ i ∈ [Instr.blockProductEnd 0 0 [] e, .tileMoverComplete 0 0 0 e, .clusterTakeover 0 e, .add 0 0 e, .mul 0 0 e, .fma 0 0 e, .cmp 0 0 e,
      .select 0 0 e, .min 0 0 e, .max 0 0 e], i.wf = false := by decide
theorem test_wf_sent : (Instr.strandFrameSend 0 [(0, [⟨0, 0⟩])]).wf = false ∧ (Instr.strandFrameSend 0 [(0, []), (0, [])]).wf = false ∧
    (Instr.portTrained 0 0 0 []).wf = false := by decide
theorem test_wf_restore : (Instr.rowRestore 0 0 0 0 [⟨0, 0, 1, false⟩, ⟨0, 0, 2, false⟩]).wf = false := by decide
theorem test_wf_verify : (Instr.reseatRowWrite 0 0 [[1, 1]]).wf = false := by decide
theorem test_wf_frame : (Instr.strandFrameReceive 0 [] [] (arrival [])).wf = false ∧
    (Instr.strandFrameReceive 0 (List.replicate 2688 0) (List.replicate 76 none) (arrival [])).wf = false ∧
    (Instr.strandFrameReceive 0 (List.replicate 2688 0) [] (arrival [5, 5])).wf = false := by decide +kernel
theorem test_wf_remoteWrite : (Instr.remoteWrite 0 0 0 0 [] []).wf = false ∧ (Instr.remoteWrite 0 0 0 (-1) [0, 0] []).wf = false ∧
    (Instr.remoteWrite 0 0 0 0 [0] [1]).wf = false := by decide
theorem test_wf_scrub : (Instr.scrub 0 0 [(1, [])]).wf = false ∧ (Instr.scrub 0 0 [(0, [⟨0, 0⟩])]).wf = false ∧
    (Instr.scrub 0 0 [(0, [⟨3, 1⟩, ⟨3, 2⟩])]).wf = false := by decide
theorem test_wf_readings : (Instr.thermalReading [(.spinneret, 0), (.spinneret, 1)]).wf = false ∧ (Instr.snapshotLatch [(0, 0), (0, 1)]).wf = false := by
  decide
theorem test_wf_hostDma : (Instr.hostDma true 0 [] false).wf = false ∧ (Instr.hostDma true (-1) [0, 0] false).wf = false := by decide
theorem test_wf_registers : (Instr.lowerWordRead 0 2).wf = false ∧ (Instr.registerWrite 0 0 []).wf = false ∧ (Instr.registerWrite 0 (-1) [0, 0]).wf = false ∧
    (Instr.smbusRegisterRead 2).wf = false ∧ (Instr.smbusRegisterWrite 2 0).wf = false ∧ (Instr.smbusChallenge []).wf = false := by decide
theorem test_wf_link : (Instr.pcieLinkUp 0 16 false).wf = false ∧ (Instr.pcieLinkUp 6 3 false).wf = false ∧ (Instr.pcieLinkUp 6 16 false).wf = true := by
  decide

/-! Single steps, with what the rules give -/

theorem test_no_bits : decodeTableWord 32 0 = none ∧ State.reset.withFetchWord 32 0 = State.reset := by decide +kernel

/-- R278: LOOP counts 1 down to 0 and goes on; another count branches. -/
theorem test_loop : ((after (.loop 0 0 3 (tinstr 2 0 0 0xFFFF_FFFF 0)) (clustered id busy)).cluster 0 0).threads.map (fun e => (e.2.pc, e.2.counter 2)) =
    [(0xF0, 0xFFFF_FFFF)] := by decide +kernel

/-- R278: ADDI wraps in 64 bits; its destination may be its source. -/
theorem test_addi : ((after (.addi 0 0 3 (tinstr 1 1 0 0 (2 ^ 64 - 0x1001))) (clustered id busy)).cluster 0 0).threads.map
    (fun e => (e.2.pc, e.2.areg 1)) = [(0x110, 0xFFFF_FFFF_FFFF_FFFF)] := by decide +kernel

/-- R302, R303: the bytes of a remote MOVE wait on port 0 on virtual channel 1. -/
theorem test_move_remote : ((after (.move 0 sendCmd) (jobOf2 busy)).port 0).txQ.map (fun g => g.slot.vc) = [1, 1] := by decide +kernel

/-- R182, R185: max of x = 2.0 and y = 1.0, stored as FP32. -/
theorem test_max : (after (.max 0 0 []) ((vecState 7).putWord 0x4_0000 4 0x4000_0000)).word 0x5_0000 4 = 0x4000_0000 := by decide +kernel

/-- R182: fma rounds once: 2.0 × 1.0 + 1.0 = 3.0. -/
theorem test_fma : (after (.fma 0 0 []) ((vecState 3).putWord 0x4_0000 4 0x4000_0000)).word 0x5_0000 4 = 0x4040_0000 := by decide +kernel

/-- R478, R480: THX_SEQ_STATUS is not wide; a 32-bit read of FEATURES answers its lower word and holds its upper word, 0. -/
theorem test_read_latch : (after (.lowerWordRead 4 (BitVec.ofNat 28 (Page.mgt.base + HDR_FEATURES.off))) up).latch64.map (fun e => e.1) = [4] := by
  decide +kernel

/-- R13: a byte at an odd place is an access fault, and nothing is written. -/
theorem test_access_fault : (after (.registerWrite 0 (BitVec.ofNat 28 (Page.mgt.base + 1)) [1]) up).rd .mgt (HDR_INT MGT_INT_access_fault) = 1 := by
  decide +kernel

/-- R365: the poisoned form of a granule decodes as poisoned, and with one more symbol wrong still does. -/
theorem test_poison_code : decodeGranule poisonPattern = .poisoned none := by decide +kernel

/-- R67: 1.0 in a granule of zeros takes exponent 128 and the mantissa 256. -/
theorem test_vl10 : (vl10Encode [0x3F80_0000]).toNat = 128 + 256 * 2 ^ 8 ∧ vl10Decode (vl10Encode [0x3F80_0000]) 0 = 0x3F80_0000 := by decide +kernel

/-- R162: 1.0 added to an empty accumulator reads as 1.0. -/
theorem test_w48 : w48Read (w48Add 0 0x3F80_0000) = 0x3F80_0000 := by decide +kernel

end Sys2Proof.Tests
end

section
/-! PROOF. O1: a step runs the queue, and an event out of its turn is held in the order of the ranks (R380, R381). -/
namespace Sys2Proof.Machine

/-- Each event of the table acts through `State.ranked`: whatever its effect is, it waits for its turn. -/
theorem exec_eq_ranked {c : Instr} {r : Nat × Nat} (h : eventRank? c = some r) (s : State) :
    ∃ t, exec c s = .next (s.ranked c t) := by
  unfold eventRank? at h
  split at h
  case h_13 => contradiction
  all_goals exact ⟨_, rfl⟩

/-- One event acts before another where both have a rank and the first one's rank and number come first. -/
theorem actsBefore_iff (j i : Instr) :
    actsBefore j i = true ↔ ∃ a b, eventRank? j = some a ∧ eventRank? i = some b ∧ (a.1 < b.1 ∨ a.1 = b.1 ∧ a.2 < b.2) := by
  unfold actsBefore
  split
  next a b ha hb => simp [ha, hb]
  next hn => exact ⟨fun h => absurd h Bool.false_ne_true, fun ⟨a, b, ha, hb, _⟩ => (hn a b ha hb).elim⟩

/-- Before its turn a command does nothing but wait among the held events. -/
theorem exec_of_actsBefore {c j : Instr} {s : State} (hj : j ∈ s.pending ++ s.held) (h : actsBefore j c = true) :
    exec c s = .next { s with held := putRanked c s.held } := by
  obtain ⟨_, r, -, hc, -⟩ := (actsBefore_iff j c).1 h
  obtain ⟨t, ht⟩ := exec_eq_ranked hc s
  rw [ht, State.ranked_held hj h]

theorem actsBefore_asymm {i j : Instr} (h : actsBefore i j = true) : actsBefore j i = false := by
  rw [← Bool.not_eq_true, actsBefore_iff]
  obtain ⟨a, b, ha, hb, hab⟩ := (actsBefore_iff i j).1 h
  rintro ⟨b', a', hb', ha', hba⟩
  obtain rfl : b = b' := Option.some.inj (hb.symm.trans hb')
  obtain rfl : a = a' := Option.some.inj (ha.symm.trans ha')
  omega

theorem actsBefore_trans {i j k : Instr} (h : actsBefore i j = true) (h' : actsBefore j k = true) : actsBefore i k = true := by
  obtain ⟨a, b, ha, hb, hab⟩ := (actsBefore_iff i j).1 h
  obtain ⟨b', c, hb', hc, hbc⟩ := (actsBefore_iff j k).1 h'
  obtain rfl : b = b' := Option.some.inj (hb.symm.trans hb')
  exact (actsBefore_iff i k).2 ⟨a, c, ha, hc, by omega⟩

/-- A list of held events in the order of the ranks stays in that order. -/
theorem putRanked_pairwise (c : Instr) (l : List Instr) (h : l.Pairwise (fun i j => actsBefore j i = false)) :
    (putRanked c l).Pairwise (fun i j => actsBefore j i = false) := by
  induction l with
  | nil => exact List.pairwise_singleton _ c
  | cons j l ih =>
    obtain ⟨hj, hl⟩ := List.pairwise_cons.1 h
    unfold putRanked
    split
    next hc =>
      refine List.pairwise_cons.2 ⟨fun k hk => ?_, h⟩
      rcases List.mem_cons.1 hk with rfl | hk
      · exact actsBefore_asymm hc
      · exact Bool.eq_false_iff.2 fun hkc => absurd (actsBefore_trans hkc hc) (by simp [hj k hk])
    next hc =>
      refine List.pairwise_cons.2 ⟨fun k hk => ?_, ih hl⟩
      rcases (mem_putRanked c k l).1 hk with rfl | hk
      · exact Bool.eq_false_iff.2 hc
      · exact hj k hk

/-- The tick edge of a module without power changes nothing. -/
theorem State.tickEdge_unpowered {s : State} (h : s.powered = false) : s.tickEdge = s := by
  simp [State.tickEdge, h]

theorem step_cons {s : State} {c : Instr} {rest : List Instr} (h : s.pending = c :: rest) :
    step s = exec c { s with pending := rest } := by
  simp only [step, h]

theorem step_nil {s : State} (h : s.pending = []) : step s = .next s.tickEdge := by
  simp only [step, h]

/-- Settles O1: `step` by the two shapes of the queue, the held events by the order of their ranks. -/
theorem stepRunsTheQueue : Obligations.StepRunsTheQueue := by
  unfold Obligations.StepRunsTheQueue
  refine ⟨fun c rest s h => step_cons h, fun s h => ⟨_, step_nil h, rfl, State.tickEdge_unpowered⟩, ?_,
    fun c l h => ⟨putRanked_pairwise c l h, fun i => mem_putRanked c i l⟩⟩
  rintro c s ⟨j, hj, h⟩
  exact exec_of_actsBefore hj h

end Sys2Proof.Machine
end

section
/-! PROOF. The register space, one law for each operation (R477–R485): where fields lie, what a write of a field, of a 32-bit register and of
a 64-bit register leaves, what a read answers. -/
namespace Sys2Proof.Machine

/-! Where fields and pages lie (R477, R486) -/

theorem Page.intBits_le (pg : Page) : pg.intBits ≤ 9 := by
  cases pg <;> simp [Page.intBits]

/-- A field of the common header lies in an aligned register below the page's own ones. -/
theorem headerFields_place {pg : Page} {f : Field} (h : f ∈ pg.headerFields) : f.off < 0x100 ∧ f.off % 4 = 0 ∧ f.lo < 32 := by
  have hb := pg.intBits_le
  simp only [Page.headerFields, List.mem_append, List.mem_map, List.mem_range, List.mem_cons, List.not_mem_nil, or_false] at h
  rcases h with ((h | ⟨i, hi, rfl⟩) | ⟨i, hi, rfl⟩) | ⟨i, hi, rfl⟩
  · rcases h with rfl | rfl | rfl | rfl | rfl | rfl | rfl | rfl | rfl | rfl | rfl <;> decide
  · simp [HDR_INT]
    omega
  · simp [HDR_MASK]
    omega
  · simp only [HDR_ERRCNT]
    omega

theorem mem_fieldsAt {pg : Page} {o : Nat} {f : Field} :
    f ∈ fieldsAt pg o ↔ f ∈ (if o < 0x100 then pg.headerFields else pg.ownFields) ∧ f.off = o := by
  simp [fieldsAt]

/-- Two fields of a page whose lowest bits lie at different places are different fields. -/
theorem regKey_ne_of_lo {pg : Page} {f g : Field} (h : 8 * f.off + f.lo ≠ 8 * g.off + g.lo) : regKey pg f ≠ regKey pg g := by
  simp only [regKey]
  omega

/-- Map indices rise no faster than the pages' places. -/
theorem Page.mapIndex_le (pg : Page) : pg.mapIndex ≤ 511 + pg.base / 0x1000 := by
  cases pg <;> simp only [Page.mapIndex, Page.base] <;> omega

/-- No field of a common header is the pending bit of its page's vector. -/
theorem header_ne_pba {pg : Page} {f : Field} (h : f ∈ pg.headerFields) : regKey pg f ≠ regKey .hif (HIF_PBA pg.vector) := by
  obtain ⟨ho, -, hl⟩ := headerFields_place h
  have hb := pg.base_mod
  have hm := pg.mapIndex_le
  have hv : pg.vector ≤ 2 + pg.mapIndex / 512 := by
    unfold Page.vector
    split
    · omega
    · split <;> omega
  have hhif : Page.hif.base = 0x6000 := rfl
  simp only [regKey, HIF_PBA, hhif]
  omega

/-- Only FEATURE_EN of the MGT page enables features: no other field of a page lies in its place. -/
theorem regKey_ne_featureEn {pg : Page} {o : Nat} {f : Field} (h : f ∈ fieldsAt pg o) (hw : wideRw? pg o = none) :
    regKey pg f ≠ regKey .mgt HDR_FEATURE_EN := by
  obtain ⟨hf, rfl⟩ := mem_fieldsAt.1 h
  have hb := pg.base_mod
  have hmgt : Page.mgt.base = 0 := rfl
  simp only [regKey, HDR_FEATURE_EN, hmgt]
  by_cases ho : f.off < 0x100
  · rw [if_pos ho] at hf
    obtain ⟨-, h4, hl⟩ := headerFields_place hf
    have : f.off ≠ 0x010 := fun h => by simp [wideRw?, h, HDR_FEATURE_EN] at hw
    omega
  · omega

/-! A field (R13, R284) -/

theorem State.fieldOff_congr {s t : State} (h : t.rd .mgt HDR_FEATURE_EN = s.rd .mgt HDR_FEATURE_EN) (pg : Page) (f : Field) :
    t.fieldOff pg f = s.fieldOff pg f := by
  simp only [State.fieldOff, State.feature, h]

theorem State.writeField_only (s : State) (pg : Page) (v : Nat) (f : Field) : OnlyRegs s (s.writeField pg v f) [regKey pg f] := by
  unfold State.writeField
  split
  · exact OnlyRegs.refl s _
  · split
    · exact s.wr_only pg f _
    · exact s.wr_only pg f _
    · unfold State.clearCount
      split
      · exact s.wr_only pg f _
      · exact OnlyRegs.refl s _
    · exact OnlyRegs.refl s _

/-- What a write of `v` to a field's register makes of the field from one state to the next, by its access type (R13) and its feature
(R284). -/
structure FieldWritten (s t : State) (pg : Page) (f : Field) (v : Nat) : Prop where
  rw : f.acc = .rw → s.fieldOff pg f = false → t.rd pg f = bits v f.lo f.width
  off : s.fieldOff pg f = true → t.rd pg f = s.rd pg f
  w1c : f.acc = .w1c → s.fieldOff pg f = false → t.rd pg f = (s.rd pg f - (s.rd pg f &&& bits v f.lo f.width)) % 2 ^ f.width
  ro : f.acc = .ro → t.rd pg f = s.rd pg f

theorem bits_mod (v lo width : Nat) : bits v lo width % 2 ^ width = bits v lo width := Nat.mod_mod _ _

theorem State.writeField_written (s : State) (pg : Page) (v : Nat) (f : Field) : FieldWritten s (s.writeField pg v f) pg f v where
  rw ha ho := by simp [State.writeField, ha, ho, bits_mod]
  off ho := by simp [State.writeField, ho]
  w1c ha ho := by simp [State.writeField, ha, ho]
  ro ha := by simp [State.writeField, ha]

/-- A field whose feature is off ignores a write. -/
theorem FieldWritten.of_off {s : State} {pg : Page} {f : Field} (h : s.fieldOff pg f = true) (v : Nat) : FieldWritten s s pg f v where
  rw _ ho := by simp [h] at ho
  off _ := rfl
  w1c _ ho := by simp [h] at ho
  ro _ := rfl

/-- What happens to other fields before and after makes no difference to a written field. -/
theorem FieldWritten.congr {s t s' t' : State} {pg : Page} {f : Field} {v : Nat} (h : FieldWritten s t pg f v)
    (ho : s.fieldOff pg f = s'.fieldOff pg f) (hs : s.rd pg f = s'.rd pg f) (ht : t'.rd pg f = t.rd pg f) : FieldWritten s' t' pg f v where
  rw ha hn := by rw [ht, h.rw ha (ho.trans hn)]
  off hn := by rw [ht, h.off (ho.trans hn), hs]
  w1c ha hn := by rw [ht, h.w1c ha (ho.trans hn), hs]
  ro ha := by rw [ht, h.ro ha, hs]

/-! A 32-bit register (R13, R481, R484) -/

theorem State.writeFields_only (s : State) (pg : Page) (v : Nat) (l : List Field) :
    OnlyRegs s (l.foldl (fun s f => s.writeField pg v f) s) (l.map (regKey pg)) := by
  induction l generalizing s with
  | nil => exact OnlyRegs.refl s _
  | cons f l ih => exact (s.writeField_only pg v f).trans (ih _)

/-- Each field of a plain register is written as its access type says, where no other one shares its lowest bit. -/
theorem State.writePlain_written {s : State} {pg : Page} {o : Nat} {f : Field} {l l' : List Field} (hw : wideRw? pg o = none)
    (hf : fieldsAt pg o = l ++ f :: l') (hd : ∀ g ∈ l ++ l', g.lo ≠ f.lo) (v : Nat) : FieldWritten s (s.writePlain pg o v) pg f v := by
  have hmem : ∀ g ∈ l ++ f :: l', g ∈ fieldsAt pg o := fun g hg => hf ▸ hg
  have hoff : ∀ g ∈ l ++ f :: l', g.off = o := fun g hg => (mem_fieldsAt.1 (hmem g hg)).2
  have hkey : ∀ g ∈ l ++ l', regKey pg f ≠ regKey pg g := fun g hg => by
    have hg' : g ∈ l ++ f :: l' := by
      rcases List.mem_append.1 hg with hg | hg <;> simp [hg]
    have := hd g hg
    exact regKey_ne_of_lo (by rw [hoff f (by simp), hoff g hg']; omega)
  have hbefore := s.writeFields_only pg v l
  have hfeat : (l.foldl (fun s f => s.writeField pg v f) s).rd .mgt HDR_FEATURE_EN = s.rd .mgt HDR_FEATURE_EN := by
    refine hbefore.2 _ _ fun hk => ?_
    obtain ⟨g, hg, hk⟩ := List.mem_map.1 hk
    exact regKey_ne_featureEn (hmem g (by simp [hg])) hw hk
  have hfold : s.writePlain pg o v =
      l'.foldl (fun s f => s.writeField pg v f) ((l.foldl (fun s f => s.writeField pg v f) s).writeField pg v f) := by
    rw [State.writePlain, hf, List.foldl_append, List.foldl_cons]
  rw [hfold]
  refine (State.writeField_written _ pg v f).congr (State.fieldOff_congr hfeat pg f) (hbefore.2 _ _ fun hk => ?_)
    ((State.writeFields_only _ pg v l').2 _ _ fun hk => ?_) <;>
  · obtain ⟨g, hg, hk⟩ := List.mem_map.1 hk
    exact hkey g (by simp [hg]) hk.symm

theorem State.signalFrom_only (old s : State) (l : List Nat) :
    OnlyRegs s (State.signalFrom old s l) (l.map (fun v => regKey .hif (HIF_PBA v))) := by
  induction l generalizing s with
  | nil => exact OnlyRegs.refl s _
  | cons v l ih =>
    unfold State.signalFrom
    split
    · exact (s.sendVector_only v).trans (ih _)
    · exact (ih s).mono (by simp +contextual)

theorem State.writeCommon_written {s : State} {pg : Page} {o : Nat} {f : Field} {l l' : List Field} (ho : o < 0x100)
    (hw : wideRw? pg o = none) (hf : fieldsAt pg o = l ++ f :: l') (hd : ∀ g ∈ l ++ l', g.lo ≠ f.lo) (v : Nat) :
    FieldWritten s (s.writeCommon pg o v) pg f v := by
  have hmem : f ∈ pg.headerFields := by simpa [ho] using (mem_fieldsAt.1 (hf ▸ by simp : f ∈ fieldsAt pg o)).1
  exact (State.writePlain_written hw hf hd v).congr rfl rfl
    ((State.signalFrom_only s _ [pg.vector]).2 pg f (by simpa using header_ne_pba hmem))

/-- PROGRESS, which a write through a page that counts actions raises (R488), lies in the header. -/
theorem State.rd_progress_own (s : State) {pg : Page} {f : Field} (ho : 0x30 ≤ f.off) : (s.progress pg).rd pg f = s.rd pg f := by
  refine (s.progress_only pg).2 pg f ?_
  rw [List.mem_singleton]
  refine regKey_ne_of_lo ?_
  simp only [HDR_PROGRESS]
  omega

theorem State.writeOwn_written {s : State} {pg : Page} {o v : Nat} {f : Field} {l l' : List Field} (ho : 0x100 ≤ o)
    (hw : wideRw? pg o = none) (hg : s.writeGlobal pg o v = none) (hp : s.writePart pg o v = none)
    (hf : fieldsAt pg o = l ++ f :: l') (hd : ∀ g ∈ l ++ l', g.lo ≠ f.lo) : FieldWritten s (s.writeOwn pg o v) pg f v := by
  have hoff : f.off = o := (mem_fieldsAt.1 (hf ▸ by simp : f ∈ fieldsAt pg o)).2
  refine (State.writePlain_written hw hf hd v).congr rfl rfl ?_
  simp only [State.writeOwn, hg, hp]
  split
  · exact State.rd_progress_own _ (by omega)
  · rfl

/-- The fabric's feature covers whole registers. -/
theorem featureOf_fabric {pg : Page} {f g : Field} (ho : f.off = g.off) (h : featureOf pg g = some 4) : featureOf pg f = some 4 := by
  cases pg <;> simp_all [featureOf]

/-- A write to a plain register of a page that answers, field by field. -/
theorem State.pageWrite_written {s : State} {pg : Page} {o v : Nat} {f : Field} {l l' : List Field} (hw : wideRw? pg o = none)
    (hp : 0x100 ≤ o → s.writeGlobal pg o v = none ∧ s.writePart pg o v = none) (hf : fieldsAt pg o = l ++ f :: l')
    (hd : ∀ g ∈ l ++ l', g.lo ≠ f.lo) : FieldWritten s (s.pageWrite pg o v) pg f v := by
  have hmem : f ∈ fieldsAt pg o := hf ▸ by simp
  unfold State.pageWrite
  split
  next hoff =>
    obtain ⟨g, hg, hoff⟩ := List.any_eq_true.1 hoff
    simp only [Bool.and_eq_true, beq_iff_eq] at hoff
    have hfo := featureOf_fabric ((mem_fieldsAt.1 hmem).2.trans (mem_fieldsAt.1 hg).2.symm) hoff.1
    exact FieldWritten.of_off (by simpa [State.fieldOff, hoff.1, hfo] using hoff.2) v
  next =>
    simp only [hw]
    split
    next ho => exact State.writeCommon_written ho hw hf hd v
    next ho =>
      obtain ⟨hg, hp⟩ := hp (by omega)
      exact State.writeOwn_written (by omega) hw hg hp hf hd

/-! A 64-bit register (R481) -/

/-- While no field of a register is off, its write is not discarded for the fabric's feature. -/
theorem fabricOff_eq_false {s : State} {pg : Page} {o : Nat} (h : ∀ g ∈ fieldsAt pg o, s.fieldOff pg g = false) :
    (fieldsAt pg o).any (fun f => featureOf pg f == some 4 && s.fieldOff pg f) = false := by
  rw [List.any_eq_false]
  intro g hg
  simp [h g hg]

/-- The lower word is held until its upper word is written. -/
theorem State.pageWrite_lower {s : State} {pg : Page} {o : Nat} {f : Field} (hw : wideRw? pg o = some (f, false))
    (h : ∀ g ∈ fieldsAt pg o, s.fieldOff pg g = false) (v : Nat) :
    s.pageWrite pg o v = { s with held64 := mapIns s.held64 (8 * (pg.base + f.off)) v } := by
  simp [State.pageWrite, fabricOff_eq_false h, hw]

/-- The upper word of a register of the page's own lies behind the header. -/
theorem wideRw?_upper {pg : Page} {o : Nat} {f : Field} (h : wideRw? pg o = some (f, true)) (hf : f ≠ HDR_FEATURE_EN) :
    0x100 ≤ o ∧ f.off + 4 = o := by
  unfold wideRw? at h
  split at h
  next g hg =>
    simp only [Option.some.injEq, Prod.mk.injEq] at h
    obtain ⟨rfl, hne⟩ := h
    have hp := List.find?_some hg
    have hm := List.mem_of_find?_eq_some hg
    simp only [Bool.and_eq_true, Bool.or_eq_true, beq_iff_eq] at hp
    constructor
    · refine Nat.le_of_not_lt fun ho => ?_
      rw [if_pos ho] at hm
      exact hf (List.mem_singleton.1 hm)
    · exact hp.2.resolve_left (by simpa using hne)
  next => contradiction

/-- A 64-bit register takes its value as one update, which counts on the pages that count actions. -/
theorem State.writeWide_eq {s : State} {pg : Page} {f : Field} (v : Nat) (hf : f ≠ HDR_FEATURE_EN) (hoff : s.fieldOff pg f = false)
    (hpg : ∀ p, pg ≠ .hch p) :
    s.writeWide pg f v =
      if countsActions pg then (s.wr pg f (bits (if pg = .sec then alignWide f v else v) f.lo f.width)).progress pg
      else s.wr pg f (bits (if pg = .sec then alignWide f v else v) f.lo f.width) := by
  simp only [State.writeWide, if_neg hf, hoff, Bool.false_eq_true, if_false]
  cases pg with
  | hch p => exact absurd rfl (hpg p)
  | _ => simp

theorem State.rd_writeWide {s : State} {pg : Page} {f : Field} (v : Nat) (hf : f ≠ HDR_FEATURE_EN) (hoff : s.fieldOff pg f = false)
    (hpg : ∀ p, pg ≠ .hch p) (ho : 0x30 ≤ f.off) :
    (s.writeWide pg f v).rd pg f = bits (if pg = .sec then alignWide f v else v) f.lo f.width := by
  rw [State.writeWide_eq v hf hoff hpg]
  split
  · rw [State.rd_progress_own _ ho, State.rd_wr_same, bits_mod]
  · rw [State.rd_wr_same, bits_mod]

/-- The upper word completes the update with the word held. -/
theorem State.rd_pageWrite_upper {s : State} {pg : Page} {o lower : Nat} {f : Field} (hw : wideRw? pg o = some (f, true))
    (hl : mapFind s.held64 (8 * (pg.base + f.off)) = some lower) (hf : f ≠ HDR_FEATURE_EN) (hoff : s.fieldOff pg f = false)
    (h : ∀ g ∈ fieldsAt pg o, s.fieldOff pg g = false) (hpg : ∀ p, pg ≠ .hch p) (v : Nat) :
    (s.pageWrite pg o v).rd pg f =
      bits (if pg = .sec then alignWide f (lower + 2 ^ 32 * v) else lower + 2 ^ 32 * v) f.lo f.width := by
  obtain ⟨ho, hfo⟩ := wideRw?_upper hw hf
  simp only [State.pageWrite, fabricOff_eq_false h, hw, hl, Option.getD_some]
  exact State.rd_writeWide _ hf hoff hpg (by omega)

/-! The bus (R477–R484) -/

theorem State.busWrite_written (s : State) (off v : Nat) (hv : v < 2 ^ 32) : RegisterWritten s (s.busWrite off v) off v := by
  unfold RegisterWritten State.busWrite
  refine ⟨fun h => by rw [h], fun pg hpg => ?_⟩
  simp only [hpg, Nat.mod_eq_of_lt hv]
  refine ⟨fun ha => by simp [ha], fun ha => ?_⟩
  rw [if_pos ha]
  refine ⟨fun f l l' hw hp hf hd => ?_, fun f hw h => State.pageWrite_lower hw h v,
    fun f lower hw hl hf hoff h hp => State.rd_pageWrite_upper hw hl hf hoff h hp v⟩
  have h := State.pageWrite_written hw hp hf hd
  exact ⟨h.rw, fun hoff _ => h.off hoff, h.w1c, fun ha _ => h.ro ha⟩

/-- An access of a wrong alignment or size (R479) touches nothing: it is counted, and its interrupt pends. -/
theorem State.accessFault_only (s : State) :
    OnlyRegs s s.accessFault (bumpKeys .mgt 0 ++ raiseKeys .mgt MGT_INT_access_fault) :=
  (s.bump_only .mgt 0).trans (State.raise_only _ .mgt MGT_INT_access_fault)

theorem State.rd_accessFault (s : State) : s.accessFault.rd .mgt (HDR_INT MGT_INT_access_fault) = 1 :=
  State.rd_raise _ .mgt _ (by decide) (by decide)

/-- A read changes nothing but the answer and the latches. -/
theorem State.busRead_other (s : State) (req off : Nat) :
    s.busRead req off = { s with answer := (s.busRead req off).answer, latch64 := (s.busRead req off).latch64 } := by
  unfold State.busRead
  split
  · rfl
  · dsimp only
    split
    · rfl
    · split
      · split <;> rfl
      · rfl

/-- A reserved offset reads 0 (R478). -/
theorem State.busRead_reserved (s : State) (req : Nat) {off : Nat} (h : Page.at? off = none) :
    s.busRead req off = { s with answer := [0, 0, 0, 0] } := by
  simp only [State.busRead, h]
  rfl

/-- A lower word is the answer and latches its upper word (R480). -/
theorem State.busRead_lower (s : State) (req : Nat) {off : Nat} {pg : Page} (h : Page.at? off = some pg)
    (hw : wideRo pg (off - pg.base) = true) :
    s.busRead req off = ({ s with answer := leBytes 4 (s.pageWord pg (off - pg.base)) } : State).latch req (8 * off)
      (s.pageWord pg (off - pg.base + 4)) := by
  simp only [State.busRead, h, hw, if_true]

/-- An upper word that the requester has latched is the answer, and the latch is released (R480). -/
theorem State.busRead_latched (s : State) {req off : Nat} {pg : Page} {e : Nat × Nat × Nat} (h : Page.at? off = some pg)
    (hn : wideRo pg (off - pg.base) = false) (ho : 4 ≤ off - pg.base) (hw : wideRo pg (off - pg.base - 4) = true)
    (he : s.latch64.find? (fun e => e.1 == req && e.2.1 == 8 * (off - 4)) = some e) :
    s.busRead req off =
      { s with answer := leBytes 4 e.2.2, latch64 := s.latch64.filter (fun e => e.1 != req || e.2.1 != 8 * (off - 4)) } := by
  simp only [State.busRead, h, hn, ho, hw, he, Bool.false_eq_true, if_false, decide_true, Bool.and_self, if_true]

/-- Any other word is the answer, and no latch changes. -/
theorem State.busRead_plain (s : State) {req off : Nat} {pg : Page} (h : Page.at? off = some pg)
    (hn : wideRo pg (off - pg.base) = false) (hu : off - pg.base < 4 ∨ wideRo pg (off - pg.base - 4) = false ∨
      s.latch64.find? (fun e => e.1 == req && e.2.1 == 8 * (off - 4)) = none) :
    s.busRead req off = { s with answer := leBytes 4 (s.pageWord pg (off - pg.base)) } := by
  simp only [State.busRead, h, hn, Bool.false_eq_true, if_false]
  split
  next hlatch =>
    obtain ⟨ho, hw⟩ := (Bool.and_eq_true _ _).mp hlatch
    have ho := of_decide_eq_true ho
    rcases hu with hu | hu | hu
    · omega
    · rw [hu] at hw
      contradiction
    · rw [hu]
  next => rfl

/-- No entry that a filter has dropped is found. -/
theorem find?_released (l : List (Nat × Nat × Nat)) (req key : Nat) :
    (l.filter (fun e => e.1 != req || e.2.1 != key)).find? (fun e => e.1 == req && e.2.1 == key) = none := by
  rw [List.find?_eq_none]
  intro e he
  have hkept := (List.mem_filter.1 he).2
  simp only [Bool.or_eq_true, bne_iff_ne, Bool.and_eq_true, beq_iff_eq, not_and] at hkept ⊢
  exact fun hr hk => hkept.elim (fun h => h hr) (fun h => h hk)

/-- A read answers its word; a lower word latches its upper word, which the requester's next read of it takes (R480). -/
theorem State.busRead_read (s : State) (req off : Nat) : RegisterRead s (s.busRead req off) req off := by
  refine ⟨s.busRead_other req off, fun h => ?_, fun pg h => ⟨fun hw => ?_, fun hn ho hw e he => ?_, fun hn hu => ?_⟩⟩
  · rw [s.busRead_reserved req h]
    exact ⟨rfl, rfl⟩
  · rw [s.busRead_lower req h hw]
    exact ⟨rfl, rfl⟩
  · rw [s.busRead_latched h hn ho hw he]
    exact ⟨rfl, find?_released _ _ _⟩
  · rw [s.busRead_plain h hn hu]
    exact ⟨rfl, rfl⟩

/-! Vectors (R489, R494) -/

/-- A vector that sends or pends changes no word of the MSI-X table. -/
theorem State.msix_sendVector (s : State) (u : Nat) {i : Nat} (hi : i < 64) :
    (s.sendVector u).on .hif (HIF_MSIX i) = s.on .hif (HIF_MSIX i) := by
  unfold State.on
  rw [(s.sendVector_only u).2]
  simp only [List.mem_singleton, regKey, HIF_MSIX, HIF_PBA]
  omega

theorem State.sendVectors_only (s : State) (l : List Nat) :
    OnlyRegs s (s.each l State.sendVector) (l.map (fun v => regKey .hif (HIF_PBA v))) := by
  induction l generalizing s with
  | nil => exact OnlyRegs.refl s _
  | cons v l ih => exact (s.sendVector_only v).trans (ih _)

/-- Of several vectors, those that their table entries do not mask send, in turn. -/
theorem State.sendVectors_sent (s : State) (l : List Nat) (hl : ∀ v ∈ l, v < 16) :
    (s.each l State.sendVector).sent = s.sent ++ (l.filter (fun v => !s.on .hif (HIF_MSIX (4 * v + 3)))).map .msix := by
  induction l generalizing s with
  | nil => simp [State.each]
  | cons v l ih =>
    have hrest : ∀ u ∈ l, u < 16 := fun u hu => hl u (List.mem_cons_of_mem _ hu)
    have hmask : l.filter (fun u => !(s.sendVector v).on .hif (HIF_MSIX (4 * u + 3))) =
        l.filter (fun u => !s.on .hif (HIF_MSIX (4 * u + 3))) :=
      List.filter_congr fun u hu => by rw [s.msix_sendVector v (by have := hrest u hu; omega)]
    have hstep : (s.each (v :: l) State.sendVector).sent =
        (s.sendVector v).sent ++ (l.filter (fun u => !s.on .hif (HIF_MSIX (4 * u + 3)))).map .msix := by
      rw [← hmask]
      exact ih _ hrest
    rw [hstep, List.filter_cons]
    unfold State.sendVector
    split <;> simp_all

/-- Those that are masked have their pending bits set. -/
theorem State.sendVectors_pba (s : State) (l : List Nat) (hl : ∀ v ∈ l, v < 16) {v : Nat} (hv : v ∈ l)
    (hm : s.on .hif (HIF_MSIX (4 * v + 3)) = true) : (s.each l State.sendVector).rd .hif (HIF_PBA v) = 1 := by
  induction l generalizing s with
  | nil => contradiction
  | cons u l ih =>
    have hrest : ∀ u ∈ l, u < 16 := fun u hu => hl u (List.mem_cons_of_mem _ hu)
    have hv16 := hl v hv
    show ((s.sendVector u).each l State.sendVector).rd .hif (HIF_PBA v) = 1
    by_cases hin : v ∈ l
    · exact ih _ hrest hin ((s.msix_sendVector u (by omega)).trans hm)
    · obtain rfl : v = u := (List.mem_cons.1 hv).resolve_right hin
      rw [(State.sendVectors_only _ l).2]
      · simp [State.sendVector, hm, HIF_PBA]
      · simp only [List.mem_map, regKey, HIF_PBA]
        rintro ⟨w, hw, hk⟩
        exact hin (by rwa [show v = w by omega])

/-- The vectors that a rearm sends: those named whose group still pends. -/
def State.rearmed (s : State) (vectors : Nat) : List Nat := (List.range 16).filter (fun v => bit vectors v && s.pendCount v != 0)

theorem State.mem_rearmed {s : State} {vectors v : Nat} :
    v ∈ s.rearmed vectors ↔ v < 16 ∧ (bit vectors v && s.pendCount v != 0) = true := by
  simp [State.rearmed]

theorem State.rearm_eq (s : State) (vectors : Nat) : s.rearm vectors = s.each (s.rearmed vectors) State.sendVector := rfl

/-! Reports over SMBus (R445, R507) -/

theorem SameMemory.modSecurity {s t : State} (h : SameMemory s t) (g : Security → Security) : SameMemory s (t.modSecurity g) := h

theorem RegsBut.modSecurity {s t : State} {ks : List Nat} (h : RegsBut s t ks) (g : Security → Security) :
    RegsBut s (t.modSecurity g) ks := h

/-- While the attestation key has a signature left, a report over a challenge is signed with it. -/
theorem State.signReport_spec {s : State} (h : 0 < s.rd .sec SEC_RPT_CTL_att_left) (challenge : List Byte) :
    ∃ t, s.signReport challenge = some (s.reportBytes challenge, t) ∧ t.security.rptSeq = s.security.rptSeq + 1 ∧ SameMemory s t ∧
      RegsBut s t (regKey .sec SEC_RPT_CTL_att_left :: bumpKeys .sec 0) := by
  have hkey : s.readyKey = some s := if_neg (by omega)
  rw [State.signReport, hkey, Option.map_some]
  refine ⟨_, rfl, ?_, (State.bump_only _ .sec 0).sameMemory, (s.wr_only .sec SEC_RPT_CTL_att_left _).2.trans (State.bump_only _ .sec 0).2⟩
  rw [(State.bump_only _ .sec 0).security]
  rfl

end Sys2Proof.Machine
end

section
/-! PROOF. O57: what each command of the register space leaves, out of the laws of the operations that it runs. -/
namespace Sys2Proof.Machine

/-! The transactions of the host (R479) -/

theorem leNat_lt (l : List Byte) : leNat l < 256 ^ l.length := by
  induction l with
  | nil => simp [leNat]
  | cons b l ih =>
    have hb : b.toNat < 256 := b.isLt
    simp only [leNat, List.length_cons, Nat.pow_succ]
    omega

/-- A word of four bytes. -/
theorem leAt_four_lt (l : List Byte) (off : Nat) : leAt l off 4 < 2 ^ 32 := by
  have h := leNat_lt (slice l off 4)
  rw [slice, List.length_map, List.length_range] at h
  exact h

theorem State.busTransaction_word (s : State) {off : Nat} {data : List Byte} (hl : data.length = 4) (ha : off % 4 = 0) :
    s.busTransaction off data = s.busWrite off (leAt data 0 4) := by
  simp [State.busTransaction, hl, ha]

theorem State.busTransaction_pair (s : State) {off : Nat} {data : List Byte} (hl : data.length = 8) (ha : off % 8 = 0) :
    s.busTransaction off data = (s.busWrite off (leAt data 0 4)).busWrite (off + 4) (leAt data 4 4) := by
  simp [State.busTransaction, hl, ha]

theorem State.busTransaction_fault (s : State) {off : Nat} {data : List Byte} (hl : data.length ≤ 8) (h4 : ¬(data.length = 4 ∧ off % 4 = 0))
    (h8 : ¬(data.length = 8 ∧ off % 8 = 0)) : s.busTransaction off data = s.accessFault := by
  rw [State.busTransaction, if_neg (by omega), if_neg h4, if_neg h8]

/-! The commands, while the host or SMBus reaches the module -/

theorem exec_lowerWordRead {s : State} (h : s.hostReach = true) (req : Nat) (off : BitVec 28) :
    exec (.lowerWordRead req off) s =
      .next (if off.toNat % 4 ≠ 0 then ({ s with answer := leBytes 4 0 } : State).accessFault else s.busRead req off.toNat) := by
  simp [exec, execLowerWordRead, h]

theorem exec_registerWrite {s : State} (h : s.hostReach = true) (req : Nat) (off : BitVec 28) (data : List Byte) :
    exec (.registerWrite req off data) s = .next (s.busTransaction off.toNat data) := by
  simp [exec, execRegisterWrite, h]

theorem exec_intRearm {s : State} (h : s.hostReach = true) (vectors : BitVec 16) :
    exec (.intRearm vectors) s = .next (s.each (s.rearmed vectors.toNat) State.sendVector) := by
  simp [exec, execIntRearm, h, State.rearm_eq]

theorem exec_smbusRegisterRead {s : State} (h : s.smbusUp = true) (off : BitVec 28) :
    exec (.smbusRegisterRead off) s =
      .next (if s.smbusReach off.toNat = false then ({ s with answer := leBytes 4 0 } : State).bump .mgt 2
        else if off.toNat % 4 ≠ 0 then ({ s with answer := leBytes 4 0 } : State).accessFault else s.busRead smbusReq off.toNat) := by
  simp [exec, execSmbusRegisterRead, h]

theorem exec_smbusRegisterWrite {s : State} (h : s.smbusUp = true) (off : BitVec 28) (v : W32) :
    exec (.smbusRegisterWrite off v) s =
      .next (if s.smbusReach off.toNat = false then s.bump .mgt 2
        else if off.toNat % 4 ≠ 0 then s.accessFault else s.busWrite off.toNat v.toNat) := by
  simp [exec, execSmbusRegisterWrite, h]

theorem exec_smbusChallenge {s t : State} {challenge l : List Byte} (h : s.smbusUp = true) (ht : s.signReport challenge = some (l, t)) :
    exec (.smbusChallenge challenge) s = .next (t.modSecurity (fun x => { x with smbReport := l })) := by
  simp [exec, execSmbusChallenge, h, ht]

/-! Rearmed vectors and challenges -/

theorem intRearm_sends {s : State} (h : s.hostReach = true) (vectors : BitVec 16) :
    ∃ t l, exec (.intRearm vectors) s = .next t ∧ t = { s with regs := t.regs, sent := s.sent ++ l } ∧
      (∀ v, v < 16 → (.msix v ∈ l ↔ (bit vectors.toNat v && s.pendCount v != 0) = true ∧ s.on .hif (HIF_MSIX (4 * v + 3)) = false)) ∧
      (∀ v, v < 16 → (bit vectors.toNat v && s.pendCount v != 0) = true → s.on .hif (HIF_MSIX (4 * v + 3)) = true →
        t.rd .hif (HIF_PBA v) = 1) ∧
      RegsBut s t ((List.range 16).map (fun v => regKey .hif (HIF_PBA v))) := by
  have hlt : ∀ v ∈ s.rearmed vectors.toNat, v < 16 := fun v hv => (State.mem_rearmed.1 hv).1
  have honly := s.sendVectors_only (s.rearmed vectors.toNat)
  refine ⟨_, ((s.rearmed vectors.toNat).filter (fun v => !s.on .hif (HIF_MSIX (4 * v + 3)))).map .msix, exec_intRearm h vectors, ?_,
    fun v hv => ?_, fun v hv hdue hm => s.sendVectors_pba _ hlt (State.mem_rearmed.2 ⟨hv, hdue⟩) hm, ?_⟩
  · rw [← s.sendVectors_sent _ hlt]
    exact honly.1
  · simp [State.mem_rearmed, hv]
  · refine honly.2.mono fun k hk => ?_
    obtain ⟨v, hv, rfl⟩ := List.mem_map.1 hk
    exact List.mem_map.2 ⟨v, List.mem_range.2 (hlt v hv), rfl⟩

theorem smbusChallenge_signs {s : State} (h : s.smbusUp = true) (challenge : List Byte) (hk : 0 < s.rd .sec SEC_RPT_CTL_att_left) :
    ∃ t, exec (.smbusChallenge challenge) s = .next t ∧ t.security.smbReport = s.reportBytes challenge ∧
      t.security.rptSeq = s.security.rptSeq + 1 ∧ SameMemory s t ∧
      RegsBut s t (regKey .sec SEC_RPT_CTL_att_left :: bumpKeys .sec 0) := by
  obtain ⟨t, ht, hseq, hmem, hregs⟩ := State.signReport_spec hk challenge
  exact ⟨_, exec_smbusChallenge h ht, by rw [State.modSecurity_security], by rw [State.modSecurity_security, hseq],
    hmem.modSecurity _, hregs.modSecurity _⟩

/-- Settles O57: each command while it reaches the module is one operation of the register space, whose law says what it leaves. -/
theorem registersAreReadAndWritten : Obligations.RegistersAreReadAndWritten := by
  intro s
  refine ⟨fun h => ⟨fun req off => ⟨fun ha => ?_, fun ha => ?_⟩,
      fun req off data => ⟨fun hl ha => ?_, fun hl ha => ?_, fun hl h4 h8 => ?_⟩, intRearm_sends h⟩,
    fun h => ⟨fun off => ⟨fun hr ha => ?_, fun hr => ?_, fun v hr ha => ?_, fun v hr => ?_⟩, fun piece => ?_, smbusChallenge_signs h⟩⟩
  · exact ⟨_, (exec_lowerWordRead h req off).trans (by rw [if_neg (by simpa using ha)]), s.busRead_read req off.toNat⟩
  · have hf := ({ s with answer := leBytes 4 0 } : State).accessFault_only
    exact ⟨_, (exec_lowerWordRead h req off).trans (by rw [if_pos ha]), hf.answer, State.rd_accessFault _, hf.2, hf.sameMemory⟩
  · exact ⟨_, (exec_registerWrite h req off data).trans (by rw [State.busTransaction_word s hl ha]),
      s.busWrite_written off.toNat _ (leAt_four_lt data 0)⟩
  · exact ⟨_, s.busWrite off.toNat (leAt data 0 4), (exec_registerWrite h req off data).trans (by rw [State.busTransaction_pair s hl ha]),
      s.busWrite_written off.toNat _ (leAt_four_lt data 0), State.busWrite_written _ _ _ (leAt_four_lt data 4)⟩
  · have hf := s.accessFault_only
    exact ⟨_, (exec_registerWrite h req off data).trans (by rw [State.busTransaction_fault s hl h4 h8]),
      s.rd_accessFault, hf.2, hf.sameMemory⟩
  · exact ⟨_, (exec_smbusRegisterRead h off).trans (by rw [if_neg (by simp [hr]), if_neg (by simpa using ha)]),
      s.busRead_read smbusReq off.toNat⟩
  · have hb := ({ s with answer := leBytes 4 0 } : State).bump_only .mgt 2
    exact ⟨_, (exec_smbusRegisterRead h off).trans (by rw [if_pos hr]), hb.answer, hb.2, hb.sameMemory⟩
  · exact ⟨_, (exec_smbusRegisterWrite h off v).trans (by rw [if_neg (by simp [hr]), if_neg (by simpa using ha)]),
      s.busWrite_written off.toNat _ v.isLt⟩
  · exact ⟨_, (exec_smbusRegisterWrite h off v).trans (by rw [if_pos hr]), s.bump_only .mgt 2⟩
  · exact ⟨_, by simp only [exec, execSmbusReportRead, h, if_true], rfl⟩

end Sys2Proof.Machine
end

section
/-! PROOF. O30: what the rotation unit does (R85, R87, R211). Examining a product's input and sending its segments leave memory, the other
partitions and the blocks rotated so far; in between, one block is kept. -/
namespace Sys2Proof.Machine

/-! What leaves the rotated blocks of a partition -/

/-- Memory, every other partition's record and the rotated blocks of the partition are as before. -/
def RotKept (s t : State) (p : Nat) : Prop := SameMemory s t ∧ OnlyPart s t p ∧ (t.part p).rot = (s.part p).rot

theorem RotKept.refl (s : State) (p : Nat) : RotKept s s p := ⟨SameMemory.refl s, fun _ _ => rfl, rfl⟩

theorem RotKept.trans {s t u : State} {p : Nat} (h : RotKept s t p) (h' : RotKept t u p) : RotKept s u p := by
  obtain ⟨hmem, hpart, hrot⟩ := h
  obtain ⟨hmem', hpart', hrot'⟩ := h'
  exact ⟨hmem.trans hmem', fun q hq => (hpart' q hq).trans (hpart q hq), hrot'.trans hrot⟩

theorem OnlyRegs.rotKept {s t : State} {ks : List Nat} (h : OnlyRegs s t ks) (p : Nat) : RotKept s t p :=
  ⟨h.sameMemory, fun q _ => h.acc_part q, by rw [h.acc_part]⟩

theorem State.modPart_sameMemory (s : State) (p : Nat) (f : Part → Part) : SameMemory s (s.modPart p f) :=
  ⟨fun _ => rfl, fun _ => rfl, rfl⟩

theorem State.modPart_onlyPart (s : State) (p : Nat) (f : Part → Part) : OnlyPart s (s.modPart p f) p :=
  fun q hq => s.part_setPart_ne p q _ hq

theorem State.modPart_rotKept (s : State) (p : Nat) {f : Part → Part} (hf : ∀ x, (f x).rot = x.rot) : RotKept s (s.modPart p f) p :=
  ⟨s.modPart_sameMemory p f, s.modPart_onlyPart p f, by rw [State.modPart_eq, State.part_setPart_same, hf]⟩

theorem RotKept.foldl {α : Type} {s t : State} {f : State → α → State} {p : Nat} (h : RotKept s t p) (l : List α)
    (hf : ∀ u a, RotKept u (f u a) p) : RotKept s (l.foldl f t) p :=
  foldl_keeps (Q := fun u => RotKept s u p) f l t h fun u a hu => hu.trans (hf u a)

theorem RotKept.ite {s t u : State} {p : Nat} {c : Prop} [Decidable c] (ht : RotKept s t p) (hu : RotKept s u p) :
    RotKept s (if c then t else u) p :=
  ite_keeps (Q := fun v => RotKept s v p) c t u ht hu

/-! Examining the input (R91) -/

theorem State.modProduct_rotKept (s : State) (p id : Nat) (f : Product → Product) : RotKept s (s.modProduct p id f) p :=
  s.modPart_rotKept p fun _ => rfl

theorem State.examine_rotKept (s : State) (p : Nat) (d : Product) (seed : Nat) : RotKept s (s.examine p d seed) p := by
  unfold State.examine
  split
  · exact RotKept.refl s p
  · dsimp only
    split
    · exact ((s.modProduct_rotKept p d.id _).trans ((State.bump_only _ (.lad p) 8).rotKept p)).trans
        (State.modPart_rotKept _ p fun _ => rfl)
    · exact s.modProduct_rotKept p d.id _

theorem SameMemory.inputBlock {s t : State} (h : SameMemory s t) (d : Product) (token block : Nat) :
    t.inputBlock d token block = s.inputBlock d token block := by
  simp only [State.inputBlock, State.words32, State.word, State.bytes, h.1]

/-! Sending the segments (R89–R93) -/

theorem State.signalTrouble_rotKept (s : State) (p n : Nat) (f : Field) : RotKept s (s.signalTrouble p n f) p := by
  have hcount := (s.bump_only (.lad p) n).rotKept p
  unfold State.signalTrouble
  dsimp only
  split
  · exact hcount
  · exact hcount.trans (((State.wr_only _ (.lad p) f 1).trans (State.raise_only _ (.lad p) LAD_INT_trouble_flagged)).rotKept p)

theorem State.sendUp_rotKept (s : State) (p w : Nat) (gs : List (Segment × Bool)) : RotKept s (s.sendUp p w gs) p :=
  s.modPart_rotKept p fun _ => rfl

theorem State.sendDigits_rotKept (s : State) (p w : Nat) (d : Product) (token rb : Nat) (qs : List (List Nat)) :
    RotKept s (s.sendDigits p w d token rb qs) p := by
  unfold State.sendDigits
  split <;> exact s.sendUp_rotKept p w _

theorem State.sendSegments_rotKept (s : State) (p : Nat) (d : Product) (token rb : Nat) (qs : List (List Nat)) :
    RotKept s (s.sendSegments p d token rb qs) p := by
  unfold State.sendSegments
  split
  · exact (RotKept.refl s p).foldl _ fun t w => t.sendUp_rotKept p w _
  · have hsignals (n : Nat) : RotKept s ((List.range n).foldl (fun s _ => s.signalTrouble p 1 LAD_FLAGS_overflow) s) p :=
      (RotKept.refl s p).foldl _ fun t _ => t.signalTrouble_rotKept p 1 LAD_FLAGS_overflow
    refine RotKept.foldl ?outliers _ fun t w => ?segments
    case outliers =>
      refine RotKept.ite ?_ (hsignals _)
      exact (hsignals _).trans (State.modPart_rotKept _ p fun _ => rfl)
    case segments =>
      refine RotKept.ite (t.sendUp_rotKept p w _) (RotKept.ite ?_ ?_)
      · exact t.sendDigits_rotKept p w d token rb qs
      · exact t.sendUp_rotKept p w _

/-- What follows a rotated block: the segments of its 1024-row block, once all four quarters are there. -/
def State.sendRotated (s : State) (p product token block : Nat) : State :=
  match s.product? p product with
  | some d =>
    match s.quarters? p d token (block / 4) with
    | some qs => s.sendSegments p d token (block / 4) qs
    | none => s
  | none => s

theorem State.sendRotated_rotKept (s : State) (p product token block : Nat) : RotKept s (s.sendRotated p product token block) p := by
  unfold State.sendRotated
  split
  · split
    · exact s.sendSegments_rotKept p _ token _ _
    · exact RotKept.refl s p
  · exact RotKept.refl s p

/-! The two modes of the unit, while no engine reset stops it -/

/-- A rotated block joins those of its partition. -/
def State.keepBlock (s : State) (p : Nat) (b : RotBlock) : State := s.modPart p (fun q => { q with rot := q.rot ++ [b] })

theorem State.keepBlock_sameMemory (s : State) (p : Nat) (b : RotBlock) : SameMemory s (s.keepBlock p b) := s.modPart_sameMemory p _

theorem State.keepBlock_onlyPart (s : State) (p : Nat) (b : RotBlock) : OnlyPart s (s.keepBlock p b) p := s.modPart_onlyPart p _

@[simp] theorem State.keepBlock_rot (s : State) (p : Nat) (b : RotBlock) : ((s.keepBlock p b).part p).rot = (s.part p).rot ++ [b] := by
  rw [State.keepBlock, State.modPart_eq, State.part_setPart_same]

/-- One block kept between two changes that leave the rotated blocks is the one more that there is. -/
theorem RotKept.keepBlock {s t u : State} {p : Nat} {b : RotBlock} (h : RotKept s t p) (h' : RotKept (t.keepBlock p b) u p) :
    SameMemory s u ∧ OnlyPart s u p ∧ (u.part p).rot = (s.part p).rot ++ [b] := by
  obtain ⟨hmem, hpart, hrot⟩ := h
  obtain ⟨hmem', hpart', hrot'⟩ := h'
  refine ⟨(hmem.trans (t.keepBlock_sameMemory p b)).trans hmem', fun q hq => ?_, ?_⟩
  · rw [hpart' q hq, t.keepBlock_onlyPart p b q hq, hpart q hq]
  · rw [hrot', State.keepBlock_rot, hrot]

/-- A block of an open product that is not rotated yet is rotated with its layer's seed, kept and counted, and segments follow (R87). -/
theorem exec_rotateBlock_forward {p : PartId} {s : State} {product token block : Nat} {d : Product}
    (hrun : s.stopped (isRotation p.val) = false) (hd : s.product? p.val product = some d) (htoken : token < d.tokens)
    (hblock : block < d.kp / 256) (hnew : s.rotated? p.val product token block = none) :
    let seed := layerSeed (s.layerEntry p.val d.layer)
    exec (.rotateBlock p (.forward product token block)) s =
      .next ((((s.examine p.val d seed).keepBlock p.val
        { product := product, token := token, block := block, x := rotate seed (s.inputBlock d token block) }).progress
          (.lad p.val)).sendRotated p.val product token block) := by
  intro seed
  have hgo : ¬(d.tokens ≤ token ∨ d.kp / 256 ≤ block ∨ (s.rotated? p.val product token block).isSome) := by
    simp only [hnew, Option.isSome_none, Bool.false_eq_true, or_false]
    omega
  rw [← (s.examine_rotKept p.val d seed).1.inputBlock d token block]
  simp only [exec, execRotateBlock, hrun, Bool.false_eq_true, if_false, hd, if_neg hgo]
  rfl

/-- A transpose whose ranges its partition may reach stores the 256 values, poisoned where the source is, and is counted (R211, R368). -/
theorem exec_rotateBlock_transpose {p : PartId} {s : State} {layer : Nat} {src dst : W64} (hrun : s.stopped (isRotation p.val) = false)
    (hlayer : layer < s.layers p.val) (hsrc : s.reach p.val src.toNat 1024 = true) (hdst : s.reach p.val dst.toNat 1024 = true) :
    exec (.rotateBlock p (.transpose layer src dst)) s =
      .next ((s.putWords32 dst.toNat (rotateT (layerSeed (s.layerEntry p.val layer)) (s.words32 src.toNat 256))
        (if s.poisonedIn src.toNat 1024 then granules dst.toNat 1024 else [])).progress (.lad p.val)) := by
  simp [exec, execRotateBlock, hrun, Nat.not_le.2 hlayer, hsrc, hdst]

/-- A store that is counted changes registers, device memory and its poison alone. -/
theorem State.store_progress_other (s : State) (a : Nat) (l : List Byte) (bad : List Nat) (pg : Page) :
    let t := (s.store a l bad).progress pg
    t = { s with regs := t.regs, mem := t.mem, poison := t.poison } :=
  congrArg (fun u : State => { u with regs := ((s.store a l bad).progress pg).regs }) (s.store_other a l bad)

@[simp] theorem State.rd_progress (s : State) (pg : Page) : (s.progress pg).rd pg HDR_PROGRESS = (s.rd pg HDR_PROGRESS + 1) % 2 ^ 32 :=
  s.rd_wr_same pg HDR_PROGRESS _

/-- Settles O30: the forward mode keeps one block between two steps that leave the rotated blocks; the transpose is one store and one
count. -/
theorem rotationsAreFormed : Obligations.RotationsAreFormed := by
  intro p s hrun
  refine ⟨fun product token block d hd htoken hblock hnew => ?forward, fun layer src dst hlayer hsrc hdst => ?transpose⟩
  case forward =>
    have hsent (t : State) : RotKept t ((t.progress (.lad p.val)).sendRotated p.val product token block) p.val :=
      ((t.progress_only (.lad p.val)).rotKept p.val).trans (State.sendRotated_rotKept _ p.val product token block)
    exact ⟨_, exec_rotateBlock_forward hrun hd htoken hblock hnew, (s.examine_rotKept p.val d _).keepBlock (hsent _)⟩
  case transpose =>
    refine ⟨_, exec_rotateBlock_transpose hrun hlayer hsrc hdst, fun b => ?_, s.store_progress_other _ _ _ _, fun pg f hn => ?_, ?_⟩
    · exact ((State.progress_only _ (.lad p.val)).acc_byte b).trans (s.byte_store _ b _ _)
    · rw [(State.progress_only _ (.lad p.val)).2 pg f hn, State.putWords32, State.store_rd]
    · rw [State.rd_progress, State.putWords32, State.store_rd]

end Sys2Proof.Machine
end

section
/-! PROOF. Fields that lie apart: which registers of the update engine's page and of the hitch page a write, a raised bit and a counted event
leave as they were (R477, R486), and what issuing a command that goes on leaves (R268). -/
namespace Sys2Proof.Machine

/-! Places in a page -/

/-- Both fields lie in a page's first 4 KiB, at different places: on whatever pages they are, they are different fields. -/
def Field.apart (f g : Field) : Bool :=
  decide (8 * f.off + f.lo < 0x8000 ∧ 8 * g.off + g.lo < 0x8000 ∧ 8 * f.off + f.lo ≠ 8 * g.off + g.lo)

theorem regKey_ne_of_apart {f g : Field} (h : f.apart g = true) (pg pg' : Page) : regKey pg f ≠ regKey pg' g := by
  obtain ⟨hf, hg, hne⟩ := of_decide_eq_true h
  exact regKey_ne_of_place pg pg' f g hf hg hne

theorem regKey_notin_of_apart {f : Field} {gs : List Field} (h : gs.all f.apart = true) (pg pg' : Page) :
    regKey pg f ∉ gs.map (regKey pg') := by
  intro hk
  obtain ⟨g, hg, he⟩ := List.mem_map.1 hk
  exact regKey_ne_of_apart (List.all_eq_true.1 h g hg) pg pg' he.symm

theorem State.rd_wr_apart {f g : Field} (h : f.apart g = true) (s : State) (pg pg' : Page) (v : Nat) :
    (s.wr pg f v).rd pg' g = s.rd pg' g := s.rd_wr_ne pg pg' f g v (regKey_ne_of_apart h pg pg')

/-! Fields of a partition's own registers, behind the common header -/

/-- The field is one of a page's own registers, which follow the common header (R486). -/
def Field.own (f : Field) : Bool := decide (0x100 ≤ f.off ∧ 8 * f.off + f.lo < 0x8000)

theorem Field.own.apart_header {f g : Field} (h : f.own = true) (hg : 8 * g.off + g.lo < 0x800) : f.apart g = true := by
  obtain ⟨hf, hlt⟩ := of_decide_eq_true h
  exact decide_eq_true (by omega)

theorem upd_base (p : Nat) : 0x100_0000 ≤ (Page.upd p).base := by simp [Page.base]; omega

theorem hch_base (p : Nat) : 0x100_0000 ≤ (Page.hch p).base := by simp [Page.base]; omega

theorem upd_mapIndex_lt (p : PartId) : (Page.upd p.val).mapIndex < 0x1200 := by simp [Page.mapIndex]; omega

theorem hch_mapIndex_lt (p : PartId) : (Page.hch p.val).mapIndex < 0x1200 := by simp [Page.mapIndex]; omega

theorem Page.vector_lt {pg : Page} (h : pg.mapIndex < 0x1200) : pg.vector < 16 := by
  unfold Page.vector
  split
  · omega
  · split <;> omega

/-- A field of a partition's page is no field of a page of the module. -/
theorem regKey_ne_of_low {pg pg' : Page} {f g : Field} (hpg : 0x100_0000 ≤ pg.base) (h : regKey pg' g < 0x800_0000) :
    regKey pg f ≠ regKey pg' g := by
  intro he
  rw [← he, regKey] at h
  omega

theorem regKey_notin_raiseKeys {pg pg' : Page} {f : Field} {b : Nat} (hpg : 0x100_0000 ≤ pg.base) (hf : f.own = true)
    (hm : pg'.mapIndex < 0x1200) (hb : b < 32) : regKey pg f ∉ raiseKeys pg' b := by
  have hv := Page.vector_lt hm
  have hint : regKey pg f ≠ regKey pg' (HDR_INT b) :=
    regKey_ne_of_apart (Field.own.apart_header hf (by simp only [HDR_INT]; omega)) pg pg'
  have hpba : regKey pg f ≠ regKey .hif (HIF_PBA pg'.vector) :=
    regKey_ne_of_low hpg (by simp only [regKey, Page.base, HIF_PBA]; omega)
  simp [raiseKeys, hint, hpba]

theorem regKey_notin_bumpKeys {pg pg' : Page} {f : Field} {n : Nat} (hpg : 0x100_0000 ≤ pg.base) (hf : f.own = true)
    (hm : pg'.mapIndex < 0x1200) (hn : n < 48) : regKey pg f ∉ bumpKeys pg' n := by
  have hcount : regKey pg f ≠ regKey pg' (HDR_ERRCNT n) :=
    regKey_ne_of_apart (Field.own.apart_header hf (by simp only [HDR_ERRCNT]; omega)) pg pg'
  have hmoved : regKey pg f ≠ regKey pg' HDR_MOVED := regKey_ne_of_apart (Field.own.apart_header hf (by decide)) pg pg'
  have hsaturated : regKey pg f ≠ regKey pg' HDR_SATURATED := regKey_ne_of_apart (Field.own.apart_header hf (by decide)) pg pg'
  have hmap : regKey pg f ≠ regKey .mgt (MGT_ERR_MAP_pages (pg'.mapIndex / 32)) :=
    regKey_ne_of_low hpg (by simp only [regKey, Page.base, MGT_ERR_MAP_pages]; omega)
  have hraised : regKey pg f ∉ raiseKeys .mgt MGT_INT_map_moved := regKey_notin_raiseKeys hpg hf (by decide) (by decide)
  simp [bumpKeys, hcount, hmoved, hsaturated, hmap, hraised]

theorem regKey_notin_tagging {pg : Page} (hpg : 0x100_0000 ≤ pg.base) (f : Field) : regKey pg f ∉ bumpKeys .pmc 1 := by
  have hsub : ∀ k ∈ bumpKeys .pmc 1, k ∈ tagKeys := by
    intro k hk
    unfold tagKeys
    simp [hk]
  exact fun hk => part_notin_tagKeys pg f hpg (hsub _ hk)

theorem State.rd_raise_own {pg pg' : Page} {f : Field} {b : Nat} (hpg : 0x100_0000 ≤ pg.base) (hf : f.own = true)
    (hm : pg'.mapIndex < 0x1200) (hb : b < 32) (s : State) : (s.raise pg' b).rd pg f = s.rd pg f :=
  (s.raise_only pg' b).2 pg f (regKey_notin_raiseKeys hpg hf hm hb)

/-! A command of a stream that goes on after its issue (R268, R471) -/

/-- A command has issued and its first operation starts. -/
def State.launched (s : State) (p op : Nat) (c : Cmd) (l : Launch) (w : Work) : State := (s.issue p op c l w).tagStart p (s.nextId p)

theorem State.launched_issued (s : State) (p op : Nat) (c : Cmd) (l : Launch) (w : Work) : Issued s (s.launched p op c l w) p op c l w :=
  (s.issue_issued p op c l w).tagStart _

theorem State.launched_frame (s : State) (p op : Nat) (c : Cmd) (l : Launch) (w : Work) :
    SeqFrame s (s.launched p op c l w) p (bumpKeys .pmc 1) :=
  ((s.issue_frame p op c l w).trans (State.tagStart_frame _ p _)).mono (by simp)

@[simp] theorem State.launched_hitch (s : State) (p op : Nat) (c : Cmd) (l : Launch) (w : Work) :
    ((s.launched p op c l w).part p).hitch = (s.part p).hitch := by
  obtain ⟨f, _, h⟩ := (s.issue p op c l w).tagStart_part p (s.nextId p)
  rw [State.launched, h, State.issue_part]

theorem State.rd_launched {pg : Page} (hpg : 0x100_0000 ≤ pg.base) (f : Field) (s : State) (p op : Nat) (c : Cmd) (l : Launch) (w : Work) :
    (s.launched p op c l w).rd pg f = s.rd pg f := (s.launched_frame p op c l w).2.2 pg f (regKey_notin_tagging hpg f)

/-- A command whose wait has ended runs its checks and its start. -/
theorem State.issueWith_launch {s : State} {p : Nat} {c : Cmd} {l : Launch} (h : s.issueLaunch p c = some l) (f : Launch → State) :
    s.issueWith p c f = f l := by simp [State.issueWith, h]

end Sys2Proof.Machine
end

section
/-! PROOF. O15: how a pass of the update engine begins and ends (R234, R239, R240, R243). -/
namespace Sys2Proof.Machine

/-! UPDATE (R234, R266) -/

/-- The pass that an UPDATE command begins: it holds its descriptors and has classified no chunk yet. -/
def UpdPass.begun (id : Nat) (ds : List UpdDesc) : UpdPass :=
  { cmd := id, h := 0, descs := ds, classified := false, jobs := [], flying := [], ratios := [], refused := false, stopped := false
    consts := [], prevConsts := [] }

/-- The registers show that a pass has begun: the engine is busy in its first phase, and no pass of the step is done. -/
def State.showPass (s : State) (p : Nat) : State :=
  (s.wrAll (.upd p) [(UPD_STATUS_busy, 1), (UPD_STATUS_phase, 1)]).wr (.hch p) HCH_RECOVER_pass_done 0

theorem State.showPass_only (s : State) (p : Nat) :
    OnlyRegs s (s.showPass p) ([regKey (.upd p) UPD_STATUS_busy, regKey (.upd p) UPD_STATUS_phase] ++
      [regKey (.hch p) HCH_RECOVER_pass_done]) :=
  (s.wrAll_only (.upd p) [(UPD_STATUS_busy, 1), (UPD_STATUS_phase, 1)]).trans (State.wr_only _ _ _ _)

theorem State.rd_showPass (s : State) (p : Nat) :
    (s.showPass p).rd (.upd p) UPD_STATUS_busy = 1 ∧ (s.showPass p).rd (.upd p) UPD_STATUS_phase = 1 ∧
      (s.showPass p).rd (.hch p) HCH_RECOVER_pass_done = 0 := by
  refine ⟨?_, ?_, State.rd_wr_same _ _ _ _⟩ <;>
    simp (disch := decide) only [State.showPass, State.wrAll, State.rd_wr_same, State.rd_wr_apart] <;> rfl

/-- The engine holds a pass. -/
def State.holdPass (s : State) (p : Nat) (u : UpdPass) : State := s.modPart p (fun x => { x with pass := some u })

@[simp] theorem State.holdPass_rd (s : State) (p : Nat) (u : UpdPass) (pg : Page) (f : Field) : (s.holdPass p u).rd pg f = s.rd pg f := rfl

@[simp] theorem State.holdPass_pass (s : State) (p : Nat) (u : UpdPass) : ((s.holdPass p u).part p).pass = some u := by
  rw [State.holdPass, State.modPart_eq, State.part_setPart_same]

@[simp] theorem State.holdPass_seq (s : State) (p : Nat) (u : UpdPass) : ((s.holdPass p u).part p).seq = (s.part p).seq := by
  rw [State.holdPass, State.modPart_eq, State.part_setPart_same]

/-- The `n` descriptors that an UPDATE command finds at an address (R241). -/
def State.updDescs (s : State) (a n : Nat) : List UpdDesc := (List.range n).map (fun i => readUpdDesc (s.bytes (a + 64 * i) 64))

/-- An UPDATE command whose descriptors are in order issues and begins its pass. -/
theorem exec_update_begins {p : PartId} {c : Cmd} {s : State} {l : Launch} {a n : Nat} {ds : List UpdDesc}
    (hn : bits c.b.toNat 0 32 = n) (hds : s.updDescs a n = ds) (hl : s.issueLaunch p.val c = some l) (hfree : (s.part p.val).pass = none)
    (ha : s.operandAt p.val c l.step c.a (64 * n) = some a) (hclean : s.poisonedIn a (64 * n) = false)
    (hlayer : ∀ d ∈ ds, d.layer < s.layers p.val) (hbf16 : (∃ d ∈ ds, d.bf16W = true) → s.feature 7 = true)
    (hreach : ∀ d ∈ ds, ∀ r ∈ d.ranges, s.reach p.val r.1 r.2 = true) :
    exec (.update p c) s = .next (((s.launched p.val 0x05 c l .pass).showPass p.val).holdPass p.val (.begun (s.nextId p.val) ds)) := by
  have hlayers : ds.any (fun d => decide (s.layers p.val ≤ d.layer)) = false := by
    simpa using hlayer
  have hfeature : (ds.any (fun d => d.bf16W) && !s.feature 7) = false := by
    cases h7 : s.feature 7 with
    | true => simp
    | false => simpa [h7] using hbf16
  have hranges : ds.any (fun d => d.ranges.any (fun r => !s.reach p.val r.1 r.2)) = false := by
    simpa using fun d hd r r' => hreach d hd (r, r')
  simp only [State.updDescs] at hds
  simp only [exec, execUpdate, State.issueWith_launch hl, hn, hds, hfree, ha, hclean, hlayers, hfeature, hranges, Option.isSome_none,
    Bool.false_eq_true, if_false]
  rfl

/-- What the command leaves, out of its issue, its registers and the pass that the engine then holds. -/
theorem State.begunPass_frame (s : State) (p : Nat) (c : Cmd) (l : Launch) (u : UpdPass) :
    SeqFrame s (((s.launched p 0x05 c l .pass).showPass p).holdPass p u) p
      (regKey (.upd p) UPD_STATUS_busy :: regKey (.upd p) UPD_STATUS_phase :: regKey (.hch p) HCH_RECOVER_pass_done :: bumpKeys .pmc 1) :=
  (((s.launched_frame p 0x05 c l .pass).trans ((State.showPass_only _ p).seqFrame p)).trans (State.setPart_frame _ p _)).mono fun k hk => by
    rw [List.append_nil] at hk
    exact List.perm_append_comm.subset hk

theorem State.begunPass_issued (s : State) (p : Nat) (c : Cmd) (l : Launch) (u : UpdPass) :
    Issued s (((s.launched p 0x05 c l .pass).showPass p).holdPass p u) p 0x05 c l .pass :=
  ((s.launched_issued p 0x05 c l .pass).of_regs (State.showPass_only _ p)).of_seq (State.holdPass_seq _ p u)

/-! UPDATE_PASS_END: the watch (R239, R240) -/

/-- The records of the partitions and the register UPD_STEP of one are as before. -/
def StepKept (s t : State) (p : Nat) : Prop :=
  (∀ q, t.part q = s.part q) ∧ t.rd (.upd p) UPD_STEP_step = s.rd (.upd p) UPD_STEP_step

theorem StepKept.refl (s : State) (p : Nat) : StepKept s s p := ⟨fun _ => rfl, rfl⟩

theorem StepKept.trans {s t u : State} {p : Nat} (h : StepKept s t p) (h' : StepKept t u p) : StepKept s u p :=
  ⟨fun q => (h'.1 q).trans (h.1 q), h'.2.trans h.2⟩

theorem StepKept.foldl {α : Type} {s t : State} {f : State → α → State} {p : Nat} (h : StepKept s t p) (l : List α)
    (hf : ∀ u a, StepKept u (f u a) p) : StepKept s (l.foldl f t) p :=
  foldl_keeps (Q := fun u => StepKept s u p) f l t h fun u a hu => hu.trans (hf u a)

theorem State.put_stepKept (s : State) (p a : Nat) (l : List Byte) : StepKept s (s.put a l) p := ⟨s.put_part a l, s.put_rd a l _ _⟩

/-- What the watch finds, where it finds it, is counted and reported (R240). -/
def State.reportIf (s : State) (p : Nat) (found : Bool) (n b : Nat) : State :=
  if found then (s.bump (.upd p) n).raise (.upd p) b else s

theorem State.reportIf_stepKept (s : State) (p : PartId) (found : Bool) {n b : Nat} (hn : n < 48) (hb : b < 32) :
    StepKept s (s.reportIf p.val found n b) p.val := by
  have hm := upd_mapIndex_lt p
  unfold State.reportIf
  split
  · refine ⟨fun q => by rw [(State.raise_only _ _ _).acc_part, (s.bump_only _ _).acc_part], ?_⟩
    rw [State.rd_raise_own (upd_base _) (by decide) hm hb, (s.bump_only _ _).2 _ _ (regKey_notin_bumpKeys (upd_base _) (by decide) hm hn)]
  · exact StepKept.refl s _

/-- Checking a layer writes its flags and reports a ratio out of its bounds and a run of zeros. -/
theorem State.checkLayer_reports (s : State) (p layer : Nat) : ∃ a flags out zero, s.checkLayer p layer =
    ((s.put a flags).reportIf p out 5 UPD_INT_ratio_out).reportIf p zero 6 UPD_INT_zero_run := ⟨_, _, _, _, rfl⟩

theorem State.checkLayer_stepKept (s : State) (p : PartId) (layer : Nat) : StepKept s (s.checkLayer p.val layer) p.val := by
  obtain ⟨a, flags, out, zero, h⟩ := s.checkLayer_reports p.val layer
  rw [h]
  exact ((s.put_stepKept p.val a flags).trans (State.reportIf_stepKept _ p out (by decide) (by decide))).trans
    (State.reportIf_stepKept _ p zero (by decide) (by decide))

theorem State.watch_stepKept (s : State) (p : PartId) (rs : List Ratio) : StepKept s (s.watch p.val rs) p.val := by
  have hsums := (StepKept.refl s p.val).foldl (rs.filter (fun r => r.any)) (f := fun t r => t.addSums p.val r)
    fun t r => t.put_stepKept p.val _ _
  unfold State.watch
  dsimp only
  split
  · exact hsums.foldl _ fun t layer => t.checkLayer_stepKept p layer
  · exact hsums

/-- Where no element was updated, there is nothing to add or check. -/
theorem State.watch_of_idle (s : State) (p : Nat) {rs : List Ratio} (h : ∀ r ∈ rs, r.any = false) : s.watch p rs = s := by
  have hlive : rs.filter (fun r => r.any) = [] := List.filter_eq_nil_iff.2 fun r hr => by simp [h r hr]
  simp [State.watch, State.each, hlive]

/-- The state in which a pass ends: its sums are in the layer entries, unless it was stopped. -/
def State.watched (s : State) (p : Nat) (u : UpdPass) : State := if u.stopped then s else s.watch p u.ratios

theorem State.watched_stepKept (s : State) (p : PartId) (u : UpdPass) : StepKept s (s.watched p.val u) p.val := by
  unfold State.watched
  split
  · exact StepKept.refl s _
  · exact s.watch_stepKept p _

theorem State.watched_of_idle (s : State) (p : Nat) {u : UpdPass} (h : (∀ r ∈ u.ratios, r.any = false) ∨ u.stopped = true) :
    s.watched p u = s := by
  unfold State.watched
  split
  · rfl
  · exact s.watch_of_idle p (h.resolve_right ‹_›)

/-! UPDATE_PASS_END: the engine is idle (R243) -/

theorem State.endPass_frame (s : State) (p : Nat) :
    SeqFrame s (s.endPass p) p ([UPD_STATUS_busy, UPD_STATUS_phase, UPD_STATUS_in_flight].map (regKey (.upd p))) :=
  ((s.setPart_frame p _).trans ((State.wrAll_only _ _ _).seqFrame p)).mono (by simp)

theorem State.endPass_part (s : State) (p : Nat) : (s.endPass p).part p = { s.part p with pass := none } := by
  rw [State.endPass, (State.wrAll_only _ _ _).acc_part, State.modPart_eq, State.part_setPart_same]

theorem State.endPass_busy (s : State) (p : Nat) : (s.endPass p).rd (.upd p) UPD_STATUS_busy = 0 := by
  simp (disch := decide) only [State.endPass, State.wrAll, State.rd_wr_same, State.rd_wr_apart, Nat.zero_mod]

/-! UPDATE_PASS_END: what a pass that was not refused reports (R243, R336) -/

/-- UPD_STEP takes the step and the interrupt is raised; a hitch that holds no refusal takes the pass as done. -/
def State.reportPass (s : State) (p h : Nat) : State :=
  let t := (s.wr (.upd p) UPD_STEP_step h).raise (.upd p) UPD_INT_pass_done
  if (t.part p).hitch.refused then t else t.wr (.hch p) HCH_RECOVER_pass_done 1

theorem State.reportPass_only (s : State) (p h : Nat) :
    OnlyRegs s (s.reportPass p h) (regKey (.upd p) UPD_STEP_step :: raiseKeys (.upd p) UPD_INT_pass_done ++
      [regKey (.hch p) HCH_RECOVER_pass_done]) := by
  have hraised := (s.wr_only (.upd p) UPD_STEP_step h).trans (State.raise_only _ (.upd p) UPD_INT_pass_done)
  unfold State.reportPass
  dsimp only
  split
  · exact hraised.mono (by simp +contextual)
  · exact (hraised.trans (State.wr_only _ _ _ _)).mono (by simp)

/-- A register that the vote's does not overlap reads as the raised interrupt leaves it. -/
theorem State.rd_reportPass {f : Field} (hf : HCH_RECOVER_pass_done.apart f = true) (s : State) (p h : Nat) (pg : Page) :
    (s.reportPass p h).rd pg f = ((s.wr (.upd p) UPD_STEP_step h).raise (.upd p) UPD_INT_pass_done).rd pg f := by
  unfold State.reportPass
  dsimp only
  split
  · rfl
  · exact State.rd_wr_apart hf _ _ _ _

theorem State.reportPass_step (s : State) (p : PartId) (h : Nat) : (s.reportPass p.val h).rd (.upd p.val) UPD_STEP_step = h % 2 ^ 64 := by
  rw [State.rd_reportPass (by decide), State.rd_raise_own (upd_base _) (by decide) (upd_mapIndex_lt p) (by decide), State.rd_wr_same]
  rfl

theorem State.reportPass_int (s : State) (p : PartId) (h : Nat) :
    (s.reportPass p.val h).rd (.upd p.val) (HDR_INT UPD_INT_pass_done) = 1 := by
  rw [State.rd_reportPass (by decide), State.rd_raise _ _ _ (by decide) (Page.vector_lt (upd_mapIndex_lt p))]

theorem State.reportPass_busy (s : State) (p : PartId) (h : Nat) :
    (s.reportPass p.val h).rd (.upd p.val) UPD_STATUS_busy = s.rd (.upd p.val) UPD_STATUS_busy := by
  rw [State.rd_reportPass (by decide), State.rd_raise_own (upd_base _) (by decide) (upd_mapIndex_lt p) (by decide),
    State.rd_wr_apart (by decide)]

theorem State.reportPass_done {s : State} {p : Nat} (hr : (s.part p).hitch.refused = false) (h : Nat) :
    (s.reportPass p h).rd (.hch p) HCH_RECOVER_pass_done = 1 := by
  have hpart := ((s.wr_only (.upd p) UPD_STEP_step h).trans (State.raise_only _ (.upd p) UPD_INT_pass_done)).acc_part p
  simp only [State.reportPass, hpart, hr, Bool.false_eq_true, if_false, State.rd_wr_same]
  rfl

/-! UPDATE_PASS_END -/

/-- The end of a pass: the engine is idle, and a pass that was not refused reports its step. -/
def State.finishPass (s : State) (p : Nat) (u : UpdPass) : State :=
  if u.refused then s.endPass p else (s.endPass p).reportPass p u.h

theorem exec_updatePassEnd {p : PartId} {s : State} {u : UpdPass} (hu : (s.part p.val).pass = some u) (hclass : u.classified = true)
    (hjobs : u.jobs = []) (hflying : u.flying = []) (hreach : s.reaches p.val (s.passRanges p.val u)) :
    exec (.updatePassEnd p) s = .next ((s.watched p.val u).finishPass p.val u) := by
  have hall : (s.passRanges p.val u).all (fun r => s.ownReach p.val r.1 r.2) = true := List.all_eq_true.2 hreach
  simp only [exec, execUpdatePassEnd, hu, hclass, hjobs, hflying, State.guarded, hall, Bool.not_true, List.isEmpty_nil, Bool.or_self,
    Bool.false_eq_true, if_false, if_true]
  rfl

theorem State.finishPass_frame (s : State) (p : Nat) (u : UpdPass) : ∃ ks, SeqFrame s (s.finishPass p u) p ks := by
  unfold State.finishPass
  split
  · exact ⟨_, s.endPass_frame p⟩
  · exact ⟨_, (s.endPass_frame p).trans ((State.reportPass_only _ p u.h).seqFrame p)⟩

theorem State.finishPass_part (s : State) (p : Nat) (u : UpdPass) : (s.finishPass p u).part p = { s.part p with pass := none } := by
  unfold State.finishPass
  split
  · exact s.endPass_part p
  · rw [(State.reportPass_only _ p u.h).acc_part, State.endPass_part]

theorem State.finishPass_busy (s : State) (p : PartId) (u : UpdPass) : (s.finishPass p.val u).rd (.upd p.val) UPD_STATUS_busy = 0 := by
  unfold State.finishPass
  split
  · exact s.endPass_busy p.val
  · rw [State.reportPass_busy, State.endPass_busy]

theorem State.finishPass_step_refused (s : State) (p : Nat) {u : UpdPass} (hu : u.refused = true) :
    (s.finishPass p u).rd (.upd p) UPD_STEP_step = s.rd (.upd p) UPD_STEP_step := by
  rw [State.finishPass, if_pos hu]
  exact (s.endPass_frame p).2.2 _ _ (regKey_notin_of_apart (by decide) _ _)

/-- Settles O15: the pass begins by its issue, its registers and its descriptors; it ends by the watch, which leaves the partitions and
UPD_STEP, and by what the idle engine then reports. -/
theorem updateBeginsItsPass : Obligations.UpdateBeginsItsPass := by
  refine ⟨fun p c s l a => ?begins, fun p s u hu hclass hjobs hflying hreach => ?ends⟩
  case begins =>
    intro n ds hl hfree ha hclean hlayer hbf16 hreach
    obtain ⟨hbusy, hphase, hdone⟩ := (s.launched p.val 0x05 c l .pass).rd_showPass p.val
    exact ⟨_, .begun (s.nextId p.val) ds, exec_update_begins (ds := ds) rfl rfl hl hfree ha hclean hlayer hbf16 hreach,
      s.begunPass_issued p.val c l _, State.holdPass_pass _ _ _, rfl, rfl, rfl, rfl, rfl,
      by rw [State.holdPass_rd, hbusy], by rw [State.holdPass_rd, hphase], by rw [State.holdPass_rd, hdone], s.begunPass_frame p.val c l _⟩
  case ends =>
    obtain ⟨hparts, hstep⟩ := s.watched_stepKept p u
    obtain ⟨ks, hframe⟩ := (s.watched p.val u).finishPass_frame p.val u
    refine ⟨_, exec_updatePassEnd hu hclass hjobs hflying hreach, by rw [State.finishPass_part],
      fun q hq => by rw [hframe.2.1 q hq, hparts], State.finishPass_busy _ p u,
      fun hrefused => by rw [State.finishPass_step_refused _ _ hrefused, hstep], fun hrefused => ?_, fun hidle => ?_⟩
    · have hfinish : ∀ t : State, t.finishPass p.val u = (t.endPass p.val).reportPass p.val u.h := fun t => by
        simp [State.finishPass, hrefused]
      rw [hfinish]
      refine ⟨State.reportPass_step _ p _, State.reportPass_int _ p _, fun hvote => State.reportPass_done ?_ _⟩
      rw [State.endPass_part, hparts]
      exact hvote
    · rw [s.watched_of_idle p.val hidle] at hframe ⊢
      exact hframe.sameMemory

end Sys2Proof.Machine
end

section
/-! PROOF. O18: what FLAG_ROUND leaves before its partition joins the round, and what HITCH open leaves at a free boundary and at any other
(R236, R237, R312, R336, R339). -/
namespace Sys2Proof.Machine

/-! FLAG_ROUND (R312) -/

/-- The stream raises its partition's non-finite flag (R237). -/
def State.flagRaised (s : State) (p : Nat) (raised : Bool) : State := if raised then s.raiseNf p else s

theorem State.flagRaised_frame (s : State) (p : Nat) (raised : Bool) : SeqFrame s (s.flagRaised p raised) p [] := by
  cases raised
  · exact SeqFrame.refl s p []
  · exact s.setPart_frame p _

@[simp] theorem State.flagRaised_seq (s : State) (p : Nat) (raised : Bool) : ((s.flagRaised p raised).part p).seq = (s.part p).seq := by
  cases raised
  · rfl
  · simp [State.flagRaised, State.raiseNf]

@[simp] theorem State.flagRaised_hitch (s : State) (p : Nat) (raised : Bool) :
    ((s.flagRaised p raised).part p).hitch = { (s.part p).hitch with localNf := (s.part p).hitch.localNf || raised } := by
  cases raised
  · simp [State.flagRaised]
  · simp [State.flagRaised, State.raiseNf]

/-- R336: the flag round of the open hitch's step makes that hitch exchanged. -/
def State.exchange (s : State) (p step : Nat) : State :=
  if step = s.rd (.hch p) HCH_OPEN_step then
    let t := s.wr (.hch p) HCH_RECOVER_exchanged 1
    if t.hch p = hchOpen then t.setHch p hchExchanged else t
  else s

theorem State.exchange_only (s : State) (p step : Nat) :
    OnlyRegs s (s.exchange p step) [regKey (.hch p) HCH_RECOVER_exchanged, regKey (.hch p) HCH_STATE_state] := by
  unfold State.exchange
  dsimp only
  split
  · split
    · exact (s.wr_only _ _ _).trans (State.wr_only _ _ _ _)
    · exact (s.wr_only _ _ _).mono (by simp)
  · exact OnlyRegs.refl s _

theorem State.exchange_exchanged {s : State} {p step : Nat} (h : step = s.rd (.hch p) HCH_OPEN_step) :
    (s.exchange p step).rd (.hch p) HCH_RECOVER_exchanged = 1 := by
  simp only [State.exchange, h, if_true]
  split
  · rw [State.setHch, State.rd_wr_apart (by decide), State.rd_wr_same]
    rfl
  · exact State.rd_wr_same _ _ _ _

theorem State.exchange_hch {s : State} {p step : Nat} (h : step = s.rd (.hch p) HCH_OPEN_step) (hopen : s.hch p = hchOpen) :
    (s.exchange p step).hch p = hchExchanged := by
  have hstill : (s.wr (.hch p) HCH_RECOVER_exchanged 1).hch p = hchOpen := (State.rd_wr_apart (by decide) _ _ _ _).trans hopen
  simp only [State.exchange, h, if_true, hstill]
  exact State.rd_wr_same _ _ _ _

/-- What FLAG_ROUND has done when its partition joins the round. -/
def State.flagged (s : State) (p : Nat) (c : Cmd) (l : Launch) (raised : Bool) : State :=
  ((s.launched p 7 c l .flagRound).flagRaised p raised).exchange p l.step

theorem exec_flagRound {p : PartId} {c : Cmd} {s : State} {l : Launch} (raised : Bool) (hl : s.issueLaunch p.val c = some l)
    (hfeature : s.feature 5 = true) (hroom : s.collsOf p.val < 4) :
    exec (.flagRound p c raised) s = .next ((s.flagged p.val c l raised).joinRound .flagRound l.step p.val) := by
  simp only [exec, execFlagRound, State.issueNeeding, State.issueWith_launch hl, hfeature, if_true, Nat.not_le.2 hroom, if_false]
  rfl

/-- Until the hitch is exchanged, its registers read as before. -/
theorem State.rd_flagRaised_launched (s : State) (p : Nat) (c : Cmd) (l : Launch) (raised : Bool) (f : Field) :
    ((s.launched p 7 c l .flagRound).flagRaised p raised).rd (.hch p) f = s.rd (.hch p) f := by
  rw [(State.flagRaised_frame _ p raised).2.2 _ _ (by simp), State.rd_launched (hch_base p)]

theorem State.flagged_issued (s : State) (p : Nat) (c : Cmd) (l : Launch) (raised : Bool) :
    Issued s (s.flagged p c l raised) p 7 c l .flagRound :=
  ((s.launched_issued p 7 c l .flagRound).of_seq (State.flagRaised_seq _ p raised)).of_regs (State.exchange_only _ p l.step)

theorem State.flagged_frame (s : State) (p : Nat) (c : Cmd) (l : Launch) (raised : Bool) :
    SeqFrame s (s.flagged p c l raised) p
      (regKey (.hch p) HCH_RECOVER_exchanged :: regKey (.hch p) HCH_STATE_state :: bumpKeys .pmc 1) :=
  (((s.launched_frame p 7 c l .flagRound).trans (State.flagRaised_frame _ p raised)).trans
    ((State.exchange_only _ p l.step).seqFrame p)).mono fun k hk => by
      rw [List.append_nil] at hk
      exact List.perm_append_comm.subset hk

theorem State.flagged_hitch (s : State) (p : Nat) (c : Cmd) (l : Launch) (raised : Bool) :
    ((s.flagged p c l raised).part p).hitch = { (s.part p).hitch with localNf := (s.part p).hitch.localNf || raised } := by
  rw [State.flagged, (State.exchange_only _ p l.step).acc_part, State.flagRaised_hitch, State.launched_hitch]

theorem State.flagged_exchanges {s : State} {p : Nat} {l : Launch} (h : l.step = s.rd (.hch p) HCH_OPEN_step) (c : Cmd) (raised : Bool) :
    (s.flagged p c l raised).rd (.hch p) HCH_RECOVER_exchanged = 1 ∧
      (s.hch p = hchOpen → (s.flagged p c l raised).hch p = hchExchanged) := by
  have hstep := h.trans (s.rd_flagRaised_launched p c l raised HCH_OPEN_step).symm
  exact ⟨State.exchange_exchanged hstep,
    fun hopen => State.exchange_hch hstep ((s.rd_flagRaised_launched p c l raised HCH_STATE_state).trans hopen)⟩

/-! Abort tokens (R313, R314) -/

theorem State.forwardToken_ports (s : State) (t : Token) (except : Option Nat) :
    s.forwardToken t except = { s with ports := (s.forwardToken t except).ports } := by
  unfold State.forwardToken State.each
  refine foldl_keeps (Q := fun u => u = { s with ports := u.ports }) _ _ s rfl fun u i hu => ?_
  rw [hu]
  rfl

/-- A token waits to be acted on and leaves on every job port. -/
def State.queueToken (s : State) (t : Token) : State := (s.modFabric (fun f => { f with tokens := f.tokens ++ [t] })).forwardToken t none

theorem State.queueToken_other (s : State) (t : Token) :
    s.queueToken t = { s with ports := (s.queueToken t).ports, fabric := (s.queueToken t).fabric } := by
  rw [State.queueToken, State.forwardToken_ports]
  rfl

/-- What emitting a token leaves: memory, the records of the partitions, and every register but those of its interrupt. -/
def TokenFrame (s t : State) : Prop :=
  SameMemory s t ∧ (∀ q, t.part q = s.part q) ∧ RegsBut s t (raiseKeys .fabG FABG_INT_abort_sent)

theorem TokenFrame.refl (s : State) : TokenFrame s s := ⟨SameMemory.refl s, fun _ => rfl, RegsBut.refl s _⟩

theorem State.emitToken_frame (s : State) (step : Nat) : TokenFrame s (s.emitToken step) := by
  unfold State.emitToken
  split
  · have hqueued := s.queueToken_other (s.ownToken step)
    have hraise : OnlyRegs (s.queueToken (s.ownToken step)) _ _ := State.raise_only _ .fabG FABG_INT_abort_sent
    refine ⟨SameMemory.trans ?_ hraise.sameMemory, fun q => (hraise.acc_part q).trans ?_, fun pg f hk => (hraise.2 pg f hk).trans ?_⟩ <;>
      rw [hqueued]
    · exact ⟨fun _ => rfl, fun _ => rfl, rfl⟩
    · rfl
    · rfl
  · exact TokenFrame.refl s

theorem State.emitFor_frame (s : State) (p : Nat) : TokenFrame s (s.emitFor p) := by
  unfold State.emitFor
  split
  · exact s.emitToken_frame _
  · exact TokenFrame.refl s

/-! The hitch is held (R336, R361) -/

theorem State.hold_only (s : State) (p : Nat) :
    OnlyRegs s (s.hold p) (regKey (.hch p) HCH_STATE_state :: raiseKeys (.hch p) HCH_INT_held) :=
  (s.wr_only _ _ _).trans (State.raise_only _ _ _)

theorem State.hold_hch (s : State) (p : PartId) : (s.hold p.val).hch p.val = hchHeld := by
  rw [State.hch, State.hold, State.rd_raise_own (hch_base _) (by decide) (hch_mapIndex_lt p) (by decide)]
  exact State.rd_wr_same _ _ _ _

/-- A partition emits its token and is held. -/
def State.emitHold (s : State) (p : Nat) : State := (s.emitFor p).hold p

theorem State.emitHold_sameMemory (s : State) (p : Nat) : SameMemory s (s.emitHold p) :=
  (s.emitFor_frame p).1.trans (State.hold_only _ p).sameMemory

theorem State.emitHold_part (s : State) (p q : Nat) : (s.emitHold p).part q = s.part q := by
  rw [State.emitHold, (State.hold_only _ p).acc_part, (s.emitFor_frame p).2.1]

theorem State.rd_emitHold {f : Field} (hf : f.own = true) (hs : HCH_STATE_state.apart f = true) (s : State) (p : PartId) :
    (s.emitHold p.val).rd (.upd p.val) f = s.rd (.upd p.val) f := by
  obtain ⟨_, _, hregs⟩ := s.emitFor_frame p.val
  rw [State.emitHold, State.hold, State.rd_raise_own (upd_base _) hf (hch_mapIndex_lt p) (by decide), State.setHch, State.rd_wr_apart hs,
    hregs _ _ (regKey_notin_raiseKeys (upd_base _) hf (by decide) (by decide))]

/-! HITCH open (R339) -/

/-- UPD_NF and the owner descriptors of the step before are cleared (R237). -/
def State.clearStep (s : State) (p : Nat) : State := (s.clearNf p).modPart p (fun x => { x with owned := [] })

theorem State.clearStep_frame (s : State) (p : Nat) :
    SeqFrame s (s.clearStep p) p ([UPD_NF_resolved, UPD_NF_set].map (regKey (.upd p))) :=
  (((s.wrAll_only _ _).seqFrame p).trans (State.setPart_frame _ p _)).mono (by simp)

theorem State.clearStep_part (s : State) (p : Nat) : (s.clearStep p).part p = { s.part p with owned := [] } := by
  rw [State.clearStep, State.modPart_eq, State.part_setPart_same, State.clearNf, (State.wrAll_only _ _ _).acc_part]

theorem State.rd_clearStep (s : State) (p : Nat) :
    (s.clearStep p).rd (.upd p) UPD_NF_resolved = 0 ∧ (s.clearStep p).rd (.upd p) UPD_NF_set = 0 := by
  simp (disch := decide) only [State.clearStep, State.clearNf, State.modPart_eq, State.setPart_acc_rd, State.wrAll, State.rd_wr_same,
    State.rd_wr_apart, Nat.zero_mod, and_self]

/-- The hitch opens for a step. -/
def State.openHitch (s : State) (p step : Nat) : State :=
  let t := s.wrAll (.hch p) [(HCH_OPEN_step, step), (HCH_RECOVER_exchanged, 0), (HCH_RECOVER_pass_done, 1)]
  ((t.wr (.upd p) UPD_HITCH_STEP_step step).modHitch p (fun h => { h with localNf := false, refused := false })).setHch p hchOpen

theorem State.openHitch_frame (s : State) (p step : Nat) : SeqFrame s (s.openHitch p step) p
    (([HCH_OPEN_step, HCH_RECOVER_exchanged, HCH_RECOVER_pass_done].map (regKey (.hch p)) ++ [regKey (.upd p) UPD_HITCH_STEP_step]) ++
      [regKey (.hch p) HCH_STATE_state]) :=
  (((((s.wrAll_only _ _).trans (State.wr_only _ _ _ _)).seqFrame p).trans (State.setPart_frame _ p _)).trans
    ((State.wr_only _ _ _ _).seqFrame p)).mono (by simp)

theorem State.openHitch_part (s : State) (p step : Nat) : (s.openHitch p step).part p =
    { s.part p with hitch := { (s.part p).hitch with localNf := false, refused := false } } := by
  simp only [State.openHitch, State.setHch, State.modHitch_eq, State.wr_acc_part, State.part_setPart_same]
  rw [(State.wrAll_only _ _ _).acc_part]

theorem State.rd_openHitch (s : State) (p step : Nat) :
    (s.openHitch p step).rd (.hch p) HCH_OPEN_step = step % 2 ^ 64 ∧
    (s.openHitch p step).rd (.upd p) UPD_HITCH_STEP_step = step % 2 ^ 64 ∧
    (s.openHitch p step).rd (.hch p) HCH_RECOVER_exchanged = 0 ∧ (s.openHitch p step).rd (.hch p) HCH_RECOVER_pass_done = 1 ∧
    (s.openHitch p step).hch p = hchOpen := by
  refine ⟨?_, ?_, ?_, ?_, State.rd_wr_same _ _ _ _⟩ <;>
    simp (disch := decide) only [State.openHitch, State.setHch, State.modHitch_eq, State.setPart_acc_rd, State.wrAll, State.rd_wr_same,
      State.rd_wr_apart] <;> rfl

theorem State.openHitch_nf (s : State) (p step : Nat) :
    (s.openHitch p step).rd (.upd p) UPD_NF_resolved = s.rd (.upd p) UPD_NF_resolved ∧
    (s.openHitch p step).rd (.upd p) UPD_NF_set = s.rd (.upd p) UPD_NF_set := by
  simp (disch := decide) only [State.openHitch, State.setHch, State.modHitch_eq, State.setPart_acc_rd, State.wrAll, State.rd_wr_apart,
    and_self]

theorem exec_hitchOpen {p : PartId} {c : Cmd} {s : State} {l : Launch} (hl : s.issueLaunch p.val c = some l) :
    exec (.hitchOpen p c) s = .next (if s.boundaryFree p.val l.step then ((s.issueDone p.val 8 c l).clearStep p.val).openHitch p.val l.step
      else ((s.issueDone p.val 8 c l).clearStep p.val).emitHold p.val) := by
  simp only [exec, execHitchOpen, State.issueWith_launch hl]
  rfl

/-- A command that completes at issue has completed, once issued (R268). -/
theorem State.issueDone_completed {s : State} {p op : Nat} {c : Cmd} {l : Launch} (h : s.signalsInside p (s.newCmd p op c l .done)) :
    Completed (s.issue p op c l .done) (s.issueDone p op c l) p (s.newCmd p op c l .done) := by
  have hpeers : (s.issue p op c l .done).peers p = s.peers p :=
    (s.issue_frame p op c l .done).2.2.peers (fun q => ⟨regKey_notin_tagging (thx_base q) _, regKey_notin_tagging (thx_base q) _⟩) p
  exact State.complete_completed _ p (s.toCycle.newCmd p op c l .done) fun q n hq => by
    rw [hpeers]
    exact h q n hq

/-- Settles O18: FLAG_ROUND leaves what its issue, the raised flag and the exchange of the open hitch leave; HITCH open completes, clears
what the step before left, and opens at a free boundary or is held at any other. -/
theorem flagRoundsAndHitchOpens : Obligations.FlagRoundsAndHitchOpens := by
  refine ⟨fun p c raised s l hl hfeature hroom => ?flagRound, fun p c s l hl hsig => ?hitchOpen⟩
  case flagRound =>
    exact ⟨s.flagged p.val c l raised, s.flagged_issued p.val c l raised, s.flagged_frame p.val c l raised, s.flagged_hitch p.val c l raised,
      fun hstep => State.flagged_exchanges hstep c raised, exec_flagRound raised hl hfeature hroom⟩
  case hitchOpen =>
    refine ⟨_, _, _, s.issue_issued p.val 8 c l .done, s.issue_frame p.val 8 c l .done, State.issueDone_completed hsig,
      exec_hitchOpen hl, ?_⟩
    generalize s.issueDone p.val 8 c l = v
    obtain ⟨hresolved, hset⟩ := v.rd_clearStep p.val
    cases hfree : s.boundaryFree p.val l.step with
    | true =>
      obtain ⟨hkeptResolved, hkeptSet⟩ := (v.clearStep p.val).openHitch_nf p.val l.step
      obtain ⟨hopen, hstep, hexchanged, hdone, hstate⟩ := (v.clearStep p.val).rd_openHitch p.val l.step
      have hpart := (v.clearStep p.val).openHitch_part p.val l.step
      rw [v.clearStep_part] at hpart
      rw [if_pos rfl]
      exact ⟨by rw [hkeptResolved, hresolved], by rw [hkeptSet, hset], by rw [hpart],
        fun _ => ⟨hopen, hstep, hexchanged, hdone, hstate, hpart,
          ((v.clearStep_frame p.val).trans (State.openHitch_frame _ p.val l.step)).mono (by simp +contextual)⟩, nofun⟩
    | false =>
      rw [if_neg Bool.false_ne_true]
      exact ⟨by rw [State.rd_emitHold (by decide) (by decide), hresolved], by rw [State.rd_emitHold (by decide) (by decide), hset],
        by rw [State.emitHold_part, v.clearStep_part], nofun,
        fun _ => ⟨State.hold_hch _ p, (v.clearStep_frame p.val).sameMemory.trans (State.emitHold_sameMemory _ p.val)⟩⟩

end Sys2Proof.Machine
end
